-- ==== Sys2Proof/Word.lean ====
section
/-! DEFINITION. The words of the machine: bytes, 32-bit words, 64-bit words, and a register word with its mod-15 residue
(R55, R119), together with the type of a sparse table. Their operations stand in Sys2Proof/Machine. -/
namespace Sys2Proof

/-- One byte of memory. -/
abbrev Byte := BitVec 8

/-- A 32-bit word. -/
abbrev W32 := BitVec 32

/-- A 64-bit word. -/
abbrev W64 := BitVec 64

/-- A 32-bit word of register space with its 4-bit residue field (R119). -/
structure RWord where
  val : W32
  res : BitVec 4
  deriving DecidableEq, Repr

/-- The word 0 with a zero residue: what a new window, a cleared latch and a free register hold (R115, R19). -/
def RWord.zero : RWord := ⟨0, 0⟩

/-- A table by number: pairs of key and value with rising keys, an absent key holding the table's default. -/
abbrev Sparse (α : Type) := List (Nat × α)

end Sys2Proof
end

