-- ==== Sys2Proof/Syntax.lean ====
section
/-! DEFINITION. The instructions of the Rhadel training processor as syntax: one constructor for every row of
spec/opcode_table.json. A row of a word carries the word's fields, each a number of the width its format gives (R15, R23).
A row of an event of the part (a step that no program word starts) carries what the surroundings or the choice of agent
supply: which block, which queue, a reading, the bytes of a frame (log entries 1 and 2). -/
namespace Sys2Proof

/-- One page mapping of a partition, in the model's own form (log entry 7; R140). `sz` is 0, 1 or 2 for pages of 64 KiB,
2 MiB and 1 GiB; the flags say which kinds of access the mapping allows. -/
structure MapEnt where
  va : Nat
  pa : Nat
  sz : Nat
  rd : Bool
  wr : Bool
  ex : Bool
  deriving DecidableEq, Repr

/-- A copy queue bound to an engine of the partition (R252, R292): its number, the sync offset of its header, the engine. -/
structure QBind where
  num : Nat
  off : Nat
  eng : Nat
  deriving DecidableEq, Repr

/-- A partition's configuration as firmware sets it (R292). `groups` lists its parallel groups with the ranks of each; their base
rank tables stand one after another at the descriptor's address in that order (R386; log entry 43). -/
structure PartCfg where
  slices : List Nat
  units : List Nat
  vfs : List Nat
  tvec : Nat
  tframe : Nat
  mbox : Nat
  rrdesc : Nat
  nx : Nat
  maps : List MapEnt
  queues : List QBind
  groups : List (Nat × Nat)
  deriving DecidableEq, Repr

/-- The instructions: one constructor per row of the opcode table. -/
inductive Instr where
  /-- CLAUSE_HEADER (R17): A group processes a clause header: waits on its dependence counters, waits on its barrier, then applies its guard to the lanes. -/
  | clauseHeader (n cls y wait b bar g sense guard : Nat)
  /-- SADD (R129): Scalar 64-bit wrapping add. -/
  | sadd (d a b : Nat)
  /-- SSUB (R129): Scalar 64-bit wrapping subtract. -/
  | ssub (d a b : Nat)
  /-- SMUL (R129): Scalar low 64 bits of the product. -/
  | smul (d a b : Nat)
  /-- SMULH (R129): Scalar high 64 bits of the exact signed product. -/
  | smulh (d a b : Nat)
  /-- SAND (R129): Scalar bitwise and. -/
  | sand (d a b : Nat)
  /-- SOR (R129): Scalar bitwise or. -/
  | sor (d a b : Nat)
  /-- SXOR (R129): Scalar bitwise xor. -/
  | sxor (d a b : Nat)
  /-- SSHL (R129): Scalar shift left; a count of 64 or more gives 0. -/
  | sshl (d a b : Nat)
  /-- SSHR (R129): Scalar logical shift right. -/
  | sshr (d a b : Nat)
  /-- SSRA (R129): Scalar arithmetic shift right. -/
  | ssra (d a b : Nat)
  /-- SMIN (R129): Scalar signed minimum. -/
  | smin (d a b : Nat)
  /-- SMAX (R129): Scalar signed maximum. -/
  | smax (d a b : Nat)
  /-- SMOV (R129): Scalar move that keeps the residues. -/
  | smov (d a : Nat)
  /-- SMOVI (R130): Sets a scalar register to a sign-extended 12-bit immediate. -/
  | smovi (d i : Nat)
  /-- SLUI (R130): Shifts a scalar register left by 12 and inserts 12 immediate bits. -/
  | slui (d a i : Nat)
  /-- SCMP (R131): Compares two scalars after a residue check and writes a scalar predicate. -/
  | scmp (c p a b : Nat)
  /-- SSEL (R131): Selects one of two scalars by a scalar predicate. -/
  | ssel (d a b p : Nat)
  /-- SFADD (R129): Scalar f32 add under RNE. -/
  | sfadd (d a b : Nat)
  /-- SFMUL (R129): Scalar f32 multiply under RNE. -/
  | sfmul (d a b : Nat)
  /-- SFMA (R129): Scalar f32 fused multiply-add with one rounding. -/
  | sfma (d a b : Nat)
  /-- SLD (R132): Scalar load through the group's scalar path. -/
  | sld (d a z o : Nat)
  /-- SST (R132): Scalar store through the group's scalar path. -/
  | sst (d a z o : Nat)
  /-- QFWD (R133): Pushes a scalar into the forward queue, waiting while it is full. -/
  | qfwd (a : Nat)
  /-- QRET (R133): Pops the oldest return-queue entry, waiting while it is empty. -/
  | qret (d : Nat)
  /-- SCLK (R133): Reads the core's cycle counter. -/
  | sclk (d : Nat)
  /-- SGID (R133): Reads an identifier chosen by a selector. -/
  | sgid (d s : Nat)
  /-- VADD (R88): Lane-wise wrapping integer add. -/
  | vadd (d a b t v : Nat)
  /-- VSUB (R88): Lane-wise wrapping integer subtract. -/
  | vsub (d a b t v : Nat)
  /-- VMUL (R88): Lane-wise low part of the integer product. -/
  | vmul (d a b t v : Nat)
  /-- VMULH (R88): Lane-wise high part of the signed or unsigned product. -/
  | vmulh (d a b t v : Nat)
  /-- VMAC (R88): Lane-wise multiply-accumulate into the destination. -/
  | vmac (d a b t v : Nat)
  /-- VADDC (R88): Lane-wise carry out of an unsigned add. -/
  | vaddc (d a b t v : Nat)
  /-- VABS (R88): Lane-wise absolute value. -/
  | vabs (d a t v : Nat)
  /-- VNEG (R88): Lane-wise negation. -/
  | vneg (d a t v : Nat)
  /-- VMIN (R88): Lane-wise signed or unsigned minimum. -/
  | vmin (d a b t v : Nat)
  /-- VMAX (R88): Lane-wise signed or unsigned maximum. -/
  | vmax (d a b t v : Nat)
  /-- VAND (R90): Bitwise and over lanes of any view. -/
  | vand (d a b t v : Nat)
  /-- VOR (R90): Bitwise or over lanes of any view. -/
  | vor (d a b t v : Nat)
  /-- VXOR (R90): Bitwise xor over lanes of any view. -/
  | vxor (d a b t v : Nat)
  /-- VNOT (R90): Bitwise not over lanes of any view. -/
  | vnot (d a t v : Nat)
  /-- VSHL (R88): Lane-wise shift left by a whole-lane count. -/
  | vshl (d a b t v : Nat)
  /-- VSHR (R88): Lane-wise logical shift right. -/
  | vshr (d a b t v : Nat)
  /-- VSRA (R88): Lane-wise arithmetic shift right. -/
  | vsra (d a b t v : Nat)
  /-- VPOPC (R88): Lane-wise population count. -/
  | vpopc (d a t v : Nat)
  /-- VCLZ (R88): Lane-wise count of leading zeros. -/
  | vclz (d a t v : Nat)
  /-- VBREV (R88): Lane-wise bit reversal. -/
  | vbrev (d a t v : Nat)
  /-- VBFX (R89): Extracts a zero-extended bit field. -/
  | vbfx (d a b t v : Nat)
  /-- VBFI (R89): Inserts a bit field into the destination. -/
  | vbfi (d a b t v : Nat)
  /-- VSEL (R90): Bitwise select under the destination as mask. -/
  | vsel (d a b t v : Nat)
  /-- VCMP (R92): Integer compare into a lane predicate, checking residues. -/
  | vcmp (c p a b v : Nat)
  /-- VMOV (R90): Lane move that keeps the operand's residue. -/
  | vmov (d a t v : Nat)
  /-- VMOVI (R91): Sets each lane to a sign-extended 17-bit immediate. -/
  | vmovi (d i : Nat)
  /-- VLUI (R91): Replaces bits 31 to 15 of each lane with an immediate. -/
  | vlui (d i : Nat)
  /-- VLEA (R88): Forms a scratchpad offset or a 56-bit virtual address. -/
  | vlea (d a b t v : Nat)
  /-- VFADD (R93): f32 add under a chosen rounding mode. -/
  | vfadd (d a b t m : Nat)
  /-- VFSUB (R93): f32 subtract under a chosen rounding mode. -/
  | vfsub (d a b t m : Nat)
  /-- VFMUL (R93): f32 multiply under a chosen rounding mode. -/
  | vfmul (d a b t m : Nat)
  /-- VFMA (R93): f32 fused multiply-add with one rounding. -/
  | vfma (d a b t m : Nat)
  /-- VFMIN (R94): f32 minimum that returns one operand unchanged. -/
  | vfmin (d a b t : Nat)
  /-- VFMAX (R94): f32 maximum that returns one operand unchanged. -/
  | vfmax (d a b t : Nat)
  /-- VFCMP (R95): f32 compare into a lane predicate. -/
  | vfcmp (c p a b : Nat)
  /-- VFCLASS (R96): Classifies an f32 value into a one-hot word. -/
  | vfclass (d a t : Nat)
  /-- VFRCP (R97): Reciprocal rounded to 12 significant bits. -/
  | vfrcp (d a t : Nat)
  /-- VFRSQ (R97): Reciprocal square root rounded to 12 significant bits. -/
  | vfrsq (d a t : Nat)
  /-- VFSQRT (R97): Correctly rounded square root. -/
  | vfsqrt (d a t : Nat)
  /-- VFEXP2 (R97): Correctly rounded 2 to the power a. -/
  | vfexp2 (d a t : Nat)
  /-- VFLOG2 (R97): Correctly rounded base-2 logarithm. -/
  | vflog2 (d a t : Nat)
  /-- VFTANH (R97): Correctly rounded hyperbolic tangent. -/
  | vftanh (d a t : Nat)
  /-- VFADD2 (R98): Adds packed f16 or bf16 pairs. -/
  | vfadd2 (d a b t v : Nat)
  /-- VFMUL2 (R98): Multiplies packed f16 or bf16 pairs. -/
  | vfmul2 (d a b t v : Nat)
  /-- VFMA2 (R98): Fused multiply-add on packed f16 or bf16 pairs. -/
  | vfma2 (d a b t v : Nat)
  /-- VCVT (R100): Converts between the lane type and the type of a selector. -/
  | vcvt (d a c r m t v : Nat)
  /-- VSRND (R101): Stochastically rounds each part under its control field. -/
  | vsrnd (d a b t v : Nat)
  /-- VRNG (R102): Counter-based random generator. -/
  | vrng (d a b t v : Nat)
  /-- VPACK (R103): Packs 32 narrow elements into E lanes at a lane offset. -/
  | vpack (d a b t e : Nat)
  /-- VUNPK (R103): Unpacks E lanes into 32 element codes. -/
  | vunpk (d a b t e : Nat)
  /-- VPLANE (R104): Rebuilds nested-plane integers with midpoint fill. -/
  | vplane (d a b t v : Nat)
  /-- VMXSCALE (R105): Computes the E8M0 scale of each block of 32 values. -/
  | vmxscale (d a b t v : Nat)
  /-- VMXQ (R106): Quantises each f32 part under its MX control word. -/
  | vmxq (d a b t v : Nat)
  /-- VQSWAP (R107): Reads a lane of the quad by xor of the lane index. -/
  | vqswap (d a b t v : Nat)
  /-- VQBCAST (R107): Broadcasts a lane of the quad. -/
  | vqbcast (d a b t v : Nat)
  /-- VQSUM (R107): Integer sum over the quad plus b. -/
  | vqsum (d a b t v : Nat)
  /-- VSHFL (R108): Reads any lane of the group chosen per lane. -/
  | vshfl (d a b t v : Nat)
  /-- VBCAST (R108): Broadcasts the lane chosen by a selector byte. -/
  | vbcast (d a b t v : Nat)
  /-- VRED (R109): Reduces the active lanes in the fixed tree order. -/
  | vred (d a b t v : Nat)
  /-- VSCAN (R109): Inclusive prefix over the active lanes in the fixed tree order. -/
  | vscan (d a b t v : Nat)
  /-- VBALLOT (R110): Writes the mask of active lanes whose test is non-zero. -/
  | vballot (d a b t v : Nat)
  /-- VSYS (R111): Adds a system value chosen by a selector. -/
  | vsys (d a b t v : Nat)
  /-- PAND (R112): Predicate and. -/
  | pand (d a b : Nat)
  /-- POR (R112): Predicate or. -/
  | por (d a b : Nat)
  /-- PXOR (R112): Predicate xor. -/
  | pxor (d a b : Nat)
  /-- PNOT (R112): Predicate not. -/
  | pnot (d a : Nat)
  /-- PMOV (R112): Predicate move. -/
  | pmov (d a : Nat)
  /-- PSET (R112): Sets a predicate to an immediate bit. -/
  | pset (d i : Nat)
  /-- VQPOP (R134): Pops the forward queue into every active lane. -/
  | vqpop (d t v : Nat)
  /-- VQPUSH (R134): Pushes the lowest active lane's value into the return queue. -/
  | vqpush (a v : Nat)
  /-- VLD (R155): Vector load through a 64-bit virtual address. -/
  | vld (d z r o b : Nat)
  /-- VST (R155): Vector store through a 64-bit virtual address. -/
  | vst (d z r o b : Nat)
  /-- VLDSP (R155): Scratchpad load that waits on presence bits. -/
  | vldsp (d z r o b : Nat)
  /-- VSTSP (R155): Scratchpad store that sets presence bits. -/
  | vstsp (d z r o b : Nat)
  /-- VLDT (R156): Loads a 512-byte scratchpad block transposed into a t slot. -/
  | vldt (d z r o b : Nat)
  /-- VLDX (R157): Loads from a cluster member's scratchpad. -/
  | vldx (d z r o b : Nat)
  /-- VSTX (R157): Stores to a cluster member's scratchpad. -/
  | vstx (d z r o b : Nat)
  /-- VPREF (R158): Brings sectors into the phase cache as prefetched copies. -/
  | vpref (z r o b : Nat)
  /-- PRSCLR (R159): Clears the presence bits of the named runs of lines. -/
  | prsclr (z r o : Nat)
  /-- PRSWAIT (R159): Waits until every named line is present. -/
  | prswait (z r o : Nat)
  /-- PRSTEST (R159): Writes a predicate telling whether each lane's run is present. -/
  | prstest (d z r o : Nat)
  /-- PHASE (R160): Phase boundary: drains, publishes by scope and refreshes the core. -/
  | phase (s : Nat)
  /-- MEMORY_ACCESS_COMPLETION (R154): A memory access reaches its completion point, and its dependence counter falls. -/
  | memoryAccessCompletion (core id : Nat)
  /-- PRESENCE_WAIT_RESUME (R143): A load or prswait that waited on absent lines performs once every line is present. -/
  | presenceWaitResume (blk grp : Nat)
  /-- PRESENCE_TIMEOUT (R144): A presence wait, or a cwait, rocall, rowait or roread wait, exceeds cr.prstimeout and raises presence-timeout. -/
  | presenceTimeout (blk grp : Nat)
  /-- DIVERGENCE_STARVATION (R63): A fibre unissued for 1,024 group words has its PC-set selected next. -/
  | divergenceStarvation (blk grp lane : Nat)
  /-- GROUP_PROMOTION (R122): A group whose skip count reaches 64 is promoted. -/
  | groupPromotion (core quad : Nat)
  /-- BRA (R71): Per-lane conditional branch on a lane predicate. -/
  | bra (n c o : Nat)
  /-- BRU (R71): Branch of the issuing set on a scalar predicate. -/
  | bru (n c o : Nat)
  /-- JMPI (R72): Indirect jump to a per-lane clause header. -/
  | jmpi (a v : Nat)
  /-- CALL (R73): Call that moves the register window and may spill a frame. -/
  | call (i : Nat)
  /-- RET (R73): Return that moves the register window back and may refill a frame. -/
  | ret
  /-- ENROL (R74): Enters the active lanes into a rejoin mask. -/
  | enrol (k : Nat)
  /-- REJOIN (R74): Parks enrolled lanes on a rejoin mask and releases it when complete. -/
  | rejoin (k : Nat)
  /-- STRIKE (R74): Removes the active lanes from a rejoin mask, possibly releasing it. -/
  | strike (k : Nat)
  /-- SPAWN (R75): Creates fibres in free lanes at a target. -/
  | spawn (d a b v : Nat)
  /-- EXIT (R76): Ends the active fibres, striking them from every mask. -/
  | exit
  /-- YIELD (R77): Defers the active lanes and ends the clause as with Y = 1. -/
  | yield
  /-- NOP (R77): No operation. -/
  | nop
  /-- FORK (R168): Starts the matrix or copy stream. -/
  | fork (k : Nat)
  /-- RDV (R168): Waits until a stream's run ends. -/
  | rdv (k : Nat)
  /-- BARAR (R136): Arrival of the group at a block barrier. -/
  | barar (i : Nat)
  /-- BARWT (R136): Waits on the group's arrival at a block barrier. -/
  | barwt (i : Nat)
  /-- BARSYNC (R136): Arrival at a block barrier followed by its wait. -/
  | barsync (i : Nat)
  /-- MSYNC (R78): Masked synchronisation of lanes of a group. -/
  | msync (a : Nat)
  /-- CLJOIN (R225): Enters the block into a cluster slot. -/
  | cljoin (d a b v : Nat)
  /-- CLLEAVE (R226): Leaves the cluster, vacating the block's slot. -/
  | clleave (d v : Nat)
  /-- CLSLOT (R227): Reads the cluster's slot states. -/
  | clslot (d v : Nat)
  /-- CLUSTER_JOIN_TIMEOUT (R228): A remote access parked on an empty or away slot beyond cr.joinwin raises cluster-empty. -/
  | clusterJoinTimeout (blk grp : Nat)
  /-- ATADD (R249): Atomic add at the home. -/
  | atadd (d a b v : Nat)
  /-- ATINC (R249): Atomic bounded increment. -/
  | atinc (d a b v : Nat)
  /-- ATBADD (R249): Atomic add bounded without wrap. -/
  | atbadd (d a b v : Nat)
  /-- ATMIN (R249): Atomic minimum. -/
  | atmin (d a b v : Nat)
  /-- ATMAX (R249): Atomic maximum. -/
  | atmax (d a b v : Nat)
  /-- ATAND (R249): Atomic and. -/
  | atand (d a b v : Nat)
  /-- ATOR (R249): Atomic or. -/
  | ator (d a b v : Nat)
  /-- ATXOR (R249): Atomic xor. -/
  | atxor (d a b v : Nat)
  /-- ATXCHG (R249): Atomic exchange. -/
  | atxchg (d a b v : Nat)
  /-- ATCAS (R249): Atomic compare and swap. -/
  | atcas (d a b v : Nat)
  /-- ATLD (R249): Atomic load at the home. -/
  | atld (d a v : Nat)
  /-- ATRED (R249): Posted f32 add at the home that retires on acceptance. -/
  | atred (a b v : Nat)
  /-- TKDEC (R250): Decrements a task's dependence counter, releasing it at 0. -/
  | tkdec (d a v : Nat)
  /-- TKADD (R250): Adds to a task's dependence counter within limits. -/
  | tkadd (d a b v : Nat)
  /-- TKMAKE (R250): Copies a task template into a record. -/
  | tkmake (d a b v : Nat)
  /-- TKTAKE (R251): Takes the next index of the block's own grid. -/
  | tktake (d v : Nat)
  /-- ROCALL (R373): Appends a call to a replayed object's log. -/
  | rocall (d a b : Nat)
  /-- ROWAIT (R374): Waits for local application of a call position and reads its outcome. -/
  | rowait (d a : Nat)
  /-- ROREAD (R375): Runs a method read-only against the local object state. -/
  | roread (d a b : Nat)
  /-- ROTRIM (R376): Sends a trim proposal for the call log. -/
  | rotrim (d a : Nat)
  /-- CPOST (R259): Claims a copy-queue slot and publishes a packet. -/
  | cpost (a b v : Nat)
  /-- CPOST_TRY (R259): Posts a packet only if the queue has room, setting a predicate. -/
  | cpostTry (n a b v : Nat)
  /-- CWAIT (R262): Waits until masked completion-bitmap bits are set, then refreshes. -/
  | cwait (a b v : Nat)
  /-- CTEST (R262): Tests masked completion-bitmap bits into a predicate. -/
  | ctest (d a b v : Nat)
  /-- CFENCE (R261): Posts a fence packet joining other queues. -/
  | cfence (a b v : Nat)
  /-- CREC (R263): Reads a completion record. -/
  | crec (d a b v : Nat)
  /-- CABORT (R263): Marks the block's unbegun packets abandoned. -/
  | cabort (d a v : Nat)
  /-- CCOLL (R350): Posts a collective on a channel. -/
  | ccoll (a v : Nat)
  /-- CGEN (R351): Reads the generation and this package's rank in a group. -/
  | cgen (d a v : Nat)
  /-- TRAP (R208): Takes the software-trap fault. -/
  | trap (i : Nat)
  /-- TRET (R208): Reloads the handler group from its trap frame and resumes the block. -/
  | tret
  /-- CSRR (R209): Reads a control register. -/
  | csrr (d r : Nat)
  /-- CSRW (R209): Writes a control register. -/
  | csrw (a r : Nat)
  /-- CTXSAVE (R210): Writes the halted block as a context image or a dump. -/
  | ctxsave (d a b : Nat)
  /-- CTXLOAD (R211): Replaces the halted block's state from a context image. -/
  | ctxload (d a : Nat)
  /-- MBPOST (R212): Posts an outbound debug mailbox message. -/
  | mbpost (d a b : Nat)
  /-- MBPOLL (R212): Takes an inbound debug mailbox message. -/
  | mbpoll (d a b : Nat)
  /-- HALT (R208): Terminates the block, or stops a management core. -/
  | halt
  /-- TLBINV (R265): Drops translation entries of the partition and waits for their accesses. -/
  | tlbinv (a b : Nat)
  /-- LDIO (R314): Management-core read of an X-die register. -/
  | ldio (d a i : Nat)
  /-- STIO (R314): Management-core write of an X-die register. -/
  | stio (d a i : Nat)
  /-- WFI (R315): Waits for an enabled management interrupt. -/
  | wfi
  /-- WFI_WAKE (R315): An enabled pending interrupt ends a waiting wfi. -/
  | wfiWake (m : Nat)
  /-- MCFG_INDEX (R171): Sets the low bits of an index register. -/
  | mcfgIndex (n i : Nat)
  /-- MCFG_AREA (R171): Sets the matrix-area base. -/
  | mcfgArea (u : Nat)
  /-- MCFG_AFMT (R171): Sets the A format and plane count. -/
  | mcfgAfmt (k t : Nat)
  /-- MCFG_GRP (R171): Sets the operand group. -/
  | mcfgGrp (g : Nat)
  /-- MCFG_HI (R171): Sets the high bits of an index register. -/
  | mcfgHi (n i : Nat)
  /-- MBIND (R172): Loads a B tile from the scratchpad into a mitten group. -/
  | mbind (g t h x l : Nat)
  /-- MROW_LINES (R174): Fills a row buffer from scratchpad lines. -/
  | mrowLines (r b g x i : Nat)
  /-- MROW_TSLOTS (R174): Fills a row buffer from t slots of the operand group. -/
  | mrowTslots (r b g x i : Nat)
  /-- MZERO (R176): Clears accumulator tiles and their check records. -/
  | mzero (a c : Nat)
  /-- MMUL (R177): Multiplies row buffers by mitten groups into tiles. -/
  | mmul (a r n g t k : Nat)
  /-- MMULW (R178): Multiplies A by 16-bit B held in group pairs. -/
  | mmulw (a r g t k : Nat)
  /-- MDRAIN (R184): Checks a tile and drains it as MX or np8 blocks with scales. -/
  | mdrain (a f p m s x : Nat)
  /-- MDRAIN_CH (R185): Checks a tile and stages it on a collective channel. -/
  | mdrainCh (a c : Nat)
  /-- MDRAINF (R186): Checks a tile and writes it unchanged to the scratchpad. -/
  | mdrainf (a x l : Nat)
  /-- MSIGNAL (R187): Arrival of the matrix sequencer at a barrier. -/
  | msignal (b : Nat)
  /-- MWAITB (R187): The matrix sequencer waits on its barrier arrival. -/
  | mwaitb (b : Nat)
  /-- MLOOP (R187): Decrements an index register and branches while non-zero. -/
  | mloop (x o : Nat)
  /-- MJMP (R187): Matrix-stream branch. -/
  | mjmp (o : Nat)
  /-- MSTAMP (R190): Sets a copy-in or copy-out time of a tile's pending stamp. -/
  | mstamp (a f : Nat)
  /-- MSTAMP_RETIRE (R190): Writes a tile's stamp record to the stamp ring and clears it. -/
  | mstampRetire (a : Nat)
  /-- MEND (R188): Ends the stream run after every earlier word. -/
  | mend
  /-- MNOP (R187): Matrix-stream no operation. -/
  | mnop
  /-- HALT_BROADCAST (R200): Taking a fault stops the block, drains its accesses, writes the trap frame and starts the handler. -/
  | haltBroadcast (blk : Nat)
  /-- DEBUG_STOP_BREAKPOINT (R205): A PC-set about to issue a breakpoint word takes debug-stop. -/
  | debugStopBreakpoint (blk grp : Nat)
  /-- DEBUG_STOP_REQUEST (R266): A write of dc.stopctl go stops the named block if resident on the die. -/
  | debugStopRequest (die : Nat)
  /-- TRACE_SAMPLE (R206): Every period a kind-1 trace record is written for one resident group. -/
  | traceSample (core : Nat)
  /-- PREEMPTION_SAVE (R215): A victim block is stopped, drained, published and saved, then its resources released. -/
  | preemptionSave (blk : Nat)
  /-- BLOCK_PLACEMENT (R241): A distributor places saved blocks or next indices on fitting cores. -/
  | blockPlacement (die : Nat)
  /-- DC_RETIRE_WRITE (R244): Setting a dc.retire bit retires a core and pre-empts its savable blocks. -/
  | dcRetireWrite (die hi val : Nat)
  /-- TLB_WALK (R245): A merged page walk completes and fills every waiter's TLB or faults them. -/
  | tlbWalk (die part page : Nat)
  /-- REPLAY_GAUNTLET_ADMIT (R220): The gauntlet admits a waiting atomic whose party the current chunk names. -/
  | replayGauntletAdmit (die blk grp : Nat)
  /-- REPLAY_GATE_TIMEOUT (R220): An atomic waits at the gauntlet beyond the gate limit and raises replay-divergence. -/
  | replayGateTimeout (die blk grp : Nat)
  /-- PACKET_BEGIN (R253): A copy engine begins the packet at its next index once it is claimed and valid. -/
  | packetBegin (q : Nat)
  /-- CHUNK_LANDING (R255): A chunk's writes are performed and its presence or bitmap bit is set. -/
  | chunkLanding (q : Nat) (data : List Nat)
  /-- PACKET_COMPLETION (R257): A packet ends, its completion record is written and ridx advances. -/
  | packetCompletion (q : Nat)
  /-- FENCE_PACKET (R261): A fence packet completes when every named queue has reached its recorded index. -/
  | fencePacket (q : Nat)
  /-- ABANDONED_SLOT_WRITE (R260): The queue logic writes a stopped post's slot as abandoned once room exists. -/
  | abandonedSlotWrite (q : Nat)
  /-- QUEUE_RESTART (R258): A host write of 1 to a stopped queue's state restarts it. -/
  | queueRestart (vf q : Nat)
  /-- TASK_RELEASE_WRITE (R294): A host write to the task-release window performs tkdec on a record. -/
  | taskReleaseWrite (vf off : Nat) (data : List Nat)
  /-- HOST_SYNC_ATOMIC (R293): A host PCIe AtomicOp FetchAdd through the sync aperture is performed at the home. -/
  | hostSyncAtomic (vf off size x : Nat)
  /-- HOST_CXL_MEM_ACCESS (R295): A host CXL.mem access is performed at the HBM home engine. -/
  | hostCxlMemAccess (wr off len : Nat) (data : List Nat)
  /-- HBM_CORRECTED_ERROR (R288): A corrected HBM error updates the classifier and may raise a repair request. -/
  | hbmCorrectedError (stack ch bank row col : Nat)
  /-- CLASSIFIER_ENTRY_EXPIRY (R288): A classifier entry without an error for 720 powered hours is freed. -/
  | classifierEntryExpiry (stack idx : Nat)
  /-- HBM_REPAIR (R290): A write of hb.repair go performs the requested repair for an entry. -/
  | hbmRepair (stack idx : Nat)
  /-- HBM_REPAIR_MOVE_DONE (R290): The controller's background move of a repair completes. -/
  | hbmRepairMoveDone (stack : Nat)
  /-- MC_IPEND_CLEAR (R298): A write of ones to mc.ipend clears served interrupt bits. -/
  | mcIpendClear (m val : Nat)
  /-- MC_POKE (R298): A write of mc.poke sets bit 7 of mc.ipend in the named cores. -/
  | mcPoke (m val : Nat)
  /-- PACKAGE_RESET (R300): Package reset returns every part to reset and runs the mask-ROM boot. -/
  | packageReset (selftest : Nat) (images : List (List Nat))
  /-- MGMT_IMAGE_RECEIVED (R300): A firmware image arrives on the management port in the firmware-wait state. -/
  | mgmtImageReceived (image : List Nat)
  /-- SPDM_GET_VERSION (R303): Answers the SPDM GET_VERSION request. -/
  | spdmGetVersion (req : List Nat)
  /-- SPDM_GET_CAPABILITIES (R303): Answers the SPDM GET_CAPABILITIES request. -/
  | spdmGetCapabilities (req : List Nat)
  /-- SPDM_NEGOTIATE_ALGORITHMS (R303): Answers NEGOTIATE_ALGORITHMS offering only ECDSA P-256 and SHA-256. -/
  | spdmNegotiateAlgorithms (req : List Nat)
  /-- SPDM_GET_DIGESTS (R303): Answers GET_DIGESTS for slot 0. -/
  | spdmGetDigests (req : List Nat)
  /-- SPDM_GET_CERTIFICATE (R303): Returns the alias and identity certificates of slot 0. -/
  | spdmGetCertificate (req : List Nat)
  /-- SPDM_CHALLENGE (R303): Answers an SPDM CHALLENGE. -/
  | spdmChallenge (req : List Nat)
  /-- SPDM_GET_MEASUREMENTS (R303): Returns the eight measurement registers signed with the alias key. -/
  | spdmGetMeasurements (req : List Nat)
  /-- LIFETIME_MONTH_END (R304): At each 720-hour month end firmware appends the summary records. -/
  | lifetimeMonthEnd
  /-- THROTTLE (R307): Power or junction limit suppresses issue on affected dies. -/
  | throttle (die power temp : Nat)
  /-- DIE_OVERTEMP_STOP (R307): A die at 105 degrees stops and its blocks are lost. -/
  | dieOvertempStop (die temp : Nat)
  /-- XS_FUSEMIN_WRITE (R316): A write of xs.fusemin raises the fused minimum security version. -/
  | xsFuseminWrite (val : Nat)
  /-- OPT_CTL_BITS (R317): A write of opt.ctl bits 2 to 0 switches the laser bank, tx and rx. -/
  | optCtlBits (p val : Nat)
  /-- OPT_STATE_OFF_REQUEST (R310): A write of state 0 turns the port off. -/
  | optStateOffRequest (p val : Nat)
  /-- OPT_STATE_UP_REQUEST (R310): A write of state 4 in state 2 checks the lane map, locks and eyes and brings the port up. -/
  | optStateUpRequest (p val : Nat)
  /-- OPT_LIT (R310): Every enabled laser's monitor exceeds 0x100 and the port enters state 1. -/
  | optLit (p : Nat) (mon : List Nat)
  /-- OPT_LIT_TIMEOUT (R318): A laser not lit within 100 microseconds enters state 8 with code 1. -/
  | optLitTimeout (p : Nat)
  /-- OPT_LASER_FAILURE (R310): An enabled laser's monitor falls to 0x100 and the port enters state 8. -/
  | optLaserFailure (p laser mon : Nat)
  /-- OPT_LOCK_SWEEP (R311): A write of opt.lockctl starts a heater sweep of the masked wavelengths. -/
  | optLockSweep (p val : Nat)
  /-- OPT_SWEEP_DONE (R311): The lock sweep ends, setting heats and lock bits. -/
  | optSweepDone (p : Nat) (readings : List (List Nat))
  /-- OPT_TRAIN (R312): A write of opt.trainctl starts eye training against the peer. -/
  | optTrain (p val : Nat)
  /-- OPT_TRAIN_DONE (R312): Training ends with the eyes written. -/
  | optTrainDone (p peer : Nat) (eyes : List Nat)
  /-- OPT_LANEMAP_WRITE (R313): A write of opt.lanemap takes effect at once or at the next slot guard. -/
  | optLanemapWrite (p val : Nat)
  /-- WAVELENGTH_LOSS (R331): A lost wavelength is remapped to the spare, to half width, or faults the port. -/
  | wavelengthLoss (p lam : Nat)
  /-- KEY_REQUEST_THRESHOLD (R334): A port's flit counter reaches 2^47 and requests a rekey. -/
  | keyRequestThreshold (p : Nat)
  /-- KEY_EXHAUSTED (R334): A port's flit counter reaches 2^48 - 1 and the port enters state 8 with code 6. -/
  | keyExhausted (p : Nat)
  /-- FE_KEYUSE_WRITE (R334): Flipping a port's key-use bit switches its key slot and resets its counter. -/
  | feKeyuseWrite (val : Nat)
  /-- FE_KEYDATA_WRITE (R354): A write of fe.keydata loads a word of the selected key slot. -/
  | feKeydataWrite (val : Nat)
  /-- FE_SCHED_LOCK (R324): Setting fe.sched bit 0 locks the engine to the rotor slot clock. -/
  | feSchedLock (val : Nat)
  /-- FE_TBLDATA_WRITE (R324): A write of fe.tbldata loads a schedule-table entry unless locked. -/
  | feTbldataWrite (val : Nat)
  /-- FE_CHPART_WRITE (R354): A write of fe.chpart assigns a channel unless it is in use. -/
  | feChpartWrite (ch val : Nat)
  /-- ROTOR_SLOT (R329): Each 2-microsecond slot the engine sends relay and own traffic on every up circuit. -/
  | rotorSlot
  /-- BURST_RECEIVED (R325): A received burst is checked by FEC and tag, and accepted or discarded for resend. -/
  | burstReceived (p sender slot ok vc seq dst : Nat) (flits : List (List Nat))
  /-- REMOTE_REQUEST_INGRESS (R338): A remote read, write or reduce arrives and is checked and performed at the target. -/
  | remoteRequestIngress (pkg spart mode dpart addr len mx : Nat) (data : List Nat)
  /-- REMOTE_ATOMIC_INGRESS (R339): A remote atomic is performed at the ingress atomic cache. -/
  | remoteAtomicIngress (pkg spart dpart addr op w64 x b2 : Nat)
  /-- LEASE_EXPIRY (R340): A 4-microsecond atomic-cache lease expires and the line is written back. -/
  | leaseExpiry (line : Nat)
  /-- REMOTE_TIMEOUT (R336): A target unreachable for 1 ms ends the remote packet with status 6. -/
  | remoteTimeout (q : Nat)
  /-- COLLECTIVE_HEAD (R350): A collective reaching the head of its channel queue is checked and begins. -/
  | collectiveHead (ch : Nat)
  /-- COLLECTIVE_FLIT_INGRESS (R347): A collective flit is accepted, dropped or answered with a retry notice by generation. -/
  | collectiveFlitIngress (ch src kind gen gid seq op dt red total base : Nat) (vals : List Nat)
  /-- COLLECTIVE_RESEND (R347): Every 10 microseconds a sender resends a flit refused as newer. -/
  | collectiveResend (id : Nat)
  /-- COLLECTIVE_ABORT_RECEIVED (R344): An abort from another rank ends the collective with status 5. -/
  | collectiveAbortReceived (ch src gen gid seq : Nat)
  /-- COLLECTIVE_COMPLETION (R349): A collective ends and each rank writes dst, its record and its bitmap bit. -/
  | collectiveCompletion (ch : Nat)
  /-- CAP_RECEIVED (R357): A package holding the cap sends its frames and a heartbeat passing the cap. -/
  | capReceived
  /-- CAP_REGENERATION (R358): After silence on the leaf a slot takes the cap and suspects the silent holder. -/
  | capRegeneration
  /-- POSSESSION_CLOSE (R358): A possession whose heartbeat and frames are all received takes effect in order. -/
  | possessionClose (port : Nat) (frames : List (List Nat))
  /-- NIRRAX_GAP_TIMEOUT (R359): A gap unfilled for 64 rotations sets the self-report bit. -/
  | nirraxGapTimeout
  /-- EXPEL_FALLBACK (R365): With no expel call within 4 rotations of confirmation, the next live slot makes the calls. -/
  | expelFallback (pkg : Nat)
  /-- CALL_APPLY (R369): The replay engine applies the next logged call's method to the object state. -/
  | callApply (part : Nat)
  /-- MEMBERSHIP_EXPEL (R378): Method expel vacates a package's ranks and advances gen. -/
  | membershipExpel (part : Nat)
  /-- MEMBERSHIP_ADMIT (R378): Method admit installs the pending joiner at its base and advances gen. -/
  | membershipAdmit (part : Nat)
  /-- MEMBERSHIP_REPLACE (R378): Method replace substitutes a spare for a live package and advances gen. -/
  | membershipReplace (part : Nat)
  /-- MEMBERSHIP_CLONE (R378): Method clone makes a spare the pending joiner for a vacant base. -/
  | membershipClone (part : Nat)
  /-- MEMBERSHIP_ABORT (R378): Method abort cancels a pending clone. -/
  | membershipAbort (part : Nat)
  /-- MEMBERSHIP_ADDSPARE (R378): Method addspare lists a package as a spare. -/
  | membershipAddspare (part : Nat)
  /-- MEMBERSHIP_GETGEN (R378): Read-only method returning gen. -/
  | membershipGetgen (part : Nat)
  /-- TRAINCTL_STEP (R380): Method step advances the step counter, skipping or applying and adjusting the scale. -/
  | trainctlStep (part : Nat)
  /-- TRAINCTL_SETSCALE (R380): Method setscale sets the loss scale. -/
  | trainctlSetscale (part : Nat)
  /-- TRAINCTL_SETCLIP (R380): Method setclip sets the clip threshold. -/
  | trainctlSetclip (part : Nat)
  /-- TRAINCTL_SETGROWTH (R380): Method setgrowth sets the growth interval. -/
  | trainctlSetgrowth (part : Nat)
  /-- TRAINCTL_GETSCALE (R380): Read-only method returning clip and scale. -/
  | trainctlGetscale (part : Nat)
  /-- TRAINCTL_GETSTEP (R380): Read-only method returning the step counter. -/
  | trainctlGetstep (part : Nat)
  /-- GENERATION_FENCE (R381): After its fence publication applies, a package swaps cr.gen and rank tables and restarts collectives. -/
  | generationFence (part : Nat)
  /-- CUFF_PAGE_COPY (R383): The first write to a marked page copies the old page to the shadow pool. -/
  | cuffPageCopy (part page : Nat)
  /-- JOIN_CLONE (R384): A spare's join engine reads stripes and objects from donors and then calls admit. -/
  | joinClone (part stripe status kind : Nat) (data : List Nat)
  /-- PARTITION_CONFIGURATION (R292): Management firmware sets a partition's configuration: its slices, units, virtual functions, per-block register values, Nirrax descriptor, objects and queues. -/
  | partitionConfiguration (part : Nat) (cfg : PartCfg)
  /-- MANAGEMENT_PORT_FRAME (R298): A frame arrives on the 25GBASE-R management port and sets mc.ipend bit 0 in every management core. -/
  | managementPortFrame (frame : List Nat)
  /-- HOST_SYNC_APERTURE_WRITE (R293): A host write through the BAR 0 sync aperture is performed at the home engine in the word's order, or dropped for a slice outside the partition. -/
  | hostSyncApertureWrite (vf off : Nat) (data : List Nat)
  /-- REGISTER_UNIT_RETIREMENT (R114): Firmware retires a 4 KiB register-space unit that repeatedly fails its residues, lowering cr.regcap. -/
  | registerUnitRetirement (core : Nat)
  /-- SOFT_ERROR (R183): A soft error changes a stored bit in register space, a tile or its checksums, making a residue or checksum mismatch. -/
  | softError (kind blk grp addr bit : Nat)
  /-- POWER_REMOVAL (R308): Power is removed from the package, and everything except the fuses and the serial flash loses its contents. -/
  | powerRemoval
  deriving DecidableEq, Repr

end Sys2Proof
end

