-- ==== Sys2Proof/WellFormed.lean ====
section
/-! DEFINITION. Which instructions are well formed: every field within the width its format gives (R23) and every value
one that R24 to R31 or the instruction's entry assigns (R33 checks 4 and 5). A term that is not well formed has no word. -/
namespace Sys2Proof

/-- An instruction is well formed when its fields fit their widths and hold values their entries assign. A step of the
part that no word starts is well formed whatever its data. -/
def Instr.wf : Instr → Bool
  | .clauseHeader n cls y wait b bar g sense guard =>
    decide (1 ≤ n ∧ n < 16 ∧ cls < 8 ∧ y < 2 ∧ wait < 64 ∧ b < 2 ∧ bar < 16 ∧ g < 2 ∧ sense < 2 ∧ guard < 16 ∧
      ¬ (g = 1 ∧ (cls = 0 ∨ cls = 7) ∧ 7 < guard) ∧ ¬ (g = 1 ∧ cls = 3))
  | .sadd d a b =>
    decide (d < 64 ∧ a < 64 ∧ b < 64)
  | .ssub d a b =>
    decide (d < 64 ∧ a < 64 ∧ b < 64)
  | .smul d a b =>
    decide (d < 64 ∧ a < 64 ∧ b < 64)
  | .smulh d a b =>
    decide (d < 64 ∧ a < 64 ∧ b < 64)
  | .sand d a b =>
    decide (d < 64 ∧ a < 64 ∧ b < 64)
  | .sor d a b =>
    decide (d < 64 ∧ a < 64 ∧ b < 64)
  | .sxor d a b =>
    decide (d < 64 ∧ a < 64 ∧ b < 64)
  | .sshl d a b =>
    decide (d < 64 ∧ a < 64 ∧ b < 64)
  | .sshr d a b =>
    decide (d < 64 ∧ a < 64 ∧ b < 64)
  | .ssra d a b =>
    decide (d < 64 ∧ a < 64 ∧ b < 64)
  | .smin d a b =>
    decide (d < 64 ∧ a < 64 ∧ b < 64)
  | .smax d a b =>
    decide (d < 64 ∧ a < 64 ∧ b < 64)
  | .smov d a =>
    decide (d < 64 ∧ a < 64)
  | .smovi d i =>
    decide (d < 64 ∧ i < 4096)
  | .slui d a i =>
    decide (d < 64 ∧ a < 64 ∧ i < 4096)
  | .scmp c p a b =>
    decide (c < 8 ∧ p < 8 ∧ a < 64 ∧ b < 64)
  | .ssel d a b p =>
    decide (d < 64 ∧ a < 64 ∧ b < 64 ∧ p < 8)
  | .sfadd d a b =>
    decide (d < 64 ∧ a < 64 ∧ b < 64)
  | .sfmul d a b =>
    decide (d < 64 ∧ a < 64 ∧ b < 64)
  | .sfma d a b =>
    decide (d < 64 ∧ a < 64 ∧ b < 64)
  | .sld d a z o =>
    decide (d < 64 ∧ a < 64 ∧ z < 4 ∧ o < 1024)
  | .sst d a z o =>
    decide (d < 64 ∧ a < 64 ∧ z < 4 ∧ o < 1024)
  | .qfwd a =>
    decide (a < 64)
  | .qret d =>
    decide (d < 64)
  | .sclk d =>
    decide (d < 64)
  | .sgid d s =>
    decide (d < 64 ∧ s < 4096 ∧ s < 7)
  | .vadd d a b t v =>
    decide (d < 128 ∧ a < 128 ∧ b < 128 ∧ t < 2 ∧ v < 4 ∧ d < 125 ∧ (t = 0 ∨ d = 0) ∧ v < 2)
  | .vsub d a b t v =>
    decide (d < 128 ∧ a < 128 ∧ b < 128 ∧ t < 2 ∧ v < 4 ∧ d < 125 ∧ (t = 0 ∨ d = 0) ∧ v < 2)
  | .vmul d a b t v =>
    decide (d < 128 ∧ a < 128 ∧ b < 128 ∧ t < 2 ∧ v < 4 ∧ d < 125 ∧ (t = 0 ∨ d = 0) ∧ v < 2)
  | .vmulh d a b t v =>
    decide (d < 128 ∧ a < 128 ∧ b < 128 ∧ t < 2 ∧ v < 4 ∧ d < 125 ∧ (t = 0 ∨ d = 0))
  | .vmac d a b t v =>
    decide (d < 128 ∧ a < 128 ∧ b < 128 ∧ t < 2 ∧ v < 4 ∧ d < 125 ∧ (t = 0 ∨ d = 0) ∧ v < 2)
  | .vaddc d a b t v =>
    decide (d < 128 ∧ a < 128 ∧ b < 128 ∧ t < 2 ∧ v < 4 ∧ d < 125 ∧ (t = 0 ∨ d = 0) ∧ v < 2)
  | .vabs d a t v =>
    decide (d < 128 ∧ a < 128 ∧ t < 2 ∧ v < 4 ∧ d < 125 ∧ (t = 0 ∨ d = 0) ∧ v < 2)
  | .vneg d a t v =>
    decide (d < 128 ∧ a < 128 ∧ t < 2 ∧ v < 4 ∧ d < 125 ∧ (t = 0 ∨ d = 0) ∧ v < 2)
  | .vmin d a b t v =>
    decide (d < 128 ∧ a < 128 ∧ b < 128 ∧ t < 2 ∧ v < 4 ∧ d < 125 ∧ (t = 0 ∨ d = 0))
  | .vmax d a b t v =>
    decide (d < 128 ∧ a < 128 ∧ b < 128 ∧ t < 2 ∧ v < 4 ∧ d < 125 ∧ (t = 0 ∨ d = 0))
  | .vand d a b t v =>
    decide (d < 128 ∧ a < 128 ∧ b < 128 ∧ t < 2 ∧ v < 4 ∧ d < 125 ∧ (t = 0 ∨ d = 0))
  | .vor d a b t v =>
    decide (d < 128 ∧ a < 128 ∧ b < 128 ∧ t < 2 ∧ v < 4 ∧ d < 125 ∧ (t = 0 ∨ d = 0))
  | .vxor d a b t v =>
    decide (d < 128 ∧ a < 128 ∧ b < 128 ∧ t < 2 ∧ v < 4 ∧ d < 125 ∧ (t = 0 ∨ d = 0))
  | .vnot d a t v =>
    decide (d < 128 ∧ a < 128 ∧ t < 2 ∧ v < 4 ∧ d < 125 ∧ (t = 0 ∨ d = 0))
  | .vshl d a b t v =>
    decide (d < 128 ∧ a < 128 ∧ b < 128 ∧ t < 2 ∧ v < 4 ∧ d < 125 ∧ (t = 0 ∨ d = 0) ∧ v < 2)
  | .vshr d a b t v =>
    decide (d < 128 ∧ a < 128 ∧ b < 128 ∧ t < 2 ∧ v < 4 ∧ d < 125 ∧ (t = 0 ∨ d = 0) ∧ v < 2)
  | .vsra d a b t v =>
    decide (d < 128 ∧ a < 128 ∧ b < 128 ∧ t < 2 ∧ v < 4 ∧ d < 125 ∧ (t = 0 ∨ d = 0) ∧ v < 2)
  | .vpopc d a t v =>
    decide (d < 128 ∧ a < 128 ∧ t < 2 ∧ v < 4 ∧ d < 125 ∧ (t = 0 ∨ d = 0) ∧ v < 2)
  | .vclz d a t v =>
    decide (d < 128 ∧ a < 128 ∧ t < 2 ∧ v < 4 ∧ d < 125 ∧ (t = 0 ∨ d = 0) ∧ v < 2)
  | .vbrev d a t v =>
    decide (d < 128 ∧ a < 128 ∧ t < 2 ∧ v < 4 ∧ d < 125 ∧ (t = 0 ∨ d = 0) ∧ v < 2)
  | .vbfx d a b t v =>
    decide (d < 128 ∧ a < 128 ∧ b < 128 ∧ t < 2 ∧ v < 4 ∧ d < 125 ∧ (t = 0 ∨ d = 0) ∧ v < 2)
  | .vbfi d a b t v =>
    decide (d < 128 ∧ a < 128 ∧ b < 128 ∧ t < 2 ∧ v < 4 ∧ d < 125 ∧ (t = 0 ∨ d = 0) ∧ v < 2)
  | .vsel d a b t v =>
    decide (d < 128 ∧ a < 128 ∧ b < 128 ∧ t < 2 ∧ v < 4 ∧ d < 125 ∧ (t = 0 ∨ d = 0))
  | .vcmp c p a b v =>
    decide (c < 8 ∧ p < 16 ∧ a < 128 ∧ b < 128 ∧ v < 4 ∧ c < 6)
  | .vmov d a t v =>
    decide (d < 128 ∧ a < 128 ∧ t < 2 ∧ v < 4 ∧ d < 125 ∧ (t = 0 ∨ d = 0))
  | .vmovi d i =>
    decide (d < 128 ∧ i < 131072 ∧ d < 125)
  | .vlui d i =>
    decide (d < 128 ∧ i < 131072 ∧ d < 125)
  | .vlea d a b t v =>
    decide (d < 128 ∧ a < 128 ∧ b < 128 ∧ t < 2 ∧ v < 4 ∧ d < 125 ∧ (t = 0 ∨ d = 0) ∧ v < 2)
  | .vfadd d a b t m =>
    decide (d < 128 ∧ a < 128 ∧ b < 128 ∧ t < 2 ∧ m < 4 ∧ d < 125 ∧ (t = 0 ∨ d = 0))
  | .vfsub d a b t m =>
    decide (d < 128 ∧ a < 128 ∧ b < 128 ∧ t < 2 ∧ m < 4 ∧ d < 125 ∧ (t = 0 ∨ d = 0))
  | .vfmul d a b t m =>
    decide (d < 128 ∧ a < 128 ∧ b < 128 ∧ t < 2 ∧ m < 4 ∧ d < 125 ∧ (t = 0 ∨ d = 0))
  | .vfma d a b t m =>
    decide (d < 128 ∧ a < 128 ∧ b < 128 ∧ t < 2 ∧ m < 4 ∧ d < 125 ∧ (t = 0 ∨ d = 0))
  | .vfmin d a b t =>
    decide (d < 128 ∧ a < 128 ∧ b < 128 ∧ t < 2 ∧ d < 125 ∧ (t = 0 ∨ d = 0))
  | .vfmax d a b t =>
    decide (d < 128 ∧ a < 128 ∧ b < 128 ∧ t < 2 ∧ d < 125 ∧ (t = 0 ∨ d = 0))
  | .vfcmp c p a b =>
    decide (c < 8 ∧ p < 16 ∧ a < 128 ∧ b < 128 ∧ c < 7)
  | .vfclass d a t =>
    decide (d < 128 ∧ a < 128 ∧ t < 2 ∧ d < 125 ∧ (t = 0 ∨ d = 0))
  | .vfrcp d a t =>
    decide (d < 128 ∧ a < 128 ∧ t < 2 ∧ d < 125 ∧ (t = 0 ∨ d = 0))
  | .vfrsq d a t =>
    decide (d < 128 ∧ a < 128 ∧ t < 2 ∧ d < 125 ∧ (t = 0 ∨ d = 0))
  | .vfsqrt d a t =>
    decide (d < 128 ∧ a < 128 ∧ t < 2 ∧ d < 125 ∧ (t = 0 ∨ d = 0))
  | .vfexp2 d a t =>
    decide (d < 128 ∧ a < 128 ∧ t < 2 ∧ d < 125 ∧ (t = 0 ∨ d = 0))
  | .vflog2 d a t =>
    decide (d < 128 ∧ a < 128 ∧ t < 2 ∧ d < 125 ∧ (t = 0 ∨ d = 0))
  | .vftanh d a t =>
    decide (d < 128 ∧ a < 128 ∧ t < 2 ∧ d < 125 ∧ (t = 0 ∨ d = 0))
  | .vfadd2 d a b t v =>
    decide (d < 128 ∧ a < 128 ∧ b < 128 ∧ t < 2 ∧ v < 4 ∧ d < 125 ∧ (t = 0 ∨ d = 0) ∧ v < 2)
  | .vfmul2 d a b t v =>
    decide (d < 128 ∧ a < 128 ∧ b < 128 ∧ t < 2 ∧ v < 4 ∧ d < 125 ∧ (t = 0 ∨ d = 0) ∧ v < 2)
  | .vfma2 d a b t v =>
    decide (d < 128 ∧ a < 128 ∧ b < 128 ∧ t < 2 ∧ v < 4 ∧ d < 125 ∧ (t = 0 ∨ d = 0) ∧ v < 2)
  | .vcvt d a c r m t v =>
    decide (d < 128 ∧ a < 128 ∧ c < 16 ∧ r < 2 ∧ m < 4 ∧ t < 2 ∧ v < 4 ∧ d < 125 ∧ (t = 0 ∨ d = 0) ∧ v < 3 ∧ c ≠ 3 ∧ ¬ (v ≠ 1 ∧ c = 7) ∧ ¬ (v ≠ 1 ∧ c = 8 ∧ r = 1))
  | .vsrnd d a b t v =>
    decide (d < 128 ∧ a < 128 ∧ b < 128 ∧ t < 2 ∧ v < 4 ∧ d < 125 ∧ (t = 0 ∨ d = 0) ∧ v < 3)
  | .vrng d a b t v =>
    decide (d < 128 ∧ a < 128 ∧ b < 128 ∧ t < 2 ∧ v < 4 ∧ d < 125 ∧ (t = 0 ∨ d = 0) ∧ v < 3)
  | .vpack d a b t e =>
    decide (d < 128 ∧ a < 128 ∧ b < 128 ∧ t < 2 ∧ e < 4 ∧ d < 125 ∧ (t = 0 ∨ d = 0) ∧ e < 3)
  | .vunpk d a b t e =>
    decide (d < 128 ∧ a < 128 ∧ b < 128 ∧ t < 2 ∧ e < 4 ∧ d < 125 ∧ (t = 0 ∨ d = 0) ∧ e < 3)
  | .vplane d a b t v =>
    decide (d < 128 ∧ a < 128 ∧ b < 128 ∧ t < 2 ∧ v < 4 ∧ d < 125 ∧ (t = 0 ∨ d = 0) ∧ v < 3)
  | .vmxscale d a b t v =>
    decide (d < 128 ∧ a < 128 ∧ b < 128 ∧ t < 2 ∧ v < 4 ∧ d < 125 ∧ (t = 0 ∨ d = 0) ∧ v < 3)
  | .vmxq d a b t v =>
    decide (d < 128 ∧ a < 128 ∧ b < 128 ∧ t < 2 ∧ v < 4 ∧ d < 125 ∧ (t = 0 ∨ d = 0) ∧ v < 3)
  | .vqswap d a b t v =>
    decide (d < 128 ∧ a < 128 ∧ b < 128 ∧ t < 2 ∧ v < 4 ∧ d < 125 ∧ (t = 0 ∨ d = 0) ∧ v < 2)
  | .vqbcast d a b t v =>
    decide (d < 128 ∧ a < 128 ∧ b < 128 ∧ t < 2 ∧ v < 4 ∧ d < 125 ∧ (t = 0 ∨ d = 0) ∧ v < 2)
  | .vqsum d a b t v =>
    decide (d < 128 ∧ a < 128 ∧ b < 128 ∧ t < 2 ∧ v < 4 ∧ d < 125 ∧ (t = 0 ∨ d = 0) ∧ v < 2)
  | .vshfl d a b t v =>
    decide (d < 128 ∧ a < 128 ∧ b < 128 ∧ t < 2 ∧ v < 4 ∧ d < 125 ∧ (t = 0 ∨ d = 0) ∧ v < 2)
  | .vbcast d a b t v =>
    decide (d < 128 ∧ a < 128 ∧ b < 128 ∧ t < 2 ∧ v < 4 ∧ d < 125 ∧ (t = 0 ∨ d = 0) ∧ v < 2)
  | .vred d a b t v =>
    decide (d < 128 ∧ a < 128 ∧ b < 128 ∧ t < 2 ∧ v < 4 ∧ d < 125 ∧ (t = 0 ∨ d = 0) ∧ v < 2)
  | .vscan d a b t v =>
    decide (d < 128 ∧ a < 128 ∧ b < 128 ∧ t < 2 ∧ v < 4 ∧ d < 125 ∧ (t = 0 ∨ d = 0) ∧ v < 2)
  | .vballot d a b t v =>
    decide (d < 128 ∧ a < 128 ∧ b < 128 ∧ t < 2 ∧ v < 4 ∧ d < 125 ∧ (t = 0 ∨ d = 0) ∧ v < 2)
  | .vsys d a b t v =>
    decide (d < 128 ∧ a < 128 ∧ b < 128 ∧ t < 2 ∧ v < 4 ∧ d < 125 ∧ (t = 0 ∨ d = 0) ∧ v < 2)
  | .pand d a b =>
    decide (d < 128 ∧ a < 128 ∧ b < 128 ∧ d < 16 ∧ a < 16 ∧ b < 16)
  | .por d a b =>
    decide (d < 128 ∧ a < 128 ∧ b < 128 ∧ d < 16 ∧ a < 16 ∧ b < 16)
  | .pxor d a b =>
    decide (d < 128 ∧ a < 128 ∧ b < 128 ∧ d < 16 ∧ a < 16 ∧ b < 16)
  | .pnot d a =>
    decide (d < 128 ∧ a < 128 ∧ d < 16 ∧ a < 16)
  | .pmov d a =>
    decide (d < 128 ∧ a < 128 ∧ d < 16 ∧ a < 16)
  | .pset d i =>
    decide (d < 128 ∧ i < 2 ∧ d < 16)
  | .vqpop d t v =>
    decide (d < 128 ∧ t < 2 ∧ v < 4 ∧ d < 125 ∧ (t = 0 ∨ d = 0) ∧ v < 2)
  | .vqpush a v =>
    decide (a < 128 ∧ v < 4 ∧ v < 2)
  | .vld d z r o b =>
    decide (d < 128 ∧ z < 8 ∧ r < 16 ∧ o < 128 ∧ b < 8 ∧ z < 5 ∧ b ≠ 6 ∧ d < 125)
  | .vst d z r o b =>
    decide (d < 128 ∧ z < 8 ∧ r < 16 ∧ o < 128 ∧ b < 8 ∧ z < 5 ∧ b ≠ 6)
  | .vldsp d z r o b =>
    decide (d < 128 ∧ z < 8 ∧ r < 16 ∧ o < 128 ∧ b < 8 ∧ z < 5 ∧ b ≠ 6 ∧ d < 125)
  | .vstsp d z r o b =>
    decide (d < 128 ∧ z < 8 ∧ r < 16 ∧ o < 128 ∧ b < 8 ∧ z < 5 ∧ b ≠ 6)
  | .vldt d z r o b =>
    decide (d < 128 ∧ z < 8 ∧ r < 16 ∧ o < 128 ∧ b < 8 ∧ z < 3 ∧ b ≠ 6 ∧ d < 125)
  | .vldx d z r o b =>
    decide (d < 128 ∧ z < 8 ∧ r < 16 ∧ o < 128 ∧ b < 8 ∧ z < 5 ∧ b ≠ 6 ∧ d < 125)
  | .vstx d z r o b =>
    decide (d < 128 ∧ z < 8 ∧ r < 16 ∧ o < 128 ∧ b < 8 ∧ z < 5 ∧ b ≠ 6)
  | .vpref z r o b =>
    decide (z < 8 ∧ r < 16 ∧ o < 128 ∧ b < 8 ∧ z < 5 ∧ b ≠ 6)
  | .prsclr z r o =>
    decide (z < 8 ∧ r < 16 ∧ o < 128 ∧ z < 5)
  | .prswait z r o =>
    decide (z < 8 ∧ r < 16 ∧ o < 128 ∧ z < 5)
  | .prstest d z r o =>
    decide (d < 128 ∧ z < 8 ∧ r < 16 ∧ o < 128 ∧ z < 5 ∧ d < 16)
  | .phase s =>
    decide (s < 8 ∧ s < 6)
  | .memoryAccessCompletion _ _ => true
  | .presenceWaitResume _ _ => true
  | .presenceTimeout _ _ => true
  | .divergenceStarvation _ _ _ => true
  | .groupPromotion _ _ => true
  | .bra n c o =>
    decide (n < 2 ∧ c < 16 ∧ o < 524288)
  | .bru n c o =>
    decide (n < 2 ∧ c < 16 ∧ o < 524288 ∧ c < 8)
  | .jmpi a v =>
    decide (a < 128 ∧ v < 4 ∧ v < 2)
  | .call i =>
    decide (i < 16777216)
  | .ret => true
  | .enrol k =>
    decide (k < 8)
  | .rejoin k =>
    decide (k < 8)
  | .strike k =>
    decide (k < 8)
  | .spawn d a b v =>
    decide (d < 128 ∧ a < 128 ∧ b < 128 ∧ v < 4 ∧ v < 2 ∧ d < 125)
  | .exit => true
  | .yield => true
  | .nop => true
  | .fork k =>
    decide (k < 8 ∧ k < 2)
  | .rdv k =>
    decide (k < 8 ∧ k < 2)
  | .barar i =>
    decide (i < 131072 ∧ i < 16)
  | .barwt i =>
    decide (i < 131072 ∧ i < 16)
  | .barsync i =>
    decide (i < 131072 ∧ i < 16)
  | .msync a =>
    decide (a < 128)
  | .cljoin d a b v =>
    decide (d < 128 ∧ a < 128 ∧ b < 128 ∧ v < 4 ∧ v < 2 ∧ d < 125)
  | .clleave d v =>
    decide (d < 128 ∧ v < 4 ∧ v < 2 ∧ d < 125)
  | .clslot d v =>
    decide (d < 128 ∧ v < 4 ∧ v < 2 ∧ d < 125)
  | .clusterJoinTimeout _ _ => true
  | .atadd d a b v =>
    decide (d < 128 ∧ a < 128 ∧ b < 128 ∧ v < 4 ∧ v < 2 ∧ d < 125 ∧ (v = 1 ∨ a < 124))
  | .atinc d a b v =>
    decide (d < 128 ∧ a < 128 ∧ b < 128 ∧ v < 4 ∧ v < 2 ∧ d < 125 ∧ (v = 1 ∨ a < 124))
  | .atbadd d a b v =>
    decide (d < 128 ∧ a < 128 ∧ b < 128 ∧ v < 4 ∧ v < 2 ∧ d < 125 ∧ (v = 1 ∨ a < 124) ∧ b < 124)
  | .atmin d a b v =>
    decide (d < 128 ∧ a < 128 ∧ b < 128 ∧ v < 4 ∧ v < 2 ∧ d < 125 ∧ (v = 1 ∨ a < 124))
  | .atmax d a b v =>
    decide (d < 128 ∧ a < 128 ∧ b < 128 ∧ v < 4 ∧ v < 2 ∧ d < 125 ∧ (v = 1 ∨ a < 124))
  | .atand d a b v =>
    decide (d < 128 ∧ a < 128 ∧ b < 128 ∧ v < 4 ∧ v < 2 ∧ d < 125 ∧ (v = 1 ∨ a < 124))
  | .ator d a b v =>
    decide (d < 128 ∧ a < 128 ∧ b < 128 ∧ v < 4 ∧ v < 2 ∧ d < 125 ∧ (v = 1 ∨ a < 124))
  | .atxor d a b v =>
    decide (d < 128 ∧ a < 128 ∧ b < 128 ∧ v < 4 ∧ v < 2 ∧ d < 125 ∧ (v = 1 ∨ a < 124))
  | .atxchg d a b v =>
    decide (d < 128 ∧ a < 128 ∧ b < 128 ∧ v < 4 ∧ v < 2 ∧ d < 125 ∧ (v = 1 ∨ a < 124))
  | .atcas d a b v =>
    decide (d < 128 ∧ a < 128 ∧ b < 128 ∧ v < 4 ∧ v < 2 ∧ d < 125 ∧ (v = 1 ∨ a < 124) ∧ b < 124)
  | .atld d a v =>
    decide (d < 128 ∧ a < 128 ∧ v < 4 ∧ v < 2 ∧ d < 125 ∧ (v = 1 ∨ a < 124))
  | .atred a b v =>
    decide (a < 128 ∧ b < 128 ∧ v < 4 ∧ v < 2 ∧ (v = 1 ∨ a < 124))
  | .tkdec d a v =>
    decide (d < 128 ∧ a < 128 ∧ v < 4 ∧ v < 2 ∧ d < 125 ∧ (v = 1 ∨ a < 124))
  | .tkadd d a b v =>
    decide (d < 128 ∧ a < 128 ∧ b < 128 ∧ v < 4 ∧ v < 2 ∧ d < 125 ∧ (v = 1 ∨ a < 124))
  | .tkmake d a b v =>
    decide (d < 128 ∧ a < 128 ∧ b < 128 ∧ v < 4 ∧ v < 2 ∧ d < 125 ∧ (v = 1 ∨ a < 124) ∧ (v = 1 ∨ b < 124))
  | .tktake d v =>
    decide (d < 128 ∧ v < 4 ∧ v < 2 ∧ d < 125)
  | .rocall d a b =>
    decide (d < 128 ∧ a < 128 ∧ b < 128 ∧ d < 125)
  | .rowait d a =>
    decide (d < 128 ∧ a < 128 ∧ d < 124)
  | .roread d a b =>
    decide (d < 128 ∧ a < 128 ∧ b < 128 ∧ d < 124)
  | .rotrim d a =>
    decide (d < 128 ∧ a < 128 ∧ d < 125)
  | .cpost a b v =>
    decide (a < 128 ∧ b < 128 ∧ v < 4 ∧ v < 2)
  | .cpostTry n a b v =>
    decide (n < 16 ∧ a < 128 ∧ b < 128 ∧ v < 4 ∧ v < 2)
  | .cwait a b v =>
    decide (a < 128 ∧ b < 128 ∧ v < 4 ∧ v < 2)
  | .ctest d a b v =>
    decide (d < 128 ∧ a < 128 ∧ b < 128 ∧ v < 4 ∧ v < 2 ∧ d < 16)
  | .cfence a b v =>
    decide (a < 128 ∧ b < 128 ∧ v < 4 ∧ v < 2)
  | .crec d a b v =>
    decide (d < 128 ∧ a < 128 ∧ b < 128 ∧ v < 4 ∧ v < 2 ∧ d < 125)
  | .cabort d a v =>
    decide (d < 128 ∧ a < 128 ∧ v < 4 ∧ v < 2 ∧ d < 125)
  | .ccoll a v =>
    decide (a < 128 ∧ v < 4 ∧ v < 2)
  | .cgen d a v =>
    decide (d < 128 ∧ a < 128 ∧ v < 4 ∧ v < 2 ∧ d < 125)
  | .trap i =>
    decide (i < 4096)
  | .tret => true
  | .csrr d r =>
    decide (d < 64 ∧ r < 4096)
  | .csrw a r =>
    decide (a < 64 ∧ r < 4096)
  | .ctxsave d a b =>
    decide (d < 64 ∧ a < 64 ∧ b < 64)
  | .ctxload d a =>
    decide (d < 64 ∧ a < 64)
  | .mbpost d a b =>
    decide (d < 64 ∧ a < 64 ∧ b < 64)
  | .mbpoll d a b =>
    decide (d < 64 ∧ a < 64 ∧ b < 64)
  | .halt => true
  | .tlbinv a b =>
    decide (a < 64 ∧ b < 64)
  | .ldio d a i =>
    decide (d < 64 ∧ a < 64 ∧ i < 4096)
  | .stio d a i =>
    decide (d < 64 ∧ a < 64 ∧ i < 4096)
  | .wfi => true
  | .wfiWake _ => true
  | .mcfgIndex n i =>
    decide (n < 8 ∧ i < 65536 ∧ n ≠ 0)
  | .mcfgArea u =>
    decide (u < 65536 ∧ u < 32)
  | .mcfgAfmt k t =>
    decide (k < 32 ∧ t < 16 ∧ ((t = 0 ∧ 2 ≤ k ∧ k ≤ 8) ∨ (t = 1 ∧ 2 ≤ k ∧ k ≤ 16) ∨ (11 ≤ t ∧ 2 ≤ k ∧ k ≤ 8)))
  | .mcfgGrp g =>
    decide (g < 65536)
  | .mcfgHi n i =>
    decide (n < 8 ∧ i < 65536 ∧ n ≠ 0)
  | .mbind g t h x l =>
    decide (g < 16 ∧ t < 2 ∧ h < 4 ∧ x < 8 ∧ l < 2048 ∧ h < 3)
  | .mrowLines r b g x i =>
    decide (r < 4 ∧ b < 16 ∧ g < 128 ∧ x < 8 ∧ i < 128 ∧ g < 125)
  | .mrowTslots r b g x i =>
    decide (r < 4 ∧ b < 16 ∧ g < 128 ∧ x < 8 ∧ i < 128 ∧ g < 125)
  | .mzero a c =>
    decide (a < 32 ∧ c < 32 ∧ a + c < 32)
  | .mmul a r n g t k =>
    decide (a < 32 ∧ r < 4 ∧ n < 4 ∧ g < 16 ∧ t < 16 ∧ k < 16 ∧ 2 ≤ k ∧ k ≤ 8 ∧ a + t < 32 ∧ g + t * (n + 1) + n < 16)
  | .mmulw a r g t k =>
    decide (a < 32 ∧ r < 4 ∧ g < 16 ∧ t < 16 ∧ k < 32 ∧ 2 ≤ k ∧ k ≤ 16 ∧ a + t < 32 ∧ g % 2 = 0 ∧ g + 2 * t + 2 ≤ 16)
  | .mdrain a f p m s x =>
    decide (a < 32 ∧ f < 8 ∧ p < 4 ∧ m < 4 ∧ s < 128 ∧ x < 8 ∧ f < 6 ∧ s < 125)
  | .mdrainCh a c =>
    decide (a < 32 ∧ c < 128 ∧ c < 64)
  | .mdrainf a x l =>
    decide (a < 32 ∧ x < 8 ∧ l < 256)
  | .msignal b =>
    decide (b < 16)
  | .mwaitb b =>
    decide (b < 16)
  | .mloop x o =>
    decide (x < 8 ∧ o < 2097152 ∧ x ≠ 0)
  | .mjmp o =>
    decide (o < 16777216)
  | .mstamp a f =>
    decide (a < 32 ∧ f < 4 ∧ f < 3)
  | .mstampRetire a =>
    decide (a < 32)
  | .mend => true
  | .mnop => true
  | .haltBroadcast _ => true
  | .debugStopBreakpoint _ _ => true
  | .debugStopRequest _ => true
  | .traceSample _ => true
  | .preemptionSave _ => true
  | .blockPlacement _ => true
  | .dcRetireWrite _ _ _ => true
  | .tlbWalk _ _ _ => true
  | .replayGauntletAdmit _ _ _ => true
  | .replayGateTimeout _ _ _ => true
  | .packetBegin _ => true
  | .chunkLanding _ _ => true
  | .packetCompletion _ => true
  | .fencePacket _ => true
  | .abandonedSlotWrite _ => true
  | .queueRestart _ _ => true
  | .taskReleaseWrite _ _ _ => true
  | .hostSyncAtomic _ _ _ _ => true
  | .hostCxlMemAccess _ _ _ _ => true
  | .hbmCorrectedError _ _ _ _ _ => true
  | .classifierEntryExpiry _ _ => true
  | .hbmRepair _ _ => true
  | .hbmRepairMoveDone _ => true
  | .mcIpendClear _ _ => true
  | .mcPoke _ _ => true
  | .packageReset _ _ => true
  | .mgmtImageReceived _ => true
  | .spdmGetVersion _ => true
  | .spdmGetCapabilities _ => true
  | .spdmNegotiateAlgorithms _ => true
  | .spdmGetDigests _ => true
  | .spdmGetCertificate _ => true
  | .spdmChallenge _ => true
  | .spdmGetMeasurements _ => true
  | .lifetimeMonthEnd => true
  | .throttle _ _ _ => true
  | .dieOvertempStop _ _ => true
  | .xsFuseminWrite _ => true
  | .optCtlBits _ _ => true
  | .optStateOffRequest _ _ => true
  | .optStateUpRequest _ _ => true
  | .optLit _ _ => true
  | .optLitTimeout _ => true
  | .optLaserFailure _ _ _ => true
  | .optLockSweep _ _ => true
  | .optSweepDone _ _ => true
  | .optTrain _ _ => true
  | .optTrainDone _ _ _ => true
  | .optLanemapWrite _ _ => true
  | .wavelengthLoss _ _ => true
  | .keyRequestThreshold _ => true
  | .keyExhausted _ => true
  | .feKeyuseWrite _ => true
  | .feKeydataWrite _ => true
  | .feSchedLock _ => true
  | .feTbldataWrite _ => true
  | .feChpartWrite _ _ => true
  | .rotorSlot => true
  | .burstReceived _ _ _ _ _ _ _ _ => true
  | .remoteRequestIngress _ _ _ _ _ _ _ _ => true
  | .remoteAtomicIngress _ _ _ _ _ _ _ _ => true
  | .leaseExpiry _ => true
  | .remoteTimeout _ => true
  | .collectiveHead _ => true
  | .collectiveFlitIngress _ _ _ _ _ _ _ _ _ _ _ _ => true
  | .collectiveResend _ => true
  | .collectiveAbortReceived _ _ _ _ _ => true
  | .collectiveCompletion _ => true
  | .capReceived => true
  | .capRegeneration => true
  | .possessionClose _ _ => true
  | .nirraxGapTimeout => true
  | .expelFallback _ => true
  | .callApply _ => true
  | .membershipExpel _ => true
  | .membershipAdmit _ => true
  | .membershipReplace _ => true
  | .membershipClone _ => true
  | .membershipAbort _ => true
  | .membershipAddspare _ => true
  | .membershipGetgen _ => true
  | .trainctlStep _ => true
  | .trainctlSetscale _ => true
  | .trainctlSetclip _ => true
  | .trainctlSetgrowth _ => true
  | .trainctlGetscale _ => true
  | .trainctlGetstep _ => true
  | .generationFence _ => true
  | .cuffPageCopy _ _ => true
  | .joinClone _ _ _ _ _ => true
  | .partitionConfiguration _ _ => true
  | .managementPortFrame _ => true
  | .hostSyncApertureWrite _ _ _ => true
  | .registerUnitRetirement _ => true
  | .softError _ _ _ _ _ => true
  | .powerRemoval => true

end Sys2Proof
end

