-- ==== Sys2Proof/Decode.lean ====
section
/-! DEFINITION. Decoding and encoding of header words and instruction words (R15, R23, R34, and the pictures of class X in
"The Core: Matrix Engine and Its Stream"). Decoding is total: a word that is no instruction is rejected by the name of the
check of R33 that it fails. The encoder follows the same pictures. -/
namespace Sys2Proof

/-- Why a word is no instruction: the check of R33 that fails. -/
inductive DecodeErr where
  /-- Opcode 0x00 or an opcode that the class does not assign (check 3). -/
  | unassigned
  /-- A reserved bit is not zero (check 4). -/
  | reserved
  /-- A field holds a value that its entry does not assign (check 5). -/
  | illegalField
  /-- No instruction of the class ends there: fewer bytes than a word. -/
  | short
  deriving DecidableEq, Repr

/-- Bits [hi:lo] of a word. -/
def bits (w hi lo : Nat) : Nat := w / 2 ^ lo % 2 ^ (hi + 1 - lo)

/-- A candidate read from a word: refused where reserved bits are set or the fields are not legal. -/
def checked (resv : Bool) (i : Instr) : Except DecodeErr Instr :=
  if resv then .error .reserved else if i.wf then .ok i else .error .illegalField

/-- Reserved bits are set: one of the given bit ranges is not zero. -/
def anyBits (w : Nat) : List (Nat × Nat) → Bool
  | [] => false
  | (hi, lo) :: rest => decide (bits w hi lo ≠ 0) || anyBits w rest

/-- The instruction that a class S word holds (R34). -/
def decodeS (w : Nat) : Except DecodeErr Instr :=
  match w / 16777216 with
  | 1 => checked (anyBits w [(5, 0)]) (.sadd (bits w 23 18) (bits w 17 12) (bits w 11 6))
  | 2 => checked (anyBits w [(5, 0)]) (.ssub (bits w 23 18) (bits w 17 12) (bits w 11 6))
  | 3 => checked (anyBits w [(5, 0)]) (.smul (bits w 23 18) (bits w 17 12) (bits w 11 6))
  | 4 => checked (anyBits w [(5, 0)]) (.smulh (bits w 23 18) (bits w 17 12) (bits w 11 6))
  | 5 => checked (anyBits w [(5, 0)]) (.sand (bits w 23 18) (bits w 17 12) (bits w 11 6))
  | 6 => checked (anyBits w [(5, 0)]) (.sor (bits w 23 18) (bits w 17 12) (bits w 11 6))
  | 7 => checked (anyBits w [(5, 0)]) (.sxor (bits w 23 18) (bits w 17 12) (bits w 11 6))
  | 8 => checked (anyBits w [(5, 0)]) (.sshl (bits w 23 18) (bits w 17 12) (bits w 11 6))
  | 9 => checked (anyBits w [(5, 0)]) (.sshr (bits w 23 18) (bits w 17 12) (bits w 11 6))
  | 10 => checked (anyBits w [(5, 0)]) (.ssra (bits w 23 18) (bits w 17 12) (bits w 11 6))
  | 11 => checked (anyBits w [(5, 0)]) (.smin (bits w 23 18) (bits w 17 12) (bits w 11 6))
  | 12 => checked (anyBits w [(5, 0)]) (.smax (bits w 23 18) (bits w 17 12) (bits w 11 6))
  | 13 => checked (anyBits w [(11, 0)]) (.smov (bits w 23 18) (bits w 17 12))
  | 14 => checked (anyBits w [(17, 12)]) (.smovi (bits w 23 18) (bits w 11 0))
  | 15 => checked false (.slui (bits w 23 18) (bits w 17 12) (bits w 11 0))
  | 16 => checked (anyBits w [(5, 0)]) (.scmp (bits w 23 21) (bits w 20 18) (bits w 17 12) (bits w 11 6))
  | 17 => checked (anyBits w [(5, 3)]) (.ssel (bits w 23 18) (bits w 17 12) (bits w 11 6) (bits w 2 0))
  | 18 => checked (anyBits w [(5, 0)]) (.sfadd (bits w 23 18) (bits w 17 12) (bits w 11 6))
  | 19 => checked (anyBits w [(5, 0)]) (.sfmul (bits w 23 18) (bits w 17 12) (bits w 11 6))
  | 20 => checked (anyBits w [(5, 0)]) (.sfma (bits w 23 18) (bits w 17 12) (bits w 11 6))
  | 21 => checked false (.sld (bits w 23 18) (bits w 17 12) (bits w 11 10) (bits w 9 0))
  | 22 => checked false (.sst (bits w 23 18) (bits w 17 12) (bits w 11 10) (bits w 9 0))
  | 23 => checked (anyBits w [(23, 18), (11, 0)]) (.qfwd (bits w 17 12))
  | 24 => checked (anyBits w [(17, 0)]) (.qret (bits w 23 18))
  | 25 => checked (anyBits w [(17, 0)]) (.sclk (bits w 23 18))
  | 26 => checked (anyBits w [(17, 12)]) (.sgid (bits w 23 18) (bits w 11 0))
  | _ => .error .unassigned

/-- The instruction that a class W word holds (R34). -/
def decodeW (w : Nat) : Except DecodeErr Instr :=
  match w / 16777216 with
  | 1 => checked false (.vadd (bits w 23 17) (bits w 16 10) (bits w 9 3) (bits w 2 2) (bits w 1 0))
  | 2 => checked false (.vsub (bits w 23 17) (bits w 16 10) (bits w 9 3) (bits w 2 2) (bits w 1 0))
  | 3 => checked false (.vmul (bits w 23 17) (bits w 16 10) (bits w 9 3) (bits w 2 2) (bits w 1 0))
  | 4 => checked false (.vmulh (bits w 23 17) (bits w 16 10) (bits w 9 3) (bits w 2 2) (bits w 1 0))
  | 5 => checked false (.vmac (bits w 23 17) (bits w 16 10) (bits w 9 3) (bits w 2 2) (bits w 1 0))
  | 6 => checked false (.vaddc (bits w 23 17) (bits w 16 10) (bits w 9 3) (bits w 2 2) (bits w 1 0))
  | 7 => checked (anyBits w [(9, 3)]) (.vabs (bits w 23 17) (bits w 16 10) (bits w 2 2) (bits w 1 0))
  | 8 => checked (anyBits w [(9, 3)]) (.vneg (bits w 23 17) (bits w 16 10) (bits w 2 2) (bits w 1 0))
  | 9 => checked false (.vmin (bits w 23 17) (bits w 16 10) (bits w 9 3) (bits w 2 2) (bits w 1 0))
  | 10 => checked false (.vmax (bits w 23 17) (bits w 16 10) (bits w 9 3) (bits w 2 2) (bits w 1 0))
  | 11 => checked false (.vand (bits w 23 17) (bits w 16 10) (bits w 9 3) (bits w 2 2) (bits w 1 0))
  | 12 => checked false (.vor (bits w 23 17) (bits w 16 10) (bits w 9 3) (bits w 2 2) (bits w 1 0))
  | 13 => checked false (.vxor (bits w 23 17) (bits w 16 10) (bits w 9 3) (bits w 2 2) (bits w 1 0))
  | 14 => checked (anyBits w [(9, 3)]) (.vnot (bits w 23 17) (bits w 16 10) (bits w 2 2) (bits w 1 0))
  | 15 => checked false (.vshl (bits w 23 17) (bits w 16 10) (bits w 9 3) (bits w 2 2) (bits w 1 0))
  | 16 => checked false (.vshr (bits w 23 17) (bits w 16 10) (bits w 9 3) (bits w 2 2) (bits w 1 0))
  | 17 => checked false (.vsra (bits w 23 17) (bits w 16 10) (bits w 9 3) (bits w 2 2) (bits w 1 0))
  | 18 => checked (anyBits w [(9, 3)]) (.vpopc (bits w 23 17) (bits w 16 10) (bits w 2 2) (bits w 1 0))
  | 19 => checked (anyBits w [(9, 3)]) (.vclz (bits w 23 17) (bits w 16 10) (bits w 2 2) (bits w 1 0))
  | 20 => checked (anyBits w [(9, 3)]) (.vbrev (bits w 23 17) (bits w 16 10) (bits w 2 2) (bits w 1 0))
  | 21 => checked false (.vbfx (bits w 23 17) (bits w 16 10) (bits w 9 3) (bits w 2 2) (bits w 1 0))
  | 22 => checked false (.vbfi (bits w 23 17) (bits w 16 10) (bits w 9 3) (bits w 2 2) (bits w 1 0))
  | 23 => checked false (.vsel (bits w 23 17) (bits w 16 10) (bits w 9 3) (bits w 2 2) (bits w 1 0))
  | 24 => checked (anyBits w [(2, 2)]) (.vcmp (bits w 23 21) (bits w 20 17) (bits w 16 10) (bits w 9 3) (bits w 1 0))
  | 25 => checked (anyBits w [(9, 3)]) (.vmov (bits w 23 17) (bits w 16 10) (bits w 2 2) (bits w 1 0))
  | 26 => checked false (.vmovi (bits w 23 17) (bits w 16 0))
  | 27 => checked false (.vlui (bits w 23 17) (bits w 16 0))
  | 28 => checked false (.vlea (bits w 23 17) (bits w 16 10) (bits w 9 3) (bits w 2 2) (bits w 1 0))
  | 29 => checked false (.vfadd (bits w 23 17) (bits w 16 10) (bits w 9 3) (bits w 2 2) (bits w 1 0))
  | 30 => checked false (.vfsub (bits w 23 17) (bits w 16 10) (bits w 9 3) (bits w 2 2) (bits w 1 0))
  | 31 => checked false (.vfmul (bits w 23 17) (bits w 16 10) (bits w 9 3) (bits w 2 2) (bits w 1 0))
  | 32 => checked false (.vfma (bits w 23 17) (bits w 16 10) (bits w 9 3) (bits w 2 2) (bits w 1 0))
  | 33 => checked (anyBits w [(1, 0)]) (.vfmin (bits w 23 17) (bits w 16 10) (bits w 9 3) (bits w 2 2))
  | 34 => checked (anyBits w [(1, 0)]) (.vfmax (bits w 23 17) (bits w 16 10) (bits w 9 3) (bits w 2 2))
  | 35 => checked (anyBits w [(2, 0)]) (.vfcmp (bits w 23 21) (bits w 20 17) (bits w 16 10) (bits w 9 3))
  | 36 => checked (anyBits w [(9, 3), (1, 0)]) (.vfclass (bits w 23 17) (bits w 16 10) (bits w 2 2))
  | 37 => checked (anyBits w [(9, 3), (1, 0)]) (.vfrcp (bits w 23 17) (bits w 16 10) (bits w 2 2))
  | 38 => checked (anyBits w [(9, 3), (1, 0)]) (.vfrsq (bits w 23 17) (bits w 16 10) (bits w 2 2))
  | 39 => checked (anyBits w [(9, 3), (1, 0)]) (.vfsqrt (bits w 23 17) (bits w 16 10) (bits w 2 2))
  | 40 => checked (anyBits w [(9, 3), (1, 0)]) (.vfexp2 (bits w 23 17) (bits w 16 10) (bits w 2 2))
  | 41 => checked (anyBits w [(9, 3), (1, 0)]) (.vflog2 (bits w 23 17) (bits w 16 10) (bits w 2 2))
  | 42 => checked (anyBits w [(9, 3), (1, 0)]) (.vftanh (bits w 23 17) (bits w 16 10) (bits w 2 2))
  | 43 => checked false (.vfadd2 (bits w 23 17) (bits w 16 10) (bits w 9 3) (bits w 2 2) (bits w 1 0))
  | 44 => checked false (.vfmul2 (bits w 23 17) (bits w 16 10) (bits w 9 3) (bits w 2 2) (bits w 1 0))
  | 45 => checked false (.vfma2 (bits w 23 17) (bits w 16 10) (bits w 9 3) (bits w 2 2) (bits w 1 0))
  | 46 => checked false (.vcvt (bits w 23 17) (bits w 16 10) (bits w 9 6) (bits w 5 5) (bits w 4 3) (bits w 2 2) (bits w 1 0))
  | 47 => checked false (.vsrnd (bits w 23 17) (bits w 16 10) (bits w 9 3) (bits w 2 2) (bits w 1 0))
  | 48 => checked false (.vrng (bits w 23 17) (bits w 16 10) (bits w 9 3) (bits w 2 2) (bits w 1 0))
  | 49 => checked false (.vpack (bits w 23 17) (bits w 16 10) (bits w 9 3) (bits w 2 2) (bits w 1 0))
  | 50 => checked false (.vunpk (bits w 23 17) (bits w 16 10) (bits w 9 3) (bits w 2 2) (bits w 1 0))
  | 51 => checked false (.vplane (bits w 23 17) (bits w 16 10) (bits w 9 3) (bits w 2 2) (bits w 1 0))
  | 52 => checked false (.vmxscale (bits w 23 17) (bits w 16 10) (bits w 9 3) (bits w 2 2) (bits w 1 0))
  | 53 => checked false (.vmxq (bits w 23 17) (bits w 16 10) (bits w 9 3) (bits w 2 2) (bits w 1 0))
  | 54 => checked false (.vqswap (bits w 23 17) (bits w 16 10) (bits w 9 3) (bits w 2 2) (bits w 1 0))
  | 55 => checked false (.vqbcast (bits w 23 17) (bits w 16 10) (bits w 9 3) (bits w 2 2) (bits w 1 0))
  | 56 => checked false (.vqsum (bits w 23 17) (bits w 16 10) (bits w 9 3) (bits w 2 2) (bits w 1 0))
  | 57 => checked false (.vshfl (bits w 23 17) (bits w 16 10) (bits w 9 3) (bits w 2 2) (bits w 1 0))
  | 58 => checked false (.vbcast (bits w 23 17) (bits w 16 10) (bits w 9 3) (bits w 2 2) (bits w 1 0))
  | 59 => checked false (.vred (bits w 23 17) (bits w 16 10) (bits w 9 3) (bits w 2 2) (bits w 1 0))
  | 60 => checked false (.vscan (bits w 23 17) (bits w 16 10) (bits w 9 3) (bits w 2 2) (bits w 1 0))
  | 61 => checked false (.vballot (bits w 23 17) (bits w 16 10) (bits w 9 3) (bits w 2 2) (bits w 1 0))
  | 62 => checked false (.vsys (bits w 23 17) (bits w 16 10) (bits w 9 3) (bits w 2 2) (bits w 1 0))
  | 63 => checked (anyBits w [(2, 0)]) (.pand (bits w 23 17) (bits w 16 10) (bits w 9 3))
  | 64 => checked (anyBits w [(2, 0)]) (.por (bits w 23 17) (bits w 16 10) (bits w 9 3))
  | 65 => checked (anyBits w [(2, 0)]) (.pxor (bits w 23 17) (bits w 16 10) (bits w 9 3))
  | 66 => checked (anyBits w [(9, 0)]) (.pnot (bits w 23 17) (bits w 16 10))
  | 67 => checked (anyBits w [(9, 0)]) (.pmov (bits w 23 17) (bits w 16 10))
  | 68 => checked (anyBits w [(16, 2), (0, 0)]) (.pset (bits w 23 17) (bits w 1 1))
  | 69 => checked (anyBits w [(16, 3)]) (.vqpop (bits w 23 17) (bits w 2 2) (bits w 1 0))
  | 70 => checked (anyBits w [(23, 17), (9, 2)]) (.vqpush (bits w 16 10) (bits w 1 0))
  | _ => .error .unassigned

/-- The instruction that a class M word holds (R34). -/
def decodeM (w : Nat) : Except DecodeErr Instr :=
  match w / 16777216 with
  | 1 => checked false (.vld (bits w 23 17) (bits w 16 14) (bits w 13 10) (bits w 9 3) (bits w 2 0))
  | 2 => checked false (.vst (bits w 23 17) (bits w 16 14) (bits w 13 10) (bits w 9 3) (bits w 2 0))
  | 3 => checked false (.vldsp (bits w 23 17) (bits w 16 14) (bits w 13 10) (bits w 9 3) (bits w 2 0))
  | 4 => checked false (.vstsp (bits w 23 17) (bits w 16 14) (bits w 13 10) (bits w 9 3) (bits w 2 0))
  | 5 => checked false (.vldt (bits w 23 17) (bits w 16 14) (bits w 13 10) (bits w 9 3) (bits w 2 0))
  | 6 => checked false (.vldx (bits w 23 17) (bits w 16 14) (bits w 13 10) (bits w 9 3) (bits w 2 0))
  | 7 => checked false (.vstx (bits w 23 17) (bits w 16 14) (bits w 13 10) (bits w 9 3) (bits w 2 0))
  | 8 => checked (anyBits w [(23, 17)]) (.vpref (bits w 16 14) (bits w 13 10) (bits w 9 3) (bits w 2 0))
  | 9 => if bits w 2 0 = 7 then checked (anyBits w [(23, 17)]) (.prsclr (bits w 16 14) (bits w 13 10) (bits w 9 3)) else .error .illegalField
  | 10 => if bits w 2 0 = 7 then checked (anyBits w [(23, 17)]) (.prswait (bits w 16 14) (bits w 13 10) (bits w 9 3)) else .error .illegalField
  | 11 => if bits w 2 0 = 7 then checked false (.prstest (bits w 23 17) (bits w 16 14) (bits w 13 10) (bits w 9 3)) else .error .illegalField
  | 12 => if bits w 2 0 = 7 then checked (anyBits w [(23, 17), (13, 3)]) (.phase (bits w 16 14)) else .error .illegalField
  | _ => .error .unassigned

/-- The instruction that a class X word holds (R34). -/
def decodeX (w : Nat) : Except DecodeErr Instr :=
  match w / 16777216 with
  | 1 =>
    if anyBits w [(18, 16)] then .error .reserved
    else if bits w 23 22 = 0 then checked false (.mcfgIndex (bits w 21 19) (bits w 15 0))
    else if bits w 23 22 = 2 then checked false (.mcfgHi (bits w 21 19) (bits w 15 0))
    else if bits w 23 19 = 8 then checked (anyBits w [(18, 16)]) (.mcfgArea (bits w 15 0))
    else if bits w 23 19 = 9 then (if bits w 15 9 = 0 then checked (anyBits w [(18, 16)]) (.mcfgAfmt (bits w 8 4) (bits w 3 0)) else .error .illegalField)
    else if bits w 23 19 = 10 then checked (anyBits w [(18, 16)]) (.mcfgGrp (bits w 15 0))
    else .error .illegalField
  | 2 => checked (anyBits w [(13, 11)]) (.mbind (bits w 23 20) (bits w 19 19) (bits w 18 17) (bits w 16 14) (bits w 10 0))
  | 3 => if bits w 21 21 = 0 then checked false (.mrowLines (bits w 23 22) (bits w 20 17) (bits w 16 10) (bits w 9 7) (bits w 6 0)) else checked false (.mrowTslots (bits w 23 22) (bits w 20 17) (bits w 16 10) (bits w 9 7) (bits w 6 0))
  | 4 => checked (anyBits w [(13, 0)]) (.mzero (bits w 23 19) (bits w 18 14))
  | 5 => checked (anyBits w [(2, 0)]) (.mmul (bits w 23 19) (bits w 18 17) (bits w 16 15) (bits w 14 11) (bits w 10 7) (bits w 6 3))
  | 6 => checked (anyBits w [(16, 15), (1, 0)]) (.mmulw (bits w 23 19) (bits w 18 17) (bits w 14 11) (bits w 10 7) (bits w 6 2))
  | 7 => if bits w 18 18 = 0 then checked (anyBits w [(0, 0)]) (.mdrain (bits w 23 19) (bits w 17 15) (bits w 14 13) (bits w 12 11) (bits w 10 4) (bits w 3 1)) else if bits w 17 11 = 0 ∧ bits w 3 1 = 0 then checked (anyBits w [(0, 0)]) (.mdrainCh (bits w 23 19) (bits w 10 4)) else .error .illegalField
  | 8 => checked (anyBits w [(18, 11)]) (.mdrainf (bits w 23 19) (bits w 10 8) (bits w 7 0))
  | 9 => checked (anyBits w [(23, 4)]) (.msignal (bits w 3 0))
  | 10 => checked (anyBits w [(23, 4)]) (.mwaitb (bits w 3 0))
  | 11 => checked false (.mloop (bits w 23 21) (bits w 20 0))
  | 12 => checked false (.mjmp (bits w 23 0))
  | 13 => if bits w 18 17 = 3 then checked (anyBits w [(16, 0)]) (.mstampRetire (bits w 23 19)) else checked (anyBits w [(16, 0)]) (.mstamp (bits w 23 19) (bits w 18 17))
  | 14 => checked (anyBits w [(23, 0)]) (.mend)
  | 15 => checked (anyBits w [(23, 0)]) (.mnop)
  | _ => .error .unassigned

/-- The instruction that a class C word holds (R34). -/
def decodeC (w : Nat) : Except DecodeErr Instr :=
  match w / 16777216 with
  | 1 => if bits w 23 21 = 0 then (if bits w 20 17 = 0 then checked (anyBits w [(2, 2)]) (.cpost (bits w 16 10) (bits w 9 3) (bits w 1 0)) else .error .illegalField)
      else if bits w 23 21 = 4 then checked (anyBits w [(2, 2)]) (.cpostTry (bits w 20 17) (bits w 16 10) (bits w 9 3) (bits w 1 0)) else .error .illegalField
  | 2 => checked (anyBits w [(23, 17), (2, 2)]) (.cwait (bits w 16 10) (bits w 9 3) (bits w 1 0))
  | 3 => checked (anyBits w [(2, 2)]) (.ctest (bits w 23 17) (bits w 16 10) (bits w 9 3) (bits w 1 0))
  | 4 => checked (anyBits w [(23, 17), (2, 2)]) (.cfence (bits w 16 10) (bits w 9 3) (bits w 1 0))
  | 5 => checked (anyBits w [(2, 2)]) (.crec (bits w 23 17) (bits w 16 10) (bits w 9 3) (bits w 1 0))
  | 6 => checked (anyBits w [(9, 2)]) (.cabort (bits w 23 17) (bits w 16 10) (bits w 1 0))
  | 7 => checked (anyBits w [(23, 17), (9, 2)]) (.ccoll (bits w 16 10) (bits w 1 0))
  | 8 => checked (anyBits w [(9, 2)]) (.cgen (bits w 23 17) (bits w 16 10) (bits w 1 0))
  | _ => .error .unassigned

/-- The instruction that a class Y word holds (R34). -/
def decodeY (w : Nat) : Except DecodeErr Instr :=
  match w / 16777216 with
  | 1 => checked (anyBits w [(23, 17)]) (.barar (bits w 16 0))
  | 2 => checked (anyBits w [(23, 17)]) (.barwt (bits w 16 0))
  | 3 => checked (anyBits w [(23, 17)]) (.barsync (bits w 16 0))
  | 4 => checked (anyBits w [(23, 21), (13, 0)]) (.msync (bits w 20 14))
  | 5 => checked (anyBits w [(2, 2)]) (.cljoin (bits w 23 17) (bits w 16 10) (bits w 9 3) (bits w 1 0))
  | 6 => checked (anyBits w [(16, 2)]) (.clleave (bits w 23 17) (bits w 1 0))
  | 7 => checked (anyBits w [(16, 2)]) (.clslot (bits w 23 17) (bits w 1 0))
  | 8 => checked (anyBits w [(2, 2)]) (.atadd (bits w 23 17) (bits w 16 10) (bits w 9 3) (bits w 1 0))
  | 9 => checked (anyBits w [(2, 2)]) (.atinc (bits w 23 17) (bits w 16 10) (bits w 9 3) (bits w 1 0))
  | 10 => checked (anyBits w [(2, 2)]) (.atbadd (bits w 23 17) (bits w 16 10) (bits w 9 3) (bits w 1 0))
  | 11 => checked (anyBits w [(2, 2)]) (.atmin (bits w 23 17) (bits w 16 10) (bits w 9 3) (bits w 1 0))
  | 12 => checked (anyBits w [(2, 2)]) (.atmax (bits w 23 17) (bits w 16 10) (bits w 9 3) (bits w 1 0))
  | 13 => checked (anyBits w [(2, 2)]) (.atand (bits w 23 17) (bits w 16 10) (bits w 9 3) (bits w 1 0))
  | 14 => checked (anyBits w [(2, 2)]) (.ator (bits w 23 17) (bits w 16 10) (bits w 9 3) (bits w 1 0))
  | 15 => checked (anyBits w [(2, 2)]) (.atxor (bits w 23 17) (bits w 16 10) (bits w 9 3) (bits w 1 0))
  | 16 => checked (anyBits w [(2, 2)]) (.atxchg (bits w 23 17) (bits w 16 10) (bits w 9 3) (bits w 1 0))
  | 17 => checked (anyBits w [(2, 2)]) (.atcas (bits w 23 17) (bits w 16 10) (bits w 9 3) (bits w 1 0))
  | 18 => checked (anyBits w [(9, 2)]) (.atld (bits w 23 17) (bits w 16 10) (bits w 1 0))
  | 19 => checked (anyBits w [(23, 17), (2, 2)]) (.atred (bits w 16 10) (bits w 9 3) (bits w 1 0))
  | 20 => checked (anyBits w [(9, 2)]) (.tkdec (bits w 23 17) (bits w 16 10) (bits w 1 0))
  | 21 => checked (anyBits w [(2, 2)]) (.tkadd (bits w 23 17) (bits w 16 10) (bits w 9 3) (bits w 1 0))
  | 22 => checked (anyBits w [(2, 2)]) (.tkmake (bits w 23 17) (bits w 16 10) (bits w 9 3) (bits w 1 0))
  | 23 => checked (anyBits w [(16, 2)]) (.tktake (bits w 23 17) (bits w 1 0))
  | 24 => if bits w 1 0 = 1 then checked (anyBits w [(2, 2)]) (.rocall (bits w 23 17) (bits w 16 10) (bits w 9 3)) else .error .illegalField
  | 25 => if bits w 1 0 = 1 then checked (anyBits w [(9, 2)]) (.rowait (bits w 23 17) (bits w 16 10)) else .error .illegalField
  | 26 => if bits w 1 0 = 1 then checked (anyBits w [(2, 2)]) (.roread (bits w 23 17) (bits w 16 10) (bits w 9 3)) else .error .illegalField
  | 27 => if bits w 1 0 = 1 then checked (anyBits w [(9, 2)]) (.rotrim (bits w 23 17) (bits w 16 10)) else .error .illegalField
  | _ => .error .unassigned

/-- The instruction that a class F word holds (R34). -/
def decodeF (w : Nat) : Except DecodeErr Instr :=
  match w / 16777216 with
  | 1 => checked false (.bra (bits w 23 23) (bits w 22 19) (bits w 18 0))
  | 2 => checked false (.bru (bits w 23 23) (bits w 22 19) (bits w 18 0))
  | 3 => checked (anyBits w [(23, 17), (9, 2)]) (.jmpi (bits w 16 10) (bits w 1 0))
  | 4 => checked false (.call (bits w 23 0))
  | 5 => checked (anyBits w [(23, 0)]) (.ret)
  | 6 => checked (anyBits w [(20, 0)]) (.enrol (bits w 23 21))
  | 7 => checked (anyBits w [(20, 0)]) (.rejoin (bits w 23 21))
  | 8 => checked (anyBits w [(20, 0)]) (.strike (bits w 23 21))
  | 9 => checked (anyBits w [(2, 2)]) (.spawn (bits w 23 17) (bits w 16 10) (bits w 9 3) (bits w 1 0))
  | 10 => checked (anyBits w [(23, 0)]) (.exit)
  | 11 => checked (anyBits w [(23, 0)]) (.yield)
  | 12 => checked (anyBits w [(23, 0)]) (.nop)
  | 13 => checked (anyBits w [(20, 0)]) (.fork (bits w 23 21))
  | 14 => checked (anyBits w [(20, 0)]) (.rdv (bits w 23 21))
  | _ => .error .unassigned

/-- The instruction that a class P word holds (R34). -/
def decodeP (w : Nat) : Except DecodeErr Instr :=
  match w / 16777216 with
  | 1 => checked (anyBits w [(23, 12)]) (.trap (bits w 11 0))
  | 2 => checked (anyBits w [(23, 0)]) (.tret)
  | 3 => checked (anyBits w [(17, 12)]) (.csrr (bits w 23 18) (bits w 11 0))
  | 4 => checked (anyBits w [(23, 18)]) (.csrw (bits w 17 12) (bits w 11 0))
  | 5 => checked (anyBits w [(5, 0)]) (.ctxsave (bits w 23 18) (bits w 17 12) (bits w 11 6))
  | 6 => checked (anyBits w [(11, 0)]) (.ctxload (bits w 23 18) (bits w 17 12))
  | 7 => checked (anyBits w [(5, 0)]) (.mbpost (bits w 23 18) (bits w 17 12) (bits w 11 6))
  | 8 => checked (anyBits w [(5, 0)]) (.mbpoll (bits w 23 18) (bits w 17 12) (bits w 11 6))
  | 9 => checked (anyBits w [(23, 0)]) (.halt)
  | 10 => checked (anyBits w [(23, 18), (5, 0)]) (.tlbinv (bits w 17 12) (bits w 11 6))
  | 11 => checked false (.ldio (bits w 23 18) (bits w 17 12) (bits w 11 0))
  | 12 => checked false (.stio (bits w 23 18) (bits w 17 12) (bits w 11 0))
  | 13 => checked (anyBits w [(23, 0)]) (.wfi)
  | _ => .error .unassigned

/-- The instruction that a word of a clause of class `cls` holds. -/
def decodeWord (cls w : Nat) : Except DecodeErr Instr :=
  match cls with
  | 0 => decodeS w
  | 1 => decodeW w
  | 2 => decodeM w
  | 3 => decodeX w
  | 4 => decodeC w
  | 5 => decodeY w
  | 6 => decodeF w
  | 7 => decodeP w
  | _ => .error .unassigned

/-- The clause header that a word holds (R15), refused where the word alone breaks R20. -/
def decodeHeader (w : Nat) : Except DecodeErr Instr :=
  checked (anyBits w [(6, 0)])
    (.clauseHeader (bits w 31 28) (bits w 27 25) (bits w 24 24) (bits w 23 18) (bits w 17 17) (bits w 16 13)
      (bits w 12 12) (bits w 11 11) (bits w 10 7))

/-- A little-endian number from bytes (R11). -/
def leNat : List Byte → Nat
  | [] => 0
  | b :: rest => b.toNat + 256 * leNat rest

/-- The bytes of a number, least significant first. -/
def leBytes : Nat → Nat → List Byte
  | 0, _ => []
  | n + 1, x => BitVec.ofNat 8 x :: leBytes n (x / 256)

/-- Decode the word at the front of a list of bytes, in a clause of class `cls`, and give the rest of the list. -/
def decodeBytes (cls : Nat) : List Byte → Except DecodeErr (Instr × List Byte)
  | b0 :: b1 :: b2 :: b3 :: rest =>
    match decodeWord cls (leNat [b0, b1, b2, b3]) with
    | .ok i => .ok (i, rest)
    | .error e => .error e
  | _ => .error .short

/-- The class of the clauses that hold an instruction; none for a header and for an event of the part. -/
def classOf : Instr → Option Nat
  | .clauseHeader _ _ _ _ _ _ _ _ _ => none
  | .sadd _ _ _ => some 0
  | .ssub _ _ _ => some 0
  | .smul _ _ _ => some 0
  | .smulh _ _ _ => some 0
  | .sand _ _ _ => some 0
  | .sor _ _ _ => some 0
  | .sxor _ _ _ => some 0
  | .sshl _ _ _ => some 0
  | .sshr _ _ _ => some 0
  | .ssra _ _ _ => some 0
  | .smin _ _ _ => some 0
  | .smax _ _ _ => some 0
  | .smov _ _ => some 0
  | .smovi _ _ => some 0
  | .slui _ _ _ => some 0
  | .scmp _ _ _ _ => some 0
  | .ssel _ _ _ _ => some 0
  | .sfadd _ _ _ => some 0
  | .sfmul _ _ _ => some 0
  | .sfma _ _ _ => some 0
  | .sld _ _ _ _ => some 0
  | .sst _ _ _ _ => some 0
  | .qfwd _ => some 0
  | .qret _ => some 0
  | .sclk _ => some 0
  | .sgid _ _ => some 0
  | .vadd _ _ _ _ _ => some 1
  | .vsub _ _ _ _ _ => some 1
  | .vmul _ _ _ _ _ => some 1
  | .vmulh _ _ _ _ _ => some 1
  | .vmac _ _ _ _ _ => some 1
  | .vaddc _ _ _ _ _ => some 1
  | .vabs _ _ _ _ => some 1
  | .vneg _ _ _ _ => some 1
  | .vmin _ _ _ _ _ => some 1
  | .vmax _ _ _ _ _ => some 1
  | .vand _ _ _ _ _ => some 1
  | .vor _ _ _ _ _ => some 1
  | .vxor _ _ _ _ _ => some 1
  | .vnot _ _ _ _ => some 1
  | .vshl _ _ _ _ _ => some 1
  | .vshr _ _ _ _ _ => some 1
  | .vsra _ _ _ _ _ => some 1
  | .vpopc _ _ _ _ => some 1
  | .vclz _ _ _ _ => some 1
  | .vbrev _ _ _ _ => some 1
  | .vbfx _ _ _ _ _ => some 1
  | .vbfi _ _ _ _ _ => some 1
  | .vsel _ _ _ _ _ => some 1
  | .vcmp _ _ _ _ _ => some 1
  | .vmov _ _ _ _ => some 1
  | .vmovi _ _ => some 1
  | .vlui _ _ => some 1
  | .vlea _ _ _ _ _ => some 1
  | .vfadd _ _ _ _ _ => some 1
  | .vfsub _ _ _ _ _ => some 1
  | .vfmul _ _ _ _ _ => some 1
  | .vfma _ _ _ _ _ => some 1
  | .vfmin _ _ _ _ => some 1
  | .vfmax _ _ _ _ => some 1
  | .vfcmp _ _ _ _ => some 1
  | .vfclass _ _ _ => some 1
  | .vfrcp _ _ _ => some 1
  | .vfrsq _ _ _ => some 1
  | .vfsqrt _ _ _ => some 1
  | .vfexp2 _ _ _ => some 1
  | .vflog2 _ _ _ => some 1
  | .vftanh _ _ _ => some 1
  | .vfadd2 _ _ _ _ _ => some 1
  | .vfmul2 _ _ _ _ _ => some 1
  | .vfma2 _ _ _ _ _ => some 1
  | .vcvt _ _ _ _ _ _ _ => some 1
  | .vsrnd _ _ _ _ _ => some 1
  | .vrng _ _ _ _ _ => some 1
  | .vpack _ _ _ _ _ => some 1
  | .vunpk _ _ _ _ _ => some 1
  | .vplane _ _ _ _ _ => some 1
  | .vmxscale _ _ _ _ _ => some 1
  | .vmxq _ _ _ _ _ => some 1
  | .vqswap _ _ _ _ _ => some 1
  | .vqbcast _ _ _ _ _ => some 1
  | .vqsum _ _ _ _ _ => some 1
  | .vshfl _ _ _ _ _ => some 1
  | .vbcast _ _ _ _ _ => some 1
  | .vred _ _ _ _ _ => some 1
  | .vscan _ _ _ _ _ => some 1
  | .vballot _ _ _ _ _ => some 1
  | .vsys _ _ _ _ _ => some 1
  | .pand _ _ _ => some 1
  | .por _ _ _ => some 1
  | .pxor _ _ _ => some 1
  | .pnot _ _ => some 1
  | .pmov _ _ => some 1
  | .pset _ _ => some 1
  | .vqpop _ _ _ => some 1
  | .vqpush _ _ => some 1
  | .vld _ _ _ _ _ => some 2
  | .vst _ _ _ _ _ => some 2
  | .vldsp _ _ _ _ _ => some 2
  | .vstsp _ _ _ _ _ => some 2
  | .vldt _ _ _ _ _ => some 2
  | .vldx _ _ _ _ _ => some 2
  | .vstx _ _ _ _ _ => some 2
  | .vpref _ _ _ _ => some 2
  | .prsclr _ _ _ => some 2
  | .prswait _ _ _ => some 2
  | .prstest _ _ _ _ => some 2
  | .phase _ => some 2
  | .memoryAccessCompletion _ _ => none
  | .presenceWaitResume _ _ => none
  | .presenceTimeout _ _ => none
  | .divergenceStarvation _ _ _ => none
  | .groupPromotion _ _ => none
  | .bra _ _ _ => some 6
  | .bru _ _ _ => some 6
  | .jmpi _ _ => some 6
  | .call _ => some 6
  | .ret => some 6
  | .enrol _ => some 6
  | .rejoin _ => some 6
  | .strike _ => some 6
  | .spawn _ _ _ _ => some 6
  | .exit => some 6
  | .yield => some 6
  | .nop => some 6
  | .fork _ => some 6
  | .rdv _ => some 6
  | .barar _ => some 5
  | .barwt _ => some 5
  | .barsync _ => some 5
  | .msync _ => some 5
  | .cljoin _ _ _ _ => some 5
  | .clleave _ _ => some 5
  | .clslot _ _ => some 5
  | .clusterJoinTimeout _ _ => none
  | .atadd _ _ _ _ => some 5
  | .atinc _ _ _ _ => some 5
  | .atbadd _ _ _ _ => some 5
  | .atmin _ _ _ _ => some 5
  | .atmax _ _ _ _ => some 5
  | .atand _ _ _ _ => some 5
  | .ator _ _ _ _ => some 5
  | .atxor _ _ _ _ => some 5
  | .atxchg _ _ _ _ => some 5
  | .atcas _ _ _ _ => some 5
  | .atld _ _ _ => some 5
  | .atred _ _ _ => some 5
  | .tkdec _ _ _ => some 5
  | .tkadd _ _ _ _ => some 5
  | .tkmake _ _ _ _ => some 5
  | .tktake _ _ => some 5
  | .rocall _ _ _ => some 5
  | .rowait _ _ => some 5
  | .roread _ _ _ => some 5
  | .rotrim _ _ => some 5
  | .cpost _ _ _ => some 4
  | .cpostTry _ _ _ _ => some 4
  | .cwait _ _ _ => some 4
  | .ctest _ _ _ _ => some 4
  | .cfence _ _ _ => some 4
  | .crec _ _ _ _ => some 4
  | .cabort _ _ _ => some 4
  | .ccoll _ _ => some 4
  | .cgen _ _ _ => some 4
  | .trap _ => some 7
  | .tret => some 7
  | .csrr _ _ => some 7
  | .csrw _ _ => some 7
  | .ctxsave _ _ _ => some 7
  | .ctxload _ _ => some 7
  | .mbpost _ _ _ => some 7
  | .mbpoll _ _ _ => some 7
  | .halt => some 7
  | .tlbinv _ _ => some 7
  | .ldio _ _ _ => some 7
  | .stio _ _ _ => some 7
  | .wfi => some 7
  | .wfiWake _ => none
  | .mcfgIndex _ _ => some 3
  | .mcfgArea _ => some 3
  | .mcfgAfmt _ _ => some 3
  | .mcfgGrp _ => some 3
  | .mcfgHi _ _ => some 3
  | .mbind _ _ _ _ _ => some 3
  | .mrowLines _ _ _ _ _ => some 3
  | .mrowTslots _ _ _ _ _ => some 3
  | .mzero _ _ => some 3
  | .mmul _ _ _ _ _ _ => some 3
  | .mmulw _ _ _ _ _ => some 3
  | .mdrain _ _ _ _ _ _ => some 3
  | .mdrainCh _ _ => some 3
  | .mdrainf _ _ _ => some 3
  | .msignal _ => some 3
  | .mwaitb _ => some 3
  | .mloop _ _ => some 3
  | .mjmp _ => some 3
  | .mstamp _ _ => some 3
  | .mstampRetire _ => some 3
  | .mend => some 3
  | .mnop => some 3
  | .haltBroadcast _ => none
  | .debugStopBreakpoint _ _ => none
  | .debugStopRequest _ => none
  | .traceSample _ => none
  | .preemptionSave _ => none
  | .blockPlacement _ => none
  | .dcRetireWrite _ _ _ => none
  | .tlbWalk _ _ _ => none
  | .replayGauntletAdmit _ _ _ => none
  | .replayGateTimeout _ _ _ => none
  | .packetBegin _ => none
  | .chunkLanding _ _ => none
  | .packetCompletion _ => none
  | .fencePacket _ => none
  | .abandonedSlotWrite _ => none
  | .queueRestart _ _ => none
  | .taskReleaseWrite _ _ _ => none
  | .hostSyncAtomic _ _ _ _ => none
  | .hostCxlMemAccess _ _ _ _ => none
  | .hbmCorrectedError _ _ _ _ _ => none
  | .classifierEntryExpiry _ _ => none
  | .hbmRepair _ _ => none
  | .hbmRepairMoveDone _ => none
  | .mcIpendClear _ _ => none
  | .mcPoke _ _ => none
  | .packageReset _ _ => none
  | .mgmtImageReceived _ => none
  | .spdmGetVersion _ => none
  | .spdmGetCapabilities _ => none
  | .spdmNegotiateAlgorithms _ => none
  | .spdmGetDigests _ => none
  | .spdmGetCertificate _ => none
  | .spdmChallenge _ => none
  | .spdmGetMeasurements _ => none
  | .lifetimeMonthEnd => none
  | .throttle _ _ _ => none
  | .dieOvertempStop _ _ => none
  | .xsFuseminWrite _ => none
  | .optCtlBits _ _ => none
  | .optStateOffRequest _ _ => none
  | .optStateUpRequest _ _ => none
  | .optLit _ _ => none
  | .optLitTimeout _ => none
  | .optLaserFailure _ _ _ => none
  | .optLockSweep _ _ => none
  | .optSweepDone _ _ => none
  | .optTrain _ _ => none
  | .optTrainDone _ _ _ => none
  | .optLanemapWrite _ _ => none
  | .wavelengthLoss _ _ => none
  | .keyRequestThreshold _ => none
  | .keyExhausted _ => none
  | .feKeyuseWrite _ => none
  | .feKeydataWrite _ => none
  | .feSchedLock _ => none
  | .feTbldataWrite _ => none
  | .feChpartWrite _ _ => none
  | .rotorSlot => none
  | .burstReceived _ _ _ _ _ _ _ _ => none
  | .remoteRequestIngress _ _ _ _ _ _ _ _ => none
  | .remoteAtomicIngress _ _ _ _ _ _ _ _ => none
  | .leaseExpiry _ => none
  | .remoteTimeout _ => none
  | .collectiveHead _ => none
  | .collectiveFlitIngress _ _ _ _ _ _ _ _ _ _ _ _ => none
  | .collectiveResend _ => none
  | .collectiveAbortReceived _ _ _ _ _ => none
  | .collectiveCompletion _ => none
  | .capReceived => none
  | .capRegeneration => none
  | .possessionClose _ _ => none
  | .nirraxGapTimeout => none
  | .expelFallback _ => none
  | .callApply _ => none
  | .membershipExpel _ => none
  | .membershipAdmit _ => none
  | .membershipReplace _ => none
  | .membershipClone _ => none
  | .membershipAbort _ => none
  | .membershipAddspare _ => none
  | .membershipGetgen _ => none
  | .trainctlStep _ => none
  | .trainctlSetscale _ => none
  | .trainctlSetclip _ => none
  | .trainctlSetgrowth _ => none
  | .trainctlGetscale _ => none
  | .trainctlGetstep _ => none
  | .generationFence _ => none
  | .cuffPageCopy _ _ => none
  | .joinClone _ _ _ _ _ => none
  | .partitionConfiguration _ _ => none
  | .managementPortFrame _ => none
  | .hostSyncApertureWrite _ _ _ => none
  | .registerUnitRetirement _ => none
  | .softError _ _ _ _ _ => none
  | .powerRemoval => none

/-- The word of an instruction, or the word of a clause header (R15, R23). An event of the part has none. -/
def encodeWord : Instr → Option Nat
  | .clauseHeader n cls y wait b bar g sense guard =>
    some (n * 268435456 + cls * 33554432 + y * 16777216 + wait * 262144 + b * 131072 + bar * 8192 + g * 4096 +
      sense * 2048 + guard * 128)
  | .sadd d a b => some (16777216 + d * 262144 + a * 4096 + b * 64)
  | .ssub d a b => some (33554432 + d * 262144 + a * 4096 + b * 64)
  | .smul d a b => some (50331648 + d * 262144 + a * 4096 + b * 64)
  | .smulh d a b => some (67108864 + d * 262144 + a * 4096 + b * 64)
  | .sand d a b => some (83886080 + d * 262144 + a * 4096 + b * 64)
  | .sor d a b => some (100663296 + d * 262144 + a * 4096 + b * 64)
  | .sxor d a b => some (117440512 + d * 262144 + a * 4096 + b * 64)
  | .sshl d a b => some (134217728 + d * 262144 + a * 4096 + b * 64)
  | .sshr d a b => some (150994944 + d * 262144 + a * 4096 + b * 64)
  | .ssra d a b => some (167772160 + d * 262144 + a * 4096 + b * 64)
  | .smin d a b => some (184549376 + d * 262144 + a * 4096 + b * 64)
  | .smax d a b => some (201326592 + d * 262144 + a * 4096 + b * 64)
  | .smov d a => some (218103808 + d * 262144 + a * 4096)
  | .smovi d i => some (234881024 + d * 262144 + i)
  | .slui d a i => some (251658240 + d * 262144 + a * 4096 + i)
  | .scmp c p a b => some (268435456 + c * 2097152 + p * 262144 + a * 4096 + b * 64)
  | .ssel d a b p => some (285212672 + d * 262144 + a * 4096 + b * 64 + p)
  | .sfadd d a b => some (301989888 + d * 262144 + a * 4096 + b * 64)
  | .sfmul d a b => some (318767104 + d * 262144 + a * 4096 + b * 64)
  | .sfma d a b => some (335544320 + d * 262144 + a * 4096 + b * 64)
  | .sld d a z o => some (352321536 + d * 262144 + a * 4096 + z * 1024 + o)
  | .sst d a z o => some (369098752 + d * 262144 + a * 4096 + z * 1024 + o)
  | .qfwd a => some (385875968 + a * 4096)
  | .qret d => some (402653184 + d * 262144)
  | .sclk d => some (419430400 + d * 262144)
  | .sgid d s => some (436207616 + d * 262144 + s)
  | .vadd d a b t v => some (16777216 + d * 131072 + a * 1024 + b * 8 + t * 4 + v)
  | .vsub d a b t v => some (33554432 + d * 131072 + a * 1024 + b * 8 + t * 4 + v)
  | .vmul d a b t v => some (50331648 + d * 131072 + a * 1024 + b * 8 + t * 4 + v)
  | .vmulh d a b t v => some (67108864 + d * 131072 + a * 1024 + b * 8 + t * 4 + v)
  | .vmac d a b t v => some (83886080 + d * 131072 + a * 1024 + b * 8 + t * 4 + v)
  | .vaddc d a b t v => some (100663296 + d * 131072 + a * 1024 + b * 8 + t * 4 + v)
  | .vabs d a t v => some (117440512 + d * 131072 + a * 1024 + t * 4 + v)
  | .vneg d a t v => some (134217728 + d * 131072 + a * 1024 + t * 4 + v)
  | .vmin d a b t v => some (150994944 + d * 131072 + a * 1024 + b * 8 + t * 4 + v)
  | .vmax d a b t v => some (167772160 + d * 131072 + a * 1024 + b * 8 + t * 4 + v)
  | .vand d a b t v => some (184549376 + d * 131072 + a * 1024 + b * 8 + t * 4 + v)
  | .vor d a b t v => some (201326592 + d * 131072 + a * 1024 + b * 8 + t * 4 + v)
  | .vxor d a b t v => some (218103808 + d * 131072 + a * 1024 + b * 8 + t * 4 + v)
  | .vnot d a t v => some (234881024 + d * 131072 + a * 1024 + t * 4 + v)
  | .vshl d a b t v => some (251658240 + d * 131072 + a * 1024 + b * 8 + t * 4 + v)
  | .vshr d a b t v => some (268435456 + d * 131072 + a * 1024 + b * 8 + t * 4 + v)
  | .vsra d a b t v => some (285212672 + d * 131072 + a * 1024 + b * 8 + t * 4 + v)
  | .vpopc d a t v => some (301989888 + d * 131072 + a * 1024 + t * 4 + v)
  | .vclz d a t v => some (318767104 + d * 131072 + a * 1024 + t * 4 + v)
  | .vbrev d a t v => some (335544320 + d * 131072 + a * 1024 + t * 4 + v)
  | .vbfx d a b t v => some (352321536 + d * 131072 + a * 1024 + b * 8 + t * 4 + v)
  | .vbfi d a b t v => some (369098752 + d * 131072 + a * 1024 + b * 8 + t * 4 + v)
  | .vsel d a b t v => some (385875968 + d * 131072 + a * 1024 + b * 8 + t * 4 + v)
  | .vcmp c p a b v => some (402653184 + c * 2097152 + p * 131072 + a * 1024 + b * 8 + v)
  | .vmov d a t v => some (419430400 + d * 131072 + a * 1024 + t * 4 + v)
  | .vmovi d i => some (436207616 + d * 131072 + i)
  | .vlui d i => some (452984832 + d * 131072 + i)
  | .vlea d a b t v => some (469762048 + d * 131072 + a * 1024 + b * 8 + t * 4 + v)
  | .vfadd d a b t m => some (486539264 + d * 131072 + a * 1024 + b * 8 + t * 4 + m)
  | .vfsub d a b t m => some (503316480 + d * 131072 + a * 1024 + b * 8 + t * 4 + m)
  | .vfmul d a b t m => some (520093696 + d * 131072 + a * 1024 + b * 8 + t * 4 + m)
  | .vfma d a b t m => some (536870912 + d * 131072 + a * 1024 + b * 8 + t * 4 + m)
  | .vfmin d a b t => some (553648128 + d * 131072 + a * 1024 + b * 8 + t * 4)
  | .vfmax d a b t => some (570425344 + d * 131072 + a * 1024 + b * 8 + t * 4)
  | .vfcmp c p a b => some (587202560 + c * 2097152 + p * 131072 + a * 1024 + b * 8)
  | .vfclass d a t => some (603979776 + d * 131072 + a * 1024 + t * 4)
  | .vfrcp d a t => some (620756992 + d * 131072 + a * 1024 + t * 4)
  | .vfrsq d a t => some (637534208 + d * 131072 + a * 1024 + t * 4)
  | .vfsqrt d a t => some (654311424 + d * 131072 + a * 1024 + t * 4)
  | .vfexp2 d a t => some (671088640 + d * 131072 + a * 1024 + t * 4)
  | .vflog2 d a t => some (687865856 + d * 131072 + a * 1024 + t * 4)
  | .vftanh d a t => some (704643072 + d * 131072 + a * 1024 + t * 4)
  | .vfadd2 d a b t v => some (721420288 + d * 131072 + a * 1024 + b * 8 + t * 4 + v)
  | .vfmul2 d a b t v => some (738197504 + d * 131072 + a * 1024 + b * 8 + t * 4 + v)
  | .vfma2 d a b t v => some (754974720 + d * 131072 + a * 1024 + b * 8 + t * 4 + v)
  | .vcvt d a c r m t v => some (771751936 + d * 131072 + a * 1024 + c * 64 + r * 32 + m * 8 + t * 4 + v)
  | .vsrnd d a b t v => some (788529152 + d * 131072 + a * 1024 + b * 8 + t * 4 + v)
  | .vrng d a b t v => some (805306368 + d * 131072 + a * 1024 + b * 8 + t * 4 + v)
  | .vpack d a b t e => some (822083584 + d * 131072 + a * 1024 + b * 8 + t * 4 + e)
  | .vunpk d a b t e => some (838860800 + d * 131072 + a * 1024 + b * 8 + t * 4 + e)
  | .vplane d a b t v => some (855638016 + d * 131072 + a * 1024 + b * 8 + t * 4 + v)
  | .vmxscale d a b t v => some (872415232 + d * 131072 + a * 1024 + b * 8 + t * 4 + v)
  | .vmxq d a b t v => some (889192448 + d * 131072 + a * 1024 + b * 8 + t * 4 + v)
  | .vqswap d a b t v => some (905969664 + d * 131072 + a * 1024 + b * 8 + t * 4 + v)
  | .vqbcast d a b t v => some (922746880 + d * 131072 + a * 1024 + b * 8 + t * 4 + v)
  | .vqsum d a b t v => some (939524096 + d * 131072 + a * 1024 + b * 8 + t * 4 + v)
  | .vshfl d a b t v => some (956301312 + d * 131072 + a * 1024 + b * 8 + t * 4 + v)
  | .vbcast d a b t v => some (973078528 + d * 131072 + a * 1024 + b * 8 + t * 4 + v)
  | .vred d a b t v => some (989855744 + d * 131072 + a * 1024 + b * 8 + t * 4 + v)
  | .vscan d a b t v => some (1006632960 + d * 131072 + a * 1024 + b * 8 + t * 4 + v)
  | .vballot d a b t v => some (1023410176 + d * 131072 + a * 1024 + b * 8 + t * 4 + v)
  | .vsys d a b t v => some (1040187392 + d * 131072 + a * 1024 + b * 8 + t * 4 + v)
  | .pand d a b => some (1056964608 + d * 131072 + a * 1024 + b * 8)
  | .por d a b => some (1073741824 + d * 131072 + a * 1024 + b * 8)
  | .pxor d a b => some (1090519040 + d * 131072 + a * 1024 + b * 8)
  | .pnot d a => some (1107296256 + d * 131072 + a * 1024)
  | .pmov d a => some (1124073472 + d * 131072 + a * 1024)
  | .pset d i => some (1140850688 + d * 131072 + i * 2)
  | .vqpop d t v => some (1157627904 + d * 131072 + t * 4 + v)
  | .vqpush a v => some (1174405120 + a * 1024 + v)
  | .vld d z r o b => some (16777216 + d * 131072 + z * 16384 + r * 1024 + o * 8 + b)
  | .vst d z r o b => some (33554432 + d * 131072 + z * 16384 + r * 1024 + o * 8 + b)
  | .vldsp d z r o b => some (50331648 + d * 131072 + z * 16384 + r * 1024 + o * 8 + b)
  | .vstsp d z r o b => some (67108864 + d * 131072 + z * 16384 + r * 1024 + o * 8 + b)
  | .vldt d z r o b => some (83886080 + d * 131072 + z * 16384 + r * 1024 + o * 8 + b)
  | .vldx d z r o b => some (100663296 + d * 131072 + z * 16384 + r * 1024 + o * 8 + b)
  | .vstx d z r o b => some (117440512 + d * 131072 + z * 16384 + r * 1024 + o * 8 + b)
  | .vpref z r o b => some (134217728 + z * 16384 + r * 1024 + o * 8 + b)
  | .prsclr z r o => some (150994951 + z * 16384 + r * 1024 + o * 8)
  | .prswait z r o => some (167772167 + z * 16384 + r * 1024 + o * 8)
  | .prstest d z r o => some (184549383 + d * 131072 + z * 16384 + r * 1024 + o * 8)
  | .phase s => some (201326599 + s * 16384)
  | .memoryAccessCompletion _ _ => none
  | .presenceWaitResume _ _ => none
  | .presenceTimeout _ _ => none
  | .divergenceStarvation _ _ _ => none
  | .groupPromotion _ _ => none
  | .bra n c o => some (16777216 + n * 8388608 + c * 524288 + o)
  | .bru n c o => some (33554432 + n * 8388608 + c * 524288 + o)
  | .jmpi a v => some (50331648 + a * 1024 + v)
  | .call i => some (67108864 + i)
  | .ret => some (83886080)
  | .enrol k => some (100663296 + k * 2097152)
  | .rejoin k => some (117440512 + k * 2097152)
  | .strike k => some (134217728 + k * 2097152)
  | .spawn d a b v => some (150994944 + d * 131072 + a * 1024 + b * 8 + v)
  | .exit => some (167772160)
  | .yield => some (184549376)
  | .nop => some (201326592)
  | .fork k => some (218103808 + k * 2097152)
  | .rdv k => some (234881024 + k * 2097152)
  | .barar i => some (16777216 + i)
  | .barwt i => some (33554432 + i)
  | .barsync i => some (50331648 + i)
  | .msync a => some (67108864 + a * 16384)
  | .cljoin d a b v => some (83886080 + d * 131072 + a * 1024 + b * 8 + v)
  | .clleave d v => some (100663296 + d * 131072 + v)
  | .clslot d v => some (117440512 + d * 131072 + v)
  | .clusterJoinTimeout _ _ => none
  | .atadd d a b v => some (134217728 + d * 131072 + a * 1024 + b * 8 + v)
  | .atinc d a b v => some (150994944 + d * 131072 + a * 1024 + b * 8 + v)
  | .atbadd d a b v => some (167772160 + d * 131072 + a * 1024 + b * 8 + v)
  | .atmin d a b v => some (184549376 + d * 131072 + a * 1024 + b * 8 + v)
  | .atmax d a b v => some (201326592 + d * 131072 + a * 1024 + b * 8 + v)
  | .atand d a b v => some (218103808 + d * 131072 + a * 1024 + b * 8 + v)
  | .ator d a b v => some (234881024 + d * 131072 + a * 1024 + b * 8 + v)
  | .atxor d a b v => some (251658240 + d * 131072 + a * 1024 + b * 8 + v)
  | .atxchg d a b v => some (268435456 + d * 131072 + a * 1024 + b * 8 + v)
  | .atcas d a b v => some (285212672 + d * 131072 + a * 1024 + b * 8 + v)
  | .atld d a v => some (301989888 + d * 131072 + a * 1024 + v)
  | .atred a b v => some (318767104 + a * 1024 + b * 8 + v)
  | .tkdec d a v => some (335544320 + d * 131072 + a * 1024 + v)
  | .tkadd d a b v => some (352321536 + d * 131072 + a * 1024 + b * 8 + v)
  | .tkmake d a b v => some (369098752 + d * 131072 + a * 1024 + b * 8 + v)
  | .tktake d v => some (385875968 + d * 131072 + v)
  | .rocall d a b => some (402653185 + d * 131072 + a * 1024 + b * 8)
  | .rowait d a => some (419430401 + d * 131072 + a * 1024)
  | .roread d a b => some (436207617 + d * 131072 + a * 1024 + b * 8)
  | .rotrim d a => some (452984833 + d * 131072 + a * 1024)
  | .cpost a b v => some (16777216 + a * 1024 + b * 8 + v)
  | .cpostTry n a b v => some (25165824 + n * 131072 + a * 1024 + b * 8 + v)
  | .cwait a b v => some (33554432 + a * 1024 + b * 8 + v)
  | .ctest d a b v => some (50331648 + d * 131072 + a * 1024 + b * 8 + v)
  | .cfence a b v => some (67108864 + a * 1024 + b * 8 + v)
  | .crec d a b v => some (83886080 + d * 131072 + a * 1024 + b * 8 + v)
  | .cabort d a v => some (100663296 + d * 131072 + a * 1024 + v)
  | .ccoll a v => some (117440512 + a * 1024 + v)
  | .cgen d a v => some (134217728 + d * 131072 + a * 1024 + v)
  | .trap i => some (16777216 + i)
  | .tret => some (33554432)
  | .csrr d r => some (50331648 + d * 262144 + r)
  | .csrw a r => some (67108864 + a * 4096 + r)
  | .ctxsave d a b => some (83886080 + d * 262144 + a * 4096 + b * 64)
  | .ctxload d a => some (100663296 + d * 262144 + a * 4096)
  | .mbpost d a b => some (117440512 + d * 262144 + a * 4096 + b * 64)
  | .mbpoll d a b => some (134217728 + d * 262144 + a * 4096 + b * 64)
  | .halt => some (150994944)
  | .tlbinv a b => some (167772160 + a * 4096 + b * 64)
  | .ldio d a i => some (184549376 + d * 262144 + a * 4096 + i)
  | .stio d a i => some (201326592 + d * 262144 + a * 4096 + i)
  | .wfi => some (218103808)
  | .wfiWake _ => none
  | .mcfgIndex n i => some (16777216 + n * 524288 + i)
  | .mcfgArea u => some (20971520 + u)
  | .mcfgAfmt k t => some (21495808 + k * 16 + t)
  | .mcfgGrp g => some (22020096 + g)
  | .mcfgHi n i => some (25165824 + n * 524288 + i)
  | .mbind g t h x l => some (33554432 + g * 1048576 + t * 524288 + h * 131072 + x * 16384 + l)
  | .mrowLines r b g x i => some (50331648 + r * 4194304 + b * 131072 + g * 1024 + x * 128 + i)
  | .mrowTslots r b g x i => some (52428800 + r * 4194304 + b * 131072 + g * 1024 + x * 128 + i)
  | .mzero a c => some (67108864 + a * 524288 + c * 16384)
  | .mmul a r n g t k => some (83886080 + a * 524288 + r * 131072 + n * 32768 + g * 2048 + t * 128 + k * 8)
  | .mmulw a r g t k => some (100663296 + a * 524288 + r * 131072 + g * 2048 + t * 128 + k * 4)
  | .mdrain a f p m s x => some (117440512 + a * 524288 + f * 32768 + p * 8192 + m * 2048 + s * 16 + x * 2)
  | .mdrainCh a c => some (117702656 + a * 524288 + c * 16)
  | .mdrainf a x l => some (134217728 + a * 524288 + x * 256 + l)
  | .msignal b => some (150994944 + b)
  | .mwaitb b => some (167772160 + b)
  | .mloop x o => some (184549376 + x * 2097152 + o)
  | .mjmp o => some (201326592 + o)
  | .mstamp a f => some (218103808 + a * 524288 + f * 131072)
  | .mstampRetire a => some (218497024 + a * 524288)
  | .mend => some (234881024)
  | .mnop => some (251658240)
  | .haltBroadcast _ => none
  | .debugStopBreakpoint _ _ => none
  | .debugStopRequest _ => none
  | .traceSample _ => none
  | .preemptionSave _ => none
  | .blockPlacement _ => none
  | .dcRetireWrite _ _ _ => none
  | .tlbWalk _ _ _ => none
  | .replayGauntletAdmit _ _ _ => none
  | .replayGateTimeout _ _ _ => none
  | .packetBegin _ => none
  | .chunkLanding _ _ => none
  | .packetCompletion _ => none
  | .fencePacket _ => none
  | .abandonedSlotWrite _ => none
  | .queueRestart _ _ => none
  | .taskReleaseWrite _ _ _ => none
  | .hostSyncAtomic _ _ _ _ => none
  | .hostCxlMemAccess _ _ _ _ => none
  | .hbmCorrectedError _ _ _ _ _ => none
  | .classifierEntryExpiry _ _ => none
  | .hbmRepair _ _ => none
  | .hbmRepairMoveDone _ => none
  | .mcIpendClear _ _ => none
  | .mcPoke _ _ => none
  | .packageReset _ _ => none
  | .mgmtImageReceived _ => none
  | .spdmGetVersion _ => none
  | .spdmGetCapabilities _ => none
  | .spdmNegotiateAlgorithms _ => none
  | .spdmGetDigests _ => none
  | .spdmGetCertificate _ => none
  | .spdmChallenge _ => none
  | .spdmGetMeasurements _ => none
  | .lifetimeMonthEnd => none
  | .throttle _ _ _ => none
  | .dieOvertempStop _ _ => none
  | .xsFuseminWrite _ => none
  | .optCtlBits _ _ => none
  | .optStateOffRequest _ _ => none
  | .optStateUpRequest _ _ => none
  | .optLit _ _ => none
  | .optLitTimeout _ => none
  | .optLaserFailure _ _ _ => none
  | .optLockSweep _ _ => none
  | .optSweepDone _ _ => none
  | .optTrain _ _ => none
  | .optTrainDone _ _ _ => none
  | .optLanemapWrite _ _ => none
  | .wavelengthLoss _ _ => none
  | .keyRequestThreshold _ => none
  | .keyExhausted _ => none
  | .feKeyuseWrite _ => none
  | .feKeydataWrite _ => none
  | .feSchedLock _ => none
  | .feTbldataWrite _ => none
  | .feChpartWrite _ _ => none
  | .rotorSlot => none
  | .burstReceived _ _ _ _ _ _ _ _ => none
  | .remoteRequestIngress _ _ _ _ _ _ _ _ => none
  | .remoteAtomicIngress _ _ _ _ _ _ _ _ => none
  | .leaseExpiry _ => none
  | .remoteTimeout _ => none
  | .collectiveHead _ => none
  | .collectiveFlitIngress _ _ _ _ _ _ _ _ _ _ _ _ => none
  | .collectiveResend _ => none
  | .collectiveAbortReceived _ _ _ _ _ => none
  | .collectiveCompletion _ => none
  | .capReceived => none
  | .capRegeneration => none
  | .possessionClose _ _ => none
  | .nirraxGapTimeout => none
  | .expelFallback _ => none
  | .callApply _ => none
  | .membershipExpel _ => none
  | .membershipAdmit _ => none
  | .membershipReplace _ => none
  | .membershipClone _ => none
  | .membershipAbort _ => none
  | .membershipAddspare _ => none
  | .membershipGetgen _ => none
  | .trainctlStep _ => none
  | .trainctlSetscale _ => none
  | .trainctlSetclip _ => none
  | .trainctlSetgrowth _ => none
  | .trainctlGetscale _ => none
  | .trainctlGetstep _ => none
  | .generationFence _ => none
  | .cuffPageCopy _ _ => none
  | .joinClone _ _ _ _ _ => none
  | .partitionConfiguration _ _ => none
  | .managementPortFrame _ => none
  | .hostSyncApertureWrite _ _ _ => none
  | .registerUnitRetirement _ => none
  | .softError _ _ _ _ _ => none
  | .powerRemoval => none

/-- The four bytes of an instruction's word as the hardware stores them, lowest address first. -/
def encode (i : Instr) : Option (List Byte) :=
  match encodeWord i with
  | some w => some (leBytes 4 w)
  | none => none

/-- How many bits the opcode table fixes for an instruction's row: of the classes that can read a bare word, the one whose
row fixes the most bits is taken (log entry 5). -/
def rowWeight : Instr → Nat
  | .clauseHeader _ _ _ _ _ _ _ _ _ => 0
  | .sadd _ _ _ => 14
  | .ssub _ _ _ => 14
  | .smul _ _ _ => 14
  | .smulh _ _ _ => 14
  | .sand _ _ _ => 14
  | .sor _ _ _ => 14
  | .sxor _ _ _ => 14
  | .sshl _ _ _ => 14
  | .sshr _ _ _ => 14
  | .ssra _ _ _ => 14
  | .smin _ _ _ => 14
  | .smax _ _ _ => 14
  | .smov _ _ => 20
  | .smovi _ _ => 14
  | .slui _ _ _ => 8
  | .scmp _ _ _ _ => 14
  | .ssel _ _ _ _ => 11
  | .sfadd _ _ _ => 14
  | .sfmul _ _ _ => 14
  | .sfma _ _ _ => 14
  | .sld _ _ _ _ => 8
  | .sst _ _ _ _ => 8
  | .qfwd _ => 26
  | .qret _ => 26
  | .sclk _ => 26
  | .sgid _ _ => 14
  | .vadd _ _ _ _ _ => 8
  | .vsub _ _ _ _ _ => 8
  | .vmul _ _ _ _ _ => 8
  | .vmulh _ _ _ _ _ => 8
  | .vmac _ _ _ _ _ => 8
  | .vaddc _ _ _ _ _ => 8
  | .vabs _ _ _ _ => 15
  | .vneg _ _ _ _ => 15
  | .vmin _ _ _ _ _ => 8
  | .vmax _ _ _ _ _ => 8
  | .vand _ _ _ _ _ => 8
  | .vor _ _ _ _ _ => 8
  | .vxor _ _ _ _ _ => 8
  | .vnot _ _ _ _ => 15
  | .vshl _ _ _ _ _ => 8
  | .vshr _ _ _ _ _ => 8
  | .vsra _ _ _ _ _ => 8
  | .vpopc _ _ _ _ => 15
  | .vclz _ _ _ _ => 15
  | .vbrev _ _ _ _ => 15
  | .vbfx _ _ _ _ _ => 8
  | .vbfi _ _ _ _ _ => 8
  | .vsel _ _ _ _ _ => 8
  | .vcmp _ _ _ _ _ => 9
  | .vmov _ _ _ _ => 15
  | .vmovi _ _ => 8
  | .vlui _ _ => 8
  | .vlea _ _ _ _ _ => 8
  | .vfadd _ _ _ _ _ => 8
  | .vfsub _ _ _ _ _ => 8
  | .vfmul _ _ _ _ _ => 8
  | .vfma _ _ _ _ _ => 8
  | .vfmin _ _ _ _ => 10
  | .vfmax _ _ _ _ => 10
  | .vfcmp _ _ _ _ => 11
  | .vfclass _ _ _ => 17
  | .vfrcp _ _ _ => 17
  | .vfrsq _ _ _ => 17
  | .vfsqrt _ _ _ => 17
  | .vfexp2 _ _ _ => 17
  | .vflog2 _ _ _ => 17
  | .vftanh _ _ _ => 17
  | .vfadd2 _ _ _ _ _ => 8
  | .vfmul2 _ _ _ _ _ => 8
  | .vfma2 _ _ _ _ _ => 8
  | .vcvt _ _ _ _ _ _ _ => 8
  | .vsrnd _ _ _ _ _ => 8
  | .vrng _ _ _ _ _ => 8
  | .vpack _ _ _ _ _ => 8
  | .vunpk _ _ _ _ _ => 8
  | .vplane _ _ _ _ _ => 8
  | .vmxscale _ _ _ _ _ => 8
  | .vmxq _ _ _ _ _ => 8
  | .vqswap _ _ _ _ _ => 8
  | .vqbcast _ _ _ _ _ => 8
  | .vqsum _ _ _ _ _ => 8
  | .vshfl _ _ _ _ _ => 8
  | .vbcast _ _ _ _ _ => 8
  | .vred _ _ _ _ _ => 8
  | .vscan _ _ _ _ _ => 8
  | .vballot _ _ _ _ _ => 8
  | .vsys _ _ _ _ _ => 8
  | .pand _ _ _ => 11
  | .por _ _ _ => 11
  | .pxor _ _ _ => 11
  | .pnot _ _ => 18
  | .pmov _ _ => 18
  | .pset _ _ => 24
  | .vqpop _ _ _ => 22
  | .vqpush _ _ => 23
  | .vld _ _ _ _ _ => 8
  | .vst _ _ _ _ _ => 8
  | .vldsp _ _ _ _ _ => 8
  | .vstsp _ _ _ _ _ => 8
  | .vldt _ _ _ _ _ => 8
  | .vldx _ _ _ _ _ => 8
  | .vstx _ _ _ _ _ => 8
  | .vpref _ _ _ _ => 15
  | .prsclr _ _ _ => 18
  | .prswait _ _ _ => 18
  | .prstest _ _ _ _ => 11
  | .phase _ => 29
  | .memoryAccessCompletion _ _ => 0
  | .presenceWaitResume _ _ => 0
  | .presenceTimeout _ _ => 0
  | .divergenceStarvation _ _ _ => 0
  | .groupPromotion _ _ => 0
  | .bra _ _ _ => 8
  | .bru _ _ _ => 8
  | .jmpi _ _ => 23
  | .call _ => 8
  | .ret => 32
  | .enrol _ => 29
  | .rejoin _ => 29
  | .strike _ => 29
  | .spawn _ _ _ _ => 9
  | .exit => 32
  | .yield => 32
  | .nop => 32
  | .fork _ => 29
  | .rdv _ => 29
  | .barar _ => 15
  | .barwt _ => 15
  | .barsync _ => 15
  | .msync _ => 25
  | .cljoin _ _ _ _ => 9
  | .clleave _ _ => 23
  | .clslot _ _ => 23
  | .clusterJoinTimeout _ _ => 0
  | .atadd _ _ _ _ => 9
  | .atinc _ _ _ _ => 9
  | .atbadd _ _ _ _ => 9
  | .atmin _ _ _ _ => 9
  | .atmax _ _ _ _ => 9
  | .atand _ _ _ _ => 9
  | .ator _ _ _ _ => 9
  | .atxor _ _ _ _ => 9
  | .atxchg _ _ _ _ => 9
  | .atcas _ _ _ _ => 9
  | .atld _ _ _ => 16
  | .atred _ _ _ => 16
  | .tkdec _ _ _ => 16
  | .tkadd _ _ _ _ => 9
  | .tkmake _ _ _ _ => 9
  | .tktake _ _ => 23
  | .rocall _ _ _ => 11
  | .rowait _ _ => 18
  | .roread _ _ _ => 11
  | .rotrim _ _ => 18
  | .cpost _ _ _ => 16
  | .cpostTry _ _ _ _ => 12
  | .cwait _ _ _ => 16
  | .ctest _ _ _ _ => 9
  | .cfence _ _ _ => 16
  | .crec _ _ _ _ => 9
  | .cabort _ _ _ => 16
  | .ccoll _ _ => 23
  | .cgen _ _ _ => 16
  | .trap _ => 20
  | .tret => 32
  | .csrr _ _ => 14
  | .csrw _ _ => 14
  | .ctxsave _ _ _ => 14
  | .ctxload _ _ => 20
  | .mbpost _ _ _ => 14
  | .mbpoll _ _ _ => 14
  | .halt => 32
  | .tlbinv _ _ => 20
  | .ldio _ _ _ => 8
  | .stio _ _ _ => 8
  | .wfi => 32
  | .wfiWake _ => 0
  | .mcfgIndex _ _ => 13
  | .mcfgArea _ => 16
  | .mcfgAfmt _ _ => 23
  | .mcfgGrp _ => 16
  | .mcfgHi _ _ => 13
  | .mbind _ _ _ _ _ => 11
  | .mrowLines _ _ _ _ _ => 9
  | .mrowTslots _ _ _ _ _ => 9
  | .mzero _ _ => 22
  | .mmul _ _ _ _ _ _ => 11
  | .mmulw _ _ _ _ _ => 12
  | .mdrain _ _ _ _ _ _ => 10
  | .mdrainCh _ _ => 20
  | .mdrainf _ _ _ => 16
  | .msignal _ => 28
  | .mwaitb _ => 28
  | .mloop _ _ => 8
  | .mjmp _ => 8
  | .mstamp _ _ => 25
  | .mstampRetire _ => 27
  | .mend => 32
  | .mnop => 32
  | .haltBroadcast _ => 0
  | .debugStopBreakpoint _ _ => 0
  | .debugStopRequest _ => 0
  | .traceSample _ => 0
  | .preemptionSave _ => 0
  | .blockPlacement _ => 0
  | .dcRetireWrite _ _ _ => 0
  | .tlbWalk _ _ _ => 0
  | .replayGauntletAdmit _ _ _ => 0
  | .replayGateTimeout _ _ _ => 0
  | .packetBegin _ => 0
  | .chunkLanding _ _ => 0
  | .packetCompletion _ => 0
  | .fencePacket _ => 0
  | .abandonedSlotWrite _ => 0
  | .queueRestart _ _ => 0
  | .taskReleaseWrite _ _ _ => 0
  | .hostSyncAtomic _ _ _ _ => 0
  | .hostCxlMemAccess _ _ _ _ => 0
  | .hbmCorrectedError _ _ _ _ _ => 0
  | .classifierEntryExpiry _ _ => 0
  | .hbmRepair _ _ => 0
  | .hbmRepairMoveDone _ => 0
  | .mcIpendClear _ _ => 0
  | .mcPoke _ _ => 0
  | .packageReset _ _ => 0
  | .mgmtImageReceived _ => 0
  | .spdmGetVersion _ => 0
  | .spdmGetCapabilities _ => 0
  | .spdmNegotiateAlgorithms _ => 0
  | .spdmGetDigests _ => 0
  | .spdmGetCertificate _ => 0
  | .spdmChallenge _ => 0
  | .spdmGetMeasurements _ => 0
  | .lifetimeMonthEnd => 0
  | .throttle _ _ _ => 0
  | .dieOvertempStop _ _ => 0
  | .xsFuseminWrite _ => 0
  | .optCtlBits _ _ => 0
  | .optStateOffRequest _ _ => 0
  | .optStateUpRequest _ _ => 0
  | .optLit _ _ => 0
  | .optLitTimeout _ => 0
  | .optLaserFailure _ _ _ => 0
  | .optLockSweep _ _ => 0
  | .optSweepDone _ _ => 0
  | .optTrain _ _ => 0
  | .optTrainDone _ _ _ => 0
  | .optLanemapWrite _ _ => 0
  | .wavelengthLoss _ _ => 0
  | .keyRequestThreshold _ => 0
  | .keyExhausted _ => 0
  | .feKeyuseWrite _ => 0
  | .feKeydataWrite _ => 0
  | .feSchedLock _ => 0
  | .feTbldataWrite _ => 0
  | .feChpartWrite _ _ => 0
  | .rotorSlot => 0
  | .burstReceived _ _ _ _ _ _ _ _ => 0
  | .remoteRequestIngress _ _ _ _ _ _ _ _ => 0
  | .remoteAtomicIngress _ _ _ _ _ _ _ _ => 0
  | .leaseExpiry _ => 0
  | .remoteTimeout _ => 0
  | .collectiveHead _ => 0
  | .collectiveFlitIngress _ _ _ _ _ _ _ _ _ _ _ _ => 0
  | .collectiveResend _ => 0
  | .collectiveAbortReceived _ _ _ _ _ => 0
  | .collectiveCompletion _ => 0
  | .capReceived => 0
  | .capRegeneration => 0
  | .possessionClose _ _ => 0
  | .nirraxGapTimeout => 0
  | .expelFallback _ => 0
  | .callApply _ => 0
  | .membershipExpel _ => 0
  | .membershipAdmit _ => 0
  | .membershipReplace _ => 0
  | .membershipClone _ => 0
  | .membershipAbort _ => 0
  | .membershipAddspare _ => 0
  | .membershipGetgen _ => 0
  | .trainctlStep _ => 0
  | .trainctlSetscale _ => 0
  | .trainctlSetclip _ => 0
  | .trainctlSetgrowth _ => 0
  | .trainctlGetscale _ => 0
  | .trainctlGetstep _ => 0
  | .generationFence _ => 0
  | .cuffPageCopy _ _ => 0
  | .joinClone _ _ _ _ _ => 0
  | .partitionConfiguration _ _ => 0
  | .managementPortFrame _ => 0
  | .hostSyncApertureWrite _ _ _ => 0
  | .registerUnitRetirement _ => 0
  | .softError _ _ _ _ _ => 0
  | .powerRemoval => 0

/-- The heavier of two readings of a bare word, the earlier on a tie. -/
def heavier (x y : Option Instr) : Option Instr :=
  match x, y with
  | some i, some j => if rowWeight j > rowWeight i then some j else some i
  | some i, none => some i
  | none, y => y

/-- What a class's decoder reads, as an option. -/
def readAs (cls w : Nat) : Option Instr :=
  match decodeWord cls w with
  | .ok i => some i
  | .error _ => none

/-- The instruction this decoder reads from an instruction whose bits are `w`, laid out as spec/opcode_table.json numbers
them. The table's rows give a word without its clause, and a word means nothing without the class its clause header names
(R23, R34): the word is read under every class and the reading that fixes the most bits is answered (log entry 5). With 64
bits the first word is the clause header and the second the word. -/
def decodeTableWord (nbits w : Nat) : Option Instr :=
  if nbits = 64 then
    match decodeHeader (w % 4294967296) with
    | .ok (.clauseHeader _ cls _ _ _ _ _ _ _) => readAs cls (w / 4294967296 % 4294967296)
    | _ => none
  else
    let x := w % 4294967296
    heavier (readAs 0 x) (heavier (readAs 1 x) (heavier (readAs 2 x) (heavier (readAs 3 x)
      (heavier (readAs 4 x) (heavier (readAs 5 x) (heavier (readAs 6 x) (readAs 7 x)))))))

end Sys2Proof
end

