-- ==== Sys2Proof/Machine/Sparse.lean ====
section
/-! DEFINITION. Reading and writing tables by number, and plain list helpers. A write keeps the canonical form: keys rising
and no entry equal to the default (guide to State: memory in one canonical form). -/
namespace Sys2Proof.Machine

/-- The entry of a table at a key, the default where none is listed. -/
def tget {α : Type} (d : α) : Sparse α → Nat → α
  | [], _ => d
  | (k, v) :: rest, n => if k = n then v else tget d rest n

/-- The listed entries for values from key `a` upward, entries equal to the default left out. -/
def tents {α : Type} [DecidableEq α] (d : α) : Nat → List α → Sparse α
  | _, [] => []
  | a, v :: rest => if v = d then tents d (a + 1) rest else (a, v) :: tents d (a + 1) rest

/-- Write the values `vs` at keys `a`, `a + 1`, and so on. -/
def tsets {α : Type} [DecidableEq α] (d : α) (t : Sparse α) (a : Nat) (vs : List α) : Sparse α :=
  t.filter (fun p => decide (p.1 < a)) ++ tents d a vs ++ t.filter (fun p => decide (a + vs.length ≤ p.1))

/-- Write one entry. -/
def tset {α : Type} [DecidableEq α] (d : α) (t : Sparse α) (n : Nat) (v : α) : Sparse α := tsets d t n [v]

/-- The entries at keys `a` to `a + n - 1`. -/
def tgets {α : Type} (d : α) (t : Sparse α) (a : Nat) : Nat → List α
  | 0 => []
  | n + 1 => tget d t a :: tgets d t (a + 1) n

/-- The table is canonical: keys strictly rising, no entry equal to the default. -/
def canonical {α : Type} [DecidableEq α] (d : α) : Sparse α → Bool
  | [] => true
  | [(_, v)] => decide (v ≠ d)
  | (k, v) :: (k', v') :: rest => decide (k < k') && decide (v ≠ d) && canonical d ((k', v') :: rest)

/-- The numbers `a`, `a + 1`, to `a + n - 1`. -/
def upFrom (a : Nat) : Nat → List Nat
  | 0 => []
  | n + 1 => a :: upFrom (a + 1) n

/-- The lanes of a group. -/
def lanes32 : List Nat := upFrom 0 32

/-- Bit `i` of a number. -/
def bitOf (w i : Nat) : Bool := decide (w / 2 ^ i % 2 = 1)

/-- Bits [hi:lo] of a number. -/
def fld (w hi lo : Nat) : Nat := w / 2 ^ lo % 2 ^ (hi + 1 - lo)

/-- A mask with the bits of the listed numbers set. -/
def maskOf : List Nat → Nat
  | [] => 0
  | l :: rest => 2 ^ l ||| maskOf rest

/-- The listed numbers whose bits are set in a mask of `n` bits, ascending. -/
def maskList (n m : Nat) : List Nat := (upFrom 0 n).filter (fun i => bitOf m i)

/-- The element at a position of a list, with a default. -/
def nth {α : Type} (d : α) : List α → Nat → α
  | [], _ => d
  | x :: _, 0 => x
  | _ :: rest, n + 1 => nth d rest n

/-- A list with the element at a position replaced. -/
def setNth {α : Type} (x : α) : List α → Nat → List α
  | [], _ => []
  | _ :: rest, 0 => x :: rest
  | y :: rest, n + 1 => y :: setNth x rest n

/-- The first element that meets a test. -/
def firstOf {α : Type} (p : α → Bool) : List α → Option α
  | [] => none
  | x :: rest => if p x then some x else firstOf p rest

/-- Replace every element that meets a test by its image. -/
def mapIf {α : Type} (p : α → Bool) (f : α → α) : List α → List α
  | [] => []
  | x :: rest => (if p x then f x else x) :: mapIf p f rest

/-- Insert a number in a rising list, once. -/
def insNat (n : Nat) : List Nat → List Nat
  | [] => [n]
  | k :: rest => if n < k then n :: k :: rest else if n = k then k :: rest else k :: insNat n rest

/-- The least of a list of numbers. -/
def leastOf : List Nat → Option Nat
  | [] => none
  | n :: rest => match leastOf rest with
    | none => some n
    | some m => some (min n m)

/-- A number of bytes from a byte list, little-endian from an offset (R11). -/
def leAt (bs : List Byte) (off n : Nat) : Nat :=
  match n with
  | 0 => 0
  | k + 1 => (nth 0 bs off).toNat + 256 * leAt bs (off + 1) k

/-- The `n` bytes of a number, least significant first (R11). -/
def toLe : Nat → Nat → List Byte
  | 0, _ => []
  | n + 1, x => BitVec.ofNat 8 x :: toLe n (x / 256)

/-- A list of bytes cut or filled with zeros to a length. -/
def padTo (n : Nat) (bs : List Byte) : List Byte := bs.take n ++ List.replicate (n - bs.length) 0

/-- Replace the bytes of a list from an offset. -/
def patch (bs : List Byte) (off : Nat) (new : List Byte) : List Byte :=
  bs.take off ++ new ++ bs.drop (off + new.length)

/-- The 32-bit words of a byte list. -/
def wordsOf : List Byte → List W32
  | a :: b :: c :: d :: rest => BitVec.ofNat 32 (leAt [a, b, c, d] 0 4) :: wordsOf rest
  | _ => []

/-- The bytes of a list of 32-bit words. -/
def bytesOf : List W32 → List Byte
  | [] => []
  | w :: rest => toLe 4 w.toNat ++ bytesOf rest

/-- `n` copies of an element. -/
def copies {α : Type} (n : Nat) (x : α) : List α := List.replicate n x

/-- Add saturating at 2^w - 1. -/
def satAdd (w a b : Nat) : Nat := min (a + b) (2 ^ w - 1)

/-- Insert by a key in rising order, after equals. -/
def insBy {α : Type} (key : α → Nat) (x : α) : List α → List α
  | [] => [x]
  | y :: rest => if key x < key y then x :: y :: rest else y :: insBy key x rest

/-- Sort by a key, keeping the order of equals. -/
def sortBy {α : Type} (key : α → Nat) (xs : List α) : List α := xs.foldl (fun acc x => insBy key x acc) []

/-- Numbers of bytes, as a flit carries them. -/
def natBytes (bs : List Byte) : List Nat := bs.map (fun b => b.toNat)
def byteList (ns : List Nat) : List Byte := ns.map (BitVec.ofNat 8)

end Sys2Proof.Machine
end

