-- ==== Sys2Proof/Machine/Numbers.lean ====
section
/-! DEFINITION. The number formats, roundings, block scales, nested planes, block alignment, fixed sum orders and residues
of "Numbers" (R35 to R56). A floating value is read into an exact dyadic number, computed exactly, and rounded once. -/
namespace Sys2Proof.Machine

/-- A floating value: NaN, an infinity, or (-1)^neg * m * 2^e. -/
inductive FVal where
  | nan
  | inf (neg : Bool)
  | fin (neg : Bool) (m : Nat) (e : Int)
  deriving DecidableEq, Repr

/-- A floating format (R37, R38): exponent bits, fraction bits, bias, whether it has infinities and NaN. -/
structure Fmt where
  eb : Nat
  mb : Nat
  bias : Nat
  hasInf : Bool
  hasNan : Bool
  deriving DecidableEq, Repr

def f32F : Fmt := ⟨8, 23, 127, true, true⟩
def f16F : Fmt := ⟨5, 10, 15, true, true⟩
def bf16F : Fmt := ⟨8, 7, 127, true, true⟩
def e4m3F : Fmt := ⟨4, 3, 7, false, true⟩
def e5m2F : Fmt := ⟨5, 2, 15, true, true⟩
def e3m2F : Fmt := ⟨3, 2, 3, false, false⟩
def e2m3F : Fmt := ⟨2, 3, 1, false, false⟩
def e2m1F : Fmt := ⟨2, 1, 1, false, false⟩

/-- Width of a format in bits (R37). -/
def Fmt.width (f : Fmt) : Nat := 1 + f.eb + f.mb

/-- The code of the largest finite magnitude (R37, R38). -/
def Fmt.maxCode (f : Fmt) : Nat :=
  if f.hasInf then (2 ^ f.eb - 1) * 2 ^ f.mb - 1
  else if f.hasNan then 2 ^ (f.eb + f.mb) - 2
  else 2 ^ (f.eb + f.mb) - 1

/-- The code of an infinite magnitude. -/
def Fmt.infCode (f : Fmt) : Nat := (2 ^ f.eb - 1) * 2 ^ f.mb

/-- The canonical NaN of a format, and +0 where it has none (R38, R39, R42). -/
def qnan (f : Fmt) : Nat :=
  if f.hasInf then f.infCode + 2 ^ (f.mb - 1) else if f.hasNan then 2 ^ (f.eb + f.mb) - 1 else 0

/-- The format of a type code of R99. -/
def fmtOf (c : Nat) : Fmt :=
  match c with
  | 8 => f32F
  | 9 => f16F
  | 10 => bf16F
  | 11 => e4m3F
  | 12 => e5m2F
  | 13 => e3m2F
  | 14 => e2m3F
  | _ => e2m1F

/-- The value that a code of a format stands for (R37, R38). -/
def readF (f : Fmt) (w : Nat) : FVal :=
  let mag := w % 2 ^ (f.eb + f.mb)
  let neg := bitOf w (f.eb + f.mb)
  if f.hasNan ∧ f.maxCode < mag ∧ ¬ (f.hasInf ∧ mag = f.infCode) then .nan
  else if f.hasInf ∧ mag = f.infCode then .inf neg
  else
    let ex := mag / 2 ^ f.mb
    let mant := mag % 2 ^ f.mb
    if ex = 0 then .fin neg mant (1 - (f.bias : Int) - f.mb)
    else .fin neg (2 ^ f.mb + mant) ((ex : Int) - f.bias - f.mb)

/-- The rounding modes of R41, other than the stochastic one. -/
inductive RMode where
  | rne
  | rz
  | rd
  | ru
  deriving DecidableEq, Repr

/-- The mode that a two-bit field selects (R29, R100). -/
def modeOf (m : Nat) : RMode :=
  match m with
  | 0 => .rne
  | 1 => .rz
  | 2 => .rd
  | _ => .ru

/-- Whether a magnitude whose discarded part is `rem` of `unit` (with more below it when `sticky`) is rounded up. -/
def roundsUp (mode : RMode) (neg : Bool) (odd : Bool) (rem unit : Nat) (sticky : Bool) : Bool :=
  match mode with
  | .rne => decide (unit < 2 * rem) || (decide (unit = 2 * rem) && (sticky || odd))
  | .rz => false
  | .rd => neg && (decide (rem ≠ 0) || sticky)
  | .ru => !neg && (decide (rem ≠ 0) || sticky)

/-- `m * 2^e` (and a little more when `sticky`) rounded to a multiple of `2^q`, as that multiple. -/
def roundAt (mode : RMode) (neg : Bool) (m : Nat) (e q : Int) (sticky : Bool) : Nat :=
  if q ≤ e then
    let r := m * 2 ^ (e - q).toNat
    if roundsUp mode neg (decide (r % 2 = 1)) 0 1 sticky then r + 1 else r
  else
    let s := (q - e).toNat
    let r := m / 2 ^ s
    let rem := m % 2 ^ s
    if roundsUp mode neg (decide (r % 2 = 1)) rem (2 ^ s) sticky then r + 1 else r

/-- Floor of the binary logarithm of `m * 2^e`, m not 0. -/
def flog2 (m : Nat) (e : Int) : Int := (Nat.log2 m : Int) + e

/-- The place of the last retained bit of a magnitude in a format (R37): the floor is that of the smallest normal. -/
def lsbOf (f : Fmt) (m : Nat) (e : Int) : Int := max (flog2 m e - f.mb) (1 - (f.bias : Int) - f.mb)

/-- The magnitude code of `r * 2^q`, q being the place `lsbOf` gives; it may exceed the format's largest. -/
def magCode (f : Fmt) (r : Nat) (q : Int) : Nat :=
  if r < 2 ^ f.mb then r
  else
    let ex := (q + f.mb + f.bias).toNat
    ex * 2 ^ f.mb + (r - 2 ^ f.mb)

/-- The sign bit's weight. -/
def signOf (f : Fmt) (neg : Bool) : Nat := if neg then 2 ^ (f.eb + f.mb) else 0

/-- The result of a magnitude beyond the largest finite value (R42). -/
def overflowTo (f : Fmt) (mode : RMode) (neg : Bool) : Nat :=
  if f.hasInf then
    match mode, neg with
    | .rne, _ => signOf f neg + f.infCode
    | .rz, _ => signOf f neg + f.maxCode
    | .rd, true => signOf f neg + f.infCode
    | .rd, false => f.maxCode
    | .ru, false => f.infCode
    | .ru, true => signOf f neg + f.maxCode
  else signOf f neg + f.maxCode

/-- Round an exact value to a format (R41, R42, R39); `sticky` says that the exact value lies a little above `m * 2^e`. -/
def rndS (f : Fmt) (mode : RMode) (x : FVal) (sticky : Bool) : Nat :=
  match x with
  | .nan => qnan f
  | .inf neg => if f.hasInf then signOf f neg + f.infCode else signOf f neg + f.maxCode
  | .fin neg m e =>
    if m = 0 then signOf f neg
    else
      let q := lsbOf f m e
      let r := roundAt mode neg m e q sticky
      let c := magCode f r q
      if f.maxCode < c then overflowTo f mode neg else signOf f neg + c

/-- `rnd(x, fmt, mode)` of R56. -/
def rnd (f : Fmt) (mode : RMode) (x : FVal) : Nat := rndS f mode x false

/-- `f32(x)` of R56. -/
def toF32 (x : FVal) : Nat := rnd f32F .rne x

/-- A finite value with its sign as an integer multiple of 2^e. -/
def scaled (neg : Bool) (m : Nat) (e low : Int) : Int :=
  let v : Int := (m * 2 ^ (e - low).toNat : Nat)
  if neg then -v else v

/-- The exact sum of two values; an exact zero sum of opposite signs is +0, and -0 under `.rd` (R42). -/
def fadd (mode : RMode) (x y : FVal) : FVal :=
  match x, y with
  | .nan, _ => .nan
  | _, .nan => .nan
  | .inf s, .inf t => if s = t then .inf s else .nan
  | .inf s, _ => .inf s
  | _, .inf t => .inf t
  | .fin s m e, .fin t n k =>
    let low := min e k
    let v := scaled s m e low + scaled t n k low
    if v = 0 then
      if m = 0 ∧ n = 0 ∧ s = t then .fin s 0 low else .fin (decide (mode = .rd)) 0 low
    else .fin (decide (v < 0)) v.natAbs low

/-- The exact product. -/
def fmul (x y : FVal) : FVal :=
  match x, y with
  | .nan, _ => .nan
  | _, .nan => .nan
  | .inf s, .inf t => .inf (s ^^ t)
  | .inf s, .fin t n _ => if n = 0 then .nan else .inf (s ^^ t)
  | .fin s m _, .inf t => if m = 0 then .nan else .inf (s ^^ t)
  | .fin s m e, .fin t n k => .fin (s ^^ t) (m * n) (e + k)

/-- The negation. -/
def fneg : FVal → FVal
  | .nan => .nan
  | .inf s => .inf !s
  | .fin s m e => .fin (!s) m e

/-- The value times 2^k. -/
def fscale (x : FVal) (k : Int) : FVal :=
  match x with
  | .fin s m e => .fin s m (e + k)
  | y => y

/-- Order of two values that are no NaN: -1, 0 or 1; +0 and -0 are equal. -/
def fcmp (x y : FVal) : Int :=
  match x, y with
  | .inf s, .inf t => if s = t then 0 else if s then -1 else 1
  | .inf s, _ => if s then -1 else 1
  | _, .inf t => if t then 1 else -1
  | .fin s m e, .fin t n k =>
    let low := min e k
    let a := scaled s m e low
    let b := scaled t n k low
    if a < b then -1 else if a = b then 0 else 1
  | _, _ => 0

/-- A value is a NaN. -/
def FVal.isNan : FVal → Bool
  | .nan => true
  | _ => false

/-- A value is infinite. -/
def FVal.isInf : FVal → Bool
  | .inf _ => true
  | _ => false

/-- The sign of a value. -/
def FVal.neg : FVal → Bool
  | .nan => false
  | .inf s => s
  | .fin s _ _ => s

/-- A value is a zero. -/
def FVal.isZero : FVal → Bool
  | .fin _ m _ => decide (m = 0)
  | _ => false

/-- The f32 value of a word. -/
def f32v (w : Nat) : FVal := readF f32F w

/-- `vfmin` and the minimum of R94 on f32 codes: one of the operands unchanged, -0 below +0. -/
def fminCode (a b : Nat) : Nat :=
  let x := f32v a
  let y := f32v b
  if x.isNan && y.isNan then 0x7FC00000
  else if x.isNan then b
  else if y.isNan then a
  else if x.isZero && y.isZero then (if x.neg then a else b)
  else if fcmp x y ≤ 0 then a else b

/-- The maximum of R94. -/
def fmaxCode (a b : Nat) : Nat :=
  let x := f32v a
  let y := f32v b
  if x.isNan && y.isNan then 0x7FC00000
  else if x.isNan then b
  else if y.isNan then a
  else if x.isZero && y.isZero then (if x.neg then b else a)
  else if 0 ≤ fcmp x y then a else b

/-- A value rounded to an integer by a mode, NaN and infinities apart (R36). -/
def roundInt (mode : RMode) (x : FVal) : Int :=
  match x with
  | .fin s m e =>
    let r : Int := (roundAt mode s m e 0 false : Nat)
    if s then -r else r
  | _ => 0

/-- Clamp to a signed range of w bits (R56). -/
def sats (w : Nat) (x : Int) : Int := max (-(2 ^ (w - 1) : Nat)) (min x ((2 ^ (w - 1) : Nat) - 1))

/-- Clamp to an unsigned range of w bits (R56). -/
def satu (w : Nat) (x : Int) : Int := max 0 (min x ((2 ^ w : Nat) - 1))

/-- A number's w-bit two's complement code. -/
def wrap (w : Nat) (x : Int) : Nat := (x % (2 ^ w : Nat)).toNat

/-- The signed value of a w-bit code. -/
def sgn (w x : Nat) : Int := if bitOf x (w - 1) then ((x % 2 ^ w : Nat) : Int) - (2 ^ w : Nat) else ((x % 2 ^ w : Nat) : Int)

/-- The value of an integer as a floating value. -/
def ofInt (x : Int) : FVal := .fin (decide (x < 0)) x.natAbs 0

/-- `f32(a + b)` on codes. -/
def f32Add (mode : RMode) (a b : Nat) : Nat := rnd f32F mode (fadd mode (f32v a) (f32v b))

/-- `f32(a * b)` on codes. -/
def f32Mul (mode : RMode) (a b : Nat) : Nat := rnd f32F mode (fmul (f32v a) (f32v b))

/-- `f32(a * b + d)` on codes, rounded once. -/
def f32Fma (mode : RMode) (a b d : Nat) : Nat :=
  rnd f32F mode (fadd mode (fmul (f32v a) (f32v b)) (f32v d))

/-- Stochastic rounding of an f32 code (R43, R101): random word `r` of `n` bits. The overflow that comes before any round-up is that of
the retained magnitude (log entry 71). -/
def srnd (f : Fmt) (a r n : Nat) : Nat :=
  match f32v a with
  | .nan => rnd f .rne .nan
  | .inf s => rnd f .rne (.inf s)
  | .fin s m e =>
    if m = 0 then signOf f s
    else
      let q := lsbOf f m e
      if q ≤ e then
        let c := magCode f (m * 2 ^ (e - q).toNat) q
        if f.maxCode < c then overflowTo f (if s then .rd else .ru) s else signOf f s + c
      else
        let d := (q - e).toNat
        let disc := m % 2 ^ d
        let kept := m / 2 ^ d
        let t := if d ≤ n then disc * 2 ^ (n - d) else disc / 2 ^ (d - n)
        let ovf := decide (f.maxCode < magCode f kept q)
        let up := decide (r % 2 ^ n < t)
        let c := magCode f (if up then kept + 1 else kept) q
        if ovf || decide (f.maxCode < c) then overflowTo f (if s then .rd else .ru) s else signOf f s + c

/-- Integer square root by bits: the largest r with r * r at most n, found from bit `k - 1` down. -/
def isqrtFrom (n : Nat) : Nat → Nat → Nat
  | 0, r => r
  | k + 1, r => if (r + 2 ^ k) * (r + 2 ^ k) ≤ n then isqrtFrom n k (r + 2 ^ k) else isqrtFrom n k r

/-- The integer square root. -/
def isqrt (n : Nat) : Nat := isqrtFrom n (Nat.log2 n / 2 + 1) 0

/-- The square root of m * 2^e as a value with more below it: at least 60 bits. -/
def sqrtVal (m : Nat) (e : Int) : Nat × Int × Bool :=
  let k : Nat := 120 + (if (e - 120) % 2 = 0 then 0 else 1)
  let n := m * 2 ^ k
  let r := isqrt n
  (r, (e - k) / 2, decide (r * r ≠ n))

/-- The f32 square root (R97). -/
def f32Sqrt (a : Nat) : Nat :=
  match f32v a with
  | .nan => 0x7FC00000
  | .inf s => if s then 0x7FC00000 else 0x7F800000
  | .fin s m e =>
    if m = 0 then signOf f32F s else if s then 0x7FC00000
    else
      let (r, q, st) := sqrtVal m e
      rndS f32F .rne (.fin false r q) st

/-- A positive value rounded to 12 significant bits under RNE with an unbounded exponent (R97). -/
def round12 (neg : Bool) (m : Nat) (e : Int) (sticky : Bool) : FVal :=
  let q := flog2 m e - 11
  .fin neg (roundAt .rne neg m e q sticky) q

/-- `vfrcp` (R97). -/
def f32Rcp (a : Nat) : Nat :=
  match f32v a with
  | .nan => 0x7FC00000
  | .inf s => signOf f32F s
  | .fin s m e =>
    if m = 0 then signOf f32F s + 0x7F800000
    else
      let n := 2 ^ 100
      toF32 (round12 s (n / m) (-100 - e) (decide (n % m ≠ 0)))

/-- `vfrsq` (R97). -/
def f32Rsq (a : Nat) : Nat :=
  match f32v a with
  | .nan => 0x7FC00000
  | .inf s => if s then 0x7FC00000 else 0
  | .fin s m e =>
    if m = 0 then signOf f32F s + 0x7F800000 else if s then 0x7FC00000
    else
      -- 1 / sqrt(m 2^e) = sqrt(2^k / m * 2^(-e-k))
      let k : Nat := 160 + (if (e + 160) % 2 = 0 then 0 else 1)
      let n := 2 ^ k / m
      let r := isqrt n
      let exact := decide (r * r * m = 2 ^ k)
      toF32 (round12 false r ((-e - k) / 2) (!exact))

/-- Fixed-point fraction bits of the transcendental series. -/
def fpBits : Nat := 400

/-- The series 2 atanh(num / den) in fixed point: terms from index `k`, `fuel` of them. -/
def atanhTerms (num den : Nat) : Nat → Nat → Nat → Nat
  | 0, _, _ => 0
  | fuel + 1, k, pw => 2 * pw / (2 * k + 1) + atanhTerms num den fuel (k + 1) (pw * num * num / (den * den))

/-- ln(x / 2^s) for 1 ≤ x / 2^s < 2, in fixed point. -/
def lnFix (x s : Nat) : Nat :=
  atanhTerms (x - 2 ^ s) (x + 2 ^ s) 140 0 (2 ^ fpBits * (x - 2 ^ s) / (x + 2 ^ s))

/-- ln 2 in fixed point. -/
def ln2Fix : Nat := atanhTerms 1 3 140 0 (2 ^ fpBits / 3)

/-- The exponential series of y (fixed point, below 1): terms from index `k`. -/
def expTerms (y : Nat) : Nat → Nat → Nat → Nat
  | 0, _, _ => 0
  | fuel + 1, k, t => t + expTerms y fuel (k + 1) (t * y / 2 ^ fpBits / (k + 1))

/-- e^y in fixed point for 0 ≤ y < 1. -/
def expFix (y : Nat) : Nat := expTerms y 110 0 (2 ^ fpBits)

/-- The f32 of 2^a (R97). The result is the exact value rounded once (log entry 25). -/
def f32Exp2 (a : Nat) : Nat :=
  match f32v a with
  | .nan => 0x7FC00000
  | .inf s => if s then 0 else 0x7F800000
  | .fin s m e =>
    if m = 0 then 0x3F800000
    else if 0 ≤ e ∨ m % 2 ^ (-e).toNat = 0 then
      let n : Nat := if 0 ≤ e then m * 2 ^ (min e.toNat 200) else m / 2 ^ (-e).toNat
      let k : Int := if s then -(min n 2000 : Nat) else (min n 2000 : Nat)
      toF32 (.fin false 1 k)
    else
      let w := (-e).toNat
      let ip := m / 2 ^ w
      let fr := m % 2 ^ w
      let n : Int := if s then -((min ip 2000 : Nat) : Int) - 1 else ((min ip 2000 : Nat) : Int)
      let f := if s then 2 ^ w - fr else fr
      let y := f * ln2Fix / 2 ^ w
      rndS f32F .rne (.fin false (expFix y) (n - fpBits)) true

/-- The f32 of log2 a (R97; log entry 25). -/
def f32Log2 (a : Nat) : Nat :=
  match f32v a with
  | .nan => 0x7FC00000
  | .inf s => if s then 0x7FC00000 else 0x7F800000
  | .fin s m e =>
    if m = 0 then 0xFF800000 else if s then 0x7FC00000
    else
      let k := Nat.log2 m
      let ex : Int := e + k
      if m = 2 ^ k then toF32 (ofInt ex)
      else
        let lg : Int := (lnFix m k * 2 ^ fpBits / ln2Fix : Nat)
        let v : Int := ex * (2 ^ fpBits : Nat) + lg
        if v < 0 then rndS f32F .rne (.fin true (v.natAbs - 1) (-(fpBits : Int))) true
        else rndS f32F .rne (.fin false v.natAbs (-(fpBits : Int))) true

/-- The f32 of tanh a (R97; log entry 25). -/
def f32Tanh (a : Nat) : Nat :=
  match f32v a with
  | .nan => 0x7FC00000
  | .inf s => signOf f32F s + 0x3F800000
  | .fin s m e =>
    if m = 0 then signOf f32F s
    else if flog2 m e < -13 then a
    else if 4 ≤ flog2 m e then signOf f32F s + 0x3F800000
    else
      -- y = 2 |a| in fixed point; e^y = 2^n e^r
      let y := m * 2 ^ (fpBits + 1) / 2 ^ (-e).toNat
      let n := y / ln2Fix
      let r := y % ln2Fix
      let ex := expFix r * 2 ^ n
      let q := (ex - 2 ^ fpBits) * 2 ^ fpBits / (ex + 2 ^ fpBits)
      rndS f32F .rne (.fin s q (-(fpBits : Int))) true

/-- The class word of `vfclass` (R96). -/
def f32Class (a : Nat) : Nat :=
  let ex := fld a 30 23
  let mant := fld a 22 0
  let neg := bitOf a 31
  if ex = 255 then
    if mant = 0 then (if neg then 1 else 128) else if bitOf a 22 then 512 else 256
  else if ex = 0 then
    if mant = 0 then (if neg then 8 else 16) else if neg then 4 else 32
  else if neg then 2 else 64

/-- The largest element exponent of a block format (R46). -/
def emaxOf (c : Nat) : Int :=
  match c with
  | 11 => 8
  | 12 => 15
  | 13 => 4
  | 14 => 2
  | _ => 2

/-- Floor of log2 of the largest magnitude of a block, none where every value is zero. -/
def maxLog : List FVal → Option Int
  | [] => none
  | .fin _ m e :: rest =>
    if m = 0 then maxLog rest
    else match maxLog rest with
      | none => some (flog2 m e)
      | some k => some (max k (flog2 m e))
  | _ :: rest => maxLog rest

/-- `mxscale` of R46. -/
def mxscale (xs : List FVal) (c : Nat) : Nat :=
  if xs.any (fun x => x.isNan || x.isInf) then 255
  else match maxLog xs with
    | none => 127
    | some k => (min (max (k - emaxOf c) (-127)) 127 + 127).toNat

/-- `mxq` of R46. -/
def mxq (x : FVal) (code c : Nat) (mode : RMode) : Nat :=
  if code = 255 then 0 else rnd (fmtOf c) mode (fscale x (127 - (code : Int)))

/-- The k bits of element l, most significant plane first. -/
def planeBits (planes : List Nat) (l : Nat) : Nat → Nat
  | 0 => 0
  | k + 1 => 2 * planeBits planes l k + (if bitOf (nth 0 planes k) l then 1 else 0)

/-- `npread` of R48, as a signed value. -/
def npread (planes : List Nat) (w k l : Nat) : Int :=
  let t := planeBits planes l k
  let v := if k = w then t else t * 2 ^ (w - k) + 2 ^ (w - k - 1)
  sgn w v

/-- The mantissas and block exponent of a row block (R49); none where the block is marked NaN. -/
def alignBlk (c : Nat) (codes : List Nat) (code k : Nat) : Option (List Int × Int) :=
  let vals := codes.map (readF (fmtOf c))
  if code = 255 ∨ vals.any (fun x => x.isNan || x.isInf) then none
  else
    -- subnormal e4m3 and e5m2 elements count as zeros of the same sign (R40)
    let flush := fun (x : Nat) => if (c = 11 ∨ c = 12) ∧ x % 2 ^ ((fmtOf c).eb + (fmtOf c).mb) < 2 ^ (fmtOf c).mb then
      FVal.fin (bitOf x ((fmtOf c).eb + (fmtOf c).mb)) 0 0 else readF (fmtOf c) x
    let xs := codes.map flush
    match maxLog xs with
    | none => some (xs.map (fun _ => 0), (code : Int) - 127)
    | some e =>
      let q := e - ((k : Int) - 2)
      some (xs.map (fun x => max (-(2 ^ (k - 1) : Nat) : Int) (min (roundInt .rne (fscale x (-q))) ((2 ^ (k - 1) : Nat) - 1))),
        (code : Int) - 127 + q)

/-- One level of the fixed binary tree (R52): neighbours combined, lower lanes on the left. -/
def treeLevel {α : Type} (op : α → α → α) : List α → List α
  | a :: b :: rest => op a b :: treeLevel op rest
  | rest => rest

/-- The R52 reduction of 2^h leaves, and the nodes of every level from the leaves up. -/
def treeLevels {α : Type} (op : α → α → α) : Nat → List α → List (List α)
  | 0, xs => [xs]
  | h + 1, xs => xs :: treeLevels op h (treeLevel op xs)

/-- `tree(op, leaf)` of R56. -/
def treeOf {α : Type} (op : α → α → α) (d : α) (xs : List α) : α :=
  nth d (nth [] (treeLevels op 5 xs) 5) 0

/-- The left fold of the tree nodes that cover lanes `0` to `n - 1`, from bit `h` of `n` down; `base` lanes are covered. -/
def prefixFrom {α : Type} (op : α → α → α) (d : α) (lv : List (List α)) (n : Nat) : Nat → Nat → Option α → Option α
  | 0, base, acc =>
    if bitOf n 0 then
      let x := nth d (nth [] lv 0) base
      some (match acc with | none => x | some a => op a x)
    else acc
  | h + 1, base, acc =>
    if bitOf n (h + 1) then
      let x := nth d (nth [] lv (h + 1)) (base / 2 ^ (h + 1))
      prefixFrom op d lv n h (base + 2 ^ (h + 1)) (some (match acc with | none => x | some a => op a x))
    else prefixFrom op d lv n h base acc

/-- `prefix(op, leaf, l)` of R56. -/
def prefixOf {α : Type} (op : α → α → α) (d : α) (xs : List α) (l : Nat) : α :=
  match prefixFrom op d (treeLevels op 5 xs) (l + 1) 5 0 none with
  | some a => a
  | none => d

/-- The residue of a word (R55). -/
def resid (w : W32) : BitVec 4 := BitVec.ofNat 4 (w.toNat % 15)

/-- A word with a fresh residue. -/
def fresh (w : W32) : RWord := ⟨w, resid w⟩

/-- A word marked bad (R84, R55: field 15 never matches). -/
def marked (w : W32) : RWord := ⟨w, 15⟩

/-- A word matches its own residue. -/
def rok (r : RWord) : Bool := decide (r.res = resid r.val)

/-- A computed word: fresh where every operand matched, field 15 otherwise (R84). -/
def computed (good : Bool) (w : Nat) : RWord :=
  if good then fresh (BitVec.ofNat 32 w) else marked (BitVec.ofNat 32 w)

/-- The counter-based generator of R102, 32 bits. -/
def rng32 (c k : Nat) : Nat :=
  let m := 2 ^ 32
  let x := (c + k * 0x9E3779B9) % m
  let x := ((x ^^^ (x / 2 ^ 16)) * 0x7FEB352D) % m
  let x := ((x ^^^ (x / 2 ^ 15)) * 0x846CA68B) % m
  x ^^^ (x / 2 ^ 16)

/-- The counter-based generator of R102, 64 bits. -/
def rng64 (c k : Nat) : Nat :=
  let m := 2 ^ 64
  let x := (c + k * 0x9E3779B97F4A7C15) % m
  let x := ((x ^^^ (x / 2 ^ 30)) * 0xBF58476D1CE4E5B9) % m
  let x := ((x ^^^ (x / 2 ^ 27)) * 0x94D049BB133111EB) % m
  x ^^^ (x / 2 ^ 31)

/-- `rotl64(x, n)` of R56. -/
def rotl64 (x n : Nat) : Nat := (x * 2 ^ n % 2 ^ 64) ||| (x / 2 ^ (64 - n))

end Sys2Proof.Machine
end

