-- ==== Sys2Proof/Machine/State.lean ====
section
/-! DEFINITION. The state of one Rhadel package as plain data: lanes, groups, blocks, cores, dies, the X-die with its
management cores, the optical ports, the fabric and Nirrax engines, partitions, device memory, and the model's own fields
that say which agent moves next (INVENTORY.md lists every piece with its rule). -/
namespace Sys2Proof.Machine

/-- Why a step stops. -/
inductive Fault where
  /-- Raised by `exec` when it is asked to run a program word and the state names no agent that is issuing one, or names
  one that the state does not hold. No step of the machine asks for this. Safe. -/
  | noAgent
  deriving DecidableEq, Repr

/-- Why a step has no meaning. -/
inductive Refusal where
  /-- Raised by an arm of `exec` whose instruction has no meaning yet. Safe. -/
  | notModelled (mnemonic : String)
  deriving DecidableEq, Repr

/-- The state of a lane (R59). `parked k` waits on rejoin mask k for k 0 to 7, and on `msync` for 8. -/
inductive LaneSt where
  | free
  | live
  | parked (k : Nat)
  deriving DecidableEq, Repr

/-- One lane's fibre record and flags (R57, R59, R62, R63). `entered` says that the fibre is inside the clause whose header
stands at `hdr`, having passed its header processing. -/
structure Lane where
  st : LaneSt
  guardOff : Bool
  deferred : Bool
  pc : BitVec 48
  pred : BitVec 16
  depth : Nat
  lo : Nat
  hdr : Nat
  entered : Bool
  starve : Nat
  deriving DecidableEq, Repr

/-- A lane that holds no fibre from group start (R272). -/
def Lane.none : Lane := ⟨.free, false, false, 0, 1, 0, 0, 0, false, 0⟩

/-- A fault waiting to be taken or held (R199, R200). -/
structure PFault where
  code : Nat
  grp : Nat
  lanes : Nat
  pc : Nat
  info : Nat
  resume : Nat
  deriving DecidableEq, Repr

/-- The scalar side's run of one class S clause (R125, R126): header, index of the next word, words, Y, guard outcome. -/
structure ScRun where
  hdr : Nat
  idx : Nat
  n : Nat
  y : Bool
  on : Bool
  deriving DecidableEq, Repr

/-- What a group's word waits for (R123). -/
inductive WaitOn where
  | header
  | counter
  | barrier (b : Nat)
  | presence
  | slot
  | queue
  | matrix
  | bitmap
  | object
  | copyRoom
  | channel
  | gauntlet
  /-- A call has been queued and is to be placed in the log: halts and pre-emption wait for the word (R373). -/
  | called
  /-- A publication: this many frames of pod scope and of system scope are to be applied here (R160, R362). -/
  | phase (pod sys : Nat)
  /-- The calls placed before the frame of a `phase` are to be applied (R363). -/
  | applied (n : Nat)
  | walk (page : Nat)
  /-- A burst of `call` or `ret` has moved a frame and goes on. -/
  | window
  deriving DecidableEq, Repr

/-- A waiting word: what it waits for and since when (R123, R144, R228). `ready` says that it could issue when its quadrant last
looked, `slots` the cluster slots for which a parked word waits, or the lanes whose frames a `call` has spilled (R73). -/
structure Wait where
  on : WaitOn
  start : Nat
  lanes : Nat
  pc : Nat
  ready : Bool
  slots : List Nat
  deriving DecidableEq, Repr

/-- A packet whose index has been claimed and whose slot is not yet written (R259, R260). -/
structure Claim where
  qoff : Nat
  idx : Nat
  pkt : List Byte
  deriving DecidableEq, Repr

/-- Control registers of a group or block in force for the clause that the group has fetched (R209). -/
structure InForce where
  vv : Nat
  vw : Nat
  vt : Nat
  va : Nat
  spillbase : Nat
  spilllim : Nat
  prstimeout : Nat
  joinwin : Nat
  bk0 : W64
  bk1 : W64
  bk2 : W64
  bk3 : W64
  deriving DecidableEq, Repr

/-- A group of 32 lanes with its scalar side (R59 to R66, R114 to R128). `arrived` masks the barriers at which the group has
arrived (R137). `yends` holds, by header, the lanes whose clause ends there as though Y were 1 (R77). -/
structure Group where
  num : Nat
  quad : Nat
  slot : Nat
  lanes : Sparse Lane
  kArr : Sparse (BitVec 32)
  kEnr : Sparse (BitVec 32)
  msM : BitVec 32
  msA : BitVec 32
  win : Sparse RWord
  by1 : Sparse RWord
  by2 : Sparse RWord
  by3 : Sparse RWord
  vv : W64
  vw : W64
  vt : W64
  va : W64
  frame : Nat
  spillbase : W64
  spilllim : W64
  inf : InForce
  fetched : Sparse (List W32)
  sb : Sparse Nat
  sregs : Sparse RWord
  sp : BitVec 8
  fq : List (RWord × RWord)
  rq : List (RWord × RWord)
  sc : Option ScRun
  sAhead : List Nat
  sFault : Option PFault
  nlanes : Nat
  ended : Bool
  wait : Option Wait
  swait : Option Wait
  forced : Option Nat
  skip : Nat
  promo : Option Nat
  claim : Option Claim
  roPos : Option Nat
  roseen : W64
  rrh : W64
  rrn : Nat
  bkSkip : Bool
  resErr : Bool
  arrived : Nat
  yends : Sparse Nat
  deriving DecidableEq, Repr

/-- A block barrier (R135). -/
structure Bar where
  count : Nat
  phase : BitVec 16
  seqarr : BitVec 2
  grparr : BitVec 16
  deriving DecidableEq, Repr

/-- A matrix or copy stream sequencer (R166 to R168, R194, R264). `fetched` is the clause that it has fetched: the header and its words
(R16). -/
structure Stream where
  running : Bool
  owner : Nat
  pc : Nat
  hdr : Nat
  entered : Bool
  part : BitVec 16
  again : Bool
  og : Nat
  wait : Option Wait
  claim : Option Claim
  waited : Nat
  fetched : List W32
  deriving DecidableEq, Repr

/-- A row buffer (R162, R174): planes as plane words, row by row, K-block by K-block, plane by plane. -/
structure RowBuf where
  valid : Bool
  kp : Nat
  ty : Nat
  planes : Sparse W32
  deriving DecidableEq, Repr

/-- A mitten group (R162, R172): element (kk, n) at key 32 kk + n. -/
structure Mitten where
  bound : Bool
  hf : Nat
  tr : Bool
  el : Sparse Byte
  deriving DecidableEq, Repr

/-- How a block stands (R199 to R205, R215). -/
inductive BMode where
  | run
  /-- The handler runs on group `g` for a fault of code `code`. -/
  | handler (g : Nat) (code : Nat)
  deriving DecidableEq, Repr

/-- The record-and-replay descriptor as it stood at a task's release (R218, R279): `addr` and `cntAt` are the homes of its mode byte and
its chunk count, `rel` the number of that release: each task has positions of its own (R279). -/
structure RrDesc where
  addr : Nat
  cntAt : Nat
  mode : Nat
  shift : Nat
  gate : Nat
  lo : Nat
  hi : Nat
  logBase : Nat
  chunks : Nat
  cap : Nat
  hashBase : Nat
  entries : Nat
  parties : List (Nat × Nat)
  rel : Nat
  deriving DecidableEq, Repr

/-- The fields of a task record that a placed block uses (R234), with the virtual address by which it was released. -/
structure TaskRec where
  addr : Nat
  code : Nat
  mentry : Nat
  centry : Nat
  save : Nat
  spill : Nat
  grid : Nat
  sstride : Nat
  spb : Nat
  groups : Nat
  lanes : Nat
  gwin : Nat
  bwin : Nat
  frame : Nat
  rb : Nat
  mg : Nat
  rex : Bool
  pri : Nat
  part : Nat
  slots : Nat
  vv : Nat
  vw : Nat
  vt : Nat
  va : Nat
  opnd : List Nat
  deriving DecidableEq, Repr

/-- How far the save of a block has come (R215): none, stopped and drained, or its publication sent, of which so many frames of pod scope
and of system scope are to be applied (R150, R362). -/
inductive SaveSt where
  | no
  | stopped
  | sent (pod sys : Nat)
  deriving DecidableEq, Repr

/-- A block resident on a core (R115, R142, R162, R191, R207). `barNow` holds, for each barrier, a cycle and the mask of those that have
arrived or departed in it (R206). `mz` notes the stream's waiting time when a tile was cleared. `absent`
lists the lines whose presence bit is clear, `scrBad` the 8-byte words of the scratchpad with an uncorrectable error; `frameAt` is
where the trap frame of the fault being handled was written. -/
structure Block where
  id : Nat
  core : Nat
  task : Nat
  index : Nat
  resNo : Nat
  seq : Nat
  order : Nat
  trec : TaskRec
  groups : List Group
  bwin : Sparse RWord
  scr : Sparse Byte
  scrBad : List Nat
  absent : List Nat
  bars : Sparse Bar
  barNow : Sparse (Nat × Nat)
  ms : Stream
  cs : Stream
  forked : Bool
  ix : Sparse (BitVec 32)
  area : Nat
  afmt : Nat
  ogrp : Nat
  mz : Sparse Nat
  rbs : Sparse RowBuf
  mgs : Sparse Mitten
  tvec : W64
  tframe : W64
  mbox : W64
  tcause : W64
  tinfo : W64
  dumpbase : W64
  bk0 : W64
  bk1 : W64
  bk2 : W64
  bk3 : W64
  prstimeout : W64
  joinwin : W64
  stampbase : W64
  stampseq : W64
  stampdrop : W64
  mtest : W64
  mode : BMode
  pend : List PFault
  stopReq : Bool
  repost : List (List Byte)
  cl : Option (Nat × Nat)
  heads : List Nat
  rr : Option RrDesc
  stash : Option Group
  frameAt : Nat
  saving : SaveSt
  deriving DecidableEq, Repr

/-- A saved block (R213, R215): its image stands in the slot of its task's save ring; the rest is what the image does not
hold (log entry 24). -/
structure Saved where
  blk : Block
  slot : Nat
  size : Nat
  die : Option Nat
  deriving DecidableEq, Repr

/-- How a phase-cache sector stands (R148, R158). `wonly` holds written bytes alone. -/
inductive SecSt where
  | fixed
  | pref
  | wonly
  deriving DecidableEq, Repr

/-- A sector of a phase cache: its number (address / 32), bytes, which bytes are unpublished, status, age. `sent` marks the bytes of a
mirror sector whose publication, number `pub`, has not been applied here yet (R362), `bad` the bytes that came with an uncorrectable
error (R141, R287). -/
structure Sector where
  num : Nat
  data : List Byte
  dirty : List Bool
  sent : List Bool
  pub : Nat
  bad : List Bool
  st : SecSt
  age : Nat
  deriving DecidableEq, Repr

/-- A cached translation of a core (R140, R245). -/
structure TlbEnt where
  part : Nat
  map : MapEnt
  deriving DecidableEq, Repr

/-- An access that has issued and not reached its completion point (R124, R154). `held` says that it waits for presence: 1 at the
group's wide side, 2 at its scalar side. `spots` names the blocks whose scratchpads it touches, `puts` the bytes that it has still to
write there: block, offset, bytes (R231); `member` says that it is a `vldx` or `vstx` (R157, R226). -/
structure Outst where
  id : Nat
  blk : Nat
  grp : Nat
  sb : Nat
  pc : Nat
  lanes : Nat
  poison : Option Nat
  writes : List (Nat × RWord)
  held : Nat
  spots : List Nat
  puts : List (Nat × Nat × List Byte)
  member : Bool
  deriving DecidableEq, Repr

/-- A sector as it stood at its home when a core fetched it ahead of the group's word that reads it (R397). -/
structure EarlySec where
  blk : Nat
  grp : Nat
  num : Nat
  data : List Byte
  bad : List Bool
  deriving DecidableEq, Repr

/-- A quadrant's issue state (R121, R122). -/
structure Quad where
  cur : Option (Nat × Nat)
  holder : Option (Nat × Nat)
  holdMiss : Nat
  holdRun : Nat
  promoNext : Nat
  deriving DecidableEq, Repr

/-- A page that a group of a core waits for: its partition, its first 64 KiB page, the core, the block and group (R245). -/
structure WalkReq where
  part : Nat
  page : Nat
  core : Nat
  blk : Nat
  grp : Nat
  deriving DecidableEq, Repr

/-- A core. `fails` holds the walks that have failed and whose waiters have still to raise `translation` (R245), `early` the sectors
fetched ahead of the words that read them (R397). `fixCnt` and `redoCnt` count what `cr.mfix` and `cr.mredo` have been raised by, whatever a
program has written there (R305). -/
structure Core where
  cache : List Sector
  evicted : List Nat
  ageNext : Nat
  tlb : List TlbEnt
  fails : List WalkReq
  outs : List Outst
  outNext : Nat
  retired : Nat
  phasefull : W64
  phaseforce : W64
  mfix : W64
  mredo : W64
  tracebase : W64
  tracectl : W64
  traceseq : W64
  tracedrop : W64
  traceTurn : Nat
  traceLast : Nat
  quads : Sparse Quad
  qTurn : Nat
  seqNext : Nat
  residues : Nat
  early : List EarlySec
  fixCnt : Nat
  redoCnt : Nat
  deriving DecidableEq, Repr

/-- The state of a cluster slot with its holder's block id (R223). -/
inductive SlotSt where
  | empty
  | occupied (blk : Nat)
  | away (blk : Nat)
  | vacated
  deriving DecidableEq, Repr

/-- A cluster of a die (R222). -/
structure Cluster where
  cid : Nat
  part : Nat
  task : Nat
  key : BitVec 32
  slots : Sparse SlotSt
  deriving DecidableEq, Repr

/-- An atomic that waits at the gauntlet (R220). -/
structure GWait where
  blk : Nat
  grp : Nat
  party : Nat
  start : Nat
  deriving DecidableEq, Repr

/-- Record-and-replay position at the homes of a partition (R219, R220, R279). -/
structure RrPos where
  chunk : Nat
  run : Nat
  party : Nat
  full : Bool
  hashPos : Sparse Nat
  deriving DecidableEq, Repr

/-- A die: its control block (R266), cluster table, gauntlet, waiting walks. -/
structure Die where
  retLo : W32
  retHi : W32
  stopblk : W32
  stoptLo : W32
  stoptHi : W32
  walks : W32
  merged : W32
  steal : W32
  ovf : W32
  ovfbase : W32
  clusters : List Cluster
  gaunt : List GWait
  walkq : List WalkReq
  throttle : Nat
  dead : Bool
  deriving DecidableEq, Repr

/-- A run of positions of one rank's share of a grid (R239, R240). -/
structure ShareRun where
  rank : Nat
  lo : Nat
  hi : Nat
  deriving DecidableEq, Repr

/-- A task in the pool or running (R237 to R241). -/
structure Grid where
  task : Nat
  trec : TaskRec
  total : Nat
  dies : List Nat
  shares : Sparse (List ShareRun)
  placed : Sparse Nat
  retry : List (Nat × Nat)
  failed : Bool
  rr : Option RrDesc
  deriving DecidableEq, Repr

/-- A packet that an engine has begun (R253 to R257). `off` counts the bytes of the current chunk that have been written (R143), `ahead` holds
those in a scratchpad, which the landing writes once more (R145). -/
structure Inflight where
  idx : Nat
  pkt : List Byte
  next : Nat
  total : Nat
  landed : Nat
  status : Nat
  failing : Nat
  overrun : Nat
  written : Nat
  t0 : Nat
  done : Bool
  remote : Bool
  off : Nat
  ahead : List Byte
  deriving DecidableEq, Repr

/-- A copy queue bound to an engine (R252). `kept` holds packets of stopped posts (R260); `abandoned` their and `cabort`'s
indices. -/
structure CQueue where
  num : Nat
  off : Nat
  eng : Nat
  part : Nat
  infl : Option Inflight
  kept : List Claim
  abandoned : List Nat
  deriving DecidableEq, Repr

/-- A generation fence in waiting (R381): the position of its call, the new generation, the derived rank tables, whether it is
the fence of an `admit`. -/
structure Fence where
  pos : Nat
  gen : Nat
  ranks : List (Nat × List Nat)
  forAdmit : Bool
  deriving DecidableEq, Repr

/-- A partition (R292, R342, R353, R367, R371). `rr` holds the record-and-replay positions of each release under a descriptor, `releases` counts those (R279).
`unsent` holds call entries with the group that waits for each, `sentCalls` the waiting groups of entries sent and not yet applied, `ecalls` the
package's own calls that wait for room among the unsent (R371). A donor keeps the length of the object image in its shadow pool and the pages
that the join engine has read (R383); a spare the reads that it has sent, stripe by stripe, of the image and of a log entry, and the base and
group of a clone that was cancelled (R384, R385). `fenced` is the first position whose fence has not been queued. -/
structure Part where
  on : Bool
  cfg : PartCfg
  rrdesc : W64
  rr : Sparse RrPos
  releases : Nat
  gen : BitVec 16
  stalegen : W64
  ranks : List (Nat × List Nat)
  seqs : Sparse Nat
  placed : Nat
  applied : Nat
  trim : Nat
  trimMax : Nat
  unsent : List (List Byte × Option (Nat × Nat))
  sentCalls : List (Option (Nat × Nat))
  objs : Sparse (List Byte)
  images : Sparse (List Byte)
  digests : Sparse (List Byte)
  fences : List Fence
  fenceSent : Option Nat
  reps : Sparse Nat
  digs : Sparse (Nat × Nat)
  cuff : Option Nat
  marked : List Nat
  shadow : List (Nat × Nat)
  imgLen : Nat
  seen : List Nat
  join : List Nat
  joinObjs : Bool
  joinAdmit : Bool
  asked : Sparse Nat
  objAsked : Bool
  entryAsked : Option Nat
  reclone : Option (Nat × Nat)
  fenced : Nat
  ecalls : List (List Byte)
  deriving DecidableEq, Repr

/-- A virtual function's registers (R293). -/
structure Vf where
  part : Option Nat
  rel : W32
  refuse : W32
  last : W32
  deriving DecidableEq, Repr

/-- A management core (R297, R298). `rom` says that it stands in the mask ROM's `wfi`, which a poke by core 0 ends (R300). -/
structure Mc where
  sregs : Sparse RWord
  sp : BitVec 8
  pc : BitVec 48
  hdr : Nat
  entered : Bool
  guardOff : Bool
  fetched : List W32
  heads : List Nat
  sram : Sparse Byte
  ipend : W32
  ien : W32
  vec : W32
  fcode : W32
  fpcLo : W32
  fpcHi : W32
  waiting : Bool
  stopped : Bool
  rom : Bool
  deriving DecidableEq, Repr

/-- The X-die status block, fuses, boot and flash (R300 to R305, R316), with the running counts of R305. `retRec` lists the cores with a
retirement record, `tempAt` the hour up to which the temperature hours are counted. Of an SPDM dialogue `spdmA` holds the messages up to the
algorithms, `spdmB` those of digests and certificates, `spdmL` those of measurements not yet signed (R303). -/
structure Xdie where
  boot : W32
  throttleCnt : W32
  temp : W32
  power : W32
  rail : W32
  lifeFull : Bool
  lifepage : W32
  fusemin : W32
  measel : W32
  meas : Sparse (List Byte)
  keyHash : List Byte
  secret : List Byte
  targets : List W64
  vfState : W32
  flash : List (List Byte)
  retRec : List Nat
  hours : Nat
  corrected : Sparse Nat
  redo : Sparse Nat
  resid : Sparse Nat
  railLo : Sparse Nat
  railHi : Sparse Nat
  tempHist : Sparse Nat
  tempAt : Nat
  heat0 : Sparse Nat
  spdmVer : Bool
  spdmCaps : Bool
  spdmAlg : Bool
  spdmA : List Nat
  spdmB : List Nat
  spdmL : List Nat
  spdmOut : List Nat
  mgmtFrames : List (List Nat)
  deriving DecidableEq, Repr

/-- A classifier entry of an HBM stack (R288, R289): the errors seen, the last hour of one, the request raised. -/
structure ClsEnt where
  ch : Nat
  bank : Nat
  errs : List (Nat × Nat)
  cnt : Nat
  row : Nat
  col : Nat
  cls : Nat
  req : Bool
  hour : Nat
  order : Nat
  deriving DecidableEq, Repr

/-- An HBM stack's controller (R288 to R291). -/
structure Stack where
  ents : Sparse ClsEnt
  sel : W32
  busy : Option Nat
  corr : W32
  unc : W32
  removed : List Nat
  orderNext : Nat
  deriving DecidableEq, Repr

/-- An optical port (R309 to R313) with its link keys (R333, R334). `fecBad` says that a burst has failed FEC in this slot, `fecRun` counts
the slots before in which one did (R331). -/
structure Port where
  ctl : W32
  stat : W32
  heat : Sparse W32
  mpd : Sparse W32
  lockctl : W32
  eye : Sparse W32
  trainctl : W32
  lanemap : W32
  laser : W32
  litAt : Option Nat
  sweepAt : Option Nat
  trainAt : Option Nat
  mapNext : Option W32
  remapAt : Option Nat
  key0 : List W32
  key1 : List W32
  keyPos : Nat
  ctr : Nat
  fecBad : Bool
  fecRun : Nat
  deriving DecidableEq, Repr

/-- What a package does with a burst in its queues (R329, R330): its own traffic; relay traffic that it sends to its destination alone;
traffic of another pod that it relays across the spine; traffic that has crossed the spine and goes on in this pod. -/
inductive Leg where
  | own
  | relayed
  | spine
  | landed
  deriving DecidableEq, Repr

/-- A burst (R325 to R330): source and destination package, virtual channel, sequence number, what this package does with it, its flits. -/
structure Burst where
  src : Nat
  dst : Nat
  vc : Nat
  seq : Nat
  leg : Leg
  flits : List (List Nat)
  deriving DecidableEq, Repr

/-- A burst that is not acknowledged yet (R325): the package at the other end of its circuit, and whether it is known to be lost. -/
structure Sent where
  peer : Nat
  lost : Bool
  burst : Burst
  deriving DecidableEq, Repr

/-- A collective posted on a channel (R341, R343, R350) and its progress once begun (R344 to R349). `norm` holds the shard sums that have
reached the owner of the trailing scalar all-reduce, in their order, `normOut` its result (R346). -/
structure Coll where
  pkt : List Byte
  begun : Bool
  gen : Nat
  seq : Nat
  live : List Nat
  rank : Nat
  restarts : Nat
  rejects : Nat
  t0 : Nat
  acc : Sparse W32
  have_ : Sparse (List Nat)
  held : Sparse (List (Nat × W32))
  got : Sparse (Option W32)
  norm : List (Nat × W32)
  normOut : Option W32
  status : Option Nat
  sentShard : Bool
  sent : Nat
  deriving DecidableEq, Repr

/-- A collective channel (R341): the number of tiles in its staging area, and the place there of the oldest. -/
structure Chan where
  part : W32
  posts : List Coll
  tiles : Nat
  first : Nat
  deriving DecidableEq, Repr

/-- A collective flit refused as newer, to be sent again (R347). -/
structure Resend where
  id : Nat
  part : Nat
  gen : Nat
  at_ : Nat
  burst : Burst
  deriving DecidableEq, Repr

/-- A collective flit held until its package posts (R391): partition, source, kind, gen, group, sequence number, fields of its
collective, first element, values. -/
structure CFlit where
  part : Nat
  src : Nat
  kind : Nat
  gen : Nat
  gid : Nat
  seq : Nat
  op : Nat
  dt : Nat
  red : Nat
  total : Nat
  base : Nat
  vals : List Nat
  deriving DecidableEq, Repr

/-- The fabric engine (R324 to R334, R354). `cred` holds the flits that a partner has granted: key 16 × partner + channel, with 8 for relay
(R327). `remotes` names the queues with a remote request under way, whose answers have their space reserved, and since when. -/
structure Fabric where
  id : W32
  slot : Nat
  locked : Bool
  sched : W32
  tblsel : W32
  tbl : Sparse Nat
  vcw : Sparse W32
  keysel : W32
  keyuse : W32
  keyreq : BitVec 34
  half : W32
  retry : W32
  rfail : W32
  stagebase : W32
  chans : Sparse Chan
  out : List Burst
  unacked : List Sent
  cred : Sparse Nat
  early : List Burst
  arrived : List Burst
  seqOut : Sparse Nat
  seqIn : Sparse Nat
  resends : List Resend
  flits : List CFlit
  remotes : List (Nat × Nat)
  deriving DecidableEq, Repr

/-- A line leased by the ingress atomic cache (R340). -/
structure Lease where
  line : Nat
  data : List Byte
  until_ : Nat
  deriving DecidableEq, Repr

/-- A Nirrax group as a member follows it: the leaf of the pod, or the spine of the system (R355 to R360). `seq` is the last
applied frame, `frames` those kept for repeats, `wait` closed possessions' frames behind a gap, `gap` the first missing frame
with the rotation at which it was missed, `repeats` the frames to be sent again, `sent` the last possession sent. -/
structure NxRing where
  members : List Nat
  rot : Nat
  seq : Nat
  cap : Bool
  holder : Nat
  lastSeen : Nat
  frames : List (List Byte)
  wait : List (List Byte)
  gap : Option (Nat × Nat)
  repeats : List Nat
  sent : List (List Byte)
  deriving DecidableEq, Repr

/-- The Nirrax engine of the package (R355 to R365, R388). `sus` are suspicions to be sent, `named` those sent with their
rotation, `votes` those in effect, `leaving` the slots that the next heartbeat takes out of the ring, `expels` the calls of
R365 made by this package and not yet applied. -/
structure Nirrax where
  ctl : W32
  leaf : NxRing
  spine : NxRing
  outq : List (List Byte)
  selfRep : Bool
  regen : W32
  susp : W32
  repair : W32
  sus : List (Nat × Nat × Nat)
  named : List (Nat × Nat × Nat)
  votes : List (Nat × Nat × Nat)
  leaving : List Nat
  confirmed : List (Nat × Nat)
  relayOut : List (List Byte)
  spineIn : List (List Byte)
  pubs : Sparse (List (List Byte))
  expels : List (Nat × Nat)
  fly : Sparse Nat
  ended : List Nat
  podQ : Nat
  podA : Nat
  sysQ : Nat
  sysA : Nat
  desc : Sparse W32
  deriving DecidableEq, Repr

/-- Which agent issues the word being executed. -/
inductive Agent where
  | none
  | group (b g : Nat)
  | scalar (b g : Nat)
  | matrix (b : Nat)
  | copy (b : Nat)
  | mgmt (m : Nat)
  deriving DecidableEq, Repr

/-- The word being executed: its agent, the PC-set, the active lanes, the word's address, its clause. -/
structure Cur where
  ag : Agent
  set : List Nat
  act : List Nat
  pc : Nat
  hdr : Nat
  n : Nat
  y : Bool
  deriving DecidableEq, Repr

/-- What the host, and the firmware of the management cores, do beside the events and words of the part (R293, R295, R296, R302). -/
inductive HostAct where
  /-- It reads bytes of BAR 0 of a virtual function. -/
  | read (vf off n : Nat)
  /-- It changes its own memory, at a key of `hostMem`. -/
  | put (key : Nat) (bs : List Byte)
  /-- It completes the requests for a range of its memory with an error from now on. -/
  | refuse (lo hi : Nat)
  /-- It serves every request again. -/
  | serve
  /-- A host request or a message of the debugger arrives at the management cores. -/
  | ask
  /-- Firmware extends one of the measurements 4 to 7 by data of its own (R302; log entry 86). -/
  | measure (n : Nat) (data : List Byte)
  deriving DecidableEq, Repr

/-- One entry of the agenda: what moves next. -/
inductive Move where
  /-- An event of the part. -/
  | event (i : Instr)
  /-- One step of an agent. -/
  | agent (a : Agent)
  /-- One step of a core's quadrant: its picked group issues. -/
  | core (c q : Nat)
  /-- A group's core fetches a sector ahead of the word that reads it (R397, R408): the order of fetches in a phase is free. -/
  | early (blk grp sec : Nat)
  /-- The engine of a queue writes the next sector of its packet's current chunk (R143, R145). -/
  | sector (q : Nat)
  /-- An act of the host. -/
  | host (h : HostAct)
  deriving DecidableEq, Repr

/-- An agenda entry with the core-clock cycles that pass before it. -/
structure Turn where
  dt : Nat
  what : Move
  deriving DecidableEq, Repr

/-- The package. `poison` lists the HBM sectors and `vbad` the 8-byte vault words with an uncorrectable error (R141, R287). `hostBad` lists
the ranges of host memory whose requests the host completes with an error (R296), `hostSaw` what the host's reads have returned, the
last first (R293, R295). `rank` is
the cycle of the last ranked move and its rank: moves of one cycle come in rising rank (R199, R224, R248). -/
structure State where
  mem : Sparse Byte
  poison : List Nat
  vbad : List Nat
  hostMem : Sparse Byte
  hostBad : List (Nat × Nat)
  hostSaw : List (List Byte)
  blocks : List Block
  saved : List Saved
  grids : List Grid
  blkNext : Nat
  orderNext : Nat
  cores : Sparse Core
  dies : Sparse Die
  parts : Sparse Part
  vfs : Sparse Vf
  mcs : Sparse Mc
  queues : List CQueue
  hbms : Sparse Stack
  ports : Sparse Port
  xd : Xdie
  fab : Fabric
  leases : List Lease
  nx : Nirrax
  cycle : Nat
  agenda : List Turn
  focus : Nat × Nat
  rank : Nat × Nat
  cur : Cur
  freeCtr : Nat
  stalled : Bool
  parked : List Move
  deriving DecidableEq, Repr

/-- A quadrant that holds no group. -/
def Quad.none : Quad := ⟨.none, .none, 0, 0, 0⟩

/-- No control register in force. -/
def InForce.none : InForce := ⟨0, 0, 0, 0, 0, 0, 0, 0, 0, 0, 0, 0⟩

/-- A group with nothing in it, in a quadrant slot (R60, R115, R124, R125). -/
def Group.new (num quad slot : Nat) : Group :=
  { num := num, quad := quad, slot := slot, lanes := [], kArr := [], kEnr := [], msM := 0, msA := 0, win := [], by1 := [],
    by2 := [], by3 := [], vv := 0, vw := 0, vt := 0, va := 0, frame := 0, spillbase := 0, spilllim := 0, inf := .none,
    fetched := [], sb := [], sregs := [], sp := 1, fq := [], rq := [], sc := .none, sAhead := [], sFault := .none, nlanes := 0,
    ended := false, wait := .none, swait := .none, forced := .none, skip := 0, promo := .none, claim := .none, roPos := .none, roseen := 0,
    rrh := 0, rrn := 0, bkSkip := false, resErr := false, arrived := 0, yends := [] }

/-- A core after reset. -/
def Core.reset : Core :=
  ⟨[], [], 0, [], [], [], 0, 0, 0, 0, 0, 0, 0, 0, 0, 0, 0, 0, [], 0, 0, 0, [], 0, 0⟩

/-- A die after reset (R266). -/
def Die.reset : Die := ⟨0, 0, 0, 0, 0, 0, 0, 0, 0, 0, [], [], [], 0, false⟩

/-- A configuration that holds nothing. -/
def noCfg : PartCfg := ⟨[], [], [], 0, 0, 0, 0, 0, [], [], []⟩

/-- Record-and-replay positions at a release, and of a descriptor not yet used. -/
def RrPos.start : RrPos := ⟨0, 0, 0, false, []⟩

/-- A partition that is not configured. -/
def Part.none : Part :=
  ⟨false, noCfg, 0, [], 0, 0, 0, [], [], 0, 0, 0, 0, [], [], [], [], [], [], .none, [], [], .none, [], [], 0, [], [], false, false, [], false,
   .none, .none, 0, []⟩

/-- A virtual function after reset (R293). -/
def Vf.reset : Vf := ⟨.none, 0, 0, 0xFFFFFFFF⟩

/-- A management core after reset: it waits in `wfi` until core 0 pokes it (R300). Its pc stands at the mask ROM, whose
address the spec does not give (log entry 4). -/
def Mc.reset : Mc := ⟨[], 1, 0, 0, false, false, [], [], [], 0, 0, 0, 0, 0, 0, true, false, true⟩

/-- A stack's controller after reset (R291). -/
def Stack.reset : Stack := ⟨[], 0, .none, 0, 0, [], 0⟩

/-- An optical port after reset (R309). -/
def Port.reset : Port :=
  ⟨0, 0, [], [], 0, [], 0, 0x76543210, 0x000F0000, .none, .none, .none, .none, .none, [], [], 0, 0, false, 0⟩

/-- The heater register's reset value (R309). -/
def heatReset : W32 := 0x800

/-- The weight register's reset value (R354). -/
def vcwReset : W32 := 0x10

/-- A channel after reset: assigned to no partition (R354). -/
def Chan.reset : Chan := ⟨0xFF, [], 0, 0⟩

/-- The fabric engine after reset (R354). -/
def Fabric.reset : Fabric :=
  ⟨0, 0, false, 0, 0, [], [], 0, 0, 0, 0, 0, 0, 0, [], [], [], [], [], [], [], [], [], [], []⟩

/-- A Nirrax group before commissioning. -/
def NxRing.reset : NxRing := ⟨[], 0, 0, false, 0, 0, [], [], .none, [], []⟩

/-- The Nirrax engine after reset (R388). -/
def Nirrax.reset : Nirrax := ⟨0, .reset, .reset, [], false, 0, 0, 0, [], [], [], [], [], [], [], [], [], [], [], 0, 0, 0, 0, []⟩

/-- Thirty-two zero bytes: a measurement register at reset (R302). -/
def zeros32 : List Byte := List.replicate 32 0

/-- The X-die's status block after reset, with fuses that hold 0 (R316; log entry 4). -/
def Xdie.reset : Xdie :=
  ⟨0, 0, 0, 0, 0x90909090, false, 0, 0, 0, [], zeros32, zeros32, [], 0, [], [], 0, [], [], [], [], [], [], 0, [], false, false,
    false, [], [], [], [], []⟩

/-- No word is being executed. -/
def Cur.none : Cur := ⟨.none, [], [], 0, 0, 0, false⟩

/-- The package right after package reset: every register at the value its table gives, management core 0 running and cores
1 to 3 waiting (R300, R308). -/
def State.reset : State :=
  { mem := [], poison := [], vbad := [], hostMem := [], hostBad := [], hostSaw := [], blocks := [], saved := [], grids := [], blkNext := 0, orderNext := 0,
    cores := [], dies := [], parts := [], vfs := [], mcs := [(0, { Mc.reset with waiting := false, rom := false })], queues := [],
    hbms := [], ports := [], xd := .reset, fab := .reset, leases := [], nx := .reset, cycle := 0, agenda := [],
    focus := (0, 0), rank := (0, 0), cur := .none, freeCtr := 0, stalled := false, parked := [] }

end Sys2Proof.Machine
end

