-- ==== Sys2Proof/Machine/Access.lean ====
section
/-! DEFINITION. Reading and replacing the parts of the state: cores, dies, partitions, ports, blocks, groups, lanes, scalar
registers. Every other file goes through these. -/
namespace Sys2Proof.Machine

def State.core (s : State) (c : Nat) : Core := tget Core.reset s.cores c
def State.setCore (s : State) (c : Nat) (k : Core) : State := { s with cores := tset Core.reset s.cores c k }
def State.die (s : State) (d : Nat) : Die := tget Die.reset s.dies d
def State.setDie (s : State) (d : Nat) (k : Die) : State := { s with dies := tset Die.reset s.dies d k }
def State.part (s : State) (p : Nat) : Part := tget Part.none s.parts p
def State.setPart (s : State) (p : Nat) (k : Part) : State := { s with parts := tset Part.none s.parts p k }
def State.vf (s : State) (v : Nat) : Vf := tget Vf.reset s.vfs v
def State.setVf (s : State) (v : Nat) (k : Vf) : State := { s with vfs := tset Vf.reset s.vfs v k }
def State.mc (s : State) (m : Nat) : Mc := tget Mc.reset s.mcs m
def State.setMc (s : State) (m : Nat) (k : Mc) : State := { s with mcs := tset Mc.reset s.mcs m k }
def State.hbm (s : State) (n : Nat) : Stack := tget Stack.reset s.hbms n
def State.setHbm (s : State) (n : Nat) (k : Stack) : State := { s with hbms := tset Stack.reset s.hbms n k }
def State.port (s : State) (p : Nat) : Port := tget Port.reset s.ports p
def State.setPort (s : State) (p : Nat) (k : Port) : State := { s with ports := tset Port.reset s.ports p k }
def State.chan (s : State) (c : Nat) : Chan := tget Chan.reset s.fab.chans c
def State.setChan (s : State) (c : Nat) (k : Chan) : State :=
  { s with fab := { s.fab with chans := tset Chan.reset s.fab.chans c k } }

/-- A resident block by its number. -/
def State.blk (s : State) (b : Nat) : Option Block := firstOf (fun x => decide (x.id = b)) s.blocks

/-- Replace a resident block. -/
def State.updBlk (s : State) (b : Nat) (f : Block → Block) : State :=
  { s with blocks := mapIf (fun x => decide (x.id = b)) f s.blocks }

/-- A group of a block by its number. -/
def Block.grp (b : Block) (g : Nat) : Option Group := firstOf (fun x => decide (x.num = g)) b.groups

/-- Replace a group of a block. -/
def Block.updGrp (b : Block) (g : Nat) (f : Group → Group) : Block :=
  { b with groups := mapIf (fun x => decide (x.num = g)) f b.groups }

/-- Replace a group of a resident block. -/
def State.updGrp (s : State) (b g : Nat) (f : Group → Group) : State := s.updBlk b (fun k => k.updGrp g f)

/-- A block and a group of it. -/
def State.bg (s : State) (b g : Nat) : Option (Block × Group) :=
  match s.blk b with
  | none => none
  | some k => match k.grp g with
    | none => none
    | some x => some (k, x)

/-- A lane's record. -/
def Group.lane (g : Group) (l : Nat) : Lane := tget Lane.none g.lanes l

/-- Replace a lane's record. -/
def Group.setLane (g : Group) (l : Nat) (x : Lane) : Group := { g with lanes := tset Lane.none g.lanes l x }

/-- Replace the records of the listed lanes. -/
def Group.mapLanes (g : Group) : List Nat → (Nat → Lane → Lane) → Group
  | [], _ => g
  | l :: rest, f => (g.setLane l (f l (g.lane l))).mapLanes rest f

/-- A lane holds a fibre (R59). -/
def Lane.held (x : Lane) : Bool := decide (x.st ≠ .free)

/-- A lane is live and unparked (R59). -/
def Lane.isLive (x : Lane) : Bool := decide (x.st = .live)

/-- The lanes that hold a fibre. -/
def Group.heldLanes (g : Group) : List Nat := lanes32.filter (fun l => (g.lane l).held)

/-- The live unparked lanes. -/
def Group.liveLanes (g : Group) : List Nat := lanes32.filter (fun l => (g.lane l).isLive)

/-- A block runs in privileged mode for a group: the group runs the handler (R201). -/
def Block.priv (b : Block) (g : Nat) : Bool :=
  match b.mode with
  | .handler h _ => decide (h = g)
  | .run => false

/-- A predicate bit of a lane; `p0` reads 1 (R57). -/
def Lane.p (x : Lane) (n : Nat) : Bool := decide (n = 0) || x.pred.getLsbD n

/-- Write a predicate bit; a write to `p0` leaves it 1 (R26, R57). -/
def Lane.setP (x : Lane) (n : Nat) (v : Bool) : Lane :=
  if n = 0 then x
  else { x with pred := if v then x.pred ||| BitVec.ofNat 16 (2 ^ n) else x.pred &&& ~~~ (BitVec.ofNat 16 (2 ^ n)) }

/-- A scalar register file: half `h` of register `n` stands at 2n + h. -/
abbrev SRegs := Sparse RWord

/-- The 64-bit value of a scalar register (R125). -/
def sval (r : SRegs) (n : Nat) : Nat :=
  (tget RWord.zero r (2 * n)).val.toNat + 2 ^ 32 * (tget RWord.zero r (2 * n + 1)).val.toNat

/-- Both halves of a scalar register match their residues. -/
def sok (r : SRegs) (n : Nat) : Bool :=
  rok (tget RWord.zero r (2 * n)) && rok (tget RWord.zero r (2 * n + 1))

/-- Write a scalar register's halves. -/
def swr (r : SRegs) (n : Nat) (lo hi : RWord) : SRegs := tsets RWord.zero r (2 * n) [lo, hi]

/-- Write a 64-bit value with fresh residues where `good`, else marked (R84, R119). -/
def swrv (good : Bool) (r : SRegs) (n v : Nat) : SRegs :=
  swr r n (computed good (v % 2 ^ 32)) (computed good (v / 2 ^ 32))

/-- A scalar predicate; `sp0` reads 1 (R125). -/
def spBit (sp : BitVec 8) (n : Nat) : Bool := decide (n = 0) || sp.getLsbD n

/-- Write a scalar predicate; a write to `sp0` has no effect. -/
def spSet (sp : BitVec 8) (n : Nat) (v : Bool) : BitVec 8 :=
  if n = 0 then sp else if v then sp ||| BitVec.ofNat 8 (2 ^ n) else sp &&& ~~~ (BitVec.ofNat 8 (2 ^ n))

/-- The die of a core. -/
def dieOf (c : Nat) : Nat := c / 64

/-- The partition that holds the slice of a core, the lowest-numbered on a tie (R6, R7). -/
def State.partOfSlice (s : State) (sl : Nat) : Option Nat :=
  match firstOf (fun (p : Nat × Part) => p.2.on && decide (sl ∈ p.2.cfg.slices)) s.parts with
  | some p => some p.1
  | none => none

/-- The next value of a 64-bit saturating counter (R152, R191). -/
def satInc (x : W64) : W64 := if x.toNat = 2 ^ 64 - 1 then x else x + 1

/-- The next value of a 32-bit saturating counter. -/
def satInc32 (x : W32) : W32 := if x.toNat = 2 ^ 32 - 1 then x else x + 1

/-- Raise interrupt bits in every management core (R298). -/
def State.interrupt (s : State) (bit : Nat) : State :=
  let put := fun (t : State) (m : Nat) => t.setMc m { t.mc m with ipend := (t.mc m).ipend ||| BitVec.ofNat 32 (2 ^ bit) }
  put (put (put (put s 0) 1) 2) 3

end Sys2Proof.Machine
end

