-- ==== Sys2Proof/Machine/Memory.lean ====
section
/-! DEFINITION. Device memory at its homes, the address map, translation, and the phase cache (R139 to R151, R245, R287). -/
namespace Sys2Proof.Machine

/-- The canonical form of device memory: addresses rising, no entry equal to what an unlisted address reads as (0, log
entry 3). -/
abbrev Memory.wf (m : Sparse Byte) : Bool := canonical (0 : Byte) m

/-- Bases of the address map (R139). -/
def syncBase : Nat := 0xE000000000
def syncEnd : Nat := 0xE000800000
def scrBase : Nat := 0xF000000000
def scrEnd : Nat := 0xF000100000
def vaultBase : Nat := 0x10000000000
def vaultEnd : Nat := 0x10400000000
def hbmBase : Nat := 0x20000000000
def hbmEnd : Nat := 0x26000000000
def hostBase : Nat := 0x40000000000

/-- A physical HBM address lies in a unit that a bank remap took (R290, R295). -/
def State.unitGone (s : State) (pa : Nat) : Bool :=
  let u := (pa - hbmBase) / 2 ^ 30
  decide (u ∈ (s.hbm (u / 48)).removed)

/-- Where an address goes (R139). -/
inductive Region where
  | high
  | sync
  | scr
  | mem
  | host
  | gap
  deriving DecidableEq, Repr

/-- The region of a virtual address (R139). -/
def regionOf (a : Nat) : Region :=
  if 2 ^ 56 ≤ a then .high
  else if a < syncBase then .mem
  else if a < syncEnd then .sync
  else if a < scrBase then .gap
  else if a < scrEnd then .scr
  else if a < vaultBase then .gap
  else if a < vaultEnd then .mem
  else if a < hbmBase then .gap
  else if a < hbmEnd then .mem
  else if a < hostBase then .gap
  else .host

/-- A physical address stands in a vault. -/
def inVault (a : Nat) : Bool := decide (vaultBase ≤ a) && decide (a < vaultEnd)

/-- A physical address stands in HBM. -/
def inHbm (a : Nat) : Bool := decide (hbmBase ≤ a) && decide (a < hbmEnd)

/-- The die whose synchronisation engine is the home of a physical address (R246, R286). -/
def homeDie (a : Nat) : Nat :=
  if inVault a then (a - vaultBase) / 0x4000000 / 64
  else if inHbm a then (a - hbmBase) / 2 ^ 30 / 48 / 2
  else if syncBase ≤ a ∧ a < syncEnd then (a - syncBase) / 0x200000
  else 0

/-- The leased line that holds an address (R340). -/
def leaseAt (ls : List Lease) (a : Nat) : Option Lease := firstOf (fun l => decide (l.line = a / 64)) ls

/-- The byte at a home, as the leased line has it where the line is leased (R248: a local access recalls the line first). -/
def State.homeByte (s : State) (a : Nat) : Byte :=
  match leaseAt s.leases a with
  | some l => nth 0 l.data (a % 64)
  | none => tget 0 s.mem a

/-- `n` bytes at the homes from address `a`. -/
def State.homeBytes (s : State) (a : Nat) : Nat → List Byte
  | 0 => []
  | n + 1 => s.homeByte a :: s.homeBytes (a + 1) n

/-- A little-endian number at the homes. -/
def State.homeLe (s : State) (a n : Nat) : Nat := leAt (s.homeBytes a n) 0 n

/-- A sector is poisoned (R287). -/
def State.poisoned (s : State) (num : Nat) : Bool := decide (num ∈ s.poison)

/-- Some byte of a range has an uncorrectable error: a poisoned HBM sector, or a vault word of 64 bits (R141, R287). -/
def State.poisonedIn (s : State) (a n : Nat) : Bool :=
  s.poison.any (fun k => decide (a < 32 * k + 32) && decide (32 * k < a + n))
    || s.vbad.any (fun k => decide (a < 8 * k + 8) && decide (8 * k < a + n))

/-- Which bytes of a sector have an uncorrectable error. -/
def State.badMask (s : State) (num : Nat) : List Bool :=
  if s.poisonedIn (32 * num) 32 then (upFrom 0 32).map (fun i => s.poisonedIn (32 * num + i) 1) else copies 32 false

/-- A vault word written whole holds no error any more (log entry 72). -/
def State.healVault (s : State) (a n : Nat) : State :=
  { s with vbad := s.vbad.filter (fun k => !(decide (a ≤ 8 * k) && decide (8 * k + 8 ≤ a + n))) }

/-- Write back the leased lines that a range touches and end their leases (R248, R340). -/
def State.recall (s : State) (a n : Nat) : State :=
  let hit := fun (l : Lease) => decide (a < 64 * l.line + 64) && decide (64 * l.line < a + n)
  if s.leases.any hit then
    let mem := (s.leases.filter hit).foldl (fun m (l : Lease) => tsets (0 : Byte) m (64 * l.line) l.data) s.mem
    { s with mem := mem, leases := s.leases.filter (fun l => !hit l) }
  else s

/-- The parts of a byte range by 32-byte sector, in ascending order (R151). -/
def sectorParts : Nat → Nat → List Byte → List (Nat × List Byte)
  | 0, _, _ => []
  | fuel + 1, a, bs =>
    if bs.isEmpty then []
    else (a, bs.take (32 - a % 32)) :: sectorParts fuel (a + (32 - a % 32)) (bs.drop (32 - a % 32))

/-- One home write inside one sector: a poisoned HBM sector takes only a write of all its bytes (R287). -/
def State.sectorWrite (s : State) (p : Nat × List Byte) : State :=
  if s.poisoned (p.1 / 32) then
    if p.2.length = 32 then
      { s with mem := tsets (0 : Byte) s.mem p.1 p.2, poison := s.poison.filter (fun k => decide (k ≠ p.1 / 32)) }
    else s
  else { s with mem := tsets (0 : Byte) s.mem p.1 p.2 }

/-- The pages of the shadow pool that an open cuff's object image takes (R383). -/
def Part.imgPages (p : Part) : Nat := (p.imgLen + 65535) / 65536

/-- Copy the old 64 KiB page of a marked page to a free page of the shadow pool, behind the object image. Where the pool is empty a page that
the join engine has read is written as it is, and the write of any other one waits: the move that makes it is not made (R383; log entry 34). -/
def State.cuffCopy (s : State) (p page : Nat) : State :=
  let k := s.part p
  if k.cuff.isSome && decide (page ∈ k.marked) then
    let base := s.homeLe (k.cfg.nx + 0x18) 8
    let npg := s.homeLe (k.cfg.nx + 0x20) 4
    let used := k.shadow.map Prod.snd
    match firstOf (fun i => decide (i ∉ used)) (upFrom k.imgPages (min (npg - k.imgPages) (used.length + 1))) with
    | some i =>
      let old := s.homeBytes (page * 65536) 65536
      let s1 := { s with mem := tsets (0 : Byte) s.mem (base + i * 65536) old }
      s1.setPart p { k with marked := k.marked.filter (fun x => decide (x ≠ page)), shadow := k.shadow ++ [(page, i)] }
    | none =>
      if page ∈ k.seen then s.setPart p { k with marked := k.marked.filter (fun x => decide (x ≠ page)) } else { s with stalled := true }
  else s

/-- Some partition has a cuff open. -/
def State.anyCuff (s : State) : Bool := s.parts.any (fun p => p.2.cuff.isSome)

/-- Copy the marked pages that a write touches, in every partition with an open cuff. -/
def State.cuffs (s : State) (a n : Nat) : State :=
  if s.anyCuff then
    (s.parts.map Prod.fst).foldl (fun t p => (t.cuffCopy p (a / 65536)).cuffCopy p ((a + n - 1) / 65536)) s
  else s

/-- A write performed at the homes of its bytes. -/
def State.homeWrite (s : State) (a : Nat) (bs : List Byte) : State :=
  if bs.isEmpty then s
  else
    let s1 := ((s.recall a bs.length).cuffs a bs.length).healVault a bs.length
    if s1.poison.isEmpty then { s1 with mem := tsets (0 : Byte) s1.mem a bs }
    else (sectorParts (bs.length + 1) a bs).foldl State.sectorWrite s1

/-- Merge written bytes over old ones. -/
def mergeBytes : List Byte → List Byte → List Bool → List Byte
  | o :: os, n :: ns, m :: ms => (if m then n else o) :: mergeBytes os ns ms
  | os, _, _ => os

/-- One home write of the masked bytes of a sector (R395). -/
def State.homeWriteMask (s : State) (num : Nat) (data : List Byte) (mask : List Bool) : State :=
  let s1 := (s.recall (32 * num) 32).cuffs (32 * num) 32
  let full := mask.all id
  if s1.poisoned num && !full then s1
  else
    let new := mergeBytes (s1.homeBytes (32 * num) 32) data mask
    { s1 with
      mem := tsets (0 : Byte) s1.mem (32 * num) new, poison := s1.poison.filter (fun k => decide (k ≠ num)),
      vbad := s1.vbad.filter (fun k => !(decide (k / 4 = num) && ((mask.drop (8 * (k % 4))).take 8).all id)) }

/-- Bytes of a page of a mapping (R140). -/
def pageBytes (sz : Nat) : Nat :=
  match sz with
  | 0 => 0x10000
  | 1 => 0x200000
  | _ => 0x40000000

/-- A mapping covers an address. -/
def mapCovers (m : MapEnt) (a : Nat) : Bool := decide (m.va ≤ a) && decide (a < m.va + pageBytes m.sz)

/-- A mapping names a page of a vault or of HBM (R140). -/
def mapValid (m : MapEnt) : Bool :=
  (inVault m.pa && inVault (m.pa + pageBytes m.sz - 1)) || (inHbm m.pa && inHbm (m.pa + pageBytes m.sz - 1))

/-- Kinds of access (R140). -/
inductive Acc where
  | rd
  | wr
  | ex
  deriving DecidableEq, Repr

/-- A mapping allows an access. -/
def mapAllows (m : MapEnt) (k : Acc) : Bool :=
  match k with
  | .rd => m.rd
  | .wr => m.wr
  | .ex => m.ex

/-- The valid mapping of a partition that covers an address. -/
def State.mapping (s : State) (p a : Nat) : Option MapEnt :=
  firstOf (fun m => mapCovers m a && mapValid m) (s.part p).cfg.maps

/-- The outcome of a translation: a physical address, a fault of R198 by its code, or a TLB miss whose walk is still to be
made (R245). -/
inductive Xl where
  | ok (pa : Nat)
  | bad (code : Nat)
  | miss
  deriving DecidableEq, Repr

/-- A partition holds a physical address: a vault of one of its slices, or one of its HBM units (R6, R7). -/
def State.owns (s : State) (p pa : Nat) : Bool :=
  let c := (s.part p).cfg
  if inVault pa then decide ((pa - vaultBase) / 0x20000000 ∈ c.slices) else decide ((pa - hbmBase) / 2 ^ 30 ∈ c.units)

/-- What a mapping answers for an access: 0x06 translation; 0x07 protection where it refuses the access or names a page of another
partition. -/
def State.viaMap (s : State) (p : Nat) (m : Option MapEnt) (k : Acc) (a : Nat) : Xl :=
  match m with
  | none => .bad 0x06
  | some m => if mapAllows m k && s.owns p (m.pa + (a - m.va)) then .ok (m.pa + (a - m.va)) else .bad 0x07

/-- The page that an address lies in, as its walk names it: the first 64 KiB page of its mapping, or its own where nothing maps it
(R140, R245). -/
def State.pageOf (s : State) (p a : Nat) : Nat :=
  match s.mapping p a with
  | some m => m.va / 65536
  | none => a / 65536

/-- Translate an address of a page-mapped region for a core of a partition through its TLB (R140, R245). A page whose walk has failed
answers `translation`; any other page that the TLB does not hold is a miss. -/
def State.xlate (s : State) (c p : Nat) (k : Acc) (a : Nat) : Xl :=
  match firstOf (fun t => decide (t.part = p) && mapCovers t.map a) (s.core c).tlb with
  | some t => s.viaMap p (some t.map) k a
  | none => if (s.core c).fails.any (fun w => decide (w.part = p) && decide (w.page = s.pageOf p a)) then .bad 0x06 else .miss

/-- Translate without a TLB, as engines and walkers do. -/
def State.xlateNow (s : State) (p : Nat) (k : Acc) (a : Nat) : Xl :=
  if regionOf a = .mem then s.viaMap p (s.mapping p a) k a
  else if regionOf a = .high then .bad 0x06 else .bad 0x07

/-- Gather results, stopping at the first status. -/
def collect {α : Type} : List (α ⊕ Nat) → List α ⊕ Nat
  | [] => .inl []
  | .inr e :: _ => .inr e
  | .inl x :: rest => match collect rest with
    | .inl xs => .inl (x :: xs)
    | .inr e => .inr e

/-- Cut a byte list by the lengths of pieces. -/
def cutBytes : List (Nat × Nat) → List Byte → List (Nat × List Byte)
  | [], _ => []
  | (a, n) :: rest, bs => (a, bs.take n) :: cutBytes rest (bs.drop n)

/-- The physical pieces of a virtual range, sector by sector, or the fault of its translation (R140, R151). -/
def State.vaPieces (s : State) (p : Nat) (k : Acc) (va n : Nat) : List (Nat × Nat) ⊕ Nat :=
  collect ((sectorParts (n + 1) va (copies n 0)).map (fun x => match s.xlateNow p k x.1 with
    | .ok pa => .inl (pa, x.2.length)
    | .bad e => .inr e
    | .miss => .inr 6))

/-- The bytes of physical pieces at their homes. -/
def State.pieceBytes (s : State) (ps : List (Nat × Nat)) : List Byte := (ps.map (fun p => s.homeBytes p.1 p.2)).flatten

/-- Bytes written to physical pieces at their homes. -/
def State.putPieces (s : State) (ps : List (Nat × Nat)) (bs : List Byte) : State :=
  (cutBytes ps bs).foldl (fun t p => t.homeWrite p.1 p.2) s

/-- The slice that holds a sync-window address (R246). -/
def syncSlice (a : Nat) : Nat := (a - syncBase) / 0x200000 * 8 + (a - syncBase) % 0x200000 / 0x40000

/-- Where an access of a core goes: its physical address, a fault, or a miss. The scratchpad window is answered by its own
operation (R139). -/
def State.route (s : State) (c p : Nat) (k : Acc) (a : Nat) : Xl :=
  match regionOf a with
  | .high => .bad 0x06
  | .mem => s.xlate c p k a
  | .sync => if syncSlice a ∈ (s.part p).cfg.slices then .ok a else .bad 0x07
  | .scr => .ok a
  | .host => .bad 0x07
  | .gap => .bad 0x07

/-- An access of `n` bytes may span two pages: both are translated before any byte is performed (R140). -/
def State.routeAll (s : State) (c p : Nat) (k : Acc) (a n : Nat) : Xl :=
  match s.route c p k a with
  | .ok pa => match s.route c p k (a + n - 1) with
    | .ok _ => .ok pa
    | x => x
  | x => x

/-- Perform a walk and fill the core's TLB (R245): entries beyond 2,048 are the oldest and go. -/
def State.fillTlb (s : State) (c p a : Nat) : State :=
  match s.mapping p a with
  | none => s
  | some m =>
    let k := s.core c
    s.setCore c { k with tlb := (⟨p, m⟩ :: k.tlb.filter (fun t => !(decide (t.part = p) && decide (t.map = m)))).take 2048 }

/-- A walk's result reaches one waiter: its TLB is filled, or its `translation` is due (R245). -/
def State.walked (s : State) (w : WalkReq) : State :=
  match s.mapping w.part (65536 * w.page) with
  | some _ => s.fillTlb w.core w.part (65536 * w.page)
  | none =>
    let here := fun (o : Option Wait) => match o with | some x => decide (x.on = .walk w.page) | none => false
    match s.bg w.blk w.grp with
    | some (_, g) => if here g.wait || here g.swait then
        let k := s.core w.core
        s.setCore w.core { k with fails := w :: k.fails }
      else s
    | none => s

/-- Count one walk on a die (R266). -/
def State.countWalk (s : State) (d : Nat) : State :=
  let k := s.die d
  s.setDie d { k with walks := satInc32 k.walks }

/-- The sector of a number in a cache. -/
def findSec (cs : List Sector) (num : Nat) : Option Sector := firstOf (fun x => decide (x.num = num)) cs

/-- Replace a sector in a cache. -/
def putSec (cs : List Sector) (x : Sector) : List Sector := mapIf (fun y => decide (y.num = x.num)) (fun _ => x) cs

/-- A sector holds bytes that are still to be published. -/
def Sector.isDirty (x : Sector) : Bool := x.dirty.any id

/-- The bytes of a sector that the core has written and that are not yet at their home. -/
def Sector.own (x : Sector) : List Bool := (x.dirty.zip x.sent).map (fun y => y.1 || y.2)

/-- A sector holds unpublished data: bytes whose publication has not completed (R149, R362). -/
def Sector.holds (x : Sector) : Bool := x.own.any id

/-- Publications of a scope applied locally so far, of those queued: an even number is a pod publication's, an odd one a system
publication's (R362). -/
def State.pubDone (s : State) (id : Nat) : Bool := if id % 2 = 0 then decide (id / 2 ≤ s.nx.podA) else decide (id / 2 ≤ s.nx.sysA)

/-- So many pod frames and system frames have been applied locally. -/
def State.pubsDone (s : State) (pod sys : Nat) : Bool := decide (pod ≤ s.nx.podA) && decide (sys ≤ s.nx.sysA)

/-- The oldest sector of those that meet a test. -/
def oldest (p : Sector → Bool) (cs : List Sector) : Option Sector :=
  cs.foldl (fun best x => if p x then (match best with
    | none => some x
    | some y => if x.age < y.age then some x else some y) else best) none

/-- The mirror range of a partition: base, bytes, scope; none without a mirror (R361, R386). -/
def State.mirror (s : State) (p : Nat) : Option (Nat × Nat × Nat) :=
  let k := s.part p
  if k.cfg.nx = 0 then none
  else
    let kk := s.homeLe (k.cfg.nx + 9) 1
    if kk < 16 ∨ 20 < kk then none
    else some (s.homeLe (k.cfg.nx + 0x10) 8, 2 ^ kk, s.homeLe (k.cfg.nx + 0x0A) 1)

/-- A physical address lies in the mirror range of a partition. -/
def State.inMirror (s : State) (p a : Nat) : Bool :=
  match s.mirror p with
  | none => false
  | some (b, n, _) => decide (b ≤ a) && decide (a < b + n)

/-- The entries of publication frames for mirror sectors (R356): sector number in the range, byte mask, data. -/
def pubEntry (base : Nat) (x : Sector) : List Byte :=
  toLe 4 (x.num - base / 32) ++ toLe 4 (maskOf ((upFrom 0 32).filter (fun i => nth false x.dirty i))) ++ x.data

/-- Payloads of a publication: five entries of 40 bytes a frame. -/
def pubFrames : Nat → List (List Byte) → List (List Byte)
  | 0, _ => []
  | fuel + 1, es => if es.isEmpty then [] else padTo 208 (es.take 5).flatten :: pubFrames fuel (es.drop 5)

/-- A frame that waits to be sent: 256 bytes with kind, flags and partition in its header, the rest filled when it is sent
(R356). -/
def queuedFrame (kind flags part : Nat) (payload : List Byte) : List Byte :=
  padTo 256 (toLe 1 kind ++ toLe 2 0 ++ toLe 1 flags ++ toLe 1 part ++ copies 27 0 ++ padTo 208 payload)

/-- Queue frames of a publication of a scope (0 pod, 1 system), the last with flags bit 2 (R362). -/
def State.queuePubs (s : State) (part scope : Nat) (payloads : List (List Byte)) : State :=
  let n := payloads.length
  let fr := (payloads.zip (upFrom 1 n)).map (fun x =>
    queuedFrame 2 (2 * scope + (if x.2 = n then 4 else 0)) part x.1)
  { s with nx := { s.nx with outq := s.nx.outq ++ fr, podQ := s.nx.podQ + (if scope = 0 then n else 0), sysQ := s.nx.sysQ + (if scope = 0 then 0 else n) } }

/-- A sector after its publication: a mirror sector keeps its bytes until the frame numbered `id` has been applied here (R362). -/
def Sector.published (x : Sector) (mirror : Bool) (id : Nat) : Sector :=
  if mirror && x.isDirty then { x with dirty := copies 32 false, sent := x.own, pub := id } else { x with dirty := copies 32 false }

/-- Sectors that hold written bytes alone go once nothing of them is unpublished. -/
def keepSec (x : Sector) : Bool := decide (x.st ≠ .wonly) || x.holds

/-- Bytes are written in a scratchpad: the lines become present, and 8-byte words written whole hold no error (R143, R141, log entry
72). -/
def Block.scrPut (b : Block) (off : Nat) (bs : List Byte) : Block :=
  { b with
    scr := tsets 0 b.scr off bs,
    scrBad := b.scrBad.filter (fun k => !(decide (off ≤ 8 * k) && decide (8 * k + 8 ≤ off + bs.length))),
    absent := b.absent.filter (fun l => decide (l < off / 512) || decide ((off + bs.length - 1) / 512 < l)) }

/-- One access's bytes are written in the scratchpads that it reaches. -/
def State.performPuts (s : State) (ps : List (Nat × Nat × List Byte)) : State :=
  ps.foldl (fun t p => t.updBlk p.1 (fun b => b.scrPut p.2.1 p.2.2)) s

/-- The counter that an access names falls (R124). -/
def Group.fall (g : Group) (sb : Nat) : Group := if sb < 6 then { g with sb := tset 0 g.sb sb (tget 0 g.sb sb - 1) } else g

/-- A store to other scratchpads reaches its completion point: its bytes are written, and its counter falls (R154, R231). -/
def State.land1 (s : State) (c : Nat) (o : Outst) : State :=
  let s1 := s.performPuts o.puts
  let k := s1.core c
  (s1.setCore c { k with outs := k.outs.filter (fun x => decide (x.id ≠ o.id)) }).updGrp o.blk o.grp (fun g => g.fall o.sb)

/-- The stores of a core that meet a test and have still bytes to write reach their completion points, in issue order (R154, R231). -/
def State.flush (s : State) (c : Nat) (p : Outst → Bool) : State :=
  ((s.core c).outs.filter (fun o => p o && !o.puts.isEmpty)).foldl (fun t o => t.land1 c o) s

/-- What has to be performed before an access of a group to some scratchpads: its earlier stores to one of them, and what has to be
performed before those in turn (R231). The list runs from the newest access to the oldest; the answer has their numbers. -/
def sentBefore : List Outst → List Nat → List Nat
  | [], _ => []
  | o :: rest, spots =>
    if !o.puts.isEmpty && o.spots.any (fun x => decide (x ∈ spots)) then o.id :: sentBefore rest (spots ++ o.spots) else sentBefore rest spots

/-- The group's stores that have to be performed before an access of it to some scratchpads are performed; `id` is the access's number
(R231). -/
def State.flushFor (s : State) (c blk grp id : Nat) (spots : List Nat) : State :=
  let ids := sentBefore (((s.core c).outs.filter (fun o => decide (o.blk = blk) && decide (o.grp = grp) && decide (o.id < id))).reverse) spots
  s.flush c (fun o => decide (o.id ∈ ids))

/-- What a core has fetched ahead of a group's words is dropped: a group's, or every group's (R397). -/
def State.dropEarly (s : State) (c : Nat) (p : EarlySec → Bool) : State :=
  let k := s.core c
  if k.early.any p then s.setCore c { k with early := k.early.filter (fun x => !p x) } else s

/-- A core fetches a sector ahead of the word of a group that reads it (R397). -/
def State.fetchEarly (s : State) (blk grp num : Nat) : State :=
  match s.blk blk with
  | none => s
  | some b =>
    let k := s.core b.core
    let rest := k.early.filter (fun x => !(decide (x.blk = blk) && decide (x.grp = grp) && decide (x.num = num)))
    s.setCore b.core { k with early := ⟨blk, grp, num, s.homeBytes (32 * num) 32, s.badMask num⟩ :: rest }

/-- The group whose word runs. -/
def Cur.who (c : Cur) : Option (Nat × Nat) := match c.ag with
  | .group b g => some (b, g)
  | .scalar b g => some (b, g)
  | _ => .none

/-- A sector as a word's fetch obtains it: from the home now, or as it stood when the core fetched it ahead for the word's group (R396,
R397). What was fetched ahead of this sector is used up. -/
def State.fetchSec (s : State) (c num : Nat) : List Byte × List Bool × State :=
  let mine := firstOf (fun (x : EarlySec) => decide (x.num = num) && decide (s.cur.who = some (x.blk, x.grp))) (s.core c).early
  let t := s.dropEarly c (fun x => decide (x.num = num))
  match mine with
  | some x => (x.data, x.bad, t)
  | none => (s.homeBytes (32 * num) 32, s.badMask num, t)

/-- Publish every unpublished sector of a core, after the stores that it has issued: home writes of the bytes written, mirror sectors
as publication frames (R149, R160, R362, R395). -/
def State.publish (s0 : State) (c : Nat) : State :=
  let s := (s0.flush c (fun _ => true)).dropEarly c (fun _ => true)
  let dirty := (s.core c).cache.filter Sector.isDirty
  if dirty.isEmpty then s
  else
    let part := match s.partOfSlice (c / 8) with | some p => p | none => 24
    let mir := dirty.filter (fun x => s.inMirror part (32 * x.num))
    let own := dirty.filter (fun x => !s.inMirror part (32 * x.num))
    let s1 := own.foldl (fun t x => t.homeWriteMask x.num x.data x.dirty) s
    let s2 := match s.mirror part with
      | none => s1
      | some (b, _, sc) => if mir.isEmpty then s1 else s1.queuePubs part sc (pubFrames (mir.length + 1) (mir.map (pubEntry b)))
    let k := s2.core c
    let id := match s.mirror part with | some (_, _, 0) => 2 * s2.nx.podQ | _ => 2 * s2.nx.sysQ + 1
    s2.setCore c { k with cache := (k.cache.map (fun x => x.published (s.inMirror part (32 * x.num)) id)).filter keepSec }

/-- The sectors of a core whose publication has been applied here hold no unpublished data any more (R362). -/
def State.settleCore (s : State) (c : Nat) : State :=
  let k := s.core c
  s.setCore c { k with
    cache := (k.cache.map (fun x => if s.pubDone x.pub then { x with sent := copies 32 false } else x)).filter keepSec }

/-- A publication has been applied here: every core's sectors follow. -/
def State.settle (s : State) : State := (s.cores.map Prod.fst).foldl State.settleCore s

/-- Every publication of mirror sectors that a core has sent has been applied here (R362). -/
def State.pubSettled (s : State) (c : Nat) : Bool := (s.core c).cache.all (fun x => !x.sent.any id)

/-- The publications of mirror sectors that a core has sent and that have not been applied here: as counts of pod frames and of system
frames (R362). -/
def State.pubGoal (s : State) (c : Nat) : Nat × Nat :=
  ((s.core c).cache.filter (fun x => x.sent.any id)).foldl (fun m x =>
    if x.pub % 2 = 0 then (max m.1 (x.pub / 2), m.2) else (m.1, max m.2 (x.pub / 2))) (0, 0)

/-- Refresh a core, after the stores that it has issued (R397): drop every fixed sector without unpublished data and every prefetched
copy; what stays keeps its written bytes alone (R148, R158, R160). -/
def State.refresh (s0 : State) (c : Nat) : State :=
  let s := s0.flush c (fun _ => true)
  let k := s.core c
  s.setCore c { k with evicted := [], early := [], cache := (k.cache.filter Sector.holds).map (fun x => { x with st := .wonly }) }

/-- Evict one sector as R148 orders; none where every sector holds unpublished data. -/
def State.evict (s : State) (c : Nat) : Option State :=
  let k := s.core c
  match oldest (fun x => decide (x.st = .pref) && !x.holds) k.cache with
  | some x => some (s.setCore c { k with cache := k.cache.filter (fun y => decide (y.num ≠ x.num)) })
  | none => match oldest (fun x => decide (x.st = .fixed) && !x.holds) k.cache with
    | some x => some (s.setCore c { k with cache := k.cache.filter (fun y => decide (y.num ≠ x.num)), evicted := insNat x.num k.evicted })
    | none => none

/-- A forced publication (R149); none is due while the core has nothing more to publish. -/
def State.force (s : State) (c : Nat) : State :=
  let k := s.core c
  if k.cache.any Sector.isDirty then (s.setCore c { k with phaseforce := satInc k.phaseforce }).publish c else s

/-- Every outstanding access of a core is complete. -/
def State.quietCore (s : State) (c : Nat) : Bool := (s.core c).outs.isEmpty

/-- A forced publication, once every access that the core has issued is complete (R149, R395). -/
def State.forceQuiet (s : State) (c : Nat) : State := if s.quietCore c then s.force c else s

/-- Make room for one sector: evict as R148 orders, or force a publication first (R149). -/
def State.makeRoom (s : State) (c : Nat) : State :=
  if (s.core c).cache.length < 8192 then s
  else match s.evict c with
    | some t => t
    | none => match (s.forceQuiet c).evict c with
      | some t => t
      | none => s.forceQuiet c

/-- An access has found no sector to evict: it waits for the core's earlier accesses, and until the forced publication has been
applied (R149, R362, R395). -/
def State.crowded (s : State) (c : Nat) : Bool := decide (8192 < (s.core c).cache.length)

/-- A free age for a new or newly fixed sector. -/
def State.nextAge (s : State) (c : Nat) : Nat × State :=
  let k := s.core c
  (k.ageNext, s.setCore c { k with ageNext := k.ageNext + 1 })

/-- Count an unfixed read when the sector was fixed in this phase and has been evicted (R148). -/
def State.countUnfixed (s : State) (c num : Nat) : State :=
  let k := s.core c
  if num ∈ k.evicted then
    s.setCore c { k with phasefull := satInc k.phasefull, evicted := k.evicted.filter (fun x => decide (x ≠ num)) }
  else s

/-- A sector that holds written bytes alone, with the home's other bytes beneath them. -/
def Sector.under (x : Sector) (st : SecSt) (age : Nat) (home : List Byte) (bad : List Bool) : Sector :=
  { x with st := st, age := age, data := mergeBytes home x.data x.own, bad := (bad.zip x.own).map (fun y => y.1 && !y.2) }

/-- A sector just fetched. -/
def newSec (num : Nat) (st : SecSt) (age : Nat) (home : List Byte) (bad : List Bool) : Sector :=
  ⟨num, home, copies 32 false, copies 32 false, 0, bad, st, age⟩

/-- Read a whole sector through the phase cache: the first read after a refresh fixes it (R148, R158). -/
def State.cacheSector (s : State) (c num : Nat) : Sector × State :=
  match findSec (s.core c).cache num with
  | some x =>
    match x.st with
    | .fixed => (x, s)
    | .pref =>
      let s1 := (s.countUnfixed c num).dropEarly c (fun e => decide (e.num = num))
      let k := s1.core c
      let y := { x with st := .fixed, age := k.ageNext }
      (y, s1.setCore c { k with cache := putSec k.cache y, ageNext := k.ageNext + 1 })
    | .wonly =>
      let r := (s.countUnfixed c num).fetchSec c num
      let s1 := r.2.2
      let k := s1.core c
      let y := x.under .fixed k.ageNext r.1 r.2.1
      (y, s1.setCore c { k with cache := putSec k.cache y, ageNext := k.ageNext + 1 })
  | none =>
    let r := ((s.countUnfixed c num).makeRoom c).fetchSec c num
    let s0 := r.2.2
    let k := s0.core c
    let y := newSec num .fixed k.ageNext r.1 r.2.1
    (y, s0.setCore c { k with cache := y :: k.cache, ageNext := k.ageNext + 1 })

/-- Read bytes of one sector at a physical address through the phase cache. The flag says that one of them has an uncorrectable
error (R141). -/
def State.cacheRead (s : State) (c pa n : Nat) : List Byte × Bool × State :=
  let (x, s1) := s.cacheSector c (pa / 32)
  ((x.data.drop (pa % 32)).take n, ((x.bad.drop (pa % 32)).take n).any id, s1)

/-- Write bytes of one sector: unpublished until a publication (R149). -/
def State.cacheWrite (s : State) (c pa : Nat) (bs : List Byte) : State :=
  let num := pa / 32
  let o := pa % 32
  let on := (upFrom 0 32).map (fun i => decide (o ≤ i) && decide (i < o + bs.length))
  match findSec (s.core c).cache num with
  | some x =>
    let k := s.core c
    s.setCore c { k with cache := putSec k.cache { x with
      data := patch x.data o bs, dirty := (x.dirty.zip on).map (fun y => y.1 || y.2), bad := (x.bad.zip on).map (fun y => y.1 && !y.2) } }
  | none =>
    let s1 := s.makeRoom c
    let k := s1.core c
    let y := { newSec num .wonly k.ageNext (patch (copies 32 0) o bs) (copies 32 false) with dirty := on }
    s1.setCore c { k with cache := y :: k.cache, ageNext := k.ageNext + 1 }

/-- Bring a sector as a prefetched copy, dropped where nothing can be evicted (R149, R158). -/
def State.prefetch (s : State) (c num : Nat) : State :=
  match findSec (s.core c).cache num with
  | some x =>
    if x.st = .wonly then
      let k := s.core c
      s.setCore c { k with cache := putSec k.cache (x.under .pref k.ageNext (s.homeBytes (32 * num) 32) (s.badMask num)), ageNext := k.ageNext + 1 }
    else s
  | none =>
    let k := s.core c
    if k.cache.length < 8192 ∨ k.cache.any (fun x => !x.holds) then
      let s1 := s.makeRoom c
      let k := s1.core c
      s1.setCore c { k with
        cache := newSec num .pref k.ageNext (s1.homeBytes (32 * num) 32) (s1.badMask num) :: k.cache, ageNext := k.ageNext + 1 }
    else s

/-- Publish a core's own unpublished bytes of the sectors of a range and drop its copies of them: what an atomic and a home
access of the core do first (R247, R425). The drop is no eviction. -/
def State.sectorHome (s0 : State) (c a n : Nat) : State :=
  let s := s0.dropEarly c (fun x => decide (a < 32 * x.num + 32) && decide (32 * x.num < a + n))
  let hit := fun (x : Sector) => decide (a < 32 * x.num + 32) && decide (32 * x.num < a + n)
  let part := match s.partOfSlice (c / 8) with | some p => p | none => 24
  let xs := (s.core c).cache.filter hit
  if xs.isEmpty then s
  else if xs.any (fun x => x.isDirty && s.inMirror part (32 * x.num)) then
    let s1 := s.publish c
    let k := s1.core c
    s1.setCore c { k with cache := (k.cache.map (fun x => if hit x then { x with st := .wonly } else x)).filter keepSec }
  else
    let s1 := (xs.filter Sector.isDirty).foldl (fun t x => t.homeWriteMask x.num x.data x.dirty) s
    let k := s1.core c
    s1.setCore c { k with
      cache := (k.cache.map (fun x => if hit x then { x with st := .wonly, dirty := copies 32 false } else x)).filter keepSec }

end Sys2Proof.Machine
end

