-- ==== Sys2Proof/Machine/Image.lean ====
section
/-! DEFINITION. The bytes in which a group and a block are saved: the group-state layout (R80, R213), the sequencer state
(R194, R264), barrier words (R135), the block header, and their reading back (R204, R211, R217). -/
namespace Sys2Proof.Machine

/-- Where a group stands in its clause: header, index of the next word counted from 0, active mask (R213). -/
structure Pos where
  hdr : Nat
  idx : Nat
  act : Nat
  deriving DecidableEq, Repr

/-- The address of the lowest-address PC-set among the live lanes that are not deferred, or among the deferred when all are
(R61). -/
def Group.lowestPc (g : Group) : Option Nat :=
  let l0 := g.liveLanes.filter (fun l => !(g.lane l).deferred)
  let ls := if l0.isEmpty then g.liveLanes else l0
  leastOf (ls.map (fun l => (g.lane l).pc.toNat))

/-- The lanes of the PC-set at an address; deferred lanes belong to it only when every live lane is deferred (R61). -/
def Group.pcSet (g : Group) (pc : Nat) : List Nat :=
  let l0 := g.liveLanes.filter (fun l => !(g.lane l).deferred)
  let ls := if l0.isEmpty then g.liveLanes else l0
  ls.filter (fun l => decide ((g.lane l).pc.toNat = pc))

/-- The group's recorded position: of the lowest set, or zero when no lane is live. A class S clause that the scalar side is
in at the set's own place counts from its own index. -/
def Group.pos (g : Group) : Pos :=
  match g.lowestPc with
  | none => ⟨0, 0, 0⟩
  | some pc =>
    let set := g.pcSet pc
    let act := maskOf (set.filter (fun l => !(g.lane l).guardOff))
    match set with
    | [] => ⟨0, 0, 0⟩
    | l :: _ =>
      if (g.lane l).entered then ⟨(g.lane l).hdr, (pc - (g.lane l).hdr) / 4 - 1, act⟩
      else match g.sc with
        | some r => if r.hdr = pc then ⟨r.hdr, r.idx, if r.on then act else 0⟩ else ⟨pc, 0, act⟩
        | none => ⟨pc, 0, act⟩

/-- The pc that a lane's record shows: the next word; for a set in a class S clause that the scalar side has begun, the
scalar side's next word (R22, R128; log entry 12). -/
def Group.recPc (g : Group) (l : Nat) : Nat :=
  let x := g.lane l
  match g.sc with
  | some r => if !x.entered && decide (x.pc.toNat = r.hdr) && x.isLive then r.hdr + 4 * (r.idx + 1) else x.pc.toNat
  | none => x.pc.toNat

/-- The state code of a lane (R213). -/
def laneCode (x : Lane) : Nat :=
  match x.st with
  | .free => 0
  | .live => 1
  | .parked _ => 2

/-- The park mask of a lane (R213). -/
def parkCode (x : Lane) : Nat :=
  match x.st with
  | .parked k => k
  | _ => 0

/-- A fibre record of 12 bytes (R57, R80). -/
def Group.fibreBytes (g : Group) (l : Nat) : List Byte :=
  let x := g.lane l
  toLe 6 (g.recPc l) ++ toLe 2 x.pred.toNat ++ toLe 2 x.depth ++ toLe 2 x.lo

/-- Pack two-bit or four-bit fields of the 32 lanes. -/
def packLanes (w : Nat) : List Nat → Nat
  | [] => 0
  | x :: rest => x + 2 ^ w * packLanes w rest

/-- The largest count toward R63 with the lowest lane that has it (R80). -/
def Group.topStarve (g : Group) : Nat × Nat :=
  match g.liveLanes with
  | [] => (0, 0)
  | k :: rest => rest.foldl (fun best l => if best.1 < (g.lane l).starve then ((g.lane l).starve, l) else best) ((g.lane k).starve, k)

/-- A queue's eight entries as halves, oldest first. -/
def queueWords (q : List (RWord × RWord)) : List RWord :=
  let ws := (q.map (fun e => [e.1, e.2])).flatten
  ws ++ copies (16 - ws.length) RWord.zero

/-- The words of the group state that carry residues, by their word number in the 1,600 bytes (R120, R204). -/
def Group.resWords (g : Group) : List (Nat × RWord) :=
  let lat := fun (t : Sparse RWord) (base : Nat) => lanes32.map (fun l => (base + l, tget RWord.zero t l))
  let sc := (upFrom 0 128).map (fun i => (224 + i, tget RWord.zero g.sregs i))
  let qs := ((queueWords g.fq ++ queueWords g.rq).zip (upFrom 352 32)).map (fun x => (x.2, x.1))
  lat g.by1 0 ++ lat g.by2 32 ++ lat g.by3 64 ++ sc ++ qs

/-- The group-state bytes (R213), given the scalar position. -/
def Group.stateBytes (g : Group) (spos : Nat) : List Byte :=
  let lat := fun (t : Sparse RWord) => bytesOf (lanes32.map (fun l => (tget RWord.zero t l).val))
  let p := g.pos
  let top := g.topStarve
  lat g.by1 ++ lat g.by2 ++ lat g.by3
    ++ (lanes32.map (fun l => g.fibreBytes l)).flatten
    ++ ((upFrom 0 8).map (fun k => toLe 4 (tget 0 g.kEnr k).toNat ++ toLe 4 (tget 0 g.kArr k).toNat)).flatten
    ++ padTo 64 ((upFrom 0 6).map (fun n => BitVec.ofNat 8 (tget 0 g.sb n)) ++ [0, 0]
        ++ [BitVec.ofNat 8 g.fq.length, BitVec.ofNat 8 g.rq.length, g.sp] ++ copies 5 0
        ++ toLe 8 g.spillbase.toNat ++ toLe 8 g.spilllim.toNat)
    ++ bytesOf ((upFrom 0 128).map (fun i => (tget RWord.zero g.sregs i).val))
    ++ bytesOf ((queueWords g.fq ++ queueWords g.rq).map (fun w => w.val))
    ++ padTo 64 (toLe 8 (packLanes 2 (lanes32.map (fun l => laneCode (g.lane l))))
        ++ toLe 16 (packLanes 4 (lanes32.map (fun l => parkCode (g.lane l))))
        ++ toLe 4 (maskOf (lanes32.filter (fun l => (g.lane l).guardOff)))
        ++ toLe 4 (maskOf (lanes32.filter (fun l => (g.lane l).deferred)))
        ++ toLe 4 g.msM.toNat ++ toLe 4 g.msA.toNat
        ++ toLe 2 top.1 ++ toLe 1 top.2 ++ toLe 1 p.idx ++ toLe 4 p.act ++ toLe 6 p.hdr ++ toLe 6 spos)

/-- A word read back: field 15 where its number is marked, a fresh residue elsewhere (R204, R213). -/
def backWord (bs : List Byte) (marks : List Nat) (w : Nat) : RWord :=
  let v : W32 := BitVec.ofNat 32 (leAt bs (4 * w) 4)
  if w ∈ marks then Sys2Proof.Machine.marked v else fresh v

/-- A table of `n` words read back from word number `base`. -/
def backWords (bs : List Byte) (marks : List Nat) (base n : Nat) : Sparse RWord :=
  tsets RWord.zero [] 0 ((upFrom base n).map (backWord bs marks))

/-- A queue read back. -/
def backQueue (bs : List Byte) (marks : List Nat) (base n : Nat) : List (RWord × RWord) :=
  (upFrom 0 (min n 8)).map (fun i => (backWord bs marks (base + 2 * i), backWord bs marks (base + 2 * i + 1)))

/-- A lane read back from the group state over the lane record kept beside it (log entry 12): the place in the clause is the
recorded one where the pc agrees with it, the kept one where the pc is unchanged, and a clause boundary elsewhere. -/
def backLane (bs : List Byte) (old : Group) (p : Pos) (l : Nat) : Lane :=
  let o := 0x180 + 12 * l
  let pc := leAt bs o 6
  let st := leAt bs 0x600 8 / 4 ^ l % 4
  let park := leAt bs 0x608 16 / 16 ^ l % 16
  let x := old.lane l
  let goff := bitOf (leAt bs 0x618 4) l
  let cnt := if leAt bs 0x62A 1 = l then leAt bs 0x628 2 else 0
  let base : Lane :=
    ⟨(if st = 0 then .free else if st = 1 then .live else .parked park), goff, bitOf (leAt bs 0x61C 4) l,
     BitVec.ofNat 48 (pc / 4 * 4), BitVec.ofNat 16 (leAt bs (o + 6) 2) ||| 1, leAt bs (o + 8) 2, leAt bs (o + 10) 2, pc,
     false, cnt⟩
  if st = 1 ∧ p.hdr + 4 * (p.idx + 1) = pc then { base with hdr := p.hdr, entered := true }
  else if x.pc.toNat = pc then { base with hdr := x.hdr, entered := x.entered }
  else base

/-- The recorded position in a group's 1,600 bytes (R213). -/
def posOf (bs : List Byte) : Pos := ⟨leAt bs 0x630 6, leAt bs 0x62B 1 % 16, leAt bs 0x62C 4⟩

/-- A group read back from its 1,600 bytes. The words of a class S clause in progress go back to the scalar side. -/
def backGroup (bs : List Byte) (marks : List Nat) (old : Group) : Group :=
  let p := posOf bs
  { old with
    lanes := tsets Lane.none [] 0 (lanes32.map (backLane bs old p)),
    kArr := tsets 0 [] 0 ((upFrom 0 8).map (fun k => BitVec.ofNat 32 (leAt bs (0x304 + 8 * k) 4))),
    kEnr := tsets 0 [] 0 ((upFrom 0 8).map (fun k => BitVec.ofNat 32 (leAt bs (0x300 + 8 * k) 4))),
    msM := BitVec.ofNat 32 (leAt bs 0x620 4),
    msA := BitVec.ofNat 32 (leAt bs 0x624 4),
    by1 := backWords bs marks 0 32,
    by2 := backWords bs marks 32 32,
    by3 := backWords bs marks 64 32,
    spillbase := BitVec.ofNat 64 (leAt bs 0x350 8),
    spilllim := BitVec.ofNat 64 (leAt bs 0x358 8),
    sb := tsets 0 [] 0 ((upFrom 0 6).map (fun n => leAt bs (0x340 + n) 1 % 64)),
    sregs := backWords bs marks 224 128,
    sp := BitVec.ofNat 8 (leAt bs 0x34A 1) ||| 1,
    fq := backQueue bs marks 352 (leAt bs 0x348 1),
    rq := backQueue bs marks 368 (leAt bs 0x349 1) }

/-- A barrier word (R135). -/
def barWord (b : Bar) : Nat :=
  b.grparr.toNat + b.seqarr.toNat * 2 ^ 16 + b.phase.toNat * 2 ^ 32 + b.count * 2 ^ 48

/-- A barrier read back. -/
def backBar (w : Nat) : Bar := ⟨fld w 52 48, BitVec.ofNat 16 (fld w 47 32), BitVec.ofNat 2 (fld w 17 16), BitVec.ofNat 16 (fld w 15 0)⟩

/-- A barrier in whose phase nothing has arrived. -/
def Bar.zero : Bar := ⟨0, 0, 0, 0⟩

/-- The 16 barrier words of a block. -/
def Block.barBytes (b : Block) : List Byte := ((upFrom 0 16).map (fun n => toLe 8 (barWord (tget Bar.zero b.bars n)))).flatten

/-- An invalid row buffer. -/
def RowBuf.none : RowBuf := ⟨false, 0, 0, []⟩

/-- An unbound mitten group. -/
def Mitten.none : Mitten := ⟨false, 0, false, []⟩

/-- The state halfword of a stream (R194). -/
def streamState (x : Stream) : Nat := (if x.running then 1 else 0) + 2 * (x.owner % 16) + (if x.again then 32 else 0)

/-- The 256 bytes of sequencer state (R194, R264). -/
def Block.seqBytes (b : Block) : List Byte :=
  padTo 128 (toLe 8 b.ms.pc ++ ((upFrom 1 7).map (fun i => toLe 4 (tget 0 b.ix i).toNat)).flatten
    ++ toLe 1 b.area ++ toLe 1 b.ogrp ++ toLe 2 b.afmt ++ toLe 2 b.ms.part.toNat ++ toLe 2 (streamState b.ms)
    ++ ((upFrom 0 4).map (fun r => let x := tget RowBuf.none b.rbs r
          toLe 2 ((if x.valid then 1 else 0) + 2 * x.kp + 64 * x.ty))).flatten
    ++ (upFrom 0 16).map (fun g => let x := tget Mitten.none b.mgs g
          BitVec.ofNat 8 ((if x.bound then 1 else 0) + 2 * x.hf + (if x.tr then 8 else 0))))
  ++ padTo 128 (toLe 8 b.cs.pc ++ toLe 2 (streamState b.cs) ++ toLe 2 b.cs.part.toNat ++ toLe 1 b.cs.og)

/-- A group window's or block window's words. -/
def winWords (t : Sparse RWord) (bytes : Nat) : List RWord := tgets RWord.zero t 0 (bytes / 4)

/-- The group window in bytes (R234). -/
def Block.gwinBytes (b : Block) : Nat := 1024 * b.trec.gwin

/-- The block window in bytes. -/
def Block.bwinBytes (b : Block) : Nat := 4096 * b.trec.bwin

/-- The scratchpad allocation in bytes: whole lines (R142). -/
def spallocOf (t : TaskRec) : Nat := (t.spb + 511) / 512 * 512

/-- The lines of a block's allocation. -/
def Block.lines (b : Block) : Nat := spallocOf b.trec / 512

/-- The valid row buffers, ascending. -/
def Block.validRbs (b : Block) : List Nat := (upFrom 0 4).filter (fun r => (tget RowBuf.none b.rbs r).valid)

/-- The bound mitten groups, ascending. -/
def Block.boundMgs (b : Block) : List Nat := (upFrom 0 16).filter (fun g => (tget Mitten.none b.mgs g).bound)

/-- The presence bitmap of `n` bytes: line i at bit i. -/
def Block.presence (b : Block) (n : Nat) : List Byte :=
  let lines := b.lines
  (upFrom 0 n).map (fun k => BitVec.ofNat 8 (maskOf ((upFrom 0 8).filter
    (fun i => decide (8 * k + i < lines) && decide (8 * k + i ∉ b.absent)))))

/-- The 512-byte block header of a context (R213). -/
def Block.header (b : Block) (packets marks : Nat) : List Byte :=
  padTo 512 (toLe 4 0x54584343 ++ toLe 2 1 ++ toLe 1 b.groups.length ++ toLe 1 0 ++ toLe 8 b.trec.addr ++ toLe 4 b.index
    ++ toLe 1 b.trec.gwin ++ toLe 1 b.trec.bwin ++ toLe 1 b.trec.rb ++ toLe 1 b.trec.mg
    ++ toLe 2 b.lines ++ toLe 2 packets ++ toLe 2 marks ++ toLe 2 0
    ++ copies 16 0 ++ toLe 8 b.stampbase.toNat ++ toLe 8 b.stampseq.toNat ++ toLe 8 b.stampdrop.toNat
    ++ toLe 8 b.prstimeout.toNat ++ toLe 8 b.mtest.toNat
    ++ toLe 8 b.tvec.toNat ++ toLe 8 b.tframe.toNat ++ toLe 8 b.mbox.toNat ++ copies 16 0
    ++ padTo 128 (b.groups.map (fun g => toLe 1 (g.vv.toNat / 128) ++ toLe 1 (g.vw.toNat / 128)
        ++ toLe 1 (g.vt.toNat / 128) ++ toLe 2 (g.va.toNat / 128) ++ copies 3 0)).flatten
    ++ b.presence 256)

/-- Bytes of the parts of a context before the abandoned packets (R213, R214). -/
def ctxBase (t : TaskRec) (g validRb boundMg : Nat) : Nat :=
  896 + g * (1600 + 1024 * t.gwin) + 4096 * t.bwin + 4096 * validRb + 4096 * boundMg + spallocOf t

/-- The size of a save-ring slot of a task (R236). -/
def slotSize (t : TaskRec) : Nat :=
  (ctxBase t t.groups t.rb t.mg + 64 * 32 + 4 * 256 + 4095) / 4096 * 4096

/-- The context bytes of a block without its packets and marks; `gs` gives each group's 1,600 bytes. A row buffer's planes and a mitten
group's elements stand in the order in which the model holds them (log entry 68). -/
def Block.ctxBytes (b : Block) (hdr : List Byte) (gs : List (List Byte)) : List Byte :=
  hdr ++ b.barBytes ++ b.seqBytes
  ++ ((gs.zip b.groups).map (fun x => x.1 ++ bytesOf ((winWords x.2.win b.gwinBytes).map (fun w => w.val)))).flatten
  ++ bytesOf ((winWords b.bwin b.bwinBytes).map (fun w => w.val))
  ++ (b.validRbs.map (fun r => bytesOf (tgets 0 (tget RowBuf.none b.rbs r).planes 0 1024))).flatten
  ++ (b.boundMgs.map (fun g => tgets 0 (tget Mitten.none b.mgs g).el 0 4096)).flatten
  ++ tgets 0 b.scr 0 (spallocOf b.trec)

/-- Offset of group g in a context. -/
def grpOff (t : TaskRec) (g : Nat) : Nat := 896 + g * (1600 + 1024 * t.gwin)

/-- The words of a context that carry residues with their byte offsets in it. -/
def Block.ctxRes (b : Block) (res : Group → List (Nat × RWord)) : List (Nat × RWord) :=
  let t := b.trec
  let gs := (b.groups.map (fun g =>
    let o := grpOff t g.num
    (res g).map (fun x => (o + 4 * x.1, x.2)) ++
      (g.win.filter (fun x => decide (x.1 < b.gwinBytes / 4))).map (fun x => (o + 1600 + 4 * x.1, x.2)))).flatten
  gs ++ (b.bwin.filter (fun x => decide (x.1 < b.bwinBytes / 4))).map (fun x => (grpOff t b.groups.length + 4 * x.1, x.2))

/-- Words restored into a window from context bytes at an offset, marked where the image lists them. -/
def backWin (bs : List Byte) (marks : List Nat) (off words : Nat) : Sparse RWord :=
  tsets RWord.zero [] 0 ((upFrom 0 words).map (fun i =>
    let v : W32 := BitVec.ofNat 32 (leAt bs (off + 4 * i) 4)
    if off + 4 * i ∈ marks then Sys2Proof.Machine.marked v else fresh v))

/-- A stream read back from its state bytes, over what the image does not hold. -/
def backStream (old : Stream) (pc state part og : Nat) : Stream :=
  { old with pc := pc, running := bitOf state 0, owner := fld state 4 1, again := bitOf state 5,
             part := BitVec.ofNat 16 part, og := og, hdr := if old.pc = pc then old.hdr else pc,
             entered := if old.pc = pc then old.entered else false, wait := none, fetched := [] }

/-- A block restored from a context image (R211, R217): groups in `skip` keep their state and window. -/
def backBlock (bs : List Byte) (old : Block) (skip : List Nat) : Block :=
  let t := old.trec
  let g := old.groups.length
  let npk := leAt bs 0x1A 2
  let nmk := leAt bs 0x1C 2
  let q := 640
  let rbst := (upFrom 0 4).map (fun r => leAt bs (q + 0x2C + 2 * r) 2)
  let mgst := (upFrom 0 16).map (fun r => leAt bs (q + 0x34 + r) 1)
  let valid := (upFrom 0 4).filter (fun r => bitOf (nth 0 rbst r) 0)
  let bound := (upFrom 0 16).filter (fun r => bitOf (nth 0 mgst r) 0)
  let oBwin := grpOff t g
  let oRb := oBwin + 4096 * t.bwin
  let oMg := oRb + 4096 * valid.length
  let oSp := oMg + 4096 * bound.length
  let oPk := oSp + spallocOf t
  let oMk := oPk + 64 * npk
  let marks := (upFrom 0 nmk).map (fun i => leAt bs (oMk + 4 * i) 4)
  let grp := fun (x : Group) =>
    if x.num ∈ skip then x
    else
      let o := grpOff t x.num
      let gb := (bs.drop o).take 1600
      let gm := (marks.filter (fun m => decide (o ≤ m) && decide (m < o + 1600))).map (fun m => (m - o) / 4)
      { backGroup gb gm x with
        win := backWin bs marks (o + 1600) (old.gwinBytes / 4),
        vv := BitVec.ofNat 64 (128 * leAt bs (0x80 + 8 * x.num) 1),
        vw := BitVec.ofNat 64 (128 * leAt bs (0x81 + 8 * x.num) 1),
        vt := BitVec.ofNat 64 (128 * leAt bs (0x82 + 8 * x.num) 1),
        va := BitVec.ofNat 64 (128 * leAt bs (0x83 + 8 * x.num) 2) }
  { old with
    groups := old.groups.map grp,
    bars := tsets Bar.zero [] 0 ((upFrom 0 16).map (fun n => backBar (leAt bs (512 + 8 * n) 8))),
    ms := backStream old.ms (leAt bs q 6) (leAt bs (q + 0x2A) 2) (leAt bs (q + 0x28) 2) 0,
    cs := backStream old.cs (leAt bs (q + 0x80) 6) (leAt bs (q + 0x88) 2) (leAt bs (q + 0x8A) 2) (leAt bs (q + 0x8C) 1),
    ix := tsets 0 [] 1 ((upFrom 0 7).map (fun i => BitVec.ofNat 32 (leAt bs (q + 8 + 4 * i) 4))),
    area := leAt bs (q + 0x24) 1, ogrp := leAt bs (q + 0x25) 1, afmt := leAt bs (q + 0x26) 2,
    rbs := tsets RowBuf.none [] 0 ((upFrom 0 4).map (fun r =>
      let w := nth 0 rbst r
      if bitOf w 0 then ⟨true, fld w 5 1, fld w 9 6,
        tsets 0 [] 0 (wordsOf ((bs.drop (oRb + 4096 * (valid.filter (fun y => decide (y < r))).length)).take 4096))⟩
      else RowBuf.none)),
    mgs := tsets Mitten.none [] 0 ((upFrom 0 16).map (fun r =>
      let w := nth 0 mgst r
      if bitOf w 0 then ⟨true, fld w 2 1, bitOf w 3,
        tsets 0 [] 0 ((bs.drop (oMg + 4096 * (bound.filter (fun y => decide (y < r))).length)).take 4096)⟩
      else Mitten.none)),
    bwin := backWin bs marks oBwin (old.bwinBytes / 4),
    scr := tsets 0 [] 0 ((bs.drop oSp).take (spallocOf t)),
    absent := (upFrom 0 old.lines).filter (fun i => !bitOf (nth 0 bs (0x100 + i / 8)).toNat (i % 8)),
    stampbase := BitVec.ofNat 64 (leAt bs 0x30 8), stampseq := BitVec.ofNat 64 (leAt bs 0x38 8),
    stampdrop := BitVec.ofNat 64 (leAt bs 0x40 8), prstimeout := BitVec.ofNat 64 (leAt bs 0x48 8),
    mtest := BitVec.ofNat 64 (leAt bs 0x50 8), tvec := BitVec.ofNat 64 (leAt bs 0x58 8),
    tframe := BitVec.ofNat 64 (leAt bs 0x60 8), mbox := BitVec.ofNat 64 (leAt bs 0x68 8) }

/-- The abandoned packets of a context image, in order (R146). -/
def imagePackets (bs : List Byte) (t : TaskRec) (g : Nat) : List (List Byte) :=
  let q := 640
  let valid := ((upFrom 0 4).filter (fun r => bitOf (leAt bs (q + 0x2C + 2 * r) 2) 0)).length
  let bound := ((upFrom 0 16).filter (fun r => bitOf (leAt bs (q + 0x34 + r) 1) 0)).length
  let o := ctxBase t g valid bound
  (upFrom 0 (leAt bs 0x1A 2)).map (fun i => (bs.drop (o + 64 * i)).take 64)

/-- The size of a context image with its packets and marks (R214). -/
def imageSize (bs : List Byte) (t : TaskRec) (g : Nat) : Nat :=
  let q := 640
  let valid := ((upFrom 0 4).filter (fun r => bitOf (leAt bs (q + 0x2C + 2 * r) 2) 0)).length
  let bound := ((upFrom 0 16).filter (fun r => bitOf (leAt bs (q + 0x34 + r) 1) 0)).length
  ctxBase t g valid bound + 64 * leAt bs 0x1A 2 + 4 * leAt bs 0x1C 2

end Sys2Proof.Machine
end

