-- ==== Sys2Proof/Machine/Dist.lean ====
section
/-! DEFINITION. Task records, the ready pool, ticket counters and stealing, cluster slots, and the end of a block (R222,
R223, R234 to R243). -/
namespace Sys2Proof.Machine

/-- The task record at a physical address, released by a virtual one (R234). -/
def State.readRec (s : State) (a va : Nat) : TaskRec :=
  let bs := s.homeBytes a 128
  let n := fun o k => leAt bs o k
  { addr := va, code := n 0 6, vv := n 6 1, vw := n 7 1, mentry := n 8 6, vt := n 0x0E 1, centry := n 0x10 6, va := n 0x16 2,
    save := n 0x18 8, spill := n 0x20 8, grid := n 0x28 4, sstride := n 0x30 2, spb := n 0x32 4, groups := n 0x36 1,
    lanes := n 0x37 1, gwin := n 0x38 1, bwin := n 0x39 1, frame := n 0x3A 1, rb := n 0x3B 1 / 32, mg := n 0x3B 1 % 32,
    rex := bitOf (n 0x3C 1) 3, pri := n 0x3C 1 % 8, part := n 0x3D 1, slots := n 0x3E 1,
    opnd := (upFrom 0 8).map (fun i => n (0x40 + 8 * i) 8) }

/-- Every field of a record is within its limits (R234, R69). -/
def State.recOk (s : State) (a : Nat) (t : TaskRec) : Bool :=
  let bs := s.homeBytes a 128
  decide (t.va < 1024) && decide (leAt bs 0x0F 1 = 0) && decide (t.save % 4096 = 0) && decide (t.spill % 64 = 0)
  && decide (leAt bs 0x2C 4 < 0x80000000) && decide (t.spb ≤ 0x100000) && decide (1 ≤ t.groups) && decide (t.groups ≤ 16)
  && decide (1 ≤ t.lanes) && decide (t.lanes ≤ 32) && decide (1 ≤ t.gwin) && decide (t.gwin ≤ 32) && decide (t.bwin ≤ 32)
  && (decide (t.frame = 0) || (decide (2 ≤ t.frame) && decide (t.frame ≤ 124)
      && decide (t.frame * 128 + 128 * t.vv ≤ 1024 * t.gwin)))
  && decide (t.rb ≤ 4) && decide (t.mg ≤ 16) && decide (leAt bs 0x3C 1 < 16) && decide (t.part < 24)
  && t.opnd.all (fun o => decide (o / 2 ^ 62 = 0) || (decide (9 ≤ fld o 61 56) && decide (fld o 61 56 ≤ 40)))

/-- The state byte of a record. -/
def State.taskState (s : State) (a : Nat) : Nat := s.homeLe (a + 0x3F) 1

/-- Write the state byte of a record at its home (R237). -/
def State.setTask (s : State) (a st : Nat) : State := s.homeWrite (a + 0x3F) (toLe 1 st)

/-- The dies on which a partition holds slices, ascending (R239). -/
def State.partDies (s : State) (p : Nat) : List Nat :=
  (upFrom 0 4).filter (fun d => (s.part p).cfg.slices.any (fun sl => decide (sl / 8 = d)))

/-- How many indices below `total` rank `r` of `d` dies owns (R239). -/
def rankCount (d r total : Nat) : Nat := 8 * (total / (8 * d)) + min 8 (total % (8 * d) - 8 * r)

/-- The index at a position of a rank's share (R239). -/
def indexAt (d r p : Nat) : Nat := p / 8 * 8 * d + 8 * r + p % 8

/-- The record-and-replay descriptor a partition's releases take; none when its address is 0 or its mode is off (R279). -/
def State.readRr (s : State) (p : Nat) : Option RrDesc :=
  let a := (s.part p).rrdesc.toNat
  if a = 0 then none
  else match s.vaPieces p .rd a 192, s.xlateNow p .rd (a + 0x20) with
    | .inl ps, .ok pc =>
      let bs := s.pieceBytes ps
      let n := fun o k => leAt bs o k
      let mode := n 0 1 % 4
      if mode = 1 ∨ mode = 2 then
        some ⟨(ps.headD (0, 0)).1, pc, mode, n 2 1, n 4 4, n 8 8, n 0x10 8, n 0x18 8, n 0x20 4, n 0x24 4, n 0x28 8, n 0x30 4,
          (upFrom 0 (min (n 1 1) 15)).map (fun i => (n (0x40 + 8 * i) 4, n (0x44 + 8 * i) 1 % 16)), (s.part p).releases⟩
      else none
    | _, _ => none

/-- The record-and-replay positions of a descriptor as a release has read it (R279). -/
def State.rrPos (s : State) (p : Nat) (d : RrDesc) : RrPos := tget RrPos.start (s.part p).rr d.rel
def State.setRr (s : State) (p : Nat) (d : RrDesc) (x : RrPos) : State :=
  s.setPart p { s.part p with rr := tset RrPos.start (s.part p).rr d.rel x }

/-- Chunk `k` of a replay log (R219). -/
def State.rrChunk (s : State) (p : Nat) (d : RrDesc) (k : Nat) : Nat :=
  match s.xlateNow p .rd (d.logBase + 2 * k) with
  | .ok pa => s.homeLe pa 2
  | _ => 0

/-- A release of a task whose dep has reached 0 (R237, R279). -/
def State.release (s : State) (a va : Nat) : State :=
  let t := s.readRec a va
  if s.recOk a t then
    let total := if t.grid = 0 then 2 ^ 32 else t.grid
    let ds := s.partDies t.part
    let d := ds.length
    let rr := s.readRr t.part
    let s1 := match rr with
      | none => s
      | some r =>
        let u := s.setPart t.part { s.part t.part with releases := r.rel + 1 }
        if r.mode = 1 then (u.setRr t.part r .start).homeWrite r.cntAt (toLe 4 0)
        else
          let c := s.rrChunk t.part r 0
          u.setRr t.part r ⟨0, c % 4096, c / 4096, false, []⟩
    let shares := (ds.zip (upFrom 0 d)).map (fun x => (x.1, [(⟨x.2, 0, rankCount d x.2 total⟩ : ShareRun)]))
    let g : Grid := ⟨a, t, total, ds, shares, [], [], false, rr⟩
    { (s1.setTask a 1) with grids := s1.grids.filter (fun x => decide (x.task ≠ a)) ++ [g] }
  else s.setTask a 4

/-- The grid of a task in the pool. -/
def State.grid (s : State) (a : Nat) : Option Grid := firstOf (fun g => decide (g.task = a)) s.grids

/-- Replace a grid. -/
def State.updGrid (s : State) (a : Nat) (f : Grid → Grid) : State :=
  { s with grids := mapIf (fun g => decide (g.task = a)) f s.grids }

/-- A die's share of a grid. -/
def Grid.share (g : Grid) (d : Nat) : List ShareRun := tget [] g.shares d

/-- Untaken indices of a share. -/
def untaken : List ShareRun → Nat
  | [] => 0
  | r :: rest => (r.hi - r.lo) + untaken rest

/-- The run of a share whose next index is lowest. -/
def nextRun (d : Nat) (rs : List ShareRun) : Option ShareRun :=
  (rs.filter (fun r => decide (r.lo < r.hi))).foldl (fun best r => match best with
    | none => some r
    | some b => if indexAt d r.rank r.lo < indexAt d b.rank b.lo then some r else some b) none

/-- Take the next index of a die's share in ascending order (R239). -/
def Grid.take (g : Grid) (die : Nat) : Option (Nat × Grid) :=
  let d := g.dies.length
  match nextRun d (g.share die) with
  | none => none
  | some r =>
    let rs := mapIf (fun x => decide (x = r)) (fun x => { x with lo := x.lo + 1 }) (g.share die)
    some (indexAt d r.rank r.lo, { g with shares := tset [] g.shares die (rs.filter (fun x => decide (x.lo < x.hi))) })

/-- Untaken indices of a share at or above a threshold. -/
def countFrom (d t : Nat) : List ShareRun → Nat
  | [] => 0
  | r :: rest => (r.hi - min r.hi (max r.lo (rankCount d r.rank t))) + countFrom d t rest

/-- The largest threshold, found bit by bit, at or above which at least `want` untaken indices stand. -/
def threshold (d want : Nat) (rs : List ShareRun) : Nat → Nat → Nat
  | 0, t => t
  | k + 1, t => if want ≤ countFrom d (t + 2 ^ k) rs then threshold d want rs k (t + 2 ^ k) else threshold d want rs k t

/-- Steal for a die whose share is empty (R240): the upper half of the richest die's indices; with `one` a single index is
handed over too. -/
def Grid.steal (g : Grid) (die : Nat) (one : Bool) : Option Grid :=
  let d := g.dies.length
  let best := g.dies.foldl (fun b x => if (untaken (g.share b)) < untaken (g.share x) then x else b) (nth 0 g.dies 0)
  let rs := g.share best
  let r := untaken rs
  if best = die then none
  else if r = 0 ∨ (r = 1 ∧ !one) then none
  else
    let want := if r = 1 then 1 else r / 2
    let t := threshold d want rs 33 0
    let cut := fun (x : ShareRun) => min x.hi (max x.lo (rankCount d x.rank t))
    let mine := (rs.map (fun x => { x with lo := cut x })).filter (fun x => decide (x.lo < x.hi))
    let left := (rs.map (fun x => { x with hi := cut x })).filter (fun x => decide (x.lo < x.hi))
    some { g with shares := tset [] (tset [] g.shares best left) die mine }

/-- Take an index for a die, stealing when its share is empty; the flag says that a steal was made. -/
def Grid.takeFor (g : Grid) (die : Nat) (one : Bool) : Option (Nat × Grid × Bool) :=
  match g.take die with
  | some (i, g') => some (i, g', false)
  | none => match g.steal die one with
    | none => none
    | some g' => match g'.take die with
      | some (i, g'') => some (i, g'', true)
      | none => none

/-- Every index of a grid has been taken. -/
def Grid.allTaken (g : Grid) : Bool := g.dies.all (fun d => decide (untaken (g.share d) = 0)) && g.retry.isEmpty

/-- The cores of a partition. -/
def State.coresOf (s : State) (p : Nat) : List Nat := ((s.part p).cfg.slices.map (fun sl => upFrom (8 * sl) 8)).flatten

/-- Publish every core of a partition (R237, R381). -/
def State.publishPart (s : State) (p : Nat) : State := (s.coresOf p).foldl State.publish s

/-- Every access that a partition's cores have issued is complete (R395). -/
def State.partQuiet (s : State) (p : Nat) : Bool := (s.coresOf p).all s.quietCore

/-- What a partition's cores have published has been applied here, mirror sectors included (R362). -/
def State.partSettled (s : State) (p : Nat) : Bool := (s.coresOf p).all s.pubSettled

/-- A cluster of a die by its number. -/
def State.cluster (s : State) (d cid : Nat) : Option Cluster := firstOf (fun c => decide (c.cid = cid)) (s.die d).clusters

/-- Set a slot of a cluster; a cluster with no slot occupied or away is freed (R222, R223). -/
def State.setSlot (s : State) (d cid slot : Nat) (v : SlotSt) : State :=
  let k := s.die d
  let cs := mapIf (fun c => decide (c.cid = cid)) (fun c => { c with slots := tset SlotSt.empty c.slots slot v }) k.clusters
  let busy := fun (c : Cluster) => c.slots.any (fun x => match x.2 with
    | .occupied _ => true
    | .away _ => true
    | _ => false)
  s.setDie d { k with clusters := cs.filter (fun c => decide (c.cid ≠ cid) || busy c) }

/-- The slots of a cluster that are occupied or away (R225). -/
def Cluster.members (c : Cluster) : Nat :=
  (c.slots.filter (fun x => match x.2 with
    | .occupied _ => true
    | .away _ => true
    | _ => false)).length

/-- Accesses that wait for presence are abandoned and have not issued: their counters fall (R200, R229). -/
def State.unhold (s : State) (c : Nat) (p : Outst → Bool) : State :=
  let k := s.core c
  let gone := fun (o : Outst) => decide (o.held ≠ 0) && p o
  if k.outs.any gone then
    (k.outs.filter gone).foldl (fun t o => t.updGrp o.blk o.grp (fun g =>
      if o.sb < 6 then { g with sb := tset 0 g.sb o.sb (tget 0 g.sb o.sb - 1) } else g))
      (s.setCore c { k with outs := k.outs.filter (fun o => !gone o) })
  else s

/-- A slot is about to become away or vacated: the member accesses that have resolved to it are performed first (R226, R230), and a
word that waits for presence there is resolved again, its wait on the slot counted from now (R229). -/
def State.closeSlot (s : State) (b : Block) (slot : Nat) : State :=
  let mine := fun (o : Outst) => decide (b.id ∈ o.spots)
  let there := fun (o : Outst) => decide (o.held = 1) && decide (o.blk ≠ b.id) && mine o
  (s.cores.map Prod.fst).foldl (fun t c =>
    let who := ((t.core c).outs.filter there).map (fun o => (o.blk, o.grp))
    who.foldl (fun u x => u.updGrp x.1 x.2 (fun g => match g.wait with
      | some w => if w.on = .presence then { g with wait := some { w with on := .slot, start := s.cycle, ready := false, slots := [slot] } } else g
      | none => g)) ((t.flush c mine).unhold c there)) s

/-- A slot is occupied: the words parked on it alone issue again (R225, R228, R230). Where such a word parks once more its `cr.joinwin` count
starts afresh (log entry 79). -/
def State.fillSlot (s : State) (d cid slot bid : Nat) : State :=
  let s1 := s.setSlot d cid slot (.occupied bid)
  let free := fun (g : Group) => match g.wait with
    | some w => if w.on = .slot then
        { g with wait := if w.slots.all (fun n => decide (n = slot)) then none else some { w with slots := w.slots.filter (fun n => decide (n ≠ slot)) } }
        else g
    | none => g
  { s1 with blocks := s1.blocks.map (fun b =>
      if decide (dieOf b.core = d) && (match b.cl with | some (i, _) => decide (i = cid) | none => false) then { b with groups := b.groups.map free } else b) }

/-- A block leaves its cluster: its slot becomes vacated (R226, R223). -/
def State.leaveCluster (s : State) (b : Block) (die : Nat) : State :=
  match b.cl with
  | none => s
  | some (cid, slot) => ((s.closeSlot b slot).setSlot die cid slot .vacated).updBlk b.id (fun x => { x with cl := none })

/-- Write a task's state byte once the accesses of the partition's cores are complete, and what they have then published has been applied
here (R237, R362, R395). -/
def State.endTask (s : State) (p a st : Nat) : State :=
  if !s.partQuiet p then s
  else
    let s1 := s.publishPart p
    if s1.partSettled p then s1.setTask a st else s1

/-- The task's state after a block of it is gone: done when every index is taken and nothing is resident or saved; a failed
task leaves the pool when its last block is gone (R237). -/
def State.checkDone (s : State) (a : Nat) : State :=
  match s.grid a with
  | none => s
  | some g =>
    let gone := fun (t : State) (st : Nat) =>
      if t.taskState a = st then { t with grids := t.grids.filter (fun x => decide (x.task ≠ a)) } else t
    if g.failed then
      let s1 := if s.taskState a = 4 then s else s.endTask g.trec.part a 4
      if s.blocks.any (fun b => decide (b.task = a)) then s1 else gone s1 4
    else if s.blocks.any (fun b => decide (b.task = a)) || s.saved.any (fun x => decide (x.blk.task = a)) then s
    else if g.allTaken then gone (s.endTask g.trec.part a 3) 3
    else s

/-- Tasks that have waited for accesses or for a publication alone end (R237, R362, R395). -/
def State.endTasks (s : State) : State := s.grids.foldl (fun t g => t.checkDone g.task) s

/-- A task fails: it places no further blocks, and its saved blocks are terminated, their cluster slots vacated (R237, R223). -/
def State.failTask (s : State) (a : Nat) : State :=
  match s.grid a with
  | none => s.setTask a 4
  | some _ =>
    let s1 := (s.saved.filter (fun x => decide (x.blk.task = a))).foldl (fun t x => match x.blk.cl, x.die with
      | some (cid, slot), some d => t.setSlot d cid slot .vacated
      | _, _ => t) s
    let s2 := { s1 with saved := s1.saved.filter (fun x => decide (x.blk.task ≠ a)) }
    (s2.updGrid a (fun g => { g with failed := true, shares := [], retry := [] })).checkDone a

/-- A resident block is gone: it leaves its cluster, its resources are free with it, and its task's state follows (R170,
R203, R226, R237). -/
def State.removeBlock (s : State) (b : Block) : State :=
  let s1 := (s.leaveCluster b (dieOf b.core)).flush b.core (fun o => decide (o.blk = b.id))
  let k := s1.core b.core
  let gone := fun (x : Option (Nat × Nat)) => match x with
    | some (i, _) => if i = b.id then none else x
    | none => none
  let s2 := s1.setCore b.core { k with
    outs := k.outs.filter (fun o => decide (o.blk ≠ b.id)), fails := k.fails.filter (fun w => decide (w.blk ≠ b.id)),
    quads := k.quads.map (fun q => (q.1, { q.2 with cur := gone q.2.cur, holder := gone q.2.holder })) }
  { s2 with blocks := s2.blocks.filter (fun x => decide (x.id ≠ b.id)) }

end Sys2Proof.Machine
end

