-- ==== Sys2Proof/Machine/CopyQ.lean ====
section
/-! DEFINITION. Copy queues and packets: headers, slots, owner words, abandoned packets and their re-posting, the bytes that
a local packet moves, chunks, completion records (R146, R252 to R260, R296). -/
namespace Sys2Proof.Machine

/-- A field of a queue header (R252). -/
def State.qField (s : State) (off o n : Nat) : Nat := s.homeLe (syncBase + off + o) n
def State.qWidx (s : State) (off : Nat) : Nat := s.qField off 0 4
def State.qRidx (s : State) (off : Nat) : Nat := s.qField off 4 4
def State.qLg (s : State) (off : Nat) : Nat := min (s.qField off 0x10 1) 14
def State.qSize (s : State) (off : Nat) : Nat := 2 ^ s.qLg off
def State.qStopped (s : State) (off : Nat) : Bool := decide (s.qField off 0x11 1 = 2)

/-- The lap parity of an index (R253). -/
def State.qLap (s : State) (off i : Nat) : Nat := i / s.qSize off % 2

/-- The slot of an index is free: ridx > i - 2^lg, indices counted modulo 2^32 (R253). -/
def State.qFree (s : State) (off i : Nat) : Bool := decide ((i + 2 ^ 32 - s.qRidx off) % 2 ^ 32 < s.qSize off)

/-- A queue bound to an engine of a partition whose header stands at a sync offset (R252). -/
def State.queueAt (s : State) (part off : Nat) : Option CQueue :=
  firstOf (fun q => decide (q.part = part) && decide (q.off = off)) s.queues

/-- Replace a queue by its number. -/
def State.updQ (s : State) (q : Nat) (f : CQueue → CQueue) : State :=
  { s with queues := mapIf (fun x => decide (x.num = q)) f s.queues }

def State.queue (s : State) (q : Nat) : Option CQueue := firstOf (fun x => decide (x.num = q)) s.queues

/-- Where a byte of a queue's ring stands; none where the ring lies outside the partition's memory (log entry 26). -/
def State.ringByte (s : State) (q : CQueue) (va : Nat) : Option Nat :=
  match s.xlateNow q.part .rd va with
  | .ok pa => some pa
  | _ => if (inVault va || inHbm va) && s.owns q.part va then some va else none

/-- Where the slot of an index stands, its first and its last byte in the partition's memory; none where it does not (R7; log entry 26). -/
def State.qSlot (s : State) (q : CQueue) (i : Nat) : Option Nat :=
  let va := s.qField q.off 8 8 + 64 * (i % s.qSize q.off)
  match s.ringByte q va, s.ringByte q (va + 63) with
  | some pa, some e => if e = pa + 63 then some pa else none
  | _, _ => none

/-- The 64 bytes in the slot of an index; with no slot, bytes that are never valid for it. -/
def State.qPacket (s : State) (q : CQueue) (i : Nat) : List Byte :=
  match s.qSlot q i with
  | some pa => s.homeBytes pa 64
  | none => copies 3 0 ++ [BitVec.ofNat 8 (128 * (1 - s.qLap q.off i))] ++ copies 60 0

/-- The slot of an index is valid for it (R253). -/
def State.qValid (s : State) (q : CQueue) (i : Nat) : Bool :=
  decide (leAt (s.qPacket q i) 3 1 / 128 = s.qLap q.off i)

/-- Write a packet into the slot of an index: bytes 4 to 63, then word 0 with V the lap parity (R253, R259). -/
def State.qWrite (s : State) (q : CQueue) (i : Nat) (pkt : List Byte) : State :=
  let w0 := leAt pkt 0 4 % 2 ^ 31 + 2 ^ 31 * s.qLap q.off i
  match s.qSlot q i with
  | some pa => (s.homeWrite (pa + 4) ((padTo 64 pkt).drop 4)).homeWrite pa (toLe 4 w0)
  | none => s

/-- A byte of the sync window stands in an area of a partition (R7, R246). -/
def State.syncOwn (s : State) (part a : Nat) : Bool := decide (regionOf a = .sync) && decide (syncSlice a ∈ (s.part part).cfg.slices)

/-- An engine's write in the sync window: to areas of its partition, first and last byte, and nowhere else (R7, R246, R252). -/
def State.syncPut (s : State) (part a : Nat) (bs : List Byte) : State :=
  if s.syncOwn part a ∧ s.syncOwn part (a + (bs.length - 1)) then s.homeWrite a bs else s

/-- Claim the next index of a queue at its home. -/
def State.qClaim (s : State) (off : Nat) : Nat × State :=
  let i := s.qWidx off
  (i, s.homeWrite (syncBase + off) (toLe 4 (i + 1)))

/-- The owner word of a block's packet (R254). -/
def ownerWord (b : Block) (g : Nat) (str : Bool) : Nat :=
  b.seq % 256 + 2 ^ 8 * (g % 16) + 2 ^ 12 * (b.resNo % 64) + 2 ^ 18 * (b.core % 256) + (if str then 2 ^ 26 else 0) + 2 ^ 31

/-- A packet carries a block's owner word. -/
def ownedBy (b : Block) (pkt : List Byte) : Bool :=
  let w := leAt pkt 4 4
  decide (w / 2 ^ 31 = 1) && decide (fld w 25 18 = b.core) && decide (fld w 17 12 = b.resNo) && decide (fld w 7 0 = b.seq % 256)

/-- The resident block that a packet's owner word names (R254). -/
def State.ownerBlk (s : State) (pkt : List Byte) : Option Block := firstOf (fun b => ownedBy b pkt) s.blocks

/-- A packet came from `cpost`. -/
def posted (pkt : List Byte) : Bool := decide (leAt pkt 4 4 / 2 ^ 31 = 1)

/-- The packet that the claimed index of a queue holds or will hold: a slot speaks for an index only once it is free for it (R253). -/
def State.qAt (s : State) (q : CQueue) (i : Nat) : Option (List Byte) :=
  match firstOf (fun c => decide (c.idx = i)) q.kept with
  | some c => some c.pkt
  | none => if s.qFree q.off i && s.qValid q i then some (s.qPacket q i) else none

/-- The claimed indices of a queue that no engine has begun, in order: beyond those whose slots the ring has, or will have next, only a kept
packet stands for one (R253, R260). -/
def State.unbegunIdx (s : State) (q : CQueue) : List Nat :=
  let r := s.qRidx q.off
  let start := match q.infl with | some f => f.idx + 1 | none => r
  let n := (s.qWidx q.off + 2 ^ 32 - start) % 2 ^ 32
  let far := fun (i : Nat) => (i + 2 ^ 32 - start % 2 ^ 32) % 2 ^ 32
  (upFrom start (min n (2 * s.qSize q.off))).map (fun i => i % 2 ^ 32)
    ++ (sortBy far (q.kept.map (fun c => c.idx))).filter (fun i => decide (2 * s.qSize q.off ≤ far i) && decide (far i < n))

/-- The claimed indices of a queue that no engine has begun, in order, with their packets; abandoned ones left out. -/
def State.unbegun (s : State) (q : CQueue) : List (Nat × List Byte) :=
  (s.unbegunIdx q).filterMap (fun i =>
    if i ∈ q.abandoned then none
    else match s.qAt q i with
      | some p => some (i, p)
      | none => none)

/-- A packet as a save area lists it: V zero and the owner word replaced by its queue's number (R146). -/
def savedPacket (q : Nat) (pkt : List Byte) : List Byte :=
  toLe 4 (leAt pkt 0 4 % 2 ^ 31) ++ toLe 4 (q % 1024) ++ (padTo 64 pkt).drop 8

/-- Mark every unbegun packet of one queue that a block owns as abandoned (R146, R263). -/
def State.abandonIn (s : State) (b : Block) (q : CQueue) : State × List (List Byte) :=
  let mine := (s.unbegun q).filter (fun x => ownedBy b x.2)
  (s.updQ q.num (fun x => { x with abandoned := x.abandoned ++ mine.map Prod.fst }), mine.map (fun x => savedPacket q.num x.2))

/-- Abandon every unbegun packet of a block, in queue order, and list them (R146). -/
def State.abandonAll (s : State) (b : Block) : State × List (List Byte) :=
  s.queues.foldl (fun acc q =>
    match acc.1.queue q.num with
    | none => acc
    | some q' => let r := acc.1.abandonIn b q'
                 (r.1, acc.2 ++ r.2)) (s, [])

/-- A claimed post that a stop ends: the queue logic keeps its packet and it is abandoned (R260). -/
def State.keepClaim (s : State) (part : Nat) (c : Claim) : State :=
  match s.queueAt part c.qoff with
  | none => s
  | some q => s.updQ q.num (fun x => { x with kept := x.kept ++ [c], abandoned := x.abandoned ++ [c.idx] })

/-- The lowest-numbered group of a block that holds a fibre; group 0 when none does. -/
def Block.lowestHeld (b : Block) : Nat :=
  match firstOf (fun g => !g.ended && decide (g.heldLanes ≠ [])) b.groups with
  | some g => g.num
  | none => 0

/-- Re-post one listed packet for a block (R146): a number that names no queue of the partition drops it and leaves a
`copy-fault`. A packet whose slot is not yet free waits with the queue logic (log entry 27); the fresh owner word names group 0 and no
stream (log entry 66). -/
def State.repostOne (s : State) (bid : Nat) (pkt : List Byte) : State :=
  match s.blk bid with
  | none => s
  | some b =>
    let n := leAt pkt 4 4 % 1024
    match firstOf (fun q => decide (q.num = n) && decide (q.part = b.trec.part)) s.queues with
    | none =>
      s.updBlk bid (fun x => { x with pend := x.pend ++ [⟨0x10, x.lowestHeld, 0, 0, n * 2 ^ 54 + 0xFFFFFFFF, 0⟩] })
    | some q =>
      let (i, s1) := s.qClaim q.off
      let p := toLe 4 (leAt pkt 0 4) ++ toLe 4 (ownerWord b 0 false) ++ (padTo 64 pkt).drop 8
      if s1.qFree q.off i then s1.qWrite q i p
      else s1.updQ q.num (fun x => { x with kept := x.kept ++ [⟨q.off, i, p⟩] })

/-- Re-post the packets listed for a block (R146). -/
def State.repost (s : State) (bid : Nat) : State :=
  match s.blk bid with
  | none => s
  | some b => (b.repost.foldl (fun t p => t.repostOne bid p) s).updBlk bid (fun x => { x with repost := [] })

/-- Write the kept packets of a queue whose slots have become free (R260). -/
def State.writeKept (s : State) (q : Nat) : State :=
  match s.queue q with
  | none => s
  | some k =>
    let ready := k.kept.filter (fun c => s.qFree k.off c.idx)
    (ready.foldl (fun t c => t.qWrite k c.idx c.pkt) s).updQ q
      (fun x => { x with kept := x.kept.filter (fun c => !s.qFree k.off c.idx) })

/-- The mode of a packet (R254). -/
def pktMode (p : List Byte) : Nat := leAt p 0 4 / 2 ^ 27 % 16
def pktCb (p : List Byte) : Nat := leAt p 0 4 / 2 ^ 16 % 256
def pktTag (p : List Byte) : Nat := leAt p 0 4 % 2 ^ 16
def pktSrc (p : List Byte) : Nat := leAt p 8 8
def pktDst (p : List Byte) : Nat := leAt p 16 8
def pktLen (p : List Byte) : Nat := leAt p 0x18 4
def pktRows (p : List Byte) : Nat := leAt p 0x1C 4

/-- The ranges of bytes from 0x08 that a mode uses (R254, R256, R335). -/
def usedBytes (mode : Nat) : List (Nat × Nat) :=
  match mode with
  | 0 => [(8, 0x1C)]
  | 1 => [(8, 0x28)]
  | 2 => [(8, 0x24)]
  | 3 => [(8, 0x2B), (0x2C, 0x3C)]
  | 4 => [(8, 0x18), (0x1C, 0x20)]
  | 5 => [(0x10, 0x1C), (0x28, 0x2C)]
  | 6 => [(8, 0x1C), (0x28, 0x2C)]
  | 7 => [(8, 0x1C), (0x28, 0x2C)]
  | 8 => [(8, 0x1C), (0x28, 0x30)]
  | 9 => [(8, 0x18), (0x28, 0x40)]
  | 15 => ((upFrom 1 7).map (fun i => [(8 * i + 2, 8 * i + 8)])).flatten
  | _ => []

/-- Every byte that the mode does not use is zero, and the mode exists (R254). -/
def pktClean (p : List Byte) : Bool :=
  let u := usedBytes (pktMode p)
  !u.isEmpty && decide (leAt p 0 4 / 2 ^ 24 % 8 = 0)
  && (decide (pktMode p ≠ 15) || (upFrom 1 7).all (fun i => decide (leAt p (8 * i + 3) 1 < 4)))
  && (upFrom 8 56).all (fun o => decide (nth 0 p o = 0) || u.any (fun r => decide (r.1 ≤ o) && decide (o < r.2)))

/-- Where one byte of the destination stream comes from. -/
inductive CopySrc where
  | at (a : Nat)
  | pat (v : Nat)
  deriving DecidableEq, Repr

/-- One entry of a gather list: `| addr:64 | len:32 | 0:32 |`, the address in the high bits (R254). -/
def gatherEnt (bs : List Byte) : Nat × Nat := (leAt bs 8 8, leAt bs 4 4)

/-- Position p of the stream that a gather list forms. -/
def gatherAt : List (Nat × Nat) → Nat → Nat
  | [], _ => 0
  | (a, n) :: rest, p => if p < n then a + p else gatherAt rest (p - n)

/-- A signed 16-bit parameter. -/
def pktS16 (p : List Byte) (o : Nat) : Int := sgn 16 (leAt p o 2)

/-- Pixel `i` of a window packet: its address, or none where it is padding, and whether it overran the batch (R256). -/
def windowPixel (p : List Byte) (i : Nat) : Option Nat × Bool :=
  let h : Int := leAt p 0x20 2
  let w : Int := leAt p 0x22 2
  let ho := leAt p 0x24 2
  let wo := leAt p 0x26 2
  let st : Int := leAt p 0x2A 1
  let pp := leAt p 0x34 4 + i
  let n := pp / (ho * wo)
  let q := pp % (ho * wo)
  let iy := (q / wo : Nat) * st + pktS16 p 0x2C - (leAt p 0x30 2 : Nat)
  let ix := (q % wo : Nat) * st + pktS16 p 0x2E - (leAt p 0x32 2 : Nat)
  if leAt p 0x28 2 ≤ n then (none, true)
  else if iy < 0 ∨ h ≤ iy ∨ ix < 0 ∨ w ≤ ix then (none, false)
  else (some (pktSrc p + (((n : Int) * h + iy) * w + ix).toNat * pktLen p), false)

/-- Source and destination of byte `i` of the destination stream (R254 to R256); `gl` is the gather list. -/
def copyByte (p : List Byte) (gl : List (Nat × Nat)) (i : Nat) : CopySrc × Nat :=
  let len := pktLen p
  let dst := pktDst p
  match pktMode p with
  | 1 => (.at (pktSrc p + i / len * leAt p 0x20 4 + i % len), dst + i / len * leAt p 0x24 4 + i % len)
  | 2 => (.at (pktSrc p + i / len * leAt p 0x20 4 + i % len), dst + i)
  | 3 => match (windowPixel p (i / len)).1 with
    | some a => (.at (a + i % len), dst + i)
    | none => (.pat (leAt p (0x38 + i % len % 4) 1), dst + i)
  | 4 => (.at (gatherAt gl i), dst + i)
  | 5 => (.pat (leAt p (0x28 + i % 4) 1), dst + i)
  | _ => (.at (pktSrc p + i), dst + i)

/-- The host's view of an I/O virtual address: its key in host memory; none when the partition has no virtual function
(R296). -/
def State.hostKey (s : State) (part a : Nat) : Option Nat :=
  match leastOf (s.part part).cfg.vfs with
  | some v => some (v * 2 ^ 64 + (a - hostBase))
  | none => none

/-- The host completes a request for an address with an error (R296). -/
def State.hostRefuses (s : State) (k : Nat) : Bool := s.hostBad.any (fun r => decide (r.1 ≤ k) && decide (k < r.2))

/-- One byte that an engine reads for a packet: published memory, the owner's scratchpad, host memory, a sync window of the
partition; else a status of R257 (R255, R296, R139). The scratchpad of a block that is no longer resident gives status 2 (log entry
67). -/
def State.engineRead (s : State) (part : Nat) (own : Option Block) (a : Nat) : Byte ⊕ Nat :=
  match regionOf a with
  | .high => .inr 1
  | .gap => .inr 2
  | .host => match s.hostKey part a with
    | some k => if s.hostRefuses k then .inr 6 else .inl (tget 0 s.hostMem k)
    | none => .inr 6
  | .sync => if syncSlice a ∈ (s.part part).cfg.slices then .inl (s.homeByte a) else .inr 2
  | .scr => match own with
    | some b =>
      if (a - scrBase) / 8 ∈ b.scrBad then .inr 4 else if a - scrBase < spallocOf b.trec then .inl (tget 0 b.scr (a - scrBase)) else .inr 2
    | none => .inr 2
  | .mem => match s.xlateNow part .rd a with
    | .ok pa => if s.poisonedIn pa 1 then .inr 4 else .inl (s.homeByte pa)
    | .bad c => .inr (if c = 6 then 1 else 2)
    | .miss => .inr 1

/-- Where an engine writes one byte: 0 memory, 1 the owner's scratchpad, 2 host memory, with the key there; else a status. The
mirror range takes no copy (R361). -/
def State.engineDst (s : State) (part : Nat) (own : Option Block) (a : Nat) : (Nat × Nat) ⊕ Nat :=
  match regionOf a with
  | .high => .inr 1
  | .gap => .inr 2
  | .host => match s.hostKey part a with
    | some k => if s.hostRefuses k then .inr 6 else .inl (2, k)
    | none => .inr 6
  | .sync => if syncSlice a ∈ (s.part part).cfg.slices then .inl (0, a) else .inr 2
  | .scr => match own with
    | some b => if a - scrBase < spallocOf b.trec then .inl (1, a - scrBase) else .inr 2
    | none => .inr 2
  | .mem => match s.xlateNow part .wr a with
    | .ok pa => if s.inMirror part pa then .inr 2 else .inl (0, pa)
    | .bad c => .inr (if c = 6 then 1 else 2)
    | .miss => .inr 1

/-- Consecutive (place, byte) pairs joined into runs. -/
def joinRuns : List ((Nat × Nat) × Byte) → List ((Nat × Nat) × List Byte)
  | [] => []
  | ((k, a), b) :: rest =>
    match joinRuns rest with
    | ((k', a'), bs) :: more => if k = k' ∧ a + 1 = a' then ((k, a), b :: bs) :: more else ((k, a), [b]) :: ((k', a'), bs) :: more
    | [] => [((k, a), [b])]

/-- Write a run of an engine's bytes. A line of the scratchpad is written without its presence bit, which the chunk sets
last (R143). -/
def State.engineWrite (s : State) (own : Option Block) (r : (Nat × Nat) × List Byte) : State :=
  match r.1.1 with
  | 0 => s.homeWrite r.1.2 r.2
  | 1 => match own with
    | some b => s.updBlk b.id (fun x => { (x.scrPut r.1.2 r.2) with absent := x.absent })
    | none => s
  | _ => { s with hostMem := tsets 0 s.hostMem r.1.2 r.2 }

/-- The engine reads `n` bytes from an address. -/
def State.engineBytes (s : State) (part : Nat) (own : Option Block) (a n : Nat) : List Byte ⊕ Nat :=
  collect ((upFrom a n).map (s.engineRead part own))

/-- Write bytes at consecutive addresses through the engine's translation. -/
def State.enginePut (s : State) (part : Nat) (own : Option Block) (ab : List (Nat × Byte)) : State ⊕ Nat :=
  match collect (ab.map (fun x => match s.engineDst part own x.1 with
    | .inl k => .inl (k, x.2)
    | .inr e => .inr e)) with
  | .inr e => .inr e
  | .inl ks => .inl ((joinRuns ks).foldl (fun t r => t.engineWrite own r) s)

/-- Set bit `c` of a completion bitmap of a queue (R255). -/
def State.setChunkBit (s : State) (q : CQueue) (pkt : List Byte) (c : Nat) : State :=
  if pktCb pkt = 255 then s
  else
    let a := s.qField q.off 0x20 8 + 64 * pktCb pkt + c / 8
    s.syncPut q.part a (toLe 1 (s.homeLe a 1 ||| 2 ^ (c % 8)))

/-- The gather list of a packet. -/
def State.gatherList (s : State) (q : CQueue) (own : Option Block) (pkt : List Byte) : List (Nat × Nat) ⊕ Nat :=
  if pktMode pkt = 4 then
    let n := pktRows pkt
    match s.engineBytes q.part own (pktSrc pkt) (16 * n) with
    | .inr e => .inr e
    | .inl bs => .inl ((upFrom 0 n).map (fun i => gatherEnt ((bs.drop (16 * i)).take 16)))
  else .inl []

/-- Bytes of a packet's destination stream. -/
def streamBytes (pkt : List Byte) (gl : List (Nat × Nat)) : Nat :=
  match pktMode pkt with
  | 1 => pktLen pkt * pktRows pkt
  | 2 => pktLen pkt * pktRows pkt
  | 3 => pktLen pkt * pktRows pkt
  | 4 => (gl.map Prod.snd).sum
  | 9 => 8
  | 15 => 0
  | _ => pktLen pkt

/-- Chunks of a packet (R254). -/
def chunksOf (n : Nat) : Nat := (n + 511) / 512

/-- Bytes `lo` to `lo + n - 1` of a packet's destination stream are copied: sources read, destinations written. The answer on failure is
the status (R254, R255). -/
def State.copyRun (s : State) (q : CQueue) (own : Option Block) (pkt : List Byte) (gl : List (Nat × Nat)) (lo n : Nat) : State ⊕ Nat :=
  let ps := (upFrom lo n).map (copyByte pkt gl)
  match collect (ps.map (fun x => match x.1 with
    | .at a => s.engineRead q.part own a
    | .pat v => .inl (BitVec.ofNat 8 v))) with
  | .inr e => .inr e
  | .inl bs => s.enginePut q.part own ((ps.map Prod.snd).zip bs)

/-- The scratchpad offset at which a packet's current chunk stands. -/
def Inflight.at_ (f : Inflight) : Nat := pktDst f.pkt - scrBase + 512 * f.next

/-- One chunk of a local packet lands, its first sectors not yet written, and in a scratchpad every other one once more: then its line
becomes present and its bit is set (R143, R145, R254, R255). -/
def State.landLocal (s : State) (q : CQueue) (f : Inflight) : State ⊕ Nat :=
  let own := s.ownerBlk f.pkt
  match s.gatherList q own f.pkt with
  | .inr e => .inr e
  | .inl gl =>
    let lo := 512 * f.next
    let n := min 512 (streamBytes f.pkt gl - lo)
    match s.copyRun q own f.pkt gl (lo + f.off) (n - f.off) with
    | .inr e => .inr e
    | .inl s1 =>
      let s2 := if regionOf (pktDst f.pkt) = .scr then
          (match own with
          | some b => (if f.off = 0 then s1 else s1.engineWrite own ((1, f.at_), f.ahead)).updBlk b.id (fun x => { x with absent := x.absent.filter (fun l => decide (l ≠ (pktDst f.pkt - scrBase) / 512 + f.next)) })
          | none => s1)
        else s1
      .inl ((s2.setChunkBit q f.pkt f.next).updQ q.num (fun x => { x with infl := some { f with
        next := f.next + 1, landed := f.landed + 1, written := f.written + (n - f.off), off := 0, ahead := [], done := decide (f.total ≤ f.next + 1) } }))

/-- A chunk that fails ends its packet with the status (R257). -/
def State.failChunk (s : State) (q : CQueue) (f : Inflight) (st : Nat) : State :=
  s.updQ q.num (fun x => { x with infl := some { f with status := st, failing := f.next, done := true } })

/-- One sector of the current chunk of a local packet is written ahead of the rest; the last one lands with the chunk (R143, R145). -/
def State.landSector (s : State) (n : Nat) : State :=
  match s.queue n with
  | none => s
  | some q => match q.infl with
    | none => s
    | some f =>
      let own := s.ownerBlk f.pkt
      match s.gatherList q own f.pkt with
      | .inr _ => s
      | .inl gl =>
        let lo := 512 * f.next + f.off
        let k := 32 - (copyByte f.pkt gl lo).2 % 32
        if f.done || f.remote || decide (min 512 (streamBytes f.pkt gl - 512 * f.next) ≤ f.off + k) then s
        else match s.copyRun q own f.pkt gl lo k with
          | .inr e => s.failChunk q f e
          | .inl t =>
            let new := match own.bind (fun b => t.blk b.id) with
              | some b => if regionOf (pktDst f.pkt) = .scr then tgets 0 b.scr (f.at_ + f.off) k else []
              | none => []
            t.updQ n (fun x => { x with infl := some { f with off := f.off + k, ahead := f.ahead ++ new, written := f.written + k } })

/-- Land the chunks of a begun local packet one after another. -/
def State.landAll (s : State) (q : Nat) : Nat → State
  | 0 => s
  | fuel + 1 =>
    match s.queue q with
    | none => s
    | some k => match k.infl with
      | none => s
      | some f =>
        if f.done || f.remote then s
        else match s.landLocal k f with
          | .inl t => t.landAll q fuel
          | .inr e => s.failChunk k f e

/-- A begun packet of a block has failed and its end is still to be reported (R258, R216). -/
def State.begunFault (s : State) (b : Block) : Bool :=
  s.queues.any (fun q => match q.infl with
    | some f => ownedBy b f.pkt && decide (f.status ≠ 0) && decide (f.status ≠ 3)
    | none => false)

/-- Write the completion record of a begun packet and advance ridx (R257). -/
def State.writeRecord (s : State) (q : CQueue) (f : Inflight) : State :=
  let rec_ := padTo 64 (toLe 4 (2 ^ 31 * s.qLap q.off f.idx + 2 ^ 24 * f.status + pktTag f.pkt)
    ++ toLe 2 q.num ++ toLe 1 (pktMode f.pkt) ++ toLe 1 0 ++ toLe 4 f.idx ++ toLe 2 f.landed ++ toLe 2 f.total
    ++ toLe 4 f.overrun ++ toLe 2 f.failing ++ toLe 2 0 ++ toLe 8 f.written ++ toLe 4 f.t0 ++ toLe 4 s.cycle)
  let s1 := s.syncPut q.part (s.qField q.off 0x18 8 + 64 * (f.idx % s.qSize q.off)) rec_
  let s2 := s1.homeWrite (syncBase + q.off + 4) (toLe 4 (f.idx + 1))
  s2.updQ q.num (fun x => { x with infl := none, abandoned := x.abandoned.filter (fun i => decide (i ≠ f.idx)) })

/-- Set a queue's state byte (R252). -/
def State.setQState (s : State) (off v : Nat) : State := s.homeWrite (syncBase + off + 0x11) (toLe 1 v)

/-- The end of a packet: its record, ridx, and the queue idle once nothing is claimed (R252, R257). -/
def State.endPacket (s : State) (k : CQueue) (f : Inflight) : State :=
  let s1 := s.writeRecord k f
  if s1.qRidx k.off = s1.qWidx k.off ∧ !s1.qStopped k.off then s1.setQState k.off 0 else s1

/-- The packets of a block whose chunks have all landed complete: a block leaves, halts or is saved behind them (R146, R257). -/
def State.closePackets (s : State) (b : Block) : State :=
  s.queues.foldl (fun t q => match t.queue q.num with
    | some k => (match k.infl with
      | some f => if ownedBy b f.pkt && f.done && decide (f.status = 0) then t.endPacket k f else t
      | none => t)
    | none => t) s

/-- Begun packets with a destination in a block's scratchpad complete before the block is saved or dumped (R146). -/
def State.landBegun (s : State) (b : Block) : State :=
  (s.queues.foldl (fun t q => match q.infl with
    | some f => if ownedBy b f.pkt && decide (regionOf (pktDst f.pkt) = .scr) then t.landAll q.num 513 else t
    | none => t) s).closePackets b

end Sys2Proof.Machine
end

