-- ==== Sys2Proof/Machine/Code.lean ====
section
/-! DEFINITION. Code: reading header and instruction words, chains of clauses, J-format steps, landings, the scalar position
(R16, R20, R21, R25, R126, R128, R423). -/
namespace Sys2Proof.Machine

/-- A clause header's fields (R15). -/
structure Hdr where
  n : Nat
  cls : Nat
  y : Bool
  wait : Nat
  b : Bool
  bar : Nat
  g : Bool
  sense : Nat
  guard : Nat
  deriving DecidableEq, Repr

/-- Whose clauses they are: R20 asks for it. -/
inductive Who where
  | group
  | matrix
  | copy
  | mgmt
  deriving DecidableEq, Repr

/-- The header in a word, when it is a valid header for its reader (R20). The copy stream's own limits stand in R264. -/
def hdrOf (who : Who) (w : Nat) : Option Hdr :=
  match decodeHeader w with
  | .ok (.clauseHeader n cls y wait b bar g sense guard) =>
    let h : Hdr := ⟨n, cls, decide (y = 1), wait, decide (b = 1), bar, decide (g = 1), sense, guard⟩
    let good := match who with
      | .group => decide (cls ≠ 3)
      | .matrix => decide (cls = 3) && !h.g
      | .copy => decide (cls = 4)
      | .mgmt => (decide (cls = 0) || decide (cls = 6) || decide (cls = 7)) && !h.b && !(h.g && decide (7 < guard))
    if good then some h else none
  | _ => none

/-- The memory that code is read from: a partition's pages, or a management core's own memory. -/
inductive Space where
  | part (p : Nat)
  | mgmt (m : Nat)
  deriving DecidableEq, Repr

/-- A code word, or the fault of its fetch (R16). -/
def State.code (s : State) (sp : Space) (a : Nat) : Nat ⊕ Nat :=
  match sp with
  | .part p => match s.xlateNow p .ex a with
    | .ok pa => .inl (s.homeLe pa 4)
    | .bad c => .inr c
    | .miss => .inr 6
  | .mgmt m =>
    if a < 0x80000 then .inl (leAt (tgets 0 (s.mc m).sram a 4) 0 4)
    else match regionOf a with
      | .mem => if inVault a || inHbm a then .inl (s.homeLe a 4) else .inr 7
      | .sync => .inl (s.homeLe a 4)
      | .high => .inr 6
      | _ => .inr 7

/-- The words of a range of code. -/
def State.codeWords (s : State) (sp : Space) (a : Nat) : Nat → List W32 ⊕ Nat
  | 0 => .inl []
  | n + 1 => match s.code sp a with
    | .inr c => .inr c
    | .inl w => match s.codeWords sp (a + 4) n with
      | .inr c => .inr c
      | .inl ws => .inl (BitVec.ofNat 32 w :: ws)

/-- Fetch a clause whole (R16): its header and the words that it counts, or the fault at the header; the fetch of every word comes
before the header's own condition (R20, R33). -/
def State.fetchClause (s : State) (sp : Space) (who : Who) (hdr : Nat) : (Hdr × List W32) ⊕ Nat :=
  match s.code sp hdr with
  | .inr c => .inr c
  | .inl w => match s.codeWords sp (hdr + 4) (fld w 31 28) with
    | .inr c => .inr c
    | .inl ws => match hdrOf who w with
      | none => .inr 2
      | some h => .inl (h, BitVec.ofNat 32 w :: ws)

/-- Fetch a clause for a landing at `pc`: the header must hold the word there (R21, R73). -/
def State.fetchFor (s : State) (sp : Space) (who : Who) (hdr pc : Nat) : (Hdr × List W32) ⊕ Nat :=
  match s.fetchClause sp who hdr with
  | .inr c => .inr c
  | .inl x => if pc ≤ hdr + 4 * x.1.n then .inl x else .inr 2

/-- The clause that an agent has fetched, by its header word (R16). -/
def heldClause (who : Who) (ws : List W32) : Option (Hdr × List W32) :=
  match ws with
  | [] => none
  | w :: _ => match hdrOf who w.toNat with
    | none => none
    | some h => some (h, ws)

/-- The clause that a stream or management core is in: as it was fetched, or fetched now where nothing is held of it (R16, R22). -/
def State.clauseIn (s : State) (sp : Space) (who : Who) (hdr pc : Nat) (entered : Bool) (held : List W32) : (Hdr × List W32) ⊕ Nat :=
  match (if entered then heldClause who held else none) with
  | some x => .inl x
  | none => s.fetchFor sp who hdr pc

/-- A place in code: the clause's header and its words, and the index of a word in it counted from 1 (0: the header). -/
structure Land where
  hdr : Nat
  n : Nat
  idx : Nat
  deriving DecidableEq, Repr

/-- The address of a landing: the header for the first word, since a fibre there enters the clause (log entry 10). -/
def Land.pc (l : Land) : Nat := if l.idx ≤ 1 then l.hdr else l.hdr + 4 * l.idx

/-- The number of instruction words on the chain of `head` before the clause at `hdr`; none when the chain does not hold
it. -/
def State.wordsBefore (s : State) (sp : Space) (who : Who) (hdr : Nat) : Nat → Nat → Nat → Option Nat
  | 0, _, _ => none
  | fuel + 1, at_, acc =>
    if at_ = hdr then some acc
    else if hdr < at_ then none
    else match s.code sp at_ with
      | .inr _ => none
      | .inl w => match hdrOf who w with
        | none => none
        | some h => s.wordsBefore sp who hdr fuel (at_ + 4 * (h.n + 1)) (acc + h.n)

/-- The word with number `k` on the chain that begins at `at_`; else the fault of the step with its info (R423). -/
def State.wordAt (s : State) (sp : Space) (who : Who) : Nat → Nat → Nat → Land ⊕ (Nat × Nat)
  | 0, at_, _ => .inr (2, at_)
  | fuel + 1, at_, k =>
    match s.code sp at_ with
    | .inr c => .inr (c, at_)
    | .inl w => match hdrOf who w with
      | none => .inr (2, 0)
      | some h => if k < h.n then .inl ⟨at_, h.n, k + 1⟩ else s.wordAt sp who fuel (at_ + 4 * (h.n + 1)) (k - h.n)

/-- The lowest chain head whose chain holds a clause, with the words before the clause on it (R423). Where no entered head's chain
holds the clause (a `ret` into code that no chain has reached, code changed since), its own header is the head (log entry 63). -/
def State.chainOf (s : State) (sp : Space) (who : Who) (heads : List Nat) (hdr : Nat) : Nat × Nat :=
  match (heads.filter (fun h => decide (h ≤ hdr))).foldl (fun best h =>
      match s.wordsBefore sp who hdr ((hdr - h) / 8 + 1) h 0 with
      | none => best
      | some k => match best with
        | some (h', k') => if h < h' then some (h, k) else some (h', k')
        | none => some (h, k)) none with
  | some x => x
  | none => (hdr, 0)

/-- The word that a J-format step from the word `idx` of the clause at `hdr` reaches (R25, R423). -/
def State.stepTo (s : State) (sp : Space) (who : Who) (heads : List Nat) (hdr idx : Nat) (off : Int) : Land ⊕ (Nat × Nat) :=
  let c := s.chainOf sp who heads hdr
  let k : Int := (c.2 + idx : Nat) + off
  if k < 0 then .inr (2, 0) else s.wordAt sp who (k.toNat + 1) c.1 k.toNat

/-- Put a lane at a landing. -/
def Lane.land (x : Lane) (l : Land) : Lane :=
  { x with pc := BitVec.ofNat 48 l.pc, hdr := l.hdr, entered := false, guardOff := false }

/-- Put a lane at a clause header. -/
def Lane.enter (x : Lane) (h : Nat) : Lane :=
  { x with pc := BitVec.ofNat 48 h, hdr := h, entered := false, guardOff := false }

/-- The clause at which the wide side stands: that of the lowest PC-set. -/
def Group.wideHdr (g : Group) : Option Nat :=
  match g.lowestPc with
  | none => none
  | some pc => match g.pcSet pc with
    | l :: _ => some (g.lane l).hdr
    | [] => none

/-- Walk in fetch order over class W clauses and over class S clauses executed ahead, to the header of the next clause that
the scalar side will process (R128). -/
def State.scalarFrom (s : State) (part : Nat) (ahead : List Nat) : Nat → Nat → Nat
  | 0, at_ => at_
  | fuel + 1, at_ =>
    match s.code (.part part) at_ with
    | .inr _ => at_
    | .inl w => match hdrOf .group w with
      | none => at_
      | some h =>
        if h.cls = 1 ∨ (h.cls = 0 ∧ at_ ∈ ahead) then s.scalarFrom part ahead fuel (at_ + 4 * (h.n + 1)) else at_

/-- The scalar position of a group (R125, R128). -/
def State.scalarPos (s : State) (part : Nat) (g : Group) : Nat :=
  match g.sc with
  | some r => r.hdr
  | none => match g.wideHdr with
    | none => 0
    | some h => s.scalarFrom part g.sAhead (2 ^ 30) h

end Sys2Proof.Machine
end

