-- ==== Sys2Proof/Machine/Ops.lean ====
section
/-! DEFINITION. The shared operations of the cores: stores of a core, stall codes and trace records, a word's retirement and
waiting, block barriers, outstanding accesses, taking a fault and returning from one, the end of groups and blocks (R19, R61,
R122, R123, R135, R154, R190, R198 to R208, R221, R280, R297). -/
namespace Sys2Proof.Machine

/-- Room for a record that the device stores: where no sector can be evicted the publication is forced at once, since no word waits for it
(R149, log entry 33). -/
def State.roomFor (s : State) (c : Nat) : State :=
  if (s.core c).cache.length < 8192 ∨ (s.evict c).isSome then s else s.force c

/-- A store of a core at a physical address, part by part (R149, R151). -/
def State.coreStore (s : State) (c pa : Nat) (bs : List Byte) : State :=
  (sectorParts (bs.length + 1) pa bs).foldl (fun t p => (t.roomFor c).cacheWrite c p.1 p.2) s

/-- A record that the device stores through a core's phase cache; none where translation, protection or poison stops it
(R190, R206). -/
def State.recordStore (s : State) (c part va : Nat) (bs : List Byte) : Option State :=
  match s.xlateNow part .wr va, s.xlateNow part .wr (va + bs.length - 1) with
  | .ok pa, .ok _ => if s.poisonedIn pa bs.length then none else some (s.coreStore c pa bs)
  | _, _ => none

/-- The address of record `seq` of a ring register `| base:52 | 0:7 | lg:5 |` of 32-byte records (R191, R207). -/
def ringAddr (reg : W64) (seq : Nat) : Nat := reg.toNat / 4096 * 4096 + 32 * (seq % 2 ^ (reg.toNat % 32))

/-- A ring register whose base is 0 is disabled. -/
def ringOff (reg : W64) : Bool := decide (reg.toNat / 4096 = 0)

/-- The dependence counters that a mask names are zero (R17). -/
def Group.countersZero (g : Group) (wait : Nat) : Bool := (upFrom 0 6).all (fun n => !bitOf wait n || decide (tget 0 g.sb n = 0))

/-- The header at which a group waits has its counters at zero. -/
def Group.headerReady (g : Group) (hdr : Nat) : Bool := match tget [] g.fetched hdr with
  | w :: _ => (match hdrOf .group w.toNat with
    | some h => g.countersZero h.wait
    | none => false)
  | [] => false

/-- The stall reason of a group (R123). A wait that is over, though its word has not issued, is no stall. -/
def Block.stall (b : Block) (g : Group) : Nat :=
  let halted := match b.mode with
    | .handler h c => if h = g.num then none else some (if c = 0x13 then 9 else 10)
    | .run => if b.saving = .no then none else some 9
  match halted with
  | some c => c
  | none =>
    let past := fun (w : Wait) => w.ready || (match w.on with
      | .barrier n => !(tget Bar.zero b.bars (n % 16)).grparr.getLsbD g.num
      | .header => g.headerReady w.pc
      | _ => false)
    let code := fun (o : Option Wait) => match o with
      | some w => if past w then 0 else (match w.on with
        | .presence => 8
        | .slot => 8
        | .barrier _ => 7
        | .queue => 4
        | .matrix => 3
        | .window => 2
        | .walk _ => 1
        | _ => 5)
      | none => 0
    max (max (code g.wait) (code g.swait)) (if g.liveLanes ≠ [] then 1 else if g.heldLanes ≠ [] then 6 else 0)

/-- The next pc of a group or stream, for a trace record (R206). -/
def Block.tracePc (b : Block) (grp : Nat) : Nat :=
  if grp = 0x10 then b.ms.pc
  else if grp = 0x11 then b.cs.pc
  else match b.grp grp with
    | some g => (match g.lowestPc with | some pc => pc | none => 0)
    | none => 0

/-- Write a trace record of a kind for a group or stream of a block, if the core records that kind (R206). R123 gives no stall code for a
stream: its record holds code 1, `ISSUE` (log entry 70). -/
def State.trace (s : State) (kind : Nat) (b : Block) (grp bar : Nat) : State :=
  let k := s.core b.core
  if bitOf k.tracectl.toNat (kind - 1) && !ringOff k.tracebase then
    let st := match b.grp grp with | some g => b.stall g | none => 1
    let rec_ := toLe 1 kind ++ toLe 1 grp ++ toLe 1 st ++ toLe 1 b.core ++ toLe 4 b.index ++ toLe 4 s.cycle ++ toLe 1 bar
      ++ toLe 3 0 ++ toLe 6 (b.tracePc grp) ++ toLe 2 0
      ++ toLe 8 (packLanes 4 ((upFrom 0 16).map (fun n => (tget Bar.zero b.bars n).phase.toNat % 16)))
    let s1 := s.setCore b.core { k with traceseq := satInc k.traceseq }
    match s1.recordStore b.core b.trec.part (ringAddr k.tracebase k.traceseq.toNat) rec_ with
    | some t => t
    | none => s.setCore b.core { k with traceseq := satInc k.traceseq, tracedrop := satInc k.tracedrop }
  else s

/-- The quadrant of a group. -/
def State.quad (s : State) (c q : Nat) : Quad := tget Quad.none (s.core c).quads q
def State.updQuad (s : State) (c q : Nat) (f : Quad → Quad) : State :=
  let k := s.core c
  s.setCore c { k with quads := tset Quad.none k.quads q (f (tget Quad.none k.quads q)) }

/-- What a clause's end does to its quadrant: a pick follows Y = 1, and the holder changes (R122). -/
def Quad.clauseEnd (q : Quad) (who : Nat × Nat) (y : Bool) : Quad :=
  if y then { q with
    cur := .none, holder := if q.holder = some who then .none else q.holder, holdRun := if q.holder = some who then 0 else q.holdRun }
  else match q.holder with
    | .none => { q with holder := some who, holdRun := 1, holdMiss := 0 }
    | .some h =>
      if h = who then
        if 16 ≤ q.holdRun + 1 then { q with holder := .none, holdRun := 0 } else { q with holdRun := q.holdRun + 1 }
      else q

/-- The group's latches cleared (R19). -/
def Group.clearLatches (g : Group) : Group := { g with by1 := [], by2 := [], by3 := [] }

/-- The last word of a clause: the guard flag ends with it and the fibre stands at the next header (R61, R62). -/
def Lane.advance (x : Lane) (last : Bool) : Lane :=
  let pc := x.pc.toNat + 4
  if last then x.enter pc else { x with pc := BitVec.ofNat 48 pc }

/-- The lanes of the PC-set that R63 has put first, while some of them has issued last (R61, R63). A lane that yields inside its clause is
passed over, as R61 and R77 say, and no longer put first (log entry 78). -/
def Group.forcedSet (g : Group) : List Nat :=
  match g.forced with
  | none => []
  | some pc =>
    let ls := g.liveLanes.filter (fun l => !(g.lane l).deferred && decide ((g.lane l).pc.toNat = pc))
    if ls.any (fun l => decide ((g.lane l).starve = 0)) then ls else []

/-- The lane that R63 puts first: live and unissued for 1,024 words of its group, the lowest where several are (log entry 78). -/
def Group.starved (g : Group) : Option Nat :=
  if g.forcedSet ≠ [] then none else firstOf (fun l => decide (1024 ≤ (g.lane l).starve)) g.liveLanes

/-- The set that a group selects (R61, R63). -/
def Group.select (g : Group) : List Nat :=
  match g.forcedSet with
  | [] => match g.lowestPc with | some pc => g.pcSet pc | none => []
  | ls => ls

/-- The lanes of a group form a single PC-set (R126). -/
def Group.single (g : Group) : Bool :=
  match g.liveLanes with
  | [] => false
  | l :: rest => rest.all (fun k => decide ((g.lane k).pc = (g.lane l).pc))

/-- A word that the scalar side has issued for the group counts toward R63: for the set whose clause it is, and against every other live
lane. -/
def Group.tick (g : Group) : Group :=
  let set := if g.single then g.liveLanes else g.select
  g.mapLanes g.liveLanes (fun l x => { x with starve := if l ∈ set then 0 else min (x.starve + 1) 65535 })

/-- One word issued by the group: the set moves on and every other live lane's count toward R63 rises. -/
def Group.retire (g : Group) (c : Cur) : Group :=
  let last := decide (c.pc = c.hdr + 4 * c.n)
  let g1 := g.mapLanes c.set (fun _ x => { x.advance last with starve := 0 })
  let rest := g.liveLanes.filter (fun l => decide (l ∉ c.set))
  let g2 := g1.mapLanes rest (fun _ x => { x with starve := min (x.starve + 1) 65535 })
  let g3 := if last && c.y then g2.clearLatches else g2
  { g3 with wait := none, bkSkip := false, forced := if g.forcedSet = [] ∨ last then none else some (c.pc + 4) }

/-- A wide-side word or join word retires (R19, R61, R122). -/
def State.retireGroup (s : State) (b g : Nat) : State :=
  let c := s.cur
  match s.bg b g with
  | none => s
  | some (k, x) =>
    let s1 := s.updGrp b g (fun y => y.retire c)
    if c.pc = c.hdr + 4 * c.n then s1.updQuad k.core x.quad (fun q => q.clauseEnd (b, g) c.y) else s1

/-- A scalar-side word retires: the next word of its clause, or the clause done (R126). -/
def Group.retireScalar (x : Group) : Group :=
  match x.sc with
  | none => x
  | some r =>
    if r.idx + 1 < r.n then { x.tick with sc := some { r with idx := r.idx + 1 }, swait := none, bkSkip := false }
    else { x.tick with sc := none, sAhead := insNat r.hdr x.sAhead, swait := none, bkSkip := false }

/-- A group's scalar-side word retires. -/
def State.retireScalar (s : State) (b g : Nat) : State := s.updGrp b g Group.retireScalar

/-- A stream's word retires. At a clause end the sequencer stands at the next header. -/
def Stream.advance (x : Stream) (c : Cur) : Stream :=
  let last := decide (c.pc = c.hdr + 4 * c.n)
  { x with pc := c.pc + 4, hdr := if last then c.pc + 4 else c.hdr, entered := !last, again := false, wait := none }

/-- The cycles that a stream's word has waited, added up (R189). -/
def Stream.countWait (x : Stream) (now : Nat) : Stream :=
  match x.wait with
  | none => x
  | some w => { x with waited := x.waited + (now - w.start) }

/-- A management core's word retires. -/
def Mc.advance (m : Mc) (c : Cur) : Mc :=
  let last := decide (c.pc = c.hdr + 4 * c.n)
  { m with pc := BitVec.ofNat 48 (c.pc + 4), hdr := if last then c.pc + 4 else c.hdr, entered := !last, guardOff := m.guardOff && !last }

/-- The word of the current agent waits for cluster slots or for anything else (R123, R228); a wait that goes on keeps its start. A
group's stall is a pick of its quadrant (R122). -/
def State.waitSlots (s : State) (on : WaitOn) (slots : List Nat) : State :=
  let c := s.cur
  let w := fun (old : Option Wait) => match old with
    | some o => if o.on = on ∧ o.pc = c.pc then some { o with ready := false, slots := slots } else some ⟨on, s.cycle, maskOf c.act, c.pc, false, slots⟩
    | none => some (⟨on, s.cycle, maskOf c.act, c.pc, false, slots⟩ : Wait)
  match c.ag with
  | .group b g => match s.bg b g with
    | none => s
    | some (k, x) => (s.updGrp b g (fun y => { y with wait := w y.wait })).updQuad k.core x.quad (fun q => { q with cur := none })
  | .scalar b g => s.updGrp b g (fun y => { y with swait := w y.swait })
  | .matrix b => s.updBlk b (fun x => { x with ms := { x.ms with wait := w x.ms.wait } })
  | .copy b => s.updBlk b (fun x => { x with cs := { x.cs with wait := w x.cs.wait } })
  | .mgmt _ => s
  | .none => s

/-- The word of the current agent waits (R123). -/
def State.wait (s : State) (on : WaitOn) : State := s.waitSlots on []

/-- The participants of a barrier as a mask: groups in bits 15 to 0, sequencers in bits 17 and 16 (R135). -/
def Block.participants (b : Block) (n : Nat) : Nat :=
  maskOf ((b.groups.filter (fun g => !g.ended)).map (fun g => g.num))
  + (if b.ms.part.getLsbD n then 2 ^ 16 else 0) + (if b.cs.part.getLsbD n then 2 ^ 17 else 0)

/-- Arrivals of a barrier as a mask. -/
def Bar.arrivals (x : Bar) : Nat := x.grparr.toNat + 2 ^ 16 * x.seqarr.toNat

/-- A barrier phase is complete (R135). -/
def Block.barDone (b : Block) (n : Nat) : Bool :=
  let p := b.participants n
  let a := (tget Bar.zero b.bars n).arrivals &&& p
  decide (a ≠ 0) && decide (a = p)

/-- Those that have arrived at a barrier or departed in this cycle, `who` among them, as a mask (R206). -/
def Block.comers (b : Block) (now who n : Nat) : Nat :=
  let x := tget (0, 0) b.barNow n
  (if x.1 = now then x.2 else 0) ||| 2 ^ who

/-- Evaluate a barrier after an arrival or departure of `who` (R135); the record of a completion names the lowest of the completing
cycle (R206). -/
def State.barEval (s : State) (bid who n : Nat) : State :=
  match s.blk bid with
  | none => s
  | some b =>
    let m := b.comers s.cycle who n
    let s0 := s.updBlk bid (fun x => { x with barNow := tset (0, 0) x.barNow n (s.cycle, m) })
    if b.barDone n then
      let s1 := s0.updBlk bid (fun x => { x with bars := tset Bar.zero x.bars n ⟨0, (tget Bar.zero x.bars n).phase + 1, 0, 0⟩ })
      match s1.blk bid with
      | some b1 => s1.trace 2 b1 (match leastOf (maskList 18 m) with | some k => k | none => who) n
      | none => s1
    else s0

/-- Set an arrival bit: a group's, or 16 and 17 for the sequencers. -/
def Bar.arrive (x : Bar) (who : Nat) : Bar :=
  let y := if who < 16 then { x with grparr := x.grparr ||| BitVec.ofNat 16 (2 ^ who) }
    else { x with seqarr := x.seqarr ||| BitVec.ofNat 2 (2 ^ (who - 16)) }
  { y with count := ((upFrom 0 18).filter (fun i => bitOf y.arrivals i)).length }

/-- An arrival at a barrier (R136). -/
def State.barArrive (s : State) (bid who n : Nat) : State :=
  (s.updBlk bid (fun b => { b with bars := tset Bar.zero b.bars n ((tget Bar.zero b.bars n).arrive who) })).barEval bid who n

/-- A departure from the barriers at which one takes part: each is evaluated (R135). -/
def State.depart (s : State) (bid who : Nat) (ns : List Nat) : State := ns.foldl (fun t n => t.barEval bid who n) s

/-- Write words of a group window. -/
def Group.putWords (g : Group) (ws : List (Nat × RWord)) : Group :=
  ws.foldl (fun x w => { x with win := tset RWord.zero x.win w.1 w.2 }) g

/-- An access reaches its completion point: the data of a load stand in its registers, a store's bytes in the scratchpads that it
reaches, and its counter falls (R124, R154). What the same group has sent there before is performed first (R231). The answer names the
fault of a load whose data are poisoned. -/
def State.complete (s : State) (c : Nat) (o : Outst) : State × Option PFault :=
  let s1 := (s.flushFor c o.blk o.grp o.id o.spots).land1 c o
  let s2 := if o.poison.isNone then s1.updGrp o.blk o.grp (fun g => g.putWords o.writes) else s1
  match o.poison with
  | none => (s2, none)
  | some info => (s2, some ⟨0x08, o.grp, o.lanes, o.pc, info, o.pc⟩)

/-- Complete every outstanding access of a block, gathering the faults of poisoned loads (R200). -/
def State.drain (s : State) (b : Block) : State × List PFault :=
  ((s.core b.core).outs.filter (fun o => decide (o.blk = b.id))).foldl (fun acc o =>
    let r := acc.1.complete b.core o
    (r.1, match r.2 with
      | none => acc.2
      | some f => acc.2 ++ [f])) (s, [])

/-- A write at the homes for a core: its own unpublished bytes of the sectors first, its copies dropped (R425). None where a
page fails. -/
def State.homePut (s : State) (c part va : Nat) (bs : List Byte) : State ⊕ Nat :=
  match s.vaPieces part .wr va bs.length with
  | .inr e => .inr e
  | .inl ps =>
    if ps.any (fun p => s.poisoned (p.1 / 32) && decide (p.2 < 32)) then .inr 8
    else .inl ((cutBytes ps bs).foldl (fun t p => (t.sectorHome c p.1 p.2.length).homeWrite p.1 p.2) s)

/-- As `homePut`, piece by piece: the pieces before one that fails stay written (R210, R215). The answer on failure is the fault with the
state that it leaves. -/
def State.homePutParts (s : State) (c part : Nat) : List (Nat × List Byte) → State ⊕ (Nat × State)
  | [] => .inl s
  | p :: rest => match s.homePut c part p.1 p.2 with
    | .inr e => .inr (e, s)
    | .inl t => t.homePutParts c part rest

/-- A read at the homes for a core (R425). -/
def State.homeGet (s : State) (c part va n : Nat) : (List Byte × State) ⊕ Nat :=
  match s.vaPieces part .rd va n with
  | .inr e => .inr e
  | .inl ps =>
    let s1 := ps.foldl (fun t p => t.sectorHome c p.1 p.2) s
    if ps.any (fun p => s1.poisonedIn p.1 p.2) then .inr 8 else .inl (s1.pieceBytes ps, s1)

/-- The group that hosts the handler for a fault of a group or stream (R196, R201). -/
def Block.hostOf (b : Block) (grp : Nat) : Option Nat :=
  let held := fun (g : Nat) => match b.grp g with
    | some x => !x.ended && decide (x.heldLanes ≠ [])
    | none => false
  let want := if grp = 0x10 then b.ms.owner else if grp = 0x11 then b.cs.owner else grp
  if decide (grp < 16) && (match b.grp grp with | some x => !x.ended | none => false) then some grp
  else if held want then some want else if held b.lowestHeld then some b.lowestHeld else none

/-- The 64 bytes of a fault record (R204). -/
def faultRecord (f : PFault) (b : Block) (flags time code2 : Nat) : List Byte :=
  padTo 64 (toLe 1 f.code ++ toLe 1 f.grp ++ toLe 1 flags ++ toLe 1 0 ++ toLe 4 f.lanes ++ toLe 8 f.pc ++ toLe 8 f.info
    ++ toLe 8 (packLanes 4 ((upFrom 0 16).map (fun n => match b.grp n with | some g => b.stall g | none => 0)))
    ++ toLe 4 b.index ++ toLe 4 time ++ toLe 1 code2)

/-- The bytes of a trap frame (R204). -/
def trapFrame (b : Block) (g : Group) (spos : Nat) (rec_ : List Byte) : List Byte :=
  let bad := (g.resWords.filter (fun x => !rok x.2)).map Prod.fst
  padTo 2048 (g.stateBytes spos ++ b.barBytes ++ rec_
    ++ (upFrom 0 64).map (fun k => BitVec.ofNat 8 (maskOf ((upFrom 0 8).filter (fun i => decide (8 * k + i ∈ bad))))))

/-- The header of the clause that holds a word, as the group has fetched it. -/
def Group.hdrOfPc (g : Group) (pc : Nat) : Option Nat :=
  match firstOf (fun (e : Nat × List W32) => decide (e.1 < pc) && decide (pc < e.1 + 4 * e.2.length)) g.fetched with
  | some e => some e.1
  | none => none

/-- Set lanes back to a word of a clause already fetched (R154: a poisoned load resumes at the load). -/
def Group.backTo (g : Group) (lanes pc : Nat) : Group :=
  match g.hdrOfPc pc with
  | none => g
  | some h => g.mapLanes ((maskList 32 lanes).filter (fun l => (g.lane l).isLive))
      (fun _ x => { x with pc := BitVec.ofNat 48 pc, hdr := h, entered := true })

/-- A group runs the handler from `cr.tvec` (R201). -/
def Group.toHandler (g : Group) (tvec : Nat) : Group :=
  { g with
    lanes := tset Lane.none [] 0 { (Lane.none.enter tvec) with st := .live }, kArr := [], kEnr := [], msM := 0, msA := 0,
    by1 := [], by2 := [], by3 := [], fq := [], rq := [], sc := none, sAhead := [], sFault := none, wait := none, swait := none,
    forced := none, fetched := [], claim := none, yends := [] }

/-- A claimed post of a group ends with a stop: its packet is kept, and the group goes on after the word (R260). -/
def Group.skipWord (g : Group) : Group :=
  match g.wait with
  | none => g
  | some w => match g.hdrOfPc w.pc with
    | none => g
    | some h =>
      let n := (tget [] g.fetched h).length - 1
      let set := (g.pcSet w.pc).filter (fun l => (g.lane l).entered)
      g.mapLanes set (fun _ x => x.advance (decide (w.pc = h + 4 * n)))

/-- Every group of a block stops at an instruction boundary and its waiting word is abandoned; the streams stop (R193,
R200). -/
def State.stopAll (s : State) (b : Block) : State :=
  let p := b.trec.part
  let s1 := b.groups.foldl (fun t g => match g.claim with
    | none => t
    | some c => (t.keepClaim p c).updGrp b.id g.num (fun x => x.skipWord)) s
  let s2 := [b.ms, b.cs].foldl (fun t x => match x.claim with
    | none => t
    | some c => t.keepClaim p c) s1
  let after := fun (x : Stream) =>
    if x.claim.isSome then { x with pc := x.pc + 4, wait := none, claim := none, again := false }
    else { x with again := x.wait.isSome, wait := none }
  let k0 := s2.core b.core
  let s2 := (s2.setCore b.core { k0 with fails := k0.fails.filter (fun w => decide (w.blk ≠ b.id)) }).unhold b.core (fun o => decide (o.blk = b.id))
  let s3 := s2.updBlk b.id (fun k => { k with
    groups := k.groups.map (fun g => { g with wait := none, swait := none, claim := none, roPos := none }),
    ms := { (k.ms.countWait s.cycle) with again := k.ms.wait.isSome, wait := none },
    cs := after k.cs })
  (upFrom 0 4).foldl (fun t d => t.setDie d { t.die d with gaunt := (t.die d).gaunt.filter (fun w => decide (w.blk ≠ b.id)) }) s3

/-- A block terminates (R203, R243, R237): `code` is the code of its fault record. A begun copy to its scratchpad completes, the others
are abandoned (R146). -/
def State.terminate (s : State) (bid code : Nat) : State :=
  match s.blk bid with
  | none => s
  | some b =>
    let s1 := ((s.landBegun b).abandonAll b).1
    let s2 := s1.removeBlock b
    let tries := match s2.grid b.task with | some g => tget 0 g.placed b.index | none => 3
    if b.trec.rex && (decide (code = 4) || decide (code = 0xF)) && decide (tries < 3) then
      s2.updGrid b.task (fun g => { g with retry := g.retry ++ [(b.index, b.core)] })
    else (s2.failTask b.task).checkDone b.task

/-- A group waits for a call that it has queued (R373). -/
def Group.calling (g : Group) : Bool := match g.wait with
  | some w => decide (w.on = .called)
  | none => false

/-- Some group of a block waits for a call that it has queued: halts and pre-emption wait for the word (R373). -/
def Block.calling (b : Block) : Bool := b.groups.any Group.calling

/-- A halt waits for a queued call to be placed, or the block is being saved (R215). -/
def Block.stopping (b : Block) : Bool := decide (b.mode = .run) && (!b.pend.isEmpty || b.stopReq || decide (b.saving ≠ .no))

/-- A group of a block may issue no word: the block is halted for it, or a halt waits for another group's call (R200,
R373). -/
def Block.haltedFor (b : Block) (g : Nat) : Bool := match b.mode with
  | .run => b.stopping && !(match b.grp g with | some x => x.calling | none => false)
  | .handler h _ => decide (h ≠ g)

/-- Hold a fault until the queued calls of the block have been placed. -/
def State.holdFault (s : State) (bid : Nat) (f : PFault) (ext : Bool) : State :=
  s.updBlk bid (fun b => if ext then { b with stopReq := true } else { b with pend := b.pend ++ [f] })

/-- A `residue` fault counts on its core (R120). -/
def State.countResidue (s : State) (core code : Nat) : State :=
  let k := s.core core
  if code = 4 then s.setCore core { k with residues := k.residues + 1 } else s

/-- A fault that no group is left to handle: its records are written and the block terminated (R196, R203, R206). -/
def State.orphanFault (s : State) (b : Block) (f : PFault) (ext : Bool) : State :=
  let (s1, held) := (((s.stopAll b).landBegun b).abandonAll b).1.drain b
  let flags := (if f.grp < 16 then 0 else 1) + (if held.isEmpty && b.pend.isEmpty then 0 else 2) + (if ext then 4 else 0)
  let code2 := match held ++ b.pend with | x :: _ => x.code | [] => 0
  let s2 := match s1.homePut b.core b.trec.part (b.tframe.toNat + 2048 * b.core + 0x6C0) (faultRecord f b flags (s1.cycle % 2 ^ 32) code2) with
    | .inl t => t
    | .inr _ => s1
  (match s2.blk b.id with | some b2 => s2.trace 4 b2 f.grp 0 | none => s2).terminate b.id f.code

/-- Take a fault: the halt broadcast (R199, R200, R201, R204, R206). The record of kind 4 is written once the handler stands ready, so
its pc is the handler's; where no handler comes to run, it is written as the block stands (log entry 70). -/
def State.takeFault (s0 : State) (bid : Nat) (f : PFault) (ext : Bool) : State :=
  match s0.blk bid with
  | none => s0
  | some b =>
    let s := s0.countResidue b.core f.code
    if b.calling then s0.holdFault bid f ext
    else match b.hostOf f.grp with
    | none => s.orphanFault b f ext
    | some h =>
      let s1 := ((s.stopAll b).landBegun b)
      let s2 := (s1.abandonAll b).1
      let (s3, held) := s2.drain b
      match s3.bg bid h with
      | none => s3
      | some (b3, g0) =>
        let g := if f.resume = 0 then g0 else g0.backTo f.lanes f.resume
        let flags := (if f.grp < 16 then 0 else 1) + (if held.isEmpty && b3.pend.isEmpty then 0 else 2) + (if ext then 4 else 0)
        let code2 := match held ++ b3.pend with | x :: _ => x.code | [] => 0
        let frame := trapFrame b3 g (s3.scalarPos b3.trec.part g) (faultRecord f b flags (s3.cycle % 2 ^ 32) code2)
        let at_ := b3.tframe.toNat + 2048 * b3.core
        match s3.homePut b3.core b3.trec.part at_ frame with
        | .inr _ => (s3.trace 4 b3 f.grp 0).terminate bid f.code
        | .inl s4 =>
          let s6 := s4.updBlk bid (fun k => { (k.updGrp h (fun _ => g.toHandler k.tvec.toNat)) with
            mode := .handler h f.code, pend := k.pend ++ held, stash := some { g with bkSkip := decide (f.code = 0x13) && !ext }, frameAt := at_,
            tcause := BitVec.ofNat 64 (f.code + 256 * f.grp), tinfo := BitVec.ofNat 64 f.info,
            heads := insNat k.tvec.toNat k.heads })
          let s7 := s6.updQuad b3.core g.quad (fun q => if q.cur = some (bid, h) then q else { q with cur := none })
          match s7.blk bid with
          | some b7 => s7.trace 4 b7 f.grp 0
          | none => s7

/-- A fault of the handler itself: no second handler (R202). -/
def State.nested (s0 : State) (bid code : Nat) : State :=
  match s0.blk bid with
  | none => s0
  | some b =>
    let s := s0.countResidue b.core code
    let fc := match b.mode with | .handler _ c => c | .run => code
    let p := b.trec.part
    let s1 := if b.dumpbase = 0 then s
      else match s.homeGet b.core p (b.dumpbase.toNat + 7) 1 with
        | .inr _ => s
        | .inl (bs, t) => match t.homePut b.core p (b.dumpbase.toNat + 7) (toLe 1 (leAt bs 0 1 ||| 1)) with
          | .inr _ => s
          | .inl t1 => match t1.homePut b.core p (b.dumpbase.toNat + 0x16) (toLe 1 code) with
            | .inr _ => s
            | .inl t2 => t2
    let s2 := match s1.homePut b.core p (b.frameAt + 0x6C0 + 0x28) (toLe 1 code) with
      | .inr _ => s1
      | .inl t => t
    s2.terminate bid fc

/-- A fault of a block that no word of the handler raises: taken now, or held while the block is halted or being saved (R200, R215). -/
def State.asyncFault (s : State) (bid : Nat) (f : PFault) : State :=
  match s.blk bid with
  | none => s
  | some b => match b.mode with
    | .run => if b.saving = .no then s.takeFault bid f false else s.holdFault bid f false
    | .handler _ _ => s.updBlk bid (fun x => { x with pend := x.pend ++ [f] })

/-- A management core's fault (R297). -/
def State.mgmtFault (s : State) (m code pc : Nat) : State :=
  let k := s.mc m
  let k1 := { k with fcode := BitVec.ofNat 32 code, fpcLo := BitVec.ofNat 32 pc, fpcHi := BitVec.ofNat 32 (pc / 2 ^ 32) }
  if k.vec = 0 then (s.setMc m { k1 with stopped := true }).interrupt 8
  else s.setMc m { k1 with pc := BitVec.ofNat 48 k.vec.toNat, hdr := k.vec.toNat, entered := false, guardOff := false,
                           heads := insNat k.vec.toNat k.heads }

/-- Raise a fault at a word of an agent (R128, R196, R198). A scalar word that runs ahead holds its fault until the wide side
reaches its clause. -/
def State.raiseAt (s : State) (ag : Agent) (code lanes pc info : Nat) : State :=
  match ag with
  | .none => s
  | .group b g => match s.blk b with
    | none => s
    | some k => if k.priv g then s.nested b code else s.takeFault b ⟨code, g, lanes, pc, info, 0⟩ false
  | .scalar b g => match s.bg b g with
    | none => s
    | some (k, x) =>
      if x.wideHdr = some s.cur.hdr then
        if k.priv g then s.nested b code else s.takeFault b ⟨code, g, 0, pc, info, 0⟩ false
      else s.updGrp b g (fun y => { y with sFault := some ⟨code, g, 0, pc, info, 0⟩ })
  | .matrix b => s.takeFault b ⟨code, 0x10, 0, pc, info, 0⟩ false
  | .copy b => s.takeFault b ⟨code, 0x11, 0, pc, info, 0⟩ false
  | .mgmt m => s.mgmtFault m code pc

/-- Raise a fault at the current word for the given lanes. -/
def State.raiseFor (s : State) (code lanes info : Nat) : State := s.raiseAt s.cur.ag code lanes s.cur.pc info

/-- Raise a fault at the current word for its active lanes. -/
def State.raise (s : State) (code info : Nat) : State := s.raiseFor code (maskOf s.cur.act) info

/-- Every group has ended and both streams are idle (R170). -/
def Block.over_ (b : Block) : Bool := b.groups.all (fun g => g.ended) && !b.ms.running && !b.cs.running

/-- A block that has ended leaves its core, and its task's state follows (R115, R170, R237). -/
def State.tryEndBlock (s : State) (bid : Nat) : State :=
  match s.blk bid with
  | none => s
  | some b => if b.over_ then ((s.closePackets b).removeBlock b).checkDone b.task else s

/-- A stream's run ends (R188): its participation ends as a departure, and the block may end. -/
def State.endRun (s : State) (bid : Nat) (copy : Bool) : State :=
  let off := fun (x : Stream) => { x with running := false, part := 0 }
  let at_ := match s.blk bid with
    | some k => (upFrom 0 16).filter (fun n => (if copy then k.cs else k.ms).part.getLsbD n)
    | none => []
  let s1 := s.updBlk bid (fun k => if copy then { k with cs := off k.cs } else { k with ms := off k.ms })
  let who := if copy then 17 else 16
  let s2 := s1.depart bid who at_
  let s3 := match s2.blk bid with | some k => s2.trace 3 k who 0 | none => s2
  s3.tryEndBlock bid

/-- The end of a copy-stream clause (R264): its guarded arrival, which waits as `msignal` does, and its Y. -/
def State.copyEnd (s : State) (bid : Nat) : State :=
  match s.blk bid with
  | none => s
  | some k =>
    let x := k.cs
    match s.clauseIn (.part k.trec.part) .copy x.hdr x.hdr true x.fetched with
    | .inr _ => s
    | .inl (h, _) =>
      let mine := h.g && x.part.getLsbD h.guard
      if mine && (tget Bar.zero k.bars h.guard).seqarr.getLsbD 1 then s.wait (.barrier h.guard)
      else
        let s1 := s.updBlk bid (fun b => { b with cs := { b.cs with hdr := b.cs.pc, entered := false, wait := none } })
        let s2 := if mine then s1.barArrive bid 17 h.guard else s1
        if h.y then s2.endRun bid true else s2

/-- The copy stream's word retires. -/
def State.retireCopy (s : State) (bid : Nat) : State :=
  let s1 := s.updBlk bid (fun x => { x with cs := { x.cs with pc := s.cur.pc + 4, again := false, wait := none } })
  if s.cur.pc = s.cur.hdr + 4 * s.cur.n then s1.copyEnd bid else s1

/-- The word of the current agent retires. -/
def State.retire (s : State) : State :=
  match s.cur.ag with
  | .none => s
  | .group b g => s.retireGroup b g
  | .scalar b g => s.retireScalar b g
  | .matrix b => s.updBlk b (fun x => { x with ms := (x.ms.countWait s.cycle).advance s.cur })
  | .copy b => s.retireCopy b
  | .mgmt m => s.setMc m ((s.mc m).advance s.cur)

/-- A group without fibres ends once its counters are zero, outside the handler and with no fault held for its block (R76, R124, R135,
R280). -/
def State.tryEndGroup (s : State) (bid g : Nat) : State :=
  match s.bg bid g with
  | none => s
  | some (b, x) =>
    if x.ended || !x.countersZero 63 || b.priv g || b.stopping || decide (x.heldLanes ≠ []) then s
    else
      let s1 := s.updGrp bid g (fun y => { y with ended := true, fq := [], rq := [], sc := none, sAhead := [], wait := none, swait := none })
      let gone := fun (o : Option (Nat × Nat)) => if o = some (bid, g) then none else o
      let s2 := s1.updQuad b.core x.quad (fun q => { q with cur := gone q.cur, holder := gone q.holder })
      (s2.depart bid g (upFrom 0 16)).tryEndBlock bid

/-- The party number of a group under its task's descriptor (R218). -/
def Block.partyOf (b : Block) (g : Nat) : Option Nat :=
  match b.rr with
  | none => none
  | some d =>
    let i := (d.parties.takeWhile (fun p => !(decide (p.1 = b.index) && decide (p.2 = g)))).length
    if i < d.parties.length then some i else none

/-- Set bit 7 of the mode byte of a descriptor (R219, R221). -/
def State.rrOverflow (s : State) (d : RrDesc) : State := s.homeWrite d.addr (toLe 1 (s.homeLe d.addr 1 ||| 0x80))

/-- A checkpoint or end entry of a party's hash log (R221, R280). The flag says that the replay differs. -/
def State.hashCheck (s : State) (part : Nat) (d : RrDesc) (p : Nat) (h n : Nat) (isEnd : Bool) : State × Bool :=
  let j := tget 0 (s.rrPos part d).hashPos p
  let next := fun (t : State) => t.setRr part d { t.rrPos part d with hashPos := tset 0 (t.rrPos part d).hashPos p (j + 1) }
  let va := d.hashBase + 16 * (d.entries * p + j)
  let rec_ := decide (d.mode = 1)
  if d.entries ≤ j then (s, !rec_ && isEnd)
  else
    match s.vaPieces part (if rec_ then .wr else .rd) va 16 with
    | .inl ps =>
      if ps.any (fun x => s.poisonedIn x.1 x.2) then (if rec_ then (next s).rrOverflow d else s, !rec_)
      else if rec_ then ((next s).putPieces ps (toLe 8 n ++ toLe 8 h), false)
      else
        let cnt := leAt (s.pieceBytes ps) 0 8
        let hh := leAt (s.pieceBytes ps) 8 8
        if cnt = n then (next s, decide (hh ≠ h)) else (s, isEnd)
    | _ => (if rec_ then (next s).rrOverflow d else s, !rec_)

/-- Hash the stored units of a word: address, value, lane (R221). The answer names the lane of the first failing
checkpoint. -/
def State.hashUnits (s : State) (bid g : Nat) (d : RrDesc) (p : Nat) : List (Nat × Nat × Nat) → Option Nat → State × Option Nat
  | [], bad => (s, bad)
  | (a, v, l) :: rest, bad =>
    match s.bg bid g with
    | none => (s, bad)
    | some (b, x) =>
      let h := rotl64 x.rrh.toNat 5 ^^^ a ^^^ v
      let n := x.rrn + 1
      let s1 := s.updGrp bid g (fun y => { y with rrh := BitVec.ofNat 64 h, rrn := n })
      if n % 2 ^ d.shift = 0 then
        let (s2, diff) := s1.hashCheck b.trec.part d p h n false
        s2.hashUnits bid g d p rest (if bad.isNone && diff then some l else bad)
      else s1.hashUnits bid g d p rest bad

/-- Hash a word's stores for a party group; a divergence is taken after the word (R221). -/
def State.hashStores (s : State) (bid g : Nat) (units : List (Nat × Nat × Nat)) : State × Option Nat :=
  match s.blk bid with
  | none => (s, none)
  | some b => match b.rr, b.partyOf g with
    | some d, some p => s.hashUnits bid g d p units none
    | _, _ => (s, none)

/-- The 4-byte units of a stored value in ascending address order (R221); a narrower store is one unit. -/
def unitsOf (a n v l : Nat) : List (Nat × Nat × Nat) :=
  if n < 4 then [(a, v % 2 ^ (8 * n), l)] else (upFrom 0 (n / 4)).map (fun i => (a + 4 * i, v / 2 ^ (32 * i) % 2 ^ 32, l))

/-- Take a `replay-divergence` after the current word has retired (R221). -/
def State.diverge (s : State) (lanes : Nat) : State := s.raiseFor 0x12 lanes 0

/-- The stores of a group to other scratchpads are performed. -/
def State.flushGroup (s : State) (c b g : Nat) : State := s.flush c (fun o => decide (o.blk = b) && decide (o.grp = g))

/-- Every outstanding access of a group is complete. -/
def State.quietGroup (s : State) (c b g : Nat) : Bool :=
  !(s.core c).outs.any (fun o => decide (o.blk = b) && decide (o.grp = g))

/-- The halted block resumes from its handler: held faults are raised first (R208, R205). One that is being saved holds them on (R215). -/
def State.resume (s : State) (bid : Nat) : State :=
  match s.blk bid with
  | none => s
  | some b => if b.saving ≠ .no then s else match b.pend with
    | f :: rest => (s.updBlk bid (fun x => { x with pend := rest })).takeFault bid f false
    | [] =>
      if b.stopReq then
        (s.updBlk bid (fun x => { x with stopReq := false })).takeFault bid
          ⟨0x13, b.lowestHeld, 0, b.tracePc b.lowestHeld, 0, 0⟩ true
      else s

/-- The class S headers from one clause up to another in fetch order; none when the walk does not reach it. -/
def State.scalarTo (s : State) (part target : Nat) : Nat → Nat → List Nat → Option (List Nat)
  | 0, _, _ => none
  | fuel + 1, at_, acc =>
    if at_ = target then some acc
    else if target < at_ then none
    else match s.code (.part part) at_ with
      | .inr _ => none
      | .inl w => match hdrOf .group w with
        | none => none
        | some h => s.scalarTo part target fuel (at_ + 4 * (h.n + 1)) (if h.cls = 0 then acc ++ [at_] else acc)

/-- A restored group's scalar side goes on from its saved scalar position (R128): the class S clauses before it count as
executed, and a class S clause in which the wide side's lanes stand belongs to the scalar side again (log entry 12). -/
def State.rescalar (s : State) (bid g spos : Nat) (p : Pos) : State :=
  match s.bg bid g with
  | none => s
  | some (b, x) =>
    let ls := lanes32.filter (fun l => (x.lane l).isLive && (x.lane l).entered && decide ((x.lane l).hdr = p.hdr))
    let within : Option Hdr := if ls = [] then none else match s.code (.part b.trec.part) p.hdr with
      | .inl w => (match hdrOf .group w with
        | some h => if h.cls = 0 then some h else none
        | none => none)
      | .inr _ => none
    match within with
    | some h => s.updGrp bid g (fun y => { (y.mapLanes ls (fun _ z => z.enter p.hdr)) with
        sAhead := [], sc := some ⟨p.hdr, p.idx, h.n, h.y, decide (p.act ≠ 0)⟩ })
    | none =>
      let w := match x.wideHdr with | some h => h | none => spos
      let ahead := match s.scalarTo b.trec.part spos (2 ^ 30) w [] with | some l => l | none => []
      let sc := match x.sc with | some r => if r.hdr = spos then some r else none | none => none
      s.updGrp bid g (fun y => { y with sAhead := ahead, sc := sc })

/-- Return from the handler (R208). -/
def State.tret (s : State) (bid : Nat) : State :=
  match s.blk bid with
  | none => s
  | some b => match b.mode with
    | .run => s
    | .handler h code =>
      if code = 0x10 then s.terminate bid code
      else match s.homeGet b.core b.trec.part b.frameAt 2048 with
        | .inr c => s.nested bid c
        | .inl (bs, s1) =>
          let marks := (upFrom 0 400).filter (fun w => bitOf (leAt bs (0x700 + w / 8) 1) (w % 8))
          let s2 := s1.updBlk bid (fun k =>
            let old := match k.stash with | some g => g | none => Group.new h 0 0
            let cur := match k.grp h with | some g => g | none => old
            let back := backGroup bs marks { old with rrh := cur.rrh, rrn := cur.rrn, win := cur.win, vv := cur.vv, vw := cur.vw, vt := cur.vt, va := cur.va }
            { (k.updGrp h (fun _ => back)) with
              mode := .run, stash := none, dumpbase := 0 })
          let s3 := (s2.rescalar bid h (leAt bs 0x636 6) (posOf bs)).repost bid
          let s4 := match s3.bg bid h with
            | some (k, x) => s3.updQuad k.core x.quad (fun q => { q with cur := none })
            | none => s3
          (b.groups.foldl (fun t x => t.tryEndGroup bid x.num) s4).resume bid

end Sys2Proof.Machine
end

