-- ==== Sys2Proof/Machine/Operands.lean ====
section
/-! DEFINITION. Operand forms: views and slots, latches, helper lanes, wide words and their results, once-per-group operands,
scalar operands (R26 to R32, R64, R65, R69, R82 to R87, R116, R117, R120, R126). -/
namespace Sys2Proof.Machine

/-- What a meaning answers. -/
abbrev Out := Host.Outcome State Fault Refusal

/-- The register views (R117). -/
inductive View where
  | v
  | w
  | t
  | a
  deriving DecidableEq, Repr

/-- The view of a format R code (R29). -/
def viewOf (n : Nat) : View :=
  match n with
  | 0 => .v
  | 1 => .w
  | 2 => .t
  | _ => .a

/-- 32-bit parts of a lane (R87). -/
def View.parts : View → Nat
  | .v => 1
  | .w => 2
  | .t => 4
  | .a => 1

/-- The size of a frame in bytes (R69). -/
def Group.frameBytes (g : Group) : Nat := g.frame * 128

/-- The number of frames of the window ring (R69). -/
def frameCount (gwin vv f : Nat) : Nat := (gwin - vv) / f

/-- The byte of slot `n` of the `v` view for a lane at a call depth (R69). -/
def vByte (gwin vv f depth n l : Nat) : Nat :=
  if f = 0 then vv + 128 * n + 4 * l
  else vv + (depth * f + 128 * n) % (frameCount gwin vv f * f) + 4 * l

/-- The first word of lane `l` of a slot in its window (R117). -/
def Block.slotWord (b : Block) (g : Group) (vw : View) (n l : Nat) : Nat :=
  match vw with
  | .v => vByte b.gwinBytes g.inf.vv g.frameBytes (g.lane l).depth n l / 4
  | .w => (g.inf.vw + 256 * n + 8 * l) / 4
  | .t => (g.inf.vt + 512 * n + 16 * l) / 4
  | .a => (g.inf.va + 128 * n + 4 * l) / 4

/-- A slot lies inside its window (R116). -/
def Block.slotOk (b : Block) (g : Group) (vw : View) (n : Nat) : Bool :=
  match vw with
  | .v => decide (g.frame ≠ 0) || decide (g.inf.vv + 128 * n + 128 ≤ b.gwinBytes)
  | .w => decide (g.inf.vw + 256 * n + 256 ≤ b.gwinBytes)
  | .t => decide (g.inf.vt + 512 * n + 512 ≤ b.gwinBytes)
  | .a => decide (g.inf.va + 128 * n + 128 ≤ b.bwinBytes)

/-- The words of a lane of a slot. -/
def Block.readSlot (b : Block) (g : Group) (vw : View) (n l : Nat) : List RWord :=
  tgets RWord.zero (match vw with
    | .a => b.bwin
    | _ => g.win) (b.slotWord g vw n l) vw.parts

/-- A latch (R26). -/
def Group.latch (g : Group) (n : Nat) : Sparse RWord := if n = 125 then g.by1 else if n = 126 then g.by2 else g.by3

/-- A source lane: a slot's words, or a latch word with zeros above it (R26, R27). -/
def Block.src (b : Block) (g : Group) (vw : View) (n l : Nat) : List RWord :=
  if n < 125 then b.readSlot g vw n l
  else tget RWord.zero (g.latch n) l :: copies (vw.parts - 1) RWord.zero

/-- The number that the words of a lane stand for. -/
def valOf : List RWord → Nat
  | [] => 0
  | w :: rest => w.val.toNat + 2 ^ 32 * valOf rest

/-- Which words of a lane fail their residue. -/
def badOf (ws : List RWord) : List Bool := ws.map (fun w => !rok w)

/-- Every word of a lane matches its residue. -/
def goodOf (ws : List RWord) : Bool := ws.all rok

/-- Write the words of a lane of a slot of a group's window. -/
def Block.writeSlot (b : Block) (g : Nat) (vw : View) (n l : Nat) (ws : List RWord) : Block :=
  match b.grp g with
  | none => b
  | some x =>
    let k := b.slotWord x vw n l
    match vw with
    | .a => { b with bwin := tsets RWord.zero b.bwin k ws }
    | _ => b.updGrp g (fun y => { y with win := tsets RWord.zero y.win k ws })

/-- Write results lane by lane. -/
def Block.writeLanes (b : Block) (g : Nat) (vw : View) (n : Nat) : List (Nat × List RWord) → Block
  | [] => b
  | (l, ws) :: rest => (b.writeSlot g vw n l ws).writeLanes g vw n rest

/-- The helper lanes of a class W word: free lanes of a quad with an active lane (R64). -/
def Group.helpers (g : Group) (act : List Nat) : List Nat :=
  lanes32.filter (fun l => decide ((g.lane l).st = .free) && act.any (fun k => decide (k / 4 = l / 4)))

/-- The latches after a word pushes: its lanes take the low word of their result, the others 0 (R13, R27). -/
def Group.push (g : Group) (rs : List (Nat × List RWord)) : Group :=
  { g with by3 := g.by2, by2 := g.by1, by1 := rs.foldl (fun t r => tset RWord.zero t r.1 (r.2.headD RWord.zero)) [] }

/-- What a wide word reads: its block, its group, its active lanes and its helper lanes. -/
structure Wx where
  b : Block
  g : Group
  act : List Nat
  hel : List Nat
  deriving DecidableEq, Repr

/-- The lanes that a wide word writes (R82). -/
def Wx.writers (x : Wx) : List Nat := x.act ++ x.hel

/-- A source lane of a wide word. -/
def Wx.src (x : Wx) (vw : View) (n l : Nat) : List RWord := x.b.src x.g vw n l

/-- A lane is active. -/
def Wx.isAct (x : Wx) (l : Nat) : Bool := decide (l ∈ x.act)

/-- The lowest active lane. -/
def Wx.l0 (x : Wx) : Nat := match leastOf x.act with | some l => l | none => 0

/-- The named slots lie inside their windows; latches are no slots (R116). -/
def Wx.slotsOk (x : Wx) (slots : List (View × Nat)) : Bool := slots.all (fun p => decide (125 ≤ p.2) || x.b.slotOk x.g p.1 p.2)

/-- A fault that a wide word finds: its code and its lanes. -/
abbrev WErr := Nat × Nat

/-- The frame of every class W word: with no active lane it only retires (R18); a slot outside its window raises
`protection` (R116); else `f` gives the block and group after the word, or its fault. -/
def wideWord (slots : List (View × Nat)) (f : Wx → Block ⊕ WErr) (s : State) : Out :=
  match s.cur.ag with
  | .group b g => match s.bg b g with
    | none => .fault .noAgent
    | some (k, x) =>
      if s.cur.act = [] then .next s.retire
      else
        let c : Wx := ⟨k, x, s.cur.act, x.helpers s.cur.act⟩
        if c.slotsOk slots then
          match f c with
          | .inr e => .next (s.raiseFor e.1 e.2 0)
          | .inl k' => .next (s.updBlk b (fun _ => k')).retire
        else .next (s.raise 0x07 0)
  | _ => .fault .noAgent

/-- Deliver register results: to the slot `d`, or to the bypass alone with T = 1; the word pushes either way (R13, R28). -/
def Wx.deliver (x : Wx) (vw : View) (t d : Nat) (rs : List (Nat × List RWord)) : Block :=
  let b1 := if t = 1 then x.b else x.b.writeLanes x.g.num vw d rs
  b1.updGrp x.g.num (fun y => y.push rs)

/-- A word that computes each written lane from the sources. -/
def wideReg (vw : View) (t d : Nat) (srcs : List Nat) (f : Wx → (List (Nat × List RWord)) ⊕ WErr) (s : State) : Out :=
  wideWord ((if t = 1 then [] else [(vw, d)]) ++ srcs.map (fun n => (vw, n))) (fun x => match f x with
    | .inr e => .inr e
    | .inl rs => .inl (x.deliver vw t d rs)) s

/-- How result words depend on operand words (R84): word by word, through carries, on everything, only in the low word, in
reverse order, or as shifts, bit fields and addresses do. -/
inductive Dep where
  | each
  | carry
  | all
  | low
  | rev
  | left
  | right
  | field
  | insert
  | lea
  deriving DecidableEq, Repr

/-- Running or over a list of flags. -/
def orUp : Bool → List Bool → List Bool
  | _, [] => []
  | acc, b :: rest => (acc || b) :: orUp (acc || b) rest

/-- Flags joined word by word. -/
def orZip : List Bool → List Bool → List Bool
  | a :: as, b :: bs => (a || b) :: orZip as bs
  | as, _ => as

/-- Which result words are bad, from which operand words are (R84). -/
def depend (dep : Dep) (a b d : List Bool) : List Bool :=
  let n := a.length
  let bb := b.any id
  match dep with
  | .each => orZip (orZip a b) d
  | .carry => orUp false (orZip (orZip a b) d)
  | .all => copies n (a.any id || bb || d.any id)
  | .low => (a.any id || bb) :: copies (n - 1) false
  | .rev => a.reverse
  | .left => (orUp false a).map (fun x => x || bb)
  | .right => (orUp false a.reverse).reverse.map (fun x => x || bb)
  | .field => (orUp false a.reverse).reverse.map (fun x => x || b.headD false)
  | .lea => orUp false (orZip a (b.take 1))
  | .insert => orZip ((orUp false a).map (fun x => x || b.headD false)) d

/-- The words of a number with their residues. -/
def wordsFor (v : Nat) : List Bool → List RWord
  | [] => []
  | bad :: rest => computed (!bad) (v % 2 ^ 32) :: wordsFor (v / 2 ^ 32) rest

/-- Three flags-lists of a word that reads only some of its operands. -/
def clean (vw : View) : List Bool := copies vw.parts false

/-- The source that `vmac` and its like read as their destination: slot 0 with T = 1 (R83). -/
def dSrc (t d : Nat) : Nat := if t = 1 then 0 else d

/-- A lane-local word of two operands. -/
def lane2 (vw : View) (dep : Dep) (t d a b : Nat) (f : Nat → Nat → Nat) (s : State) : Out :=
  wideReg vw t d [a, b] (fun x => .inl (x.writers.map (fun l =>
    let p := x.src vw a l
    let q := x.src vw b l
    (l, wordsFor (f (valOf p) (valOf q)) (depend dep (badOf p) (badOf q) (clean vw)))))) s

/-- A lane-local word of one operand. -/
def lane1 (vw : View) (dep : Dep) (t d a : Nat) (f : Nat → Nat) (s : State) : Out :=
  wideReg vw t d [a] (fun x => .inl (x.writers.map (fun l =>
    let p := x.src vw a l
    (l, wordsFor (f (valOf p)) (depend dep (badOf p) (clean vw) (clean vw)))))) s

/-- A lane-local word that also reads its destination (R83). -/
def lane3 (vw : View) (dep : Dep) (t d a b : Nat) (f : Nat → Nat → Nat → Nat) (s : State) : Out :=
  wideReg vw t d [a, b, dSrc t d] (fun x => .inl (x.writers.map (fun l =>
    let p := x.src vw a l
    let q := x.src vw b l
    let r := x.src vw (dSrc t d) l
    (l, wordsFor (f (valOf p) (valOf q) (valOf r)) (depend dep (badOf p) (badOf q) (badOf r)))))) s

/-- The part-wise form of a function of one word. -/
def eachPart (f : RWord → RWord) (ws : List RWord) : List RWord := ws.map f

/-- A part-wise computation of one operand. -/
def part1 (vw : View) (t d a : Nat) (f : Nat → Nat) (s : State) : Out :=
  wideReg vw t d [a] (fun x => .inl (x.writers.map (fun l =>
    (l, (x.src vw a l).map (fun w => computed (rok w) (f w.val.toNat)))))) s

/-- A part-wise computation of two operands. -/
def part2 (vw : View) (t d a b : Nat) (f : Nat → Nat → Nat) (s : State) : Out :=
  wideReg vw t d [a, b] (fun x => .inl (x.writers.map (fun l =>
    (l, ((x.src vw a l).zip (x.src vw b l)).map (fun p => computed (rok p.1 && rok p.2) (f p.1.val.toNat p.2.val.toNat)))))) s

/-- A part-wise computation of two operands and the destination. -/
def part3 (vw : View) (t d a b : Nat) (f : Nat → Nat → Nat → Nat) (s : State) : Out :=
  wideReg vw t d [a, b, dSrc t d] (fun x => .inl (x.writers.map (fun l =>
    (l, (((x.src vw a l).zip (x.src vw b l)).zip (x.src vw (dSrc t d) l)).map (fun p =>
      computed (rok p.1.1 && rok p.1.2 && rok p.2) (f p.1.1.val.toNat p.1.2.val.toNat p.2.val.toNat)))))) s

/-- A selector byte (R85): its residue, then the value; `ok` says which values the entry assigns. -/
def Wx.selector (x : Wx) (vw : View) (b : Nat) (ok : Nat → Bool) : Nat ⊕ WErr :=
  let w := (x.src vw b x.l0).headD RWord.zero
  let v := w.val.toNat % 256
  if !rok w then .inr (0x04, maskOf [x.l0])
  else if ok v then .inl v
  else .inr (0x01, maskOf x.act)

/-- A word that reads a selector byte. -/
def wideSel (vw : View) (t d a b : Nat) (ok : Nat → Bool) (f : Wx → Nat → List (Nat × List RWord)) (s : State) : Out :=
  wideReg vw t d [a, b] (fun x => match x.selector vw b ok with
    | .inr e => .inr e
    | .inl v => .inl (f x v)) s

/-- Write predicate bits of lanes. A helper lane's record follows (R65), also before a first `spawn` in the lane (R272; log entry 83). -/
def Block.setPreds (b : Block) (g p : Nat) (rs : List (Nat × Bool)) : Block :=
  b.updGrp g (fun x => rs.foldl (fun y r => y.setLane r.1 ((y.lane r.1).setP p r.2)) x)

/-- A word that writes a predicate in every written lane; it pushes nothing (R27). -/
def widePred (p : Nat) (slots : List (View × Nat)) (f : Wx → List (Nat × Bool) ⊕ WErr) (s : State) : Out :=
  wideWord slots (fun x => match f x with
    | .inr e => .inr e
    | .inl rs => .inl (x.b.setPreds x.g.num p rs)) s

/-- A compare: the operand words of every active lane are checked; a helper lane that mismatches writes 0 (R84). -/
def wideCmp (vw : View) (p a b : Nat) (f : Nat → Nat → Bool) (s : State) : Out :=
  widePred p [(vw, a), (vw, b)] (fun x =>
    let good := fun l => goodOf (x.src vw a l) && goodOf (x.src vw b l)
    match x.act.filter (fun l => !good l) with
    | l :: ls => .inr (0x04, maskOf (l :: ls))
    | [] => .inl (x.writers.map (fun l => (l, good l && f (valOf (x.src vw a l)) (valOf (x.src vw b l)))))) s

/-- A join clause's word with no active lane, or by no group: the frame of classes M, C, Y and F. `f` acts for the block, the
group and its active lanes. A management core refuses it, whatever its guard (R18, R33, R79). -/
def joinWord (f : Block → Group → List Nat → Out) (s : State) : Out :=
  match s.cur.ag with
  | .group b g => match s.bg b g with
    | none => .fault .noAgent
    | some (k, x) => if s.cur.act = [] then .next s.retire else f k x s.cur.act
  | .mgmt _ => .next (s.raise 0x01 0)
  | _ => .fault .noAgent

/-- The named slots lie inside their windows (R116). -/
def Block.slotsOk (b : Block) (g : Group) (slots : List (View × Nat)) : Bool :=
  slots.all (fun p => decide (125 ≤ p.2) || b.slotOk g p.1 p.2)

/-- The lowest of the active lanes (R32). -/
def lowest (act : List Nat) : Nat := match leastOf act with | some l => l | none => 0

/-- Write one value to the destination lane of every active lane (R32), with fresh residues. -/
def State.giveAll (s : State) (b g : Nat) (vw : View) (d : Nat) (act : List Nat) (v : Nat) : State :=
  s.updBlk b (fun k => k.writeLanes g vw d (act.map (fun l => (l, wordsFor v (clean vw)))))

/-- Write a predicate bit of every active lane. -/
def State.predAll (s : State) (b g p : Nat) (act : List Nat) (v : Bool) : State :=
  s.updBlk b (fun k => k.setPreds g p (act.map (fun l => (l, v))))

/-- The scalar registers that a scalar word acts on: a group's, or a management core's (R129, R297). -/
def State.sregs (s : State) : Option SRegs :=
  match s.cur.ag with
  | .scalar b g => (match s.bg b g with | some (_, x) => some x.sregs | none => none)
  | .group b g => (match s.bg b g with | some (_, x) => some x.sregs | none => none)
  | .mgmt m => some (s.mc m).sregs
  | _ => none

/-- Replace them. -/
def State.setSregs (s : State) (r : SRegs) : State :=
  match s.cur.ag with
  | .scalar b g => s.updGrp b g (fun x => { x with sregs := r })
  | .group b g => s.updGrp b g (fun x => { x with sregs := r })
  | .mgmt m => s.setMc m { s.mc m with sregs := r }
  | _ => s

/-- The scalar predicates likewise. -/
def State.spreds (s : State) : BitVec 8 :=
  match s.cur.ag with
  | .scalar b g => (match s.bg b g with | some (_, x) => x.sp | none => 1)
  | .group b g => (match s.bg b g with | some (_, x) => x.sp | none => 1)
  | .mgmt m => (s.mc m).sp
  | _ => 1

def State.setSpreds (s : State) (p : BitVec 8) : State :=
  match s.cur.ag with
  | .scalar b g => s.updGrp b g (fun x => { x with sp := p })
  | .group b g => s.updGrp b g (fun x => { x with sp := p })
  | .mgmt m => s.setMc m { s.mc m with sp := p }
  | _ => s

/-- The frame of a class S or class P word: `f` acts on the scalar registers. A clause whose guard fails has its words retire
without effect (R17, R18, R126). -/
def scalarWord (f : SRegs → Out) (s : State) : Out :=
  match s.sregs with
  | none => .fault .noAgent
  | some r => if s.cur.act = [] then .next s.retire else f r

/-- The frame of a class S word that needs a group: a management core refuses it, whatever its guard (R18, R297). -/
def groupScalar (f : SRegs → Out) (s : State) : Out :=
  match s.cur.ag with
  | .mgmt _ => .next (s.raise 0x01 0)
  | _ => scalarWord f s

/-- The halves of a scalar register. -/
def shalves (r : SRegs) (n : Nat) : List RWord := tgets RWord.zero r (2 * n) 2

/-- Write the halves of a scalar register. -/
def sput (r : SRegs) (n : Nat) (ws : List RWord) : SRegs := tsets RWord.zero r (2 * n) ws

/-- A scalar computation of two operands (R129). -/
def scalar2 (dep : Dep) (d a b : Nat) (f : Nat → Nat → Nat) (s : State) : Out :=
  scalarWord (fun r =>
    let p := shalves r a
    let q := shalves r b
    .next (s.setSregs (sput r d (wordsFor (f (valOf p) (valOf q)) (depend dep (badOf p) (badOf q) [false, false])))).retire) s

/-- A value that the device creates or loads, with fresh residues (R119). -/
def sfresh (r : SRegs) (d v : Nat) : SRegs := sput r d (wordsFor v [false, false])

end Sys2Proof.Machine
end

