-- ==== Sys2Proof/Machine/Flags.lean ====
section
/-! DEFINITION. Conditions and predicates: the compare codes of R30 and R131, guards (R17), the float order of R95, the bits
that predicate words write (R112). -/
namespace Sys2Proof.Machine

/-- The integer conditions of `vcmp` (R30): equal, not equal, less, less or equal, greater, greater or equal. -/
def condInt (c : Nat) (a b : Int) : Bool :=
  match c with
  | 0 => decide (a = b)
  | 1 => decide (a ≠ b)
  | 2 => decide (a < b)
  | 3 => decide (a ≤ b)
  | 4 => decide (b < a)
  | _ => decide (b ≤ a)

/-- The conditions of `scmp` (R131): the six signed ones, then unsigned less and unsigned greater or equal. -/
def condScalar (c a b : Nat) : Bool :=
  match c with
  | 6 => decide (a < b)
  | 7 => decide (b ≤ a)
  | _ => condInt c (sgn 64 a) (sgn 64 b)

/-- The float conditions of `vfcmp` (R30, R95): a NaN makes the comparison unordered. -/
def condFloat (c a b : Nat) : Bool :=
  let x := f32v a
  let y := f32v b
  let un := x.isNan || y.isNan
  match c with
  | 0 => !un && decide (fcmp x y = 0)
  | 1 => un || decide (fcmp x y ≠ 0)
  | 2 => !un && decide (fcmp x y < 0)
  | 3 => !un && decide (fcmp x y ≤ 0)
  | 4 => !un && decide (0 < fcmp x y)
  | 5 => !un && decide (0 ≤ fcmp x y)
  | _ => un

/-- A guard passes: the bit differs from the sense (R15, R17). -/
def guardPass (bit : Bool) (sense : Nat) : Bool := bit ^^ decide (sense = 1)

/-- The lanes of a set that fail a clause's guard: a scalar predicate in classes S and P, a lane predicate in the others
(R17). -/
def Group.failing (g : Group) (h : Hdr) (set : List Nat) : List Nat :=
  if !h.g then []
  else if h.cls = 0 ∨ h.cls = 7 then (if guardPass (spBit g.sp h.guard) h.sense then [] else set)
  else set.filter (fun l => !guardPass ((g.lane l).p h.guard) h.sense)

/-- A predicate word: `f` of the lane's bits, in every written lane (R112). -/
def predWord (d : Nat) (f : Lane → Bool) (s : State) : Out :=
  widePred d [] (fun x => .inl (x.writers.map (fun l => (l, f (x.g.lane l))))) s

end Sys2Proof.Machine
end

