-- ==== Sys2Proof/Machine/MemOps.lean ====
section
/-! DEFINITION. The shared operations of memory words: lane targets, the checks of R154 in their order, presence, loads and
stores, counters, translation waits (R124, R139 to R151, R153 to R155, R228). -/
namespace Sys2Proof.Machine

/-- Where a lane's access goes: a virtual address, or an offset in a block's scratchpad. -/
inductive Tgt where
  | va (a : Nat)
  | sp (blk : Nat) (off : Nat)
  deriving DecidableEq, Repr

/-- One lane of an access with what the checks of R154 found: residue of its address, alignment, translation, a miss's page,
protection (with the cluster's codes), a cluster slot to wait for, its target, residue of its data; and whether it names a member's
scratchpad by its cluster slot (R157). -/
structure La where
  l : Nat
  info : Nat
  resOk : Bool
  algOk : Bool
  xlBad : Bool
  miss : Option Nat
  prot : Option Nat
  park : Option Nat
  tgt : Tgt
  datOk : Bool
  member : Bool
  deriving DecidableEq, Repr

/-- What the checks answer. -/
inductive Chk where
  | ok
  | fault (code lanes info : Nat)
  | walk (page : Nat)
  | park
  deriving DecidableEq, Repr

/-- The lanes that fail a check decide its fault: their mask, the lowest one's address (R154, R204). -/
def failing (code : Nat) (bad : La → Bool) (withInfo : Bool) (ls : List La) : Option Chk :=
  match ls.filter bad with
  | [] => none
  | x :: rest => some (.fault code (maskOf ((x :: rest).map (fun y => y.l))) (if withInfo then x.info else 0))

/-- The first answer of a list. -/
def firstChk : List (Option Chk) → Chk
  | [] => .ok
  | some c :: _ => c
  | none :: rest => firstChk rest

/-- The checks of R154 in their order, every page that a lane misses being walked before translation is decided; a protection check is
decided by its first failing lane's code (R228). -/
def checks (ls : List La) : Chk :=
  let prot := match firstOf (fun x => x.prot.isSome) ls with
    | some x => (match x.prot with
      | some c => failing c (fun y => decide (y.prot = some c)) true ls
      | none => none)
    | none => none
  let miss := match firstOf (fun x => x.miss.isSome) ls with
    | some x => (match x.miss with
      | some p => some (Chk.walk p)
      | none => none)
    | none => none
  firstChk [failing 0x04 (fun x => !x.resOk) false ls, failing 0x05 (fun x => !x.algOk) true ls,
    miss, failing 0x06 (fun x => x.xlBad) true ls, prot, if ls.any (fun x => x.park.isSome) then some .park else none,
    failing 0x04 (fun x => !x.datOk) false ls]

/-- An offset access to a block's own or a member's scratchpad of `n` bytes (R142). -/
def spLane (l : Nat) (resOk datOk : Bool) (b : Block) (off : Int) (n : Nat) : La :=
  let ok := decide (0 ≤ off) && decide (off + n ≤ (spallocOf b.trec : Int))
  ⟨l, ((scrBase : Int) + off).toNat, resOk, true, false, none, if ok then none else some 0x07, none, .sp b.id off.toNat, datOk, false⟩

/-- A virtual-address access of a lane (R139, R140). -/
def State.vaLane (s : State) (b : Block) (l : Nat) (resOk datOk : Bool) (k : Acc) (a n : Nat) : La :=
  if regionOf a = .scr then spLane l resOk datOk b ((a : Int) - scrBase) n
  else
    let e := a + n - 1
    let sync := decide (regionOf a = .sync) || decide (regionOf e = .sync)
    let algOk := !sync || (decide (n ≤ 8) && decide (a % n = 0))
    let x := s.route b.core b.trec.part k a
    let y := s.route b.core b.trec.part k e
    let bad := decide (x = .bad 6) || decide (y = .bad 6)
    let miss := if x = .miss then some (s.pageOf b.trec.part a) else if y = .miss then some (s.pageOf b.trec.part e) else none
    let prot := if x = .bad 7 ∨ y = .bad 7 ∨ regionOf e = .scr then some 0x07 else none
    ⟨l, a, resOk, algOk, bad, miss, prot, none, .va a, datOk, false⟩

/-- A walk of a page ends, asked for by a word that does not wait for it: it is one with the walk that others of the die may wait for, and
answers them too (R245; log entry 28). -/
def State.joinWalk (s : State) (core part page : Nat) : State :=
  let k := s.die (dieOf core)
  let mine := k.walkq.filter (fun x => decide (x.part = part) && decide (x.page = page))
  mine.foldl State.walked (s.setDie (dieOf core) { k with
    walkq := k.walkq.filter (fun x => !(decide (x.part = part) && decide (x.page = page))), walks := satInc32 k.walks,
    merged := BitVec.ofNat 32 (satAdd 32 k.merged.toNat mine.length) })

/-- Missing translations of a word that does not wait for its walks are walked at once, and counted (R245; log entry 28). -/
def State.walkNow (s : State) (core part a n : Nat) : State :=
  [a, a + n - 1].foldl (fun t x =>
    if regionOf x = .mem ∧ t.xlate core part .rd x = .miss then (t.joinWalk core part (t.pageOf part x)).fillTlb core part x else t) s

/-- A virtual-address access of a lane whose pages are walked at once: a page still missing has no mapping (R140, R245). -/
def State.laneNow (s : State) (b : Block) (l : Nat) (resOk datOk : Bool) (k : Acc) (a n : Nat) : State × La :=
  let s1 := s.walkNow b.core b.trec.part a n
  let la := s1.vaLane b l resOk datOk k a n
  (s1, { la with xlBad := la.xlBad || la.miss.isSome, miss := none })

/-- The sector-wise pieces of a virtual range as physical ranges. -/
def State.physParts (s : State) (b : Block) (k : Acc) (a n : Nat) : List (Nat × Nat) :=
  (sectorParts (n + 1) a (copies n 0)).map (fun p => (match s.route b.core b.trec.part k p.1 with
    | .ok pa => pa
    | _ => 0, p.2.length))

/-- Bytes of a block's scratchpad hold an uncorrectable error (R141). -/
def Block.scrPoison (b : Block) (off n : Nat) : Bool := b.scrBad.any (fun k => decide (off < 8 * k + 8) && decide (8 * k < off + n))

/-- Load the bytes of a target for a core's block: the flag says that they are poisoned. -/
def State.loadTgt (s : State) (b : Block) (t : Tgt) (n : Nat) : List Byte × Bool × State :=
  match t with
  | .sp bid off => (match s.blk bid with
    | some k => (tgets 0 k.scr off n, k.scrPoison off n, s)
    | none => (copies n 0, false, s))
  | .va a =>
    if regionOf a = .sync then (s.homeBytes a n, s.poisonedIn a n, s.recall a n)
    else (s.physParts b .rd a n).foldl (fun acc p =>
      let r := acc.2.2.cacheRead b.core p.1 p.2
      (acc.1 ++ r.1, acc.2.1 || r.2.1, r.2.2)) ([], false, s)

/-- The lines that a range of a scratchpad touches (R142). -/
def linesOf (off n : Nat) : List Nat := upFrom (off / 512) ((off + n - 1) / 512 - off / 512 + 1)

/-- Store the bytes of a target; a scratchpad line written becomes present (R143, R149). -/
def State.storeTgt (s : State) (b : Block) (t : Tgt) (bs : List Byte) : State :=
  match t with
  | .sp bid off => s.updBlk bid (fun k => k.scrPut off bs)
  | .va a =>
    if regionOf a = .sync then s.homeWrite a bs
    else (cutBytes (s.physParts b .wr a bs.length) bs).foldl (fun t p => t.cacheWrite b.core p.1 p.2) s

/-- Some line that a target touches is absent (R143). -/
def State.absentTgt (s : State) (t : Tgt) (n : Nat) : Bool :=
  match t with
  | .va _ => false
  | .sp bid off => match s.blk bid with
    | some k => (linesOf off n).any (fun l => decide (l ∈ k.absent))
    | none => false

/-- The view that a data register of a size resolves in (R24). -/
def dataView (z : Nat) : View := if z < 3 then .v else if z = 3 then .w else .t

/-- Bytes of an access size (R23). -/
def sizeOf (z : Nat) : Nat := 2 ^ z

/-- A miss: the word waits, and its page joins the walks of the core's die (R245). -/
def State.waitWalk (s : State) (core part page : Nat) : State :=
  let d := dieOf core
  let k := s.die d
  let who := match s.cur.ag with | .group b g => (b, g) | .scalar b g => (b, g) | _ => (0, 0)
  let w : WalkReq := ⟨part, page, core, who.1, who.2⟩
  let q := if w ∈ k.walkq then k.walkq else k.walkq ++ [w]
  (s.setDie d { k with walkq := q }).wait (.walk page)

/-- A tracked word's counter is full (R124). -/
def Group.counterFull (g : Group) (sb : Nat) : Bool := decide (sb < 6) && decide (tget 0 g.sb sb = 63)

/-- An access issues: its counter rises and it stands among the core's outstanding accesses (R124, R154). -/
def State.issueAs (s : State) (c : Nat) (o : Outst) : State :=
  let k := s.core c
  (s.setCore c { k with outs := k.outs ++ [{ o with id := k.outNext }], outNext := k.outNext + 1 }).updGrp o.blk o.grp
    (fun x => if o.sb < 6 then { x with sb := tset 0 x.sb o.sb (tget 0 x.sb o.sb + 1) } else x)

/-- An access of a group issues, its effect performed but for a load's registers. -/
def State.issueOut (s : State) (b : Block) (g : Nat) (sb lanes : Nat) (poison : Option Nat) (writes : List (Nat × RWord)) : State :=
  s.issueAs b.core ⟨0, b.id, g, sb, s.cur.pc, lanes, poison, writes, 0, [], [], false⟩

/-- The access of a side of a group (1 wide, 2 scalar) that waits for presence. -/
def ofSide (b g side : Nat) (o : Outst) : Bool := decide (o.blk = b) && decide (o.grp = g) && decide (o.held = side)

/-- A load has issued and waits for presence (R143, R154): it stands among the core's accesses, its counter raised once. -/
def State.hold (s : State) (b : Block) (g sb lanes side : Nat) (spots : List Nat) (member : Bool) : State :=
  (if (s.core b.core).outs.any (ofSide b.id g side) then s
   else s.issueAs b.core ⟨0, b.id, g, sb, s.cur.pc, lanes, none, [], side, spots, [], member⟩).wait .presence

/-- A word of a side of a group has issued and waits for presence. -/
def State.holding (s : State) (b : Block) (g side : Nat) : Bool := (s.core b.core).outs.any (ofSide b.id g side)

/-- A load performs: it waits no more, and what its group has sent to the scratchpads that it reads is performed first (R231). -/
def State.unhold1 (s : State) (b : Block) (g side : Nat) (spots : List Nat) : State :=
  (s.unhold b.core (ofSide b.id g side)).flushFor b.core b.id g (s.core b.core).outNext spots

/-- What the core fetched ahead of a group's later words is dropped (R397). -/
def State.dropAhead (s : State) (b : Block) (g : Nat) : State := s.dropEarly b.core (fun x => decide (x.blk = b.id) && decide (x.grp = g))

/-- An access of a group to these scratchpads is performed; one that waits on presence bits comes before the group's later fetches (R397). -/
def State.passPresence (s : State) (b : Block) (g : Nat) (spots : List Nat) : State := if spots.isEmpty then s else s.dropAhead b g

/-- The blocks whose scratchpads a word's lanes reach. -/
def spotsOf (ls : List La) : List Nat := ls.filterMap (fun x => match x.tgt with | .sp b _ => some b | .va _ => none)

/-- What the checks answer becomes an outcome, or the access goes on. -/
def State.afterChecks (s : State) (b : Block) (ls : List La) (go : Out) : Out :=
  match checks ls with
  | .ok => go
  | .fault c lanes info => .next (s.raiseFor c lanes info)
  | .walk page => .next (s.waitWalk b.core b.trec.part page)
  | .park => .next (s.waitSlots .slot (ls.filterMap (fun x => x.park)))

/-- An access whose core has no sector to evict waits for the core's earlier accesses and for the forced publication to be applied (R149,
R362, R395); otherwise it is performed. -/
def State.orCrowded (s t : State) (c : Nat) (go : Out) : Out := if t.crowded c then .next ((s.forceQuiet c).wait .counter) else go

/-- The loads of a word's lanes in ascending order: bytes of each lane, the poisoned lanes. -/
def State.loadLanes (s : State) (b : Block) (n : Nat) : List La → List (La × List Byte) × List La × State
  | [] => ([], [], s)
  | x :: rest =>
    let r := s.loadTgt b x.tgt n
    let q := r.2.2.loadLanes b n rest
    ((x, r.1) :: q.1, if r.2.1 then x :: q.2.1 else q.2.1, q.2.2)

/-- A load's register words: each lane's bytes, zero-extended to the lane (R155). -/
def Block.loadWrites (b : Block) (g : Group) (vw : View) (d : Nat) (ls : List (Nat × List Byte)) : List (Nat × RWord) :=
  (ls.map (fun x => (upFrom (b.slotWord g vw d x.1) vw.parts).zip (wordsFor (leAt x.2 0 x.2.length) (clean vw)))).flatten

/-- The load forms, once their lanes' targets are known (R154, R155). -/
def loadWord (z sb d : Nat) (f : State → Block → Group → Nat → La) (slots : List (View × Nat)) (s : State) : Out :=
  joinWord (fun b g act =>
    let vw := dataView z
    let n := sizeOf z
    if b.slotsOk g ((vw, d) :: slots) then
      let ls := act.map (f s b g)
      s.afterChecks b ls
        (if g.counterFull sb && !s.holding b g.num 1 then .next (s.wait .counter)
         else if ls.any (fun x => s.absentTgt x.tgt n) then .next (s.hold b g.num sb (maskOf act) 1 (spotsOf ls) (ls.any (fun x => x.member)))
         else
           let s0 := (s.unhold1 b g.num 1 (spotsOf ls)).passPresence b g.num (spotsOf ls)
           let r := s0.loadLanes b n ls
           let poison := match r.2.1 with | x :: _ => some x.info | [] => none
           let w := b.loadWrites g vw d (r.1.map (fun x => (x.1.l, x.2)))
           let lanes := match r.2.1 with | [] => maskOf act | xs => maskOf (xs.map (fun x => x.l))
           s0.orCrowded r.2.2 b.core
             (.next (r.2.2.issueAs b.core ⟨0, b.id, g.num, sb, s.cur.pc, lanes, poison, w, 0, spotsOf ls, [], ls.any (fun x => x.member)⟩).retire))
    else .next (s.raise 0x07 0)) s

/-- The virtual address that a hash unit of a target uses: scratchpad units use their window address (R221). -/
def Tgt.hashAddr (t : Tgt) : Nat :=
  match t with
  | .va a => a
  | .sp _ off => scrBase + off

/-- The data lane of a store. -/
def storeData (b : Block) (g : Group) (z d l : Nat) : List RWord := b.src g (dataView z) d l

/-- The words of a store's data lane that are checked and written: those that hold its bytes (R120, R155). -/
def storeOk (b : Block) (g : Group) (z d l : Nat) : Bool := goodOf (storeData b g z d l)

/-- A store reaches another block's scratchpad: its bytes are written at its completion point (R154, R231). -/
def Tgt.remote (t : Tgt) (b : Block) : Bool := match t with
  | .sp k _ => decide (k ≠ b.id)
  | .va _ => false

/-- The bytes that a word has still to write in other blocks' scratchpads. -/
def putsOf (b : Block) (n : Nat) (vals : List (La × Nat)) : List (Nat × Nat × List Byte) :=
  vals.filterMap (fun x => match x.1.tgt with
    | .sp k off => if k = b.id then none else some (k, off, toLe n x.2)
    | .va _ => none)

/-- A word's hash units in ascending address order, lane order where two lanes write one unit (R221). -/
def unitsInOrder (us : List (Nat × Nat × Nat)) : List (Nat × Nat × Nat) := sortBy (fun u => u.1) us

/-- The store forms (R154, R155, R221). -/
def storeWord (z sb d : Nat) (f : State → Block → Group → Nat → La) (slots : List (View × Nat)) (s : State) : Out :=
  joinWord (fun b g act =>
    let vw := dataView z
    let n := sizeOf z
    if b.slotsOk g ((vw, d) :: slots) then
      let ls := act.map (f s b g)
      s.afterChecks b ls
        (if g.counterFull sb then .next (s.wait .counter)
         else
           let vals := ls.map (fun x => (x, valOf (storeData b g z d x.l) % 2 ^ (8 * n)))
           let s1 := vals.foldl (fun t x => if x.1.tgt.remote b then t else t.storeTgt b x.1.tgt (toLe n x.2)) s
           let s2 := (s1.issueAs b.core ⟨0, b.id, g.num, sb, s.cur.pc, maskOf act, none, [], 0, spotsOf ls, putsOf b n vals, ls.any (fun x => x.member)⟩).retire
           let h := s2.hashStores b.id g.num (unitsInOrder (vals.map (fun x => unitsOf x.1.tgt.hashAddr n x.2 x.1.l)).flatten)
           s.orCrowded s1 b.core (match h.2 with
           | none => .next h.1
           | some l => .next (h.1.diverge (maskOf [l]))))
    else .next (s.raise 0x07 0)) s

/-- The signed offset of a format M word (R24). -/
def off7 (o z : Nat) : Int := sgn 7 o * (sizeOf z : Nat)

/-- A 64-bit virtual address from a `w` lane and an offset (R155). -/
def vaOf (b : Block) (g : Group) (r z o l : Nat) : Nat := wrap 64 ((valOf (b.src g .w r l) : Int) + off7 o z)

/-- The lane of a `vld` or `vst`. -/
def vaForm (k : Acc) (r z o : Nat) (d : Option Nat) (s : State) (b : Block) (g : Group) (l : Nat) : La :=
  s.vaLane b l (goodOf (b.src g .w r l)) (match d with | some d => storeOk b g z d l | none => true) k (vaOf b g r z o l) (sizeOf z)

/-- The lane of a `vldsp` or `vstsp`. -/
def spForm (r z o : Nat) (d : Option Nat) (_s : State) (b : Block) (g : Group) (l : Nat) : La :=
  spLane l (goodOf (b.src g .v r l)) (match d with | some d => storeOk b g z d l | none => true) b
    ((valOf (b.src g .v r l) : Int) + off7 o z) (sizeOf z)

/-- The slot of the block's cluster that an address word names: its state, when the block is a member (R228). -/
def State.slotOf (s : State) (b : Block) (slot : Nat) : Option SlotSt :=
  match b.cl with
  | none => none
  | some (cid, _) => match s.cluster (dieOf b.core) cid with
    | none => none
    | some c => some (tget SlotSt.empty c.slots slot)

/-- The lane of a `vldx` or `vstx` (R157, R228). -/
def clForm (r z o : Nat) (d : Option Nat) (s : State) (b : Block) (g : Group) (l : Nat) : La :=
  let w := valOf (b.src g .v r l)
  let resOk := goodOf (b.src g .v r l)
  let datOk := match d with | some d => storeOk b g z d l | none => true
  let off := ((w % 2 ^ 20 : Nat) : Int) + off7 o z
  let info := (scrBase + w % 2 ^ 20 : Nat)
  let bad := fun (c : Nat) => (⟨l, info, resOk, true, false, none, some c, none, .sp b.id 0, datOk, true⟩ : La)
  if fld w 27 20 ≠ 0 then bad 0x07
  else match s.slotOf b (fld w 31 28) with
    | none => bad 0x07
    | some .vacated => bad 0x0A
    | some (.occupied bid) => (match s.blk bid with
      | some k => { spLane l resOk datOk k off (sizeOf z) with member := true }
      | none => bad 0x0A)
    | some _ =>
      if g.inf.joinwin = 0 then bad 0x0B
      else ⟨l, info, resOk, true, false, none, none, some (fld w 31 28), .sp b.id 0, datOk, true⟩

/-- The address of a scalar access: base, signed offset times size (R132). -/
def scalarAddr (r : SRegs) (a z o : Nat) : Nat := wrap 64 ((sval r a : Int) + sgn 10 o * (sizeOf z : Nat))

end Sys2Proof.Machine
end

