-- ==== Sys2Proof/Machine/Scalar.lean ====
section
/-! DEFINITION. Class S: the scalar instructions (R129 to R133), for a group's scalar side and for a management core
(R297). -/
namespace Sys2Proof.Machine

/-- `sadd` (R129). -/
def execSadd (d a b : Nat) (s : State) : Out := scalar2 .carry d a b (fun x y => (x + y) % 2 ^ 64) s

/-- `ssub` (R129). -/
def execSsub (d a b : Nat) (s : State) : Out := scalar2 .carry d a b (fun x y => (x + 2 ^ 64 - y) % 2 ^ 64) s

/-- `smul` (R129). -/
def execSmul (d a b : Nat) (s : State) : Out := scalar2 .carry d a b (fun x y => x * y % 2 ^ 64) s

/-- `smulh` (R129): bits [127:64] of the exact signed product. -/
def execSmulh (d a b : Nat) (s : State) : Out := scalar2 .all d a b (fun x y => wrap 128 (sgn 64 x * sgn 64 y) / 2 ^ 64) s

/-- `sand` (R129). -/
def execSand (d a b : Nat) (s : State) : Out := scalar2 .each d a b (fun x y => x &&& y) s

/-- `sor` (R129). -/
def execSor (d a b : Nat) (s : State) : Out := scalar2 .each d a b (fun x y => x ||| y) s

/-- `sxor` (R129). -/
def execSxor (d a b : Nat) (s : State) : Out := scalar2 .each d a b (fun x y => x ^^^ y) s

/-- A left shift of a w-bit word whose count is not wrapped (R88, R129). -/
def shlW (w x n : Nat) : Nat := if w ≤ n then 0 else x * 2 ^ n % 2 ^ w

/-- A logical right shift. -/
def shrW (w x n : Nat) : Nat := if w ≤ n then 0 else x / 2 ^ n

/-- An arithmetic right shift. -/
def sraW (w x n : Nat) : Nat :=
  if w ≤ n then (if bitOf x (w - 1) then 2 ^ w - 1 else 0) else wrap w (sgn w x / (2 ^ n : Nat))

/-- `sshl` (R129). -/
def execSshl (d a b : Nat) (s : State) : Out := scalar2 .left d a b (shlW 64) s

/-- `sshr` (R129). -/
def execSshr (d a b : Nat) (s : State) : Out := scalar2 .right d a b (shrW 64) s

/-- `ssra` (R129). -/
def execSsra (d a b : Nat) (s : State) : Out := scalar2 .right d a b (sraW 64) s

/-- `smin` (R129). -/
def execSmin (d a b : Nat) (s : State) : Out := scalar2 .all d a b (fun x y => if sgn 64 x < sgn 64 y then x else y) s

/-- `smax` (R129). -/
def execSmax (d a b : Nat) (s : State) : Out := scalar2 .all d a b (fun x y => if sgn 64 y < sgn 64 x then x else y) s

/-- `smov` (R129): a move, with its residues (R119). -/
def execSmov (d a : Nat) (s : State) : Out := scalarWord (fun r => .next (s.setSregs (sput r d (shalves r a))).retire) s

/-- `smovi` (R130). -/
def execSmovi (d i : Nat) (s : State) : Out := scalarWord (fun r => .next (s.setSregs (sfresh r d (wrap 64 (sgn 12 i)))).retire) s

/-- `slui` (R130). -/
def execSlui (d a i : Nat) (s : State) : Out :=
  scalarWord (fun r =>
    let p := shalves r a
    .next (s.setSregs (sput r d (wordsFor (valOf p * 4096 % 2 ^ 64 + i) (depend .carry (badOf p) [false, false] [false, false])))).retire) s

/-- `scmp` (R131): both residues are checked. -/
def execScmp (c p a b : Nat) (s : State) : Out :=
  scalarWord (fun r =>
    if sok r a && sok r b then .next (s.setSpreds (spSet s.spreds p (condScalar c (sval r a) (sval r b)))).retire
    else .next (s.raise 0x04 0)) s

/-- `ssel` (R131): keeps the residues of the register it selects. -/
def execSsel (d a b p : Nat) (s : State) : Out :=
  scalarWord (fun r => .next (s.setSregs (sput r d (shalves r (if spBit s.spreds p then a else b)))).retire) s

/-- A scalar float word: bits [31:0] in, zero-extended f32 out, RNE (R129). -/
def scalarFloat (d : Nat) (xs : List Nat) (f : List Nat → Nat) (s : State) : Out :=
  scalarWord (fun r =>
    let ws := xs.map (fun n => (shalves r n).headD RWord.zero)
    .next (s.setSregs (sput r d [computed (ws.all rok) (f (ws.map (fun w => w.val.toNat))), RWord.zero])).retire) s

/-- `sfadd` (R129). -/
def execSfadd (d a b : Nat) (s : State) : Out := scalarFloat d [a, b] (fun v => f32Add .rne (nth 0 v 0) (nth 0 v 1)) s

/-- `sfmul` (R129). -/
def execSfmul (d a b : Nat) (s : State) : Out := scalarFloat d [a, b] (fun v => f32Mul .rne (nth 0 v 0) (nth 0 v 1)) s

/-- `sfma` (R129): rounded once. -/
def execSfma (d a b : Nat) (s : State) : Out :=
  scalarFloat d [a, b, d] (fun v => f32Fma .rne (nth 0 v 0) (nth 0 v 1) (nth 0 v 2)) s

/-- The place of a management core's access: its SRAM, or package memory as it stands at its home (R297). -/
inductive MPlace where
  | sram (o : Nat)
  | mem (a : Nat)
  | bad (code : Nat)
  deriving DecidableEq, Repr

/-- Where a management core's access goes (R297, R139): addresses are physical; a hole of the map refuses. -/
def mgmtPlace (a n : Nat) : MPlace :=
  let e := a + n - 1
  if e < 0x80000 then .sram a
  else if 2 ^ 56 ≤ e then .bad 6
  else if (regionOf a = .sync ∨ regionOf e = .sync) ∧ a % n ≠ 0 then .bad 5
  else if regionOf a = .sync then .mem a
  else if (inVault a ∧ inVault e) ∨ (inHbm a ∧ inHbm e) then .mem a
  else .bad 7

/-- `sld` (R132). -/
def execSld (d a z o : Nat) (s : State) : Out :=
  scalarWord (fun r =>
    let ad := scalarAddr r a z o
    let n := sizeOf z
    if !sok r a then .next (s.raise 0x04 0)
    else match s.cur.ag with
    | .scalar b g => (match s.bg b g with
      | none => .fault .noAgent
      | some (k, _) =>
        let (s0, la) := s.laneNow k 0 true true .rd ad n
        match checks [la] with
        | .fault c _ i => .next (s0.raise c i)
        | _ =>
          if s0.absentTgt la.tgt n then .next (s0.hold k g 7 0 2 (spotsOf [la]) false)
          else
            let s1 := (s0.unhold1 k g 2 []).passPresence k g (spotsOf [la])
            let x := s1.loadTgt k la.tgt n
            s1.orCrowded x.2.2 k.core
              (if x.2.1 then .next (x.2.2.raise 0x08 ad) else .next (x.2.2.setSregs (sfresh r d (leAt x.1 0 n))).retire))
    | .mgmt m => (match mgmtPlace ad n with
      | .sram q => .next (s.setSregs (sfresh r d (leAt (tgets 0 (s.mc m).sram q n) 0 n))).retire
      | .mem q => if s.poisonedIn q n then .next (s.raise 0x08 ad)
        else .next ((s.recall q n).setSregs (sfresh r d (s.homeLe q n))).retire
      | .bad c => .next (s.raise c ad))
    | _ => .fault .noAgent) s

/-- `sst` (R132). -/
def execSst (d a z o : Nat) (s : State) : Out :=
  scalarWord (fun r =>
    let ad := scalarAddr r a z o
    let n := sizeOf z
    let v := sval r d % 2 ^ (8 * n)
    let dok := sok r d
    if !sok r a then .next (s.raise 0x04 0)
    else match s.cur.ag with
    | .scalar b g => (match s.bg b g with
      | none => .fault .noAgent
      | some (k, _) =>
        let (s0, la) := s.laneNow k 0 true dok .wr ad n
        match checks [la] with
        | .fault c _ i => .next (s0.raise c i)
        | _ =>
          let s1 := s0.storeTgt k la.tgt (toLe n v)
          let h := s1.retire.hashStores b g (unitsOf la.tgt.hashAddr n v 0)
          s0.orCrowded s1 k.core (match h.2 with
          | none => .next h.1
          | some _ => .next (h.1.diverge (maskOf s.cur.set))))
    | .mgmt m => (match mgmtPlace ad n with
      | .bad c => .next (s.raise c ad)
      | .sram q => if dok then .next (s.setMc m { s.mc m with sram := tsets 0 (s.mc m).sram q (toLe n v) }).retire
        else .next (s.raise 0x04 0)
      | .mem q => if dok then .next (s.homeWrite q (toLe n v)).retire else .next (s.raise 0x04 0))
    | _ => .fault .noAgent) s

/-- The scalar side waits on a queue; where the wide side stands at the same clause and so cannot relieve it, the word raises
`queue-protocol` (R127, second case). -/
def State.scalarQueueWait (s : State) : State :=
  match s.cur.ag with
  | .scalar b g => (match s.bg b g with
    | some (_, x) => if x.wideHdr = some s.cur.hdr then s.raise 0x0E 0 else s.wait .queue
    | none => s)
  | _ => s

/-- The word at which the scalar side stands cannot issue for a queue: it pushes to a full one, or pops an empty one (R127, R133). -/
def Group.queueStuck (g : Group) (r : ScRun) : Bool :=
  match decodeWord 0 (nth 0 (tget [] g.fetched r.hdr) (r.idx + 1)).toNat with
  | .ok (.qfwd _) => r.on && decide (8 ≤ g.fq.length)
  | .ok (.qret _) => r.on && g.rq.isEmpty
  | _ => false

/-- The scalar side can no longer relieve a queue wait of the wide side (R127, first case): it has stopped at a join clause, or
waits on a queue itself. One whose next clause cannot be fetched relieves none either (log entry 84). -/
def State.scalarStuck (s : State) (b : Block) (g : Group) : Bool :=
  g.single && (match g.sc with
    | some r => g.queueStuck r
    | none => (match s.code (.part b.trec.part) (s.scalarPos b.trec.part g) with
      | .inr _ => true
      | .inl w => (match hdrOf .group w with
        | some h => decide (h.cls ≠ 0)
        | none => true)))

/-- `qfwd` (R133): pushes after checking the residue; waits while the forward queue is full. A management core has no queues
(R297). -/
def execQfwd (a : Nat) (s : State) : Out :=
  groupScalar (fun r =>
    match s.cur.ag with
    | .scalar b g => (match s.bg b g with
      | none => .fault .noAgent
      | some (_, x) =>
        if !sok r a then .next (s.raise 0x04 0)
        else if 8 ≤ x.fq.length then .next s.scalarQueueWait
        else
          let h := shalves r a
          .next (s.updGrp b g (fun y => { y with fq := y.fq ++ [(nth RWord.zero h 0, nth RWord.zero h 1)] })).retire)
    | _ => .fault .noAgent) s

/-- `qret` (R133): pops the oldest return-queue entry; waits while the queue is empty. -/
def execQret (d : Nat) (s : State) : Out :=
  groupScalar (fun r =>
    match s.cur.ag with
    | .scalar b g => (match s.bg b g with
      | none => .fault .noAgent
      | some (_, x) => match x.rq with
        | [] => .next s.scalarQueueWait
        | e :: rest => .next ((s.updGrp b g (fun y => { y with rq := rest })).setSregs (sput r d [e.1, e.2])).retire)
    | _ => .fault .noAgent) s

/-- `sclk` (R133): the cycle counter. -/
def execSclk (d : Nat) (s : State) : Out := scalarWord (fun r => .next (s.setSregs (sfresh r d (s.cycle % 2 ^ 64))).retire) s

/-- The identifiers of `sgid` (R133). -/
def gidOf (b : Block) (g : Group) (sel : Nat) : Nat :=
  match sel with
  | 0 => b.trec.addr
  | 1 => b.index
  | 2 => g.num
  | 3 => b.groups.length
  | 4 => g.nlanes
  | 5 => b.core
  | _ => b.trec.part

/-- `sgid` (R133). -/
def execSgid (d i : Nat) (s : State) : Out :=
  groupScalar (fun r =>
    match s.cur.ag with
    | .scalar b g => (match s.bg b g with
      | none => .fault .noAgent
      | some (k, x) => .next (s.setSregs (sfresh r d (gidOf k x i))).retire)
    | _ => .fault .noAgent) s

end Sys2Proof.Machine
end

