-- ==== Sys2Proof/Machine/WideInt.lean ====
section
/-! DEFINITION. Class W, integers: arithmetic, shifts, bit fields, bit-wise words, moves, constants, compares, predicates, the
queue words (R88 to R92, R112, R134). -/
namespace Sys2Proof.Machine

/-- Lane width in bits of a view. -/
def View.bits (vw : View) : Nat := 32 * vw.parts

/-- The view of a code whose low bit chooses `v` or `w` and whose high bit means unsigned (R29). -/
def viewU (v : Nat) : View := viewOf (v % 2)

/-- A lane read as signed or unsigned under such a code. -/
def readU (v x : Nat) : Int := if v < 2 then sgn (viewU v).bits x else (x : Int)

/-- Ones among the low bits. -/
def popCount : Nat → Nat → Nat
  | 0, _ => 0
  | n + 1, x => x % 2 + popCount n (x / 2)

/-- Zero bits above the highest one bit of a w-bit word; w for 0 (R88). -/
def clz (w x : Nat) : Nat := if x = 0 then w else w - 1 - Nat.log2 x

/-- Bits reversed in a w-bit word. -/
def bitRev : Nat → Nat → Nat
  | 0, _ => 0
  | n + 1, x => x % 2 * 2 ^ n + bitRev n (x / 2)

/-- Position and length of a bit field in a w-bit lane (R89). -/
def fieldOf (w b : Nat) : Nat × Nat :=
  let pos := b % 256
  let len := b / 256 % 256
  (pos, if len = 0 ∨ w ≤ pos then 0 else min len (w - pos))

/-- `vbfx` of a lane (R89). -/
def bfx (w a b : Nat) : Nat := let p := fieldOf w b; if p.2 = 0 then 0 else a / 2 ^ p.1 % 2 ^ p.2

/-- `vbfi` of a lane (R89). -/
def bfi (w a b d : Nat) : Nat :=
  let p := fieldOf w b
  if p.2 = 0 then d
  else d % 2 ^ p.1 + 2 ^ p.1 * (a % 2 ^ p.2) + 2 ^ (p.1 + p.2) * (d / 2 ^ (p.1 + p.2))

/-- `vabs` of a lane (R88). -/
def absW (w a : Nat) : Nat := if bitOf a (w - 1) then wrap w (-(sgn w a)) else a

/-- `vlea` of a lane (R88). -/
def leaW (vw : View) (a b : Nat) : Nat :=
  match vw with
  | .w => wrap 56 ((a : Int) + sgn 32 (b % 2 ^ 32))
  | _ => (a + b) % 2 ^ 20

/-- `vadd` (R88). -/
def execVadd (d a b t v : Nat) (s : State) : Out :=
  let vw := viewOf v
  lane2 vw .carry t d a b (fun x y => (x + y) % 2 ^ vw.bits) s

/-- `vsub` (R88). -/
def execVsub (d a b t v : Nat) (s : State) : Out :=
  let vw := viewOf v
  lane2 vw .carry t d a b (fun x y => (x + 2 ^ vw.bits - y) % 2 ^ vw.bits) s

/-- `vmul` (R88). -/
def execVmul (d a b t v : Nat) (s : State) : Out :=
  let vw := viewOf v
  lane2 vw .carry t d a b (fun x y => x * y % 2 ^ vw.bits) s

/-- `vmulh` (R88): the high half of the exact signed or unsigned product. -/
def execVmulh (d a b t v : Nat) (s : State) : Out :=
  let vw := viewU v
  lane2 vw .all t d a b (fun x y => wrap (2 * vw.bits) (readU v x * readU v y) / 2 ^ vw.bits) s

/-- `vmac` (R83, R88). -/
def execVmac (d a b t v : Nat) (s : State) : Out :=
  let vw := viewOf v
  lane3 vw .carry t d a b (fun x y z => (x * y + z) % 2 ^ vw.bits) s

/-- `vaddc` (R88). -/
def execVaddc (d a b t v : Nat) (s : State) : Out :=
  let vw := viewOf v
  lane2 vw .low t d a b (fun x y => (x + y) / 2 ^ vw.bits) s

/-- `vabs` (R88). -/
def execVabs (d a t v : Nat) (s : State) : Out :=
  let vw := viewOf v
  lane1 vw .all t d a (fun x => absW vw.bits x) s

/-- `vneg` (R88). -/
def execVneg (d a t v : Nat) (s : State) : Out :=
  let vw := viewOf v
  lane1 vw .carry t d a (fun x => (2 ^ vw.bits - x) % 2 ^ vw.bits) s

/-- `vmin` (R88). -/
def execVmin (d a b t v : Nat) (s : State) : Out :=
  let vw := viewU v
  lane2 vw .all t d a b (fun x y => if readU v x < readU v y then x else y) s

/-- `vmax` (R88). -/
def execVmax (d a b t v : Nat) (s : State) : Out :=
  let vw := viewU v
  lane2 vw .all t d a b (fun x y => if readU v y < readU v x then x else y) s

/-- `vshl` (R88). -/
def execVshl (d a b t v : Nat) (s : State) : Out :=
  let vw := viewOf v
  lane2 vw .left t d a b (fun x y => shlW vw.bits x y) s

/-- `vshr` (R88). -/
def execVshr (d a b t v : Nat) (s : State) : Out :=
  let vw := viewOf v
  lane2 vw .right t d a b (fun x y => shrW vw.bits x y) s

/-- `vsra` (R88). -/
def execVsra (d a b t v : Nat) (s : State) : Out :=
  let vw := viewOf v
  lane2 vw .right t d a b (fun x y => sraW vw.bits x y) s

/-- `vpopc` (R88). -/
def execVpopc (d a t v : Nat) (s : State) : Out :=
  let vw := viewOf v
  lane1 vw .low t d a (fun x => popCount vw.bits x) s

/-- `vclz` (R88). -/
def execVclz (d a t v : Nat) (s : State) : Out :=
  let vw := viewOf v
  lane1 vw .low t d a (fun x => clz vw.bits x) s

/-- `vbrev` (R88). -/
def execVbrev (d a t v : Nat) (s : State) : Out :=
  let vw := viewOf v
  lane1 vw .rev t d a (fun x => bitRev vw.bits x) s

/-- `vbfx` (R89). -/
def execVbfx (d a b t v : Nat) (s : State) : Out :=
  let vw := viewOf v
  lane2 vw .field t d a b (fun x y => bfx vw.bits x y) s

/-- `vbfi` (R89). -/
def execVbfi (d a b t v : Nat) (s : State) : Out :=
  let vw := viewOf v
  lane3 vw .insert t d a b (fun x y z => bfi vw.bits x y z) s

/-- `vlea` (R88). -/
def execVlea (d a b t v : Nat) (s : State) : Out :=
  let vw := viewOf v
  lane2 vw .lea t d a b (fun x y => leaW vw x y) s

/-- `vand` (R90). -/
def execVand (d a b t v : Nat) (s : State) : Out :=
  part2 (viewOf v) t d a b (fun x y => x &&& y) s

/-- `vor` (R90). -/
def execVor (d a b t v : Nat) (s : State) : Out :=
  part2 (viewOf v) t d a b (fun x y => x ||| y) s

/-- `vxor` (R90). -/
def execVxor (d a b t v : Nat) (s : State) : Out :=
  part2 (viewOf v) t d a b (fun x y => x ^^^ y) s

/-- `vnot` (R90). -/
def execVnot (d a t v : Nat) (s : State) : Out :=
  part1 (viewOf v) t d a (fun x => 2 ^ 32 - 1 - x) s

/-- `vsel` (R90): the destination is the bit mask. -/
def execVsel (d a b t v : Nat) (s : State) : Out :=
  part3 (viewOf v) t d a b (fun x y m => (m &&& x) ||| ((2 ^ 32 - 1 - m) &&& y)) s

/-- `vmov` (R90): a move, with its residues (R84, R119). -/
def execVmov (d a t v : Nat) (s : State) : Out :=
  let vw := viewOf v
  wideReg vw t d [a] (fun x => .inl (x.writers.map (fun l => (l, x.src vw a l)))) s

/-- `vmovi` (R91). -/
def execVmovi (d i : Nat) (s : State) : Out :=
  wideReg .v 0 d [] (fun x => .inl (x.writers.map (fun l => (l, [fresh (BitVec.ofNat 32 (wrap 32 (sgn 17 i)))])))) s

/-- `vlui` (R91): bits [31:15] replaced. -/
def execVlui (d i : Nat) (s : State) : Out :=
  wideReg .v 0 d [d] (fun x => .inl (x.writers.map (fun l =>
    let w := (x.src .v d l).headD RWord.zero
    (l, [computed (rok w) (i * 2 ^ 15 + w.val.toNat % 2 ^ 15)])))) s

/-- `vcmp` (R92). -/
def execVcmp (c p a b v : Nat) (s : State) : Out :=
  wideCmp (viewU v) p a b (fun x y => condInt c (readU v x) (readU v y)) s

/-- `pand` (R112). -/
def execPand (d a b : Nat) (s : State) : Out :=
  predWord d (fun x => x.p a && x.p b) s

/-- `por` (R112). -/
def execPor (d a b : Nat) (s : State) : Out :=
  predWord d (fun x => x.p a || x.p b) s

/-- `pxor` (R112). -/
def execPxor (d a b : Nat) (s : State) : Out :=
  predWord d (fun x => x.p a ^^ x.p b) s

/-- `pnot` (R112). -/
def execPnot (d a : Nat) (s : State) : Out :=
  predWord d (fun x => !x.p a) s

/-- `pmov` (R112). -/
def execPmov (d a : Nat) (s : State) : Out :=
  predWord d (fun x => x.p a) s

/-- `pset` (R112). -/
def execPset (d i : Nat) (s : State) : Out :=
  predWord d (fun _ => decide (i = 1)) s

/-- The wide side waits on a queue: `queue-protocol` where the scalar side can no longer relieve it (R127). -/
def State.wideQueueWait (s : State) (b : Block) (g : Group) : State :=
  if s.scalarStuck b g then s.raise 0x0E 0 else s.wait .queue

/-- `vqpop` (R134): pops once per word, into every active and helper lane. -/
def execVqpop (d t v : Nat) (s : State) : Out :=
  match s.cur.ag with
  | .group b g => (match s.bg b g with
    | none => .fault .noAgent
    | some (k, x) =>
      let vw := viewOf v
      if s.cur.act = [] then .next s.retire
      else if t = 1 ∨ k.slotOk x vw d then
        match x.fq with
        | [] => .next (s.wideQueueWait k x)
        | e :: rest =>
          let c : Wx := ⟨k.updGrp g (fun y => { y with fq := rest }), { x with fq := rest }, s.cur.act, x.helpers s.cur.act⟩
          let rs := c.writers.map (fun l => (l, if v = 0 then [e.1] else [e.1, e.2]))
          .next (s.updBlk b (fun _ => c.deliver vw t d rs)).retire
      else .next (s.raise 0x07 0))
  | _ => .fault .noAgent

/-- `vqpush` (R134): pushes the lowest active lane's value, after its residue check. -/
def execVqpush (a v : Nat) (s : State) : Out :=
  match s.cur.ag with
  | .group b g => (match s.bg b g with
    | none => .fault .noAgent
    | some (k, x) =>
      let vw := viewOf v
      if s.cur.act = [] then .next s.retire
      else if a < 125 ∧ !k.slotOk x vw a then .next (s.raise 0x07 0)
      else
        let l0 := lowest s.cur.act
        let ws := k.src x vw a l0
        if !goodOf ws then .next (s.raiseFor 0x04 (maskOf [l0]) 0)
        else if 8 ≤ x.rq.length then .next (s.wideQueueWait k x)
        else .next (s.updGrp b g (fun y => { y with rq := y.rq ++ [(nth RWord.zero ws 0, nth RWord.zero ws 1)] })).retire)
  | _ => .fault .noAgent

end Sys2Proof.Machine
end

