-- ==== Sys2Proof/Machine/WideFloat.lean ====
section
/-! DEFINITION. Class W, floats and conversion: f32 arithmetic and functions, half-width pairs, `vcvt`, `vsrnd`, `vrng`,
packing, planes, MX scales (R93 to R106). -/
namespace Sys2Proof.Machine

/-- The two halves of a word under a function of two half-width codes (R98). -/
def halves2 (f : Nat → Nat → Nat) (x y : Nat) : Nat :=
  f (x % 65536) (y % 65536) + 65536 * f (x / 65536) (y / 65536)

/-- The format of a pair form (R98). -/
def pairFmt (v : Nat) : Fmt := if v = 0 then f16F else bf16F

/-- Bits of an integer type code (R99). -/
def intBits (c : Nat) : Nat := 8 * 2 ^ (c % 4)

/-- The type code is an integer. -/
def isIntCode (c : Nat) : Bool := decide (c < 8)

/-- A value of a type code read from the low bits of a word (R99), as an exact number. -/
def readType (c x : Nat) : FVal :=
  if c < 4 then ofInt (sgn (intBits c) (x % 2 ^ intBits c))
  else if c < 8 then ofInt ((x % 2 ^ intBits c : Nat) : Int)
  else readF (fmtOf c) (x % 2 ^ (fmtOf c).width)

/-- An integer of a type's range (R36): saturated, as the bits that fill `w` bits. -/
def writeInt (c w : Nat) (x : Int) : Nat :=
  if c < 4 then wrap w (sats (intBits c) x) else wrap w (satu (intBits c) x)

/-- A float converted to an integer type (R36): NaN gives 0, the infinities saturate. -/
def toIntType (c w : Nat) (m : RMode) (x : FVal) : Nat :=
  match x with
  | .nan => 0
  | .inf s => writeInt c w (if s then -(2 ^ 70 : Nat) else (2 ^ 70 : Nat))
  | y => writeInt c w (roundInt m y)

/-- An exact number written as a value of a type code in `w` bits (R99, R100). -/
def writeType (c w : Nat) (m : RMode) (x : FVal) : Nat :=
  if isIntCode c then toIntType c w m x else rnd (fmtOf c) m x

/-- A f32 rounded to an integral f32 (R100, c = 8 with dir = 0). -/
def f32Integral (m : RMode) (a : Nat) : Nat :=
  match f32v a with
  | .nan => 0x7FC00000
  | .inf _ => a
  | .fin s mm e => if mm = 0 then a
    else
      let k := roundInt m (.fin s mm e)
      if k = 0 then (if s then 0x80000000 else 0) else rnd f32F .rne (ofInt k)

/-- `vcvt` of one f32 part (R100): `r` is the direction, `c` the type code. -/
def cvtPart (c r : Nat) (m : RMode) (x : Nat) : Nat :=
  if r = 0 then (if c = 8 then f32Integral m x else writeType c 32 m (f32v x))
  else rnd f32F m (readType c x)

/-- `vcvt` of a whole 64-bit lane, i64 (R100). -/
def cvtLane (c r : Nat) (m : RMode) (x : Nat) : Nat :=
  if r = 0 then writeType c 64 m (ofInt (sgn 64 x))
  else if isIntCode c then
    (match readType c x with
    | .fin s mm _ => wrap 64 (sats 64 (if s then -(mm : Int) else (mm : Int)))
    | _ => 0)
  else toIntType 3 64 m (readType c x)

/-- `vfadd` (R93). -/
def execVfadd (d a b t m : Nat) (s : State) : Out :=
  part2 .v t d a b (fun x y => f32Add (modeOf m) x y) s

/-- `vfsub` (R93). -/
def execVfsub (d a b t m : Nat) (s : State) : Out :=
  part2 .v t d a b (fun x y => rnd f32F (modeOf m) (fadd (modeOf m) (f32v x) (fneg (f32v y)))) s

/-- `vfmul` (R93). -/
def execVfmul (d a b t m : Nat) (s : State) : Out :=
  part2 .v t d a b (fun x y => f32Mul (modeOf m) x y) s

/-- `vfma` (R93): one rounding. -/
def execVfma (d a b t m : Nat) (s : State) : Out :=
  part3 .v t d a b (fun x y z => f32Fma (modeOf m) x y z) s

/-- `vfmin` (R94). -/
def execVfmin (d a b t : Nat) (s : State) : Out :=
  part2 .v t d a b fminCode s

/-- `vfmax` (R94). -/
def execVfmax (d a b t : Nat) (s : State) : Out :=
  part2 .v t d a b fmaxCode s

/-- `vfcmp` (R95). -/
def execVfcmp (c p a b : Nat) (s : State) : Out :=
  wideCmp .v p a b (condFloat c) s

/-- `vfclass` (R96). -/
def execVfclass (d a t : Nat) (s : State) : Out :=
  part1 .v t d a f32Class s

/-- `vfrcp` (R97). -/
def execVfrcp (d a t : Nat) (s : State) : Out :=
  part1 .v t d a f32Rcp s

/-- `vfrsq` (R97). -/
def execVfrsq (d a t : Nat) (s : State) : Out :=
  part1 .v t d a f32Rsq s

/-- `vfsqrt` (R97). -/
def execVfsqrt (d a t : Nat) (s : State) : Out :=
  part1 .v t d a f32Sqrt s

/-- `vfexp2` (R97). -/
def execVfexp2 (d a t : Nat) (s : State) : Out :=
  part1 .v t d a f32Exp2 s

/-- `vflog2` (R97). -/
def execVflog2 (d a t : Nat) (s : State) : Out :=
  part1 .v t d a f32Log2 s

/-- `vftanh` (R97). -/
def execVftanh (d a t : Nat) (s : State) : Out :=
  part1 .v t d a f32Tanh s

/-- `vfadd2` (R98). -/
def execVfadd2 (d a b t v : Nat) (s : State) : Out :=
  part2 .v t d a b (halves2 (fun x y => rnd (pairFmt v) .rne (fadd .rne (readF (pairFmt v) x) (readF (pairFmt v) y)))) s

/-- `vfmul2` (R98). -/
def execVfmul2 (d a b t v : Nat) (s : State) : Out :=
  part2 .v t d a b (halves2 (fun x y => rnd (pairFmt v) .rne (fmul (readF (pairFmt v) x) (readF (pairFmt v) y)))) s

/-- `vfma2` (R98): one rounding per half. -/
def execVfma2 (d a b t v : Nat) (s : State) : Out :=
  part3 .v t d a b (fun x y z =>
    let h := fun (k : Nat) => rnd (pairFmt v) .rne (fadd .rne (fmul (readF (pairFmt v) (x / k % 65536)) (readF (pairFmt v) (y / k % 65536)))
      (readF (pairFmt v) (z / k % 65536)))
    h 1 + 65536 * h 65536) s

/-- `vcvt` (R100): part by part in views `v` and `t`, the whole lane in view `w`, where a result depends on the bits its type
names. -/
def execVcvt (d a c r m t v : Nat) (s : State) : Out :=
  if v = 1 then
    wideReg .w t d [a] (fun x => .inl (x.writers.map (fun l =>
      let p := x.src .w a l
      let wide := decide (r = 0) || decide (c = 7) || decide (c = 3)
      let bad := if wide then !goodOf p else !rok (p.headD RWord.zero)
      (l, wordsFor (cvtLane c r (modeOf m) (valOf p)) [bad, bad && !(decide (4 ≤ c) && decide (c ≠ 7) && decide (r = 0 ∨ c < 7))])))) s
  else part1 (viewOf v) t d a (cvtPart c r (modeOf m)) s

/-- A part-wise word under a control field of each part (R85): an unassigned field in an active lane raises
`illegal-instruction`; a helper lane takes 0 with field 15 in such a part. `ctl` picks the field's part from the operands. -/
def wideCtl (vw : View) (t d : Nat) (srcs : List Nat) (ok : Nat → Bool) (ctl : RWord × RWord × RWord → Nat)
    (pick : Wx → Nat → List (RWord × RWord × RWord)) (f : RWord × RWord × RWord → RWord) (s : State) : Out :=
  wideReg vw t d srcs (fun x =>
    match x.act.filter (fun l => (pick x l).any (fun p => !ok (ctl p))) with
    | l :: ls => .inr (0x01, maskOf (l :: ls))
    | [] => .inl (x.writers.map (fun l => (l, (pick x l).map (fun p => if ok (ctl p) then f p else marked 0))))) s

/-- The parts of three operands side by side. -/
def zip3 (p q r : List RWord) : List (RWord × RWord × RWord) := (p.zip (q.zip r))

/-- A legal control field of `vsrnd` (R101). -/
def srndCtl (c : Nat) : Bool := decide (c < 1024) && decide (9 ≤ c % 16) && decide (c / 16 ≤ 32)

/-- `vsrnd` (R101). -/
def execVsrnd (d a b t v : Nat) (s : State) : Out :=
  let vw := viewOf v
  wideCtl vw t d [a, b, dSrc t d] srndCtl (fun p => p.2.2.val.toNat)
    (fun x l => zip3 (x.src vw a l) (x.src vw b l) (x.src vw (dSrc t d) l))
    (fun p => let c := p.2.2.val.toNat
      computed (rok p.1 && rok p.2.1 && rok p.2.2) (srnd (fmtOf (c % 16)) p.1.val.toNat p.2.1.val.toNat (c / 16))) s

/-- `vrng` (R102). -/
def execVrng (d a b t v : Nat) (s : State) : Out :=
  if v = 1 then lane2 .w .all t d a b rng64 s else part2 (viewOf v) t d a b rng32 s

/-- Element width of `vpack` and `vunpk` (R103). -/
def packBits (e : Nat) : Nat := if e = 0 then 8 else if e = 1 then 6 else 4

/-- The words that a range of bits of a packed string touches. -/
def touches (e lo i : Nat) : Bool := decide (i * e < 32 * (lo + 1)) && decide (32 * lo < (i + 1) * e)

/-- `vpack` (R103): lanes o to o + E - 1 take the packed block; the latch takes the destination lanes as they then stand. -/
def execVpack (d a b t e : Nat) (s : State) : Out :=
  let n := packBits e
  wideWord ((if t = 1 then [] else [(.v, d)]) ++ [(.v, a), (.v, b)]) (fun x =>
    match x.selector .v b (fun o => decide (o + n ≤ 32)) with
    | .inr er => .inr er
    | .inl o =>
      let src := lanes32.map (fun l => (x.src .v a l).headD RWord.zero)
      let sel := rok ((x.src .v b x.l0).headD RWord.zero)
      let str := packLanes n (src.map (fun w => w.val.toNat % 2 ^ n))
      let word := fun (j : Nat) => computed (sel && (lanes32.all (fun i => !touches n j i || rok (nth RWord.zero src i)))) (str / 2 ^ (32 * j) % 2 ^ 32)
      let inside := x.writers.filter (fun l => decide (o ≤ l) && decide (l < o + n))
      let rs := inside.map (fun l => (l, [word (l - o)]))
      let outside := if t = 1 then [] else (x.writers.filter (fun l => decide (l ∉ inside))).map (fun l => (l, x.src .v d l))
      let b1 := if t = 1 then x.b else x.b.writeLanes x.g.num .v d rs
      .inl (b1.updGrp x.g.num (fun y => y.push (rs ++ outside)))) s

/-- `vunpk` (R103). -/
def execVunpk (d a b t e : Nat) (s : State) : Out :=
  let n := packBits e
  wideSel .v t d a b (fun o => decide (o + n ≤ 32)) (fun x o =>
    let ws := (upFrom o n).map (fun l => (x.src .v a l).headD RWord.zero)
    let str := packLanes 32 (ws.map (fun w => w.val.toNat))
    x.writers.map (fun l => (l, [computed ((upFrom 0 n).all (fun j => !touches n j l || rok (nth RWord.zero ws j))) (str / 2 ^ (l * n) % 2 ^ n)]))) s

/-- A legal selector of `vplane` (R104). -/
def planeSel (v : Nat) : Bool := decide (fld v 6 5 = 0) && decide (2 ≤ v % 32) && decide (v % 32 ≤ if bitOf v 7 then 16 else 8)

/-- `vplane` (R104). -/
def execVplane (d a b t v : Nat) (s : State) : Out :=
  let vw := viewOf v
  wideSel vw t d a b planeSel (fun x sel =>
    let k := sel % 32
    let w := if bitOf sel 7 then 16 else 8
    let col := fun (i : Nat) => (upFrom 0 k).map (fun l => nth RWord.zero (x.src vw a l) i)
    let val := fun (i l : Nat) => npread ((col i).map (fun q => q.val.toNat)) w k l
    x.writers.map (fun l => (l,
      if v = 1 then wordsFor (wrap 64 (val 0 l)) (copies 2 (!(col 0).all rok))
      else (upFrom 0 vw.parts).map (fun i => computed ((col i).all rok) (wrap 32 (val i l)))))) s

/-- `vmxscale` (R105). -/
def execVmxscale (d a b t v : Nat) (s : State) : Out :=
  let vw := viewOf v
  wideSel vw t d a b (fun f => decide (11 ≤ f) && decide (f ≤ 15)) (fun x f =>
    let blk := fun (i : Nat) => lanes32.map (fun l => nth RWord.zero (x.src vw a l) i)
    let rs := (upFrom 0 vw.parts).map (fun i =>
      computed ((blk i).all rok) (mxscale ((blk i).map (fun w => f32v w.val.toNat)) f + 256 * f))
    x.writers.map (fun l => (l, rs))) s

/-- A legal control word of `vmxq` (R106). -/
def mxqCtl (c : Nat) : Bool := decide (c < 2 ^ 14) && decide (11 ≤ fld c 11 8)

/-- `vmxq` (R106). -/
def execVmxq (d a b t v : Nat) (s : State) : Out :=
  let vw := viewOf v
  wideCtl vw t d [a, b] mxqCtl (fun p => p.2.1.val.toNat)
    (fun x l => zip3 (x.src vw a l) (x.src vw b l) (x.src vw b l))
    (fun p => let c := p.2.1.val.toNat
      computed (rok p.1 && rok p.2.1) (mxq (f32v p.1.val.toNat) (c % 256) (fld c 11 8) (modeOf (fld c 13 12)))) s

end Sys2Proof.Machine
end

