-- ==== Sys2Proof/Machine/Exchange.lean ====
section
/-! DEFINITION. Class W, exchange between lanes: quads, shuffles, broadcasts, reductions, scans, ballots, system values (R52,
R53, R107 to R111). -/
namespace Sys2Proof.Machine

/-- The words of a source lane, each marked where it or the reading lane's choosing word mismatches (R84, R107, R108). -/
def taken (good : Bool) (ws : List RWord) : List RWord := ws.map (fun w => computed (good && rok w) w.val.toNat)

/-- A lane exchange: the source lane is chosen by the reading lane and its b word. -/
def exchange (vw : View) (t d a b : Nat) (pick : Nat → Nat → Nat) (s : State) : Out :=
  wideReg vw t d [a, b] (fun x => .inl (x.writers.map (fun l =>
    let w := (x.src vw b l).headD RWord.zero
    (l, taken (rok w) (x.src vw a (pick l w.val.toNat)))))) s

/-- `vqswap` (R107). -/
def execVqswap (d a b t v : Nat) (s : State) : Out := exchange (viewOf v) t d a b (fun l w => l ^^^ (w % 4)) s

/-- `vqbcast` (R107). -/
def execVqbcast (d a b t v : Nat) (s : State) : Out := exchange (viewOf v) t d a b (fun l w => l / 4 * 4 + w % 4) s

/-- `vqsum` (R107). -/
def execVqsum (d a b t v : Nat) (s : State) : Out :=
  let vw := viewOf v
  wideReg vw t d [a, b] (fun x => .inl (x.writers.map (fun l =>
    let q := l / 4 * 4
    let ls := x.src vw b l :: (upFrom q 4).map (x.src vw a)
    (l, wordsFor ((ls.map valOf).sum % 2 ^ vw.bits)
      (orUp false ((upFrom 0 vw.parts).map (fun i => ls.any (fun ws => !rok (nth RWord.zero ws i))))))))) s

/-- `vshfl` (R108). -/
def execVshfl (d a b t v : Nat) (s : State) : Out := exchange (viewOf v) t d a b (fun _ w => w % 32) s

/-- `vbcast` (R108). -/
def execVbcast (d a b t v : Nat) (s : State) : Out :=
  let vw := viewOf v
  wideSel vw t d a b (fun j => decide (j < 32)) (fun x j => x.writers.map (fun l => (l, taken true (x.src vw a j)))) s

/-- The operations of `vred` and `vscan` on w-bit lanes (R109). -/
def redOp (w sel x y : Nat) : Nat :=
  match sel with
  | 0 => (x + y) % 2 ^ w
  | 1 => if sgn w y < sgn w x then y else x
  | 2 => if sgn w x < sgn w y then y else x
  | 3 => min x y
  | 4 => max x y
  | 5 => x &&& y
  | 6 => x ||| y
  | 7 => x ^^^ y
  | 8 => f32Add .rne x y
  | 9 => fminCode x y
  | _ => fmaxCode x y

/-- Their identities (R109). -/
def redId (w sel : Nat) : Nat :=
  match sel with
  | 0 => 0
  | 1 => 2 ^ (w - 1) - 1
  | 2 => 2 ^ (w - 1)
  | 3 => 2 ^ w - 1
  | 4 => 0
  | 5 => 2 ^ w - 1
  | 6 => 0
  | 7 => 0
  | 8 => 0x80000000
  | 9 => 0x7FC00000
  | _ => 0x7FC00000

/-- A selector that the view assigns (R109). -/
def redSel (v sel : Nat) : Bool := decide (sel ≤ 10) && (decide (v = 0) || decide (sel < 8))

/-- The leaves of a reduction: inactive lanes give the identity (R109). -/
def Wx.leaves (x : Wx) (vw : View) (a sel : Nat) : List Nat :=
  lanes32.map (fun l => if x.isAct l then valOf (x.src vw a l) else redId vw.bits sel)

/-- Every result word depends on the operands of the given lanes (R84, R109). -/
def Wx.redBad (x : Wx) (vw : View) (a : Nat) (ls : List Nat) : List Bool :=
  copies vw.parts (ls.any (fun l => !goodOf (x.src vw a l)))

/-- `vred` (R109). -/
def execVred (d a b t v : Nat) (s : State) : Out :=
  let vw := viewOf v
  wideSel vw t d a b (redSel v) (fun x sel =>
    let r := wordsFor (treeOf (redOp vw.bits sel) 0 (x.leaves vw a sel)) (x.redBad vw a x.act)
    x.writers.map (fun l => (l, r))) s

/-- `vscan` (R109). -/
def execVscan (d a b t v : Nat) (s : State) : Out :=
  let vw := viewOf v
  wideSel vw t d a b (redSel v) (fun x sel =>
    x.writers.map (fun l => (l, wordsFor (prefixOf (redOp vw.bits sel) 0 (x.leaves vw a sel) l)
      (x.redBad vw a (x.act.filter (fun k => decide (k ≤ l))))))) s

/-- `vballot` (R110). -/
def execVballot (d a b t v : Nat) (s : State) : Out :=
  let vw := viewOf v
  wideReg vw t d [a, b] (fun x =>
    let m := maskOf (x.act.filter (fun l => decide ((valOf (x.src vw a l) &&& valOf (x.src vw b l)) ≠ 0)))
    let bad := x.act.any (fun l => !goodOf (x.src vw a l) || !goodOf (x.src vw b l))
    .inl (x.writers.map (fun l => (l, wordsFor m (bad :: copies (vw.parts - 1) false))))) s

/-- The system values of `vsys` (R111). -/
def sysValue (x : Wx) (sel l : Nat) : Nat :=
  match sel with
  | 0 => l
  | 1 => maskOf x.act
  | 2 => maskOf x.g.heldLanes
  | 3 => if x.isAct l then (x.g.lane l).depth else 0
  | _ => x.g.num

/-- `vsys` (R111). -/
def execVsys (d a b t v : Nat) (s : State) : Out :=
  let vw := viewOf v
  wideSel vw t d a b (fun sel => decide (sel < 5)) (fun x sel =>
    x.writers.map (fun l =>
      let p := x.src vw a l
      (l, wordsFor ((valOf p + sysValue x sel l) % 2 ^ vw.bits) (orUp false (badOf p))))) s

end Sys2Proof.Machine
end

