-- ==== Sys2Proof/Machine/Flow.lean ====
section
/-! DEFINITION. Class F and `msync`: branches, jumps, calls and returns with the register windows, rejoin masks, fibres,
streams (R58, R66 to R79, R168, R423). -/
namespace Sys2Proof.Machine

/-- The index of the current word in its clause, counted from 1. -/
def Cur.idx (c : Cur) : Nat := (c.pc - c.hdr) / 4

/-- A J-format step of a group's or management core's word: the landing, or the fault (R58, R423). The heads that count as entered are
those of the block's, or the management core's, whole life (log entry 63). -/
def State.jStep (s : State) (off : Int) : Land ⊕ (Nat × Nat) :=
  let c := s.cur
  let r := match c.ag with
    | .group b _ => (match s.blk b with
      | some k => s.stepTo (.part k.trec.part) .group k.heads c.hdr c.idx off
      | none => .inr (2, 0))
    | .mgmt m => s.stepTo (.mgmt m) .mgmt (s.mc m).heads c.hdr c.idx off
    | .matrix b => (match s.blk b with
      | some k => s.stepTo (.part k.trec.part) .matrix k.heads c.hdr c.idx off
      | none => .inr (2, 0))
    | _ => .inr (2, 0)
  match r with
  | .inl l => if l.pc < 2 ^ 48 then .inl l else .inr (6, l.pc)
  | e => e

/-- Redirect lanes of a group to a landing. -/
def State.land (s : State) (b g : Nat) (ls : List Nat) (l : Land) : State := s.updGrp b g (fun x => x.mapLanes ls (fun _ y => y.land l))

/-- Redirect a management core. -/
def Mc.land (m : Mc) (l : Land) : Mc := { m with pc := BitVec.ofNat 48 l.pc, hdr := l.hdr, entered := false, guardOff := false }

/-- `bra` (R71). Where the bit sends no active lane, the step is not resolved, and its faults are not raised (log entry 64). -/
def execBra (n c o : Nat) (s : State) : Out :=
  joinWord (fun b g act =>
    match act.filter (fun l => (g.lane l).p c ^^ decide (n = 1)) with
    | [] => .next s.retire
    | l :: ls => match s.jStep (sgn 19 o) with
      | .inr e => .next (s.raise e.1 e.2)
      | .inl t => .next (s.retire.land b.id g.num (l :: ls) t)) s

/-- `bru` (R71, R79). As for `bra`, a branch not taken resolves no step (log entry 64). -/
def execBru (n c o : Nat) (s : State) : Out :=
  match s.cur.ag with
  | .group _ _ => joinWord (fun b g act =>
      if spBit g.sp c ^^ decide (n = 1) then
        match s.jStep (sgn 19 o) with
        | .inr e => .next (s.raise e.1 e.2)
        | .inl t => .next (s.retire.land b.id g.num act t)
      else .next s.retire) s
  | .mgmt m =>
    if s.cur.act = [] then .next s.retire
    else if spBit (s.mc m).sp c ^^ decide (n = 1) then
      match s.jStep (sgn 19 o) with
      | .inr e => .next (s.raise e.1 e.2)
      | .inl t => .next (s.retire.setMc m ((s.retire.mc m).land t))
    else .next s.retire
  | _ => .fault .noAgent

/-- R58 on a computed target: the fault, if any. -/
def targetBad (t : Nat) : Option Nat := if 2 ^ 48 ≤ t then some 0x06 else if t % 4 ≠ 0 then some 0x05 else none

/-- The first failing lane decides; its code, the lanes that fail with it, its info. -/
def firstBad (xs : List (Nat × Option (Nat × Nat))) : Option (Nat × Nat × Nat) :=
  match firstOf (fun x => x.2.isSome) xs with
  | some (_, some (c, i)) => some (c, maskOf ((xs.filter (fun x => match x.2 with | some y => decide (y.1 = c) | none => false)).map Prod.fst), i)
  | _ => none

/-- The target that a register gives a lane, with its fault (R72, R120). -/
def laneTarget (ws : List RWord) : Option (Nat × Nat) :=
  if !goodOf ws then some (0x04, 0)
  else match targetBad (valOf ws) with
    | some c => some (c, valOf ws)
    | none => none

/-- `jmpi` (R72, R79). -/
def execJmpi (a v : Nat) (s : State) : Out :=
  match s.cur.ag with
  | .group _ _ => joinWord (fun b g act =>
      let vw := viewOf v
      if b.slotsOk g [(vw, a)] then
        match firstBad (act.map (fun l => (l, laneTarget (b.src g vw a l)))) with
        | some e => .next (s.raiseFor e.1 e.2.1 e.2.2)
        | none =>
          let ts := act.map (fun l => (l, valOf (b.src g vw a l)))
          .next (s.retire.updBlk b.id (fun k =>
            { (k.updGrp g.num (fun x => ts.foldl (fun y p => y.setLane p.1 ((y.lane p.1).enter p.2)) x)) with
              heads := ts.foldl (fun h p => insNat p.2 h) k.heads }))
      else .next (s.raise 0x07 0)) s
  | .mgmt m =>
    if 64 ≤ a ∨ v ≠ 0 then .next (s.raise 0x01 0)
    else if s.cur.act = [] then .next s.retire
    else
      let r := (s.mc m).sregs
      match laneTarget (shalves r a) with
      | some e => .next (s.raise e.1 e.2)
      | none =>
        let k := s.retire.mc m
        .next (s.retire.setMc m { k with pc := BitVec.ofNat 48 (sval r a), hdr := sval r a, entered := false, guardOff := false, heads := insNat (sval r a) k.heads })
  | _ => .fault .noAgent

/-- Frames of the window ring of a group (R69). -/
def Block.ringFrames (b : Block) (g : Group) : Nat := frameCount b.gwinBytes g.inf.vv g.frameBytes

/-- The word of slot `sl` of frame `j` for a lane. -/
def Block.frameWord (b : Block) (g : Group) (j sl l : Nat) : Nat := vByte b.gwinBytes g.inf.vv g.frameBytes j sl l / 4

/-- The address of slot `sl` of frame `j` of a lane in the spill store (R70). -/
def spillAddr (g : Group) (j sl l : Nat) : Nat := g.inf.spillbase + j * g.frameBytes + 128 * sl + 4 * l

/-- Spill one frame of a lane slot by slot (R70, R73); else the fault. -/
def State.spill (s : State) (b : Block) (g : Group) (j l : Nat) : List Nat → State ⊕ (Nat × Nat)
  | [] => .inl s
  | sl :: rest =>
    let a := spillAddr g j sl l
    let w := tget RWord.zero g.win (b.frameWord g j sl l)
    if !rok w then .inr (0x04, 0)
    else
      let (s1, la) := s.laneNow b l true true .wr a 4
      match checks [la] with
      | .fault c _ i => .inr (c, i)
      | _ =>
        if (s1.physParts b .wr a 4).any (fun p => s1.poisonedIn p.1 p.2) then .inr (0x08, a)
        else (s1.storeTgt b la.tgt (toLe 4 w.val.toNat)).spill b g j l rest

/-- Refill one frame of a lane (R70, R73). -/
def State.refill (s : State) (b : Block) (g : Group) (j l : Nat) : List Nat → List (Nat × RWord) → (State × List (Nat × RWord)) ⊕ (Nat × Nat)
  | [], ws => .inl (s, ws)
  | sl :: rest, ws =>
    let a := spillAddr g j sl l
    let (s1, la) := s.laneNow b l true true .rd a 4
    match checks [la] with
    | .fault c _ i => .inr (c, i)
    | _ =>
      let r := s1.loadTgt b la.tgt 4
      if r.2.1 then .inr (0x08, a)
      else r.2.2.refill b g j l rest (ws ++ [(b.frameWord g j sl l, fresh (BitVec.ofNat 32 (leAt r.1 0 4)))])

/-- The lanes whose frames the burst of a group's `call` at `pc` has spilled; none where no burst is under way (R73). -/
def Group.spilledIn (g : Group) (pc : Nat) : Option (List Nat) := match g.wait with
  | some w => if w.on = .window ∧ w.pc = pc then some w.slots else none
  | none => none

/-- One frame of the spill pass of `call` (R73): the lowest active lane whose ring is full, and that has spilled none in this burst, spills,
and the word goes on in its burst; none where no lane has to spill. What was spilled before a fault stays. A spill for which the core has
no room waits in the burst (R149). -/
def State.spillStep (s : State) (b : Block) (g : Group) (act : List Nat) : Option State :=
  let spilt := match g.spilledIn s.cur.pc with | some ls => ls | none => []
  match firstOf (fun l => decide (l ∉ spilt) && decide (b.ringFrames g ≤ (g.lane l).depth + 1 - (g.lane l).lo)) act with
  | none => none
  | some l =>
    let x := g.lane l
    match s.spill b g x.lo l (upFrom 0 g.frame) with
    | .inr e => some (s.raiseFor e.1 (maskOf [l]) e.2)
    | .inl s1 =>
      if s1.crowded b.core then some ((s.forceQuiet b.core).waitSlots .window spilt)
      else some ((s1.updGrp b.id g.num (fun y => y.setLane l { y.lane l with lo := x.lo + 1 })).waitSlots .window (spilt ++ [l]))

/-- One frame of the refill pass of `ret` (R73). -/
def State.refillStep (s : State) (b : Block) (g : Group) (act : List Nat) : Option State :=
  match firstOf (fun l => decide ((g.lane l).depth - 1 < (g.lane l).lo)) act with
  | none => none
  | some l =>
    let x := g.lane l
    match s.refill b g (x.depth - 1) l (upFrom 0 g.frame) [] with
    | .inr e => some (s.raiseFor e.1 (maskOf [l]) e.2)
    | .inl (s1, ws) =>
      if s1.crowded b.core then some ((s.forceQuiet b.core).wait .window)
      else some ((s1.updGrp b.id g.num (fun y => (y.putWords ws).setLane l { y.lane l with lo := x.depth - 1 })).wait .window)

/-- The check pass of `call` for a lane (R73). -/
def callBad (b : Block) (g : Group) (l : Nat) : Option (Nat × Nat) :=
  let x := g.lane l
  if x.depth = 65535 then some (0x0C, 0)
  else if b.ringFrames g ≤ x.depth + 1 - x.lo ∧ g.inf.spilllim < g.inf.spillbase + (x.lo + 1) * g.frameBytes then some (0x0C, 0)
  else none

/-- The return address of the current word, and the index word of R73: the position of that word in the clause, 0 at its end. -/
def Cur.back (c : Cur) : Nat × Nat := (c.pc + 4, if c.idx = c.n then 0 else c.idx + 1)

/-- The check pass of a `call` (R73): made once, before its burst. -/
def callChecked (b : Block) (g : Group) (pc : Nat) (act : List Nat) : Option (Nat × Nat × Nat) :=
  if (g.spilledIn pc).isSome then none else firstBad (act.map (fun l => (l, callBad b g l)))

/-- `call` (R73, R79): while a frame has to be spilled the word spills one and stands (R123). -/
def execCall (i : Nat) (s : State) : Out :=
  match s.cur.ag with
  | .group _ _ => joinWord (fun b g act =>
      if g.frame < 2 then .next (s.raise 0x0C 0)
      else match s.jStep (sgn 24 i) with
      | .inr e => .next (s.raise e.1 e.2)
      | .inl t => match callChecked b g s.cur.pc act with
        | some e => .next (s.raiseFor e.1 e.2.1 e.2.2)
        | none => match s.spillStep b g act with
          | some s1 => .next s1
          | none =>
            let r := s.cur.back
            .next ((s.retire.updBlk b.id (fun k =>
              let k1 := k.updGrp g.num (fun x => x.mapLanes act (fun _ y => { y with depth := y.depth + 1 }))
              (k1.writeLanes g.num .v 0 (act.map (fun l => (l, [fresh (BitVec.ofNat 32 (r.1 % 2 ^ 32))])))).writeLanes g.num .v 1
                (act.map (fun l => (l, [fresh (BitVec.ofNat 32 (r.2 * 65536 + r.1 / 2 ^ 32))]))))).land b.id g.num act t)) s
  | .mgmt m =>
    if s.cur.act = [] then .next s.retire
    else match s.jStep (sgn 24 i) with
      | .inr e => .next (s.raise e.1 e.2)
      | .inl t =>
        let r := s.cur.back
        let k := (s.retire.mc m).land t
        .next (s.retire.setMc m { k with sregs := sfresh k.sregs 63 (r.1 + 2 ^ 48 * r.2) })
  | _ => .fault .noAgent

/-- The return place that a lane's slots 0 and 1 hold, with its fault (R73). -/
def retBad (b : Block) (g : Group) (l : Nat) : Option (Nat × Nat) :=
  let w0 := (b.src g .v 0 l).headD RWord.zero
  let w1 := (b.src g .v 1 l).headD RWord.zero
  let t := w0.val.toNat + 2 ^ 32 * (w1.val.toNat % 65536)
  if (g.lane l).depth = 0 then some (0x0C, 0)
  else if !b.slotsOk g [(.v, 0), (.v, 1)] then some (0x07, 0)
  else if !rok w0 || !rok w1 then some (0x04, 0)
  else match targetBad t with
    | some c => some (c, t)
    | none => none

/-- A return to `t` with index `x`: inside the clause whose header is at t - 4x, or to a header (R73). -/
def retLane (y : Lane) (t x : Nat) : Lane :=
  { y with pc := BitVec.ofNat 48 t, hdr := if x = 0 then t else (t + 2 ^ 48 - 4 * x) % 2 ^ 48, entered := false, guardOff := false }

/-- `ret` (R73, R79): while a frame has to be refilled the word refills one and stands (R123). -/
def execRet (s : State) : Out :=
  match s.cur.ag with
  | .group _ _ => joinWord (fun b g act =>
      match firstBad (act.map (fun l => (l, retBad b g l))) with
      | some e => .next (s.raiseFor e.1 e.2.1 e.2.2)
      | none => match s.refillStep b g act with
        | some s1 => .next s1
        | none =>
          let ts := act.map (fun l =>
            let w1 := valOf (b.src g .v 1 l)
            (l, valOf (b.src g .v 0 l) + 2 ^ 32 * (w1 % 65536), fld w1 19 16))
          .next (s.retire.updBlk b.id (fun k =>
            { (k.updGrp g.num (fun x => ts.foldl (fun y p =>
                let z := y.lane p.1
                y.setLane p.1 (retLane { z with depth := z.depth - 1 } p.2.1 p.2.2)) x)) with
              heads := ts.foldl (fun h p => if p.2.2 = 0 then insNat p.2.1 h else h) k.heads }))) s
  | .mgmt m =>
    if s.cur.act = [] then .next s.retire
    else
      let r := (s.mc m).sregs
      let t := sval r 63 % 2 ^ 48
      let x := fld (sval r 63) 51 48
      if !sok r 63 then .next (s.raise 0x04 0)
      else match targetBad t with
        | some c => .next (s.raise c t)
        | none =>
          let k := s.retire.mc m
          .next (s.retire.setMc m { k with
            pc := BitVec.ofNat 48 t, hdr := if x = 0 then t else (t + 2 ^ 48 - 4 * x) % 2 ^ 48, entered := false, guardOff := false,
            heads := if x = 0 then insNat t k.heads else k.heads })
  | _ => .fault .noAgent

/-- A mask releases: its parked lanes become live and it empties (R66). -/
def Group.release (g : Group) (k : Nat) : Group :=
  let e := tget 0 g.kEnr k
  if e ≠ 0 ∧ tget 0 g.kArr k = e then
    let ls := lanes32.filter (fun l => decide ((g.lane l).st = .parked k))
    { (g.mapLanes ls (fun _ x => { x with st := .live })) with kEnr := tset 0 g.kEnr k 0, kArr := tset 0 g.kArr k 0 }
  else g

/-- `enrol` of lanes given as a mask (R74). -/
def Group.enrol (g : Group) (k : Nat) (m : BitVec 32) : Group :=
  { g with kEnr := tset 0 g.kEnr k (tget 0 g.kEnr k ||| m), kArr := tset 0 g.kArr k (tget 0 g.kArr k &&& ~~~m) }

/-- `strike` (R74). -/
def Group.strike (g : Group) (k : Nat) (m : BitVec 32) : Group :=
  ({ g with kEnr := tset 0 g.kEnr k (tget 0 g.kEnr k &&& ~~~m), kArr := tset 0 g.kArr k (tget 0 g.kArr k &&& ~~~m) } : Group).release k

/-- `rejoin` by lanes that have moved on to the next word (R74). -/
def Group.rejoin (g : Group) (k : Nat) (act : List Nat) : Group :=
  let arr := act.filter (fun l => (tget 0 g.kEnr k).getLsbD l)
  ({ (g.mapLanes arr (fun _ x => { x with st := .parked k })) with
    kArr := tset 0 g.kArr k (tget 0 g.kArr k ||| BitVec.ofNat 32 (maskOf arr)) } : Group).release k

/-- `enrol` (R74). -/
def execEnrol (k : Nat) (s : State) : Out :=
  joinWord (fun b g act => .next (s.retire.updGrp b.id g.num (fun x => x.enrol k (BitVec.ofNat 32 (maskOf act))))) s

/-- `rejoin` (R74). -/
def execRejoin (k : Nat) (s : State) : Out :=
  joinWord (fun b g act => .next (s.retire.updGrp b.id g.num (fun x => x.rejoin k act))) s

/-- `strike` (R74). -/
def execStrike (k : Nat) (s : State) : Out :=
  joinWord (fun b g act => .next (s.retire.updGrp b.id g.num (fun x => x.strike k (BitVec.ofNat 32 (maskOf act))))) s

/-- `spawn` (R75). -/
def execSpawn (d a b v : Nat) (s : State) : Out :=
  joinWord (fun k g act =>
    let vw := viewOf v
    let l0 := lowest act
    let wa := k.src g vw a l0
    let wb := (k.src g vw b l0).headD RWord.zero
    if !k.slotsOk g [(vw, d), (vw, a), (vw, b)] then .next (s.raise 0x07 0)
    else match laneTarget wa with
    | some e => .next (s.raiseFor e.1 (maskOf [l0]) e.2)
    | none =>
      if !rok wb then .next (s.raiseFor 0x04 (maskOf [l0]) 0)
      else
      let t := valOf wa
      let free := lanes32.filter (fun l => decide ((g.lane l).st = .free))
      let new := free.take (min wb.val.toNat 32)
      let lane : Lane := { (Lane.none.enter t) with st := .live }
      .next (s.retire.updBlk k.id (fun q =>
        let q1 := { (q.updGrp g.num (fun x => x.mapLanes new (fun _ _ => lane))) with
          heads := if new = [] then q.heads else insNat t q.heads }
        (q1.writeLanes g.num vw d ((new.zip (upFrom 0 new.length)).map (fun p => (p.1, wordsFor p.2 (clean vw))))).writeLanes g.num vw d
          (act.map (fun l => (l, wordsFor (maskOf new) (clean vw))))))) s

/-- An `msync` set that is complete goes on (R78). -/
def Group.msyncRelease (g : Group) : Group :=
  if g.msA ≠ 0 ∧ g.msA = g.msM then
    let ls := lanes32.filter (fun l => decide ((g.lane l).st = .parked 8))
    { (g.mapLanes ls (fun _ x => { x with st := .live })) with msM := 0, msA := 0 }
  else g

/-- One lane ends: struck from every mask, out of the `msync` state, free (R76). Its record stays (R57, log entry 29). -/
def Group.exitLane (g : Group) (l : Nat) : Group :=
  let m := BitVec.ofNat 32 (2 ^ l)
  let g1 := (upFrom 0 8).foldl (fun x k => x.strike k m) g
  let g2 := ({ g1 with msM := g1.msM &&& ~~~m, msA := g1.msA &&& ~~~m } : Group).msyncRelease
  g2.setLane l { g2.lane l with st := .free, guardOff := false, deferred := false, entered := false, starve := 0 }

/-- The end entry of a party group's hash (R280): the flag says that the replay differs. -/
def State.hashEnd (s : State) (b : Block) (g : Nat) : State × Bool :=
  match s.bg b.id g, b.rr, b.partyOf g with
  | some (_, x), some d, some p =>
    if x.rrn ≠ 0 ∧ x.rrn % 2 ^ d.shift ≠ 0 then s.hashCheck b.trec.part d p x.rrh.toNat x.rrn true else (s, false)
  | _, _, _ => (s, false)

/-- `exit` (R76, R280). -/
def execExit (s : State) : Out :=
  joinWord (fun b g act =>
    let s1 := s.retire.updGrp b.id g.num (fun x => act.foldl Group.exitLane x)
    match s1.bg b.id g.num with
    | none => .next s1
    | some (_, x) =>
      if x.heldLanes = [] ∧ !b.priv g.num then
        let h := s1.hashEnd b g.num
        if h.2 then .next (h.1.diverge (maskOf act)) else .next (h.1.tryEndGroup b.id g.num)
      else .next s1) s

/-- For lanes of a group the clause that they are in ends as though Y were 1 (R77). -/
def Group.setY (g : Group) (set : List Nat) (hdr : Nat) : Group :=
  { g with yends := tset 0 g.yends hdr (tget 0 g.yends hdr ||| maskOf set) }

/-- `yield` (R77): the active lanes are passed over until their deferral ends; the clause ends as though Y were 1. -/
def execYield (s : State) : Out :=
  joinWord (fun b g act =>
    let s1 := { s with cur := { s.cur with y := true } }
    .next (s1.retire.updGrp b.id g.num (fun x => (x.mapLanes act (fun _ y => { y with deferred := true })).setY s.cur.set s.cur.hdr))) s

/-- `nop` (R77, R79). -/
def execNop (s : State) : Out :=
  match s.cur.ag with
  | .mgmt _ => .next s.retire
  | _ => joinWord (fun _ _ _ => .next s.retire) s

/-- `fork` (R168): `k` 0 starts the matrix stream, 1 the copy stream. -/
def execFork (k : Nat) (s : State) : Out :=
  joinWord (fun b g _ =>
    let st := if k = 0 then b.ms else b.cs
    let e := if k = 0 then b.trec.mentry else b.trec.centry
    if st.running then .next s.retire
    else if e = 0 then .next (s.raise 0x01 0)
    else
      let la := s.vaLane b (lowest s.cur.act) true true .rd e 8
      s.afterChecks b [la]
        (let r := s.loadTgt b la.tgt 8
         let d := leAt r.1 0 8
         s.orCrowded r.2.2 b.core <|
         if r.2.1 then .next (r.2.2.raise 0x08 e)
         else if d / 2 ^ 32 ≠ 0 ∨ (k = 0 ∧ fld d 31 16 ≠ 0) ∨ (k = 1 ∧ fld d 31 20 ≠ 0) then .next (r.2.2.raise 0x01 0)
         else if !s.quietGroup b.core b.id g.num then .next (r.2.2.wait .counter)
         else
           let run : Stream := { st with running := true, owner := g.num, pc := e + 8, hdr := e + 8, entered := false,
                                         part := BitVec.ofNat 16 d, again := false, og := fld d 19 16, wait := none, claim := none }
           let clear := fun (x : Bar) => { x with seqarr := x.seqarr &&& (if k = 0 then 2 else 1) }
           let s1 := r.2.2.retire.updBlk b.id (fun q => { q with
             ms := if k = 0 then run else q.ms, cs := if k = 0 then q.cs else run, heads := insNat (e + 8) q.heads, forked := true,
             bars := (upFrom 0 16).foldl (fun t n =>
               let y := clear (tget Bar.zero t n)
               tset Bar.zero t n { y with count := ((upFrom 0 18).filter (fun i => bitOf y.arrivals i)).length }) q.bars })
           match s1.blk b.id with
           | some q => .next (s1.trace 3 q (0x10 + k) 0)
           | none => .next s1)) s

/-- `rdv` (R168). -/
def execRdv (k : Nat) (s : State) : Out :=
  joinWord (fun b _ _ => if (if k = 0 then b.ms else b.cs).running then .next (s.wait .matrix) else .next s.retire) s

/-- `msync` (R78). The stores of the group to other scratchpads are performed first; its other accesses are performed when they issue, and
one that waits for presence holds its group (log entry 8). -/
def execMsync (a : Nat) (s : State) : Out :=
  joinWord (fun b g act =>
    if !b.slotsOk g [(.v, a)] then .next (s.raise 0x07 0)
    else match act.filter (fun l => !goodOf (b.src g .v a l)) with
    | l :: ls => .next (s.raiseFor 0x04 (maskOf (l :: ls)) 0)
    | [] =>
      let live := maskOf g.heldLanes
      let m := fun l => valOf (b.src g .v a l) &&& live
      let m0 := m (lowest act)
      let am := maskOf act
      if act.any (fun l => !bitOf (m l) l) || act.any (fun l => decide (m l ≠ m0)) || (decide (g.msA ≠ 0) && decide (m0 ≠ g.msM.toNat)) then
        .next (s.raiseFor 0x0D (am ||| g.msA.toNat) 0)
      else
        let s1 := (s.flushGroup b.core b.id g.num).dropAhead b g.num
        .next (s1.retire.updGrp b.id g.num (fun x =>
          ({ (x.mapLanes act (fun _ y => { y with st := .parked 8 })) with
            msM := if g.msA = 0 then BitVec.ofNat 32 m0 else g.msM, msA := g.msA ||| BitVec.ofNat 32 am } : Group).msyncRelease))) s

end Sys2Proof.Machine
end

