-- ==== Sys2Proof/Machine/MemWords.lean ====
section
/-! DEFINITION. Class M: loads, stores, transposing loads, cluster accesses, prefetch, presence words, `phase`; with the event
of their completion (R143, R154 to R160, R228, R362, R363). -/
namespace Sys2Proof.Machine

/-- `vld` (R155). -/
def execVld (d z r o b : Nat) (s : State) : Out := loadWord z b d (vaForm .rd r z o none) [(.w, r)] s

/-- `vst` (R155). -/
def execVst (d z r o b : Nat) (s : State) : Out := storeWord z b d (vaForm .wr r z o (some d)) [(.w, r)] s

/-- `vldsp` (R155). -/
def execVldsp (d z r o b : Nat) (s : State) : Out := loadWord z b d (spForm r z o none) [(.v, r)] s

/-- `vstsp` (R155). -/
def execVstsp (d z r o b : Nat) (s : State) : Out := storeWord z b d (spForm r z o (some d)) [(.v, r)] s

/-- `vldx` (R157). -/
def execVldx (d z r o b : Nat) (s : State) : Out := loadWord z b d (clForm r z o none) [(.v, r)] s

/-- `vstx` (R157). -/
def execVstx (d z r o b : Nat) (s : State) : Out := storeWord z b d (clForm r z o (some d)) [(.v, r)] s

/-- The bytes of a transposed block: rows of 16 bytes become columns of elements of `e` bytes (R156). -/
def transposed (bs : List Byte) (e : Nat) : List Byte :=
  let n := 16 / e
  (upFrom 0 512).map (fun p =>
    let k := p / e
    nth 0 bs (16 * (k % 32) + k / 32 % n * e + p % e))

/-- `vldt` (R156). -/
def execVldt (d z r o b : Nat) (s : State) : Out :=
  joinWord (fun k g act =>
    let l0 := lowest act
    let w := k.src g .v r l0
    let base := (valOf w : Int) + off7 o z
    if !k.slotsOk g [(.t, d), (.v, r)] then .next (s.raise 0x07 0)
    else if !goodOf w then .next (s.raiseFor 0x04 (maskOf [l0]) 0)
    else if base % 16 ≠ 0 then .next (s.raiseFor 0x05 (maskOf [l0]) (wrap 64 (scrBase + base)))
    else if base < 0 ∨ (spallocOf k.trec : Int) < base + 512 then .next (s.raiseFor 0x07 (maskOf [l0]) (wrap 64 (scrBase + base)))
    else if g.counterFull b && !s.holding k g.num 1 then .next (s.wait .counter)
    else if (linesOf base.toNat 512).any (fun l => decide (l ∈ k.absent)) then .next (s.hold k g.num b (maskOf act) 1 [k.id] false)
    else
      let t := transposed (tgets 0 k.scr base.toNat 512) (sizeOf z)
      let ws := k.loadWrites g .t d (act.map (fun l => (l, (t.drop (16 * l)).take 16)))
      let poison := if k.scrPoison base.toNat 512 then some (wrap 64 (scrBase + base)) else none
      .next (((s.unhold1 k g.num 1 [k.id]).passPresence k g.num [k.id]).issueAs k.core ⟨0, k.id, g.num, b, s.cur.pc, maskOf act, poison, ws, 0, [k.id], [], false⟩).retire) s

/-- Prefetch the sectors of one lane's range; a lane that fails a check is dropped (R158). -/
def State.prefLane (s : State) (k : Block) (g : Group) (r z o l : Nat) : State :=
  let ok := goodOf (k.src g .w r l)
  let a := vaOf k g r z o l
  let n := sizeOf z
  let (s1, la) := if ok then s.laneNow k l ok true .rd a n else (s, s.vaLane k l ok true .rd a n)
  if regionOf a = .mem ∧ checks [la] = .ok then
    (s1.physParts k .rd a n).foldl (fun t p => t.prefetch k.core (p.1 / 32)) s1
  else s1

/-- `vpref` (R158): it never faults; where its address slot lies outside the window every lane is dropped. -/
def execVpref (z r o b : Nat) (s : State) : Out :=
  joinWord (fun k g act =>
    if g.counterFull b then .next (s.wait .counter)
    else
      let ls := if k.slotsOk g [(.w, r)] then act else []
      .next ((ls.foldl (fun t l => t.prefLane k g r z o l) s).issueOut k g.num b (maskOf act) none []).retire) s

/-- The run of lines that an address word names (R159); none where it leaves the allocation. -/
def runOf (k : Block) (g : Group) (r z o l : Nat) : Option (List Nat) :=
  let w := valOf (k.src g .v r l)
  let off := ((w % 2 ^ 20 : Nat) : Int) + off7 o z
  let l0 := off.toNat / 512
  if bitOf w 20 ∨ off < 0 ∨ k.lines ≤ l0 + fld w 31 21 then none else some (upFrom l0 (fld w 31 21 + 1))

/-- The checks of the presence words, then what they do with the lanes' runs (R159). -/
def runWord (r z o : Nat) (f : Block → Group → List (Nat × List Nat) → Out) (s : State) : Out :=
  joinWord (fun k g act =>
    if !k.slotsOk g [(.v, r)] then .next (s.raise 0x07 0)
    else match act.filter (fun l => !goodOf (k.src g .v r l)) with
    | l :: ls => .next (s.raiseFor 0x04 (maskOf (l :: ls)) 0)
    | [] => match act.filter (fun l => (runOf k g r z o l).isNone) with
      | l :: ls => .next (s.raiseFor 0x07 (maskOf (l :: ls)) (scrBase + valOf (k.src g .v r l) % 2 ^ 20))
      | [] => f k g (act.map (fun l => (l, match runOf k g r z o l with | some x => x | none => [])))) s

/-- `prsclr` (R159, R143). -/
def execPrsclr (z r o : Nat) (s : State) : Out :=
  runWord r z o (fun k _ rs =>
    .next (s.updBlk k.id (fun q => { q with absent := rs.foldl (fun a x => x.2.foldl (fun y n => insNat n y) a) q.absent })).retire) s

/-- `prswait` (R159, R144). -/
def execPrswait (z r o : Nat) (s : State) : Out :=
  runWord r z o (fun k g rs =>
    if rs.any (fun x => x.2.any (fun n => decide (n ∈ k.absent))) then .next (s.wait .presence)
    else .next (s.passPresence k g.num [k.id]).retire) s

/-- `prstest` (R159). -/
def execPrstest (d z r o : Nat) (s : State) : Out :=
  runWord r z o (fun k g rs =>
    .next (s.updBlk k.id (fun q => q.setPreds g.num d (rs.map (fun x => (x.1, x.2.all (fun n => decide (n ∉ k.absent))))))).retire) s

/-- The publication of a `phase` of a scope: home writes, frames of the mirror sectors, and one empty frame where none of them has the
scope asked for. The answer counts the pod frames and the system frames that are to be applied locally: its own, and those that the core
has sent before (R160, R362, R363). -/
def State.phasePublish (s : State) (core part scope : Nat) : State × Nat × Nat :=
  if scope = 0 then (s, 0, 0)
  else
    let s1 := s.publish core
    let sent := decide (s1.nx.sysQ ≠ s.nx.sysQ) || (decide (scope = 4) && decide (s1.nx.podQ ≠ s.nx.podQ))
    let s2 := if 4 ≤ scope && !sent then s1.queuePubs part (scope - 4) [padTo 208 []] else s1
    let g := s2.pubGoal core
    (s2, if s2.nx.podQ = s.nx.podQ then g.1 else s2.nx.podQ, if s2.nx.sysQ = s.nx.sysQ then g.2 else s2.nx.sysQ)

/-- A core's publication is complete: what it fetched ahead before that is dropped (R397). -/
def State.bounded (s : State) (c : Nat) : State := s.dropEarly c (fun _ => true)

/-- The frames of a publication are to be applied here, and after a scope of `.pod` or `.sys` the calls placed before them: the word waits
for them, or the publication is complete (R160, R363). -/
def State.published (s : State) (b : Block) (scope pod sys : Nat) : State ⊕ State :=
  let p := s.part b.trec.part
  if !s.pubsDone pod sys then .inl (s.wait (.phase pod sys))
  else if 4 ≤ scope ∧ p.applied < p.placed then .inl (s.wait (.applied p.placed)) else .inr (s.bounded b.core)

/-- A word's publication from its start on, or from what the word waits for (R160, R395). -/
def State.publication (s : State) (b : Block) (on : Option WaitOn) (scope : Nat) : State ⊕ State :=
  match on with
  | some (.phase pod sys) => s.published b scope pod sys
  | some (.applied n) => if (s.part b.trec.part).applied < n then .inl (s.wait (.applied n)) else .inr (s.bounded b.core)
  | _ =>
    if s.quietCore b.core then
      let r := s.phasePublish b.core b.trec.part scope
      r.1.published b scope r.2.1 r.2.2
    else .inl (s.wait .counter)

/-- `phase` (R160). -/
def execPhase (z : Nat) (s : State) : Out :=
  joinWord (fun k g _ =>
    let on : Option WaitOn := match g.wait with
      | some w => if w.pc = s.cur.pc then some w.on else none
      | none => none
    match s.publication k on z with
    | .inl t => .next t
    | .inr t => .next (t.refresh k.core).retire) s

/-- MEMORY_ACCESS_COMPLETION (R154): an outstanding access reaches its completion point; one that waits for presence has still to perform.
A task that waits for the accesses of its cores alone ends (R395). -/
def execMemoryAccessCompletion (core id : Nat) (s : State) : Out :=
  match firstOf (fun o => decide (o.id = id) && decide (o.held = 0)) (s.core core).outs with
  | none => .next s
  | some o =>
    let r := s.complete core o
    match r.2 with
    | none => .next (r.1.tryEndGroup o.blk o.grp).endTasks
    | some f => match r.1.blk o.blk with
      | none => .next r.1.endTasks
      | some k => .next (if k.priv o.grp then r.1.nested o.blk f.code else r.1.asyncFault o.blk f).endTasks

/-- The word on which a group waits, as the current word; none where it does not wait on a word of a fetched clause. -/
def State.waitingCur (s : State) (b g : Nat) : Option (Cur × Nat × Nat) :=
  match s.bg b g with
  | none => none
  | some (_, x) => match x.wait with
    | none => none
    | some w => match x.hdrOfPc w.pc with
      | none => none
      | some h =>
        let ws := tget [] x.fetched h
        let hw := (ws.headD 0).toNat
        let set := (x.pcSet w.pc).filter (fun l => (x.lane l).entered)
        some (⟨.group b g, set, set.filter (fun l => !(x.lane l).guardOff), w.pc, h, fld hw 31 28, bitOf hw 24⟩,
          fld hw 27 25, (nth 0 ws ((w.pc - h) / 4)).toNat)

end Sys2Proof.Machine
end

