-- ==== Sys2Proof/Machine/Bars.lean ====
section
/-! DEFINITION. Block barriers and cluster membership: `barar`, `barwt`, `barsync`, `cljoin`, `clleave`, `clslot` (R135 to
R137, R222 to R227). -/
namespace Sys2Proof.Machine

/-- A group has arrived in the current phase of a barrier (R135). -/
def Block.hasArrived (b : Block) (g n : Nat) : Bool := (tget Bar.zero b.bars n).grparr.getLsbD g

/-- A group passes its wait on a barrier: where it has arrived there, its core's reads are refreshed as after a `phase.core`, by each of its
PC-sets that passes (R137, R394). -/
def State.passBar (s : State) (b : Block) (g n : Nat) : State :=
  match b.grp g with
  | none => s
  | some x =>
    if bitOf x.arrived n then s.refresh b.core else s

/-- A group arrives at a barrier: what it has sent to other scratchpads is performed before (R137). -/
def State.comeBar (s : State) (b : Block) (g n : Nat) : State :=
  ((s.flushGroup b.core b.id g).updGrp b.id g (fun y => { y with arrived := y.arrived ||| 2 ^ n })).barArrive b.id g n

/-- The group's word has waited on a barrier. -/
def Group.waited (g : Group) (pc i : Nat) : Bool := match g.wait with
  | some w => decide (w.pc = pc) && decide (w.on = .barrier i)
  | none => false

/-- `barar` (R136): one that has waited for the completed phase has passed a wait on it (R137). -/
def execBarar (i : Nat) (s : State) : Out :=
  joinWord (fun b g _ =>
    if b.hasArrived g.num i then .next (s.wait (.barrier i))
    else .next ((if g.waited s.cur.pc i then s.passBar b g.num i else s).retire.comeBar b g.num i)) s

/-- `barwt` (R136). -/
def execBarwt (i : Nat) (s : State) : Out :=
  joinWord (fun b g _ => if b.hasArrived g.num i then .next (s.wait (.barrier i)) else .next (s.passBar b g.num i).retire) s

/-- The wait of `barsync`: on completion of the phase in which the group has arrived. -/
def State.syncWait (s : State) (bid g i : Nat) : State :=
  match s.blk bid with
  | none => s
  | some b => if b.hasArrived g i then s.wait (.barrier (16 + i)) else (s.passBar b g i).retire

/-- `barsync` (R136): `barar`, then `barwt`. A wait numbered 16 and above is one that follows the word's own arrival. -/
def execBarsync (i : Nat) (s : State) : Out :=
  joinWord (fun b g _ =>
    let mine : Bool := match g.wait with | some w => decide (w.on = .barrier (16 + i)) && decide (w.pc = s.cur.pc) | none => false
    if mine then .next (s.syncWait b.id g.num i)
    else if b.hasArrived g.num i then .next (s.wait (.barrier i))
    else .next (((if g.waited s.cur.pc i then s.passBar b g.num i else s).comeBar b g.num i).syncWait b.id g.num i)) s

/-- The status word of `cljoin` and `clleave` (R225). -/
def clStatus (st members slot : Nat) : Nat := st * 65536 + members * 256 + slot

/-- The clusters that a partition has on a die (R222). -/
def State.clustersOf (s : State) (d part : Nat) : Nat := ((s.die d).clusters.filter (fun c => decide (c.part = part))).length

/-- The entries of a die's cluster table that a partition's slices reserve (R222). -/
def State.clusterRoom (s : State) (d part : Nat) : Nat :=
  8 * ((s.part part).cfg.slices.filter (fun sl => decide (sl / 8 = d))).length

/-- A number that names no cluster of a die. -/
def newCid (cs : List Cluster) : Nat := cs.foldl (fun m c => max m (c.cid + 1)) 0

/-- Members of a cluster of a die; 0 when it is gone. -/
def State.membersOf (s : State) (d cid : Nat) : Nat := match s.cluster d cid with | some c => c.members | none => 0

/-- The join itself (R225): the state after it and the status word. -/
def State.joinCluster (s : State) (b : Block) (key req : Nat) : State × Nat :=
  let d := dieOf b.core
  match b.cl with
  | some (cid, slot) => (s, clStatus 3 (s.membersOf d cid) slot)
  | none =>
    let found := firstOf (fun c => decide (c.part = b.trec.part) && decide (c.task = b.task) && decide (c.key.toNat = key)) (s.die d).clusters
    match found with
    | none =>
      if s.clusterRoom d b.trec.part ≤ s.clustersOf d b.trec.part then (s, clStatus 2 0 0xFF)
      else
        let k := s.die d
        let cid := newCid k.clusters
        let slot := if req = 0xFF then 0 else req
        let c : Cluster := ⟨cid, b.trec.part, b.task, BitVec.ofNat 32 key, [(slot, .occupied b.id)]⟩
        ((s.setDie d { k with clusters := k.clusters ++ [c] }).updBlk b.id (fun x => { x with cl := some (cid, slot) }),
          clStatus 0 1 slot)
    | some c =>
      let empty := (upFrom 0 16).filter (fun n => decide (tget SlotSt.empty c.slots n = .empty))
      let pick := if req = 0xFF then leastOf empty else if req ∈ empty then some req else none
      match pick with
      | none => (s, clStatus 1 c.members 0xFF)
      | some slot =>
        let s1 := (s.updBlk b.id (fun x => { x with cl := some (c.cid, slot) })).fillSlot d c.cid slot b.id
        (s1, clStatus 0 (s1.membersOf d c.cid) slot)

/-- An access of a block that has issued and is not yet performed, at the scratchpads that a test names. -/
def State.owes (s : State) (b : Block) (p : Nat → Bool) : Bool :=
  (s.core b.core).outs.any (fun o => decide (o.blk = b.id) && o.spots.any p && (decide (o.held ≠ 0) || !o.puts.isEmpty))

/-- A `vldx` or `vstx` of a block has issued and is not yet performed (R226). -/
def State.owesMembers (s : State) (b : Block) : Bool :=
  (s.core b.core).outs.any (fun o => decide (o.blk = b.id) && o.member && (decide (o.held ≠ 0) || !o.puts.isEmpty))

/-- `cljoin` (R225); what it waits for it reports as `COUNTER`, as `clleave` does (log entry 80): the residues are those of the key word and the request word alone (R120, R233). -/
def execCljoin (d a b v : Nat) (s : State) : Out :=
  joinWord (fun k g act =>
    let vw := viewOf v
    let l0 := lowest act
    let wk := (k.src g vw a l0).headD RWord.zero
    let wr := (k.src g vw b l0).headD RWord.zero
    let req := wr.val.toNat % 256
    if !k.slotsOk g [(vw, d), (vw, a), (vw, b)] then .next (s.raise 0x07 0)
    else if !rok wk || !rok wr then .next (s.raiseFor 0x04 (maskOf [l0]) 0)
    else if 16 ≤ req ∧ req < 0xFF then .next (s.raise 0x01 0)
    else if s.owes k (fun x => decide (x = k.id)) then .next (s.wait .counter)
    else
      let r := s.joinCluster k wk.val.toNat req
      .next (r.1.retire.giveAll k.id g.num vw d act r.2)) s

/-- `clleave` (R226): it waits for every `vldx` and `vstx` that a group of the block has issued, to its own slot too; those of members to
its slot are performed as the slot is vacated. -/
def execClleave (d v : Nat) (s : State) : Out :=
  joinWord (fun k g act =>
    let vw := viewOf v
    if !k.slotsOk g [(vw, d)] then .next (s.raise 0x07 0)
    else match k.cl with
      | none => .next (s.retire.giveAll k.id g.num vw d act (clStatus 4 0 0xFF))
      | some (cid, slot) =>
        if s.owesMembers k then .next (s.wait .counter)
        else
        let s1 := s.leaveCluster k (dieOf k.core)
        .next (s1.retire.giveAll k.id g.num vw d act (clStatus 0 (s1.membersOf (dieOf k.core) cid) slot))) s

/-- The value of `clslot` (R227). -/
def State.slotMasks (s : State) (b : Block) : Nat :=
  match b.cl with
  | none => 0xFF * 2 ^ 56
  | some (cid, slot) => match s.cluster (dieOf b.core) cid with
    | none => 0xFF * 2 ^ 56
    | some c =>
      let of_ := fun (p : SlotSt → Bool) => maskOf ((upFrom 0 16).filter (fun n => p (tget SlotSt.empty c.slots n)))
      slot * 2 ^ 56 + of_ (fun x => match x with | .away _ => true | _ => false) * 2 ^ 32
        + of_ (fun x => decide (x = .vacated)) * 2 ^ 16 + of_ (fun x => match x with | .occupied _ => true | _ => false)

/-- `clslot` (R227). -/
def execClslot (d v : Nat) (s : State) : Out :=
  joinWord (fun k g act =>
    let vw := viewOf v
    if !k.slotsOk g [(vw, d)] then .next (s.raise 0x07 0)
    else .next (s.retire.giveAll k.id g.num vw d act (s.slotMasks k))) s

end Sys2Proof.Machine
end

