-- ==== Sys2Proof/Machine/Atomics.lean ====
section
/-! DEFINITION. Atomics: the address word and its control byte, the checks, publication, the gauntlet of record and replay,
the operations, and the events of the gauntlet (R218 to R221, R247, R249, R279). -/
namespace Sys2Proof.Machine

/-- An address word of two slots in view 00, of one in view 01, in lane `l` (R249). -/
def addrWords (k : Block) (g : Group) (vw : View) (a l : Nat) : List RWord :=
  match vw with
  | .v => (k.src g .v a l).take 1 ++ (k.src g .v (a + 1) l).take 1
  | _ => k.src g vw a l

/-- The slots that an address word occupies. -/
def addrSlots (vw : View) (a : Nat) : List (View × Nat) :=
  match vw with
  | .v => [(.v, a), (.v, a + 1)]
  | _ => [(vw, a)]

/-- What an atomic is (R249): its new value with the success it reports, from the width, old, x, b2 and opt; which operands
it takes; whether it writes, returns a value, may name a predicate; which opt it allows. -/
structure AtOp where
  f : Nat → Nat → Nat → Nat → Nat → Nat × Bool
  useB : Bool
  useB2 : Bool
  writes : Bool
  gives : Bool
  tests : Bool
  optOk : Nat → Bool

/-- The control byte is legal (R249, R31). -/
def ctlOk (o : AtOp) (ctl : Nat) : Bool :=
  let scope := ctl % 8
  o.optOk (ctl / 32) && decide (scope ≤ 5) && (decide (scope = 0) || decide (ctl / 8 % 4 ≠ 0))

/-- What a home access of one word finds (R249): alignment, translation, protection. -/
inductive Home where
  | ok (pa : Nat)
  | bad (code : Nat)
  | walk (page : Nat)
  deriving DecidableEq, Repr

/-- Route a home access of a core's block to an aligned word; the kinds of access that it makes are all needed. -/
def State.homeAt (s : State) (b : Block) (va : Nat) : List Acc → Home
  | [] => .bad 7
  | k :: rest =>
    if regionOf va = .scr then .bad 7
    else match s.route b.core b.trec.part k va with
      | .miss => .walk (s.pageOf b.trec.part va)
      | .bad c => .bad c
      | .ok pa => match rest with
        | [] => .ok pa
        | _ => s.homeAt b va rest

/-- The current chunk of a replay log: its number, what is left of its run, its party; chunks of run 0 are passed over. -/
def State.rrLoad (s : State) (p : Nat) (d : RrDesc) : Nat → Nat → Nat × Nat × Nat
  | 0, k => (k, 0, 0)
  | fuel + 1, k =>
    if d.chunks ≤ k then (k, 0, 0)
    else
      let c := s.rrChunk p d k
      if c % 4096 = 0 then s.rrLoad p d fuel (k + 1) else (k, c % 4096, c / 4096)

/-- The gauntlet's position (R220): chunk, run, party; a run of 0 says that the log has been consumed. -/
def State.rrNow (s : State) (p : Nat) (d : RrDesc) : Nat × Nat × Nat :=
  let r := s.rrPos p d
  if d.chunks ≤ r.chunk then (r.chunk, 0, 0)
  else if r.run ≠ 0 then (r.chunk, r.run, r.party)
  else s.rrLoad p d (d.chunks + 1 - r.chunk) (r.chunk + 1)

/-- Admit an atomic (R220): the run falls by 1, and at 0 the gauntlet moves on. -/
def State.rrTake (s : State) (p : Nat) (d : RrDesc) : State :=
  let n := s.rrNow p d
  let m := if n.2.1 = 1 then s.rrLoad p d (d.chunks + 1 - n.1) (n.1 + 1) else (n.1, n.2.1 - 1, n.2.2)
  s.setRr p d { s.rrPos p d with chunk := m.1, run := m.2.1, party := m.2.2 }

/-- Log an atomic of a party in record mode (R219, R279): the chunk, then the count. -/
def State.rrLog (s : State) (p : Nat) (d : RrDesc) (party : Nat) : State :=
  let r := s.rrPos p d
  if r.full then s
  else
    let same := decide (r.run ≠ 0) && decide (r.party = party) && decide (r.run < 4095)
    let c := if r.run = 0 then 0 else if same then r.chunk else r.chunk + 1
    if d.cap ≤ c then (s.setRr p d { r with full := true }).rrOverflow d
    else
      let run := if same then r.run + 1 else 1
      let s1 := s.setRr p d { r with chunk := c, run := run, party := party }
      let s2 := match s1.xlateNow p .wr (d.logBase + 2 * c) with
        | .ok pa => s1.homeWrite pa (toLe 2 (party * 4096 + run))
        | _ => s1
      s2.homeWrite d.cntAt (toLe 4 (c + 1))

/-- How the gauntlet meets an atomic (R219, R220). -/
inductive Gate where
  | free
  | record (party : Nat)
  | admitted
  | hold (party : Nat)
  | consumed
  deriving DecidableEq, Repr

/-- The gate for an atomic at a virtual address from a party. -/
def State.gateOf (s : State) (p : Nat) (d : RrDesc) (party va : Nat) : Gate :=
  if va < d.lo ∨ d.hi ≤ va then .free
  else if d.mode = 1 then .record party
  else
    let n := s.rrNow p d
    if n.2.1 = 0 then .consumed else if n.2.2 = party then .admitted else .hold party

/-- What the gate does when an atomic is performed. -/
def State.passGate (s : State) (p : Nat) (d : Option RrDesc) (g : Gate) : State :=
  match d with
  | none => s
  | some d => match g with
    | .record party => s.rrLog p d party
    | .admitted => s.rrTake p d
    | _ => s

/-- The party of a group under a descriptor; 15 stands for every other source (R218). -/
def Block.party15 (b : Block) (g : Nat) : Nat := match b.partyOf g with | some p => p | none => 15

/-- The entry of a group at the gauntlet of a die. -/
def State.gateWait (s : State) (die b g : Nat) : Option GWait :=
  firstOf (fun w => decide (w.blk = b) && decide (w.grp = g)) (s.die die).gaunt

/-- Take a group's entry off the gauntlet. -/
def State.gateLeave (s : State) (die b g : Nat) : State :=
  let k := s.die die
  if k.gaunt = [] then s
  else s.setDie die { k with gaunt := k.gaunt.filter (fun w => !(decide (w.blk = b) && decide (w.grp = g))) }

/-- A group joins the gauntlet; entries beyond 256 spill (R220, R246). -/
def State.gateJoin (s : State) (die b g party : Nat) : State :=
  match s.gateWait die b g with
  | some _ => s
  | none =>
    let k := s.die die
    s.setDie die { k with gaunt := k.gaunt ++ [⟨b, g, party, s.cycle⟩],
                          ovf := if 256 ≤ k.gaunt.length then k.ovf + 1 else k.ovf }

/-- The publication that a word makes first, once: `phase` of a scope without its refresh (R160, R249, R395). The answer is a
waiting state, or the state in which the word goes on. -/
def State.pubFirst (s : State) (b : Block) (wait : Option Wait) (pub : Bool) (scope : Nat) : State ⊕ State :=
  let on : Option WaitOn := match wait with
    | some w => if w.pc = s.cur.pc then some w.on else none
    | none => none
  if !pub then .inr s
  else match on with
  | some .gauntlet => .inr s
  | some .object => .inr s
  | _ => s.publication b on scope

/-- The atomic at its home, once it is admitted (R247, R249): old value out, new value in. -/
def State.atHome (s : State) (b : Block) (pa n : Nat) (o : AtOp) (x b2 opt : Nat) : State × Nat × Nat × Bool :=
  let s1 := (s.sectorHome b.core pa n).recall pa n
  let old := s1.homeLe pa n
  let r := o.f (8 * n) old x b2 opt
  (if o.writes then s1.homeWrite pa (toLe n r.1) else s1, old, r.1, r.2)

/-- The effects on the group after its atomic has been performed (R249, R221): predicate, result, refresh, hash. Every atomic but `atred`
comes before the group's later fetches (R397). -/
def State.atDone (s : State) (b : Block) (g : Group) (act : List Nat) (vw : View) (d : Nat) (o : AtOp) (ctl va n old new : Nat) (ok : Bool) : State :=
  let opt := ctl / 32
  let s1 := (if o.gives then s.dropAhead b g.num else s).retire
  let s2 := if o.tests && decide (opt ≠ 0) then s1.predAll b.id g.num opt act ok else s1
  let s3 := if o.gives then s2.giveAll b.id g.num vw d act old else s2
  let s4 := if bitOf ctl 4 then s3.refresh b.core else s3
  if o.writes then
    let h := s4.hashStores b.id g.num (unitsOf va n new (lowest act))
    match h.2 with
    | none => h.1
    | some l => h.1.diverge (maskOf [l])
  else s4

/-- The common meaning of the atomics (R249). -/
def atomicWord (o : AtOp) (d a b v : Nat) (s : State) : Out :=
  joinWord (fun k g act =>
    let vw := viewOf v
    let n := if v = 0 then 4 else 8
    let l0 := lowest act
    let aw := addrWords k g vw a l0
    let slots := addrSlots vw a ++ (if o.gives then [(vw, d)] else []) ++ (if o.useB then [(vw, b)] else [])
      ++ (if o.useB2 then [(vw, b + 1)] else [])
    let ctl := valOf aw / 2 ^ 56
    let va := valOf aw % 2 ^ 56
    let xs := if o.useB then k.src g vw b l0 else []
    let ys := if o.useB2 then k.src g vw (b + 1) l0 else []
    if !k.slotsOk g slots then .next (s.raise 0x07 0)
    else if !goodOf aw then .next (s.raiseFor 0x04 (maskOf [l0]) 0)
    else if !ctlOk o ctl then .next (s.raise 0x01 0)
    else if va % n ≠ 0 then .next (s.raise 0x05 va)
    else match s.homeAt k va (if o.writes then [.wr, .rd] else [.rd]) with
      | .bad c => .next (s.raise c va)
      | .walk page => .next (s.waitWalk k.core k.trec.part page)
      | .ok pa =>
        if s.inMirror k.trec.part pa then .next (s.raise 0x07 va)
        else if !goodOf xs || !goodOf ys then .next (s.raiseFor 0x04 (maskOf [l0]) 0)
        else if s.poisonedIn pa n then .next (s.raise 0x08 va)
        else match s.pubFirst k g.wait (bitOf ctl 3) (ctl % 8) with
          | .inl t => .next t
          | .inr s1 =>
            let die := homeDie pa
            let gate := match k.rr with | none => Gate.free | some r => s1.gateOf k.trec.part r (k.party15 g.num) va
            let go := fun (t : State) =>
              let t1 := (t.gateLeave die k.id g.num).passGate k.trec.part k.rr gate
              let r := t1.atHome k pa n o (valOf xs) (valOf ys) (ctl / 32)
              Host.Outcome.next (r.1.atDone k g act vw d o ctl va n r.2.1 r.2.2.1 r.2.2.2)
            match gate, s1.gateWait die k.id g.num with
            | .hold p, _ => .next ((s1.gateJoin die k.id g.num p).wait .gauntlet)
            | .consumed, some _ => .next (s1.wait .gauntlet)
            | .consumed, none => .next (s1.raise 0x12 0)
            | _, _ => go s1) s

/-- An operation that writes f of old and x and names no predicate. -/
def plainAt (f : Nat → Nat → Nat → Nat) : AtOp :=
  ⟨fun w old x _ _ => (f w old x, true), true, false, true, true, false, fun opt => decide (opt = 0)⟩

/-- A minimum or maximum: opt bit 0 reads both words signed (R249). -/
def pickAt (less : Bool) : AtOp :=
  ⟨fun w old x _ opt =>
    let lt := if bitOf opt 0 then decide (sgn w old < sgn w x) else decide (old < x)
    (if lt = less then old else x, true), true, false, true, true, false, fun opt => decide (opt < 2)⟩

/-- An operation with a second operand and a predicate of its success. -/
def testAt (f : Nat → Nat → Nat → Nat → Nat × Bool) : AtOp :=
  ⟨fun w old x b2 _ => f w old x b2, true, true, true, true, true, fun opt => decide (opt < 8)⟩

/-- The f32 sum of `atred`: two halves at 64 bits (R249). -/
def redAdd (w old x : Nat) : Nat :=
  f32Add .rne (old % 2 ^ 32) (x % 2 ^ 32)
    + (if w = 64 then 2 ^ 32 * f32Add .rne (old / 2 ^ 32) (x / 2 ^ 32) else 0)

/-- The twelve atomics of R249. -/
def atAdd : AtOp := plainAt (fun w old x => (old + x) % 2 ^ w)
def atInc : AtOp := plainAt (fun w old x => if x ≤ old then 0 else (old + 1) % 2 ^ w)
def atBadd : AtOp := testAt (fun _ old x b2 => if old + x ≤ b2 then (old + x, true) else (old, false))
def atMin : AtOp := pickAt true
def atMax : AtOp := pickAt false
def atAnd : AtOp := plainAt (fun _ old x => old &&& x)
def atOr : AtOp := plainAt (fun _ old x => old ||| x)
def atXor : AtOp := plainAt (fun _ old x => old ^^^ x)
def atXchg : AtOp := plainAt (fun _ _ x => x)
def atCas : AtOp := testAt (fun _ old x b2 => if old = x then (b2, true) else (old, false))
def atLd : AtOp := ⟨fun _ old _ _ _ => (old, true), false, false, false, true, false, fun opt => decide (opt = 0)⟩
def atRed : AtOp := ⟨fun w old x _ _ => (redAdd w old x, true), true, false, true, false, false, fun opt => decide (opt = 0)⟩

/-- The atomic of an opcode (R249, R335). -/
def atOpOf : Nat → AtOp
  | 0x08 => atAdd
  | 0x09 => atInc
  | 0x0A => atBadd
  | 0x0B => atMin
  | 0x0C => atMax
  | 0x0D => atAnd
  | 0x0E => atOr
  | 0x0F => atXor
  | 0x10 => atXchg
  | 0x11 => atCas
  | 0x12 => atLd
  | _ => atRed

/-- `atadd` (R249). -/
def execAtadd (d a b v : Nat) (s : State) : Out := atomicWord atAdd d a b v s

/-- `atinc` (R249): x is the bound. -/
def execAtinc (d a b v : Nat) (s : State) : Out := atomicWord atInc d a b v s

/-- `atbadd` (R249): bounded, without wrap. -/
def execAtbadd (d a b v : Nat) (s : State) : Out := atomicWord atBadd d a b v s

/-- `atmin` (R249). -/
def execAtmin (d a b v : Nat) (s : State) : Out := atomicWord atMin d a b v s

/-- `atmax` (R249). -/
def execAtmax (d a b v : Nat) (s : State) : Out := atomicWord atMax d a b v s

/-- `atand` (R249). -/
def execAtand (d a b v : Nat) (s : State) : Out := atomicWord atAnd d a b v s

/-- `ator` (R249). -/
def execAtor (d a b v : Nat) (s : State) : Out := atomicWord atOr d a b v s

/-- `atxor` (R249). -/
def execAtxor (d a b v : Nat) (s : State) : Out := atomicWord atXor d a b v s

/-- `atxchg` (R249). -/
def execAtxchg (d a b v : Nat) (s : State) : Out := atomicWord atXchg d a b v s

/-- `atcas` (R249). -/
def execAtcas (d a b v : Nat) (s : State) : Out := atomicWord atCas d a b v s

/-- `atld` (R249): reads and writes nothing. -/
def execAtld (d a v : Nat) (s : State) : Out := atomicWord atLd d a 0 v s

/-- `atred` (R249): returns nothing. -/
def execAtred (a b v : Nat) (s : State) : Out := atomicWord atRed 0 a b v s

/-- The atomic that a word of class Y is, run at a state. -/
def runAtomic (word : Nat) (s : State) : Option Out :=
  match decodeWord 5 word with
  | .ok (.atadd d a b v) => some (execAtadd d a b v s)
  | .ok (.atinc d a b v) => some (execAtinc d a b v s)
  | .ok (.atbadd d a b v) => some (execAtbadd d a b v s)
  | .ok (.atmin d a b v) => some (execAtmin d a b v s)
  | .ok (.atmax d a b v) => some (execAtmax d a b v s)
  | .ok (.atand d a b v) => some (execAtand d a b v s)
  | .ok (.ator d a b v) => some (execAtor d a b v s)
  | .ok (.atxor d a b v) => some (execAtxor d a b v s)
  | .ok (.atxchg d a b v) => some (execAtxchg d a b v s)
  | .ok (.atcas d a b v) => some (execAtcas d a b v s)
  | .ok (.atld d a v) => some (execAtld d a v s)
  | .ok (.atred a b v) => some (execAtred a b v s)
  | _ => none

/-- REPLAY_GAUNTLET_ADMIT (R220): an atomic that waits at the gauntlet of a die performs when the current chunk names its
party. -/
def execReplayGauntletAdmit (die blk grp : Nat) (s : State) : Out :=
  match s.gateWait die blk grp, s.blk blk with
  | some w, some k =>
    match k.rr, s.waitingCur blk grp with
    | some d, some (c, _, word) =>
      let n := s.rrNow k.trec.part d
      if n.2.1 ≠ 0 ∧ n.2.2 = w.party then
        (match runAtomic word { s with cur := c } with
        | some o => o
        | none => .next s)
      else .next s
    | _, _ => .next s
  | _, _ => .next s

/-- An atomic has waited at the gauntlet longer than the gate limit, and the current chunk does not name its party (R220). -/
def State.gateLate (s : State) (w : GWait) : Bool :=
  match s.blk w.blk with
  | none => false
  | some k => match k.rr with
    | none => false
    | some d =>
      let n := s.rrNow k.trec.part d
      decide (d.gate ≠ 0) && decide (w.start + 1024 * d.gate < s.cycle) && !(decide (n.2.1 ≠ 0) && decide (n.2.2 = w.party))

/-- The first cycle in which an atomic has waited at the gauntlet longer than the gate limit. -/
def State.gateEnd (s : State) (w : GWait) : Option Nat :=
  match s.blk w.blk with
  | none => none
  | some k => k.rr.map (fun d => w.start + 1024 * d.gate + 1)

/-- REPLAY_GATE_TIMEOUT (R220): an atomic that waits longer than the gate limit diverges at its word. -/
def execReplayGateTimeout (die blk grp : Nat) (s : State) : Out :=
  match s.gateWait die blk grp, s.bg blk grp with
  | some w, some (_, x) =>
    match x.wait with
    | some y => if s.gateLate w then .next ((s.gateLeave die blk grp).raiseAt (.group blk grp) 0x12 y.lanes y.pc 0) else .next s
    | none => .next s
  | _, _ => .next s

end Sys2Proof.Machine
end

