-- ==== Sys2Proof/Config.lean ====
section
/-! DEFINITION. What the implementation fixes and the spec does not state: free values with no body, so that no proof can
see one (log entry 21). Each is applied to the plain counter `freeCtr` of the state or to its data. -/
namespace Sys2Proof.Config

/-- The private identity key that is derived from the fused secret (R302): the spec names no derivation. -/
opaque identityKey : List Nat → Nat

/-- The private alias key that is derived from the identity key and measurement 1 (R302). -/
opaque aliasKey : Nat → List Nat → Nat

/-- The secret number of an ECDSA signature (R10), applied to the private key, the digest and the free counter. -/
opaque sigSecret : Nat → List Nat → Nat → Nat

/-- The part of a certificate that is signed (R302, R303): 0 the alias certificate, 1 the identity certificate; applied to the public
key. -/
opaque certBody : Nat → List Nat → List Nat

/-- A certificate's bytes (R303), applied to its body and the signature under it. -/
opaque certificate : List Nat → List Nat → List Nat

/-- Random bytes of a response (R303), applied to the free counter. -/
opaque nonce : Nat → List Nat

/-- The flits that a partner's preamble grants anew on a virtual channel (R325, R327): the spec states no number. Applied to the
partner, the channel and the free counter. -/
opaque credit : Nat → Nat → Nat → Nat

/-- The relay flits that a partner's preamble grants anew (R327, R329), applied to the partner and the free counter. -/
opaque relayCredit : Nat → Nat → Nat

/-- The chunk count that a record gives for a packet whose number of chunks the spec does not state: a gather packet whose list cannot be
read, a mode that does not exist (R257), applied to the free counter. -/
opaque chunkCount : Nat → Nat

/-- Whether a burst sent in a slot fails on the way and is sent again (R325), applied to the free counter. -/
opaque burstLost : Nat → Bool

/-- Whether the other end of a circuit is at half width in a slot, as its preamble says (R331), applied to the partner and the free
counter. -/
opaque peerHalf : Nat → Nat → Bool

/-- The slot at which the switches' clock stands when the engine locks to it (R324), applied to the free counter. -/
opaque slotNow : Nat → Nat

/-- The bytes of a month summary's body that stand for readings of the part (R305), applied to the free counter. -/
opaque recordBody : Nat → List Nat

/-- The body of an event record (R305): the spec lists what it says and does not lay it out. Applied to that. -/
opaque eventBody : List Nat → List Nat

/-- The suppressed cycles, in units of 1,024, that a reading at a power or junction limit adds (R307), applied to the free counter. -/
opaque suppressed : Nat → Nat

/-- The bytes that a measurement covers where the spec does not lay them out (R302): of the mask ROM, the fuses, a partition's
configuration. Applied to the measurement's number and to what it covers. -/
opaque measured : Nat → List Nat → List Nat

/-- What the mask ROM leaves in a port that it has brought up (R300), as its rings and eyes turn out: applied to the port, the register's
offset and the free counter. -/
opaque romPort : Nat → Nat → Nat → Nat

/-- Whether the package of a slot answered the bring-up of a Nirrax group (R355): 0 the leaf and its 128 slots, 1 the spine and
its 32 pods. Applied to the group, the slot and the free counter. -/
opaque answered : Nat → Nat → Nat → Bool

end Sys2Proof.Config
end

