-- ==== Sys2Proof/Machine/TaskWords.lean ====
section
/-! DEFINITION. Task forms: `tkdec`, `tkadd`, `tkmake`, `tktake` (R237 to R240, R250, R251). -/
namespace Sys2Proof.Machine

/-- What the three release forms check of a record's address word: alignment, translation, protection (R249, R250, R267). -/
def State.recordAt (s : State) (b : Block) (w : Nat) (kinds : List Acc) : Home :=
  let va := w % 2 ^ 56
  if w % 128 ≠ 0 then .bad 5
  else match s.homeAt b va kinds with
    | .ok pa => if w / 2 ^ 56 ≠ 0 then .bad 7 else .ok pa
    | h => h

/-- The dependence counter of a record. -/
def State.depOf (s : State) (pa : Nat) : Nat := s.homeLe (pa + 0x2C) 4

/-- Change a record's counter by a signed number, with release at 0 (R250); none where it is refused. -/
def State.addDep (s : State) (pa va : Nat) (n : Int) : Option (Nat × State) :=
  let dep := s.depOf pa
  let new := (dep : Int) + n
  if s.taskState pa = 0 ∧ 0 ≤ new ∧ new ≤ 0x7FFFFFFF then
    let s1 := s.homeWrite (pa + 0x2C) (toLe 4 new.toNat)
    some (dep, if new = 0 then s1.release pa va else s1)
  else none

/-- `tkdec` at a record: refused where the counter is 0 (R250). -/
def State.decDep (s : State) (pa va : Nat) : Option (Nat × State) := if s.depOf pa = 0 then none else s.addDep pa va (-1)

/-- The common meaning of `tkdec` and `tkadd`: `f` acts on the record at its home. -/
def depWord (d a v : Nat) (n : Block → Group → Nat → Int × Bool) (extra : List (View × Nat))
    (f : State → Nat → Nat → Int → Option (Nat × State)) (s : State) : Out :=
  joinWord (fun k g act =>
    let vw := viewOf v
    let l0 := lowest act
    let aw := addrWords k g vw a l0
    let w := valOf aw
    if !k.slotsOk g (addrSlots vw a ++ (vw, d) :: extra) then .next (s.raise 0x07 0)
    else if !goodOf aw then .next (s.raiseFor 0x04 (maskOf [l0]) 0)
    else match s.recordAt k w [.wr, .rd] with
      | .bad c => .next (s.raise c w)
      | .walk page => .next (s.waitWalk k.core k.trec.part page)
      | .ok pa =>
        let m := n k g l0
        if !m.2 then .next (s.raiseFor 0x04 (maskOf [l0]) 0)
        else if s.poisonedIn pa 128 then .next (s.raise 0x08 w)
        else match s.pubFirst k g.wait true 3 with
          | .inl t => .next t
          | .inr s1 =>
            let s2 := s1.sectorHome k.core pa 128
            match f s2 pa w m.1 with
            | none => .next (s2.retire.giveAll k.id g.num vw d act (if v = 0 then 2 ^ 32 - 1 else 2 ^ 64 - 1))
            | some (old, t) => .next (t.retire.giveAll k.id g.num vw d act old)) s

/-- `tkdec` (R250). -/
def execTkdec (d a v : Nat) (s : State) : Out := depWord d a v (fun _ _ _ => (0, true)) [] (fun t pa va _ => t.decDep pa va) s

/-- `tkadd` (R250): the addend is the signed low word of b. -/
def execTkadd (d a b v : Nat) (s : State) : Out :=
  depWord d a v (fun k g l => let w := k.src g (viewOf v) b l
                              (sgn 32 (valOf w % 2 ^ 32), rok (w.headD RWord.zero))) [(viewOf v, b)]
    (fun t pa va n => t.addDep pa va n) s

/-- `tkmake` at its record (R250): the template is copied with state 0 and released when its counter is 0. -/
def State.makeTask (s : State) (pa va pb : Nat) : Option State :=
  let st := s.taskState pa
  if st = 1 ∨ st = 2 then none
  else
    let bs := patch (s.homeBytes pb 128) 0x3F [0]
    let s1 := s.homeWrite pa bs
    some (if leAt bs 0x2C 4 = 0 then s1.release pa va else s1)

/-- `tkmake` (R250). -/
def execTkmake (d a b v : Nat) (s : State) : Out :=
  joinWord (fun k g act =>
    let vw := viewOf v
    let l0 := lowest act
    let aw := addrWords k g vw a l0
    let bw := addrWords k g vw b l0
    if !k.slotsOk g (addrSlots vw a ++ addrSlots vw b ++ [(vw, d)]) then .next (s.raise 0x07 0)
    else if !goodOf aw || !goodOf bw then .next (s.raiseFor 0x04 (maskOf [l0]) 0)
    else match s.recordAt k (valOf aw) [.wr, .rd], s.recordAt k (valOf bw) [.rd] with
      | .bad c, _ => .next (s.raise c (valOf aw))
      | _, .bad c => .next (s.raise c (valOf bw))
      | .walk page, _ => .next (s.waitWalk k.core k.trec.part page)
      | _, .walk page => .next (s.waitWalk k.core k.trec.part page)
      | .ok pa, .ok pb =>
        if s.inMirror k.trec.part pa then .next (s.raise 0x07 (valOf aw))
        else if s.inMirror k.trec.part pb then .next (s.raise 0x07 (valOf bw))
        else if s.poisonedIn pa 128 then .next (s.raise 0x08 (valOf aw))
        else if s.poisonedIn pb 128 then .next (s.raise 0x08 (valOf bw))
        else match s.pubFirst k g.wait true 3 with
          | .inl t => .next t
          | .inr s1 =>
            let s2 := s1.sectorHome k.core pa 128
            match s2.makeTask pa (valOf aw) pb with
            | none => .next (s2.retire.giveAll k.id g.num vw d act 1)
            | some t => .next (t.retire.giveAll k.id g.num vw d act 0)) s

/-- Count a steal of a die (R266). -/
def State.countSteal (s : State) (die : Nat) : State := s.setDie die { s.die die with steal := (s.die die).steal + 1 }

/-- The next index of a block's own grid for its die (R240, R251). -/
def State.takeIndex (s : State) (b : Block) : Option (Nat × State) :=
  match s.grid b.task with
  | none => none
  | some g => match g.takeFor (dieOf b.core) true with
    | none => none
    | some (i, g', stolen) =>
      let s1 := s.updGrid b.task (fun _ => g')
      some (i, if stolen then s1.countSteal (dieOf b.core) else s1)

/-- `tktake` (R251). -/
def execTktake (d v : Nat) (s : State) : Out :=
  joinWord (fun k g act =>
    let vw := viewOf v
    if !k.slotsOk g [(vw, d)] then .next (s.raise 0x07 0)
    else match s.takeIndex k with
      | none => .next (s.retire.giveAll k.id g.num vw d act (if v = 0 then 2 ^ 32 - 1 else 2 ^ 64 - 1))
      | some (i, t) => .next (t.retire.giveAll k.id g.num vw d act i)) s

end Sys2Proof.Machine
end

