-- ==== Sys2Proof/Machine/CopyWords.lean ====
section
/-! DEFINITION. Class C: `cpost`, `cfence`, `cwait`, `ctest`, `crec`, `cabort`, `ccoll`, `cgen`, for groups and for the copy
stream (R259 to R264, R341 to R343, R350, R351). -/
namespace Sys2Proof.Machine

/-- What a class C word acts for: its block, the group whose registers it reads, its active lanes, the lane that gives its
once-per-group operands, whether the copy stream runs it. -/
structure Cx where
  b : Block
  g : Group
  act : List Nat
  l0 : Nat
  str : Bool
  deriving DecidableEq, Repr

/-- The frame of a class C word; `ok` says whether the copy stream allows the form (R264). -/
def copyWord (ok : Bool) (f : Cx → Out) (s : State) : Out :=
  match s.cur.ag with
  | .group _ _ => joinWord (fun k g act => f ⟨k, g, act, lowest act, false⟩) s
  | .copy b => match s.blk b with
    | none => .fault .noAgent
    | some k =>
      if ok then f ⟨k, match k.grp k.cs.og with | some g => g | none => Group.new k.cs.og 0 0, [], 0, true⟩
      else .next (s.raise 0x01 0)
  | _ => .fault .noAgent

/-- The wait of the agent that runs a class C word. -/
def Cx.wait (x : Cx) : Option Wait := if x.str then x.b.cs.wait else x.g.wait

/-- The claim that it holds (R260). -/
def Cx.claim (x : Cx) : Option Claim := if x.str then x.b.cs.claim else x.g.claim

/-- Set or clear the claim. -/
def State.setClaim (s : State) (x : Cx) (c : Option Claim) : State :=
  if x.str then s.updBlk x.b.id (fun k => { k with cs := { k.cs with claim := c } })
  else s.updGrp x.b.id x.g.num (fun g => { g with claim := c })

/-- A low word of an operand lane. -/
def Cx.low (x : Cx) (vw : View) (n l : Nat) : RWord := (x.b.src x.g vw n l).headD RWord.zero

/-- The 64 bytes that lanes 0 to 15 or 0 to 7 of a slot hold, whatever their state (R259). -/
def Cx.bytes64 (x : Cx) (vw : View) (n : Nat) : List Byte :=
  ((upFrom 0 (16 / vw.parts)).map (fun l => bytesOf ((x.b.src x.g vw n l).map (fun w => w.val)))).flatten

/-- The lanes of that slot whose words fail their residue. -/
def Cx.bad64 (x : Cx) (vw : View) (n : Nat) : List Nat :=
  (upFrom 0 (16 / vw.parts)).filter (fun l => !goodOf (x.b.src x.g vw n l))

/-- A sync offset lies in an area of a partition and is 64-byte aligned (R259, R262). -/
def State.syncOk (s : State) (part off : Nat) : Bool :=
  decide (off < 0x800000) && decide (off % 64 = 0) && decide (syncSlice (syncBase + off) ∈ (s.part part).cfg.slices)

/-- The queue that a sync offset names (R252, R259). -/
def State.namedQueue (s : State) (part off : Nat) : Option CQueue := if s.syncOk part off then s.queueAt part off else none

/-- The operand checks of a word that names a queue by lane l0 of a (R259, R267). -/
def queueWord (ok : Bool) (vw : View) (a : Nat) (slots : List (View × Nat)) (f : Cx → CQueue → Out) (s : State) : Out :=
  copyWord ok (fun x =>
    let w := x.low vw a x.l0
    if !x.b.slotsOk x.g ((vw, a) :: slots) then .next (s.raise 0x07 0)
    else if !rok w then .next (s.raiseFor 0x04 (maskOf [x.l0]) 0)
    else match s.namedQueue x.b.trec.part w.val.toNat with
      | none => .next (s.raise 0x07 (syncBase + w.val.toNat))
      | some q => f x q) s

/-- Write a claimed slot and go on, or wait with the claim held (R259, R260). -/
def State.placeClaim (s : State) (x : Cx) (q : CQueue) (c : Claim) : State :=
  if s.qFree q.off c.idx then ((s.qWrite q c.idx c.pkt).setClaim x none).retire
  else (s.setClaim x (some c)).wait .copyRoom

/-- A word that holds a claim goes on with it (R260). -/
def State.resumeClaim (s : State) (x : Cx) (c : Claim) : State :=
  match s.queueAt x.b.trec.part c.qoff with
  | none => (s.setClaim x none).retire
  | some q => s.placeClaim x q c

/-- Claim an index and write or wait (R259). -/
def State.claimAndPlace (s : State) (x : Cx) (q : CQueue) (pkt : List Byte) : State :=
  let r := s.qClaim q.off
  r.2.placeClaim x q ⟨q.off, r.1, pkt⟩

/-- The packet of a `cpost` with its owner word (R254). -/
def Cx.packet (x : Cx) (vw : View) (b : Nat) : List Byte := patch (x.bytes64 vw b) 4 (toLe 4 (ownerWord x.b x.g.num x.str))

/-- The checks and the release that both forms of `cpost` share, then what they do (R259). -/
def postWord (ok : Bool) (a b v : Nat) (f : State → Cx → CQueue → List Byte → Out) (s : State) : Out :=
  queueWord ok (viewOf v) a [(viewOf v, b)] (fun x q =>
    match x.claim with
    | some c => .next (s.resumeClaim x c)
    | none => match x.bad64 (viewOf v) b with
      | l :: ls => .next (s.raiseFor 0x04 (maskOf (l :: ls)) 0)
      | [] => match s.pubFirst x.b x.wait true 3 with
        | .inl t => .next t
        | .inr t => f t x q (x.packet (viewOf v) b)) s

/-- `cpost` (R259). -/
def execCpost (a b v : Nat) (s : State) : Out := postWord true a b v (fun t x q p => .next (t.claimAndPlace x q p)) s

/-- `cpost.try` (R259): claims and writes its slot in one action, or reports a full queue. -/
def execCpostTry (n a b v : Nat) (s : State) : Out :=
  postWord false a b v (fun t x q p =>
    let i := t.qWidx q.off
    let ok := t.qFree q.off i
    let t1 := t.predAll x.b.id x.g.num n x.act ok
    if ok then .next ((t1.qClaim q.off).2.qWrite q i p).retire else .next t1.retire) s

/-- The queues that the list of a `cfence` names, up to its end; else the fault and its info (R261). -/
def State.fenceList (s : State) (x : Cx) (vw : View) (b : Nat) : List Nat → List CQueue ⊕ (Nat × Nat × Nat)
  | [] => .inl []
  | l :: rest =>
    let w := x.low vw b l
    if !rok w then .inr (0x04, maskOf [l], 0)
    else if w.val.toNat = 0xFFFFFFFF then .inl []
    else match s.namedQueue x.b.trec.part w.val.toNat with
      | none => .inr (0x07, maskOf x.act, syncBase + w.val.toNat)
      | some q => match s.fenceList x vw b rest with
        | .inl qs => .inl (q :: qs)
        | .inr e => .inr e

/-- The entry of a fence packet for a queue (R254, R261). -/
def State.fenceEntry (s : State) (q : CQueue) : List Byte :=
  toLe 8 (s.qWidx q.off * 2 ^ 32 + s.qField q.off 0x12 2 % 1024 * 2 ^ 16)

/-- `cfence` (R261). -/
def execCfence (a b v : Nat) (s : State) : Out :=
  queueWord true (viewOf v) a [(viewOf v, b)] (fun x q =>
    match x.claim with
    | some c => .next (s.resumeClaim x c)
    | none => match s.fenceList x (viewOf v) b (upFrom 0 7) with
      | .inr e => .next (s.raiseFor e.1 e.2.1 e.2.2)
      | .inl qs =>
        let p := toLe 4 (15 * 2 ^ 27 + 255 * 2 ^ 16) ++ toLe 4 (ownerWord x.b x.g.num x.str) ++ (qs.map s.fenceEntry).flatten
        .next (s.claimAndPlace x q (padTo 64 p))) s

/-- Every masked bit of a bitmap is set (R262). -/
def State.bitsSet (s : State) (off : Nat) (mask : List Byte) : Bool :=
  let m := leAt mask 0 64
  decide (s.homeLe (syncBase + off) 64 &&& m = m)

/-- The checks of a word that tests a completion bitmap (R262). -/
def bitmapWord (ok : Bool) (a b v : Nat) (f : Cx → Bool → Out) (s : State) : Out :=
  copyWord ok (fun x =>
    let vw := viewOf v
    let w := x.low vw a x.l0
    if !x.b.slotsOk x.g [(vw, a), (vw, b)] then .next (s.raise 0x07 0)
    else if !rok w then .next (s.raiseFor 0x04 (maskOf [x.l0]) 0)
    else if !s.syncOk x.b.trec.part w.val.toNat then .next (s.raise 0x07 (syncBase + w.val.toNat))
    else match x.bad64 vw b with
      | l :: ls => .next (s.raiseFor 0x04 (maskOf (l :: ls)) 0)
      | [] => f x (s.bitsSet w.val.toNat (x.bytes64 vw b))) s

/-- `cwait` (R262, R144). -/
def execCwait (a b v : Nat) (s : State) : Out :=
  bitmapWord true a b v (fun x ok => if ok then .next (s.refresh x.b.core).retire else .next (s.wait .bitmap)) s

/-- `ctest` (R262). -/
def execCtest (d a b v : Nat) (s : State) : Out :=
  bitmapWord false a b v (fun x ok =>
    let t := if ok then s.refresh x.b.core else s
    .next (t.retire.predAll x.b.id x.g.num d x.act ok)) s

/-- `crec` (R263): lane j of the active ones takes its part of the record, which stands in an area of the partition (R7). -/
def execCrec (d a b v : Nat) (s : State) : Out :=
  let vw := viewOf v
  queueWord false vw a [(vw, d), (vw, b)] (fun x q =>
    let w := x.b.src x.g vw b x.l0
    if !goodOf w then .next (s.raiseFor 0x04 (maskOf [x.l0]) 0)
    else if regionOf (s.qField q.off 0x18 8) ≠ .sync ∨ !s.syncOk x.b.trec.part (s.qField q.off 0x18 8 - syncBase) then .next (s.raise 0x07 (s.qField q.off 0x18 8))
    else
      let i := valOf w % s.qSize q.off
      let at_ := s.qField q.off 0x18 8 + 64 * i
      if !s.syncOwn x.b.trec.part at_ then .next (s.raise 0x07 at_)
      else
      let bs := s.homeBytes at_ 64
      let n := 4 * vw.parts
      let ls := x.act.filter (fun l => decide (l < 64 / n))
      .next (s.retire.updBlk x.b.id (fun k => k.writeLanes x.g.num vw d (ls.map (fun l => (l, wordsFor (leAt bs (n * l) n) (clean vw))))))) s

/-- Abandon the packets of a block in the listed queues; how many (R263). -/
def State.abortIn (s : State) (b : Block) : List CQueue → State × Nat
  | [] => (s, 0)
  | q :: rest =>
    let r := s.abandonIn b q
    let t := r.1.abortIn b rest
    (t.1, r.2.length + t.2)

/-- `cabort` (R263). -/
def execCabort (d a v : Nat) (s : State) : Out :=
  copyWord (decide (d = 0)) (fun x =>
    let vw := viewOf v
    let w := x.low vw a x.l0
    if !x.b.slotsOk x.g [(vw, a), (vw, d)] then .next (s.raise 0x07 0)
    else if !rok w then .next (s.raiseFor 0x04 (maskOf [x.l0]) 0)
    else
      let go := fun (qs : List CQueue) =>
        let r := s.abortIn x.b qs
        let t := r.1.retire
        Host.Outcome.next (if x.str then t else t.giveAll x.b.id x.g.num vw d x.act r.2)
      if w.val.toNat = 0xFFFFFFFF then go (s.queues.filter (fun q => decide (q.part = x.b.trec.part)))
      else match s.namedQueue x.b.trec.part w.val.toNat with
        | none => .next (s.raise 0x07 (syncBase + w.val.toNat))
        | some q => go [q]) s

/-- A collective as it is posted (R350). -/
def Coll.new (pkt : List Byte) : Coll :=
  { pkt := pkt, begun := false, gen := 0, seq := 0, live := [], rank := 0, restarts := 0, rejects := 0, t0 := 0, acc := [],
    have_ := [], held := [], got := [], norm := [], normOut := .none, status := .none, sentShard := false, sent := 0 }

/-- `ccoll` (R350). -/
def execCcoll (a v : Nat) (s : State) : Out :=
  copyWord true (fun x =>
    let vw := viewOf v
    if !x.b.slotsOk x.g [(vw, a)] then .next (s.raise 0x07 0)
    else match x.bad64 vw a with
      | l :: ls => .next (s.raiseFor 0x04 (maskOf (l :: ls)) 0)
      | [] =>
        let p := x.bytes64 vw a
        let c := leAt p 8 1
        if 63 < c ∨ (s.chan c).part.toNat ≠ x.b.trec.part then .next (s.raise 0x01 0)
        else match s.pubFirst x.b x.wait true 3 with
          | .inl t => .next t
          | .inr t =>
            let k := t.chan c
            if 16 ≤ k.posts.length then .next (t.wait .channel)
            else .next (t.setChan c { k with posts := k.posts ++ [Coll.new p] }).retire) s

/-- The rank table of a group of a partition (R342). -/
def State.ranksOf (s : State) (part gid : Nat) : Option (List Nat) :=
  match firstOf (fun x => decide (x.1 = gid)) (s.part part).ranks with
  | some x => some x.2
  | none => none

/-- The live ranks of a table, ascending. -/
def liveRanks (t : List Nat) : List Nat := (upFrom 0 t.length).filter (fun r => decide (nth 0xFFFF t r ≠ 0xFFFF))

/-- The rank of a package in a table: 0xFFFF when it has none. -/
def rankIn (t : List Nat) (pkg : Nat) : Nat :=
  match firstOf (fun r => decide (nth 0xFFFF t r = pkg)) (liveRanks t) with
  | some r => r
  | none => 0xFFFF

/-- This package's id (R322). -/
def State.pkgId (s : State) : Nat := s.fab.id.toNat % 4096

/-- The value of `cgen` (R351). -/
def State.genWord (s : State) (part gid : Nat) : Nat :=
  let gen := (s.part part).gen.toNat
  match s.ranksOf part gid with
  | none => gen + 2 ^ 16 * 0xFFFF
  | some t => gen + 2 ^ 16 * rankIn t s.pkgId + 2 ^ 32 * (liveRanks t).length

/-- `cgen` (R351). -/
def execCgen (d a v : Nat) (s : State) : Out :=
  copyWord false (fun x =>
    let vw := viewOf v
    let w := x.low vw a x.l0
    if !x.b.slotsOk x.g [(vw, a), (vw, d)] then .next (s.raise 0x07 0)
    else if !rok w then .next (s.raiseFor 0x04 (maskOf [x.l0]) 0)
    else .next (s.retire.giveAll x.b.id x.g.num vw d x.act (s.genWord x.b.trec.part (w.val.toNat % 65536)))) s

end Sys2Proof.Machine
end

