-- ==== Sys2Proof/Machine/Life.lean ====
section
/-! DEFINITION. Lifetime records in the serial flash, the powered hours, rails and temperatures (R304, R305, R307, R316). -/
namespace Sys2Proof.Machine

/-- Powered hours now: the count at reset and the hours of the core clock since (R304, R306). -/
def State.hoursNow (s : State) : Nat := s.xd.hours + s.cycle / 14400000000000

/-- One bit of a CRC-32. -/
def crcStep (c : Nat) : Nat := if c % 2 = 1 then (c / 2) ^^^ 0xEDB88320 else c / 2

/-- A CRC-32 with one more byte (log entry 44). -/
def crcByte (c b : Nat) : Nat := (List.range 8).foldl (fun x _ => crcStep x) (c ^^^ b)

/-- The CRC-32 of bytes. -/
def crc32 (bs : List Byte) : Nat := (bs.foldl (fun c b => crcByte c b.toNat) 0xFFFFFFFF) ^^^ 0xFFFFFFFF

/-- Records that the flash holds: 64 MiB of 64 bytes (R304). -/
def flashRecords : Nat := 1048576

/-- A record of a kind with a body (R304). -/
def lifeRecord (seq kind hours : Nat) (body : List Byte) : List Byte :=
  let r := toLe 3 seq ++ toLe 1 kind ++ toLe 4 hours ++ padTo 48 (body.take 48) ++ toLe 4 0
  r ++ toLe 4 (crc32 r)

/-- Append a record; a full flash takes none and raises interrupt bit 6 (R304). -/
def State.append (s : State) (kind : Nat) (body : List Byte) : State :=
  let n := s.xd.flash.length
  if flashRecords ≤ n then { s with xd := { s.xd with lifeFull := true } }.interrupt 6
  else
    let s1 := { s with xd := { s.xd with flash := s.xd.flash ++ [lifeRecord n kind s.hoursNow body], lifeFull := decide (flashRecords ≤ n + 1) } }
    if flashRecords ≤ n + 1 then s1.interrupt 6 else s1

/-- What an event record tells (R304, R305): a repair with its stack and classifier entry, a retired core, a lane map that hardware or
firmware has changed for a lost wavelength, a boot with its image's security version. -/
inductive LifeEvent where
  | repair (stack cls ch bank row col : Nat)
  | retire (core : Nat)
  | spare (port map : Nat)
  | boot (version : Nat)
  deriving DecidableEq, Repr

/-- The contents of an event as numbers. -/
def LifeEvent.data (e : LifeEvent) : List Nat :=
  match e with
  | .repair a b c d r q => [0, a, b, c, d, r, q]
  | .retire c => [1, c]
  | .spare p m => [2, p, m]
  | .boot v => [3, v]

/-- An event record (R304, R305). The spec does not lay its body out: a free function of what it tells. -/
def State.appendEvent (s : State) (e : LifeEvent) : State := s.append 8 (byteList (Config.eventBody e.data))

/-- Retirement records: those that the flash takes are read at boot (R304). -/
def State.recordRetired (s : State) (c : Nat) : State :=
  let s1 := s.appendEvent (.retire c)
  if s.xd.flash.length < flashRecords then { s1 with xd := { s1.xd with retRec := insNat c s1.xd.retRec } } else s1

/-- The 5 °C bin of a temperature, from 20 °C to 115 °C (R305). -/
def tempBin (t : Nat) : Nat := min 18 ((t - 20) / 5)

/-- The hours since the last count are added to the bin of die 0's temperature (R305; log entry 45). -/
def State.countHours (s : State) : State :=
  let x := s.xd
  let bin := tempBin (x.temp.toNat % 256)
  { s with xd := { x with tempHist := tset 0 x.tempHist bin (tget 0 x.tempHist bin + (s.hoursNow - x.tempAt)), tempAt := s.hoursNow } }

/-- The sum of a counter over the cores. -/
def State.sumCores (s : State) (f : Core → Nat) : Nat := (s.cores.map (fun c => f c.2)).sum

/-- The counts of one 24-bit field for each of 16 cores since the month before (R305; log entry 45). -/
def perCores (now last : Nat → Nat) (n : Nat) : List Byte := ((upFrom (16 * n) 16).map (fun c => toLe 3 (now c - last c))).flatten

/-- The body of a kind 1 record (R305). -/
def State.errorCounts (s : State) : List Byte :=
  let x := s.xd.corrected
  let c := fun i => tget 0 x i
  toLe 4 (s.sumCores (fun k => k.residues) - c 10) ++ toLe 4 (c 1) ++ toLe 4 (c 2) ++ toLe 4 (c 3)
    ++ toLe 4 (s.sumCores (fun k => k.fixCnt) - c 14) ++ toLe 4 (c 5)

/-- What stands for the heat of a wavelength that has not locked since commissioning: no DAC value. -/
def noHeat : Nat := 0x1000

/-- The heats of a port's wavelengths that lock for the first time are those of its commissioning (R305; log entry 45). -/
def State.noteHeats (s : State) (p : Nat) (k : Port) : State :=
  { s with xd := { s.xd with heat0 := (upFrom 0 9).foldl (fun t l =>
      if bitOf k.stat.toNat l && decide (tget noHeat t (16 * p + l) = noHeat) then tset noHeat t (16 * p + l) (tget heatReset k.heat l).toNat else t) s.xd.heat0 } }

/-- The change of the locked heats of a port since commissioning; 0 for a wavelength that has never locked (R305). -/
def State.drift (s : State) (p : Nat) : List Byte :=
  ((upFrom 0 9).map (fun l =>
    let h := (tget heatReset (s.port p).heat l).toNat
    let h0 := tget noHeat s.xd.heat0 (16 * p + l)
    toLe 2 (if h0 = noHeat then 0 else (65536 + h - h0) % 65536))).flatten

/-- Half units of 2.5 mV as mV. -/
def railMv (u : Nat) : Nat := 5 * u / 2

/-- The rail of a die in 2.5 mV units (R316). -/
def Xdie.railOf (x : Xdie) (d : Nat) : Nat := fld x.rail.toNat (8 * d + 7) (8 * d)

/-- The body of a kind 4 record: the voltages; the alarms are a free value (R305). -/
def State.railBody (s : State) : List Byte :=
  ((upFrom 0 4).map (fun d =>
    let r := s.xd.railOf d
    toLe 2 (railMv (min r (tget 255 s.xd.railLo d))) ++ toLe 2 (railMv (max r (tget 0 s.xd.railHi d))))).flatten
    ++ (byteList (Config.recordBody s.freeCtr)).take 32

/-- The counts of a month start again. -/
def State.newMonth (s : State) : State :=
  let marks := tset 0 (tset 0 ([] : Sparse Nat) 10 (s.sumCores (fun k => k.residues))) 14 (s.sumCores (fun k => k.fixCnt))
  let by_ := fun (f : Core → Nat) => (s.cores.foldl (fun t c => tset 0 t c.1 (f c.2)) ([] : Sparse Nat))
  { s with xd := { s.xd with
      corrected := marks, redo := by_ (fun k => k.redoCnt), resid := by_ (fun k => k.residues), railLo := [], railHi := [],
      tempHist := [] }, freeCtr := s.freeCtr + 1 }

/-- The month's summary records (R304, R305): the wavelength BERs are a free value. -/
def State.monthRecords (s : State) : State :=
  let s1 := s.append 1 s.errorCounts
  let s2 := (upFrom 0 34).foldl (fun t _ => { (t.append 2 (byteList (Config.recordBody (t.freeCtr)))) with freeCtr := t.freeCtr + 1 }) s1
  let s3 := (upFrom 0 34).foldl (fun t p => t.append 3 (t.drift p)) s2
  let s4 := s3.append 4 s3.railBody
  let s5 := s4.append 5 (((upFrom 0 19).map (fun i => toLe 2 (tget 0 s.xd.tempHist i))).flatten)
  let s6 := (upFrom 0 16).foldl (fun t n => t.append 6 (perCores (fun c => (s.core c).redoCnt) (fun c => tget 0 s.xd.redo c) n)) s5
  (upFrom 0 16).foldl (fun t n => t.append 7 (perCores (fun c => (s.core c).residues) (fun c => tget 0 s.xd.resid c) n)) s6

/-- LIFETIME_MONTH_END (R304): the powered hours reach the next multiple of 720, and firmware appends the summaries (log entry 45). -/
def execLifetimeMonthEnd (s : State) : Out :=
  let s1 := { s with xd := { s.xd with hours := s.xd.hours + (720 - s.hoursNow % 720) } }
  .next s1.countHours.monthRecords.newMonth

/-- A write of `xs.rail`: a byte outside 360 to 480 mV is ignored (R316). -/
def State.writeRail (s : State) (val : Nat) : State :=
  let ok := fun (u : Nat) => decide (144 ≤ u) && decide (u ≤ 192)
  let x := s.xd
  let r := (upFrom 0 4).map (fun d => let u := fld val (8 * d + 7) (8 * d)
                                      if ok u then u else x.railOf d)
  let note := fun (f : Nat → Nat → Nat) (d0 : Nat) (t : Sparse Nat) => (upFrom 0 4).foldl (fun a d => tset d0 a d (f (tget d0 a d) (x.railOf d))) t
  { s with xd := { x with rail := BitVec.ofNat 32 (leAt (r.map (BitVec.ofNat 8)) 0 4), railLo := note min 255 x.railLo, railHi := note max 0 x.railHi } }

/-- Interrupt bit 5 and the count of suppressed cycles as a limit is reached (R307). `power` and `temp` are the readings;
suppression changes no result. -/
def execThrottle (die power temp : Nat) (s : State) : Out :=
  if 4 ≤ die then .next s
  else
    let x := s.countHours.xd
    let t := (upFrom 0 4).map (fun d => if d = die then BitVec.ofNat 8 temp else BitVec.ofNat 8 (fld x.temp.toNat (8 * d + 7) (8 * d)))
    let s1 := { s with xd := { x with temp := BitVec.ofNat 32 (leAt t 0 4), power := BitVec.ofNat 32 (power % 65536) } }
    let k := s1.die die
    let hot := decide (2600 ≤ power) || decide (95 ≤ temp)
    let s2 := s1.setDie die { k with throttle := if hot then min 15 (k.throttle + 1) else k.throttle - 1 }
    if hot || decide (k.throttle ≠ 0) then
      let s3 := { s2 with xd := { s2.xd with throttleCnt := BitVec.ofNat 32 (satAdd 32 s2.xd.throttleCnt.toNat (Config.suppressed s2.freeCtr)) }, freeCtr := s2.freeCtr + 1 }
      .next (if k.throttle = 0 then s3.interrupt 5 else s3)
    else .next s2

end Sys2Proof.Machine
end

