-- ==== Sys2Proof/Machine/Place.lean ====
section
/-! DEFINITION. Placing blocks on cores, choosing pre-emption victims, saving a block and resuming it (R60, R115, R120, R121,
R146, R150, R213 to R217, R230, R235 to R244). -/
namespace Sys2Proof.Machine

/-- A core is retired, or its die has stopped (R244, R266, R307). -/
def State.coreRetired (s : State) (c : Nat) : Bool :=
  let k := s.die (dieOf c)
  k.dead || bitOf (k.retLo.toNat + 2 ^ 32 * k.retHi.toNat) (c % 64)

/-- What a block of a task needs of a core: register space in KiB, mitten groups, row buffers, scratchpad, groups. -/
structure Need where
  regs : Nat
  mg : Nat
  rb : Nat
  sp : Nat
  grps : Nat
  deriving DecidableEq, Repr

/-- The needs of a block of a task (R115, R142, R162). -/
def needOf (t : TaskRec) : Need := ⟨4 * t.bwin + t.groups * t.gwin, t.mg, t.rb, spallocOf t, t.groups⟩

/-- Add the needs of blocks. -/
def needSum (bs : List Block) : Need :=
  bs.foldl (fun n b => let m := needOf b.trec
                       ⟨n.regs + m.regs, n.mg + m.mg, n.rb + m.rb, n.sp + m.sp, n.grps + m.grps⟩) ⟨0, 0, 0, 0, 0⟩

/-- The blocks of a core. -/
def State.onCore (s : State) (c : Nat) : List Block := s.blocks.filter (fun b => decide (b.core = c))

/-- The register space of a core that is usable, in KiB (R114). -/
def State.usable (s : State) (c : Nat) : Nat := 4 * (128 - (s.core c).retired)

/-- Register space of a core that no block holds. -/
def State.freeRegs (s : State) (c : Nat) : Nat := s.usable c - (needSum (s.onCore c)).regs

/-- A block fits a core beside the given blocks: register space, mitten groups, row buffers, scratchpad, places in the
quadrants (R115, R121, R142, R162). -/
def State.fitsBeside (s : State) (c : Nat) (t : TaskRec) (bs : List Block) : Bool :=
  let n := needSum bs
  let m := needOf t
  !s.coreRetired c && decide (n.regs + m.regs ≤ s.usable c) && decide (n.mg + m.mg ≤ 16) && decide (n.rb + m.rb ≤ 4)
    && decide (n.sp + m.sp ≤ 0x100000) && decide (n.grps + m.grps ≤ 64)

/-- A block fits a core (R217, R241). -/
def State.fits (s : State) (c : Nat) (t : TaskRec) : Bool := s.fitsBeside c t (s.onCore c)

/-- The cores of a partition on a die, ascending. -/
def State.partCores (s : State) (p d : Nat) : List Nat :=
  ((((upFrom (8 * d) 8).filter (fun sl => decide (sl ∈ (s.part p).cfg.slices))).map (fun sl => upFrom (8 * sl) 8))).flatten

/-- A declared operand has a byte in the vault of a core (R234, R241). -/
def State.operandIn (s : State) (p c o : Nat) : Bool :=
  let lo := o % 2 ^ 56
  let hi := lo + 2 ^ fld o 61 56
  let v := vaultBase + c * 0x4000000
  decide (o / 2 ^ 62 ≠ 0) && (s.part p).cfg.maps.any (fun m =>
    let a := max lo m.va
    let b := min hi (m.va + pageBytes m.sz)
    mapValid m && decide (a < b) && decide (m.pa + (a - m.va) < v + 0x4000000) && decide (v < m.pa + (b - m.va)))

/-- The core that the distributor prefers among fitting ones (R241). -/
def State.bestCore (s : State) (t : TaskRec) (cs : List Nat) : Option Nat :=
  let score := fun (c : Nat) => ((if t.opnd.any (s.operandIn t.part c) then 1 else 0 : Nat), s.freeRegs c)
  cs.foldl (fun best c => match best with
    | none => some c
    | some b => if (score b).1 < (score c).1 ∨ ((score b).1 = (score c).1 ∧ (score b).2 < (score c).2) then some c else some b) none

/-- How many groups a quadrant of a core holds; `more` are groups being placed. -/
def quadCount (bs : List Block) (more : List Group) (q : Nat) : Nat :=
  (((bs.map (fun b => b.groups)).flatten ++ more).filter (fun g => decide (g.quad = q))).length

/-- The lowest free slot of a quadrant. -/
def quadSlot (bs : List Block) (more : List Group) (q : Nat) : Nat :=
  let used := (((bs.map (fun b => b.groups)).flatten ++ more).filter (fun g => decide (g.quad = q))).map (fun g => g.slot)
  match leastOf ((upFrom 0 17).filter (fun n => decide (n ∉ used))) with | some n => n | none => 0

/-- Give groups their quadrants and slots in turn (R121). -/
def assignQuads (bs : List Block) : List Group → List Group → List Group
  | [], done => done
  | g :: rest, done =>
    let q := (upFrom 1 3).foldl (fun best k => if quadCount bs done k < quadCount bs done best then k else best) 0
    assignQuads bs rest (done ++ [{ g with quad := q, slot := quadSlot bs done q }])

/-- A group as a task starts it (R60, R125, R235). -/
def startGroup (t : TaskRec) (index n : Nat) : Group :=
  let base := t.spill + 64 * t.sstride * (index * t.groups + n)
  let g := Group.new n 0 0
  let lane : Lane := { (Lane.none.enter t.code) with st := .live }
  { (g.mapLanes (upFrom 0 t.lanes) (fun _ _ => lane)) with
    vv := BitVec.ofNat 64 (128 * t.vv), vw := BitVec.ofNat 64 (128 * t.vw), vt := BitVec.ofNat 64 (128 * t.vt),
    va := BitVec.ofNat 64 (128 * t.va), frame := t.frame, spillbase := BitVec.ofNat 64 base,
    spilllim := BitVec.ofNat 64 (base + 64 * t.sstride), nlanes := t.lanes }

/-- An idle stream. -/
def Stream.idle : Stream := ⟨false, 0, 0, 0, false, 0, false, 0, .none, .none, 0, []⟩

/-- The lowest resident number free on a core (R254). -/
def State.freeRes (s : State) (c : Nat) : Nat :=
  let used := (s.onCore c).map (fun b => b.resNo)
  match leastOf ((upFrom 0 65).filter (fun n => decide (n ∉ used))) with | some n => n | none => 0

/-- A new block of a task on a core (R115, R142, R152, R232, R235, R424). -/
def State.newBlock (s : State) (g : Grid) (c index : Nat) : Block :=
  let t := g.trec
  let cfg := (s.part t.part).cfg
  { id := s.blkNext, core := c, task := g.task, index := index, resNo := s.freeRes c, seq := (s.core c).seqNext,
    order := s.orderNext, trec := t,
    groups := assignQuads (s.onCore c) ((upFrom 0 t.groups).map (startGroup t index)) [],
    bwin := [], scr := [], scrBad := [], absent := [], bars := [], barNow := [], ms := .idle, cs := .idle, forked := false, ix := [], area := 0, afmt := 0x80,
    ogrp := 0, mz := [], rbs := [], mgs := [], tvec := BitVec.ofNat 64 cfg.tvec, tframe := BitVec.ofNat 64 cfg.tframe,
    mbox := BitVec.ofNat 64 cfg.mbox, tcause := 0, tinfo := 0, dumpbase := 0, bk0 := 0, bk1 := 0, bk2 := 0, bk3 := 0,
    prstimeout := 0x3D09, joinwin := 0xFA0, stampbase := 0, stampseq := 0, stampdrop := 0, mtest := 0, mode := .run, pend := [],
    stopReq := false, repost := [], cl := none, heads := [t.code], rr := g.rr, stash := none, frameAt := 0, saving := .no }

/-- Count a placement on a core (R254) and in the age of blocks (R122). -/
def State.countPlace (s : State) (c : Nat) : State :=
  let k := s.core c
  { (s.setCore c { k with seqNext := k.seqNext + 1 }) with blkNext := s.blkNext + 1, orderNext := s.orderNext + 1 }

/-- The first block of a task makes it running; a grid entry beyond 64 on a die spills (R237, R241, R246). -/
def State.startTask (s : State) (g : Grid) : State :=
  if s.taskState g.task = 1 then
    let s1 := s.setTask g.task 2
    g.dies.foldl (fun t d =>
      let n := (t.grids.filter (fun x => decide (d ∈ x.dies) && decide (t.taskState x.task = 2))).length
      if 64 < n then t.setDie d { t.die d with ovf := (t.die d).ovf + 1 } else t) s1
  else s

/-- Place a new block of a task on a core, whose reads are refreshed first and whose trace registers start at their resets (R235, R237,
R241, R294). -/
def State.placeNew (s : State) (g : Grid) (c index : Nat) : State :=
  let b := s.newBlock g c index
  let s0 := s.countPlace c
  let s1 := { (s0.setCore c { s0.core c with tracebase := 0, tracectl := 0, traceseq := 0, tracedrop := 0 }) with blocks := s.blocks ++ [b] }
  let s2 := s1.updGrid g.task (fun x => { x with placed := tset 0 x.placed index (tget 0 x.placed index + 1) })
  (s2.startTask g).refresh c

/-- A save-ring slot of a task that holds no block, the lowest (R215, R236). -/
def State.freeSlot (s : State) (task : Nat) (n : Nat) : Option Nat :=
  let used := (s.saved.filter (fun x => decide (x.blk.task = task))).map (fun x => x.slot)
  leastOf ((upFrom 0 n).filter (fun k => decide (k ∉ used)))

/-- Unstarted packets of a block in every queue. -/
def State.unstarted (s : State) (b : Block) : Nat :=
  (s.queues.map (fun q => ((s.unbegun q).filter (fun x => ownedBy b x.2)).length)).sum

/-- The claims that a block's words hold, with where they stand in their queues (R260). -/
def Block.claims (b : Block) : List Claim :=
  b.groups.filterMap (fun g => g.claim) ++ [b.cs].filterMap (fun x => x.claim)

/-- A block may be a victim, its priority aside; the packets of its waiting claims are unstarted ones (R200, R215, R236, R242). -/
def State.candidate (s : State) (b : Block) : Bool :=
  decide (b.mode = .run) && !b.calling && decide (b.saving = .no) && (s.freeSlot b.task b.trec.slots).isSome
    && decide (s.unstarted b + b.claims.length ≤ 32)

/-- The packets that a pre-emption lists for one queue: those that the stop of a claimed post leaves stand behind the posted
ones, in index order (R146, R260). -/
def State.claimPackets (s : State) (q : CQueue) (cs : List Claim) : List (List Byte) :=
  let mine := cs.filter (fun c => decide (c.qoff = q.off))
  (sortBy (fun (c : Claim) => (c.idx + 2 ^ 32 - s.qRidx q.off) % 2 ^ 32) mine).map (fun c => savedPacket q.num c.pkt)

/-- Abandon a block's packets for a pre-emption and list them in queue order (R146, R260). -/
def State.abandonForSave (s : State) (b : Block) (cs : List Claim) : State × List (List Byte) :=
  s.queues.foldl (fun acc q =>
    match acc.1.queue q.num with
    | none => acc
    | some q' =>
      let r := acc.1.abandonIn b q'
      (r.1, acc.2 ++ r.2 ++ (if q'.part = b.trec.part then acc.1.claimPackets q' cs else []))) (s, [])

/-- The bytes of a block's context, with its packets and its marked words (R213); and how its words fare: whether one fails
with a field other than 15, and the marks. -/
def State.contextOf (s : State) (b : Block) (packets : List (List Byte)) : List Byte × List Nat × List Nat :=
  let res := b.ctxRes (fun g => g.resWords)
  let bad := (res.filter (fun x => !rok x.2 && decide (x.2.res ≠ 15))).map Prod.fst
  let marks := (res.filter (fun x => !rok x.2 && decide (x.2.res = 15))).map Prod.fst
  let gs := b.groups.map (fun g => g.stateBytes (s.scalarPos b.trec.part g))
  (b.ctxBytes (b.header packets.length marks.length) gs ++ packets.flatten ++ (marks.map (toLe 4)).flatten, bad, marks)

/-- The group that owns a word of a context, by its offset; a word of the block window is the lowest group's that holds a
fibre (R120). -/
def Block.ownerOf (b : Block) (o : Nat) : Nat :=
  let g := (o - 896) / (1600 + b.gwinBytes)
  if g < b.groups.length then g else b.lowestHeld

/-- A save is abandoned: the block keeps its resources and goes on; the packets abandoned for it are re-posted at once, or where a fault
is taken at `tret` (R120, R146, R215). -/
def State.keepBlock (s : State) (bid : Nat) (fault : Bool) : State :=
  match s.blk bid with
  | none => s
  | some b =>
    let s1 := match b.cl with
      | some (cid, slot) => s.fillSlot (dieOf b.core) cid slot bid
      | none => s
    let s2 := s1.updBlk bid (fun x => { x with saving := .no })
    if fault then s2 else (s2.repost bid).resume bid

/-- How a save ends: the block is saved, it keeps its place, or the save waits for the core's accesses, or for its publication to be
applied (R120, R150, R215, R362, R395). -/
inductive SaveEnd where
  | saved
  | kept
  | waits
  deriving DecidableEq, Repr

/-- A mismatch that a save finds at a word of its context: the word's group raises `residue` at its next word (R120). -/
def State.mismatch (s : State) (b : Block) (o : Nat) : State :=
  (s.keepBlock b.id true).updGrp b.id (b.ownerOf o) (fun g => { g with resErr := true })

/-- The context of a block is written and its resources are released: steps 4 and 5 of a save (R215). More than 256 marked words abandon
it as a mismatch does, at the first of them beyond (R213; log entry 81). -/
def State.writeSave (s : State) (b : Block) : State × SaveEnd :=
  match s.freeSlot b.task b.trec.slots with
  | none => (s.keepBlock b.id false, .kept)
  | some slot =>
    let (bytes, bad, marks) := s.contextOf b b.repost
    match bad ++ marks.drop 256 with
    | o :: _ => (s.mismatch b o, .kept)
    | [] => match s.homePutParts b.core b.trec.part (sectorParts (bytes.length + 1) (b.trec.save + slot * slotSize b.trec) bytes) with
      | .inr e => (e.2.keepBlock b.id false, .kept)
      | .inl t =>
        let sv : Saved := ⟨{ b with saving := .no, repost := [] }, slot, bytes.length, match b.cl with | some _ => some (dieOf b.core) | none => none⟩
        let gone := fun (x : Option (Nat × Nat)) => match x with
          | some (i, _) => if i = b.id then none else x
          | none => none
        let kk := t.core b.core
        let t1 := t.setCore b.core { kk with quads := kk.quads.map (fun q => (q.1, { q.2 with cur := gone q.2.cur, holder := gone q.2.holder })) }
        ({ t1 with blocks := t1.blocks.filter (fun x => decide (x.id ≠ b.id)), saved := t1.saved ++ [sv] }, .saved)

/-- A stopped block's save goes on from its publication, step 3, which comes after every access that its core has issued (R150, R215,
R395); what it has sent is to be applied here (R362; log entry 74). -/
def State.finishSave (s : State) (b : Block) : State × SaveEnd :=
  match b.saving with
  | .sent pod sys => if s.pubsDone pod sys then s.writeSave b else (s, .waits)
  | _ =>
    if !s.quietCore b.core then (s, .waits)
    else
      let s1 := s.publish b.core
      let goal := s1.pubGoal b.core
      if s1.pubsDone goal.1 goal.2 then s1.writeSave b
      else (s1.updBlk b.id (fun x => { x with saving := .sent goal.1 goal.2 }), .waits)

/-- Steps 1 and 2 of a save: the block's groups and streams stop, its cluster slot is away, its copies are treated as R146 gives, its
accesses are performed (R215, R230). The answer has the faults that this uncovers. -/
def State.stopToSave (s : State) (b : Block) : State × List PFault :=
  let s1 := s.stopAll b
  let s2 := match b.cl with
    | some (cid, k) => (s1.closeSlot b k).setSlot (dieOf b.core) cid k (.away b.id)
    | none => s1
  let (s3, packets) := s2.abandonForSave b b.claims
  let (s4, held) := (s3.landBegun b).drain b
  (s4.updBlk b.id (fun x => { x with saving := .stopped, repost := x.repost ++ packets }), held)

/-- Save a block and release its resources, or go on with a save that has waited (R215, R216, R230). -/
def State.saveBlock (s : State) (bid : Nat) : State × SaveEnd :=
  match s.blk bid with
  | none => (s, .kept)
  | some b =>
    if b.saving ≠ .no then s.finishSave b
    else if (s.freeSlot b.task b.trec.slots).isNone then (s, .kept)
    else
      let (s1, held) := s.stopToSave b
      if s1.begunFault b then (s1.keepBlock bid true, .kept)
      else match held with
      | f :: more => (((s1.keepBlock bid true).updBlk bid (fun x => { x with pend := x.pend ++ more })).takeFault bid f false, .kept)
      | [] => match s1.blk bid with
        | none => (s1, .kept)
        | some k => s1.finishSave k

/-- Resume a saved block on a core: its image is read back over what the model keeps of it (R146, R150, R217, R230). Where the image cannot
be read, for want of a mapping or for poison, the block goes on from what the model keeps, without the listed packets (log entry
82). -/
def State.resumeBlock (s : State) (x : Saved) (c : Nat) : State :=
  let b := x.blk
  let (bytes, s1) := match s.homeGet c b.trec.part (b.trec.save + x.slot * slotSize b.trec) x.size with
    | .inl (bs, t) => (bs, t)
    | .inr _ => ((s.contextOf b []).1, s)
  let k := backBlock bytes b []
  let k1 : Block := { k with
    core := c, resNo := s1.freeRes c, seq := (s1.core c).seqNext, order := s1.orderNext,
    groups := assignQuads (s1.onCore c) k.groups [] }
  let s2 := { (s1.countPlace c) with
    blkNext := s1.blkNext, saved := s1.saved.filter (fun y => decide (y.blk.id ≠ b.id)), blocks := s1.blocks ++ [k1] }
  let s3 := k1.groups.foldl (fun t g => t.rescalar k1.id g.num (leAt bytes (grpOff b.trec g.num + 0x636) 6) (posOf (bytes.drop (grpOff b.trec g.num)))) s2
  let s4 := match b.cl with
    | some (cid, slot) => s3.fillSlot (dieOf c) cid slot b.id
    | none => s3
  let s5 := (s4.refresh c).updBlk b.id (fun y => { y with repost := imagePackets bytes b.trec b.groups.length })
  (s5.repost b.id).resume b.id

/-- What a task would place on a die next (R230, R239, R241, R243). -/
inductive Work where
  | saved (x : Saved)
  | again (index core : Nat)
  | fresh
  deriving DecidableEq, Repr

/-- The work of a task on a die: saved blocks, blocks to run again, untaken indices, steals included. -/
def State.workOn (s : State) (g : Grid) (d : Nat) : Option Work :=
  match firstOf (fun x => decide (x.blk.task = g.task) && (match x.die with | some k => decide (k = d) | none => true)) s.saved with
  | some x => if g.failed then none else some (.saved x)
  | none => match g.retry with
    | r :: _ => some (.again r.1 r.2)
    | [] => if (g.takeFor d false).isSome then some .fresh else none

/-- The cores of a die that a piece of work may go to: a block that runs again avoids its core where another fits (R243). -/
def State.coresFor (s : State) (g : Grid) (d : Nat) (w : Work) : List Nat :=
  let cs := (s.partCores g.trec.part d).filter (fun c => s.fits c g.trec)
  match w with
  | .again _ core =>
    let others := (((s.partDies g.trec.part).map (fun e => s.partCores g.trec.part e)).flatten).filter (fun c => decide (c ≠ core) && s.fits c g.trec)
    if others = [] then cs else cs.filter (fun c => decide (c ≠ core))
  | _ => cs

/-- Place a piece of work of a task on a core. -/
def State.placeWork (s : State) (g : Grid) (d : Nat) (w : Work) (c : Nat) : State :=
  match w with
  | .saved x => s.resumeBlock x c
  | .again index _ =>
    let g1 := { g with retry := g.retry.drop 1 }
    (s.updGrid g.task (fun _ => g1)).placeNew g1 c index
  | .fresh => match g.takeFor d false with
    | none => s
    | some (i, g1, stolen) =>
      let s1 := s.updGrid g.task (fun _ => g1)
      (if stolen then s1.countSteal d else s1).placeNew g1 c i

/-- The victims on one core for a task, in order, until its block fits; none where it never does (R242). A block whose save has
been abandoned for this decision is passed over (R120, R215). -/
def State.victimsOn (s : State) (t : TaskRec) (skip : List Nat) (c : Nat) : Option (List Block) :=
  let all := s.onCore c
  let cands := sortBy (fun (b : Block) => b.trec.pri * 2 ^ 40 + (2 ^ 40 - 1 - b.order % 2 ^ 40))
    (all.filter (fun b => decide (b.trec.part = t.part) && decide (b.trec.pri < t.pri) && decide (b.id ∉ skip) && s.candidate b))
  let pick := cands.foldl (fun acc b =>
    let left := all.filter (fun x => decide (x.id ∉ acc.map (fun y : Block => y.id)))
    let slots := b.trec.slots - (s.saved.filter (fun x => decide (x.blk.task = b.task))).length
    if s.fitsBeside c t left ∨ slots ≤ (acc.filter (fun y => decide (y.task = b.task))).length then acc else acc ++ [b]) []
  let left := all.filter (fun x => decide (x.id ∉ pick.map (fun y : Block => y.id)))
  if pick ≠ [] ∧ s.fitsBeside c t left then some pick else none

/-- The victim set for a task on a die: lowest highest priority, fewest blocks, lowest core (R242). -/
def State.victims (s : State) (t : TaskRec) (skip : List Nat) (d : Nat) : Option (Nat × List Block) :=
  (s.partCores t.part d).foldl (fun best c => match s.victimsOn t skip c with
    | none => best
    | some vs =>
      let top := fun (xs : List Block) => xs.foldl (fun m (b : Block) => max m b.trec.pri) 0
      match best with
      | none => some (c, vs)
      | some (_, ws) => if top vs < top ws ∨ (top vs = top ws ∧ vs.length < ws.length) then some (c, vs) else best) none

/-- The tasks of a partition in pool order (R238). -/
def State.pool (s : State) (p : Nat) : List Grid :=
  sortBy (fun (g : Grid) => 7 - g.trec.pri) (s.grids.filter (fun g => decide (g.trec.part = p) && !g.failed))

/-- A block of a die is being saved: its save goes on before more victims are chosen (R215, R242). -/
def State.savingOn (s : State) (d : Nat) : List Block := s.blocks.filter (fun b => decide (dieOf b.core = d) && decide (b.saving ≠ .no))

/-- Save the victims of a task one after another; where a save is abandoned another victim set is chosen (R120, R215, R242). -/
def State.freeCore (s : State) (t : TaskRec) (d : Nat) : List Nat → Nat → State
  | _, 0 => s
  | skip, fuel + 1 => if s.savingOn d ≠ [] then s else match s.victims t skip d with
    | none => s
    | some (_, vs) =>
      let r : State × Option (Nat × Bool) := vs.foldl (fun a b => match a.2 with
        | some i => (a.1, some i)
        | none => let x := a.1.saveBlock b.id
                  (x.1, if x.2 = .saved then none else some (b.id, decide (x.2 = .waits)))) (s, none)
      match r.2 with
      | none => r.1
      | some (_, true) => r.1
      | some (i, false) => r.1.freeCore t d (i :: skip) fuel

/-- One placement among tasks in pool order: the state after it, and whether a block was placed. `stop` is the priority below
which tasks are held back (R241, R242). -/
def State.placeFrom (s : State) (d : Nat) : List Grid → Option Nat → State × Bool
  | [], _ => (s, false)
  | g :: rest, stop =>
    let held := match stop with | some p => decide (g.trec.pri < p) | none => false
    if held then s.placeFrom d rest stop
    else match s.workOn g d with
      | none => s.placeFrom d rest stop
      | some w => match s.bestCore g.trec (s.coresFor g d w) with
        | some c => (s.placeWork g d w c, true)
        | none =>
          let s1 := s.freeCore g.trec d [] 64
          match s1.grid g.task with
          | none => s1.placeFrom d rest stop
          | some g1 => match s1.bestCore g1.trec (s1.coresFor g1 d w) with
            | some c => (s1.placeWork g1 d w c, true)
            | none => s1.placeFrom d rest (match stop with | some p => some p | none => some g.trec.pri)

/-- One placement over the partitions in turn. -/
def State.placeParts (s : State) (d : Nat) : List Nat → State × Bool
  | [] => (s, false)
  | p :: ps => match s.placeFrom d (s.pool p) none with
    | (t, true) => (t, true)
    | (t, false) => t.placeParts d ps

/-- Placements on a die, one after another, over its partitions. -/
def State.placeAll (s : State) (d : Nat) : Nat → State
  | 0 => s
  | fuel + 1 =>
    match s.placeParts d (upFrom 0 24) with
    | (t, true) => t.placeAll d fuel
    | (t, false) => t

/-- The saves of a die that have waited go on (R215). -/
def State.goOnSaving (s : State) (d : Nat) : State := (s.savingOn d).foldl (fun t b => (t.saveBlock b.id).1) s

/-- BLOCK_PLACEMENT (R241); saves that have waited go on first (R215). -/
def execBlockPlacement (die : Nat) (s : State) : Out := .next (if die < 4 then (s.goOnSaving die).placeAll die 4096 else s)

/-- A block is to be saved: its core is retired, or it is a victim of a task that finds no room (R242, R244). -/
def State.isVictim (s : State) (b : Block) : Bool :=
  s.candidate b && (s.coreRetired b.core || (s.pool b.trec.part).any (fun g =>
    match s.workOn g (dieOf b.core) with
    | none => false
    | some w => s.coresFor g (dieOf b.core) w = [] && (match s.victims g.trec [] (dieOf b.core) with
      | some (_, vs) => vs.any (fun x => decide (x.id = b.id))
      | none => false)))

/-- PREEMPTION_SAVE (R215): the save of a victim, or of a block whose save has waited. -/
def execPreemptionSave (blk : Nat) (s : State) : Out :=
  match s.blk blk with
  | none => .next s
  | some b => .next (if decide (b.saving ≠ .no) || s.isVictim b then (s.saveBlock blk).1 else s)

/-- A write of `dc.retire` (R244): bits can only be set, at most 16 of a die; savable blocks of a retired core are pre-empted. Each core
that it retires leaves an event record (R304). -/
def State.writeRetire (s : State) (d : Nat) (hi : Bool) (v : Nat) : State :=
  let k := s.die d
  let lo' := if hi then k.retLo else k.retLo ||| BitVec.ofNat 32 v
  let hi' := if hi then k.retHi ||| BitVec.ofNat 32 v else k.retHi
  if 16 < ((upFrom 0 64).filter (fun i => bitOf (lo'.toNat + 2 ^ 32 * hi'.toNat) i)).length then s
  else
    let fresh_ := (upFrom 0 64).filter (fun i => bitOf (lo'.toNat + 2 ^ 32 * hi'.toNat) i && !bitOf (k.retLo.toNat + 2 ^ 32 * k.retHi.toNat) i)
    let s1 := (fresh_.map (fun i => 64 * d + i)).foldl State.recordRetired (s.setDie d { k with retLo := lo', retHi := hi' })
    s1.blocks.foldl (fun t b => if dieOf b.core = d ∧ t.coreRetired b.core ∧ t.candidate b then (t.saveBlock b.id).1 else t) s1

/-- DC_RETIRE_WRITE (R244, R266). -/
def execDcRetireWrite (die hi val : Nat) (s : State) : Out := .next (if die < 4 then s.writeRetire die (decide (hi = 1)) val else s)

/-- The blocks of a partition that are saved and that no core can take now (R207, R217, R230). -/
def State.deferred (s : State) (p : Nat) : Nat :=
  (s.saved.filter (fun x => decide (x.blk.trec.part = p) && (s.partDies p).all (fun d =>
    (match x.die with | some k => decide (k ≠ d) | none => false) || (s.partCores p d).all (fun c => !s.fits c x.blk.trec)))).length

end Sys2Proof.Machine
end

