-- ==== Sys2Proof/Machine/Csr.lean ====
section
/-! DEFINITION. Control registers: their numbers, access, values, limits and writes (R118, R152, R191, R207, R209, R232, R353,
R387, R424). -/
namespace Sys2Proof.Machine

/-- The control registers by their offsets. -/
def csrKnown (n : Nat) : Bool :=
  (decide (0x10 ≤ n) && decide (n ≤ 0x1A)) || decide (n = 0x20) || decide (n = 0x21) || (decide (0x30 ≤ n) && decide (n ≤ 0x33))
  || (decide (0x40 ≤ n) && decide (n ≤ 0x46)) || (decide (0x50 ≤ n) && decide (n ≤ 0x61)) || decide (n = 0x70) || decide (n = 0x71)
  || decide (n = 0x80) || decide (n = 0x81) || (decide (0x90 ≤ n) && decide (n ≤ 0x94))

/-- The registers that `csrw` may write. -/
def csrRw (n : Nat) : Bool :=
  n ∈ [0x10, 0x11, 0x12, 0x13, 0x15, 0x16, 0x30, 0x31, 0x32, 0x40, 0x41, 0x42, 0x43, 0x44, 0x45, 0x50, 0x51, 0x54, 0x55, 0x56, 0x57,
    0x58, 0x59, 0x5A, 0x5B, 0x5C, 0x5D, 0x5F, 0x70, 0x81]

/-- The registers whose `csrr` is privileged (R207). -/
def csrPriv (n : Nat) : Bool := (decide (0x50 ≤ n) && decide (n ≤ 0x5D)) || decide (n = 0x5F)

/-- `cr.mstat` (R191). -/
def Block.mstat (b : Block) : Nat :=
  (if b.ms.running then 1 else 0) + (if b.cs.running then 2 else 0) + b.ms.owner % 16 * 2 ^ 2 + b.cs.owner % 16 * 2 ^ 6
    + b.ms.part.toNat * 2 ^ 10 + b.cs.part.toNat * 2 ^ 26

/-- `cr.clkey` (R232). -/
def State.clkey (s : State) (b : Block) : Nat :=
  match b.cl with
  | none => 0xFF * 2 ^ 32
  | some (cid, slot) => match s.cluster (dieOf b.core) cid with
    | none => 0xFF * 2 ^ 32
    | some c => 2 ^ 63 + slot * 2 ^ 32 + c.key.toNat

/-- `cr.spilled` (R70). -/
def Group.spilled (g : Group) : Nat := (lanes32.map (fun l => (g.lane l).lo)).sum

/-- `cr.mirror`: address bits [63:20], the scope, and k of R361 less 15 (R387). -/
def State.mirrorReg (s : State) (p : Nat) : Nat :=
  match s.mirror p with
  | none => 0
  | some (base, n, scope) => base / 2 ^ 20 * 2 ^ 20 + scope % 2 * 2 ^ 4 + (Nat.log2 n - 15)

/-- The value of a control register for a group (R209). -/
def State.csrVal (s : State) (b : Block) (g : Group) (n : Nat) : Nat :=
  let c := s.core b.core
  let p := s.part b.trec.part
  match n with
  | 0x10 => g.vv.toNat
  | 0x11 => g.vw.toNat
  | 0x12 => g.vt.toNat
  | 0x13 => g.va.toNat
  | 0x14 => g.frame
  | 0x15 => g.spillbase.toNat
  | 0x16 => g.spilllim.toNat
  | 0x17 => g.spilled
  | 0x18 => b.gwinBytes
  | 0x19 => b.bwinBytes
  | 0x1A => 128 - c.retired
  | 0x20 => (8 - g.fq.length) + 16 * (8 - g.rq.length)
  | 0x21 => b.trec.pri
  | 0x30 => b.prstimeout.toNat
  | 0x31 => c.phasefull.toNat
  | 0x32 => c.phaseforce.toNat
  | 0x33 => spallocOf b.trec
  | 0x40 => b.stampbase.toNat
  | 0x41 => b.stampseq.toNat
  | 0x42 => b.stampdrop.toNat
  | 0x43 => b.mtest.toNat
  | 0x44 => c.mfix.toNat
  | 0x45 => c.mredo.toNat
  | 0x46 => b.mstat
  | 0x50 => b.tvec.toNat
  | 0x51 => b.tframe.toNat
  | 0x52 => b.tcause.toNat
  | 0x53 => b.tinfo.toNat
  | 0x54 => b.dumpbase.toNat
  | 0x55 => b.mbox.toNat
  | 0x56 => b.bk0.toNat
  | 0x57 => b.bk1.toNat
  | 0x58 => b.bk2.toNat
  | 0x59 => b.bk3.toNat
  | 0x5A => c.tracebase.toNat
  | 0x5B => c.tracectl.toNat
  | 0x5C => c.traceseq.toNat
  | 0x5D => c.tracedrop.toNat
  | 0x5E => s.deferred b.trec.part
  | 0x5F => p.rrdesc.toNat
  | 0x60 => g.rrh.toNat
  | 0x61 => g.rrn
  | 0x70 => b.joinwin.toNat
  | 0x71 => s.clkey b
  | 0x80 => p.gen.toNat
  | 0x81 => p.stalegen.toNat
  | 0x90 => g.roseen.toNat
  | 0x91 => p.applied
  | 0x92 => p.trim
  | 0x93 => p.placed
  | 0x94 => s.mirrorReg b.trec.part
  | _ => 0

/-- A value keeps a register's field limits (R69, R118, R191, R207). -/
def csrLimit (b : Block) (g : Group) (n v : Nat) : Bool :=
  match n with
  | 0x10 => decide (v % 128 = 0) && decide (v ≤ 32 * 1024 - 128)
      && (decide (g.frame = 0) || decide (g.frameBytes + v ≤ b.gwinBytes))
  | 0x11 => decide (v % 128 = 0) && decide (v ≤ 32 * 1024 - 128)
  | 0x12 => decide (v % 128 = 0) && decide (v ≤ 32 * 1024 - 128)
  | 0x13 => decide (v % 128 = 0) && decide (v ≤ 128 * 1024 - 128)
  | 0x15 => decide (v % 64 = 0)
  | 0x40 => decide (fld v 11 5 = 0) && decide (v % 32 ≤ 20)
  | 0x43 => decide (v < 2 ^ 16)
  | 0x50 => decide (v % 4 = 0)
  | 0x51 => decide (v % 2048 = 0)
  | 0x55 => decide (v % 256 = 0)
  | 0x56 => decide (fld v 62 48 = 0)
  | 0x57 => decide (fld v 62 48 = 0)
  | 0x58 => decide (fld v 62 48 = 0)
  | 0x59 => decide (fld v 62 48 = 0)
  | 0x5A => decide (fld v 11 5 = 0)
  | 0x5B => decide (v < 2 ^ 24) && decide (fld v 7 4 = 0)
  | 0x5F => decide (v % 64 = 0)
  | _ => true

/-- Write a per-block register. -/
def Block.csrPut (b : Block) (n : Nat) (v : W64) : Block :=
  match n with
  | 0x30 => { b with prstimeout := v }
  | 0x40 => { b with stampbase := v }
  | 0x41 => { b with stampseq := v }
  | 0x42 => { b with stampdrop := v }
  | 0x43 => { b with mtest := v }
  | 0x50 => { b with tvec := v }
  | 0x51 => { b with tframe := v }
  | 0x54 => { b with dumpbase := v }
  | 0x55 => { b with mbox := v }
  | 0x56 => { b with bk0 := v }
  | 0x57 => { b with bk1 := v }
  | 0x58 => { b with bk2 := v }
  | 0x59 => { b with bk3 := v }
  | 0x70 => { b with joinwin := v }
  | _ => b

/-- Write a per-group register. -/
def Group.csrPut (g : Group) (n : Nat) (v : W64) : Group :=
  match n with
  | 0x10 => { g with vv := v }
  | 0x11 => { g with vw := v }
  | 0x12 => { g with vt := v }
  | 0x13 => { g with va := v }
  | 0x15 => { g with spillbase := v }
  | 0x16 => { g with spilllim := v }
  | _ => g

/-- Write a per-core register. -/
def Core.csrPut (c : Core) (n : Nat) (v : W64) : Core :=
  match n with
  | 0x31 => { c with phasefull := v }
  | 0x32 => { c with phaseforce := v }
  | 0x44 => { c with mfix := v }
  | 0x45 => { c with mredo := v }
  | 0x5A => { c with tracebase := v }
  | 0x5B => { c with tracectl := v }
  | 0x5C => { c with traceseq := v }
  | 0x5D => { c with tracedrop := v }
  | _ => c

/-- Write a control register for a group (R209): each write reaches the register's one home. -/
def State.csrPut (s : State) (b : Block) (g n : Nat) (v : W64) : State :=
  let s1 := s.updBlk b.id (fun k => (k.csrPut n v).updGrp g (fun x => x.csrPut n v))
  let s2 := s1.setCore b.core ((s1.core b.core).csrPut n v)
  match n with
  | 0x5F => s2.setPart b.trec.part { s2.part b.trec.part with rrdesc := v }
  | 0x81 => s2.setPart b.trec.part { s2.part b.trec.part with stalegen := v }
  | _ => s2

end Sys2Proof.Machine
end

