-- ==== Sys2Proof/Machine/Priv.lean ====
section
/-! DEFINITION. Class P: traps and returns, control registers, saving and loading contexts, dumps, the mailbox, TLB
invalidation (R33, R201, R202, R208 to R212, R265). -/
namespace Sys2Proof.Machine

/-- The frame of a class P form that only the handler may run: in user mode it raises `privilege` (R33, check 7); a
management core refuses it (check 6). -/
def privWord (f : Block → Group → Out) (s : State) : Out :=
  match s.cur.ag with
  | .group b g => match s.bg b g with
    | none => .fault .noAgent
    | some (k, x) =>
      if !k.priv g then .next (s.raise 0x03 0)
      else if s.cur.act = [] then .next s.retire
      else f k x
  | .mgmt _ => .next (s.raise 0x01 0)
  | _ => .fault .noAgent

/-- Write a scalar register with a value that the device creates (R119). -/
def State.giveScalar (s : State) (d v : Nat) : State :=
  match s.sregs with
  | some r => s.setSregs (sfresh r d v)
  | none => s

/-- `trap` (R208): the word has retired when its fault is taken; in the handler it is a nested fault (R202). -/
def execTrap (i : Nat) (s : State) : Out :=
  match s.cur.ag with
  | .group b g => joinWord (fun k _ act =>
      if k.priv g then .next (s.nested b 0x14) else .next (s.retire.raiseAt (.group b g) 0x14 (maskOf act) s.cur.pc i)) s
  | .mgmt _ => if s.cur.act = [] then .next s.retire else .next (s.raise 0x14 i)
  | _ => .fault .noAgent

/-- `tret` (R208). -/
def execTret (s : State) : Out := privWord (fun k _ => .next (s.tret k.id)) s

/-- `halt` (R208): ends the block, or stops a management core (R297). -/
def execHalt (s : State) : Out :=
  match s.cur.ag with
  | .mgmt m =>
    if s.cur.act = [] then .next s.retire else .next ((s.setMc m { s.mc m with stopped := true }).interrupt 8)
  | _ => privWord (fun k _ => .next (s.terminate k.id (match k.mode with | .handler _ c => c | .run => 0))) s

/-- `csrr` (R209). The checks 5 and 7 of R33 come first, whatever the guard (R18). -/
def execCsrr (d r : Nat) (s : State) : Out :=
  match s.cur.ag with
  | .group b g => match s.bg b g with
    | none => .fault .noAgent
    | some (k, x) =>
      if !csrKnown r then .next (s.raise 0x01 0)
      else if csrPriv r && !k.priv g then .next (s.raise 0x03 0)
      else if s.cur.act = [] then .next s.retire
      else .next (s.giveScalar d (s.csrVal k x r)).retire
  | .mgmt _ => .next (s.raise 0x01 0)
  | _ => .fault .noAgent

/-- `csrw` (R209): a register that is none or read-only is an illegal field value, whatever the mode and the guard (R18, R33). -/
def execCsrw (a r : Nat) (s : State) : Out :=
  if (match s.cur.ag with | .group b g => (s.bg b g).isSome | _ => false) && (!csrKnown r || !csrRw r) then .next (s.raise 0x01 0)
  else privWord (fun k x =>
    let v := sval x.sregs a
    if !csrLimit k x r v then .next (s.raise 0x01 0)
    else if !sok x.sregs a then .next (s.raise 0x04 0)
    else .next (s.csrPut k x.num r (BitVec.ofNat 64 v)).retire) s

/-- Write bytes at the homes in ascending order, stopping at the first failure, with what was written kept (R210). -/
def State.putThrough (s : State) (c part : Nat) : List (Nat × List Byte) → State × Option Nat
  | [] => (s, none)
  | p :: rest => match s.homePut c part p.1 p.2 with
    | .inl t => t.putThrough c part rest
    | .inr e => (s, some e)

/-- Write a run of bytes at the homes from an address. -/
def State.putRun (s : State) (c part a : Nat) (bs : List Byte) : State × Option Nat :=
  s.putThrough c part (sectorParts (bs.length + 1) a bs)

/-- The words that a trap frame marks (R204). -/
def frameMarks (frame : List Byte) : List Nat := (upFrom 0 400).filter (fun w => bitOf (leAt frame (0x700 + w / 8) 1) (w % 8))

/-- The bytes of each group's state for a halted block: the handler group's from its frame (R210). -/
def State.haltedGroups (s : State) (b : Block) (h : Nat) (frame : List Byte) : List (List Byte) :=
  b.groups.map (fun g => if g.num = h then frame.take 1600 else g.stateBytes (s.scalarPos b.trec.part g))

/-- The residue words of each group for a halted block. -/
def haltedRes (h : Nat) (frame : List Byte) (g : Group) : List (Nat × RWord) :=
  if g.num = h then (frameMarks frame).map (fun w => (w, Sys2Proof.Machine.marked (BitVec.ofNat 32 (leAt frame (4 * w) 4)))) else g.resWords

/-- The context image that `ctxsave` writes, and whether it sets bit 63 of its answer (R210, R213). -/
def State.haltedImage (s : State) (b : Block) (h : Nat) (frame : List Byte) : List Byte × Bool :=
  let res := b.ctxRes (haltedRes h frame)
  let marks := (res.filter (fun x => !rok x.2 && decide (x.2.res = 15))).map Prod.fst
  let keep := marks.take 256
  (b.ctxBytes (b.header 0 keep.length) (s.haltedGroups b h frame) ++ (keep.map (toLe 4)).flatten,
   res.any (fun x => !rok x.2 && decide (x.2.res ≠ 15)) || decide (256 < marks.length))

/-- The section bodies of a dump (R211). -/
def State.dumpSections (s : State) (b : Block) (h : Nat) (frame : List Byte) : List (List Byte) :=
  let words := fun (t : Sparse RWord) (n : Nat) => bytesOf ((winWords t n).map (fun w => w.val))
  [words b.bwin b.bwinBytes ++ (((s.haltedGroups b h frame).zip b.groups).map (fun x => x.1 ++ words x.2.win b.gwinBytes)).flatten,
   b.presence ((b.lines + 63) / 64 * 8) ++ tgets 0 b.scr 0 (spallocOf b.trec),
   (frame.drop 0x640).take 128]

/-- A dump's header (R211); the faulting pc is the one in the frame's fault record. -/
def dumpHeader (b : Block) (h : Nat) (frame : List Byte) (total : Nat) : List Byte :=
  let bad := (b.ctxRes (haltedRes h frame)).any (fun x => !rok x.2)
  let grp := b.tcause.toNat / 256 % 256
  let held := (b.groups.filter (fun g =>
    if g.num = h then decide (leAt frame 0x600 8 ≠ 0) else decide (g.heldLanes ≠ []))).map (fun g => g.num)
  padTo 64 (toLe 4 0x44504D58 ++ toLe 2 1 ++ toLe 1 0 ++ toLe 1 ((if grp < 16 then 0 else 2) + (if bad then 4 else 0))
    ++ toLe 8 b.trec.addr ++ toLe 4 b.index ++ toLe 1 b.core ++ toLe 1 (b.tcause.toNat % 256) ++ toLe 1 0 ++ toLe 1 grp
    ++ toLe 8 (leAt frame 0x6C8 8) ++ toLe 2 (maskOf held) ++ toLe 2 0 ++ toLe 4 total
    ++ (upFrom 0 16).map (fun n => BitVec.ofNat 8 (tget Bar.zero b.bars n).phase.toNat))

/-- Write the sections of a dump one after another, raising the header's count after each (R211). -/
def State.putSections (s : State) (c part base : Nat) : Nat → Nat → List (List Byte) → State × Option Nat
  | _, _, [] => (s, none)
  | k, at_, body :: rest =>
    let r := s.putRun c part at_ (toLe 4 k ++ toLe 4 0 ++ toLe 8 body.length ++ body)
    match r.2 with
    | some e => (r.1, some e)
    | none =>
      let q := r.1.putRun c part (base + 6) (toLe 1 k)
      match q.2 with
      | some e => (q.1, some e)
      | none => q.1.putSections c part base (k + 1) (at_ + 16 + body.length) rest

/-- What a run of writes of `ctxsave` becomes: a fault, which is nested, or the answer in d (R210). -/
def saved (d v : Nat) (r : State × Option Nat) (info : Nat) : Out :=
  match r.2 with
  | some e => .next (r.1.raise e info)
  | none => .next (r.1.giveScalar d v).retire

/-- `ctxsave` (R210, R211). -/
def execCtxsave (d a b : Nat) (s : State) : Out :=
  privWord (fun k x =>
    let ad := sval x.sregs a
    let form := sval x.sregs b % 256
    let p := k.trec.part
    if !sok x.sregs a then .next (s.raise 0x04 0)
    else if ad % 64 ≠ 0 then .next (s.raise 0x05 ad)
    else if 1 < form then .next (s.raise 0x01 0)
    else match s.homeGet k.core p k.frameAt 2048 with
      | .inr e => .next (s.raise e k.frameAt)
      | .inl (frame, s1) =>
        if form = 0 then
          let im := s1.haltedImage k x.num frame
          saved d (im.1.length + (if im.2 then 2 ^ 63 else 0)) (s1.putRun k.core p ad im.1) ad
        else
          let s2 := s1.updBlk k.id (fun y => { y with dumpbase := BitVec.ofNat 64 ad })
          let secs := s2.dumpSections k x.num frame
          let total := 64 + (secs.map (fun y => 16 + y.length)).sum
          let r := s2.putRun k.core p ad (dumpHeader k x.num frame total)
          match r.2 with
          | some e => .next (r.1.raise e ad)
          | none => saved d total (r.1.putSections k.core p ad 1 (ad + 64) secs) ad) s

/-- A context image fits a block (R211). -/
def Block.sameShape (b : Block) (im : List Byte) : Bool :=
  decide (leAt im 6 1 = b.groups.length) && decide (leAt im 0x14 1 = b.trec.gwin) && decide (leAt im 0x15 1 = b.trec.bwin)
  && decide (leAt im 0x16 1 = b.trec.rb) && decide (leAt im 0x17 1 = b.trec.mg) && decide (leAt im 0x18 2 = b.lines)

/-- The bitmap of a frame for the marked words of the handler group in an image (R204, R211). -/
def imageBitmap (im : List Byte) (t : TaskRec) (n h : Nat) : List Byte :=
  let o := grpOff t h
  let base := imageSize im t n - 4 * leAt im 0x1C 2
  let marks := (upFrom 0 (leAt im 0x1C 2)).map (fun i => leAt im (base + 4 * i) 4)
  (upFrom 0 64).map (fun k => BitVec.ofNat 8 (maskOf ((upFrom 0 8).filter
    (fun i => decide (8 * k + i < 400) && decide (o + 4 * (8 * k + i) ∈ marks)))))

/-- A block takes an image's state over its own, its handler group apart (R211). -/
def State.loadImage (s : State) (b : Block) (h : Nat) (im : List Byte) : State :=
  let clear := fun (g : Group) => if g.num = h then g else
    { g with fetched := [], sc := none, sAhead := [], wait := none, swait := none, forced := none, lanes := [], ended := false }
  let k := backBlock im { b with groups := b.groups.map clear } [h]
  let fixup := fun (g : Group) => if g.num = h then g else { g with ended := decide (g.heldLanes = []) }
  let s1 := s.updBlk b.id (fun _ => { k with groups := k.groups.map fixup, repost := imagePackets im b.trec b.groups.length })
  (b.groups.filter (fun g => decide (g.num ≠ h))).foldl (fun t g =>
    let gb := im.drop (grpOff b.trec g.num)
    t.rescalar b.id g.num (leAt gb 0x636 6) (posOf gb)) s1

/-- `ctxload` (R211). -/
def execCtxload (d a : Nat) (s : State) : Out :=
  privWord (fun k x =>
    let ad := sval x.sregs a
    let p := k.trec.part
    let n := k.groups.length
    if !sok x.sregs a then .next (s.raise 0x04 0)
    else if ad % 64 ≠ 0 then .next (s.raise 0x05 ad)
    else match s.homeGet k.core p ad 896 with
      | .inr e => .next (s.raise e ad)
      | .inl (hd, s1) =>
        if !k.sameShape hd then .next (s1.giveScalar d 1).retire
        else match s1.homeGet k.core p ad (imageSize hd k.trec n) with
          | .inr e => .next (s1.raise e ad)
          | .inl (im, s2) =>
            let g := (im.drop (grpOff k.trec x.num)).take 1600
            match s2.homePut k.core p k.frameAt g with
            | .inr e => .next (s2.raise e k.frameAt)
            | .inl s3 => match s3.homePut k.core p (k.frameAt + 0x700) (imageBitmap im k.trec n x.num) with
              | .inr e => .next (s3.raise e k.frameAt)
              | .inl s4 => .next ((s4.loadImage k x.num im).giveScalar d 0).retire) s

/-- Read the bytes of a message buffer of a word through its core. -/
def State.bufferLanes (s : State) (k : Block) (acc : Acc) (a n : Nat) : State × List La :=
  let s1 := s.walkNow k.core k.trec.part a (max n 1)
  (s1, (upFrom a n).map (fun x => s1.vaLane k 0 true true acc x 1))

/-- `mbpost` (R212). It waits for no presence: its payload is read as it stands. The message that it leaves is announced to the management
cores (R298). -/
def execMbpost (d a b : Nat) (s : State) : Out :=
  privWord (fun k x =>
    let n := sval x.sregs b
    let ad := sval x.sregs a
    let p := k.trec.part
    let mb := k.mbox.toNat
    if n < 1 ∨ 112 < n then .next (s.raise 0x01 0)
    else if !sok x.sregs a then .next (s.raise 0x04 0)
    else match s.homeGet k.core p mb 12 with
      | .inr e => .next (s.raise e mb)
      | .inl (hd, s1) =>
        if leAt hd 8 4 ≠ leAt hd 0 4 then .next (s1.giveScalar d 0).retire
        else
          let (s2, ls) := s1.bufferLanes k .rd ad n
          match checks ls with
          | .fault c _ i => .next (s2.raise c i)
          | _ =>
            let r := s2.loadLanes k 1 ls
            s2.orCrowded r.2.2 k.core (match r.2.1 with
            | y :: _ => .next (r.2.2.raise 0x08 y.info)
            | [] =>
              let seq := (leAt hd 0 4 + 1) % 2 ^ 32
              let put := fun (t : State ⊕ Nat) (o : Nat) (bs : List Byte) => match t with
                | .inl u => u.homePut k.core p (mb + o) bs
                | .inr e => .inr e
              match put (put (put (.inl r.2.2) 0x10 (r.1.map (fun y => y.2)).flatten) 4 (toLe 1 n)) 0 (toLe 4 seq) with
              | .inr e => .next (r.2.2.raise e mb)
              | .inl t => .next ((t.interrupt 1).giveScalar d seq).retire)) s

/-- `mbpoll` (R212). -/
def execMbpoll (d a b : Nat) (s : State) : Out :=
  privWord (fun k x =>
    let n := sval x.sregs b
    let ad := sval x.sregs a
    let p := k.trec.part
    let mb := k.mbox.toNat + 0x80
    if !sok x.sregs a then .next (s.raise 0x04 0)
    else match s.homeGet k.core p mb 12 with
      | .inr e => .next (s.raise e mb)
      | .inl (hd, s1) =>
        let seq := leAt hd 0 4
        let len := leAt hd 4 1
        if seq = leAt hd 8 4 then .next (s1.giveScalar d 0).retire
        else if n < len then .next (s1.giveScalar d (2 ^ 63 + len)).retire
        else match s1.homeGet k.core p (mb + 0x10) len with
          | .inr e => .next (s1.raise e mb)
          | .inl (bs, s2) =>
            let (s3, ls) := s2.bufferLanes k .wr ad len
            match checks ls with
            | .fault c _ i => .next (s3.raise c i)
            | _ => match s3.homePut k.core p (mb + 8) (toLe 4 seq) with
              | .inr e => .next (s3.raise e mb)
              | .inl _ =>
                let s4 := (ls.zip bs).foldl (fun t y => t.storeTgt k y.1.tgt [y.2]) s3
                s3.orCrowded s4 k.core (match s4.homePut k.core p (mb + 8) (toLe 4 seq) with
                | .inr e => .next (s4.raise e mb)
                | .inl t => .next (t.giveScalar d len).retire)) s

/-- The page bytes and the count of an operand of `tlbinv`, as a range from an address; none where R265 calls it illegal. A
range of length 0 selects every entry. -/
def tlbRange (a b : Nat) : Option (Nat × Nat) :=
  let sz := b % 4
  let cnt := fld b 47 32
  if b - cnt * 2 ^ 32 ≠ sz then none
  else if sz = 3 then (if cnt = 0 ∧ a = 0 then some (0, 0) else none)
  else if cnt = 0 ∨ a % pageBytes sz ≠ 0 then none
  else some (a, cnt * pageBytes sz)

/-- No access of a partition's blocks that could have been translated is under way (R265): those that wait for presence go to a scratchpad. -/
def State.quietPart (s : State) (p : Nat) : Bool :=
  s.cores.all (fun c => c.2.outs.all (fun o => decide (o.held ≠ 0) || (match s.blk o.blk with
    | some k => decide (k.trec.part ≠ p)
    | none => true)))

/-- Drop the cached translations of a partition that cover a range, and the failed walks that a core still remembers (R245, R265). -/
def State.dropTlb (s : State) (p lo n : Nat) : State :=
  let hit := fun (t : TlbEnt) => decide (t.part = p) && (decide (n = 0)
    || (decide (t.map.va < lo + n) && decide (lo < t.map.va + pageBytes t.map.sz)))
  (s.cores.map Prod.fst).foldl (fun t c =>
    let k := t.core c
    let old := fun (w : WalkReq) => decide (w.part = p) && (decide (n = 0) || (decide (lo < w.page * 65536 + 65536) && decide (w.page * 65536 < lo + n)))
    t.setCore c { k with tlb := k.tlb.filter (fun e => !hit e), fails := k.fails.filter (fun w => !old w) }) s

/-- `tlbinv` (R265): its operands' residues come before the legality of what they ask for (R249); the entries are dropped once no access that they have translated is under way (log entry 28). -/
def execTlbinv (a b : Nat) (s : State) : Out :=
  privWord (fun k x =>
    if !sok x.sregs a || !sok x.sregs b then .next (s.raise 0x04 0)
    else match tlbRange (sval x.sregs a) (sval x.sregs b) with
    | none => .next (s.raise 0x01 0)
    | some r =>
      if !s.quietGroup k.core k.id x.num || !s.quietPart k.trec.part then .next (s.wait .counter)
      else .next (s.dropTlb k.trec.part r.1 r.2).retire) s

end Sys2Proof.Machine
end

