-- ==== Sys2Proof/Machine/Matrix.lean ====
section
/-! DEFINITION. The matrix engine's data: tiles and check records, row buffers and mitten groups, the products of `mmul` and
`mmulw`, checksums, correction and re-execution, the conversions of the drains (R49 to R51, R162 to R165, R172 to R186,
R189). -/
namespace Sys2Proof.Machine

/-- A word of the block window. -/
def Block.bw (b : Block) (w : Nat) : RWord := tget RWord.zero b.bwin w

/-- The number in a word of the block window. -/
def Block.bn (b : Block) (w : Nat) : Nat := (b.bw w).val.toNat

/-- Write numbers at consecutive words of the block window with fresh residues. -/
def Block.bput (b : Block) (w : Nat) (vs : List Nat) : Block :=
  { b with bwin := tsets RWord.zero b.bwin w (vs.map (fun v => fresh (BitVec.ofNat 32 v))) }

/-- The first word of tile j (R163). -/
def tileWord (j : Nat) : Nat := 1024 * j

/-- The first word of the check record of tile j (R164, R165). -/
def Block.recWord (b : Block) (j : Nat) : Nat := 1024 * b.area + 0x300 + 0x80 * j

/-- The first word of the exponent record of a row buffer (R164). -/
def Block.expWord (b : Block) (r : Nat) : Nat := 1024 * b.area + 0x40 * r

/-- The first word of the scale record of a mitten group (R164). -/
def Block.sclWord (b : Block) (g : Nat) : Nat := 1024 * b.area + 0x100 + 0x20 * g

/-- The tiles and records that a word names lie inside the block window (R163, R164). -/
def Block.recsOk (b : Block) (rbs mgs tiles : List Nat) : Bool :=
  let w := b.bwinBytes / 4
  rbs.all (fun r => decide (b.expWord r + 0x40 ≤ w)) && mgs.all (fun g => decide (b.sclWord g + 0x20 ≤ w))
  && tiles.all (fun j => decide (b.recWord j + 0x80 ≤ w) && decide (tileWord j + 1024 ≤ w))

/-- A tile with its check record (R163, R165). -/
structure Tile where
  el : List RWord
  crow : List Nat
  ccol : List Nat
  run : List RWord
  cnt : Nat
  more : Bool
  stale : Bool
  damaged : Bool
  deriving DecidableEq, Repr

/-- Read a tile and its record. -/
def Block.tile (b : Block) (j : Nat) : Tile :=
  let r := b.recWord j
  let nums := fun (w n : Nat) => (tgets RWord.zero b.bwin w n).map (fun x => x.val.toNat)
  let st := b.bn (r + 80)
  ⟨tgets RWord.zero b.bwin (tileWord j) 1024, nums r 32, nums (r + 32) 32, tgets RWord.zero b.bwin (r + 64) 16, min (st % 8) 4,
   bitOf st 3, bitOf st 4, bitOf st 5⟩

/-- The status word of a tile's record (R165). -/
def Tile.status (t : Tile) : Nat :=
  t.cnt + (if t.more then 8 else 0) + (if t.stale then 16 else 0) + (if t.damaged then 32 else 0)

/-- Write a tile and its record, the pending stamp apart. -/
def Block.putTile (b : Block) (j : Nat) (t : Tile) : Block :=
  let r := b.recWord j
  let b1 := { b with bwin := tsets RWord.zero b.bwin (tileWord j) t.el }
  let b2 := { ((b1.bput r t.crow).bput (r + 32) t.ccol) with
    bwin := tsets RWord.zero ((b1.bput r t.crow).bput (r + 32) t.ccol).bwin (r + 64) t.run }
  b2.bput (r + 80) [t.status]

/-- A cleared tile (R176). -/
def Tile.clear : Tile := ⟨copies 1024 RWord.zero, copies 32 0, copies 32 0, copies 16 RWord.zero, 0, false, false, false⟩

/-- A word of the pending stamp of a tile: tag, istart, iend, owait, mstart, mfin, oend, blk by number (R189). -/
def Block.stampWord (b : Block) (j n : Nat) : Nat := b.recWord j + 88 + n

/-- Set a word of the pending stamp. -/
def Block.setStamp (b : Block) (j n v : Nat) : Block := b.bput (b.stampWord j n) [v % 2 ^ 32]

/-- Clear the pending stamp, and note the stream's waiting time (R176, R189). -/
def Block.clearStamp (b : Block) (j : Nat) : Block :=
  let u := 0xFFFFFFFF
  { b.bput (b.stampWord j 0) [0, u, u, 0, u, u, u, 0] with mz := tset 0 b.mz j b.ms.waited }

/-- Add one to a count of the stamp's tag at bit `o`, saturating at 255. -/
def Block.countTag (b : Block) (j o : Nat) : Block :=
  let t := b.bn (b.stampWord j 0)
  if t / 2 ^ o % 256 = 255 then b else b.setStamp j 0 (t + 2 ^ o)

/-- The stamp of a tile that a multiplication writes (R189). -/
def Block.stampMul (b : Block) (now k j : Nat) : Block :=
  let b1 := if b.bn (b.stampWord j 4) = 0xFFFFFFFF then
      (b.setStamp j 3 (b.ms.waited - tget 0 b.mz j)).setStamp j 4 now
    else b
  b1.setStamp j 5 (now + 32 * k)

/-- An `mmul` or `mmulw` word's fields: first tile, first buffer, K ranges, first group, tiles, planes; whether it is wide. -/
structure MulF where
  acc : Nat
  rb : Nat
  nk : Nat
  mg : Nat
  nn : Nat
  k : Nat
  wide : Bool
  deriving DecidableEq, Repr

/-- The fields in a run entry's word (R165, R177, R178). -/
def mulOf (w : Nat) : Option MulF :=
  if w / 2 ^ 24 = 5 then some ⟨fld w 23 19, fld w 18 17, fld w 16 15 + 1, fld w 14 11, fld w 10 7 + 1, fld w 6 3, false⟩
  else if w / 2 ^ 24 = 6 then some ⟨fld w 23 19, fld w 18 17, 1, fld w 14 11, fld w 10 7 + 1, fld w 6 2, true⟩
  else none

/-- The row buffers that the word reads. -/
def MulF.rbs (f : MulF) : List Nat := if f.wide then (if 8 < f.k then [f.rb, f.rb + 1] else [f.rb]) else upFrom f.rb f.nk

/-- The mitten groups that it reads for tile `t` of it. -/
def MulF.mgs (f : MulF) (t : Nat) : List Nat := if f.wide then [f.mg + 2 * t, f.mg + 2 * t + 1] else upFrom (f.mg + t * f.nk) f.nk

/-- A mitten group is bound as `h` and allocated. -/
def Block.boundAs (b : Block) (h g : Nat) : Bool :=
  let x := tget Mitten.none b.mgs g
  decide (g < b.trec.mg) && decide (g < 16) && x.bound && decide (x.hf = h)

/-- The word may run (R177, R178). -/
def Block.mulOk (b : Block) (f : MulF) : Bool :=
  let buf := fun (r : Nat) => tget RowBuf.none b.rbs r
  let kOk := decide (2 ≤ f.k) && decide (f.k ≤ (if f.wide then 16 else 8))
  f.rbs.all (fun r => decide (r < b.trec.rb) && (buf r).valid && decide (f.k ≤ (buf r).kp) && (f.wide || decide ((buf r).ty ≠ 1)))
  && kOk && decide (f.acc + f.nn ≤ 32)
  && (if f.wide then decide (f.mg % 2 = 0) && (upFrom 0 f.nn).all (fun t => b.boundAs 1 (f.mg + 2 * t) && b.boundAs 2 (f.mg + 2 * t + 1))
      else (upFrom 0 f.nn).all (fun t => (f.mgs t).all (b.boundAs 0)))

/-- The eight plane words that a row buffer holds of a row block. -/
def Block.rbPlanes (b : Block) (r m j : Nat) : List Nat :=
  (tgets 0 (tget RowBuf.none b.rbs r).planes ((4 * m + j) * 8) 8).map (fun w => w.toNat)

/-- `aread` of R175 for a row block: its 32 values. -/
def Block.aread (b : Block) (r m j k : Nat) : List Int :=
  let x := tget RowBuf.none b.rbs r
  let w := if x.ty = 0 then 8 else if x.ty = 1 then 16 else x.kp
  let ps := b.rbPlanes r m j ++ (if x.ty = 1 ∧ 8 < x.kp then b.rbPlanes (r + 1) m j else [])
  (upFrom 0 32).map (npread ps w k)

/-- Elements of K-block j, column n, of a mitten group: signed, or unsigned where they are low bytes (R172). -/
def Block.bread (b : Block) (g j n : Nat) : List Int :=
  let x := tget Mitten.none b.mgs g
  (upFrom (32 * j) 32).map (fun kk => let v := (tget 0 x.el (32 * kk + n)).toNat
                                      if x.hf = 2 then (v : Int) else sgn 8 v)

/-- The exact sum of products. -/
def dot : List Int → List Int → Int
  | x :: xs, y :: ys => x * y + dot xs ys
  | _, _ => 0

/-- The block exponent of a row block; none where it is marked NaN (R164). -/
def Block.eblk (b : Block) (r m j : Nat) : Option Int :=
  let h := b.bn (b.expWord r + 2 * m + j / 2) / 2 ^ (16 * (j % 2)) % 2 ^ 16
  if h = 0x8000 then none else some (sgn 16 h)

/-- The scale byte of mitten q, column n, of a group (R164). -/
def Block.bscale (b : Block) (g q n : Nat) : Nat := b.bn (b.sclWord g + (32 * q + n) / 4) / 256 ^ (n % 4) % 256

/-- One scaled partial sum in f32 (R50, R177). -/
def partSum (e : Option Int) (code : Nat) (p : Int) : Nat :=
  match e with
  | none => qnan f32F
  | some x => if code = 255 then qnan f32F else rnd f32F .rne (fscale (ofInt p) (x + code - 127))

/-- The sum over the four K-blocks of one K range (R50). -/
def fourSums (f : List Nat) : Nat := f32Add .rne (f32Add .rne (nth 0 f 0) (nth 0 f 1)) (f32Add .rne (nth 0 f 2) (nth 0 f 3))

/-- The contributions of K range q to element (m, n) of tile t of a word, as tables over rows and columns. -/
def Block.rangeSums (b : Block) (f : MulF) (t q : Nat) : List (List Nat) :=
  let r := f.rb + q
  let g := if f.wide then f.mg + 2 * t else f.mg + t * f.nk + q
  let cols := fun (h : Nat) => lanes32.map (fun n => (upFrom 0 4).map (fun j => b.bread h j n))
  let hi := cols g
  let lo := if f.wide then cols (g + 1) else []
  lanes32.map (fun m =>
    let as := (upFrom 0 4).map (fun j => b.aread r m j f.k)
    lanes32.map (fun n =>
      fourSums ((upFrom 0 4).map (fun j =>
        let a := nth [] as j
        let p := dot a (nth [] (nth [] hi n) j)
        partSum (b.eblk r m j) (b.bscale g j n) (if f.wide then p * 256 + dot a (nth [] (nth [] lo n) j) else p)))))

/-- New elements of a tile: every K range added in ascending order (R50, R177). -/
def Block.mulEls (b : Block) (f : MulF) (t : Nat) (old : List Nat) : List Nat :=
  let ss := (upFrom 0 f.nk).map (b.rangeSums f t)
  (old.zip (upFrom 0 1024)).map (fun x =>
    ss.foldl (fun acc s => f32Add .rne acc (nth 0 (nth [] s (x.2 / 32)) (x.2 % 32))) x.1)

/-- Sum modulo 2^32. -/
def sum32 (xs : List Nat) : Nat := xs.sum % 2 ^ 32

/-- A row and a column of a tile. -/
def rowOf {α : Type} (m : Nat) (xs : List α) : List α := (xs.drop (32 * m)).take 32
def colOf {α : Type} (d : α) (n : Nat) (xs : List α) : List α := lanes32.map (fun m => nth d xs (32 * m + n))

/-- The checksums after elements change (R180). -/
def Tile.rewrite (t : Tile) (new : List Nat) : Tile :=
  let diff := (new.zip (t.el.map (fun w => w.val.toNat))).map (fun x => x.1 + 2 ^ 32 - x.2)
  { t with
    el := new.map (fun v => fresh (BitVec.ofNat 32 v)),
    crow := lanes32.map (fun n => sum32 (nth 0 t.crow n :: colOf 0 n diff)),
    ccol := lanes32.map (fun m => sum32 (nth 0 t.ccol m :: rowOf m diff)) }

/-- A contribution of tile `t` of a word, with its run entry (R177, R179). -/
def Block.mulTile (b : Block) (f : MulF) (word t : Nat) (x : Tile) : Tile :=
  let y : Tile := { x with damaged := x.damaged || x.el.any (fun w => !rok w) }
  let z : Tile := y.rewrite (b.mulEls f t (x.el.map (fun w => w.val.toNat)))
  if z.cnt < 4 then
    let ent := [word, t, 0, 0].map (fun v => fresh (BitVec.ofNat 32 v))
    { z with cnt := z.cnt + 1, run := z.run.take (4 * z.cnt) ++ ent ++ z.run.drop (4 * z.cnt + 4) }
  else { z with more := true }

/-- The injection of an armed `cr.mtest` (R181): one bit of one element is inverted, its residue left. -/
def Tile.inject (t : Tile) (mtest : Nat) : Tile :=
  let i := 32 * fld mtest 4 0 + fld mtest 9 5
  let w := nth RWord.zero t.el i
  { t with el := setNth ⟨w.val ^^^ BitVec.ofNat 32 (2 ^ fld mtest 14 10), w.res⟩ t.el i }

/-- Perform a word on the tiles it names, one after another. -/
def Block.mulAll (b : Block) (f : MulF) (word now : Nat) : List Nat → Block
  | [] => b
  | t :: rest =>
    let j := f.acc + t
    let x := b.mulTile f word t (b.tile j)
    let arm := bitOf b.mtest.toNat 15
    let y := if arm then x.inject b.mtest.toNat else x
    let b1 := (b.putTile j y).stampMul now f.k j
    { b1 with mtest := if arm then b1.mtest &&& 0x7FFF else b1.mtest }.mulAll f word now rest

/-- Set stale in every tile whose run names a rewritten buffer or group (R179). -/
def Block.setStale (b : Block) (rbs mgs : List Nat) : Block :=
  lanes32.foldl (fun k j =>
    if k.recsOk [] [] [j] then
      let t := k.tile j
      let hit := (upFrom 0 t.cnt).any (fun i =>
        match mulOf (nth RWord.zero t.run (4 * i)).val.toNat with
        | none => false
        | some f => f.rbs.any (fun r => decide (r ∈ rbs)) || (f.mgs (nth RWord.zero t.run (4 * i + 1)).val.toNat).any (fun g => decide (g ∈ mgs)))
      if hit then k.bput (k.recWord j + 80) [{ t with stale := true }.status] else k
    else k) b

/-- The check of R182: whether it passes, with the tile after a correction and whether one was made. -/
def Tile.check (t : Tile) : Option (Tile × Bool) :=
  let bits := t.el.map (fun w => w.val.toNat)
  let bad := t.el.map (fun w => !rok w)
  let mr := lanes32.filter (fun m => (rowOf m bad).any id || decide (nth 0 t.ccol m ≠ sum32 (rowOf m bits)))
  let mc := lanes32.filter (fun n => (colOf false n bad).any id || decide (nth 0 t.crow n ≠ sum32 (colOf 0 n bits)))
  if t.damaged then none
  else match mr, mc with
    | [], [] => some (t, false)
    | [m], [n] =>
      let own := nth 0 bits (32 * m + n)
      let v := (nth 0 t.ccol m + 2 ^ 32 - (sum32 (rowOf m bits) + 2 ^ 32 - own) % 2 ^ 32) % 2 ^ 32
      let u := (nth 0 t.crow n + 2 ^ 32 - (sum32 (colOf 0 n bits) + 2 ^ 32 - own) % 2 ^ 32) % 2 ^ 32
      if v = u then some ({ t with el := setNth (fresh (BitVec.ofNat 32 v)) t.el (32 * m + n) }, true) else none
    | _, _ => none

/-- Perform a tile's run again from zeros (R183); none where an entry is no word that could run. -/
def Block.reRun (b : Block) (t : Tile) : Nat → Option Tile
  | 0 => some Tile.clear
  | i + 1 =>
    match b.reRun t i with
    | none => none
    | some x =>
      let word := (nth RWord.zero t.run (4 * i)).val.toNat
      let n := (nth RWord.zero t.run (4 * i + 1)).val.toNat
      match mulOf word with
      | none => none
      | some f => if b.mulOk f && decide (n < f.nn) then some (b.mulTile f word n x) else none

/-- What a drain's checks leave: the tile passes, or `matrix-integrity` (R183), with the block, the corrections and the
re-executions. -/
structure Verdict where
  ok : Bool
  b : Block
  fixes : Nat
  redos : Nat
  deriving DecidableEq, Repr

/-- The check of a drain (R182, R183). -/
def Block.verify (b : Block) (j : Nat) : Verdict :=
  let t := b.tile j
  match t.check with
  | some (x, fixed) => if fixed then ⟨true, (b.putTile j x).countTag j 8, 1, 0⟩ else ⟨true, b, 0, 0⟩
  | none =>
    if t.more || t.stale then ⟨false, b, 0, 0⟩
    else match b.reRun t t.cnt with
      | none => ⟨false, (b.countTag j 16).countTag j 16, 0, 2⟩
      | some x => match x.check with
        | some (y, _) => ⟨true, (b.putTile j y).countTag j 16, 0, 1⟩
        | none => ⟨false, (b.countTag j 16).countTag j 16, 0, 2⟩

/-- Bytes of one row block of a drain, with its scale code (R184). -/
def drainRow (fmt m : Nat) (xs : List Nat) : List Byte × Nat :=
  let vs := xs.map f32v
  let pack := fun (e : Nat) (cs : List Nat) => toLe (4 * e) (packLanes e cs)
  if fmt = 5 then
    let go := fun (code : Nat) (es : List Int) =>
      let cs := es.map (wrap 8)
      (((upFrom 0 8).map (fun j => toLe 4 (maskOf (lanes32.filter (fun n => bitOf (nth 0 cs n) (7 - j)))))).flatten, code)
    if vs.any (fun x => x.isNan || x.isInf) then go 0xFF []
    else match maxLog vs with
      | none => go 0x7F []
      | some e =>
        let x := min (max (e - 6) (-127)) 127
        go (x + 127).toNat (vs.map (fun v => max (-128) (min 127 (roundInt (modeOf m) (fscale v (-x))))))
  else
    let c := 11 + fmt
    let code := mxscale vs c
    (pack (fmtOf c).width (vs.map (fun v => mxq v code c (modeOf m))), code)

/-- Bytes of a row block of a drain's format: w of R184. -/
def drainWidth (fmt : Nat) : Nat := if fmt = 2 ∨ fmt = 3 then 24 else if fmt = 4 then 16 else 32

end Sys2Proof.Machine
end

