-- ==== Sys2Proof/Machine/MatrixWords.lean ====
section
/-! DEFINITION. Class X: the words of the matrix stream (R162 to R197). -/
namespace Sys2Proof.Machine

/-- The frame of a class X word: it acts for the block whose matrix sequencer issues it. -/
def matrixWord (f : Block → Out) (s : State) : Out :=
  match s.cur.ag with
  | .matrix b => match s.blk b with
    | none => .fault .noAgent
    | some k => f k
  | _ => .fault .noAgent

/-- Replace a block and retire the word. -/
def State.putBlk (s : State) (b : Block) : Out := .next (s.updBlk b.id (fun _ => b)).retire

/-- An index register; `i0` reads 0 (R167). -/
def Block.index_ (b : Block) (x : Nat) : Nat := if x = 0 then 0 else (tget 0 b.ix x).toNat

/-- Write an index register. -/
def Block.setIx (b : Block) (x v : Nat) : Block := { b with ix := tset 0 b.ix x (BitVec.ofNat 32 v) }

/-- `mcfg iN` (R171). -/
def execMcfgIndex (n i : Nat) (s : State) : Out := matrixWord (fun b => s.putBlk (b.setIx n i)) s

/-- `mcfg area` (R171). -/
def execMcfgArea (u : Nat) (s : State) : Out := matrixWord (fun b => s.putBlk { b with area := u }) s

/-- `mcfg afmt` (R171). -/
def execMcfgAfmt (k t : Nat) (s : State) : Out := matrixWord (fun b => s.putBlk { b with afmt := 16 * k + t }) s

/-- `mcfg grp` (R171). -/
def execMcfgGrp (g : Nat) (s : State) : Out :=
  matrixWord (fun b => if g < b.groups.length then s.putBlk { b with ogrp := g } else .next (s.raise 0x01 0)) s

/-- `mcfg.hi iN` (R171). -/
def execMcfgHi (n i : Nat) (s : State) : Out := matrixWord (fun b => s.putBlk (b.setIx n (i * 65536 + b.index_ n % 65536))) s

/-- Bytes of the block's scratchpad among which a word reads those that `rd` selects: outside the allocation it raises `protection`, it
waits for every absent line, and an uncorrectable error in what it reads raises `poisoned` (R172, R174, R144, R141). -/
def State.scrRead (s : State) (b : Block) (off n : Nat) (rd : Nat → Bool) (f : List Byte → Out) : Out :=
  if spallocOf b.trec < off + n then .next (s.raise 0x07 (scrBase + off))
  else if (linesOf off n).any (fun l => decide (l ∈ b.absent)) then .next (s.wait .presence)
  else if b.scrPoison off n && (upFrom 0 n).any (fun o => rd o && b.scrPoison (off + o) 1) then .next (s.raise 0x08 (scrBase + off))
  else f (tgets 0 b.scr off n)

/-- The plane words of a block in bytes. -/
def planeWords (bs : List Byte) : List Nat := (wordsOf bs).map (fun w => w.toNat)

/-- The value kept of an element: the whole byte, the signed high byte or the low byte (R172). -/
def bindByte (h : Nat) (v : Int) : Byte :=
  let w := wrap 16 v
  BitVec.ofNat 8 (if h = 1 then w / 256 else w % 256)

/-- Elements and scales that `mbind` loads, from the planes and the scale array (R172, R173). -/
def bindTile (t h : Nat) (bs : List Byte) : List Byte × List Nat :=
  let w := if h = 0 then 8 else 16
  let arr := bs.drop (512 * w)
  let sc := fun (c : Nat) => (nth 0 arr c).toNat
  let blocks := (upFrom 0 128).map (fun c => planeWords ((bs.drop (4 * w * c)).take (4 * w)))
  let val := fun (c l : Nat) => npread (nth [] blocks c) w w l
  if t = 0 then
    (((upFrom 0 128).map (fun kk => lanes32.map (fun n => bindByte h (val (4 * n + kk / 32) (kk % 32))))).flatten,
     ((upFrom 0 4).map (fun q => lanes32.map (fun n => sc (4 * n + q)))).flatten)
  else
    let top := (upFrom 0 4).map (fun q => ((upFrom (32 * q) 32).map sc).foldl max 0)
    (((upFrom 0 128).map (fun kk =>
        let m := nth 0 top (kk / 32)
        lanes32.map (fun n =>
          let x := val kk n
          let y := if m = 255 ∨ sc kk = m then x else roundInt .rne (fscale (ofInt x) (-((m - sc kk : Nat) : Int)))
          bindByte h y))).flatten,
     (top.map (fun m => copies 32 m)).flatten)

/-- `mbind` (R172, R173). -/
def execMbind (g t h x l : Nat) (s : State) : Out :=
  matrixWord (fun b =>
    let p := if h = 0 then 4096 else 8192
    if b.trec.mg ≤ g then .next (s.raise 0x01 0)
    else if !b.recsOk [] [g] [] then .next (s.raise 0x07 0)
    else s.scrRead b (512 * (b.index_ x + l)) (p + 128) (fun _ => true) (fun bs =>
      let r := bindTile t h bs
      let b1 := { b with mgs := tset Mitten.none b.mgs g ⟨true, h, decide (t = 1), tsets 0 [] 0 r.1⟩ }
      let words := (upFrom 0 32).map (fun i => leAt (r.2.map (BitVec.ofNat 8)) (4 * i) 4)
      s.putBlk ((b1.bput (b1.sclWord g) words).setStale [] [g]))) s

/-- The operand group's window (R171). -/
def Block.operand (b : Block) : Group := match b.grp b.ogrp with | some g => g | none => Group.new 0 0 0

/-- The words of the scale slot of the operand group: lane m's is at the `v` view's base (R174, R184). -/
def Block.scaleWord (b : Block) (sreg m : Nat) : Nat := (b.operand.vv.toNat + 128 * sreg + 4 * m) / 4

/-- A `v` slot of the operand group lies inside its window (R116). -/
def Block.scaleOk (b : Block) (sreg : Nat) : Bool := decide (b.operand.vv.toNat + 128 * sreg + 128 ≤ b.gwinBytes)

/-- Bytes that one row block, or one row in the element formats, takes in an image, and how many of them are read (R174). -/
def rowBytes (ty kp : Nat) : Nat × Nat :=
  if ty = 0 then (32, 4 * kp) else if ty = 1 then (64, 4 * kp) else (128, 16 * (fmtOf ty).width)

/-- The bytes of an A image that `mrow` reads are those of each piece's start (R174). -/
def rowReads (ty kp o : Nat) : Bool :=
  let r := rowBytes ty kp
  decide (o % r.1 < r.2)

/-- A row block's planes and exponent (R49, R174). -/
def rowBlock (ty kp : Nat) (im : List Byte) (code m j : Nat) : List Nat × Option Int :=
  if ty < 2 then
    let sz := (rowBytes ty kp).1
    (planeWords ((im.drop (sz * (4 * m + j))).take (4 * kp)), if code = 255 then none else some ((code : Int) - 127))
  else
    let e := (fmtOf ty).width
    let bits := leAt ((im.drop (128 * m + 4 * e * j)).take (4 * e)) 0 (4 * e)
    let codes := (upFrom 0 32).map (fun i => bits / 2 ^ (e * i) % 2 ^ e)
    match alignBlk ty codes code kp with
    -- The planes of a block marked NaN: the spec gives none, the model stores zeros (log entry 69).
    | none => (copies kp 0, none)
    | some (ms, x) =>
      let vs := ms.map (wrap kp)
      ((upFrom 0 kp).map (fun p => maskOf (lanes32.filter (fun l => bitOf (nth 0 vs l) (kp - 1 - p)))), some x)

/-- The exponent halfword of an area record (R164). -/
def expHalf (e : Option Int) : Nat := match e with | none => 0x8000 | some x => wrap 16 x

/-- Fill row buffers from an image (R174). -/
def Block.fillRows (b : Block) (r sreg bsel : Nat) (im : List Byte) : Block :=
  let ty := b.afmt % 16
  let kp := b.afmt / 16
  let two := decide (ty = 1) && decide (8 < kp)
  let code := fun (m j : Nat) =>
    if bitOf bsel j then (tget RWord.zero b.operand.win (b.scaleWord sreg m)).val.toNat / 256 ^ j % 256 else 0x7F
  let blocks := lanes32.map (fun m => (upFrom 0 4).map (fun j => rowBlock ty kp im (code m j) m j))
  let planes := fun (lo : Nat) => (blocks.map (fun row => (row.map (fun x => let p := (x.1.drop lo).take 8
                                                                          p ++ copies (8 - p.length) 0)).flatten)).flatten
  let buf := fun (lo : Nat) => (⟨true, kp, ty, tsets 0 [] 0 ((planes lo).map (BitVec.ofNat 32))⟩ : RowBuf)
  let r1 := tset RowBuf.none b.rbs r (buf 0)
  let b1 := { b with rbs := if two then tset RowBuf.none r1 (r + 1) (buf 8) else r1 }
  let half := fun (row : List (List Nat × Option Int)) (j : Nat) => expHalf (nth ([], none) row j).2
  let exps := (blocks.map (fun row => [half row 0 + 65536 * half row 1, half row 2 + 65536 * half row 3])).flatten
  (b1.bput (b1.expWord r) exps).setStale (if two then [r, r + 1] else [r]) []

/-- The checks that both forms of `mrow` make of their buffers and the scale slot (R174, R120); `f` then has the buffers
filled from an image. -/
def mrowWord (r bsel sreg : Nat) (f : Block → Nat → (List Byte → Out) → Out) (s : State) : Out :=
  matrixWord (fun b =>
    let ty := b.afmt % 16
    let kp := b.afmt / 16
    let two := decide (ty = 1) && decide (8 < kp)
    let bufs := if two then [r, r + 1] else [r]
    if bufs.any (fun x => decide (b.trec.rb ≤ x)) || (two && decide (r % 2 = 1)) then .next (s.raise 0x01 0)
    else if !b.scaleOk sreg || !b.recsOk [r] [] [] then .next (s.raise 0x07 0)
    else f b (if ty = 1 then 8192 else 4096) (fun im =>
      if decide (bsel ≠ 0) && lanes32.any (fun m => !rok (tget RWord.zero b.operand.win (b.scaleWord sreg m))) then .next (s.raise 0x04 0)
      else s.putBlk (b.fillRows r sreg bsel im))) s

/-- `mrow` from scratchpad lines (R174). -/
def execMrowLines (r b g x i : Nat) (s : State) : Out :=
  mrowWord r b g (fun k n go => s.scrRead k (512 * (k.index_ x + i)) n (rowReads (k.afmt % 16) (k.afmt / 16)) go) s

/-- `mrow` from `t` slots of the operand group (R174): each word read is checked (R120). -/
def execMrowTslots (r b g x i : Nat) (s : State) : Out :=
  mrowWord r b g (fun k n go =>
    let o := k.operand.vt.toNat + 512 * (k.index_ x + i)
    if k.gwinBytes < o + n then .next (s.raise 0x07 0)
    else
      let ws := tgets RWord.zero k.operand.win (o / 4) (n / 4)
      let ty := k.afmt % 16
      let kp := k.afmt / 16
      if (ws.zip (upFrom 0 (n / 4))).any (fun w => rowReads ty kp (4 * w.2) && !rok w.1) then .next (s.raise 0x04 0)
      else go (bytesOf (ws.map (fun w => w.val)))) s

/-- `mzero` (R176): `c` is the count less one. -/
def execMzero (a c : Nat) (s : State) : Out :=
  matrixWord (fun b =>
    let js := upFrom a (c + 1)
    if !b.recsOk [] [] js then .next (s.raise 0x07 0)
    else s.putBlk (js.foldl (fun k j => (k.putTile j Tile.clear).clearStamp j) b)) s

/-- A multiplication word (R177, R178). It changes every tile that it names in one step, so no class W word of the block sees some of them
before and others after it (R86 orders no more than each single word; log entry 65). -/
def mulWord (word : Nat) (s : State) : Out :=
  matrixWord (fun b =>
    match mulOf word with
    | none => .next (s.raise 0x01 0)
    | some f =>
      if !b.mulOk f then .next (s.raise 0x01 0)
      else
        let ts := upFrom 0 f.nn
        if !b.recsOk f.rbs (ts.map f.mgs).flatten (ts.map (fun t => f.acc + t)) then .next (s.raise 0x07 0)
        else s.putBlk (b.mulAll f word s.cycle ts)) s

/-- `mmul` (R177). -/
def execMmul (a r n g t k : Nat) (s : State) : Out :=
  mulWord (0x05000000 + a * 2 ^ 19 + r * 2 ^ 17 + n * 2 ^ 15 + g * 2 ^ 11 + t * 2 ^ 7 + k * 2 ^ 3) s

/-- `mmulw` (R178). -/
def execMmulw (a r g t k : Nat) (s : State) : Out :=
  mulWord (0x06000000 + a * 2 ^ 19 + r * 2 ^ 17 + g * 2 ^ 11 + t * 2 ^ 7 + k * 2 ^ 2) s

/-- Count what a drain's checks did in the core's registers, whose growth over a month the lifetime records give (R182, R183, R191,
R305). -/
def State.countDrain (s : State) (b : Block) (v : Verdict) : State :=
  let k := s.core b.core
  s.setCore b.core { k with
    fixCnt := k.fixCnt + v.fixes, redoCnt := k.redoCnt + v.redos,
    mfix := if v.fixes = 0 then k.mfix else satInc k.mfix,
    mredo := (fun (x : W64) => if v.redos = 2 then satInc (satInc x) else if v.redos = 1 then satInc x else x) k.mredo }

/-- The checks of a drain of tile `a`, then what it does with the tile (R182, R183); one that fails leaves the tile, its re-executions counted
in the pending stamp. A `matrix-integrity` makes the core a candidate for
retirement, which firmware is told (R183, R244, R298). -/
def State.drainTile (s : State) (b : Block) (a : Nat) (f : State → Block → Out) : Out :=
  if !b.recsOk [] [] [a] then .next (s.raise 0x07 0)
  else
    let v := b.verify a
    let s1 := s.countDrain b v
    if v.ok then f s1 v.b else .next (((s1.updBlk b.id (fun _ => v.b)).interrupt 4).raise 0x0F a)

/-- Set byte `p` of lane m of the scale slot, keeping the other bytes (R184). -/
def Block.putScale (b : Block) (sreg m p code : Nat) : Block :=
  let w := b.scaleWord sreg m
  b.updGrp b.ogrp (fun g =>
    let o := tget RWord.zero g.win w
    let v := o.val.toNat - o.val.toNat / 256 ^ p % 256 * 256 ^ p + code * 256 ^ p
    { g with win := tset RWord.zero g.win w (computed (rok o) v) })

/-- `mdrain` to the scratchpad and a scale slot (R184). -/
def execMdrain (a f p m sr x : Nat) (s : State) : Out :=
  matrixWord (fun b =>
    let w := drainWidth f
    let o := 512 * b.index_ x + w * p
    if !b.scaleOk sr then .next (s.raise 0x07 0)
    else if spallocOf b.trec < o + 128 * 31 + w then .next (s.raise 0x07 (scrBase + o))
    else s.drainTile b a (fun t k =>
      let els := (k.tile a).el.map (fun y => y.val.toNat)
      t.putBlk (lanes32.foldl (fun q r =>
        let d := drainRow f m (rowOf r els)
        (q.scrPut (o + 128 * r) d.1).putScale sr r p d.2) k))) s

/-- Where the k-th staged tile of a channel stands in HBM: the area of the channel is a ring of 256 tiles (R341, R354; log entry 56). -/
def State.stageAt (s : State) (c k : Nat) : Nat :=
  hbmBase + s.fab.stagebase.toNat % 65536 * 0x4000000 + c * 0x100000 + ((s.chan c).first + k) % 256 * 4096

/-- The bytes of a tile, row by row (R185, R186). -/
def Tile.bytes (t : Tile) : List Byte := bytesOf (t.el.map (fun y => y.val))

/-- A tile joins the staging area of a channel (R185, R341). -/
def State.stage (s : State) (c : Nat) (bs : List Byte) : State :=
  let q := s.chan c
  let a := s.stageAt c q.tiles
  (if inHbm a then s.homeWrite a bs else s).setChan c { q with tiles := q.tiles + 1 }

/-- `mdrain.ch` (R185, R341). -/
def execMdrainCh (a c : Nat) (s : State) : Out :=
  matrixWord (fun b =>
    if (s.chan c).part.toNat ≠ b.trec.part then .next (s.raise 0x01 0)
    else if 256 ≤ (s.chan c).tiles then .next (s.wait .channel)
    else s.drainTile b a (fun t k => (t.stage c (k.tile a).bytes).putBlk k)) s

/-- `mdrainf` (R186). -/
def execMdrainf (a x l : Nat) (s : State) : Out :=
  matrixWord (fun b =>
    let o := 512 * (b.index_ x + l)
    if spallocOf b.trec < o + 4096 then .next (s.raise 0x07 (scrBase + o))
    else s.drainTile b a (fun t k => t.putBlk (k.scrPut o (k.tile a).bytes))) s

/-- `msignal` (R187). -/
def execMsignal (n : Nat) (s : State) : Out :=
  matrixWord (fun b =>
    if !b.ms.part.getLsbD n then .next (s.raise 0x01 0)
    else if (tget Bar.zero b.bars n).seqarr.getLsbD 0 then .next (s.wait (.barrier n))
    else .next (s.retire.barArrive b.id 16 n)) s

/-- `mwaitb` (R187). -/
def execMwaitb (n : Nat) (s : State) : Out :=
  matrixWord (fun b =>
    if !b.ms.part.getLsbD n then .next (s.raise 0x01 0)
    else if (tget Bar.zero b.bars n).seqarr.getLsbD 0 then .next (s.wait (.barrier n))
    else .next s.retire) s

/-- Redirect a sequencer. -/
def Stream.land (x : Stream) (l : Land) : Stream := { x with pc := l.pc, hdr := l.hdr, entered := false, again := false, wait := none }

/-- `mloop` (R187). -/
def execMloop (x o : Nat) (s : State) : Out :=
  matrixWord (fun b =>
    let v := (b.index_ x + 2 ^ 32 - 1) % 2 ^ 32
    if v = 0 then s.putBlk (b.setIx x v)
    else match s.jStep (sgn 21 o) with
      | .inr e => .next (s.raise e.1 e.2)
      | .inl t => .next (s.updBlk b.id (fun k => { (k.setIx x v) with ms := k.ms.land t }))) s

/-- `mjmp` (R187). -/
def execMjmp (o : Nat) (s : State) : Out :=
  matrixWord (fun b => match s.jStep (sgn 24 o) with
    | .inr e => .next (s.raise e.1 e.2)
    | .inl t => .next (s.updBlk b.id (fun k => { k with ms := k.ms.land t }))) s

/-- `mstamp` of a time (R190): istart, iend, oend for f 0, 1, 2. -/
def execMstamp (a f : Nat) (s : State) : Out :=
  matrixWord (fun b =>
    if !b.recsOk [] [] [a] then .next (s.raise 0x07 0)
    else s.putBlk (b.setStamp a (if f = 0 then 1 else if f = 1 then 2 else 6) s.cycle)) s

/-- `mstamp retire` (R190): the record is written to the stamp ring and cleared. -/
def execMstampRetire (a : Nat) (s : State) : Out :=
  matrixWord (fun b =>
    if !b.recsOk [] [] [a] then .next (s.raise 0x07 0)
    else
      let tag := b.bn (b.stampWord a 0) / 2 ^ 8 % 2 ^ 16 * 2 ^ 8 + b.core % 256 * 2 ^ 24 + a
      let rest := (upFrom 1 6).map (fun n => b.bn (b.stampWord a n))
      let bs := (([tag] ++ rest ++ [b.index % 2 ^ 32]).map (toLe 4)).flatten
      let b1 := b.clearStamp a
      if ringOff b.stampbase then s.putBlk b1
      else
        let b2 := { b1 with stampseq := satInc b1.stampseq }
        match s.recordStore b.core b.trec.part (ringAddr b.stampbase b.stampseq.toNat) bs with
        | some t => t.putBlk b2
        | none => s.putBlk { b2 with stampdrop := satInc b2.stampdrop }) s

/-- `mend` (R188). -/
def execMend (s : State) : Out :=
  matrixWord (fun b =>
    .next (s.retire.endRun b.id false)) s

/-- `mnop` (R187). -/
def execMnop (s : State) : Out := matrixWord (fun _ => .next s.retire) s

end Sys2Proof.Machine
end

