-- ==== Sys2Proof/Machine/Issue.lean ====
section
/-! DEFINITION. What an agent does next: the choice of a PC-set, fetching a clause, its header, breakpoints, the word; the
choice of a group by a quadrant; trace samples, stop requests, walks, soft errors (R16 to R22, R61, R63, R114, R122, R126 to
R128, R205, R206, R245, R264, R266). -/
namespace Sys2Proof.Machine

/-- What an agent does next: an instruction with the state that names it as current, or nothing more than a new state. -/
inductive Todo where
  | word (i : Instr) (s : State)
  | done (s : State)
  deriving DecidableEq, Repr

/-- The constructor of a header. -/
def Hdr.instr (h : Hdr) : Instr :=
  .clauseHeader h.n h.cls (if h.y then 1 else 0) h.wait (if h.b then 1 else 0) h.bar (if h.g then 1 else 0) h.sense h.guard

/-- The control registers in force from a fetch on (R209). -/
def inForce (b : Block) (g : Group) : InForce :=
  ⟨g.vv.toNat, g.vw.toNat, g.vt.toNat, g.va.toNat, g.spillbase.toNat, g.spilllim.toNat, b.prstimeout.toNat, b.joinwin.toNat,
   b.bk0, b.bk1, b.bk2, b.bk3⟩

/-- A group takes a fetched clause. It holds one copy of a clause, by its header: a PC-set that enters the clause fetches it again, and lanes
that are already inside go on with the words of the later fetch (log entry 11). -/
def State.takeFetch (s : State) (b : Block) (g hdr : Nat) (ws : List W32) : State :=
  s.updGrp b.id g (fun x => { x with fetched := tset [] x.fetched hdr ws, inf := inForce b x })

/-- A breakpoint in force is enabled at a pc (R205). -/
def InForce.hits (f : InForce) (pc : Nat) : Bool :=
  [f.bk0, f.bk1, f.bk2, f.bk3].any (fun v => decide (v.toNat / 2 ^ 63 = 1) && decide (v.toNat % 2 ^ 48 = pc))

/-- The word of a block's group waits to be stopped by a breakpoint: not in a halted block, and not again for the first word
after a return (R205). -/
def stopsAt (b : Block) (g : Group) (pc : Nat) : Bool := decide (b.mode = .run) && !g.bkSkip && g.inf.hits pc


/-- Every live lane is deferred, which ends deferral for all (R61). -/
def Group.undefer (g : Group) : Group :=
  if g.liveLanes.all (fun l => (g.lane l).deferred) then g.mapLanes lanes32 (fun _ x => { x with deferred := false }) else g

/-- Decode a word and issue it, or raise `illegal-instruction` at it (R33). -/
def State.issue (s : State) (cls w : Nat) : Todo :=
  match decodeWord cls w with
  | .ok i => .word i s
  | .error _ => .done (s.raise 0x01 0)

/-- The class of a clause by its header word. -/
def clsOf (ws : List W32) : Nat := match hdrOf .group (nth 0 ws 0).toNat with | some h => h.cls | none => 0
def yOf (ws : List W32) : Bool := match hdrOf .group (nth 0 ws 0).toNat with | some h => h.y | none => false

/-- A group's wide side processes the header at which lanes of its set stand (R16, R17, R21). A class S clause that the scalar side has
executed stands as it was fetched. -/
def State.groupHeader (s : State) (b : Block) (g : Group) (hdr : Nat) (set : List Nat) : Todo :=
  let c := fun (n : Nat) (y : Bool) => (⟨.group b.id g.num, set, set, hdr, hdr, n, y⟩ : Cur)
  let at_ := match set with | l :: _ => (g.lane l).pc.toNat | [] => hdr
  let held := tget [] g.fetched hdr
  let passed := decide (hdr ∈ g.sAhead) && !held.isEmpty
  match s.clauseIn (.part b.trec.part) .group hdr at_ passed held with
  | .inr code => .done ({ s with cur := c 0 false }.raise code (if code = 2 then 0 else hdr))
  | .inl (h, ws) => .word h.instr { (if passed then s else s.takeFetch b g.num hdr ws) with cur := c h.n h.y }

/-- Lanes of a set have yielded in the clause that they are in, which ends as though Y were 1 (R77). -/
def Group.yields (g : Group) (set : List Nat) (hdr : Nat) : Bool := set.any (fun l => bitOf (tget 0 g.yends hdr) l)

/-- Lanes enter a clause: no `yield` in it counts for them (R77). -/
def Group.noYield (g : Group) (set : List Nat) (hdr : Nat) : Group :=
  let m := tget 0 g.yends hdr
  if m = 0 then g else { g with yends := tset 0 g.yends hdr (maskOf ((maskList 32 m).filter (fun l => decide (l ∉ set)))) }

/-- A group's wide side issues the word at which its set stands. -/
def State.groupWord (s : State) (b : Block) (g : Group) (l : Nat) (set : List Nat) : Todo :=
  let hdr := (g.lane l).hdr
  let pc := (g.lane l).pc.toNat
  let go := fun (t : State) (x : Group) (ws : List W32) =>
    let act := set.filter (fun k => !(x.lane k).guardOff)
    let t1 := { t with cur := (⟨.group b.id x.num, set, act, pc, hdr, ws.length - 1, yOf ws || x.yields set hdr⟩ : Cur) }
    if x.resErr then Todo.done ((t1.updGrp b.id x.num (fun y => { y with resErr := false })).raise 0x04 0)
    else if stopsAt b x pc then .word (.debugStopBreakpoint b.id x.num) t1
    else t1.issue (clsOf ws) (nth 0 ws ((pc - hdr) / 4)).toNat
  match tget [] g.fetched hdr with
  | [] => (match s.fetchClause (.part b.trec.part) .group hdr with
    | .inr code => .done ({ s with cur := (⟨.group b.id g.num, set, set, hdr, hdr, 0, false⟩ : Cur) }.raise code (if code = 2 then 0 else hdr))
    | .inl (_, ws) => go (s.takeFetch b g.num hdr ws) { g with inf := inForce b g } ws)
  | ws => go s g ws

/-- The next step of a group's wide side (R61, R63). -/
def State.groupNext (s : State) (b g : Nat) : Todo :=
  match s.bg b g with
  | none => .done s
  | some (k, x0) =>
    if x0.ended || k.haltedFor g then .done s
    else if x0.heldLanes = [] then .done (s.tryEndGroup b g)
    else if x0.liveLanes = [] then .done s
    else match x0.starved with
    | some l => .word (.divergenceStarvation b g l) s
    | none =>
      let x := x0.undefer
      let s1 := s.updGrp b g (fun _ => x)
      let set := x.select
      match set.filter (fun l => !(x.lane l).entered) with
      | l :: _ =>
        s1.groupHeader k x (x.lane l).hdr (set.filter (fun j => !(x.lane j).entered && decide ((x.lane j).hdr = (x.lane l).hdr)))
      | [] => match set with
        | l :: _ => s1.groupWord k x l (set.filter (fun j => decide ((x.lane j).hdr = (x.lane l).hdr)))
        | [] => .done s

/-- DIVERGENCE_STARVATION (R63): a lane's set is selected next, to the end of its clause. -/
def execDivergenceStarvation (blk grp lane : Nat) (s : State) : Out :=
  match s.bg blk grp with
  | none => .next s
  | some (_, x) =>
    if 32 ≤ lane then .next s
    else if (x.lane lane).isLive ∧ 1024 ≤ (x.lane lane).starve ∧ x.forcedSet = [] then
      let pc := (x.lane lane).pc
      let ls := x.liveLanes.filter (fun l => decide ((x.lane l).pc = pc))
      .next (s.updGrp blk grp (fun y => { (y.mapLanes ls (fun _ z => { z with deferred := false, starve := 0 })) with forced := some pc.toNat }))
    else .next s

/-- DEBUG_STOP_BREAKPOINT (R205): the stop is taken before the word, in the issuing group. -/
def execDebugStopBreakpoint (blk grp : Nat) (s : State) : Out :=
  match s.bg blk grp with
  | none => .next s
  | some (k, x) =>
    match s.cur.ag with
    | .group b g => if b = blk ∧ g = grp ∧ stopsAt k x s.cur.pc then .next (s.raise 0x13 0) else .next s
    | .scalar b g => if b = blk ∧ g = grp ∧ stopsAt k x s.cur.pc then .next (s.raise 0x13 0) else .next s
    | _ => .next s

/-- A held fault of the class S clause at which the wide side stands (R128). -/
def Group.heldFault (g : Group) (hdr n : Nat) : Option PFault :=
  match g.sFault with
  | some f => if hdr ≤ f.pc ∧ f.pc ≤ hdr + 4 * n then some f else none
  | none => none

/-- The wide side passes a class S clause that the scalar side has executed: Y takes effect (R126). -/
def State.passScalar (s : State) (b : Block) (g : Group) (n : Nat) (y : Bool) : State :=
  let c := s.cur
  let s1 := s.updGrp b.id g.num (fun x =>
    let x1 := x.mapLanes c.set (fun _ z => { z.enter (c.hdr + 4 * (n + 1)) with starve := 0 })
    { (if y then x1.clearLatches else x1) with sAhead := x.sAhead.filter (fun h => decide (h ≠ c.hdr)), wait := none, forced := none })
  s1.updQuad b.core g.quad (fun q => q.clauseEnd (b.id, g.num) y)

/-- The wide side processes a header (R17, R126). -/
def State.wideHeader (s : State) (b : Block) (g : Group) (h : Hdr) : State :=
  let c := s.cur
  if h.cls = 0 then
    if c.hdr ∈ g.sAhead then s.passScalar b g h.n h.y
    else match g.heldFault c.hdr h.n with
      | some f =>
        let s1 := s.updGrp b.id g.num (fun x => { x with sFault := none })
        if b.priv g.num then s1.nested b.id f.code else s1.takeFault b.id f false
      | none => s
  else if !g.countersZero h.wait then s.wait .header
  else if h.b && b.hasArrived g.num h.bar then s.wait (.barrier h.bar)
  else
    let off := g.failing h c.set
    let s1 := if h.b then s.passBar b g.num h.bar else s
    s1.updGrp b.id g.num (fun x => { (x.mapLanes c.set (fun l z => { z with
      entered := true, guardOff := decide (l ∈ off), pc := if z.pc.toNat = c.hdr then BitVec.ofNat 48 (c.hdr + 4) else z.pc })).noYield c.set c.hdr with
      wait := none, forced := if x.forcedSet = [] then none
        else match x.forced with | some p => some (if p = c.hdr then c.hdr + 4 else p) | none => none })

/-- The scalar side processes a class S header, at its landing word where the wide side has landed inside it (R17, R21,
R126). -/
def State.scalarHeader (s : State) (b : Block) (g : Group) (h : Hdr) : State :=
  let c := s.cur
  if !g.countersZero h.wait then s.wait .header
  else if h.b && b.hasArrived g.num h.bar then s.wait (.barrier h.bar)
  else
    let on := !h.g || guardPass (spBit g.sp h.guard) h.sense
    let s1 := if h.b then s.passBar b g.num h.bar else s
    s1.updGrp b.id g.num (fun x => { x with swait := none, sc := some ⟨c.hdr, (c.pc - c.hdr) / 4 - 1, h.n, h.y, on⟩ })

/-- A stream processes a header: its barrier alone (R166, R264). `bit` is its arrival bit. -/
def State.streamHeader (s : State) (b : Block) (x : Stream) (bit : Nat) (h : Hdr) : State :=
  let go := fun (y : Stream) => { (y.countWait s.cycle) with
    entered := true, pc := if y.pc = s.cur.hdr then s.cur.hdr + 4 else y.pc, wait := none }
  if bit = 1 ∧ (h.wait ≠ 0 ∨ h.sense ≠ 0) then s.raise 0x01 0
  else if h.b && !x.part.getLsbD h.bar then s.raise 0x01 0
  else if h.b && (tget Bar.zero b.bars h.bar).seqarr.getLsbD bit then s.wait (.barrier h.bar)
  else s.updBlk b.id (fun k => if bit = 0 then { k with ms := go k.ms } else { k with cs := go k.cs })

/-- A management core processes a header: its guard names a scalar predicate (R17, R297). It has no dependence counters, and the wait
bits of its headers do nothing (log entry 62). -/
def Mc.header (m : Mc) (h : Hdr) (hdr : Nat) : Mc :=
  { m with entered := true, pc := if m.pc.toNat = hdr then BitVec.ofNat 48 (hdr + 4) else m.pc,
           guardOff := h.g && !guardPass (spBit m.sp h.guard) h.sense }

/-- CLAUSE_HEADER (R17). -/
def execClauseHeader (n cls y wait b bar g sense guard : Nat) (s : State) : Out :=
  let h : Hdr := ⟨n, cls, decide (y = 1), wait, decide (b = 1), bar, decide (g = 1), sense, guard⟩
  match s.cur.ag with
  | .none => .fault .noAgent
  | .group bid gid => (match s.bg bid gid with
    | none => .fault .noAgent
    | some (k, x) => .next (s.wideHeader k x h))
  | .scalar bid gid => (match s.bg bid gid with
    | none => .fault .noAgent
    | some (k, x) => .next (s.scalarHeader k x h))
  | .matrix bid => (match s.blk bid with
    | none => .fault .noAgent
    | some k => .next (s.streamHeader k k.ms 0 h))
  | .copy bid => (match s.blk bid with
    | none => .fault .noAgent
    | some k => .next (s.streamHeader k k.cs 1 h))
  | .mgmt m => .next (s.setMc m ((s.mc m).header h s.cur.hdr))

/-- The wide side stands at a class S clause that the scalar side has still to execute (R126). A clause whose fetch fails is the wide
side's: it raises the fault at the header (R16). -/
def State.atScalar (s : State) (b : Block) (g : Group) : Bool :=
  match g.select with
  | [] => false
  | l :: _ =>
    let x := g.lane l
    !x.entered && decide (x.hdr ∉ g.sAhead) && g.sFault.isNone
      && ((match g.sc with | some r => decide (r.hdr = x.hdr) | none => false)
        || (match s.fetchFor (.part b.trec.part) .group x.hdr x.pc.toNat with
          | .inr _ => false
          | .inl (h, _) => decide (h.cls = 0)))

/-- The next step of a group's scalar side (R126, R128). -/
def State.scalarNext (s : State) (b g : Nat) : Todo :=
  match s.bg b g with
  | none => .done s
  | some (k, x) =>
    if x.ended || k.haltedFor g || x.sFault.isSome then .done s
    else match x.sc with
    | some r =>
      let pc := r.hdr + 4 * (r.idx + 1)
      let s1 := { s with cur := (⟨.scalar b g, [], if r.on then [0] else [], pc, r.hdr, r.n, r.y⟩ : Cur) }
      let w : Nat := match tget [] x.fetched r.hdr with
        | [] => (match s.code (.part k.trec.part) pc with | .inl v => v | .inr _ => 0)
        | ws => (nth 0 ws (r.idx + 1)).toNat
      if x.resErr then .done ((s1.updGrp b g (fun y => { y with resErr := false })).raise 0x04 0)
      else if stopsAt k x pc then .word (.debugStopBreakpoint b g) s1
      else s1.issue 0 w
    | none =>
      let here := s.atScalar k x
      if !here && !x.single then .done s
      else
        let (p, at_) := match here, x.select with
          | true, l :: _ => ((x.lane l).hdr, (x.lane l).pc.toNat)
          | _, _ => (s.scalarPos k.trec.part x, s.scalarPos k.trec.part x)
        match s.fetchFor (.part k.trec.part) .group p at_ with
        | .inr _ => .done s
        | .inl (h, ws) =>
          if h.cls ≠ 0 then .done s
          else .word h.instr { (s.takeFetch k g p ws) with cur := (⟨.scalar b g, [], [0], at_, p, h.n, h.y⟩ : Cur) }

/-- The next step of a stream (R166, R167, R264). -/
def State.streamNext (s : State) (b : Nat) (copy : Bool) : Todo :=
  match s.blk b with
  | none => .done s
  | some k =>
    let x := if copy then k.cs else k.ms
    let ag : Agent := if copy then .copy b else .matrix b
    let who := if copy then Who.copy else .matrix
    let sp := Space.part k.trec.part
    if !x.running || k.stopping || decide (k.mode ≠ .run) then .done s
    -- A copy stream may stand behind its clause's last word, at its end's arrival (R264).
    else match s.clauseIn sp who x.hdr (if copy && x.entered then x.pc - 4 else x.pc) x.entered x.fetched with
    | .inr c => .done ({ s with cur := (⟨ag, [], [], x.hdr, x.hdr, 0, false⟩ : Cur) }.raise c (if c = 2 then 0 else x.hdr))
    | .inl (h, ws) =>
      let s1 := { (s.updBlk b (fun q => if copy then { q with cs := { x with fetched := ws } } else { q with ms := { x with fetched := ws } })) with
        cur := (⟨ag, [], [0], x.pc, x.hdr, h.n, h.y⟩ : Cur) }
      if !x.entered then .word h.instr { s1 with cur := { s1.cur with pc := x.hdr } }
      else if copy && decide (x.pc = x.hdr + 4 * (h.n + 1)) then .done (s1.copyEnd b)
      else s1.issue h.cls (nth 0 ws ((x.pc - x.hdr) / 4)).toNat

/-- The next step of a management core (R297). Core 0 runs the mask ROM until firmware runs: what the ROM does stands in
PACKAGE_RESET and MGMT_IMAGE_RECEIVED (R300). -/
def State.mgmtNext (s : State) (m : Nat) : Todo :=
  let k := s.mc m
  if k.stopped || k.waiting || (decide (m = 0) && decide (s.xd.boot ≠ 0xF0)) then .done s
  else match s.clauseIn (.mgmt m) .mgmt k.hdr k.pc.toNat k.entered k.fetched with
  | .inr c => .done ({ s with cur := (⟨.mgmt m, [], [], k.hdr, k.hdr, 0, false⟩ : Cur) }.raise c 0)
  | .inl (h, ws) =>
    let s1 := { (s.setMc m { k with fetched := ws }) with
      cur := (⟨.mgmt m, [], if k.guardOff then [] else [0], k.pc.toNat, k.hdr, h.n, h.y⟩ : Cur) }
    if !k.entered then .word h.instr { s1 with cur := { s1.cur with pc := k.hdr } }
    else s1.issue h.cls (nth 0 ws ((k.pc.toNat - k.hdr) / 4)).toNat

/-- The next step of an agent. -/
def State.nextOf (s : State) (ag : Agent) : Todo :=
  match ag with
  | .none => .done s
  | .group b g => s.groupNext b g
  | .scalar b g => s.scalarNext b g
  | .matrix b => s.streamNext b false
  | .copy b => s.streamNext b true
  | .mgmt m => s.mgmtNext m

/-- The agent's word waits in a state (R123). -/
def State.waits (s : State) (ag : Agent) : Bool :=
  -- A burst that has moved a frame has issued (R123).
  let on := fun (w : Option Wait) => match w with | some x => decide (x.on ≠ .window) | none => false
  match ag with
  | .group b g => (match s.bg b g with | some (_, x) => on x.wait | none => false)
  | .scalar b g => (match s.bg b g with | some (_, x) => on x.swait | none => false)
  | .matrix b => (match s.blk b with | some k => k.ms.wait.isSome | none => false)
  | .copy b => (match s.blk b with | some k => k.cs.wait.isSome | none => false)
  | _ => false

/-- The groups of a quadrant with their blocks. -/
def State.quadGroups (s : State) (c q : Nat) : List (Block × Group) :=
  ((s.onCore c).map (fun b => (b.groups.filter (fun g => decide (g.quad = q) && !g.ended && !b.haltedFor g.num && decide (g.liveLanes ≠ []))).map
    (fun g => (b, g)))).flatten

/-- The rank of a group in step 3 of R122: highest priority first, then oldest, then lowest number. -/
def pickKey (x : Block × Group) : Nat := (8 - x.1.trec.pri) * 2 ^ 64 + x.1.order * 16 + x.2.num

/-- Promote the groups whose skip count has reached 64, in the order of step 3 (R122). -/
def State.promote (s : State) (c q : Nat) : State :=
  let xs := sortBy pickKey ((s.quadGroups c q).filter (fun x => decide (64 ≤ x.2.skip) && x.2.promo.isNone))
  xs.foldl (fun t x =>
    let n := (t.quad c q).promoNext
    (t.updGrp x.1.id x.2.num (fun g => { g with promo := some n })).updQuad c q (fun k => { k with promoNext := n + 1 })) s

/-- GROUP_PROMOTION (R122). -/
def execGroupPromotion (core quad : Nat) (s : State) : Out := .next (if quad < 4 then s.promote core quad else s)

/-- A pick of a quadrant among the groups that are ready (R122). -/
def State.pick (s : State) (ready : Nat → Nat → Bool) (c q : Nat) : State :=
  let xs := (s.quadGroups c q).filter (fun x => ready x.1.id x.2.num)
  let k := s.quad c q
  let held := match k.holder with
    | some h => firstOf (fun (x : Block × Group) => decide ((x.1.id, x.2.num) = h)) xs
    | none => none
  match held with
  | some x =>
    (s.updGrp x.1.id x.2.num (fun g => { g with skip := 0, promo := none })).updQuad c q
      (fun y => { y with cur := some (x.1.id, x.2.num), holdMiss := 0 })
  | none =>
    let first := fun (ys : List (Block × Group)) (key : Block × Group → Nat) => (sortBy key ys).head?
    let chosen := match first (xs.filter (fun x => x.2.promo.isSome)) (fun x => match x.2.promo with | some n => n | none => 0) with
      | some x => some x
      | none => first xs pickKey
    match chosen with
    | none => s.updQuad c q (fun y => { y with cur := none })
    | some x =>
      let s1 := xs.foldl (fun t y => t.updGrp y.1.id y.2.num (fun g =>
        if y.1.id = x.1.id ∧ y.2.num = x.2.num then { g with skip := 0, promo := none } else { g with skip := g.skip + 1 })) s
      let s2 := s1.updQuad c q (fun y => { y with
        cur := some (x.1.id, x.2.num),
        holder := if y.holder.isSome && decide (16 ≤ y.holdMiss + 1) then none else y.holder,
        holdMiss := if y.holder.isSome then (if 16 ≤ y.holdMiss + 1 then 0 else y.holdMiss + 1) else 0 })
      s2.promote c q

/-- HALT_BROADCAST (R200): a block with faults held for it takes the first of them; otherwise a stop held for it is taken. -/
def execHaltBroadcast (blk : Nat) (s : State) : Out :=
  match s.blk blk with
  | some b => if b.mode = .run ∧ !b.calling ∧ b.saving = .no then .next (s.resume blk) else .next s
  | none => .next s

/-- Stop a block by an external request (R205, R200): one that is halted holds the request until `tret`, one that is being saved until it
runs again. -/
def State.stopBlock (s : State) (b : Block) : State :=
  match b.mode with
  | .handler _ _ => s.updBlk b.id (fun x => { x with stopReq := true })
  | .run =>
    if b.saving ≠ .no then s.updBlk b.id (fun x => { x with stopReq := true })
    else if b.groups.all (fun g => decide (g.heldLanes = [])) then s
    else s.takeFault b.id ⟨0x13, b.lowestHeld, 0, b.tracePc b.lowestHeld, 0, 0⟩ true

/-- DEBUG_STOP_REQUEST (R266): a write of go to `dc.stopctl`. -/
def execDebugStopRequest (die : Nat) (s : State) : Out :=
  let k := s.die die
  let task := k.stoptLo.toNat + 2 ^ 32 * k.stoptHi.toNat
  match firstOf (fun b => decide (dieOf b.core = die) && decide (b.index = k.stopblk.toNat) && decide (b.trec.addr = task)) s.blocks with
  | some b => .next (s.stopBlock b)
  | none => .next s

/-- TRACE_SAMPLE (R206): one resident group per period, in turn by quadrant and slot; one that has ended is still resident. A period of 0
gives no samples (log entry 70). -/
def execTraceSample (core : Nat) (s : State) : Out :=
  let k := s.core core
  let period := fld k.tracectl.toNat 23 8
  let key := fun (x : Block × Group) => 64 * x.2.quad + x.2.slot
  if period = 0 ∨ s.cycle < k.traceLast + period * 1024 ∨ !bitOf k.tracectl.toNat 0 ∨ ringOff k.tracebase then .next s
  else
    let gs := sortBy key ((s.onCore core).map (fun b => b.groups.map (fun g => (b, g)))).flatten
    let pickd := match gs.filter (fun x => decide (k.traceTurn ≤ key x)) with
      | x :: _ => some x
      | [] => gs.head?
    match pickd with
    | none => .next s
    | some x => .next ((s.setCore core { k with traceTurn := key x + 1, traceLast := s.cycle }).trace 1 x.1 x.2.num 0)

/-- TLB_WALK (R245, R307): on a die that has not stopped, a merged walk ends for every group that waits on it: its core's TLB is filled, or its `translation` is due. -/
def execTlbWalk (die part page : Nat) (s : State) : Out :=
  let k := s.die die
  let mine := fun (x : WalkReq) => decide (x.part = part) && decide (x.page = page)
  if k.dead then .next s else match k.walkq.filter mine with
  | [] => .next s
  | x :: more =>
    let s1 := s.setDie die { k with
      walkq := k.walkq.filter (fun x => !mine x), walks := satInc32 k.walks,
      merged := BitVec.ofNat 32 (satAdd 32 k.merged.toNat more.length) }
    .next ((x :: more).foldl State.walked s1)

/-- REGISTER_UNIT_RETIREMENT (R114): at least one unit stays usable. -/
def execRegisterUnitRetirement (core : Nat) (s : State) : Out :=
  let k := s.core core
  if core < 256 ∧ k.retired < 127 then .next (s.setCore core { k with retired := k.retired + 1 }) else .next s

/-- A stored word with one bit changed: its residue stays (R183). -/
def regFlip (w : RWord) (bit : Nat) : RWord := ⟨w.val ^^^ BitVec.ofNat 32 (2 ^ (bit % 32)), w.res⟩

/-- Count corrected errors of a class of R305: 1 vault, 2 scratchpad, 3 HBM, 5 optical FEC. -/
def State.countCorrected (s : State) (cls : Nat) : State :=
  { s with xd := { s.xd with corrected := tset 0 s.xd.corrected cls (tget 0 s.xd.corrected cls + 1) } }

/-- An HBM sector is found uncorrectable: it is poisoned, and its stack counts it (R287, R291). -/
def State.hbmLost (s : State) (a : Nat) : State :=
  let n := (a - hbmBase) / 2 ^ 30 / 48
  let k := s.hbm n
  { (s.setHbm n { k with unc := satInc32 k.unc }) with poison := insNat (a / 32) s.poison }

/-- SOFT_ERROR (R183, R141, R287, R305). Kinds 0 and 1 change a bit of a word of a group window, or of the block window, where tiles and
their records stand; 2 and 3 are a corrected and an uncorrectable error of a block's scratchpad, 4 and 5 of a vault, 6 an uncorrectable
one of HBM, 7 an error that the optical FEC corrects. `addr` is a byte offset in the window or scratchpad, or a physical address (log
entry 75). -/
def execSoftError (kind blk grp addr bit : Nat) (s : State) : Out :=
  match kind, s.blk blk with
  | 0, some b =>
    let w := addr / 4
    .next (if addr < b.gwinBytes then
        s.updGrp blk grp (fun g => { g with win := tset RWord.zero g.win w (regFlip (tget RWord.zero g.win w) bit) })
      else s)
  | 1, some b =>
    let w := addr / 4
    .next (if addr < b.bwinBytes then
        s.updBlk blk (fun k => { k with bwin := tset RWord.zero k.bwin w (regFlip (k.bw w) bit) })
      else s)
  | 2, some _ => .next (s.countCorrected 2)
  | 3, some b => .next (if addr < spallocOf b.trec then s.updBlk blk (fun k => { k with scrBad := insNat (addr / 8) k.scrBad }) else s)
  | 4, _ => .next (s.countCorrected 1)
  | 5, _ => .next (if inVault addr then { s with vbad := insNat (addr / 8) s.vbad } else s)
  | 6, _ => .next (if inHbm addr then s.hbmLost addr else s)
  | 7, _ => .next (s.countCorrected 5)
  | _, _ => .next s

end Sys2Proof.Machine
end

