-- ==== Sys2Proof/Machine/Fabric.lean ====
section
/-! DEFINITION. The fabric engine's links: package ids, bursts to other packages, slots, relay, link keys, the engine's
registers (R322 to R334, R354). Flit contents are lists of numbers: the spec pictures none (log entry 42). -/
namespace Sys2Proof.Machine

/-- A message to a package on a virtual channel: bursts of at most 31 flits, numbered per destination and channel (R325,
R326, R328). -/
def State.sendFlits (s : State) (dst vc : Nat) : Nat → List (List Nat) → State
  | 0, _ => s
  | fuel + 1, fs =>
    if fs.isEmpty then s
    else
      let key := dst * 8 + vc
      let n := tget 0 s.fab.seqOut key
      let b : Burst := ⟨s.pkgId, dst, vc, n, .own, fs.take 31⟩
      { s with fab := { s.fab with out := s.fab.out ++ [b], seqOut := tset 0 s.fab.seqOut key (n + 1) } }.sendFlits dst vc fuel (fs.drop 31)

/-- Send a message. -/
def State.send (s : State) (dst vc : Nat) (fs : List (List Nat)) : State := s.sendFlits dst vc (fs.length + 1) fs

/-- Bytes as flits of 64. -/
def flitsOf : Nat → List Nat → List (List Nat)
  | 0, _ => []
  | fuel + 1, ns => if ns.isEmpty then [] else ns.take 64 :: flitsOf fuel (ns.drop 64)

/-- The state of a port: the state field of `opt.ctl` (R309, R310). -/
def Port.st (p : Port) : Nat := p.ctl.toNat / 16 % 16

/-- A port whose circuits carry data: state 4, or 5 at half width (R310). -/
def Port.up (p : Port) : Bool := decide (p.st = 4) || decide (p.st = 5)

/-- The partner of a port in a slot (R324); none where the table names none. -/
def State.partner (s : State) (slot p : Nat) : Option Nat :=
  let e := tget 0xFFF s.fab.tbl (slot * 32 + p)
  if e = 0xFFF then none else some e

/-- A burst may go to a partner: its destination, or, across the spine, the package of the destination's pod that holds a member of the
source's own group of four (R329, R330). -/
def reaches (own : Nat) (multi : Bool) (p : Nat) (partner : Nat) (b : Burst) : Bool :=
  decide (b.dst = partner)
  || (multi && decide (28 ≤ p) && decide (b.leg ≠ .relayed) && decide (b.dst / 128 ≠ own / 128) && decide (partner / 128 = b.dst / 128)
      && decide (partner % 128 / 4 = b.src % 128 / 4))

/-- A burst may be relayed through a partner: within its pod over a leaf circuit, to another pod over a spine circuit, and nothing that
has been relayed in the tier already (R327, R329, R330). -/
def mayRelay (own : Nat) (multi : Bool) (p : Nat) (partner : Nat) (b : Burst) : Bool :=
  (decide (b.leg = .own) || decide (b.leg = .landed)) && !reaches own multi p partner b
    && (if b.dst / 128 = own / 128 then (!multi || decide (p < 28)) && decide (partner / 128 = own / 128)
        else multi && decide (28 ≤ p) && decide (partner / 128 ≠ b.dst / 128))

/-- Flit times of a slot for bursts (R325). -/
def slotTimes (half : Bool) : Nat := (if half then 1980 else 3960) - 8

/-- Flit times that a burst takes: its flits and the trailer. -/
def Burst.times (b : Burst) : Nat := b.flits.length + 1

/-- The credit that a burst takes at a partner: its channel's, or relay credit where the partner is to forward it (R327). -/
def creditKey (partner : Nat) (b : Burst) : Nat := 16 * partner + (if b.dst = partner then b.vc else 8)

/-- The partner has granted what a burst needs. The space of an answer was reserved before its request was sent, so channel 7 always goes
(R327). -/
def credited (cred : Sparse Nat) (partner : Nat) (b : Burst) : Bool :=
  (decide (b.vc = 7) && decide (b.dst = partner)) || decide (b.flits.length ≤ tget 0 cred (creditKey partner b))

/-- What a port may still send in a slot: flit times, and the credit that the package holds. -/
structure Budget where
  room : Nat
  cred : Sparse Nat
  deriving DecidableEq, Repr

/-- A burst is paid for. -/
def Budget.pay (x : Budget) (partner : Nat) (b : Burst) : Budget :=
  let k := creditKey partner b
  ⟨x.room - b.times, tset 0 x.cred k (tget 0 x.cred k - b.flits.length)⟩

/-- Take bursts from a list while the slot has room for them, those without credit apart. -/
def Budget.take (x : Budget) (partner : Nat) : List Burst → List Burst × Budget
  | [] => ([], x)
  | b :: rest =>
    if x.room < b.times then ([], x)
    else if credited x.cred partner b then let r := (x.pay partner b).take partner rest
                                           (b :: r.1, r.2)
    else x.take partner rest

/-- Take bursts that are sent again while the slot has room for them: their credit is still theirs. -/
def Budget.again (x : Budget) : List Sent → List Sent × Budget
  | [] => ([], x)
  | b :: rest =>
    if x.room < b.burst.times then ([], x)
    else let r := ({ x with room := x.room - b.burst.times } : Budget).again rest
         (b :: r.1, r.2)

/-- One turn of the weighted round robin: a burst of each channel whose weight allows it a j-th turn in a round (R326). -/
def wrrTurn (weight : Nat → Nat) (j : Nat) (bs : List Burst) : List Burst :=
  (upFrom 0 8).filterMap (fun v => if j < weight v then firstOf (fun b => decide (b.vc = v)) bs else none)

/-- The order in which a port serves bursts: weighted round robin over the eight channels, one burst per turn (R326). -/
def wrrOrder (weight : Nat → Nat) : Nat → Nat → List Burst → List Burst
  | 0, _, _ => []
  | fuel + 1, j, bs =>
    let r := wrrTurn weight j bs
    if r.isEmpty then (if j = 0 then [] else wrrOrder weight fuel 0 bs)
    else r ++ wrrOrder weight fuel (j + 1) (r.foldl (fun xs b => xs.erase b) bs)

/-- The weight of a channel on a port (R332, R354): halved, rounding up, at half width. -/
def State.vcWeight (s : State) (half : Bool) (v : Nat) : Nat :=
  let w := (tget vcwReset s.fab.vcw v).toNat % 256
  if half then (w + 1) / 2 else w

/-- Bursts as a port serves them. -/
def State.served (s : State) (p : Nat) (bs : List Burst) : List Burst :=
  wrrOrder (s.vcWeight (decide ((s.port p).st = 5))) (2 * bs.length + 2) 0 bs

/-- The send window of a destination on a port's circuits (R329, R332). -/
def Port.window (k : Port) : Nat := if k.st = 5 then 2048 else 4096

/-- The bursts of each destination's queue that stand beyond the send window (R329). -/
def beyond (window : Nat) : Sparse Nat → List Burst → List Burst
  | _, [] => []
  | seen, b :: rest =>
    let n := tget 0 seen b.dst + b.flits.length
    if window < n then b :: beyond window (tset 0 seen b.dst n) rest else beyond window (tset 0 seen b.dst n) rest

/-- A port sends bursts to its partner: what it sends waits for acknowledgement, and its flit counter rises by each flit, trailers
too (R325, R333). -/
def State.sendOn (s : State) (p partner : Nat) (bs : List Burst) (cred : Sparse Nat) : State :=
  let k := s.port p
  let f := s.fab
  let s1 := { s with fab := { f with
    out := f.out.filter (fun b => decide (b ∉ bs)), unacked := f.unacked ++ bs.map (fun b => (⟨partner, false, b⟩ : Sent)), cred := cred } }
  s1.setPort p { k with ctr := k.ctr + (bs.map Burst.times).sum }

/-- A port sends lost bursts to the same peer again; `fe.retry` counts them (R325). -/
def State.resendOn (s : State) (p : Nat) (bs : List Sent) : State :=
  let k := s.port p
  let f := s.fab
  let s1 := { s with fab := { f with
    unacked := f.unacked.map (fun x => if x ∈ bs then { x with lost := false } else x), retry := BitVec.ofNat 32 (satAdd 32 f.retry.toNat bs.length) } }
  s1.setPort p { k with ctr := k.ctr + (bs.map (fun x => x.burst.times)).sum }

/-- The preamble of a circuit's other end returns credit (R325, R327). -/
def State.creditReturns (s : State) (partner : Nat) : State :=
  let add := fun (t : Sparse Nat) (v n : Nat) => tset 0 t (16 * partner + v) (tget 0 t (16 * partner + v) + n)
  let t := (upFrom 0 8).foldl (fun t v => add t v (Config.credit partner v s.freeCtr)) s.fab.cred
  { s with fab := { s.fab with cred := add t 8 (Config.relayCredit partner s.freeCtr) }, freeCtr := s.freeCtr + 1 }

/-- The circuits of a slot after their first two steps: port, partner, flit times left. -/
abbrev Circuits := List (Nat × Nat × Nat)

/-- A port's circuit in a slot, steps 1 and 2 of R329: lost bursts of that peer again (R325), what it holds as relay, its own traffic for
the partner (log entry 55). -/
def State.portSlot (s0 : State) (p : Nat) : State × Circuits :=
  let k := s0.port p
  if !k.up then (s0, [])
  else match s0.partner s0.fab.slot p with
    | none => (s0, [])
    | some q =>
      let half := decide (k.st = 5) || Config.peerHalf q s0.freeCtr
      let s := s0.creditReturns q
      let multi := bitOf s.fab.sched.toNat 1
      let x0 : Budget := ⟨min (slotTimes half) (2 ^ 48 - 1 - k.ctr), s.fab.cred⟩
      let held := fun (b : Burst) => decide (b.leg = .relayed) || decide (b.leg = .spine)
      let r0 := x0.again (s.fab.unacked.filter (fun x => x.lost && decide (x.peer = q)))
      let r1 := r0.2.take q (s.served p (s.fab.out.filter (fun b => held b && reaches s.pkgId multi p q b)))
      let r2 := r1.2.take q (s.served p (s.fab.out.filter (fun b => !held b && reaches s.pkgId multi p q b)))
      ((s.resendOn p r0.1).sendOn p q (r1.1 ++ r2.1) r2.2.cred, [(p, q, r2.2.room)])

/-- How a relay choice ranks a circuit: by the partner's relay credit, halved where the port is at half width, which doubles its cost (R329,
R332; log entry 55). -/
def State.relayRank (s : State) (c : Nat × Nat × Nat) : Nat :=
  let n := tget 0 s.fab.cred (16 * c.2.1 + 8)
  if (s.port c.1).st = 5 then n / 2 else n

/-- Step 3 of R329 on one circuit: the excess of the queues is relayed while the partner has relay credit. -/
def State.relaySlot (s : State) (c : Nat × Nat × Nat) : State :=
  let mine := s.fab.out.filter (fun b => decide (b.leg = .own) || decide (b.leg = .landed))
  let bs := (beyond (s.port c.1).window [] mine).filter (mayRelay s.pkgId (bitOf s.fab.sched.toNat 1) c.1 c.2.1)
  let r := (⟨c.2.2, s.fab.cred⟩ : Budget).take c.2.1 (s.served c.1 bs)
  s.sendOn c.1 c.2.1 r.1 r.2.cred

/-- What a slot sends: steps 1 and 2 on every port whose circuit is up, then the excess, over the circuits with the most relay credit
first (R329). -/
def State.slotSends (s : State) : State :=
  let r := (upFrom 0 32).foldl (fun (acc : State × Circuits) p =>
    let x := acc.1.portSlot p
    (x.1, acc.2 ++ x.2)) (s, [])
  let top := r.2.foldl (fun m c => max m (r.1.relayRank c)) 0
  (sortBy (fun c => top - r.1.relayRank c) r.2).foldl State.relaySlot r.1

/-- Of the bursts sent in the slot before, those that failed on the way are lost and wait to be sent again; the others are
acknowledged (R325). -/
def State.resolve (s : State) : State :=
  let r := s.fab.unacked.foldl (fun (acc : List Sent × Nat) x =>
    if x.lost then (acc.1 ++ [x], acc.2)
    else (if Config.burstLost acc.2 then acc.1 ++ [{ x with lost := true }] else acc.1, acc.2 + 1)) ([], s.freeCtr)
  { s with fab := { s.fab with unacked := r.1 }, freeCtr := r.2 }

/-- `fe.half` follows the state of the rotor ports (R332). -/
def State.halfBits (s : State) : State :=
  { s with fab := { s.fab with half := BitVec.ofNat 32 (maskOf ((upFrom 0 32).filter (fun p => decide ((s.port p).st = 5)))) } }

/-- Put a port in a state with a fault code: `opt.stat` keeps its locks, bit 16 says that the port is up; every change of state
raises interrupt bit 3 (R309, R310). -/
def State.portState (s : State) (p st code : Nat) : State :=
  let k := s.port p
  let up := decide (st = 4) || decide (st = 5)
  let s1 := (s.setPort p { k with
    ctl := BitVec.ofNat 32 (fld k.ctl.toNat 31 8 * 256 + st * 16 + k.ctl.toNat % 16)
    stat := BitVec.ofNat 32 (k.stat.toNat % 512 + (if up then 2 ^ 16 else 0) + code * 2 ^ 24) }).halfBits
  if k.st = st then s1 else s1.interrupt 3

/-- The physical wavelength of a data lane (R309). -/
def mapLane (m i : Nat) : Nat := m / 16 ^ i % 16

/-- The lanes 4 to 7 of a map are unused: half width (R310). -/
def mapHalf (m : Nat) : Bool := decide (m / 2 ^ 16 % 2 ^ 16 = 0xFFFF)

/-- The mapped data lanes of a map. -/
def mapUsed (m : Nat) : List Nat := (upFrom 0 (if mapHalf m then 4 else 8)).map (mapLane m)

/-- An accepted eye: at least 24 mV and at least 20/64 UI (R310). -/
def eyeOk (e : Nat) : Bool := decide (24 ≤ e % 65536) && decide (20 ≤ e / 65536 % 256)

/-- The lock bit of a wavelength. -/
def Port.locked (k : Port) (l : Nat) : Bool := bitOf k.stat.toNat l && decide (l < 9)

/-- The eye of a wavelength is accepted. -/
def Port.eyeGood (k : Port) (l : Nat) : Bool := eyeOk (tget 0 k.eye l).toNat

/-- The locks and eyes of the mapped lanes in ascending order, a lane's lock before its eye (R310). -/
def Port.laneCode (k : Port) : List Nat → Nat
  | [] => 0
  | l :: rest => if !k.locked l then 2 else if !k.eyeGood l then 3 else k.laneCode rest

/-- The fault code of the checks of R310; 0 where they pass. -/
def Port.check (k : Port) : Nat :=
  let used := mapUsed k.lanemap.toNat
  if used.any (fun l => decide (8 < l)) || !decide used.Nodup then 5 else k.laneCode used

/-- The checks of a request for state 4, and of a map that takes effect in service (R310, R313). A port at half width stays so until it
is brought up again (R332). -/
def State.portUp (s : State) (p : Nat) : State :=
  let k := s.port p
  let code := k.check
  if code ≠ 0 then s.portState p 8 code else s.portState p (if mapHalf k.lanemap.toNat || decide (k.st = 5) then 5 else 4) 0

/-- Deliver the held bursts of a source and channel that are next in its order (R328); one whose flits were discarded before it was sent
brings nothing (R391). -/
def State.deliverNext (s : State) (src vc : Nat) : Nat → State
  | 0 => s
  | fuel + 1 =>
    let key := src * 8 + vc
    let n := tget 0 s.fab.seqIn key
    match firstOf (fun (b : Burst) => decide (b.src = src) && decide (b.vc = vc) && decide (b.seq = n)) s.fab.early with
    | none => s
    | some b =>
      { s with fab := { s.fab with
          early := s.fab.early.filter (fun x => decide (x ≠ b)), arrived := if b.flits.isEmpty then s.fab.arrived else s.fab.arrived ++ [b],
          seqIn := tset 0 s.fab.seqIn key (n + 1) } }.deliverNext src vc fuel

/-- The partition of a channel. -/
def State.chanPart (s : State) (ch : Nat) : Nat := (s.chan ch).part.toNat

/-- Retry notices among the delivered bursts of VC 7 become flits to be sent again (R347). -/
def State.takeNotices (s : State) : State :=
  let isNote := fun (b : Burst) => decide (b.vc = 7) && decide ((b.flits.headD []).headD 0 = 0x100)
  (s.fab.arrived.filter isNote).foldl (fun t b =>
    let h := b.flits.headD []
    let id := (t.fab.resends.map (fun r => r.id + 1)).foldl max 0
    let gid := nth 0 h 3
    let m := [nth 0 h 10, nth 0 h 1, nth 0 h 2, gid, nth 0 h 4, nth 0 h 5, nth 0 h 6, nth 0 h 7, nth 0 h 8, nth 0 h 9]
    let back : Burst := ⟨t.pkgId, b.src, 1 + gid / 2 ^ 14, 0, .own, m :: b.flits.drop 1⟩
    { t with fab := { t.fab with
        resends := t.fab.resends ++ [⟨id, t.chanPart (nth 0 h 1), nth 0 h 2, t.cycle, back⟩],
        arrived := t.fab.arrived.erase b } }) s

/-- `fe.relay`: the relay buffer in use, in 4 KiB units (R329, R354). -/
def Fabric.relay (f : Fabric) : Nat := (((f.out.filter (fun b => decide (b.leg ≠ .own))).map (fun b => b.flits.length)).sum * 64 + 4095) / 4096

/-- A burst for another package is held in the relay buffer of 32 MiB, where it fits (R329, R330): what comes over the spine for this pod has
landed, what comes over it for another crosses it once more, what comes over a leaf circuit goes to its destination. -/
def State.holdRelay (s : State) (p : Nat) (b : Burst) : State :=
  let spine := bitOf s.fab.sched.toNat 1 && decide (28 ≤ p)
  let c : Burst := { b with leg := if !spine then .relayed else if b.dst / 128 = s.pkgId / 128 then .landed else .spine }
  let f : Fabric := { s.fab with out := s.fab.out ++ [c] }
  if c ∈ s.fab.out ∨ 8192 < f.relay then s else { s with fab := f }

/-- BURST_RECEIVED (R324, R325, R328, R329, R331): discarded where its FEC (`ok` 0) or its tag fails or the sender is not the table's
partner; relayed traffic is held for its destination, the package's own is delivered in its source's order. A burst of a sequence
number already delivered is a repeat. `path` is 4096 × the source package + the destination package. -/
def execBurstReceived (p sender slot ok vc seq path : Nat) (flits : List (List Nat)) (s : State) : Out :=
  if ok = 0 ∧ p < 32 ∧ s.fab.locked then .next (s.setPort p { s.port p with fecBad := true })
  else if ok ≠ 1 ∨ !s.fab.locked ∨ s.partner (slot % 127) p ≠ some sender ∨ 31 < flits.length ∨ 8 ≤ vc then .next s
  else
    let src := path / 4096
    let b : Burst := ⟨src, path % 4096, vc, seq, .own, flits⟩
    if path % 4096 ≠ s.pkgId then .next (s.holdRelay p b)
    else if seq < tget 0 s.fab.seqIn (src * 8 + vc) ∨ b ∈ s.fab.early then .next s
    else .next (({ s with fab := { s.fab with early := s.fab.early ++ [b] } }.deliverNext src vc (s.fab.early.length + 1)).takeNotices)

/-- The engine serves the oldest delivered burst of a source on a channel. -/
def State.serve (s : State) (src vc : Nat) : State :=
  match firstOf (fun (b : Burst) => decide (b.src = src) && decide (b.vc = vc)) s.fab.arrived with
  | none => s
  | some b => { s with fab := { s.fab with arrived := s.fab.arrived.erase b } }

/-- `fe.slot` (R324, R354). -/
def Fabric.slotReg (f : Fabric) : Nat := f.slot + (if f.locked then 2 ^ 31 else 0)

/-- KEY_REQUEST_THRESHOLD (R334, R355). The two Nirrax ports ask too; `fe.keyreq` shows the bits of the rotor ports alone (log entry 85). -/
def execKeyRequestThreshold (p : Nat) (s : State) : Out :=
  if p < 34 ∧ 2 ^ 47 ≤ (s.port p).ctr ∧ !bitOf s.fab.keyreq.toNat p then
    .next ({ s with fab := { s.fab with keyreq := s.fab.keyreq ||| BitVec.ofNat 34 (2 ^ p) } }.interrupt 3)
  else .next s

/-- FE_KEYUSE_WRITE (R334): a port whose bit changes sends under the other slot with its counter at 0. -/
def execFeKeyuseWrite (val : Nat) (s : State) : Out :=
  let old := s.fab.keyuse.toNat
  let s1 := (upFrom 0 32).foldl (fun t p =>
    if bitOf old p ≠ bitOf val p then t.setPort p { t.port p with ctr := 0 } else t) s
  let keep := maskOf ((upFrom 0 32).filter (fun p => decide (bitOf old p = bitOf val p)))
  .next { s1 with fab := { s1.fab with keyuse := BitVec.ofNat 32 val, keyreq := s1.fab.keyreq &&& BitVec.ofNat 34 (keep + 3 * 2 ^ 32) } }

/-- FE_KEYDATA_WRITE (R354): the selected slot's words, low word first, eight of them. -/
def execFeKeydataWrite (val : Nat) (s : State) : Out :=
  let p := s.fab.keysel.toNat % 32
  let k := s.port p
  let i := k.keyPos % 8
  let put := fun (ws : List W32) => setNth (BitVec.ofNat 32 val) (ws ++ copies (8 - ws.length) 0) i
  let k1 := if bitOf s.fab.keysel.toNat 8 then { k with key1 := put k.key1 } else { k with key0 := put k.key0 }
  .next (s.setPort p { k1 with keyPos := (i + 1) % 8 })

/-- Write `fe.sched` (R322, R324): as bit 0 is set the engine locks to the switches' slot clock, which stands at a free value. -/
def State.writeSched (s : State) (val : Nat) : State :=
  let s1 := { s with fab := { s.fab with sched := BitVec.ofNat 32 (val % 4), locked := bitOf val 0 } }
  if bitOf val 0 && !s.fab.locked then
    { s1 with fab := { s1.fab with slot := Config.slotNow s.freeCtr % 127 }, freeCtr := s.freeCtr + 1 }
  else s1

/-- FE_SCHED_LOCK (R324). -/
def execFeSchedLock (val : Nat) (s : State) : Out := .next (s.writeSched val)

/-- FE_TBLDATA_WRITE (R324, R354): ignored while `fe.sched` bit 0 is 1. -/
def execFeTbldataWrite (val : Nat) (s : State) : Out :=
  if bitOf s.fab.sched.toNat 0 then .next s
  else
    let sel := s.fab.tblsel.toNat
    let slot := sel % 128
    let port := sel / 256 % 32
    if 126 < slot then .next s
    else .next { s with fab := { s.fab with tbl := tset 0xFFF s.fab.tbl (slot * 32 + port) (val % 4096) } }

/-- FE_CHPART_WRITE (R354): ignored for a channel with collectives posted or tiles staged. -/
def execFeChpartWrite (ch val : Nat) (s : State) : Out :=
  let k := s.chan ch
  if 64 ≤ ch ∨ k.posts ≠ [] ∨ k.tiles ≠ 0 then .next s
  else .next (s.setChan ch { k with part := BitVec.ofNat 32 (val % 256) })

end Sys2Proof.Machine
end

