-- ==== Sys2Proof/Machine/Copy.lean ====
section
/-! DEFINITION. The copy engines: a packet begins, its chunks land, it ends; fences, abandoned slots, restart of a stopped queue;
the source side of remote packets (R14, R143, R252 to R263, R335 to R339). -/
namespace Sys2Proof.Machine

/-- The virtual channel of a remote packet's mode (R326). -/
def remoteVc (mode : Nat) : Nat := if mode = 9 then 6 else 5

/-- The package that a remote packet targets (R335). -/
def pktTarget (pkt : List Byte) : Nat := leAt pkt 0x28 4 % 4096

/-- The local address of a remote packet (R335). -/
def pktNear (pkt : List Byte) : Nat := if pktMode pkt = 6 then pktDst pkt else pktSrc pkt

/-- The remote address of a remote packet (R335). -/
def pktFar (pkt : List Byte) : Nat := if pktMode pkt = 6 then pktSrc pkt else pktDst pkt

/-- The bytes of a remote atomic's word (R335, R339). -/
def pktWord (pkt : List Byte) : Nat := if bitOf (leAt pkt 0x2C 4) 8 then 8 else 4

/-- A remote packet keeps the limits of R335 and R339. -/
def State.remoteOk (s : State) (pkt : List Byte) : Bool :=
  let m := pktMode pkt
  let w := leAt pkt 0x2C 4
  decide (leAt pkt 0x28 4 < 2 ^ 17) && decide (pktTarget pkt ≠ s.pkgId) && decide (regionOf (pktNear pkt) ≠ .scr)
    && (if m = 8 then decide (pktLen pkt % 4 = 0) && decide (w < 2)
        else if m = 9 then
          decide (w < 512) && decide (8 ≤ w % 256) && decide (w % 256 ≤ 0x13) && !(decide (w % 256 = 0x13) && bitOf w 8)
            && decide (pktDst pkt % pktWord pkt = 0)
        else true)

/-- A packet names the scratchpad window, in its addresses or in its gather list. -/
def namesScr (pkt : List Byte) (gl : List (Nat × Nat)) : Bool :=
  decide (regionOf (pktDst pkt) = .scr) || (decide (pktMode pkt ≠ 5) && decide (regionOf (pktSrc pkt) = .scr))
    || gl.any (fun e => decide (regionOf e.1 = .scr))

/-- Chunks of a packet; an atomic sets bit 0 alone (R254, R339). -/
def packetChunks (pkt : List Byte) (gl : List (Nat × Nat)) : Nat := chunksOf (streamBytes pkt gl)

/-- A packet keeps the limits of R254, R255, R256 and R335, those that its gather list sets (`gl`) among them. A window packet with Ho × Wo = 0,
by which R256 would divide, is a packet error (log entry 61). -/
def State.packetOk (s : State) (pkt : List Byte) (gl : List (Nat × Nat)) : Bool :=
  let m := pktMode pkt
  let scrDst := decide (regionOf (pktDst pkt) = .scr)
  pktClean pkt && decide (streamBytes pkt gl ≤ 262144)
    && (m = 15 || (
      (posted pkt || !namesScr pkt gl)
      && (!scrDst || (decide (m ∈ [0, 2, 3, 4, 5]) && decide ((pktDst pkt - scrBase) % 512 = 0)))
      && (m ≠ 3 || (decide (1 ≤ pktLen pkt) && decide (pktLen pkt ≤ 512) && decide (leAt pkt 0x24 2 * leAt pkt 0x26 2 ≠ 0)))
      && (decide (m < 6) || s.remoteOk pkt)))

/-- The pixels of a window packet that overrun the batch (R256). -/
def overrunOf (pkt : List Byte) : Nat :=
  if pktMode pkt = 3 then ((upFrom 0 (pktRows pkt)).filter (fun i => (windowPixel pkt i).2)).length else 0

/-- A line is among the destination lines of a packet whose `n` bytes go to offset `o` of a scratchpad: those of a 2-D packet stand row by
row (R254). -/
def destLine (pkt : List Byte) (o n l : Nat) : Bool :=
  if pktMode pkt = 1 then
    let ds := leAt pkt 0x24 4
    let w := pktLen pkt
    -- The first row that ends behind the line's beginning.
    let r := if 512 * l < o + w then 0 else if ds = 0 then pktRows pkt else (512 * l - (o + w)) / ds + 1
    decide (r < pktRows pkt) && decide (o + r * ds < 512 * l + 512)
  else decide (o / 512 ≤ l) && decide (l ≤ (o + n - 1) / 512)

/-- Clear the presence bits of a packet's destination lines, those of its `n` bytes from dst on (R14, R143). -/
def State.clearLines (s : State) (pkt : List Byte) (n : Nat) : State :=
  if regionOf (pktDst pkt) = .scr ∧ pktMode pkt ≤ 6 ∧ n ≠ 0 then
    match s.ownerBlk pkt with
    | none => s
    | some b =>
      let o := pktDst pkt - scrBase
      let ls := (upFrom 0 b.lines).filter (destLine pkt o n)
      s.updBlk b.id (fun x => { x with absent := ls.foldl (fun acc l => insNat l acc) x.absent })
  else s

/-- The engine of a queue belongs to a die that has stopped (R1, R6, R307): it moves nothing. -/
def State.engineDead (s : State) (q : CQueue) : Bool := (s.die (q.eng / 24)).dead

/-- A packet ends before any chunk of it lands: with the chunks it has where its list says so, else a free count (R257). -/
def State.endsEarly (s : State) (q : CQueue) (f : Inflight) : State :=
  let known := match s.gatherList q (s.ownerBlk f.pkt) f.pkt with
    | .inl gl => if pktMode f.pkt ≤ 9 ∨ pktMode f.pkt = 15 then some (packetChunks f.pkt gl) else none
    | .inr _ => none
  match known with
  | some n => s.updQ q.num (fun x => { x with infl := some { f with total := n, done := true } })
  | none => { (s.updQ q.num (fun x => { x with infl := some { f with total := Config.chunkCount s.freeCtr, done := true } })) with
      freeCtr := s.freeCtr + 1 }

/-- The bytes of the next chunk of a remote packet. -/
def nextLen (f : Inflight) : Nat := if pktMode f.pkt = 9 then pktWord f.pkt else min 512 (pktLen f.pkt - 512 * f.next)

/-- Send the request for the next chunk of a remote packet, with the local bytes that it carries; the space of its answer is reserved before
(R327, R335, R338, R339). -/
def State.askRemote (s : State) (q : CQueue) (f : Inflight) : State :=
  let p := f.pkt
  let m := pktMode p
  let t := leAt p 0x28 4
  let hdr := [q.num, q.part, m, t / 4096 % 32, pktFar p + 512 * f.next, nextLen f, leAt p 0x2C 4, leAt p 0x30 8, leAt p 0x38 8]
  let body := if m = 7 ∨ m = 8 then s.engineBytes q.part none (pktNear p + 512 * f.next) (nextLen f) else .inl []
  match body with
  | .inr e => s.failChunk q f e
  | .inl bs =>
    let s1 := { s with fab := { s.fab with remotes := (s.fab.remotes.filter (fun (x : Nat × Nat) => decide (x.1 ≠ q.num))) ++ [(q.num, s.cycle)] } }
    s1.send (pktTarget p) (remoteVc m) (hdr :: flitsOf 9 (natBytes bs))

/-- The engine begins a packet that is not abandoned (R14, R253 to R256): its destination lines become absent, also where it ends with a
packet error. One whose list cannot be read clears none, since its lines are not known (log entry 61). -/
def State.beginPacket (s : State) (q : CQueue) (i : Nat) (pkt : List Byte) : State :=
  let s1 := s.setQState q.off 1
  let own := s1.ownerBlk pkt
  let base : Inflight := ⟨i, pkt, 0, 0, 0, 0, 0xFFFF, 0, 0, s.cycle % 2 ^ 32, false, false, 0, []⟩
  let error := fun (gl : List (Nat × Nat)) => (s1.clearLines pkt (streamBytes pkt gl)).endsEarly q { base with status := 5 }
  if !s1.packetOk pkt [] then
    error (match s1.gatherList q own pkt with | .inl gl => gl | .inr _ => [])
  else if regionOf (pktDst pkt) = .scr ∧ pktMode pkt ≤ 6 ∧ own.isNone then s1.endsEarly q { base with status := 2 }
  else match s1.gatherList q own pkt with
  | .inr e => s1.endsEarly q { base with status := e, failing := 0 }
  | .inl gl =>
    if !s1.packetOk pkt gl then error gl
    else
      let n := packetChunks pkt gl
      let f : Inflight := { base with total := n, overrun := overrunOf pkt, remote := decide (6 ≤ pktMode pkt) && decide (pktMode pkt ≤ 9),
                                      done := decide (n = 0) && decide (pktMode pkt ≠ 15) }
      let s2 := (s1.clearLines pkt (streamBytes pkt gl)).updQ q.num (fun x => { x with infl := some f })
      if f.remote && !f.done then s2.askRemote q f else s2

/-- PACKET_BEGIN (R253, R257, R260): the engine takes the index at ridx once it is claimed and its slot is valid; an abandoned
packet is not begun and ends with status 3. -/
def execPacketBegin (q : Nat) (s : State) : Out :=
  let s1 := s.writeKept q
  match s1.queue q with
  | none => .next s
  | some k =>
    let i := s1.qRidx k.off
    if k.infl.isSome || s1.engineDead k || s1.qStopped k.off || decide (i = s1.qWidx k.off) || !s1.qValid k i then .next s1
    else if i ∈ k.abandoned then
      .next (s1.endsEarly k ⟨i, s1.qPacket k i, 0, 0, 0, 3, 0xFFFF, 0, 0, s1.cycle % 2 ^ 32, true, false, 0, []⟩)
    else .next (s1.beginPacket k i (s1.qPacket k i))

/-- The answer to a remote request lands: a status, then the bytes of a read or of an atomic's old value (R336, R338, R339). -/
def State.landRemote (s : State) (q : CQueue) (f : Inflight) (data : List Nat) : State :=
  let gone := fun (t : State) => { t with fab := { t.fab with remotes := t.fab.remotes.filter (fun x => decide (x.1 ≠ q.num)) } }
  let s0 := gone (s.serve (pktTarget f.pkt) 7)
  let p := f.pkt
  let m := pktMode p
  let bs := byteList (data.drop 1)
  let n := nextLen f
  if data.headD 6 ≠ 0 then s0.failChunk q f 6
  else
    let addr := if m = 9 then pktSrc p else pktDst p + 512 * f.next
    let put := if m = 6 ∨ (m = 9 ∧ pktSrc p ≠ 0) then s0.enginePut q.part none ((upFrom addr n).zip (padTo n (bs.take n))) else .inl s0
    match put with
    | .inr e => s0.failChunk q f e
    | .inl s1 =>
      let g : Inflight := { f with next := f.next + 1, landed := f.landed + 1, written := f.written + n, done := decide (f.total ≤ f.next + 1) }
      let s2 := (s1.setChunkBit q p f.next).updQ q.num (fun x => { x with infl := some g })
      if g.done then s2 else s2.askRemote q g

/-- CHUNK_LANDING (R143, R254, R255, R338): the next chunk of the packet in flight. -/
def execChunkLanding (q : Nat) (data : List Nat) (s : State) : Out :=
  match s.queue q with
  | none => .next s
  | some k => match k.infl with
    | none => .next s
    | some f =>
      if f.done || s.engineDead k || decide (pktMode f.pkt = 15) then .next s
      else if f.remote then .next (s.landRemote k f data)
      else match s.landLocal k f with
        | .inl t => .next t
        | .inr e => .next (s.failChunk k f e)

/-- The end of a packet: its record, ridx, the queue's state, and what a failure does (R257, R258). -/
def State.finishPacket (s : State) (k : CQueue) (f : Inflight) : State :=
  let s2 := s.endPacket k f
  if f.status = 0 ∨ f.status = 3 then s2
  else match (if posted f.pkt then s2.ownerBlk f.pkt else none) with
    | none => s2.setQState k.off 2
    | some b =>
      let w := leAt f.pkt 4 4
      let grp := if bitOf w 26 then 0x11 else fld w 11 8
      let chunk := if f.failing = 0xFFFF then 0 else f.failing % 512
      (s2.abandonAll b).1.asyncFault b.id ⟨0x10, grp, 0, b.tracePc grp, k.num % 1024 * 2 ^ 54 + chunk * 2 ^ 32 + f.idx % 2 ^ 32, 0⟩

/-- PACKET_COMPLETION (R257, R258). -/
def execPacketCompletion (q : Nat) (s : State) : Out :=
  match s.queue q with
  | none => .next s
  | some k => match k.infl with
    | none => .next s
    | some f => .next (if f.done && !s.engineDead k then s.finishPacket k f else s)

/-- One entry of a fence is satisfied (R261). -/
def State.fenceMet (s : State) (k : CQueue) (e : Nat) : Bool :=
  let idx := e / 2 ^ 32
  let n := e / 2 ^ 16 % 1024
  (decide (idx = 0) && decide (n = 0)) || decide (n = k.num)
    || (match s.queue n with
      | some z => decide ((s.qRidx z.off + 2 ^ 32 - idx) % 2 ^ 32 < 2 ^ 31)
      | none => false)

/-- FENCE_PACKET (R261). -/
def execFencePacket (q : Nat) (s : State) : Out :=
  match s.queue q with
  | none => .next s
  | some k => match k.infl with
    | none => .next s
    | some f =>
      if pktMode f.pkt = 15 ∧ !f.done ∧ !s.engineDead k ∧ (upFrom 0 7).all (fun j => s.fenceMet k (leAt f.pkt (8 + 8 * j) 8)) then
        .next (s.finishPacket k f)
      else .next s

/-- ABANDONED_SLOT_WRITE (R260). -/
def execAbandonedSlotWrite (q : Nat) (s : State) : Out := .next (s.writeKept q)

/-- QUEUE_RESTART (R258): the host's write of 1 to the state of a stopped queue of its partition. -/
def execQueueRestart (vf q : Nat) (s : State) : Out :=
  match s.queue q with
  | none => .next s
  | some k => .next (if (s.vf vf).part = some k.part ∧ s.qStopped k.off then s.setQState k.off 1 else s)

/-- REMOTE_TIMEOUT (R336): the target has not been reachable for 1 ms, which is 4,000,000 cycles. -/
def execRemoteTimeout (q : Nat) (s : State) : Out :=
  match s.queue q with
  | none => .next s
  | some k => match k.infl with
    | none => .next s
    | some f =>
      if f.remote && !f.done && s.fab.remotes.any (fun x => decide (x.1 = q) && decide (x.2 + 4000000 ≤ s.cycle)) then
        .next (s.failChunk k f 6)
      else .next s

end Sys2Proof.Machine
end

