-- ==== Sys2Proof/Machine/Remote.lean ====
section
/-! DEFINITION. The target side of remote packets: the peering table, remote reads, writes and reductions, the ingress atomic
cache and its leases (R248, R336 to R340). -/
namespace Sys2Proof.Machine

/-- An entry of a peering table grants a source (R337). -/
def grants (e pkg part : Nat) : Bool :=
  bitOf e 31 && (bitOf e 30 || decide (e % 4096 = pkg)) && (bitOf e 29 || decide (fld e 20 16 = part))

/-- The peering table of a partition grants a source (R337). -/
def State.granted (s : State) (dpart pkg spart : Nat) : Bool :=
  let t := s.homeLe ((s.part dpart).cfg.nx + 0x38) 8
  (s.part dpart).on && decide ((s.part dpart).cfg.nx ≠ 0) && decide (t ≠ 0)
    && (upFrom 0 256).any (fun i => grants (s.homeLe (t + 4 * i) 4) pkg spart)

/-- A refused or failed request: counted, and answered with status 6 (R336). -/
def State.remoteFail (s : State) (pkg : Nat) : State :=
  { s with fab := { s.fab with rfail := satInc32 s.fab.rfail } }.send pkg 7 [[6]]

/-- The homes of a remote range, byte by byte: the scratchpad and host windows are not reached (R336, R339). -/
def State.remoteAt (s : State) (p : Nat) (k : Acc) (a n : Nat) : List Nat ⊕ Nat :=
  collect ((upFrom a n).map (fun x => match regionOf x with
    | .sync => if syncSlice x ∈ (s.part p).cfg.slices then .inl x else .inr 2
    | .mem => match s.xlateNow p k x with
      | .ok pa => if decide (k = .wr) && s.inMirror p pa then .inr 2 else .inl pa
      | _ => .inr 1
    | _ => .inr 2))

/-- Bytes written at consecutive homes, joined into runs. -/
def State.putHomes (s : State) (pas : List Nat) (bs : List Byte) : State :=
  (joinRuns ((pas.map (fun a => (0, a))).zip bs)).foldl (fun t r => t.homeWrite r.1.2 r.2) s

/-- The f32 elements of a reduction with those at the home (R338). -/
def reduceWords (mx : Bool) : Nat → List Byte → List Byte → List Byte
  | 0, _, _ => []
  | fuel + 1, old, new =>
    if new.length < 4 then []
    else
      let a := leAt old 0 4
      let b := leAt new 0 4
      toLe 4 (if mx then fmaxCode a b else f32Add .rne a b) ++ reduceWords mx fuel (old.drop 4) (new.drop 4)

/-- The byte of one address as a cuff read sees it: the shadow copy where one exists, the live page otherwise (R383). -/
def State.cuffByte (s : State) (p a : Nat) : Byte :=
  let k := s.part p
  match firstOf (fun (x : Nat × Nat) => decide (x.1 = a / 65536)) k.shadow with
  | some x => s.homeByte (s.homeLe (k.cfg.nx + 0x18) 8 + 65536 * x.2 + a % 65536)
  | none => s.homeByte a

/-- The ranges of a clone map, base and length (R382, R386). -/
def State.mapRanges (s : State) (part : Nat) : List (Nat × Nat) :=
  let nx := (s.part part).cfg.nx
  (upFrom 0 16).map (fun i => (s.homeLe (nx + 0x40 + 16 * i) 8, s.homeLe (nx + 0x48 + 16 * i) 8))

/-- The runs of addresses that `n` bytes of a list of ranges, from the byte `off` of them on, stand at. -/
def runsOf : List (Nat × Nat) → Nat → Nat → List (Nat × Nat)
  | [], _, _ => []
  | (a, m) :: rest, off, n =>
    if m ≤ off then runsOf rest (off - m) n
    else
      let k := min (m - off) n
      if k = 0 then [] else (a + off, k) :: runsOf rest 0 (n - k)

/-- Stripe `i` of a clone map, which is cut into 1 MiB in range order (R384). -/
def State.stripe (s : State) (part i : Nat) : List (Nat × Nat) := runsOf (s.mapRanges part) (1048576 * i) 1048576

/-- How many stripes a clone map has (R384). -/
def State.stripeCount (s : State) (part : Nat) : Nat := (((s.mapRanges part).map Prod.snd).sum + 1048575) / 1048576

/-- The moves that wait for a page of a cuff are made again (R383). -/
def State.unpark (s : State) : State := { s with agenda := s.parked.map (fun m => (⟨0, m⟩ : Turn)) ++ s.agenda, parked := [] }

/-- A join engine's read on VC 0, which `membership` authorises (R337, R383, R384): mode 0 a stripe of the clone map, by its number, whose
pages have so been read; mode 1 the object image. It ends with status 6 where no cuff is open for the sender. -/
def State.cuffRead (s : State) (pkg part mode i : Nat) : State :=
  let s0 := s.serve pkg 0
  let k := s0.part part
  if !k.cuff.isSome ∨ leAt (tget [] k.objs 0) 6 2 ≠ pkg then s0.send pkg 7 [[6]]
  else
    let runs := s0.stripe part i
    let pages := (runs.map (fun r => upFrom (r.1 / 65536) (r.2 / 65536))).flatten
    let bs := if mode = 0 then (runs.map (fun r => (upFrom r.1 r.2).map (s0.cuffByte part))).flatten
      else s0.homeBytes (s0.homeLe (k.cfg.nx + 0x18) 8) k.imgLen
    let s1 := if mode = 0 then (s0.setPart part { k with seen := k.seen ++ pages.filter (fun x => decide (x ∉ k.seen)) }).unpark else s0
    s1.send pkg 7 ([0] :: flitsOf (bs.length + 1) (natBytes bs))

/-- REMOTE_REQUEST_INGRESS (R336 to R338): modes 6, 7 and 8 at the target's homes; modes 0 and 1 stand for the reads of a join
engine, which carry no packet mode: a stripe, whose number stands as the address, and the object image (R384; log entry 53). -/
def execRemoteRequestIngress (pkg spart mode dpart addr len mx : Nat) (data : List Nat) (s : State) : Out :=
  if mode ≤ 1 then .next (s.cuffRead pkg dpart mode addr) else
  let s0 := s.serve pkg 5
  let n := min len 512
  let bs := padTo n ((byteList data).take n)
  if !s0.granted dpart pkg spart || !(decide (mode = 6) || decide (mode = 7) || decide (mode = 8)) then .next (s0.remoteFail pkg)
  else
    let rd := s0.remoteAt dpart .rd addr n
    let wr := s0.remoteAt dpart .wr addr n
    if mode = 6 then
      match rd with
      | .inr _ => .next (s0.remoteFail pkg)
      | .inl pas =>
        if pas.any (fun a => s0.poisonedIn a 1) then .next (s0.remoteFail pkg)
        else .next (s0.send pkg 7 ([0] :: flitsOf 9 (natBytes (pas.map s0.homeByte))))
    else if mode = 7 then
      match wr with
      | .inr _ => .next (s0.remoteFail pkg)
      | .inl pas => .next ((s0.putHomes pas bs).send pkg 7 [[0]])
    else
      match rd, wr with
      | .inl _, .inl pas =>
        if pas.any (fun a => s0.poisonedIn a 1) then .next (s0.remoteFail pkg)
        else .next ((s0.putHomes pas (reduceWords (decide (mx = 1)) (n + 1) (pas.map s0.homeByte) bs)).send pkg 7 [[0]])
      | _, _ => .next (s0.remoteFail pkg)

/-- Lease the line of an address, in its home's order: the oldest lease makes room (R340). -/
def State.lease (s : State) (pa : Nat) : State :=
  let live := match leaseAt s.leases pa with
    | some l => decide (s.cycle < l.until_)
    | none => false
  if live then s
  else
    let s1 := s.recall pa 1
    let s2 := match s1.leases with
      | l :: _ => if 4096 ≤ s1.leases.length then s1.recall (64 * l.line) 64 else s1
      | [] => s1
    { s2 with leases := s2.leases ++ [⟨pa / 64, s2.homeBytes (pa / 64 * 64) 64, s.cycle + 16000⟩] }

/-- Change bytes of a leased line. -/
def State.leaseWrite (s : State) (pa : Nat) (bs : List Byte) : State :=
  { s with leases := mapIf (fun l => decide (l.line = pa / 64)) (fun l => { l with data := patch l.data (pa % 64) bs }) s.leases }

/-- The record-and-replay descriptor in force in a partition for party 15: that of the task released last (R279; log entry 40). -/
def State.rrOf (s : State) (p : Nat) : Option RrDesc :=
  (s.grids.filter (fun g => decide (g.trec.part = p))).reverse.findSome? (fun g => g.rr)

/-- REMOTE_ATOMIC_INGRESS (R248, R337, R339, R340): party 15 under record and replay, where it waits until the gauntlet admits it; one that
comes after the log is consumed has no effect (log entry 40). The mirror range takes none, `atld` neither (R361). -/
def execRemoteAtomicIngress (pkg spart dpart addr op w64 x b2 : Nat) (s : State) : Out :=
  let s0 := s.serve pkg 6
  let n := if w64 = 1 then 8 else 4
  let o := atOpOf op
  if !s0.granted dpart pkg spart || decide (op < 8) || decide (0x13 < op) || decide (addr % n ≠ 0) then .next (s0.remoteFail pkg)
  else match s0.remoteAt dpart .rd addr n, (if o.writes then s0.remoteAt dpart .wr addr n else .inl []) with
    | .inl pas, .inl _ =>
      let pa := pas.headD 0
      let d := s0.rrOf dpart
      let gate := match d with | none => Gate.free | some r => s0.gateOf dpart r 15 addr
      if s0.poisonedIn pa n || s0.inMirror dpart pa then .next (s0.remoteFail pkg)
      else match gate with
        | .hold _ => .next s
        | .consumed => .next s
        | _ =>
          let s1 := (s0.passGate dpart d gate).lease pa
          let old := s1.homeLe pa n
          let r := o.f (8 * n) old (x % 2 ^ (8 * n)) (b2 % 2 ^ (8 * n)) 0
          let s2 := if o.writes then (s1.cuffs pa n).leaseWrite pa (toLe n r.1) else s1
          .next (s2.send pkg 7 [[0], natBytes (toLe n old)])
    | _, _ => .next (s0.remoteFail pkg)

/-- LEASE_EXPIRY (R340): the line is written back and its lease ends. -/
def execLeaseExpiry (line : Nat) (s : State) : Out :=
  match leaseAt s.leases (64 * line) with
  | none => .next s
  | some l => .next (if l.until_ ≤ s.cycle then s.recall (64 * line) 64 else s)

end Sys2Proof.Machine
end

