-- ==== Sys2Proof/Machine/Coll.lean ====
section
/-! DEFINITION. The collective sequencer: heads of channels, shards and contributions, reduction, generations at ingress,
restart, completion (R54, R341 to R349, R391). -/
namespace Sys2Proof.Machine

/-- The fields of a collective packet (R343). -/
def Coll.op (c : Coll) : Nat := leAt c.pkt 0 1
def Coll.flags (c : Coll) : Nat := leAt c.pkt 1 1
def Coll.dt (c : Coll) : Nat := leAt c.pkt 2 1
def Coll.red (c : Coll) : Nat := leAt c.pkt 3 1
def Coll.gid (c : Coll) : Nat := leAt c.pkt 6 2
def Coll.root (c : Coll) : Nat := leAt c.pkt 0x0A 2
def Coll.total (c : Coll) : Nat := leAt c.pkt 0x0C 4
def Coll.src (c : Coll) : Nat := leAt c.pkt 0x10 8
def Coll.dst (c : Coll) : Nat := leAt c.pkt 0x18 8
def Coll.recAt (c : Coll) : Nat := leAt c.pkt 0x20 8
def Coll.bitmap (c : Coll) : Nat := syncBase + leAt c.pkt 0x28 4
def Coll.bit (c : Coll) : Nat := leAt c.pkt 0x2C 2

/-- Bytes of an element (R343). -/
def Coll.w (c : Coll) : Nat := match c.dt with | 0 => 4 | 1 => 2 | _ => 1

/-- Elements of a shard, S = ceil(E / L) (R344). -/
def Coll.shard (c : Coll) : Nat := (c.total + c.live.length - 1) / max 1 c.live.length

/-- The first element of the shard of the i-th live rank, and the end of it (R344). -/
def Coll.lo (c : Coll) (i : Nat) : Nat := min (i * c.shard) c.total

/-- This package's place among the live ranks. -/
def Coll.pos (c : Coll) : Nat := (c.live.filter (fun r => decide (r < c.rank))).length

/-- The first element that this rank's source holds, and how many it holds (R345). -/
def Coll.base (c : Coll) : Nat := if c.op = 2 then c.lo c.pos else 0
def Coll.need (c : Coll) : Nat :=
  if c.op ≤ 1 then c.total
  else if c.op = 2 then c.lo (c.pos + 1) - c.lo c.pos
  else if c.root = c.rank then c.total else 0

/-- Two contributions combined (R54, R94). -/
def redTwo (red a b : Nat) : Nat := if red = 1 then fmaxCode a b else f32Add .rne a b

/-- A left fold from the first value. -/
def foldFirst (f : Nat → Nat → Nat) : List Nat → Nat
  | [] => 0
  | x :: rest => rest.foldl f x

/-- One contribution to one element, once a rank (R54, R345). -/
def Coll.addOne (c : Coll) (rank e v : Nat) : Coll :=
  let who := tget [] c.have_ e
  if rank ∈ who then c
  else
    let x := if c.dt = 1 then v * 65536 else v
    let c1 := { c with have_ := tset [] c.have_ e (who ++ [rank]) }
    if bitOf c.flags 0 then { c1 with held := tset [] c1.held e (tget [] c1.held e ++ [(rank, BitVec.ofNat 32 x)]) }
    else { c1 with acc := tset 0 c1.acc e (BitVec.ofNat 32 (if who = [] then x else redTwo c.red (tget 0 c1.acc e).toNat x)) }

/-- The reduced element: in arrival order, or a left fold in ascending rank order; bf16 rounded by RNE (R54, R345). -/
def Coll.reduced (c : Coll) (e : Nat) : Nat :=
  let x := if bitOf c.flags 0 then
      foldFirst (redTwo c.red) ((sortBy Prod.fst (tget [] c.held e)).map (fun y => y.2.toNat))
    else (tget 0 c.acc e).toNat
  if c.dt = 1 then rnd bf16F .rne (f32v x) else x

/-- What a flit of a kind adds: 0 contributions, 1 finished elements, 2 the shard of `.dual`, 3 a shard's sum of squares, 5 the result of the
trailing scalar all-reduce. -/
def Coll.absorb (c : Coll) (kind rank base : Nat) (vals : List Nat) : Coll :=
  match kind with
  | 0 => (vals.zip (upFrom base vals.length)).foldl (fun k x => k.addOne rank x.2 x.1) c
  | 3 => if c.norm.any (fun x => decide (x.1 = rank)) then c
         else { c with norm := c.norm ++ [(rank, BitVec.ofNat 32 (vals.headD 0))] }
  | 5 => { c with normOut := some (BitVec.ofNat 32 (vals.headD 0)) }
  | _ => { c with got := tsets Option.none c.got base (vals.map (fun v => some (BitVec.ofNat 32 v))) }

/-- Every element of this rank's shard has a contribution of every live rank. -/
def Coll.shardFull (c : Coll) : Bool :=
  (upFrom (c.lo c.pos) (c.lo (c.pos + 1) - c.lo c.pos)).all (fun e => decide ((tget [] c.have_ e).length = c.live.length))

/-- Elements `lo` to `hi - 1` are here. -/
def Coll.holds (c : Coll) (lo hi : Nat) : Bool := (upFrom lo (hi - lo)).all (fun e => (tget Option.none c.got e).isSome)

/-- The live rank before this one in cyclic order. -/
def Coll.before (c : Coll) : Nat := (c.pos + c.live.length - 1) % max 1 c.live.length

/-- A collective has all that it waits for (R345, R346). -/
def Coll.ready (c : Coll) : Bool :=
  c.begun && decide (c.sent = c.need)
    && (if c.op = 1 then c.sentShard && (!bitOf c.flags 2 || c.holds (c.lo c.before) (c.lo (c.before + 1)))
        else c.holds 0 c.total)
    && (!bitOf c.flags 1 || c.normOut.isSome)

/-- What the owner of the trailing scalar all-reduce makes of the shard sums (R54, R346). -/
def Coll.normFold (c : Coll) : Nat :=
  foldFirst (f32Add .rne) ((if bitOf c.flags 0 then sortBy Prod.fst c.norm else c.norm).map (fun x => x.2.toNat))

/-- The sum of squares that the record holds (R346, R349). -/
def Coll.normSum (c : Coll) : Nat :=
  match c.normOut with
  | some x => if bitOf c.flags 1 then x.toNat else 0
  | none => 0

/-- The sum of squares of a shard, in ascending element order (R346). -/
def Coll.squares (c : Coll) (vals : List Nat) : Nat :=
  foldFirst (f32Add .rne) (vals.map (fun v => let x := if c.dt = 1 then v * 65536 else v
                                             f32Mul .rne x x))

/-- Pieces of n of a list. -/
def piecesOf {α : Type} (n : Nat) : Nat → List α → List (List α)
  | 0, _ => []
  | fuel + 1, xs => if xs.isEmpty then [] else xs.take n :: piecesOf n fuel (xs.drop n)

/-- The collective at the head of a channel. -/
def State.collHead (s : State) (ch : Nat) : Option Coll := (s.chan ch).posts.head?

/-- Change the collective at the head of a channel. -/
def State.updHead (s : State) (ch : Nat) (f : Coll → Coll) : State :=
  let k := s.chan ch
  match k.posts with
  | [] => s
  | c :: rest => s.setChan ch { k with posts := f c :: rest }

/-- The packages of a collective's live ranks, in rank order. -/
def State.livePkgs (s : State) (part : Nat) (c : Coll) : List Nat :=
  match s.ranksOf part c.gid with
  | some t => c.live.map (fun r => nth 0xFFFF t r)
  | none => []

/-- The first flit of a message of a collective: what every contribution carries (R344; log entry 42). -/
def collHdr (c : Coll) (ch kind base : Nat) : List Nat := [kind, ch, c.gen, c.gid, c.seq, c.op, c.dt, c.red, c.total, base]

/-- Send values to a package on the channel of the group's kind, 480 to a burst (R325, R342, R344). -/
def State.sendColl (s : State) (ch : Nat) (c : Coll) (pkg kind base : Nat) (vals : List Nat) : State :=
  let vc := 1 + c.gid / 2 ^ 14
  let ps := piecesOf 480 (vals.length + 1) vals
  ((upFrom 0 ps.length).zip ps).foldl (fun t p =>
    t.send pkg vc (collHdr c ch kind (base + 480 * p.1) :: piecesOf 16 31 p.2)) s

/-- Values go to a package: its own are taken at once (R345). -/
def State.give (s : State) (ch : Nat) (c : Coll) (pkg kind base : Nat) (vals : List Nat) : State :=
  if vals.isEmpty then s
  else if pkg = s.pkgId then s.updHead ch (fun k => k.absorb kind c.rank base vals)
  else s.sendColl ch c pkg kind base vals

/-- Values go to every live rank. -/
def State.giveEach (s : State) (ch : Nat) (c : Coll) (kind base : Nat) (vals : List Nat) : State :=
  (s.livePkgs (s.chanPart ch) c).foldl (fun t p => t.give ch c p kind base vals) s

/-- A collective ends with a status; a fault or a mismatch aborts it at every other live rank (R344, R349). -/
def State.collFail (s : State) (ch st : Nat) : State :=
  match s.collHead ch with
  | none => s
  | some c =>
    let s1 := s.updHead ch (fun k => { k with status := some st })
    if st = 3 ∨ st = 4 then
      (s.livePkgs (s.chanPart ch) c).foldl (fun t p =>
        if p = t.pkgId then t else t.send p (1 + c.gid / 2 ^ 14) [collHdr c ch 4 0]) s1
    else s1

/-- Read elements at the homes of a partition; a fault or poison answers the other way (R349). -/
def State.readVals (s : State) (part a n w : Nat) : List Nat ⊕ Nat :=
  match s.remoteAt part .rd a (n * w) with
  | .inr e => .inr e
  | .inl pas =>
    if pas.any (fun p => s.poisonedIn p 1) then .inr 4
    else .inl ((piecesOf w (n + 1) (pas.map s.homeByte)).map (fun bs => leAt bs 0 w))

/-- Write elements of a collective to its dst (R345). -/
def State.putVals (s : State) (part : Nat) (c : Coll) (base : Nat) (vals : List Nat) : State ⊕ Nat :=
  match s.remoteAt part .wr (c.dst + base * c.w) (vals.length * c.w) with
  | .inr e => .inr e
  | .inl pas => .inl (s.putHomes pas ((vals.map (toLe c.w)).flatten))

/-- Elements of the source go where R345 sends them; `j` counts from the source's first element. -/
def State.sendRange (s : State) (ch : Nat) (c : Coll) (j : Nat) (vals : List Nat) : State :=
  let b := c.base + j
  if c.op ≤ 1 then
    ((upFrom 0 c.live.length).zip (s.livePkgs (s.chanPart ch) c)).foldl (fun t x =>
      let lo := max b (c.lo x.1)
      let hi := min (b + vals.length) (c.lo (x.1 + 1))
      t.give ch c x.2 0 lo ((vals.drop (lo - b)).take (hi - lo))) s
  else s.giveEach ch c 1 b vals

/-- The first live rank owns the one element of the trailing scalar all-reduce: once it holds every shard sum it sends the result to every
rank, which so have it with the same bits (R344, R346, R380). -/
def State.normDone (s : State) (ch : Nat) : State :=
  match s.collHead ch with
  | none => s
  | some c =>
    if c.begun && c.status.isNone && bitOf c.flags 1 && decide (c.pos = 0) && c.normOut.isNone && decide (c.norm.length = c.live.length) then
      s.giveEach ch c 5 0 [c.normFold]
    else s

/-- An owner whose shard is complete writes it or sends it on, and its sum of squares to the owner of their sum (R345, R346). -/
def State.shardDone (s : State) (ch : Nat) : State :=
  match s.collHead ch with
  | none => s
  | some c =>
    if !c.begun || c.status.isSome || c.sentShard || decide (1 < c.op) || !c.shardFull then s
    else
      let part := s.chanPart ch
      let lo := c.lo c.pos
      let vals := (upFrom lo (c.lo (c.pos + 1) - lo)).map c.reduced
      let s1 := s.updHead ch (fun k => { k with sentShard := true })
      let s2 := if c.op = 0 then .inl (s1.giveEach ch c 1 lo vals)
        else match s1.putVals part c lo vals with
          | .inr e => .inr e
          | .inl t =>
            if bitOf c.flags 2 then
              .inl (t.give ch c (nth 0 (t.livePkgs part c) ((c.pos + 1) % max 1 c.live.length)) 2 lo vals)
            else .inl t
      match (s2 : State ⊕ Nat) with
      | .inr _ => s1.collFail ch 3
      | .inl t =>
        if bitOf c.flags 1 then (t.give ch c ((t.livePkgs part c).headD 0xFFFF) 3 0 [c.squares vals]).normDone ch else t

/-- The values of the k-th staged tile of a channel (R341). -/
def State.stagedTile (s : State) (ch k : Nat) : List Nat := (wordsOf (s.homeBytes (s.stageAt ch k) 4096)).map (fun w => w.toNat)

/-- `n` staged elements of a channel from one on; none where an uncorrectable error stands among them (R341, R349). -/
def State.stagedVals (s : State) (ch lo n : Nat) : Option (List Nat) :=
  let ks := upFrom (lo / 1024) ((lo + n + 1023) / 1024 - lo / 1024)
  if ks.any (fun k => s.poisonedIn (s.stageAt ch k) 4096) then none
  else some ((((ks.map (s.stagedTile ch)).flatten).drop (lo % 1024)).take n)

/-- The staged elements of a collective with src 0 that have not been sent go to their owners (R341, R345). -/
def State.moreTiles (s : State) (ch : Nat) : State :=
  match s.collHead ch with
  | none => s
  | some c =>
    let avail := min c.need (1024 * (s.chan ch).tiles)
    if !c.begun || c.status.isSome || decide (c.src ≠ 0) || decide (avail ≤ c.sent) then s
    else match s.stagedVals ch c.sent (avail - c.sent) with
      | none => s.collFail ch 3
      | some vals => ((s.updHead ch (fun k => { k with sent := avail })).sendRange ch c c.sent vals).shardDone ch

/-- A flit of the matching collective is taken: a mismatch ends it, an abort ends it, else its values are used (R344, R345). -/
def State.takeFlit (s : State) (ch : Nat) (f : CFlit) (rank : Nat) : State :=
  match s.collHead ch with
  | none => s
  | some c =>
    if c.status.isSome then s
    else if f.kind = 4 then s.collFail ch 5
    else if f.kind ≤ 1 ∧ (f.op ≠ c.op ∨ f.dt ≠ c.dt ∨ f.red ≠ c.red ∨ f.total ≠ c.total) then s.collFail ch 4
    else
      let s1 := s.updHead ch (fun k => k.absorb f.kind rank f.base f.vals)
      if f.kind = 2 then
        match s1.putVals (s.chanPart ch) c f.base f.vals with
        | .inr _ => s1.collFail ch 3
        | .inl t => t
      else (s1.shardDone ch).normDone ch

/-- Flits held for a collective are used once it is posted (R391). -/
def State.useHeld (s : State) (ch : Nat) : State :=
  match s.collHead ch with
  | none => s
  | some c =>
    let part := s.chanPart ch
    let mine := fun (f : CFlit) => decide (f.part = part) && decide (f.gid = c.gid) && decide (f.seq = c.seq) && decide (f.gen = c.gen)
    let fs := s.fab.flits.filter mine
    let s1 := { s with fab := { s.fab with flits := s.fab.flits.filter (fun f => !mine f) } }
    fs.foldl (fun t f => t.takeFlit ch f (match t.ranksOf part f.gid with | some r => rankIn r f.src | none => 0xFFFF)) s1

/-- A collective begins, or begins again, under the generation and the tables in force (R344, R345, R348). What has arrived for it before comes
first into its reduction, the rank's own contribution after it (R54, R391). -/
def State.beginColl (s : State) (ch : Nat) (seq : Nat) : State :=
  match s.collHead ch with
  | none => s
  | some c0 =>
    let part := s.chanPart ch
    let t := match s.ranksOf part c0.gid with | some t => t | none => []
    let c : Coll := { c0 with
      begun := true, gen := (s.part part).gen.toNat, seq := seq, live := liveRanks t, rank := rankIn t s.pkgId, acc := [], have_ := [],
      held := [], got := [], norm := [], normOut := none, status := none, sentShard := false, sent := 0 }
    let s1 := s.updHead ch (fun _ => c)
    match s1.remoteAt part .wr c.recAt 64 with
    | .inr _ => s1.collFail ch 3
    | .inl _ =>
      let s2 := s1.useHeld ch
      if (match s2.collHead ch with | some k => k.status.isSome | none => true) then s2
      else if c.src = 0 then (s2.moreTiles ch).shardDone ch
      else match s2.readVals part c.src c.need c.w with
        | .inr _ => s2.collFail ch 3
        | .inl vals => ((s2.updHead ch (fun k => { k with sent := k.need })).sendRange ch c 0 vals).shardDone ch

/-- A collective packet keeps the limits of R343, its gen apart. -/
def State.collValid (s : State) (part : Nat) (c : Coll) : Bool :=
  match s.ranksOf part c.gid with
  | none => false
  | some t =>
    decide (c.op ≤ 3) && decide (c.flags < 8) && (!bitOf c.flags 1 || decide (c.op ≤ 1)) && (!bitOf c.flags 2 || decide (c.op = 1))
      && decide (c.dt ≤ 2) && (decide (c.dt < 2) || decide (2 ≤ c.op)) && decide (c.red ≤ 1) && decide (leAt c.pkt 9 1 = 0)
      && (if c.op = 3 then decide (c.root ∈ liveRanks t) else decide (c.root = 0))
      && decide (1 ≤ c.total) && decide (c.total ≤ 2 ^ 26)
      && (decide (c.src ≠ 0) || (decide (c.dt = 0) && decide (c.total ≤ 262144)))
      && decide (regionOf c.dst ≠ .scr) && decide (c.recAt % 64 = 0) && s.syncOk part (c.bitmap - syncBase)
      && decide (c.bit < 512) && decide (leAt c.pkt 0x2E 18 = 0)

/-- COLLECTIVE_HEAD (R341, R350): the head of a channel is checked and begins; one that takes staged elements sends those
staged since. -/
def execCollectiveHead (ch : Nat) (s : State) : Out :=
  match s.collHead ch with
  | none => .next s
  | some c =>
    if c.status.isSome then .next s
    else if c.begun then .next (s.moreTiles ch)
    else
      let part := s.chanPart ch
      let s1 := s.updHead ch (fun k => { k with t0 := s.cycle % 2 ^ 32 })
      let t := match s.ranksOf part c.gid with | some t => t | none => []
      if !s.collValid part c then .next (s1.collFail ch 1)
      else if leAt c.pkt 4 2 ≠ (s.part part).gen.toNat ∨ rankIn t s.pkgId = 0xFFFF then .next (s1.collFail ch 2)
      else
        let p := s.part part
        let seq := tget 0 p.seqs c.gid
        .next ((s1.setPart part { p with seqs := tset 0 p.seqs c.gid (seq + 1) }).beginColl ch seq)

/-- The channel of a partition at whose head a group's collective of a sequence number has begun. -/
def State.collOf (s : State) (part gid seq : Nat) : Option Nat :=
  firstOf (fun ch => decide (s.chanPart ch = part) && (match s.collHead ch with
    | some c => c.begun && decide (c.gid = gid) && decide (c.seq = seq)
    | none => false)) (upFrom 0 64)

/-- A flit that is rejected at ingress: counted, dropped when it is older, answered with a retry notice on VC 7 when it is
newer (R347). -/
def State.rejectFlit (s : State) (ch : Nat) (f : CFlit) : State :=
  let p := s.part f.part
  let s1 := s.setPart f.part { p with stalegen := satInc p.stalegen }
  let s2 := (upFrom 0 64).foldl (fun t c =>
    match t.collHead c with
    | some k => if t.chanPart c = f.part ∧ k.begun ∧ k.gid = f.gid then t.updHead c (fun x => { x with rejects := x.rejects + 1 }) else t
    | none => t) s1
  let d := (f.gen + 65536 - p.gen.toNat) % 65536
  if 0 < d ∧ d < 32768 then
    s2.send f.src 7 ([0x100, ch, f.gen, f.gid, f.seq, f.op, f.dt, f.red, f.total, f.base, f.kind] :: piecesOf 16 31 f.vals)
  else s2

/-- A collective flit reaches the package (R344, R347, R391). -/
def State.flitIn (s : State) (ch : Nat) (f : CFlit) : State :=
  let p := s.part f.part
  let t := match s.ranksOf f.part f.gid with | some t => t | none => []
  let rank := rankIn t f.src
  if f.gen ≠ p.gen.toNat ∨ rank = 0xFFFF then s.rejectFlit ch f
  else match s.collOf f.part f.gid f.seq with
    | some c => s.takeFlit c f rank
    | none => if tget 0 p.seqs f.gid ≤ f.seq then { s with fab := { s.fab with flits := s.fab.flits ++ [f] } } else s

/-- COLLECTIVE_FLIT_INGRESS (R344, R345, R347). -/
def execCollectiveFlitIngress (ch src kind gen gid seq op dt red total base : Nat) (vals : List Nat) (s : State) : Out :=
  .next ((s.serve src (1 + gid / 2 ^ 14)).flitIn ch ⟨s.chanPart ch, src, if kind = 5 then 5 else min kind 3, gen, gid, seq, op, dt, red, total, base, vals⟩)

/-- COLLECTIVE_ABORT_RECEIVED (R344, R349). -/
def execCollectiveAbortReceived (ch src gen gid seq : Nat) (s : State) : Out :=
  .next ((s.serve src (1 + gid / 2 ^ 14)).flitIn ch ⟨s.chanPart ch, src, 4, gen, gid, seq, 0, 0, 0, 0, 0, []⟩)

/-- COLLECTIVE_RESEND (R347): 10 µs, which is 40,000 cycles, after the notice, while the sender's own generation stands. -/
def execCollectiveResend (id : Nat) (s : State) : Out :=
  match firstOf (fun (r : Resend) => decide (r.id = id)) s.fab.resends with
  | none => .next s
  | some r =>
    let gone := { s with fab := { s.fab with resends := s.fab.resends.filter (fun x => decide (x.id ≠ id)) } }
    if (s.part r.part).gen.toNat ≠ r.gen then .next gone
    else if s.cycle < r.at_ + 40000 then .next s
    else .next (gone.send r.burst.dst r.burst.vc r.burst.flits)

/-- The completion record (R349). -/
def State.collRecord (s : State) (part : Nat) (c : Coll) (st : Nat) : List Byte :=
  let began := decide (st = 0) || decide (3 ≤ st)
  let t := match s.ranksOf part c.gid with | some t => t | none => []
  let lo := if began then c.lo c.pos else 0
  let n := if began then c.lo (c.pos + 1) - lo else 0
  padTo 64 (toLe 1 st ++ toLe 1 (min c.restarts 255) ++ toLe 2 (s.part part).gen.toNat ++ toLe 2 (if began then c.live.length else 0)
    ++ toLe 2 (rankIn t s.pkgId) ++ toLe 4 lo ++ toLe 4 n ++ toLe 4 (if st = 0 then c.normSum else 0) ++ toLe 4 c.rejects
    ++ toLe 4 c.t0 ++ toLe 4 s.cycle)

/-- A collective ends: the record, then the bitmap bit; the tiles it consumed are freed (R341, R349). -/
def State.endColl (s : State) (ch : Nat) (c : Coll) (st : Nat) : State :=
  let part := s.chanPart ch
  let s1 := match s.remoteAt part .wr c.recAt 64 with
    | .inl pas => if c.recAt % 64 = 0 then s.putHomes pas (s.collRecord part c st) else s
    | .inr _ => s
  let s2 := if s.syncOk part (c.bitmap - syncBase) ∧ c.bit < 512 then
      s1.homeWrite (c.bitmap + c.bit / 8) (toLe 1 (s1.homeLe (c.bitmap + c.bit / 8) 1 ||| 2 ^ (c.bit % 8)))
    else s1
  let k := s2.chan ch
  let n := if c.begun ∧ c.src = 0 then min k.tiles ((c.total + 1023) / 1024) else 0
  s2.setChan ch { k with posts := k.posts.drop 1, tiles := k.tiles - n, first := (k.first + n) % 256 }

/-- COLLECTIVE_COMPLETION (R345, R349, R391): every rank's dst is written only once it holds every element. -/
def execCollectiveCompletion (ch : Nat) (s : State) : Out :=
  match s.collHead ch with
  | none => .next s
  | some c => match c.status with
    | some st => .next (s.endColl ch c st)
    | none =>
      if !c.ready then .next s
      else if c.op = 1 then .next (s.endColl ch c 0)
      else
        let vals := (upFrom 0 c.total).map (fun e => match tget Option.none c.got e with | some w => w.toNat | none => 0)
        match s.putVals (s.chanPart ch) c 0 vals with
        | .inr _ => .next (s.collFail ch 3)
        | .inl t => .next (t.endColl ch c 0)

/-- The collectives of a partition at a change of its generation (R347, R348, R391): flits not yet sent of those that it aborts are discarded,
their bursts keeping only their place in the order of R328, what a completed one still owes is sent; held flits and resends are dropped; a collective begun and not ended begins again, or ends with
status 2. -/
def State.restartColls (s : State) (part : Nat) : State :=
  let aborted := fun (h : List Nat) => (upFrom 0 64).any (fun ch => decide (s.chanPart ch = part) && (match s.collHead ch with
    | some c => c.begun && c.status.isNone && decide (c.gid = nth 0 h 3) && decide (c.seq = nth 0 h 4)
    | none => false))
  let mine := fun (b : Burst) => decide (b.leg = .own) && decide (1 ≤ b.vc) && decide (b.vc ≤ 4) && !b.flits.isEmpty
    && decide (s.chanPart (nth 0 (b.flits.headD []) 1) = part) && aborted (b.flits.headD [])
  let f := s.fab
  let s1 := { s with fab := { f with
    out := f.out.map (fun b => if mine b then { b with flits := [] } else b), flits := f.flits.filter (fun x => decide (x.part ≠ part)),
    resends := f.resends.filter (fun r => decide (r.part ≠ part)) } }
  (upFrom 0 64).foldl (fun t ch =>
    match t.collHead ch with
    | none => t
    | some c =>
      if t.chanPart ch ≠ part ∨ !c.begun ∨ c.status.isSome then t
      else
        let tab := match t.ranksOf part c.gid with | some x => x | none => []
        let t1 := t.updHead ch (fun k => { k with restarts := k.restarts + 1 })
        if rankIn tab t.pkgId = 0xFFFF ∨ (c.op = 3 ∧ c.root ∉ liveRanks tab) then t1.updHead ch (fun k => { k with status := some 2 })
        else t1.beginColl ch c.seq) s1

end Sys2Proof.Machine
end

