-- ==== Sys2Proof/Machine/Hbm.lean ====
section
/-! DEFINITION. The HBM error classifier and repairs (R286 to R291, R295). -/
namespace Sys2Proof.Machine

/-- An empty classifier entry. -/
def ClsEnt.none : ClsEnt := ⟨0, 0, [], 0, 0, 0, 0, false, 0, 0⟩

/-- An entry of a stack. -/
def Stack.ent (k : Stack) (i : Nat) : ClsEnt := tget ClsEnt.none k.ents i
def Stack.setEnt (k : Stack) (i : Nat) (e : ClsEnt) : Stack := { k with ents := tset ClsEnt.none k.ents i e }

/-- The numbers of a list, each once. -/
def distinct (xs : List Nat) : List Nat := xs.foldl (fun acc x => insNat x acc) []

/-- The class that the errors of an entry show: the first line of R288 that holds. -/
def classOf (errs : List (Nat × Nat)) : Nat :=
  let rows := distinct (errs.map Prod.fst)
  let cols := distinct (errs.map Prod.snd)
  let colsIn := fun r => (distinct ((errs.filter (fun e => decide (e.1 = r))).map Prod.snd)).length
  let rowsIn := fun c => (distinct ((errs.filter (fun e => decide (e.2 = c))).map Prod.fst)).length
  if 3 ≤ rows.length ∧ 3 ≤ cols.length then 4
  else if rows.any (fun r => decide (4 ≤ colsIn r)) then 2
  else if cols.any (fun c => decide (4 ≤ rowsIn c)) then 3
  else if errs.any (fun e => decide (3 ≤ (errs.filter (fun x => decide (x = e))).length)) then 1
  else 0

/-- How wide a class is, in the order of R288's table: cell, column, row, bank. -/
def classWidth (c : Nat) : Nat :=
  match c with
  | 4 => 4
  | 2 => 3
  | 3 => 2
  | 1 => 1
  | _ => 0

/-- The index that an error's bank has, or takes: a free one, or that of the lowest count and the oldest of those (R288). -/
def Stack.indexFor (k : Stack) (ch bank : Nat) : Nat :=
  match firstOf (fun (x : Nat × ClsEnt) => decide (x.2.ch = ch) && decide (x.2.bank = bank)) k.ents with
  | some x => x.1
  | none =>
    match leastOf ((upFrom 0 1024).filter (fun i => decide (k.ent i = .none))) with
    | some i => i
    | none =>
      let better := fun (x y : Nat × ClsEnt) => decide (x.2.cnt < y.2.cnt) || (decide (x.2.cnt = y.2.cnt) && decide (x.2.order < y.2.order))
      match k.ents with
      | [] => 0
      | x :: rest => (rest.foldl (fun m y => if better y m then y else m) x).1

/-- HBM_CORRECTED_ERROR (R287, R288). -/
def execHbmCorrectedError (stack ch bank row col : Nat) (s : State) : Out :=
  if 8 ≤ stack then .next s
  else
    let k := s.hbm stack
    let i := k.indexFor ch bank
    let old := k.ent i
    let same := decide (old.cnt ≠ 0) && decide (old.ch = ch) && decide (old.bank = bank)
    let e0 : ClsEnt := if same then old else { ClsEnt.none with ch := ch, bank := bank, order := k.orderNext }
    let errs := e0.errs ++ [(row, col)]
    let c := classOf errs
    let wider := decide (classWidth e0.cls < classWidth c)
    let e : ClsEnt := { e0 with
      errs := errs, cnt := min 4095 (e0.cnt + 1), row := row, col := col, cls := if wider then c else e0.cls,
      req := e0.req || wider, hour := s.hoursNow }
    let k1 : Stack := { (k.setEnt i e) with corr := satInc32 k.corr, orderNext := if same then k.orderNext else k.orderNext + 1 }
    let s1 := s.setHbm stack k1
    let s2 := { s1 with xd := { s1.xd with corrected := tset 0 s1.xd.corrected 3 (tget 0 s1.xd.corrected 3 + 1) } }
    .next (if wider then s2.interrupt 2 else s2)

/-- CLASSIFIER_ENTRY_EXPIRY (R288): no error for 720 powered hours. -/
def execClassifierEntryExpiry (stack idx : Nat) (s : State) : Out :=
  let k := s.hbm stack
  let e := k.ent idx
  .next (if e.cnt ≠ 0 ∧ e.hour + 720 ≤ s.hoursNow then s.setHbm stack (k.setEnt idx .none) else s)

/-- A unit of a stack is free: in no partition and not taken by a remap (R286, R290, R292). -/
def State.unitFree (s : State) (stack u : Nat) : Bool :=
  decide (u ∉ (s.hbm stack).removed) && !s.parts.any (fun p => p.2.on && decide (u ∈ p.2.cfg.units))

/-- The free units of a stack, ascending. -/
def State.freeUnits (s : State) (stack : Nat) : List Nat := (upFrom (48 * stack) 48).filter (s.unitFree stack)

/-- A write of `hb.repair` with go (R290, R291): a bank remap takes the highest free unit, or stays pending without one. -/
def State.writeRepair (s : State) (stack idx : Nat) : State :=
  let k := s.hbm stack
  let e := k.ent idx
  if k.busy.isSome || !e.req then s
  else
    let k1 : Stack := { (k.setEnt idx { e with req := false }) with busy := some idx }
    let ev := LifeEvent.repair stack e.cls e.ch e.bank e.row e.col
    if e.cls = 4 then
      match (s.freeUnits stack).reverse with
      | [] => s
      | u :: _ => (s.setHbm stack { k1 with removed := k1.removed ++ [u] }).appendEvent ev
    else (s.setHbm stack k1).appendEvent ev

/-- HBM_REPAIR (R290, R291). -/
def execHbmRepair (stack idx : Nat) (s : State) : Out := .next (if stack < 8 then s.writeRepair stack idx else s)

/-- HBM_REPAIR_MOVE_DONE (R290). -/
def execHbmRepairMoveDone (stack : Nat) (s : State) : Out := .next (s.setHbm stack { s.hbm stack with busy := none })

/-- The 64 bits of an entry (R289). -/
def ClsEnt.word (e : ClsEnt) : Nat :=
  if e.cnt = 0 then 0
  else 2 ^ 63 + 2 ^ 60 * (e.cls % 8) + 2 ^ 48 * (e.cnt % 4096) + 2 ^ 43 * (e.ch % 32) + 2 ^ 37 * (e.bank % 64)
    + 2 ^ 19 * (e.row % 2 ^ 18) + 2 ^ 11 * (e.col % 256)

/-- `hb.stat` (R291). -/
def State.hbStat (s : State) (stack : Nat) : Nat :=
  let k := s.hbm stack
  let pend := sortBy (fun (x : Nat × ClsEnt) => x.2.order) (k.ents.filter (fun x => x.2.req))
  let n := (s.freeUnits stack).length
  match pend with
  | x :: _ => 1 + 2 * (x.1 % 1024) + 2 ^ 12 * n
  | [] => 2 ^ 12 * n

/-- Read a register of a stack (R291); none where there is none. -/
def State.readHb (s : State) (stack off : Nat) : Option Nat :=
  let k := s.hbm stack
  match off with
  | 0x000 => some (s.hbStat stack)
  | 0x004 => some k.sel.toNat
  | 0x008 => some ((k.ent k.sel.toNat).word % 2 ^ 32)
  | 0x00C => some ((k.ent k.sel.toNat).word / 2 ^ 32)
  | 0x010 => some 0
  | 0x014 => some (if k.busy.isSome then 1 else 0)
  | 0x018 => some k.corr.toNat
  | 0x01C => some k.unc.toNat
  | _ => none

/-- Write a register of a stack (R291). -/
def State.writeHb (s : State) (stack off val : Nat) : State :=
  match off with
  | 0x004 => s.setHbm stack { s.hbm stack with sel := BitVec.ofNat 32 (val % 1024) }
  | 0x010 => if bitOf val 31 then s.writeRepair stack (val % 1024) else s
  | _ => s

end Sys2Proof.Machine
end

