-- ==== Sys2Proof/Machine/Host.lean ====
section
/-! DEFINITION. The host interface: task release, the sync aperture, CXL memory, the registers of a virtual function (R293 to
R295), and the control blocks of dies and management cores (R266, R298). -/
namespace Sys2Proof.Machine

/-- The address of byte `o` of the sync area of package slice `sl` (R246, R293). -/
def apertureAddr (sl o : Nat) : Nat := syncBase + sl / 8 * 0x200000 + sl % 8 * 0x40000 + o

/-- Where a BAR 0 offset leads in the sync aperture; none outside it or for a slice the partition does not hold (R293). -/
def State.apertureAt (s : State) (vf off : Nat) : Option Nat :=
  let o := off - 0x800000
  match (s.vf vf).part with
  | none => none
  | some p =>
    if 0x800000 ≤ off ∧ off < 0x1000000 ∧ o / 0x40000 ∈ (s.part p).cfg.slices then some (apertureAddr (o / 0x40000) (o % 0x40000))
    else none

/-- A host write through the aperture that crosses into another slice ends there (R293). -/
def apertureRoom (off : Nat) : Nat := 0x40000 - (off - 0x800000) % 0x40000

/-- HOST_SYNC_APERTURE_WRITE (R293). -/
def execHostSyncApertureWrite (vf off : Nat) (data : List Nat) (s : State) : Out :=
  match s.apertureAt vf off with
  | none => .next s
  | some a => .next (s.homeWrite a ((byteList data).take (apertureRoom off)))

/-- What the host's reads and FetchAdds have returned, the last first (R293, R295). -/
def State.hostGets (s : State) (bs : List Byte) : State := { s with hostSaw := bs :: s.hostSaw }

/-- HOST_SYNC_ATOMIC (R247, R293): FetchAdd of a naturally aligned word, which returns the old value. It is party 15 under record and replay,
where it waits until the gauntlet admits it; one that comes after the log is consumed has no effect (R218 to R220; log entry 40). -/
def execHostSyncAtomic (vf off size x : Nat) (s : State) : Out :=
  match s.apertureAt vf off with
  | none => .next s
  | some a =>
    let p := match (s.vf vf).part with | some p => p | none => 0
    let d := s.rrOf p
    let gate := match d with | none => Gate.free | some r => s.gateOf p r 15 a
    if (size ≠ 4 ∧ size ≠ 8) ∨ a % size ≠ 0 then .next s
    else match gate with
    | .hold _ => .next s
    | .consumed => .next s
    | _ => .next (((s.passGate p d gate).homeWrite a (toLe size (s.homeLe a size + x))).hostGets (toLe size (s.homeLe a size)))

/-- A refused or malformed release (R294). -/
def State.refuseRelease (s : State) (vf : Nat) : State :=
  let k := s.vf vf
  s.setVf vf { k with refuse := k.refuse + 1 }

/-- TASK_RELEASE_WRITE (R250, R294). -/
def execTaskReleaseWrite (vf off : Nat) (data : List Nat) (s : State) : Out :=
  let w := leAt (byteList data) 0 8
  let k := s.vf vf
  match k.part with
  | none => .next (s.refuseRelease vf)
  | some p =>
    if off ≠ 0 ∨ data.length ≠ 8 ∨ 2 ^ 56 ≤ w ∨ w % 128 ≠ 0 then .next (s.refuseRelease vf)
    else if regionOf w ≠ .mem then .next (s.refuseRelease vf)
    else match s.xlateNow p .rd w, s.xlateNow p .wr w with
      | .ok pa, .ok _ =>
        if (s.readRec pa w).part ≠ p then .next (s.refuseRelease vf)
        else match s.decDep pa w with
          | none => .next (s.setVf vf { k with refuse := k.refuse + 1, last := 0xFFFFFFFF })
          | some (old, t) => .next (t.setVf vf { k with rel := k.rel + 1, last := BitVec.ofNat 32 old })
      | _, _ => .next (s.refuseRelease vf)

/-- HOST_CXL_MEM_ACCESS (R248, R295): at the HBM home, unit by unit; a read changes nothing there but a lease that it recalls. Units
that a bank remap took read 0 and drop writes. -/
def execHostCxlMemAccess (wr off len : Nat) (data : List Nat) (s : State) : Out :=
  let parts := sectorParts (len + 1) (hbmBase + off) (padTo len ((byteList data).take len))
  if 384 * 2 ^ 30 < off + len then .next s
  else if wr = 1 then .next (parts.foldl (fun t p => if t.unitGone p.1 then t else t.homeWrite p.1 p.2) s)
  else
    let s1 := parts.foldl (fun t p => t.recall p.1 p.2.length) s
    .next (s1.hostGets (parts.map (fun p => if s1.unitGone p.1 then copies p.2.length 0 else s1.homeBytes p.1 p.2.length)).flatten)

/-- Read a register of a virtual function as the host sees it (R293). -/
def State.readVf (s : State) (v off : Nat) : Nat :=
  let k := s.vf v
  match off with
  | 0 => v % 128 + 256 * (match k.part with | some p => p | none => 0)
  | 4 => k.rel.toNat
  | 8 => k.refuse.toNat
  | 12 => k.last.toNat
  | 16 => s.xd.vfState.toNat / 2 * 2 + (if k.part.isSome then 1 else 0)
  | _ => 0

/-- A host read of BAR 0 (R293): registers byte by byte, the sync aperture with 0 for a slice that the partition does not hold. -/
def State.hostRead (s : State) (v off n : Nat) : State :=
  let byte := fun (o : Nat) => if o < 0x10000 then BitVec.ofNat 8 (s.readVf v (o / 4 * 4) / 2 ^ (8 * (o % 4)))
    else match s.apertureAt v o with
    | some a => (match s.homeBytes a 1 with | b :: _ => b | [] => 0)
    | none => 0
  s.hostGets ((upFrom off n).map byte)

/-- MC_IPEND_CLEAR (R298). -/
def execMcIpendClear (m val : Nat) (s : State) : Out :=
  let k := s.mc m
  .next (if m < 4 then s.setMc m { k with ipend := k.ipend &&& ~~~ (BitVec.ofNat 32 val) } else s)

/-- A core is poked: bit 7 is set, and a core in the mask ROM's `wfi` wakes (R298, R300). -/
def Mc.poked (k : Mc) : Mc := { k with ipend := k.ipend ||| 0x80, waiting := k.waiting && !k.rom, rom := false }

/-- Set bit 7 in each core named (R298). -/
def State.poke (s : State) (val : Nat) : State :=
  (upFrom 0 4).foldl (fun t m => if bitOf val m then t.setMc m (t.mc m).poked else t) s

/-- MC_POKE (R298). -/
def execMcPoke (m val : Nat) (s : State) : Out := .next (if m < 4 then s.poke val else s)

/-- MANAGEMENT_PORT_FRAME (R298, R299). -/
def execManagementPortFrame (frame : List Nat) (s : State) : Out :=
  .next ({ s with xd := { s.xd with mgmtFrames := s.xd.mgmtFrames ++ [frame] } }.interrupt 0)

/-- DIE_OVERTEMP_STOP (R307, R364): the blocks of the die are lost as if terminated, and the package reports itself. -/
def execDieOvertempStop (die temp : Nat) (s : State) : Out :=
  if 4 ≤ die ∨ temp < 105 then .next s
  else
    let s1 := s.setDie die { s.die die with dead := true }
    let gone := s1.blocks.filter (fun b => decide (dieOf b.core = die))
    let s2 := gone.foldl (fun t b => t.terminate b.id 0) s1
    .next { s2 with nx := { s2.nx with selfRep := true } }

/-- A write of `xs.fusemin`: the fused minimum is only ever raised (R301, R316). -/
def State.writeFusemin (s : State) (val : Nat) : State :=
  if s.xd.fusemin.toNat ≤ val then { s with xd := { s.xd with fusemin := BitVec.ofNat 32 val } } else s

/-- XS_FUSEMIN_WRITE (R316). -/
def execXsFuseminWrite (val : Nat) (s : State) : Out := .next (s.writeFusemin val)

end Sys2Proof.Machine
end

