-- ==== Sys2Proof/Machine/Crypto.lean ====
section
/-! DEFINITION. SHA-256 (R301, R302, R367) and ECDSA signatures on P-256, made and checked (R10, R301). The spec names the algorithms; their
definitions are those of FIPS 180-4 and FIPS 186-4 (log entry 46). -/
namespace Sys2Proof.Machine

/-- The first 64 primes. -/
def shaPrimes : List Nat :=
  (List.range 312).filter (fun p => decide (1 < p) && (upFrom 2 16).all (fun d => decide (p ≤ d) || decide (p % d ≠ 0)))

/-- The first 32 bits of the fractional part of the k-th root of a number: the greatest x with x^k at most n * 2^(32 k), found from
its highest bit down. -/
def rootBits (k n : Nat) : Nat :=
  (List.range 36).foldl (fun x i => if (x + 2 ^ (35 - i)) ^ k ≤ n * 2 ^ (32 * k) then x + 2 ^ (35 - i) else x) 0 % 2 ^ 32

/-- The round constants: cube roots of the first 64 primes. -/
def shaK : List Nat := shaPrimes.map (rootBits 3)

/-- The initial hash value: square roots of the first 8 primes. -/
def shaInit : List Nat := (shaPrimes.take 8).map (rootBits 2)

/-- Rotate a 32-bit number right. -/
def rotr (n x : Nat) : Nat := x / 2 ^ n + x % 2 ^ n * 2 ^ (32 - n)

/-- The message schedule, latest word first. -/
def shaSchedule : Nat → List Nat → List Nat
  | 0, ws => ws
  | n + 1, ws =>
    let a := nth 0 ws 14
    let b := nth 0 ws 1
    let s0 := rotr 7 a ^^^ rotr 18 a ^^^ (a / 8)
    let s1 := rotr 17 b ^^^ rotr 19 b ^^^ (b / 1024)
    shaSchedule n (((nth 0 ws 15 + s0 + nth 0 ws 6 + s1) % 2 ^ 32) :: ws)

/-- One round. -/
def shaRound (v : List Nat) (kw : Nat) : List Nat :=
  match v with
  | [a, b, c, d, e, f, g, h] =>
    let t1 := h + (rotr 6 e ^^^ rotr 11 e ^^^ rotr 25 e) + ((e &&& f) ^^^ ((2 ^ 32 - 1 - e) &&& g)) + kw
    let t2 := (rotr 2 a ^^^ rotr 13 a ^^^ rotr 22 a) + ((a &&& b) ^^^ (a &&& c) ^^^ (b &&& c))
    [(t1 + t2) % 2 ^ 32, a, b, c, (d + t1) % 2 ^ 32, e, f, g]
  | _ => v

/-- A big-endian number. -/
def beNat (bs : List Byte) : Nat := bs.foldl (fun n b => n * 256 + b.toNat) 0

/-- A number as big-endian bytes. -/
def toBe (n x : Nat) : List Byte := (toLe n x).reverse

/-- One 64-byte block. -/
def shaBlock (h : List Nat) (blk : List Byte) : List Nat :=
  let w0 := (upFrom 0 16).map (fun i => beNat ((blk.drop (4 * i)).take 4))
  let ws := (shaSchedule 48 w0.reverse).reverse
  let v := (shaK.zip ws).foldl (fun v kw => shaRound v (kw.1 + kw.2)) h
  (h.zip v).map (fun x => (x.1 + x.2) % 2 ^ 32)

/-- SHA-256 of bytes. -/
def sha256 (bs : List Byte) : List Byte :=
  let n := bs.length
  let m := bs ++ [0x80] ++ copies ((119 - n % 64) % 64) 0 ++ toBe 8 (8 * n)
  ((piecesOf 64 (m.length / 64 + 1) m).foldl shaBlock shaInit).flatMap (toBe 4)

/-- The field prime, the order and the constants of P-256. -/
def ecP : Nat := 2 ^ 256 - 2 ^ 224 + 2 ^ 192 + 2 ^ 96 - 1
def ecN : Nat := 0xFFFFFFFF00000000FFFFFFFFFFFFFFFFBCE6FAADA7179E84F3B9CAC2FC632551
def ecB : Nat := 0x5AC635D8AA3A93E7B3EBBD55769886BC651D06B0CC53B0F63BCE3C3E27D2604B
def ecG : Nat × Nat :=
  (0x6B17D1F2E12C4247F8BCE6E563A440F277037D812DEB33A0F4A13945D898C296,
   0x4FE342E2FE1A7F9B8EE7EB4A7C0F9E162BCE33576B315ECECBB6406837BF51F5)

/-- Exponentiation modulo m, over the 256 bits of the exponent from the top. -/
def modPow (m b e : Nat) : Nat :=
  (List.range 256).foldl (fun acc i =>
    let sq := acc * acc % m
    if bitOf e (255 - i) then sq * b % m else sq) 1

/-- The inverse modulo a prime. -/
def modInv (m a : Nat) : Nat := modPow m (a % m) (m - 2)

/-- The sum of two points; none is the point at infinity. -/
def ecAdd (p q : Option (Nat × Nat)) : Option (Nat × Nat) :=
  match p, q with
  | none, q => q
  | p, none => p
  | some (x1, y1), some (x2, y2) =>
    if x1 = x2 ∧ (y1 + y2) % ecP = 0 then none
    else
      let l := if x1 = x2 then (3 * x1 * x1 + ecP - 3) * modInv ecP (2 * y1) % ecP
        else (y2 + ecP - y1) * modInv ecP (x2 + ecP - x1) % ecP
      let x3 := (l * l + 2 * ecP - x1 - x2) % ecP
      some (x3, (l * (x1 + ecP - x3) + ecP - y1) % ecP)

/-- A multiple of a point. -/
def ecMul (k : Nat) (p : Nat × Nat) : Option (Nat × Nat) :=
  (List.range 256).foldl (fun acc i =>
    let d := ecAdd acc acc
    if bitOf k (255 - i) then ecAdd d (some p) else d) none

/-- A point of the curve. -/
def ecOn (p : Nat × Nat) : Bool :=
  decide (p.1 < ecP) && decide (p.2 < ecP) && decide (p.2 * p.2 % ecP = (p.1 * p.1 * p.1 + (ecP - 3) * p.1 + ecB) % ecP)

/-- The signature (r, s) verifies over a digest under a public key. -/
def ecdsaOk (key : Nat × Nat) (r t : Nat) (digest : List Byte) : Bool :=
  if r = 0 ∨ ecN ≤ r ∨ t = 0 ∨ ecN ≤ t ∨ !ecOn key then false
  else
    let w := modInv ecN t
    let z := beNat digest
    match ecAdd (ecMul (z * w % ecN) ecG) (ecMul (r * w % ecN) key) with
    | none => false
    | some (x, _) => decide (x % ecN = r)

/-- The public key of a private key. -/
def ecPublic (d : Nat) : Nat × Nat := match ecMul (d % ecN) ecG with | some p => p | none => (0, 0)

/-- The signature of a digest under a private key with a secret number: r, then s, as 64 bytes. -/
def ecdsaSign (d k : Nat) (digest : List Byte) : List Byte :=
  let r := match ecMul (k % ecN) ecG with | some p => p.1 % ecN | none => 0
  let t := modInv ecN (k % ecN) * (beNat digest + r * (d % ecN)) % ecN
  toBe 32 r ++ toBe 32 t

end Sys2Proof.Machine
end

