-- ==== Sys2Proof/Machine/Boot.lean ====
section
/-! DEFINITION. Package reset and boot, the firmware image, power removal, measurements and SPDM attestation (R300 to R303,
R308). -/
namespace Sys2Proof.Machine

/-- The header of a firmware image keeps R301: magic, fused key hash, security version, signature, a complete body. -/
def State.imageOk (s : State) (img : List Byte) : Bool :=
  let n := leAt img 8 8
  let key := (img.drop 0x20).take 64
  decide (leAt img 0 4 = 0x4D494758) && decide (n ≤ 16777216) && decide (img.length = 256 + n)
    && decide (sha256 key = s.xd.keyHash) && decide (s.xd.fusemin.toNat ≤ leAt img 4 4)
    && ecdsaOk (leAt img 0x20 32, leAt img 0x40 32) (leAt img 0x60 32) (leAt img 0x80 32) (sha256 (img.take 0x60 ++ img.drop 256))

/-- Extend a measurement register (R302). -/
def State.extend (s : State) (i : Nat) (data : List Byte) : State :=
  { s with xd := { s.xd with meas := tset zeros32 s.xd.meas i (sha256 (tget zeros32 s.xd.meas i ++ data)) } }

/-- An act of the host or of firmware (R293, R296, R298, R302). -/
def State.hostAct (s : State) (h : HostAct) : State :=
  match h with
  | .read v off n => s.hostRead v off n
  | .put k bs => { s with hostMem := tsets 0 s.hostMem k bs }
  | .refuse lo hi => { s with hostBad := (lo, hi) :: s.hostBad }
  | .serve => { s with hostBad := [] }
  | .ask => s.interrupt 1
  | .measure n data => if 4 ≤ n ∧ n < 8 then s.extend n data else s

/-- Extend a measurement register by what it covers, whose bytes the spec does not lay out. -/
def State.extendOver (s : State) (i : Nat) (what : List Nat) : State := s.extend i (byteList (Config.measured i what))

/-- The fuse configuration as numbers (R302). -/
def Xdie.fuses (x : Xdie) : List Nat := [x.fusemin.toNat] ++ natBytes x.keyHash ++ natBytes x.secret ++ x.targets.map (fun t => t.toNat)

/-- A management core starts at an address. -/
def Mc.start (k : Mc) (a : Nat) : Mc :=
  { k with pc := BitVec.ofNat 48 a, hdr := a, entered := false, guardOff := false, heads := [a], waiting := false, stopped := false, rom := false }

/-- Put the body of an image at its load address: management core 0's SRAM, or HBM (R297, R301). -/
def State.loadBody (s : State) (a : Nat) (bs : List Byte) : State :=
  if a < 0x80000 then s.setMc 0 { s.mc 0 with sram := tsets 0 (s.mc 0).sram a (bs.take (0x80000 - a)) }
  else if inHbm a then s.homeWrite a bs
  else s

/-- A core with a retirement record is retired again (R244, R304). -/
def State.retireAgain (s : State) (c : Nat) : State :=
  let k := s.die (dieOf c)
  let bit := BitVec.ofNat 32 (2 ^ (c % 32))
  s.setDie (dieOf c) (if c % 64 < 32 then { k with retLo := k.retLo ||| bit } else { k with retHi := k.retHi ||| bit })

/-- State 5 of R300: measurements 1 and 2, then the image's entry. A boot leaves an event record, and the firmware retires the cores that
have a retirement record (R304). -/
def State.runImage (s : State) (img : List Byte) : State :=
  let s1 := ((s.extend 1 img).extendOver 2 s.xd.fuses).loadBody (leAt img 0x10 8) (img.drop 256)
  let s2 := s1.setMc 0 ((s1.mc 0).start (leAt img 0x18 8))
  s2.xd.retRec.foldl State.retireAgain ({ s2 with xd := { s2.xd with boot := 0xF0, vfState := 0 } }.appendEvent (.boot (leAt img 4 4)))

/-- State 6 of R300: the package waits for an image on the management port. -/
def State.waitImage (s : State) : State := { s with xd := { s.xd with boot := 6, vfState := 2 } }

/-- A port that the mask ROM has brought up (R300, R309 to R313): its lasers on, each wavelength locked and its eye accepted, in state 4.
Heats, monitors and eyes are as the part gives them (log entry 76). -/
def State.romPort (s : State) (p : Nat) : State :=
  let v := fun (off : Nat) => Config.romPort p off s.freeCtr
  let least := fun (x lo : Nat) => max x lo
  let per := fun (f : Nat → W32) => tsets 0 ([] : Sparse W32) 0 ((upFrom 0 9).map f)
  let heat := tsets heatReset [] 0 ((upFrom 0 9).map (fun l => BitVec.ofNat 32 (v (0x10 + 4 * l) % 4096)))
  let mpd := per (fun l => let m := v (0x40 + 4 * l)
                           BitVec.ofNat 32 (least (m / 65536 % 4096) 0x101 * 65536 + m % 4096))
  let eye := per (fun l => let e := v (0x80 + 4 * l)
                           BitVec.ofNat 32 (least (e / 65536 % 256) 20 * 65536 + least (e % 65536) 24))
  let k : Port := { Port.reset with ctl := 0x47, stat := 0x101FF, laser := 0x000F01FF, heat := heat, mpd := mpd, eye := eye }
  { (((s.setPort p k).noteHeats p k).interrupt 3) with freeCtr := s.freeCtr + 1 }

/-- States 3 and 4 of R300: the first target that is fused and whose image is read whole and verifies. A target's port is brought up before its
image is read through it, also where that read fails. -/
def State.tryTargets (s : State) : List (W64 × List Byte) → State
  | [] => s.waitImage
  | (t, img) :: rest =>
    if t = 0 then s.tryTargets rest
    else
      let s1 := if t.toNat / 2 ^ 58 < 32 then s.romPort (t.toNat / 2 ^ 58) else s
      if img ≠ [] ∧ s1.imageOk img then s1.runImage img else s1.tryTargets rest

/-- Every part at its reset value; the fuses, the serial flash and the commissioned id stay (R308, R322). -/
def State.coldState (s : State) : State :=
  let x := s.xd
  { State.reset with
    xd := { Xdie.reset with
      fusemin := x.fusemin, keyHash := x.keyHash, secret := x.secret, targets := x.targets, flash := x.flash, lifeFull := x.lifeFull,
      retRec := x.retRec, hours := s.hoursNow, tempAt := s.hoursNow, heat0 := x.heat0 }
    fab := { Fabric.reset with id := s.fab.id }
    agenda := s.agenda, freeCtr := s.freeCtr, focus := s.focus }

/-- PACKAGE_RESET (R300, R308): `selftest` 1 passes; `images` lists what each target's read gives, empty where it fails. -/
def execPackageReset (selftest : Nat) (images : List (List Nat)) (s : State) : Out :=
  let s0 := s.coldState
  if selftest ≠ 1 then
    .next { (s0.setMc 0 { s0.mc 0 with stopped := true }) with xd := { s0.xd with boot := 0xE1 } }
  else
    let s1 := s0.extendOver 0 []
    .next (s1.tryTargets ((s1.xd.targets.take 8).zip ((images ++ copies 8 []).map byteList)))

/-- MGMT_IMAGE_RECEIVED (R300). -/
def execMgmtImageReceived (image : List Nat) (s : State) : Out :=
  let img := byteList image
  .next (if s.xd.boot = 6 ∧ s.imageOk img then s.runImage img else s)

/-- POWER_REMOVAL (R308): nothing runs until the next package reset. -/
def execPowerRemoval (s : State) : Out := .next { s.coldState with mcs := [] }

/-- Give an SPDM response (R303; log entry 47). -/
def State.respond (s : State) (r : List Nat) : State := { s with xd := { s.xd with spdmOut := r }, freeCtr := s.freeCtr + 2 }

/-- An SPDM error response. -/
def State.spdmError (s : State) (ver code : Nat) : State := s.respond [ver, 0x7F, code, 0]

/-- A request of version 1.2 or 1.3 after the messages it needs is answered; another is turned away. -/
def State.spdm (s : State) (req : List Nat) (ready : Bool) (f : Nat → State) : State :=
  let v := nth 0 req 0
  if v ≠ 0x12 ∧ v ≠ 0x13 then s.spdmError 0x10 0x41 else if !ready then s.spdmError v 0x04 else f v

/-- Numbers as little-endian bytes. -/
def leNats (n x : Nat) : List Nat := natBytes (toLe n x)

/-- Free bytes of a response. -/
def freeBytes (ctr n : Nat) : List Nat := natBytes (padTo n ((byteList (Config.nonce ctr)).take n))

/-- The private identity key, the same at every boot, and the alias key, which changes with measurement 1 (R302). -/
def Xdie.identity (x : Xdie) : Nat := Config.identityKey (natBytes x.secret)
def Xdie.alias_ (x : Xdie) : Nat := Config.aliasKey x.identity (natBytes (tget zeros32 x.meas 1))

/-- A public key as 64 bytes, x then y. -/
def keyBytes (d : Nat) : List Nat := let p := ecPublic d
                                     natBytes (toBe 32 p.1 ++ toBe 32 p.2)

/-- A signature by a private key over bytes: ECDSA P-256 with SHA-256 (R10). -/
def signed (d ctr : Nat) (msg : List Nat) : List Nat :=
  let h := sha256 (byteList msg)
  natBytes (ecdsaSign d (Config.sigSecret d (natBytes h) ctr) h)

/-- What an SPDM signature is made over: the version's prefix four times, zeros, the context, the hash of the transcript (log entry 47). -/
def spdmSigned (d ctr v : Nat) (context : String) (msg : List Nat) : List Nat :=
  let text := fun (t : String) => t.toList.map (fun c => c.toNat)
  let pre := text "dmtf-spdm-v1." ++ [0x30 + v % 16] ++ text ".*"
  let ctx := text context
  signed d ctr (pre ++ pre ++ pre ++ pre ++ copies (36 - ctx.length) 0 ++ ctx ++ natBytes (sha256 (byteList msg)))

/-- The certificate chain of slot 0: the alias certificate, which the identity key signs and nothing else, then the identity certificate
(R302, R303). -/
def State.certChain (s : State) : List Nat :=
  let id := s.xd.identity
  let body := Config.certBody 0 (keyBytes s.xd.alias_)
  Config.certificate body (signed id 0 body) ++ Config.certificate (Config.certBody 1 (keyBytes id)) []

/-- The messages up to the algorithms go into the transcript. -/
def State.logA (s : State) (req resp : List Nat) : State :=
  { s with xd := { s.xd with spdmA := s.xd.spdmA ++ req ++ resp, spdmB := [], spdmL := [] } }.respond resp

/-- The messages of digests and certificates go into the transcript. -/
def State.logB (s : State) (req resp : List Nat) : State :=
  { s with xd := { s.xd with spdmB := s.xd.spdmB ++ req ++ resp, spdmL := [] } }.respond resp

/-- What follows a response's opaque data: with version 1.3 the requester's context, the last 8 bytes of its request. -/
def spdmTail (v : Nat) (req : List Nat) : List Nat := if v = 0x13 then req.drop (req.length - 8) else []

/-- SPDM GET_VERSION (R303). -/
def execSpdmGetVersion (req : List Nat) (s : State) : Out :=
  .next ({ s with xd := { s.xd with spdmVer := true, spdmCaps := false, spdmAlg := false, spdmA := [] } }.logA req
    [0x10, 0x04, 0, 0, 0, 2, 0x00, 0x12, 0x00, 0x13])

/-- SPDM GET_CAPABILITIES (R303): certificates, challenges and signed measurements; no sessions. -/
def execSpdmGetCapabilities (req : List Nat) (s : State) : Out :=
  .next (s.spdm req s.xd.spdmVer (fun v =>
    { s with xd := { s.xd with spdmCaps := true, spdmAlg := false } }.logA req
      ([v, 0x61, 0, 0, 0] ++ freeBytes s.freeCtr 1 ++ [0, 0] ++ leNats 4 0x16 ++ freeBytes (s.freeCtr + 1) 8)))

/-- SPDM NEGOTIATE_ALGORITHMS (R303): ECDSA P-256 and SHA-256 alone. -/
def execSpdmNegotiateAlgorithms (req : List Nat) (s : State) : Out :=
  .next (s.spdm req s.xd.spdmCaps (fun v =>
    { s with xd := { s.xd with spdmAlg := true } }.logA req
      ([v, 0x63, 0, 0] ++ leNats 2 36 ++ [1, 0] ++ leNats 4 2 ++ leNats 4 0x10 ++ leNats 4 1 ++ copies 16 0)))

/-- SPDM GET_DIGESTS, slot 0 (R303). -/
def execSpdmGetDigests (req : List Nat) (s : State) : Out :=
  .next (s.spdm req s.xd.spdmAlg (fun v => s.logB req ([v, 0x01, 0, 1] ++ natBytes (sha256 (byteList s.certChain)))))

/-- SPDM GET_CERTIFICATE, slot 0 (R303). -/
def execSpdmGetCertificate (req : List Nat) (s : State) : Out :=
  .next (s.spdm req s.xd.spdmAlg (fun v =>
    let b := byteList req
    if nth 0 req 2 % 16 ≠ 0 then s.spdmError v 0x01
    else
      let part := (s.certChain.drop (leAt b 4 2)).take (leAt b 6 2)
      s.logB req ([v, 0x02, 0, 0] ++ leNats 2 part.length ++ leNats 2 (s.certChain.length - leAt b 4 2 - part.length) ++ part)))

/-- The eight measurement registers (R302). -/
def State.measAll (s : State) : List Byte := ((upFrom 0 8).map (fun i => tget zeros32 s.xd.meas i)).flatten

/-- SPDM CHALLENGE (R303): signed with the alias key over the dialogue so far. -/
def execSpdmChallenge (req : List Nat) (s : State) : Out :=
  .next (s.spdm req s.xd.spdmAlg (fun v =>
    if nth 0 req 2 % 16 ≠ 0 then s.spdmError v 0x01
    else
      let summary := if nth 0 req 3 = 0 then [] else natBytes (sha256 s.measAll)
      let resp := [v, 0x03, 0, 1] ++ natBytes (sha256 (byteList s.certChain)) ++ freeBytes s.freeCtr 32 ++ summary ++ [0, 0] ++ spdmTail v req
      { s with xd := { s.xd with spdmB := [], spdmL := [] } }.respond
        (resp ++ spdmSigned s.xd.alias_ s.freeCtr v "responder-challenge_auth signing" (s.xd.spdmA ++ s.xd.spdmB ++ req ++ resp))))

/-- A measurement block of an SPDM response. -/
def State.measBlock (s : State) (i : Nat) : List Nat :=
  [i + 1, 1] ++ leNats 2 35 ++ [min i 3] ++ leNats 2 32 ++ natBytes (tget zeros32 s.xd.meas i)

/-- SPDM GET_MEASUREMENTS (R303): the number of registers, one, or all eight; signed with the alias key where asked, over the messages of
measurements since the last signature. -/
def execSpdmGetMeasurements (req : List Nat) (s : State) : Out :=
  .next (s.spdm req s.xd.spdmAlg (fun v =>
    let op := nth 0 req 3
    let which := if op = 0 then [] else if op = 0xFF then upFrom 0 8 else if op ≤ 8 then [op - 1] else []
    if 8 < op ∧ op ≠ 0xFF then s.spdmError v 0x01
    else
      let blocks := (which.map s.measBlock).flatten
      let resp := [v, 0x60, if op = 0 then 8 else 0, 0, which.length] ++ leNats 3 blocks.length ++ blocks ++ freeBytes s.freeCtr 32 ++ [0, 0]
        ++ spdmTail v req
      let log := s.xd.spdmL ++ req ++ resp
      if bitOf (nth 0 req 2) 0 then
        { s with xd := { s.xd with spdmL := [] } }.respond
          (resp ++ spdmSigned s.xd.alias_ s.freeCtr v "responder-measurements signing" (s.xd.spdmA ++ log))
      else { s with xd := { s.xd with spdmL := log } }.respond resp))

end Sys2Proof.Machine
end

