-- ==== Sys2Proof/Machine/Objects.lean ====
section
/-! DEFINITION. Replayed objects: base rank tables and substitutions, `membership`, `trainctl`, methods run on a replay engine
(R342, R366 to R370, R377 to R380). -/
namespace Sys2Proof.Machine

/-- The base rank tables of a partition (R386; log entry 43). -/
def baseTables (s : State) (a : Nat) : List (Nat × Nat) → List (Nat × List Nat)
  | [] => []
  | (g, n) :: rest => (g, (upFrom 0 n).map (fun i => s.homeLe (a + 2 * i) 2)) :: baseTables s (a + 2 * n) rest

/-- The base rank tables of a partition. -/
def State.baseRanks (s : State) (part : Nat) : List (Nat × List Nat) :=
  let c := (s.part part).cfg
  if c.nx = 0 then [] else baseTables s (s.homeLe (c.nx + 0x30) 8) c.groups

/-- The state of `membership` (R377): substitutions are pairs (base, now). -/
structure Memb where
  gen : Nat
  subs : List (Nat × Nat)
  spares : List Nat
  joiner : Nat
  pbase : Nat
  pgid : Nat
  cuff : Nat
  last : Nat
  deriving DecidableEq, Repr

/-- All ones: no cuff position. -/
def noCuff : Nat := 2 ^ 64 - 1

/-- `membership` when the partition is configured: no change yet (R377, R353). -/
def Memb.start : Memb := ⟨0, [], [], 0xFFFF, 0, 0, noCuff, 0⟩

/-- Read the state block of `membership` (R377). -/
def Memb.read (bs : List Byte) : Memb :=
  ⟨leAt bs 0 2, (upFrom 0 (min (leAt bs 2 2) 256)).map (fun i => (leAt bs (0x100 + 4 * i) 2, leAt bs (0x102 + 4 * i) 2)),
   (upFrom 0 (min (leAt bs 4 2) 64)).map (fun i => leAt bs (0x40 + 2 * i) 2), leAt bs 6 2, leAt bs 8 2, leAt bs 0x0A 2, leAt bs 0x10 8,
   leAt bs 0x18 8⟩

/-- Write the state block of `membership` (R377). -/
def Memb.bytes (m : Memb) : List Byte :=
  padTo 4096 (padTo 0x40 (toLe 2 m.gen ++ toLe 2 m.subs.length ++ toLe 2 m.spares.length ++ toLe 2 m.joiner ++ toLe 2 m.pbase
      ++ toLe 2 m.pgid ++ toLe 4 0 ++ toLe 8 m.cuff ++ toLe 8 m.last)
    ++ padTo 192 ((m.spares.map (toLe 2)).flatten) ++ (m.subs.map (fun x => toLe 2 x.1 ++ toLe 2 x.2)).flatten)

/-- A base package under the substitutions (R378). -/
def Memb.now (m : Memb) (b : Nat) : Nat :=
  match firstOf (fun (x : Nat × Nat) => decide (x.1 = b)) m.subs with
  | some x => x.2
  | none => b

/-- The derived rank tables (R378). -/
def Memb.derived (m : Memb) (base : List (Nat × List Nat)) : List (Nat × List Nat) := base.map (fun t => (t.1, t.2.map m.now))

/-- A package is live: some derived entry names it (R378). -/
def Memb.live (m : Memb) (base : List (Nat × List Nat)) (p : Nat) : Bool :=
  decide (p ≠ 0xFFFF) && (m.derived base).any (fun t => decide (p ∈ t.2))

/-- A clone is pending. -/
def Memb.pending (m : Memb) : Bool := decide (m.joiner ≠ 0xFFFF)

/-- The packages of the live ranks of the pending group, in rank order, the first 64: the donors (R383). -/
def Memb.donors (m : Memb) (base : List (Nat × List Nat)) : List Nat :=
  match firstOf (fun (t : Nat × List Nat) => decide (t.1 = m.pgid)) (m.derived base) with
  | some t => (t.2.filter (fun p => decide (p ≠ 0xFFFF))).take 64
  | none => []

/-- A base package is vacant. -/
def Memb.vacant (m : Memb) (b : Nat) : Bool := m.subs.any (fun x => decide (x.1 = b) && decide (x.2 = 0xFFFF))

/-- Cancel a pending clone (R378). -/
def Memb.cancel (m : Memb) : Memb := { m with joiner := 0xFFFF, cuff := noCuff }

/-- The next generation, at a position (R377, R378). -/
def Memb.bump (m : Memb) (pos : Nat) : Memb := { m with gen := (m.gen + 1) % 65536, last := pos }

/-- Every place of a package goes to another, and with `own` its base's place too, whatever it has gone to (R378); none where the table of
substitutions is full. -/
def Memb.subst (m : Memb) (base : List (Nat × List Nat)) (x y : Nat) (own : Bool) : Option Memb :=
  let named := base.any (fun t => decide (x ∈ t.2))
  let has := m.subs.any (fun e => decide (e.1 = x))
  let subs := m.subs.map (fun e => if e.2 = x ∨ (own ∧ e.1 = x) then (e.1, y) else e)
  if named ∧ !has then (if 256 ≤ m.subs.length then none else some { m with subs := subs ++ [(x, y)] })
  else some { m with subs := subs }

/-- What a method gives: the result and the object's state, or a trap code (R370). -/
abbrev Called (α : Type) := (Nat × α) ⊕ Nat

/-- `membership.expel` (R378). -/
def Memb.expel (m : Memb) (base : List (Nat × List Nat)) (x pos : Nat) : Called Memb :=
  if m.live base x then
    let m1 := if m.pending ∧ (m.joiner = x ∨ x ∈ m.donors base) then m.cancel else m
    match m1.subst base x 0xFFFF false with
    | none => .inr 0x1001
    | some m2 => let m3 := m2.bump pos
                 .inl (m3.gen, m3)
  else if x ∈ m.spares then .inl (m.gen, { m with spares := m.spares.filter (fun p => decide (p ≠ x)) })
  else .inl (m.gen, m)

/-- `membership.admit` (R378). -/
def Memb.admitJoiner (m : Memb) (sp b pos : Nat) : Called Memb :=
  if m.pending ∧ m.joiner = sp ∧ m.pbase = b ∧ m.vacant b ∧ m.cuff ≠ noCuff then
    let m1 : Memb := { m with subs := m.subs.map (fun e => if e.1 = b then (b, sp) else e), spares := m.spares.filter (fun p => decide (p ≠ sp)) }
    let m2 := m1.cancel.bump pos
    .inl (m2.gen, m2)
  else .inr 0x1001

/-- `membership.replace` (R378). -/
def Memb.replace (m : Memb) (base : List (Nat × List Nat)) (x sp pos : Nat) : Called Memb :=
  let clash := m.pending && (decide (x = m.joiner) || decide (x = m.pbase) || decide (sp = m.joiner) || decide (sp = m.pbase))
  if m.live base x ∧ sp ∈ m.spares ∧ !clash then
    match m.subst base x sp true with
    | none => .inr 0x1001
    | some m1 => let m2 := ({ m1 with spares := m1.spares.filter (fun p => decide (p ≠ sp)) } : Memb).bump pos
                 .inl (m2.gen, m2)
  else .inr 0x1001

/-- `membership.clone` (R378). -/
def Memb.clone (m : Memb) (base : List (Nat × List Nat)) (sp b g : Nat) : Called Memb :=
  let names := decide (g < 2 ^ 14) && base.any (fun t => decide (t.1 = g) && decide (b ∈ t.2))
  if m.pending ∨ sp ∉ m.spares ∨ !m.vacant b ∨ !names then .inr 0x1001
  else .inl (0, { m with joiner := sp, pbase := b, pgid := g, cuff := noCuff })

/-- `membership.abort` (R378). -/
def Memb.abort (m : Memb) : Called Memb := .inl (0, if m.pending then m.cancel else m)

/-- `membership.addspare` (R378). -/
def Memb.addspare (m : Memb) (base : List (Nat × List Nat)) (p : Nat) : Called Memb :=
  if m.live base p ∨ p ∈ m.spares then .inl (m.spares.length, m)
  else if 64 ≤ m.spares.length then .inr 0x1001
  else .inl (m.spares.length + 1, { m with spares := m.spares ++ [p] })

/-- `membership.getgen` (R378). -/
def Memb.getgen (m : Memb) : Called Memb := .inl (m.gen, m)

/-- The state of `trainctl` (R379). -/
structure Train where
  step : Nat
  applied : Nat
  scale : Nat
  clip : Nat
  good : Nat
  growth : Nat
  hist : Nat
  last : Nat
  deriving DecidableEq, Repr

/-- f32 1.0 and 2^24. -/
def f32One : Nat := 0x3F800000
def f32Top : Nat := 0x4B800000

/-- `trainctl` when the partition is configured (R379). -/
def Train.start : Train := ⟨0, 0, f32One, f32One, 0, 2000, 0, 0⟩

/-- Read and write the state block of `trainctl` (R379). -/
def Train.read (bs : List Byte) : Train :=
  ⟨leAt bs 0 8, leAt bs 8 8, leAt bs 0x10 4, leAt bs 0x14 4, leAt bs 0x18 4, leAt bs 0x1C 4, leAt bs 0x20 8, leAt bs 0x28 8⟩
def Train.bytes (t : Train) : List Byte :=
  padTo 64 (toLe 8 t.step ++ toLe 8 t.applied ++ toLe 4 t.scale ++ toLe 4 t.clip ++ toLe 4 t.good ++ toLe 4 t.growth ++ toLe 8 t.hist ++ toLe 8 t.last)

/-- The history with one more step (R379). -/
def Train.note (t : Train) (skip : Bool) : Train := { t with hist := (2 * t.hist + (if skip then 1 else 0)) % 2 ^ 64 }

/-- `trainctl.step` (R380); `membership`'s cuff position is set by the first step after a `clone`. -/
def Train.stepCall (t : Train) (m : Memb) (n ovf pos : Nat) : Called (Memb × Train) :=
  if n ≠ t.step then .inl (t.applied % 2 ^ 62 + 2 ^ 62, (m, t))
  else
    let t1 : Train := { t with step := (t.step + 1) % 2 ^ 64, last := pos }
    if m.pending then
      .inl (t1.applied % 2 ^ 63 + 2 ^ 63, ({ m with cuff := if m.cuff = noCuff then pos else m.cuff }, t1.note true))
    else if ovf % 2 = 1 then
      .inl (t1.applied % 2 ^ 63 + 2 ^ 63, (m, ({ t1 with scale := max (t1.scale - 2 ^ 23) f32One, good := 0 } : Train).note true))
    else
      let t2 : Train := { t1 with applied := (t1.applied + 1) % 2 ^ 64, good := t1.good + 1 }
      let t3 : Train := if t2.good = t2.growth then { t2 with scale := min (t2.scale + 2 ^ 23) f32Top, good := 0 } else t2
      .inl (t3.applied % 2 ^ 62, (m, t3.note false))

/-- `trainctl.setscale` (R380). -/
def Train.setscale (t : Train) (v : Nat) : Called Train :=
  if v % 2 ^ 23 = 0 ∧ f32One ≤ v ∧ v ≤ f32Top then .inl (0, { t with scale := v }) else .inr 0x1001

/-- `trainctl.setclip` (R380). -/
def Train.setclip (t : Train) (v : Nat) : Called Train :=
  if v ≠ 0 ∧ v < 0x7F800000 then .inl (0, { t with clip := v }) else .inr 0x1001

/-- `trainctl.setgrowth` (R380). -/
def Train.setgrowth (t : Train) (v : Nat) : Called Train := if 1 ≤ v ∧ v ≤ 2 ^ 31 then .inl (0, { t with growth := v }) else .inr 0x1001

/-- `trainctl.getscale` and `trainctl.getstep` (R380). -/
def Train.getscale (t : Train) : Called Train := .inl (t.clip * 2 ^ 32 + t.scale, t)
def Train.getstep (t : Train) : Called Train := .inl (t.step, t)

/-- The address that ends a method (R369). -/
def methodEnd : Nat := 0xFFFFFFFC

/-- A step's outcome in a method run: the words below act on management core 0 of a machine of their own. -/
def methodOut (o : Out) : State ⊕ Nat :=
  match o with
  | .next u => if (u.mc 0).stopped then .inr 2 else .inl u
  | _ => .inr 2

/-- `sld` and `sst` of a method: the state block and the argument stand in the memory of core 1 (R369, R370). -/
def methodLoad (size d a z o : Nat) (t : State) : State ⊕ Nat :=
  let r := (t.mc 0).sregs
  let ad := scalarAddr r a z o
  let n := sizeOf z
  if ad + n ≤ size ∨ (0x1000 ≤ ad ∧ ad + n ≤ 0x1040) then
    .inl (t.setSregs (sfresh r d (leAt (tgets 0 (t.mc 1).sram ad n) 0 n))).retire
  else .inr 3
def methodStore (size : Nat) (ro : Bool) (d a z o : Nat) (t : State) : State ⊕ Nat :=
  let r := (t.mc 0).sregs
  let ad := scalarAddr r a z o
  let n := sizeOf z
  if size < ad + n then .inr 3
  else if ro then .inr 5
  else .inl (t.setMc 1 { t.mc 1 with sram := tsets 0 (t.mc 1).sram ad (toLe n (sval r d % 2 ^ (8 * n))) }).retire

/-- One word of a method (R369, R370): a word that a method may not use ends it whatever its clause's guard (R18, R33). -/
def methodWord (size : Nat) (ro : Bool) (i : Instr) (t : State) : State ⊕ Nat :=
  let off := decide (t.cur.act = [])
  match i with
  | .clauseHeader n cls y wait b bar g sense guard => methodOut (execClauseHeader n cls y wait b bar g sense guard t)
  | .sadd d a b => methodOut (execSadd d a b t)
  | .ssub d a b => methodOut (execSsub d a b t)
  | .smul d a b => methodOut (execSmul d a b t)
  | .smulh d a b => methodOut (execSmulh d a b t)
  | .sand d a b => methodOut (execSand d a b t)
  | .sor d a b => methodOut (execSor d a b t)
  | .sxor d a b => methodOut (execSxor d a b t)
  | .sshl d a b => methodOut (execSshl d a b t)
  | .sshr d a b => methodOut (execSshr d a b t)
  | .ssra d a b => methodOut (execSsra d a b t)
  | .smin d a b => methodOut (execSmin d a b t)
  | .smax d a b => methodOut (execSmax d a b t)
  | .smov d a => methodOut (execSmov d a t)
  | .smovi d x => methodOut (execSmovi d x t)
  | .slui d a x => methodOut (execSlui d a x t)
  | .scmp c p a b => methodOut (execScmp c p a b t)
  | .ssel d a b p => methodOut (execSsel d a b p t)
  | .sfadd d a b => methodOut (execSfadd d a b t)
  | .sfmul d a b => methodOut (execSfmul d a b t)
  | .sfma d a b => methodOut (execSfma d a b t)
  | .sld d a z o => if off then .inl t.retire else methodLoad size d a z o t
  | .sst d a z o => if off then .inl t.retire else methodStore size ro d a z o t
  | .bru n c o => methodOut (execBru n c o t)
  | .jmpi a v => methodOut (execJmpi a v t)
  | .call o => methodOut (execCall o t)
  | .ret => methodOut (execRet t)
  | .nop => methodOut (execNop t)
  | .trap imm => if off then .inl t.retire else .inr (0x1000 + imm)
  | _ => .inr 2

/-- Run a method's words: at most `n` more (R370). -/
def methodLoop (size : Nat) (ro : Bool) : Nat → Nat → State → State ⊕ Nat
  | 0, _, _ => .inr 1
  | fuel + 1, n, t =>
    if (t.mc 0).pc.toNat = methodEnd then .inl t
    else match t.mgmtNext 0 with
    | .done _ => .inr 2
    | .word i u =>
      let header := decide (u.cur.pc = u.cur.hdr)
      if !header && decide (n = 0) then .inr 1
      else match methodWord size ro i u with
        | .inr c => .inr c
        | .inl v => methodLoop size ro fuel (if header then n else n - 1) v

/-- A machine for one method run (R369). -/
def methodStart (code data : List Byte) (arg : List Byte) (entry caller pos meth : Nat) : State :=
  let r := swrv true (swrv true (swrv true (swrv true ([] : SRegs) 1 caller) 2 pos) 3 meth) 63 methodEnd
  let m0 : Mc := { Mc.reset with waiting := false, sram := tsets 0 [] 0 code, sregs := r, pc := BitVec.ofNat 48 (4 * entry),
                                 hdr := 4 * entry, heads := [4 * entry] }
  let m1 : Mc := { Mc.reset with sram := tsets 0 (tsets 0 [] 0 data) 0x1000 arg }
  ({ State.reset with xd := { Xdie.reset with boot := 0xF0 } }.setMc 0 m0).setMc 1 m1

/-- A method of a program's object run to its end (R366, R369, R370). -/
def runUser (code data arg : List Byte) (entry caller pos meth : Nat) (ro : Bool) : Called (List Byte) :=
  match methodLoop data.length ro 131100 65536 (methodStart code data arg entry caller pos meth) with
  | .inr c => .inr c
  | .inl t => .inl (sval (t.mc 0).sregs 1, tgets 0 (t.mc 1).sram 0 data.length)

/-- The descriptor of an object in the object table (R366). -/
def State.objDesc (s : State) (part obj : Nat) : List Byte :=
  let nx := (s.part part).cfg.nx
  if nx = 0 then [] else s.homeBytes (s.homeLe (nx + 0x28) 8 + 256 * obj) 256

/-- The methods of an object; 0 for no object (R366, R378, R380). -/
def State.methodsOf (s : State) (part obj : Nat) : Nat :=
  if !(s.part part).on then 0
  else match obj with
  | 0 => 7
  | 1 => 6
  | _ =>
    let d := s.objDesc part obj
    if 64 ≤ obj ∨ leAt d 0 2 = 0 then 0 else min (leAt d 2 1) 32

/-- A call: caller, object, method, argument. -/
structure CallE where
  caller : Nat
  obj : Nat
  meth : Nat
  args : List Nat
  deriving DecidableEq, Repr

/-- The object states of a partition with `membership` and `trainctl` replaced. -/
def putStd (objs : Sparse (List Byte)) (m : Memb) (t : Train) : Sparse (List Byte) := tset [] (tset [] objs 0 m.bytes) 1 t.bytes

/-- Run a call on a partition's objects: the result and the objects after it, or a trap code (R369, R370). -/
def State.runCall (s : State) (part : Nat) (e : CallE) (pos : Nat) (ro : Bool) : Called (Sparse (List Byte)) :=
  let p := s.part part
  let base := s.baseRanks part
  let m := Memb.read (tget [] p.objs 0)
  let t := Train.read (tget [] p.objs 1)
  let a := fun (i : Nat) => nth 0 e.args i
  let memb := fun (r : Called Memb) => match r with
    | .inl x => if ro && decide (x.2 ≠ m) then (.inr 5 : Called (Sparse (List Byte))) else .inl (x.1, putStd p.objs x.2 t)
    | .inr c => .inr c
  let train := fun (writes : Bool) (r : Called Train) => match r with
    | .inl x => if ro && writes then (.inr 5 : Called (Sparse (List Byte))) else .inl (x.1, putStd p.objs m x.2)
    | .inr c => .inr c
  if s.methodsOf part e.obj ≤ e.meth then .inr 2
  else match e.obj, e.meth with
  | 0, 0 => memb (m.expel base (a 0 % 65536) pos)
  | 0, 1 => memb (m.admitJoiner (a 0 % 65536) (a 1 % 65536) pos)
  | 0, 2 => memb (m.replace base (a 0 % 65536) (a 1 % 65536) pos)
  | 0, 3 => memb (m.clone base (a 0 % 65536) (a 1 % 65536) (a 2 % 65536))
  | 0, 4 => memb m.abort
  | 0, 5 => memb (m.addspare base (a 0 % 65536))
  | 0, _ => memb m.getgen
  | 1, 0 => (match t.stepCall m (a 0) (a 1) pos with
    | .inl x => if ro && decide (x.2 ≠ (m, t)) then .inr 5 else .inl (x.1, putStd p.objs x.2.1 x.2.2)
    | .inr c => .inr c)
  | 1, 1 => train true (t.setscale (a 0 % 2 ^ 32))
  | 1, 2 => train true (t.setclip (a 0 % 2 ^ 32))
  | 1, 3 => train true (t.setgrowth (a 0))
  | 1, 4 => train false t.getscale
  | 1, _ => train false t.getstep
  | o, k =>
    let entry := leAt (s.objDesc part o) (0x20 + 4 * k) 4 % 65536
    match runUser (tget [] p.images o) (tget [] p.objs o) ((e.args.map (toLe 8)).flatten) entry e.caller pos k ro with
    | .inl x => .inl (x.1, if ro then p.objs else tset [] p.objs o x.2)
    | .inr c => .inr c

/-- The status word of a call (R370, R372). -/
def callStatus (r : Called (Sparse (List Byte))) : Nat := match r with | .inl _ => 0 | .inr c => 0x11 + 256 * c

/-- The result of a call (R370). -/
def callResult (r : Called (Sparse (List Byte))) : Nat := match r with | .inl x => x.1 % 2 ^ 64 | .inr _ => 0

end Sys2Proof.Machine
end

