-- ==== Sys2Proof/Machine/Nirrax.lean ====
section
/-! DEFINITION. The Nirrax engine: frames, possessions and the cap, the broadcast order of the leaf and of the spine,
publications, call placement, trim points, suspicion and expulsion (R355 to R365, R367, R371, R376). A frame stands as its
256 bytes; what protects it on the way stands outside the model (log entry 42). -/
namespace Sys2Proof.Machine

/-- Fields of a frame's header, and its payload (R356). -/
def fKind (f : List Byte) : Nat := leAt f 0 1
def fSender (f : List Byte) : Nat := leAt f 1 2 % 4096
def fFlags (f : List Byte) : Nat := leAt f 3 1
def fPart (f : List Byte) : Nat := leAt f 4 1
def fRot (f : List Byte) : Nat := leAt f 5 2
def fSeq (f : List Byte) : Nat := leAt f 7 8
def fN (f : List Byte) : Nat := leAt f 16 1
def fOrigin (f : List Byte) : Nat := leAt f 17 2 % 4096
def fBody (f : List Byte) : List Byte := (f.drop 32).take 208

/-- A frame as it is sent (R356). -/
def stampFrame (sender origin n idx seq rot flags : Nat) (f : List Byte) : List Byte :=
  padTo 256 (toLe 1 (fKind f) ++ toLe 2 sender ++ toLe 1 flags ++ toLe 1 (fPart f) ++ toLe 2 rot ++ toLe 8 seq ++ toLe 1 idx
    ++ toLe 1 n ++ toLe 2 origin ++ copies 13 0 ++ fBody f)

/-- The same frame, sent again (R359). -/
def repeated (f : List Byte) : List Byte := patch f 3 (toLe 1 (fFlags f ||| 1))

/-- The two groups: the leaf, and the spine (R355, R360). -/
def State.nxRing (s : State) (spine : Bool) : NxRing := if spine then s.nx.spine else s.nx.leaf
def State.setNxRing (s : State) (spine : Bool) (g : NxRing) : State :=
  if spine then { s with nx := { s.nx with spine := g } } else { s with nx := { s.nx with leaf := g } }

/-- The pod and the slot of a package (R322, R355). -/
def podOf (p : Nat) : Nat := p / 128
def nxSlot (p : Nat) : Nat := p % 128

/-- The place of the package in a group: its slot on the leaf, its pod on the spine. -/
def State.ownPlace (s : State) (spine : Bool) : Nat := if spine then podOf s.pkgId else nxSlot s.pkgId

/-- The port of a group: 32 the leaf's, 33 the spine's (R309, R355). -/
def nxPort (spine : Bool) : Nat := if spine then 33 else 32

/-- The group is enabled and its port is up (R310, R355, R388). -/
def State.nxOn (s : State) (spine : Bool) : Bool := bitOf s.nx.ctl.toNat (if spine then 1 else 0) && (s.port (nxPort spine)).up

/-- The port of a group has a counter value left under its key: 2^48 - 1 is never used (R334, R355). -/
def State.nxSends (s : State) (spine : Bool) : Bool := s.nxOn spine && decide ((s.port (nxPort spine)).ctr + 1 < 2 ^ 48)

/-- How many frames a possession of a group may send before its heartbeat: 15, or what the port's counter has values for (R334, R357). -/
def State.nxRoom (s : State) (spine : Bool) : Nat := min 15 (2 ^ 48 - 2 - (s.port (nxPort spine)).ctr)

/-- The next member in ascending cyclic order (R357). -/
def nextIn (ms : List Nat) (k : Nat) : Nat :=
  match firstOf (fun m => decide (k < m)) ms with
  | some m => m
  | none => match leastOf ms with
    | some m => m
    | none => k

/-- Where a member stands after another in the ring, counted from 1 (R358). -/
def placesAfter (ms : List Nat) (from_ own : Nat) : Nat → Nat
  | 0 => 0
  | fuel + 1 => if nextIn ms from_ = own then 1 else 1 + placesAfter ms (nextIn ms from_) own fuel

/-- The package is the relay of its pod: the lowest live slot of the ring (R360). -/
def State.isRelay (s : State) : Bool := decide (leastOf s.nx.leaf.members = some (nxSlot s.pkgId))

/-- The partition's calls and trim proposals have system scope: its base rank tables name packages of more than one pod (log
entry 48). -/
def State.partSys (s : State) (part : Nat) : Bool :=
  (s.baseRanks part).any (fun t => t.2.any (fun p => decide (p ≠ 0xFFFF) && decide (podOf p ≠ podOf s.pkgId)))

/-- The home of a log-ring slot (R367, R386). -/
def State.logSlot (s : State) (part pos : Nat) : Nat :=
  let nx := (s.part part).cfg.nx
  s.homeLe nx 8 + 128 * (pos % 2 ^ s.homeLe (nx + 8) 1)

/-- A call entry (R368). -/
def callEntry (pkg part obj meth : Nat) (args : List Nat) : List Byte :=
  padTo 80 (toLe 2 pkg ++ toLe 1 part ++ toLe 1 obj ++ toLe 1 meth ++ copies 11 0 ++ ((args.take 8).map (toLe 8)).flatten)

/-- A call entry read (R368). -/
def readCall (bs : List Byte) : CallE := ⟨leAt bs 0 2, leAt bs 3 1, leAt bs 4 1, (upFrom 0 8).map (fun i => leAt bs (0x10 + 8 * i) 8)⟩

/-- Queue a call entry, with the group that waits for it. -/
def State.queueCall (s : State) (part : Nat) (e : List Byte) (who : Option (Nat × Nat)) : State :=
  let p := s.part part
  s.setPart part { p with unsent := p.unsent ++ [(e, who)] }

/-- A call of the package's own engines: it waits for room where 8 calls of the partition are unsent (R371). -/
def State.engineCall (s : State) (part : Nat) (e : List Byte) : State :=
  let p := s.part part
  if p.unsent.length < 8 then s.queueCall part e none else s.setPart part { p with ecalls := p.ecalls ++ [e] }

/-- The engines' calls take the room among a partition's unsent calls (R371). -/
def Part.fillCalls (p : Part) : Part :=
  let n := 8 - p.unsent.length
  { p with unsent := p.unsent ++ (p.ecalls.take n).map (fun e => (e, .none)), ecalls := p.ecalls.drop n }

/-- Name a package with a cause, at most once per cause per rotation, never the package itself (R364). -/
def State.suspect (s : State) (pkg cause part : Nat) : State :=
  let n := s.nx
  let r := n.leaf.rot
  if pkg = s.pkgId ∨ (pkg, cause, r) ∈ n.named then s
  else { s with nx := { n with sus := n.sus ++ [(pkg, cause, part)], named := n.named.filter (fun x => decide (x.2.2 = r)) ++ [(pkg, cause, r)] } }

/-- The digest of a checkpoint as a heartbeat carries it (R367). -/
def Part.digAt (p : Part) (rep : Nat) : Nat := leAt (tget [] p.digests (rep / 4096 * 4096)) 0 2

/-- The rep of a partition: the applied count, at most the cuff position plus 1 while a cuff is open (R367, R383). The lowest
gap position is never below the applied count. -/
def Part.rep (p : Part) : Nat := match p.cuff with
  | some k => min p.applied (k + 1)
  | .none => p.applied

/-- Compare a member's digest with the package's own for the same checkpoint (R364, R367). -/
def State.compareDig (s : State) (part slot : Nat) : State :=
  let p := s.part part
  let d := tget (0, 0) p.digs slot
  let own := p.digAt d.1
  if d.2 ≠ 0 ∧ own ≠ 0 ∧ own ≠ d.2 then s.suspect (128 * podOf s.pkgId + slot) 2 part else s

/-- The slots of the pod's live members of a partition (R378). -/
def State.liveSlots (s : State) (part : Nat) : List Nat :=
  let m := Memb.read (tget [] (s.part part).objs 0)
  let base := s.baseRanks part
  (upFrom 0 128).filter (fun k => m.live base (128 * podOf s.pkgId + k))

/-- The trim point, evaluated at a heartbeat (R371). -/
def State.evalTrim (s : State) (part : Nat) : State :=
  let p := s.part part
  let low := ((s.liveSlots part).map (fun k => tget 0 p.reps k)).foldl min p.trimMax
  s.setPart part { p with trim := max p.trim low }

/-- A heartbeat's entry for a partition takes effect (R367, R371). -/
def State.heartEntry (s : State) (slot part e : Nat) : State :=
  let p := s.part part
  if !p.on then s
  else
    let rep := e % 2 ^ 48
    ((s.setPart part { p with reps := tset 0 p.reps slot rep, digs := tset (0, 0) p.digs slot (rep / 4096 * 4096, e / 2 ^ 48) }).compareDig
      part slot).evalTrim part

/-- Call `membership.expel` of a package in every partition in which it is live or a spare (R365, R385). -/
def State.callExpels (s : State) (pkg : Nat) : State :=
  (upFrom 0 24).foldl (fun t p =>
    let k := t.part p
    let m := Memb.read (tget [] k.objs 0)
    if k.on && (m.live (t.baseRanks p) pkg || decide (pkg ∈ m.spares)) then
      let u := t.engineCall p (callEntry t.pkgId p 0 0 [pkg])
      { u with nx := { u.nx with expels := u.nx.expels ++ [(pkg, p)] } }
    else t) s

/-- The system-scope publication of a package that has failed ends unfinished: it is discarded, in the origin's pod once every frame of it that
took effect there has come back relayed (R360, R362). -/
def State.endSysPub (s : State) (o : Nat) : State :=
  if tget 0 s.nx.fly o = 0 then { s with nx := { s.nx with pubs := tset [] s.nx.pubs (2 * o + 1) [], ended := s.nx.ended.filter (fun x => decide (x ≠ o)) } }
  else { s with nx := { s.nx with ended := insNat o s.nx.ended } }

/-- A heartbeat takes effect: confirmed slots leave the ring and their unfinished publications are discarded (R362), the lowest live slot calls
their expulsion, partitions' entries and self-reports are taken (R357, R364, R365, R367, R371). -/
def State.applyHeart (s : State) (f : List Byte) : State :=
  let n := s.nx
  let out := n.leaving
  let ended := out.map (fun k => 2 * (128 * podOf s.pkgId + k))
  let s0 := { s with nx := { n with
    leaving := [], pubs := n.pubs.filter (fun e => decide (e.1 ∉ ended)), leaf := { n.leaf with members := n.leaf.members.filter (fun k => decide (k ∉ out)) } } }
  let s1 := out.foldl (fun t k => t.endSysPub (128 * podOf s.pkgId + k)) s0
  let mine := n.confirmed.filter (fun c => decide (nxSlot c.1 ∈ out))
  let s2 := if s1.isRelay then mine.foldl (fun t c => t.callExpels c.1) s1 else s1
  let s3 := if bitOf (leAt (fBody f) 1 1) 0 then s2.suspect (fSender f) 3 0xFF else s2
  (upFrom 0 24).foldl (fun t p => t.heartEntry (nxSlot (fSender f)) p (leAt (fBody f) (8 + 8 * p) 8)) s3

/-- A suspicion takes effect: three distinct ring members within four rotations confirm the failure (R365). -/
def State.applySuspicion (s : State) (f : List Byte) : State :=
  let n := s.nx
  let x := leAt (fBody f) 0 2 % 4096
  let a := fSender f
  let r := fRot f
  if a = x ∨ nxSlot a ∉ n.leaf.members ∨ nxSlot x ∉ n.leaf.members ∨ podOf x ≠ podOf s.pkgId ∨ nxSlot x ∈ n.leaving then s
  else
    let near := n.votes.filter (fun v => decide (v.1 ≠ x) || decide ((r + 65536 - v.2.2) % 65536 ≤ 4))
    let votes := near.filter (fun v => decide (v.1 ≠ x) || decide (v.2.1 ≠ a)) ++ [(x, a, r)]
    if 3 ≤ (votes.filter (fun v => decide (v.1 = x))).length then
      { s with nx := { n with votes := votes.filter (fun v => decide (v.1 ≠ x)), leaving := n.leaving ++ [nxSlot x], confirmed := n.confirmed ++ [(x, r)] } }
    else { s with nx := { n with votes := votes } }

/-- A repair request takes effect: the frames that this package holds are to be sent again (R359). -/
def State.applyRepair (s : State) (spine : Bool) (f : List Byte) : State :=
  let g := s.nxRing spine
  let a := leAt (fBody f) 0 8
  let n := leAt (fBody f) 8 2
  if fSender f = s.pkgId then s
  else
    let held := (g.frames.filter (fun x => decide (a ≤ fSeq x) && decide (fSeq x < a + n))).map fSeq
    s.setNxRing spine { g with repeats := held.foldl (fun l k => insNat k l) g.repeats }

/-- Write a publication's used entries to the replica of a partition, in entry order (R361, R362). -/
def State.writePub (s : State) (part : Nat) (body : List Byte) : State :=
  match s.mirror part with
  | none => s
  | some (base, n, _) => (upFrom 0 5).foldl (fun t i =>
      let e := (body.drop (40 * i)).take 40
      let a := base + 32 * (leAt e 0 4 % 2 ^ 15)
      let m := leAt e 4 4
      if m = 0 ∨ base + n ≤ a then t
      else t.homeWriteMask (a / 32) (e.drop 8) ((upFrom 0 32).map (fun j => bitOf m j))) s

/-- A publication frame takes effect; a publication is written whole at its last frame (R362). A frame of the package's own
counts toward what its words and ending tasks wait for. -/
def State.applyPub (s : State) (f : List Byte) : State :=
  let sys := bitOf (fFlags f) 1
  let key := 2 * fOrigin f + (if sys then 1 else 0)
  let got := tget [] s.nx.pubs key ++ [f]
  let s1 := if bitOf (fFlags f) 2 then
      got.foldl (fun (t : State) x => if (t.part (fPart x)).on then t.writePub (fPart x) (fBody x) else t)
        { s with nx := { s.nx with pubs := tset [] s.nx.pubs key [] } }
    else { s with nx := { s.nx with pubs := tset [] s.nx.pubs key got } }
  if fOrigin f = s.pkgId then
    { s1 with nx := { s1.nx with podA := s1.nx.podA + (if sys then 0 else 1), sysA := s1.nx.sysA + (if sys then 1 else 0) } }.settle.endTasks
  else s1

/-- A call entry takes its place in the log of its partition (R367). -/
def State.placeCall (s : State) (part origin : Nat) (e : List Byte) : State :=
  let p := s.part part
  if !p.on ∨ leAt e 0 2 = 0xFFFF then s
  else
    let pos := p.placed
    let s1 := s.homeWrite (s.logSlot part pos) (padTo 128 (e ++ toLe 8 pos))
    let own := decide (origin = s.pkgId)
    let p1 := s1.part part
    let s2 := s1.setPart part { p1 with placed := pos + 1, sentCalls := if own then p1.sentCalls.drop 1 else p1.sentCalls }
    let s3 := match own, p1.sentCalls with
      | true, some (b, g) :: _ => s2.updGrp b g (fun x => if x.calling then { x with roPos := some pos } else x)
      | _, _ => s2
    let c := readCall e
    if c.obj = 0 ∧ c.meth = 0 then
      { s3 with nx := { s3.nx with confirmed := s3.nx.confirmed.filter (fun x => decide (x.1 ≠ nth 0 c.args 0 % 65536)) } }
    else s3

/-- A call frame takes effect: two entries, entry 0 first (R356, R367). -/
def State.applyCalls (s : State) (f : List Byte) : State :=
  let b := fBody f
  (s.placeCall (fPart f) (fOrigin f) (b.take 80)).placeCall (fPart f) (fOrigin f) ((b.drop 80).take 80)

/-- A trim proposal takes effect (R371). -/
def State.applyTrim (s : State) (f : List Byte) : State :=
  let p := s.part (fPart f)
  if p.on then s.setPart (fPart f) { p with trimMax := max p.trimMax (leAt (fBody f) 0 8) } else s

/-- The same author's frame with the same payload. -/
def sameFrame (f x : List Byte) : Bool := decide (fOrigin x = fOrigin f) && decide (fKind x = fKind f) && decide (fBody x = fBody f)

/-- Drop the first element that meets a test. -/
def dropOne {α : Type} (p : α → Bool) : List α → List α
  | [] => []
  | x :: rest => if p x then rest else x :: dropOne p rest

/-- A publication frame of the pod's own that has come back relayed is no longer on its way (R360, R362). -/
def State.landed (s : State) (f : List Byte) : State :=
  let o := fOrigin f
  let n := tget 0 s.nx.fly o
  if bitOf (fFlags f) 3 ∧ n ≠ 0 then
    let s1 := { s with nx := { s.nx with fly := tset 0 s.nx.fly o (n - 1) } }
    if o ∈ s1.nx.ended then s1.endSysPub o else s1
  else s

/-- A leaf frame is applied, in `bo` (R359, R360). A frame of system scope waits for its relayed position. -/
def State.applyLeaf (s : State) (f : List Byte) : State :=
  let relayed := bitOf (fFlags f) 3
  let s0 := if relayed ∧ fSender f ≠ s.pkgId then { s with nx := { s.nx with spineIn := dropOne (sameFrame f) s.nx.spineIn } } else s
  match fKind f with
  | 1 => s0.applyHeart f
  | 4 => s0.applySuspicion f
  | 6 => s0.applyRepair false f
  | k =>
    if bitOf (fFlags f) 1 && !relayed then
      let s1 := if k = 2 then { s0 with nx := { s0.nx with fly := tset 0 s0.nx.fly (fOrigin f) (tget 0 s0.nx.fly (fOrigin f) + 1) } } else s0
      if s1.nxOn true then { s1 with nx := { s1.nx with relayOut := s1.nx.relayOut ++ [f] } } else s1
    else match k with
    | 2 => (s0.applyPub f).landed f
    | 3 => s0.applyCalls f
    | 5 => s0.applyTrim f
    | _ => s0

/-- A spine frame is applied, in `so`: one of system scope is to be sent into the leaf (R360). Heartbeats and suspicions of the spine stay
there. -/
def State.applySpine (s : State) (f : List Byte) : State :=
  match fKind f with
  | 6 => s.applyRepair true f
  | _ =>
    if !bitOf (fFlags f) 1 then s
    else
    let mine := decide (podOf (fSender f) = podOf s.pkgId) && decide (fSender f ≠ s.pkgId)
    { s with nx := { s.nx with spineIn := s.nx.spineIn ++ [f], relayOut := if mine then dropOne (sameFrame f) s.nx.relayOut else s.nx.relayOut } }

/-- A member holds the frame of a seq that has not taken effect. -/
def NxRing.holds (g : NxRing) (q : Nat) : Bool := g.wait.any (fun f => decide (fSeq f = q))

/-- The possession of the next frame in the order has closed: its heartbeat is held, and every frame up to it (R358). -/
def NxRing.closed (g : NxRing) : Bool :=
  match leastOf ((g.wait.filter (fun f => decide (fKind f = 1))).map fSeq) with
  | some h => (upFrom (g.seq + 1) (h - g.seq)).all g.holds
  | none => false

/-- Apply the frames that are next in the order, possession by possession (R358, R359). Every member keeps its last 65,536. -/
def State.drainNx (spine : Bool) : Nat → State → State
  | 0, s => s
  | fuel + 1, s =>
    let g := s.nxRing spine
    match (if g.closed then firstOf (fun f => decide (fSeq f = g.seq + 1)) g.wait else none) with
    | none => s
    | some f =>
      let s1 := s.setNxRing spine { g with
        seq := g.seq + 1, wait := g.wait.filter (fun x => decide (fSeq x ≠ g.seq + 1)), frames := (f :: g.frames).take 65536 }
      drainNx spine fuel (if spine then s1.applySpine f else s1.applyLeaf f)

/-- The first frame of the order that a member misses. -/
def NxRing.hole (g : NxRing) : Nat :=
  match firstOf (fun q => !g.holds q) (upFrom (g.seq + 1) (g.wait.length + 1)) with
  | some q => q
  | none => g.seq + 1

/-- Frames of a possession take effect in the order, behind any gap; the first missing frame is noted (R358, R359). -/
def State.mergeNx (s : State) (spine : Bool) (fs : List (List Byte)) : State :=
  let g := s.nxRing spine
  let new := fs.foldl (fun (w : List (List Byte)) f =>
    if fSeq f ≤ g.seq ∨ w.any (fun x => decide (fSeq x = fSeq f)) then w else w ++ [f]) g.wait
  let s1 := drainNx spine (new.length + 1) (s.setNxRing spine { g with wait := new })
  let h := s1.nxRing spine
  let gap := if h.wait = [] then none else match h.gap with
    | some x => if x.1 = h.hole then some x else some (h.hole, h.rot)
    | none => some (h.hole, h.rot)
  s1.setNxRing spine { h with gap := gap }

/-- The highest seq that a member has seen in closed possessions. -/
def NxRing.top (g : NxRing) : Nat := (g.wait.map fSeq).foldl max g.seq

/-- A repair request for the frames missing before the first that waits (R356, R359). -/
def NxRing.request (g : NxRing) : List (List Byte) :=
  match g.gap with
  | some x =>
    let n := match leastOf ((g.wait.map fSeq).filter (fun q => decide (x.1 < q))) with | some w => w - x.1 | none => 1
    [queuedFrame 6 0 0xFF (toLe 8 x.1 ++ toLe 2 (min 256 n))]
  | none => []

/-- The call frames of a partition: two entries each, the place of a missing second one unused (R356, R372). -/
def callFrames (sys : Bool) (part : Nat) : List (List Byte) → List (List Byte)
  | [] => []
  | [a] => [queuedFrame 3 (if sys then 2 else 0) part (a ++ toLe 2 0xFFFF)]
  | a :: b :: rest => queuedFrame 3 (if sys then 2 else 0) part (a ++ b) :: callFrames sys part rest

/-- Take call frames of the partitions, ascending, while there is room. -/
def State.takeCalls (s : State) (room : Nat) : List (List Byte) × State :=
  (upFrom 0 24).foldl (fun (acc : List (List Byte) × State) p =>
    let k := (acc.2.part p).fillCalls
    let es := k.unsent.take (2 * (room - acc.1.length))
    if es.isEmpty then acc
    else (acc.1 ++ callFrames (acc.2.partSys p) p (es.map Prod.fst),
      acc.2.setPart p { k with unsent := k.unsent.drop es.length, sentCalls := k.sentCalls ++ es.map Prod.snd })) ([], s)

/-- The payload of a heartbeat (R356, R364, R367). -/
def State.heartBody (s : State) (next : Nat) : List Byte :=
  let self := s.nx.selfRep || bitOf s.nx.ctl.toNat 2
  toLe 1 next ++ toLe 1 ((if self then 1 else 0) + (if s.anyCuff then 2 else 0)) ++ toLe 6 0
    ++ ((upFrom 0 24).map (fun p => let k := s.part p; toLe 8 (k.digAt k.rep * 2 ^ 48 + k.rep % 2 ^ 48))).flatten

/-- Send a possession of a group: repeats, then the given frames with consecutive seqs, then the heartbeat that passes the
cap; it takes effect here as on every member (R357, R358, R359). Each frame takes a value of the port's counter (R355). -/
def State.possess (s : State) (spine : Bool) (again fs : List (List Byte)) : State :=
  let g := s.nxRing spine
  let own := s.ownPlace spine
  let next := nextIn g.members own
  let id := s.pkgId
  let k := again.length
  let q0 := g.top + 1
  let new := (fs.zip (upFrom 0 fs.length)).map (fun x =>
    let relayed := bitOf (fFlags x.1) 3 || spine
    stampFrame id (if relayed then fOrigin x.1 else id) 0 (k + x.2) (q0 + x.2) g.rot (fFlags x.1 / 2 * 2) x.1)
  let n := k + fs.length
  let rot := if next < own then (g.rot + 1) % 65536 else g.rot
  let heart := stampFrame id id (n + 1) n (q0 + fs.length) rot 0 (queuedFrame 1 0 0xFF (s.heartBody next))
  let x := s.port (nxPort spine)
  let s1 := s.setPort (nxPort spine) { x with ctr := x.ctr + n + 1 }
  (s1.setNxRing spine { g with
    cap := decide (next = own), holder := next, rot := rot, lastSeen := s.cycle, sent := again.map repeated ++ new ++ [heart] }).mergeNx
    spine (new ++ [heart])

/-- The frames to be sent again, as many as a possession has room for; the rest stay (R357, R359). -/
def State.again (s : State) (spine : Bool) : List (List Byte) :=
  (((s.nxRing spine).frames.reverse).filter (fun f => decide (fSeq f ∈ (s.nxRing spine).repeats))).take (s.nxRoom spine)

/-- Count the frames repeated for others and take them off the list (R388). -/
def State.noteAgain (s : State) (spine : Bool) (again : List (List Byte)) : State :=
  let g := s.nxRing spine
  let s1 := s.setNxRing spine { g with repeats := if again.length < s.nxRoom spine then [] else g.repeats.filter (fun q => decide (q ∉ again.map fSeq)) }
  { s1 with nx := { s1.nx with repair := BitVec.ofNat 32 (satAdd 32 s1.nx.repair.toNat again.length) } }

/-- Suspicion frames (R364). -/
def susFrame (x : Nat × Nat × Nat) : List Byte := queuedFrame 4 0 0xFF (toLe 2 x.1 ++ toLe 1 x.2.1 ++ toLe 1 x.2.2)

/-- The possession of a package that holds the leaf's cap (R357, R360, R364, R365, R373, R376). -/
def State.leafTurn (s : State) : State :=
  let again := s.again false
  let s1 := s.noteAgain false again
  let n := s1.nx
  let r2 := n.leaf.request.take (s.nxRoom false - again.length)
  let room2 := s.nxRoom false - again.length - r2.length
  let r3 := if s1.isRelay ∧ s1.nxOn true then n.spineIn.take room2 else []
  let room3 := room2 - r3.length
  let r4 := n.sus.take room3
  let room4 := room3 - r4.length
  let s2 := { s1 with nx := { n with
    spineIn := n.spineIn.drop r3.length, sus := n.sus.drop r4.length, susp := BitVec.ofNat 32 (satAdd 32 n.susp.toNat r4.length) } }
  let (r5, s3) := s2.takeCalls room4
  let r6 := s3.nx.outq.take (room4 - r5.length)
  let s4 := { s3 with nx := { s3.nx with outq := s3.nx.outq.drop r6.length } }
  s4.possess false again (r2 ++ r3.map (fun f => patch f 3 (toLe 1 (fFlags f ||| 8))) ++ r4.map susFrame ++ r5 ++ r6)

/-- The possession of a relay that holds the spine's cap (R360). -/
def State.spineTurn (s : State) : State :=
  let again := s.again true
  let s1 := s.noteAgain true again
  let r2 := s1.nx.spine.request.take (s.nxRoom true - again.length)
  let r3 := s1.nx.relayOut.take (s.nxRoom true - again.length - r2.length)
  let s2 := { s1 with nx := { s1.nx with relayOut := s1.nx.relayOut.drop r3.length } }
  s2.possess true again (r2.map (fun f => patch f 17 (toLe 2 s.pkgId)) ++ r3)

/-- CAP_RECEIVED (R357). -/
def execCapReceived (s : State) : Out :=
  let s1 := if s.nxSends false ∧ s.nx.leaf.cap then s.leafTurn else s
  .next (if s1.nxSends true ∧ s1.isRelay ∧ s1.nx.spine.cap then s1.spineTurn else s1)

/-- The package that holds a group's cap: on the spine the relay that last sent for its pod (R358, R360). -/
def State.holderId (s : State) (spine : Bool) : Nat :=
  let g := s.nxRing spine
  if spine then
    match firstOf (fun f => decide (podOf (fSender f) = g.holder)) g.frames with
    | some f => fSender f
    | none => 128 * g.holder
  else 128 * podOf s.pkgId + g.holder

/-- The package takes the cap of a silent group: 12.8 µs, and 50 ns for every further place (R358). -/
def State.regenerate (s : State) (spine : Bool) : State :=
  let g := s.nxRing spine
  let own := s.ownPlace spine
  let k := placesAfter g.members g.holder own (g.members.length + 1)
  if !s.nxSends spine ∨ g.cap ∨ own ∉ g.members ∨ (spine ∧ !s.isRelay) ∨ s.cycle < g.lastSeen + 51200 + (k - 1) * 200 then s
  else
    let n := s.nx
    let sus := decide (g.holder ∈ g.members) && decide (g.holder ≠ own) && decide (0 < s.nxRoom spine)
    let named := if sus && !spine then n.named ++ [(s.holderId spine, 1, g.rot)] else n.named
    let s1 := { s with nx := { n with regen := satInc32 n.regen, susp := (if sus then satInc32 n.susp else n.susp), named := named } }
    s1.possess spine [] (if sus then [patch (susFrame (s.holderId spine, 1, 0xFF)) 17 (toLe 2 s.pkgId)] else [])

/-- CAP_REGENERATION (R358). -/
def execCapRegeneration (s : State) : Out := .next ((s.regenerate false).regenerate true)

/-- A frame that a member keeps on receipt: 256 bytes, of a kind 1 to 6 (R356). -/
def keptFrame (f : List Byte) : Bool := decide (f.length = 256) && decide (1 ≤ fKind f) && decide (fKind f ≤ 6)

/-- The heartbeat of a possession has been received: it comes last, after no more frames than it says (R358). -/
def heardHeart (fs : List (List Byte)) : Bool :=
  match fs.getLast? with
  | none => false
  | some h => decide (fKind h = 1) && decide (fs.length ≤ fN h) && decide (fN h ≤ 16)

/-- The member saw the cap regenerated: a possession of another than the cap's holder follows the last one directly. The silent holder
is suspected, cause 1 (R364, R365 steps 2 and 3). A possession that leaves a gap before it shows no silence: the holder's may be lost. -/
def State.seeRegenerated (s : State) (spine : Bool) (fs : List (List Byte)) (h : List Byte) : State :=
  let g := s.nxRing spine
  if spine ∨ g.cap ∨ nxSlot (fSender h) = g.holder ∨ g.holder ∉ g.members ∨ !fs.any (fun f => decide (fSeq f = g.top + 1)) then s
  else s.suspect (128 * podOf s.pkgId + g.holder) 1 0xFF

/-- POSSESSION_CLOSE (R356, R358): what a member received between two caps. Without a heartbeat the possession is void; with one it closes
once every frame of it is held, at once or after a repair. Port 32 is the leaf's, 33 the spine's. -/
def execPossessionClose (port : Nat) (frames : List (List Nat)) (s : State) : Out :=
  let spine := decide (port = 33)
  if port ≠ 32 ∧ port ≠ 33 ∨ !s.nxOn spine then .next s
  else
    let fs := (frames.map byteList).filter keptFrame
    let g := s.nxRing spine
    let s1 := s.setNxRing spine { g with lastSeen := s.cycle }
    if !heardHeart fs then .next s1
    else
      let h := match fs.getLast? with | some f => f | none => []
      let g1 := s1.nxRing spine
      let again := (fs.filter (fun f => bitOf (fFlags f) 0)).map fSeq
      let next := leAt (fBody h) 0 1
      .next (((s1.seeRegenerated spine fs h).setNxRing spine { g1 with
        repeats := g1.repeats.filter (fun q => decide (q ∉ again)), holder := next, rot := fRot h,
        cap := decide (next = s.ownPlace spine) }).mergeNx spine fs)

/-- NIRRAX_GAP_TIMEOUT (R359, R364). -/
def execNirraxGapTimeout (s : State) : Out :=
  let late := fun (g : NxRing) => match g.gap with
    | some x => decide (64 ≤ (g.rot + 65536 - x.2) % 65536)
    | none => false
  .next (if late s.nx.leaf || late s.nx.spine then { s with nx := { s.nx with selfRep := true } } else s)

/-- EXPEL_FALLBACK (R365): each four rotations without a call, the next live slot makes the calls. -/
def execExpelFallback (pkg : Nat) (s : State) : Out :=
  match firstOf (fun (c : Nat × Nat) => decide (c.1 = pkg)) s.nx.confirmed with
  | none => .next s
  | some c =>
    let k := (s.nx.leaf.rot + 65536 - c.2) % 65536 / 4
    let live := s.nx.leaf.members.filter (fun m => decide (m ≠ nxSlot pkg))
    .next (if 1 ≤ k ∧ k < live.length ∧ nth 0 live k = nxSlot s.pkgId then s.callExpels pkg else s)

/-- The members of a group at its commissioning: the package itself and those that answered (R355). -/
def State.commission (s : State) (spine : Bool) : State :=
  let own := s.ownPlace spine
  let ms := (upFrom 0 (if spine then 32 else 128)).filter (fun k =>
    decide (k = own) || Config.answered (if spine then 1 else 0) k s.freeCtr)
  let first := match leastOf ms with | some m => m | none => own
  { (s.setNxRing spine { NxRing.reset with members := ms, holder := first, cap := decide (first = own), lastSeen := s.cycle }) with freeCtr := s.freeCtr + 1 }

/-- Write `fe.nxctl` (R388): enabling a group that was not is its commissioning. -/
def State.writeNxctl (s : State) (v : Nat) : State :=
  let old := s.nx.ctl.toNat
  let s1 := { s with nx := { s.nx with ctl := BitVec.ofNat 32 (v % 8) } }
  let s2 := if bitOf v 0 && !bitOf old 0 then s1.commission false else s1
  if bitOf v 1 && !bitOf old 1 then s2.commission true else s2

/-- `fe.nxstat` (R388). -/
def State.nxstat (s : State) : Nat :=
  let own := nxSlot s.pkgId
  let inn := decide (own ∈ s.nx.leaf.members)
  own + (if inn then 256 else 0) + (if inn && s.isRelay then 512 else 0) + 2 ^ 16 * s.nx.leaf.rot

end Sys2Proof.Machine
end

