-- ==== Sys2Proof/Machine/Calls.lean ====
section
/-! DEFINITION. Calls of replayed objects: `rocall`, `rowait`, `roread`, `rotrim`, the replay engine, the generation fence,
cuffs and cloning, a partition's configuration (R292, R366 to R385). -/
namespace Sys2Proof.Machine

/-- A selector word read: object and method; none where it names none (R372). -/
def State.selector (s : State) (part w : Nat) : Option (Nat × Nat) :=
  let obj := w / 256 % 64
  let meth := w % 32
  if w ≠ obj * 256 + meth ∨ s.methodsOf part obj ≤ meth then none else some (obj, meth)

/-- The argument: lanes 0 to 7 of a slot, whatever their state (R373). -/
def argLanes (b : Block) (g : Group) (a : Nat) : List (List RWord) := (upFrom 0 8).map (b.src g .w a)

/-- The checks of `rocall` and `roread`, then what they do with object, method and argument (R372, R389). -/
def objectWord (d a b : Nat) (two : Bool) (f : Block → Group → List Nat → Nat → Nat → List Nat → Out) (s : State) : Out :=
  joinWord (fun k g act =>
    let l0 := lowest act
    let sel := k.src g .w b l0
    let args := argLanes k g a
    let bad := (upFrom 0 8).filter (fun l => !goodOf (nth [] args l))
    if !k.slotsOk g ((if two then [(.w, d + 1)] else []) ++ [(.w, d), (.w, a), (.w, b)]) then .next (s.raise 0x07 0)
    else if !goodOf sel then .next (s.raiseFor 0x04 (maskOf [l0]) 0)
    else if bad ≠ [] then .next (s.raiseFor 0x04 (maskOf bad) 0)
    else match s.selector k.trec.part (valOf sel) with
      | none => .next (s.raise 0x01 0)
      | some (obj, meth) => f k g act obj meth (args.map valOf)) s

/-- The checks of `rowait` and `rotrim`, then what they do with the position (R372, R389). -/
def positionWord (d a : Nat) (two : Bool) (f : Block → Group → List Nat → Nat → Out) (s : State) : Out :=
  joinWord (fun k g act =>
    let l0 := lowest act
    let w := k.src g .w a l0
    if !k.slotsOk g ((if two then [(.w, d + 1)] else []) ++ [(.w, d), (.w, a)]) then .next (s.raise 0x07 0)
    else if !goodOf w then .next (s.raiseFor 0x04 (maskOf [l0]) 0)
    else if 2 ^ 48 ≤ valOf w then .next (s.raise 0x01 0)
    else f k g act (valOf w)) s

/-- Each group keeps the highest position returned to it (R372). -/
def State.noteSeen (s : State) (b g p : Nat) : State := s.updGrp b g (fun x => { x with roseen := BitVec.ofNat 64 (max x.roseen.toNat p) })

/-- A halt that waited for a queued call goes on once the last of them is placed (R373). -/
def State.afterCall (s : State) (bid : Nat) : State :=
  match s.blk bid with
  | none => s
  | some b => if b.stopping && !b.calling then s.resume bid else s

/-- A new call waits for room: fewer than 8 unsent, and fewer than 2^lg - 1,024 placed beyond the trim point (R373). -/
def State.callRoom (s : State) (part : Nat) : Bool :=
  let p := s.part part
  let lg := if p.cfg.nx = 0 then 0 else s.homeLe (p.cfg.nx + 8) 1
  decide (p.unsent.length < 8) && decide (p.placed - p.trim < 2 ^ lg - 1024)

/-- What a word of the current group waits for is counted from its first wait, that is from its issue (R144, R372). -/
def State.fromIssue (t : State) (b g : Nat) (w : Wait) : State :=
  match t.bg b g with
  | some (_, y) => (match y.wait with
    | some v => if v.pc = w.pc then t.updGrp b g (fun z => { z with wait := some { v with start := w.start } }) else t
    | none => t)
  | none => t

/-- The outcome of a word that may wait for one thing after another, its limit counted from its issue (R144, R372). -/
def State.sinceIssue (s : State) (o : Out) : Out :=
  match s.cur.ag, o with
  | .group b g, .next t => (match s.bg b g with
    | some (_, x) => (match x.wait with
      | some w => .next (if w.pc = s.cur.pc then t.fromIssue b g w else t)
      | none => .next t)
    | none => .next t)
  | _, o => o

/-- `rocall` (R373). A queued call waits for its place and for nothing else; `cr.prstimeout` limits the whole of its waiting (R372, log
entry 49). -/
def execRocall (d a b : Nat) (s : State) : Out :=
  s.sinceIssue (joinWord (fun k g act =>
    if g.calling then
      match g.roPos with
      | none => .next s
      | some p =>
        let s1 := (s.updGrp k.id g.num (fun x => { x with roPos := none, wait := none })).noteSeen k.id g.num p
        .next ((s1.retire.giveAll k.id g.num .w d act p).afterCall k.id)
    else objectWord d a b false (fun k g _ obj meth args =>
      match s.pubFirst k g.wait true 3 with
      | .inl t => .next t
      | .inr t =>
        if !t.callRoom k.trec.part then .next (t.wait .object)
        else
          let t1 := t.queueCall k.trec.part (callEntry t.pkgId k.trec.part obj meth args) (some (k.id, g.num))
          .next ((t1.updGrp k.id g.num (fun x => { x with roPos := none })).wait .called)) s) s)

/-- `rowait` (R374). -/
def execRowait (d a : Nat) (s : State) : Out :=
  positionWord d a true (fun k g act p =>
    let q := s.part k.trec.part
    if q.applied ≤ p then .next (s.wait .object)
    else
      let at_ := s.logSlot k.trec.part p
      let r := if p < q.trim then 0 else s.homeLe (at_ + 88) 8
      let st := if p < q.trim then 0x20 else s.homeLe (at_ + 96) 8
      let s1 := (s.noteSeen k.id g.num p).retire
      .next ((s1.giveAll k.id g.num .w d act r).giveAll k.id g.num .w (d + 1) act st)) s

/-- `roread` (R375). -/
def execRoread (d a b : Nat) (s : State) : Out :=
  objectWord d a b true (fun k g act obj meth args =>
    let n := (s.part k.trec.part).applied
    if n ≤ g.roseen.toNat ∧ !(decide (n = 0) && decide (g.roseen = 0)) then .next (s.wait .object)
    else
      let r := s.runCall k.trec.part ⟨s.pkgId, obj, meth, args⟩ n true
      let s1 := (s.noteSeen k.id g.num (n - 1)).retire
      .next ((s1.giveAll k.id g.num .w d act (callResult r)).giveAll k.id g.num .w (d + 1) act (callStatus r))) s

/-- `rotrim` (R376). -/
def execRotrim (d a : Nat) (s : State) : Out :=
  positionWord d a false (fun k g act p =>
    let f := queuedFrame 5 (if s.partSys k.trec.part then 2 else 0) k.trec.part (toLe 8 p)
    let e := (s.part k.trec.part).trim
    .next (({ s with nx := { s.nx with outq := s.nx.outq ++ [f] } }.retire).giveAll k.id g.num .w d act e)) s

/-- The 64 KiB pages of a clone map (R382, R386). -/
def State.clonePages (s : State) (part : Nat) : List Nat :=
  ((s.mapRanges part).map (fun r => upFrom (r.1 / 65536) (r.2 / 65536))).flatten

/-- A donor opens its cuff at position `k`: the pages of the clone map are marked, and the object states, as applied through it, stand as an
object image in the first pages of its shadow pool (R383; log entry 34). -/
def State.openCuff (s : State) (part k : Nat) : State :=
  let nx := (s.part part).cfg.nx
  let image := ((s.part part).objs.map Prod.snd).flatten.take (65536 * s.homeLe (nx + 0x20) 4)
  let s1 := s.homeWrite (s.homeLe (nx + 0x18) 8) image
  s1.setPart part { s1.part part with cuff := some k, marked := s1.clonePages part, shadow := [], imgLen := image.length, seen := [] }

/-- A cuff closes and frees its shadow pages (R383). -/
def State.closeCuff (s : State) (part : Nat) : State :=
  let p := s.part part
  (s.setPart part { p with cuff := none, marked := [], shadow := [], imgLen := 0, seen := [] }).unpark

/-- The lowest data group that names a base package (R378). -/
def lowestData (base : List (Nat × List Nat)) (b : Nat) : Option Nat :=
  leastOf ((base.filter (fun t => decide (t.1 < 2 ^ 14) && decide (b ∈ t.2))).map Prod.fst)

/-- After its own `expel` of R365 the package calls `clone` with the first spare, the vacated base and the lowest data group that
names it, provided no clone is pending (R378). -/
def State.callClone (s : State) (part pkg : Nat) (before now : Memb) : State :=
  if (pkg, part) ∉ s.nx.expels then s
  else
    let s1 := { s with nx := { s.nx with expels := s.nx.expels.filter (fun x => decide (x ≠ (pkg, part))) } }
    let base := s.baseRanks part
    let named := (base.map Prod.snd).flatten
    let gone := leastOf (named.filter (fun b => decide (before.now b = pkg) && decide (now.now b = 0xFFFF)))
    match gone, now.spares with
    | some b, sp :: _ => (match lowestData base b with
      | some g => if now.pending then s1 else s1.engineCall part (callEntry s.pkgId part 0 3 [sp, b, g])
      | none => s1)
    | _, _ => s1

/-- What a change of `membership` does to the package: a fence for a new generation, a cuff that opens or closes, a clone begun
or cancelled, the clone call that follows an `expel` (R378, R381, R383, R385). A call that a spare applies again behind the object image that it
has loaded queues no second fence. The unfinished publication of a package of another pod ends with its `expel` (R362). -/
def State.membChange (s : State) (part pos : Nat) (e : CallE) (m0 m1 : Memb) : State :=
  let base := s.baseRanks part
  let adm := decide (e.obj = 0) && decide (e.meth = 1)
  let p := s.part part
  let s1 := if m0.gen = m1.gen ∨ pos < p.fenced then s
    else s.setPart part { p with fences := p.fences ++ [⟨pos, m1.gen, m1.derived base, adm⟩], fenced := pos + 1 }
  let s2 := if m0.cuff = noCuff ∧ m1.cuff ≠ noCuff ∧ s.pkgId ∈ m1.donors base then s1.openCuff part m1.cuff else s1
  let s3 := if m0.pending ∧ !m1.pending ∧ !adm then s2.closeCuff part else s2
  let s4 := if m0.pending = m1.pending then s3
    else s3.setPart part { s3.part part with
      join := [], joinObjs := false, joinAdmit := false, asked := [], objAsked := false, entryAsked := none
      reclone := if m0.pending ∧ m0.joiner = s.pkgId ∧ !adm then some (m0.pbase, m0.pgid) else none }
  let x := nth 0 e.args 0 % 65536
  let s5 := if e.obj = 0 ∧ e.meth = 0 ∧ podOf x ≠ podOf s.pkgId then s4.endSysPub x else s4
  if e.obj = 0 ∧ e.meth = 0 ∧ e.caller = s.pkgId then s5.callClone part x m0 m1 else s5

/-- The state digest of a partition: its object states in object order (R367). -/
def Part.digest (p : Part) : List Byte := sha256 ((p.objs.map Prod.snd).flatten)

/-- The log ring lacks the entry of a position: its slot holds another's (R367, R384). -/
def State.lacks (s : State) (part pos : Nat) : Bool := decide (s.homeLe (s.logSlot part pos + 80) 8 ≠ pos)

/-- The entry that a replay engine applies next; a spare that has loaded its image waits for one that it lacks (R369, R384). -/
def State.nextCall (s : State) (part : Nat) : Option CallE :=
  let p := s.part part
  if p.on ∧ p.applied < p.placed ∧ !(p.joinObjs && s.lacks part p.applied) then some (readCall (s.homeBytes (s.logSlot part p.applied) 80)) else none

/-- The replay engine applies the next call of a partition: the objects, the outcome in its slot, the count, a digest at each
multiple of 4,096, of which the last 256 are kept (R367, R369, R370). -/
def State.applyNext (s : State) (part : Nat) : State :=
  match s.nextCall part with
  | none => s
  | some e =>
    let p := s.part part
    let pos := p.applied
    let r := s.runCall part e pos false
    let objs := match r with | .inl x => x.2 | .inr _ => p.objs
    let m0 := Memb.read (tget [] p.objs 0)
    let m1 := Memb.read (tget [] objs 0)
    let s1 := s.homeWrite (s.logSlot part pos + 88) (toLe 8 (callResult r) ++ toLe 8 (callStatus r))
    let q : Part := { s1.part part with objs := objs, applied := pos + 1 }
    let digs := if (pos + 1) % 4096 = 0 then (tset [] q.digests (pos + 1) q.digest).filter (fun x => decide (pos + 1 < x.1 + 256 * 4096))
      else q.digests
    let s2 := (s1.setPart part { q with digests := digs }).membChange part pos e m0 m1
    if (pos + 1) % 4096 = 0 then (upFrom 0 128).foldl (fun t k => t.compareDig part k) s2 else s2

/-- Apply the next call where it is of a method. -/
def State.applyIf (s : State) (part obj meth : Nat) : State :=
  match s.nextCall part with
  | none => s
  | some e => if e.obj = obj ∧ e.meth = meth then s.applyNext part else s

/-- CALL_APPLY (R369). -/
def execCallApply (part : Nat) (s : State) : Out := .next (s.applyNext part)

/-- The methods of `membership` (R378), each applied where it is the next call of the partition's log. -/
def execMembershipExpel (part : Nat) (s : State) : Out := .next (s.applyIf part 0 0)
def execMembershipAdmit (part : Nat) (s : State) : Out := .next (s.applyIf part 0 1)
def execMembershipReplace (part : Nat) (s : State) : Out := .next (s.applyIf part 0 2)
def execMembershipClone (part : Nat) (s : State) : Out := .next (s.applyIf part 0 3)
def execMembershipAbort (part : Nat) (s : State) : Out := .next (s.applyIf part 0 4)
def execMembershipAddspare (part : Nat) (s : State) : Out := .next (s.applyIf part 0 5)
def execMembershipGetgen (part : Nat) (s : State) : Out := .next (s.applyIf part 0 6)

/-- The methods of `trainctl` (R380), in the same way. -/
def execTrainctlStep (part : Nat) (s : State) : Out := .next (s.applyIf part 1 0)
def execTrainctlSetscale (part : Nat) (s : State) : Out := .next (s.applyIf part 1 1)
def execTrainctlSetclip (part : Nat) (s : State) : Out := .next (s.applyIf part 1 2)
def execTrainctlSetgrowth (part : Nat) (s : State) : Out := .next (s.applyIf part 1 3)
def execTrainctlGetscale (part : Nat) (s : State) : Out := .next (s.applyIf part 1 4)
def execTrainctlGetstep (part : Nat) (s : State) : Out := .next (s.applyIf part 1 5)

/-- The swap of a fence: generation and rank tables together, the partition's collectives restarted, the cuff of an admitted clone
closed (R348, R381, R383). -/
def State.swap (s : State) (part : Nat) (f : Fence) : State :=
  let p := s.part part
  let s1 := (s.setPart part { p with gen := BitVec.ofNat 16 f.gen, ranks := f.ranks, fences := p.fences.drop 1, fenceSent := none }).restartColls part
  if f.forAdmit then s1.closeCuff part else s1

/-- GENERATION_FENCE (R381): the oldest fence of a partition is published, once its cores' earlier accesses are complete (R395), then
swapped once its frame has been applied. -/
def execGenerationFence (part : Nat) (s : State) : Out :=
  let p := s.part part
  match p.fences, p.fenceSent with
  | [], _ => .next s
  | f :: _, some id => .next (if s.pubDone id then s.swap part f else s)
  | _ :: _, none =>
    if !s.partQuiet part then .next s else
    let s1 := (s.publishPart part).queuePubs part 0 [padTo 208 []]
    .next (s1.setPart part { s1.part part with fenceSent := some (2 * s1.nx.podQ) })

/-- CUFF_PAGE_COPY (R383): the old page goes to the shadow pool; every write to a marked page does the same first. -/
def execCuffPageCopy (part page : Nat) (s : State) : Out := .next (s.cuffCopy part page)

/-- An object image as it is read: each object's state in object order (R383, R384). -/
def splitObjs : List (Nat × List Byte) → List Byte → Sparse (List Byte)
  | [], _ => []
  | (o, old) :: rest, bs => (o, padTo old.length (bs.take old.length)) :: splitObjs rest (bs.drop old.length)

/-- The join engine's read of a stripe goes to donor (stripe) mod D, after each read that ended with status 6 to the next (R384). -/
def State.askStripe (s : State) (part i : Nat) : State :=
  let p := s.part part
  let ds := (Memb.read (tget [] p.objs 0)).donors (s.baseRanks part)
  let n := tget 0 p.asked i
  match ds[(i + n) % ds.length]? with
  | some d => (s.setPart part { p with asked := tset 0 p.asked i (n + 1) }).send d 0 [[0, part, i]]
  | none => s

/-- A stripe that the join engine has read lands at the same addresses (R384). -/
def State.joinStripe (s : State) (part i : Nat) (data : List Byte) : State :=
  let runs := s.stripe part i
  if runs = [] ∨ data.length ≠ (runs.map Prod.snd).sum then s
  else
    let s1 := (runs.foldl (fun (acc : State × List Byte) r => (acc.1.homeWrite r.1 (acc.2.take r.2), acc.2.drop r.2)) (s, data)).1
    s1.setPart part { s1.part part with join := insNat i (s1.part part).join }

/-- Donor 0's object image is loaded and the applied count set to K + 1 (R384): calls that were applied beyond it are applied again. -/
def State.joinImage (s : State) (part : Nat) (data : List Byte) : State :=
  let p := s.part part
  let objs := splitObjs p.objs data
  let m := Memb.read (tget [] objs 0)
  if m.joiner ≠ s.pkgId ∨ m.cuff = noCuff then s
  else s.setPart part { p with objs := objs, applied := m.cuff + 1, placed := max p.placed (m.cuff + 1), joinObjs := true }

/-- An entry of the log that the spare lacks, read from donor 0's log ring: its slot's first 88 bytes (R367, R384). -/
def State.joinEntry (s : State) (part : Nat) (data : List Byte) : State :=
  let p := s.part part
  let pos := leAt data 80 8
  if pos < p.applied ∨ data.length < 88 then s
  else
    let s1 := s.homeWrite (s.logSlot part pos) (data.take 88)
    s1.setPart part { s1.part part with placed := max p.placed (pos + 1) }

/-- The join engine sends its next read: a stripe, in order; once every stripe has landed the object image, from donor 0; then the log entry that
it lacks, by a remote read of donor 0's log ring (R338, R384; log entry 53). -/
def State.joinAsk (s : State) (part : Nat) : State :=
  let p := s.part part
  let n := s.stripeCount part
  let ds := (Memb.read (tget [] p.objs 0)).donors (s.baseRanks part)
  match firstOf (fun i => decide (tget 0 p.asked i = 0)) (upFrom 0 n), ds with
  | some i, _ => s.askStripe part i
  | none, [] => s
  | none, d :: _ =>
    if (upFrom 0 n).any (fun i => decide (i ∉ p.join)) then s
    else if !p.objAsked then (s.setPart part { p with objAsked := true }).send d 0 [[1, part, 0]]
    else if p.joinObjs && decide (p.applied < p.placed) && s.lacks part p.applied && decide (p.entryAsked ≠ some p.applied) then
      (s.setPart part { p with entryAsked := some p.applied }).send d 5 [[1024, part, 6, part, s.logSlot part p.applied, 88, 0, 0, 0]]
    else s

/-- JOIN_CLONE (R384, R385), kind by kind: 0 a stripe with the status of its read, 1 the object image, 2 a missing log entry, 3 the
admission once every stripe has landed and every placed call is applied, 4 the `clone` of a live spare whose clone was
cancelled, 5 and above the sending of the next read. A stripe whose read ends with status 6 is read from the next donor. -/
def execJoinClone (part stripe status kind : Nat) (data : List Nat) (s : State) : Out :=
  let p := s.part part
  let m := Memb.read (tget [] p.objs 0)
  let mine := decide (m.joiner = s.pkgId) && decide (m.cuff ≠ noCuff)
  if !p.on then .next s
  else match kind with
  | 0 => .next (if mine ∧ status = 0 then s.joinStripe part stripe (byteList data)
    else if mine ∧ status = 6 ∧ stripe < s.stripeCount part then s.askStripe part stripe else s)
  | 1 => .next (if status = 0 then s.joinImage part (byteList data) else s.setPart part { p with objAsked := false })
  | 2 => .next (if status = 0 then s.joinEntry part (byteList data) else s.setPart part { p with entryAsked := none })
  | 3 =>
    let all := (upFrom 0 (s.stripeCount part)).all (fun i => decide (i ∈ p.join))
    .next (if mine ∧ all ∧ p.joinObjs ∧ p.applied = p.placed ∧ !p.joinAdmit then
      (s.setPart part { p with joinAdmit := true }).engineCall part (callEntry s.pkgId part 0 1 [s.pkgId, m.pbase])
    else s)
  | 4 => .next (match p.reclone with
    | some (b, g) => if s.pkgId ∈ m.spares ∧ !m.pending ∧ m.vacant b then
        (s.setPart part { p with reclone := none }).engineCall part (callEntry s.pkgId part 0 3 [s.pkgId, b, g])
      else s
    | none => s)
  | _ => .next (if mine then s.joinAsk part else s)

/-- A queue has work: a packet begun, or indices claimed and not finished (R292, R253). -/
def State.qActive (s : State) (q : CQueue) : Bool := q.infl.isSome || !q.kept.isEmpty || decide (s.qWidx q.off ≠ s.qRidx q.off)

/-- A configuration may change: no resident or saved block, no active queue (R292). -/
def State.idlePart (s : State) (part : Nat) : Bool :=
  !s.blocks.any (fun b => decide (b.trec.part = part)) && !s.saved.any (fun x => decide (x.blk.trec.part = part))
  && !s.queues.any (fun q => decide (q.part = part) && s.qActive q)

/-- A queue is bound to an engine of one of the slices, 3 to a slice, and its header stands in a sync-window area of one of them (R1, R6,
R252). -/
def bindOk (c : PartCfg) (q : QBind) : Bool :=
  let a := syncBase + q.off
  decide (q.num < 1024) && decide (q.eng / 3 ∈ c.slices) && decide (regionOf a = .sync) && decide (syncSlice a ∈ c.slices)
  && decide (q.off % 64 = 0)

/-- A configuration takes nothing that another partition holds and no unit that a bank remap took, and keeps the limits of the machine
(R6, R7, R252, R290, R293). -/
def State.cfgOk (s : State) (part : Nat) (c : PartCfg) : Bool :=
  let others := s.parts.filter (fun p => p.2.on && decide (p.1 ≠ part))
  decide (part < 24) && c.slices.all (fun x => decide (x < 32)) && decide c.slices.Nodup && c.units.all (fun x => decide (x < 384))
  && decide c.units.Nodup && c.units.all (fun u => !s.unitGone (hbmBase + u * 2 ^ 30)) && c.queues.all (fun q => bindOk c q) && c.vfs.all (fun x => decide (x < 96)) && decide (c.vfs.length ≤ 4)
  && others.all (fun p => c.slices.all (fun x => decide (x ∉ p.2.cfg.slices)) && c.units.all (fun x => decide (x ∉ p.2.cfg.units))
      && c.vfs.all (fun x => decide (x ∉ p.2.cfg.vfs)))
  && decide ((c.queues.map (fun q => q.num)).Nodup) && decide ((c.queues.map (fun q => q.off)).Nodup)
  && c.queues.all (fun q => s.queues.all (fun x => decide (x.part = part) || (decide (x.num ≠ q.num) && decide (x.off ≠ q.off))))

/-- The words of an object's code: up to the end of its last method (R366). -/
def codeLen (d : List Byte) : Nat :=
  ((upFrom 0 (min (leAt d 2 1) 32)).map (fun m => let w := leAt d (0x20 + 4 * m) 4; w % 65536 + w / 65536 % 8192)).foldl max 0

/-- The objects of a partition at its configuration: the standard ones, and those of the object table with their code copied to
the replay engine (R366, R377, R379). -/
def State.loadObjects (s : State) (part : Nat) : State :=
  (upFrom 2 62).foldl (fun t o =>
    let d := t.objDesc part o
    let n := leAt d 0 2
    if d = [] ∨ n = 0 then t
    else
      let k := t.part part
      t.setPart part { k with
        objs := tset [] k.objs o (t.homeBytes (leAt d 0x10 8) n)
        images := tset [] k.images o (t.homeBytes (leAt d 8 8) (4 * codeLen d)) })
    (s.setPart part { s.part part with objs := putStd [] Memb.start Train.start })

/-- A configuration as numbers, for its measurement (R302). -/
def cfgNumbers (c : PartCfg) : List Nat :=
  let list := fun (ns : List Nat) => ns.length :: ns
  list c.slices ++ list c.units ++ list c.vfs ++ [c.tvec, c.tframe, c.mbox, c.rrdesc, c.nx]
    ++ list ((c.maps.map (fun m => [m.va, m.pa, m.sz, if m.rd then 1 else 0, if m.wr then 1 else 0, if m.ex then 1 else 0])).flatten)
    ++ list ((c.queues.map (fun q => [q.num, q.off, q.eng])).flatten) ++ list ((c.groups.map (fun g => [g.1, g.2])).flatten)

/-- Measurement 3 takes a partition's configuration as it is set, with the 320 bytes of its Nirrax descriptor (R302, R386). -/
def State.measureCfg (s : State) (part : Nat) (c : PartCfg) : State :=
  s.extendOver 3 (part :: cfgNumbers c ++ (if c.nx = 0 then [] else (s.homeBytes c.nx 320).map (fun b => b.toNat)))

/-- PARTITION_CONFIGURATION (R292, R302): a configuration without slices removes the partition. -/
def execPartitionConfiguration (part : Nat) (cfg : PartCfg) (s : State) : Out :=
  if !s.idlePart part ∨ !s.cfgOk part cfg then .next s
  else
    let vfs1 := s.vfs.map (fun v => (v.1, if v.2.part = some part then { v.2 with part := none } else v.2))
    let q1 := s.queues.filter (fun q => decide (q.part ≠ part))
    let s1 : State := { s with
      vfs := vfs1.filter (fun v => decide (v.2 ≠ Vf.reset))
      queues := q1 ++ cfg.queues.map (fun q => (⟨q.num, q.off, q.eng, part, none, [], []⟩ : CQueue))
      cores := (s.cores.map (fun c => (c.1, { c.2 with tlb := c.2.tlb.filter (fun t => decide (t.part ≠ part)) }))).filter
        (fun c => decide (c.2 ≠ Core.reset))
      nx := { s.nx with desc := tset 0 s.nx.desc part (BitVec.ofNat 32 (cfg.nx / 4096)) } }
    if cfg.slices = [] then .next ((s1.setPart part Part.none).measureCfg part cfg)
    else
      let s2 := cfg.vfs.foldl (fun t v => t.setVf v { t.vf v with part := some part }) s1
      let s3 := (s2.setPart part { Part.none with on := true, cfg := cfg, rrdesc := BitVec.ofNat 64 cfg.rrdesc }).loadObjects part
      .next ((s3.setPart part { s3.part part with ranks := s3.baseRanks part }).measureCfg part cfg)

end Sys2Proof.Machine
end

