-- ==== Sys2Proof/Machine/Optics.lean ====
section
/-! DEFINITION. Optical ports: the writes of `opt.ctl`, lighting, laser failure, lock sweeps, training, lane maps, the loss of a
wavelength, key exhaustion (R309 to R313, R317, R318, R331, R332, R334). -/
namespace Sys2Proof.Machine

/-- The laser that serves a wavelength: laser 9 when it replaces that wavelength's (R309). -/
def Port.server (k : Port) (l : Nat) : Nat := if fld k.laser.toNat 19 16 = l then 9 else l

/-- A laser is on: the bank is on and the laser is enabled. -/
def Port.laserOn (k : Port) (n : Nat) : Bool := bitOf k.ctl.toNat 0 && bitOf k.laser.toNat n && decide (n < 10)

/-- What `opt.mpd` of a wavelength reads: 0 while its laser is off (R309). -/
def Port.monitor (k : Port) (l : Nat) : Nat := if k.laserOn (k.server l) then (tget 0 k.mpd l).toNat else 0

/-- Turn a port off: locks, sweeps and training end with it (R310, R311). -/
def State.portOff (s : State) (p : Nat) : State :=
  let k := s.port p
  (s.setPort p { k with
    stat := 0, litAt := none, sweepAt := none, trainAt := none, mpd := [],
    lockctl := k.lockctl &&& 0x7FFFFFFF, trainctl := k.trainctl &&& 0x7FFFFFFF }).portState p 0 0

/-- The state follows bits [2:0] of `opt.ctl` (R310, R317). -/
def State.portFollow (s : State) (p : Nat) : State :=
  let k := s.port p
  let c := k.ctl.toNat
  if !bitOf c 0 then (if k.st = 0 ∧ k.litAt = none then s else s.portOff p)
  else if k.st = 0 then (if k.litAt = none then s.setPort p { k with litAt := some s.cycle } else s)
  else if k.st = 1 ∧ bitOf c 1 ∧ bitOf c 2 then s.portState p 2 0
  else if k.st = 2 ∧ !(bitOf c 1 && bitOf c 2) then s.portState p 1 0
  else s

/-- A write of `opt.ctl` asks for a state: 0 or 4 in state 2, where it differs from the current one (R310, R317). -/
def Port.request (k : Port) (val : Nat) : Option Nat :=
  let r := fld val 7 4
  if r = k.st then none else if r = 0 then some 0 else if r = 4 ∧ k.st = 2 then some 4 else none

/-- A write of `opt.ctl` (R310, R317). -/
def State.writeCtl (s : State) (p val : Nat) : State :=
  let k := s.port p
  let s1 := s.setPort p { k with ctl := BitVec.ofNat 32 (16 * k.st + val % 8) }
  let s2 := match k.request val with
    | some 0 => s1.portOff p
    | some _ => s1.portUp p
    | none => s1
  s2.portFollow p

/-- OPT_CTL_BITS (R317): a write that requests no state. -/
def execOptCtlBits (p val : Nat) (s : State) : Out :=
  .next (if p < 34 ∧ (s.port p).request val = none then s.writeCtl p val else s)

/-- OPT_STATE_OFF_REQUEST (R310). -/
def execOptStateOffRequest (p val : Nat) (s : State) : Out :=
  .next (if p < 34 ∧ (s.port p).request val = some 0 then s.writeCtl p val else s)

/-- OPT_STATE_UP_REQUEST (R310). -/
def execOptStateUpRequest (p val : Nat) (s : State) : Out :=
  .next (if p < 34 ∧ (s.port p).request val = some 4 then s.writeCtl p val else s)

/-- The monitors as the surroundings give them: ten lasers, then the rings of the nine wavelengths (R309). -/
def Port.readMonitors (k : Port) (mon : List Nat) : Port :=
  { k with mpd := tsets 0 [] 0 ((upFrom 0 9).map (fun l =>
      BitVec.ofNat 32 (nth 0 mon (k.server l) % 4096 * 65536 + nth 0 mon (10 + l) % 4096))) }

/-- OPT_LIT (R310, R318): every enabled laser's monitor exceeds 0x100, within the 400,000 cycles of 100 µs; later the port is in
fault. -/
def execOptLit (p : Nat) (mon : List Nat) (s : State) : Out :=
  let k := s.port p
  match k.litAt with
  | none => .next s
  | some t0 =>
    if p < 34 ∧ k.st = 0 ∧ bitOf k.ctl.toNat 0 then
      let s1 := s.setPort p (k.readMonitors mon)
      let s2 := s1.setPort p { s1.port p with litAt := none }
      if t0 + 400000 < s.cycle then .next (s2.portState p 8 1)
      else if (upFrom 0 10).all (fun n => !k.laserOn n || decide (0x100 < nth 0 mon n)) then .next ((s2.portState p 1 0).portFollow p)
      else .next s1
    else .next s

/-- OPT_LIT_TIMEOUT (R318): 100 µs, which is 400,000 cycles, after the write of bit 0. -/
def execOptLitTimeout (p : Nat) (s : State) : Out :=
  let k := s.port p
  match k.litAt with
  | some t =>
    if p < 34 ∧ k.st = 0 ∧ t + 400000 ≤ s.cycle then .next ((s.setPort p { k with litAt := none }).portState p 8 1) else .next s
  | none => .next s

/-- OPT_LASER_FAILURE (R310): an enabled laser's monitor falls to 0x100 or below. -/
def execOptLaserFailure (p laser mon : Nat) (s : State) : Out :=
  let k := s.port p
  if p < 34 ∧ k.st ≠ 0 ∧ k.st ≠ 8 ∧ k.laserOn laser ∧ mon ≤ 0x100 then
    let k1 := { k with mpd := (upFrom 0 9).foldl (fun t l =>
      if k.server l = laser then tset 0 t l (BitVec.ofNat 32 (mon * 65536 + (tget 0 t l).toNat % 65536)) else t) k.mpd }
    .next ((s.setPort p k1).portState p 8 1)
  else .next s

/-- The wavelengths of a mask, ascending. -/
def lambdas (m : Nat) : List Nat := (upFrom 0 9).filter (bitOf m)

/-- A sweep is running (R311). -/
def Port.sweeping (k : Port) : Bool := bitOf k.lockctl.toNat 31

/-- A write of `opt.lockctl` (R311). -/
def State.writeLockctl (s : State) (p val : Nat) : State :=
  let k := s.port p
  if k.sweeping then s
  else
    let go := decide (val % 512 ≠ 0) && decide (1 ≤ k.st)
    s.setPort p { k with
      lockctl := BitVec.ofNat 32 ((val &&& 0x00FFF1FF) + (if go then 2 ^ 31 else 0)), sweepAt := if go then some s.cycle else none }

/-- OPT_LOCK_SWEEP (R311). -/
def execOptLockSweep (p val : Nat) (s : State) : Out := .next (if p < 34 then s.writeLockctl p val else s)

/-- The place of the first least element of a list, and it. -/
def leastAt : List Nat → Nat × Nat
  | [] => (0, 0)
  | [x] => (0, x)
  | x :: rest => let r := leastAt rest
                 if x ≤ r.2 then (0, x) else (r.1 + 1, r.2)

/-- One wavelength's sweep: its readings, one for each DAC value, all 0 without light (R311). -/
def Port.sweepOne (k : Port) (l : Nat) (readings : List Nat) : Port :=
  let heat := (tget heatReset k.heat l).toNat % 4096
  let half := fld k.lockctl.toNat 23 12 / 2
  let lo := heat - half
  let hi := min 4095 (heat + half)
  let rd := (upFrom 0 (hi + 1 - lo)).map (fun i => if k.laserOn (k.server l) then nth 0 readings i % 4096 else 0)
  let top := max (nth 0 rd 0) (nth 0 rd (hi - lo))
  let best := leastAt rd
  let lock := decide (0x100 < top) && decide (2 * best.2 ≤ top)
  let heat1 := if lock then lo + best.1 else heat
  { k with
    heat := tset heatReset k.heat l (BitVec.ofNat 32 heat1)
    stat := if lock then k.stat ||| BitVec.ofNat 32 (2 ^ l) else k.stat &&& ~~~ (BitVec.ofNat 32 (2 ^ l))
    mpd := tset 0 k.mpd l (BitVec.ofNat 32 ((tget 0 k.mpd l).toNat / 65536 * 65536 + nth 0 rd (heat1 - lo))) }

/-- OPT_SWEEP_DONE (R311): the sweep of every masked wavelength has ended; `readings` lists each one's ring monitor. The heats of a first
lock are noted (R305). -/
def execOptSweepDone (p : Nat) (readings : List (List Nat)) (s : State) : Out :=
  let k := s.port p
  if p < 34 ∧ k.sweeping then
    let ls := lambdas k.lockctl.toNat
    let k1 := (ls.zip (upFrom 0 ls.length)).foldl (fun x y => x.sweepOne y.1 (nth [] readings y.2)) k
    .next ((s.setPort p { k1 with lockctl := k.lockctl &&& 0x7FFFFFFF, sweepAt := none }).noteHeats p k1)
  else .next s

/-- A write of `opt.trainctl` (R312). -/
def State.writeTrainctl (s : State) (p val : Nat) : State :=
  let k := s.port p
  if bitOf k.trainctl.toNat 31 then s
  else
    let go := decide (val % 512 ≠ 0) && decide (k.st = 2)
    s.setPort p { k with
      trainctl := BitVec.ofNat 32 (val % 512 + (if go then 2 ^ 31 else 0)), trainAt := if go then some s.cycle else none }

/-- OPT_TRAIN (R312). -/
def execOptTrain (p val : Nat) (s : State) : Out := .next (if p < 34 then s.writeTrainctl p val else s)

/-- OPT_TRAIN_DONE (R312): an eye reads 0 where its wavelength is not locked or the peer is not in state 2. -/
def execOptTrainDone (p peer : Nat) (eyes : List Nat) (s : State) : Out :=
  let k := s.port p
  if p < 34 ∧ bitOf k.trainctl.toNat 31 then
    let eye := (lambdas k.trainctl.toNat).foldl (fun t l =>
      tset 0 t l (if k.locked l ∧ peer = 1 then BitVec.ofNat 32 (nth 0 eyes l % 2 ^ 24) else 0)) k.eye
    .next (s.setPort p { k with eye := eye, trainctl := k.trainctl &&& 0x7FFFFFFF, trainAt := none })
  else .next s

/-- A lane map that maps the spare wavelength anew leaves an event record (R304, R305). -/
def State.spareRecord (s : State) (p old new_ : Nat) : State :=
  if 8 ∈ mapUsed new_ ∧ 8 ∉ mapUsed old then s.appendEvent (.spare p new_) else s

/-- A write of `opt.lanemap`: at once, or at the next slot guard in states 4 and 5; in the cycle of a hardware remap it is ignored (R313). -/
def State.writeLanemap (s : State) (p val : Nat) : State :=
  let k := s.port p
  if k.remapAt = some s.cycle then s
  else if k.up then s.setPort p { k with mapNext := some (BitVec.ofNat 32 val) }
  else (s.setPort p { k with lanemap := BitVec.ofNat 32 val, mapNext := none }).spareRecord p k.lanemap.toNat val

/-- OPT_LANEMAP_WRITE (R313). -/
def execOptLanemapWrite (p val : Nat) (s : State) : Out := .next (if p < 34 then s.writeLanemap p val else s)

/-- A map with the nibbles of the listed lanes. -/
def mapOf (ls : List Nat) : Nat := (ls.zip (upFrom 0 ls.length)).foldl (fun n x => n + x.1 * 16 ^ x.2) 0

/-- What hardware does at the slot guard for a lost wavelength (R331). -/
def State.loseLambda (s : State) (p l : Nat) : State :=
  let k := s.port p
  let m := k.lanemap.toNat
  let used := mapUsed m
  let good := sortBy id (used.filter (fun x => decide (x ≠ l) && k.locked x && k.eyeGood x))
  if l ∉ used then s
  else if k.locked 8 && k.eyeGood 8 && decide (8 ∉ used) then
    let m1 := mapOf ((upFrom 0 8).map (fun i => if mapLane m i = l then 8 else mapLane m i))
    ((s.setPort p { k with lanemap := BitVec.ofNat 32 m1, mapNext := none, remapAt := some s.cycle }).interrupt 3).appendEvent (.spare p m1)
  else if 4 ≤ good.length then
    let m1 := mapOf (good.take 4) + 0xFFFF0000
    (((s.setPort p { k with lanemap := BitVec.ofNat 32 m1, mapNext := none, remapAt := some s.cycle }).portState p 5 0).interrupt 3).appendEvent (.spare p m1)
  else s.portState p 8 4

/-- WAVELENGTH_LOSS (R331, R332): `lam` 0 to 8 is a wavelength whose lock bit clears; 16 more than a wavelength names one whose bursts
have failed FEC in three consecutive slots, its lock bit as it was (log entry 50). -/
def execWavelengthLoss (p lam : Nat) (s : State) : Out :=
  let k := s.port p
  .next (if 34 ≤ p ∨ !k.up then s
    else if lam < 9 then (s.setPort p { k with stat := k.stat &&& ~~~ (BitVec.ofNat 32 (2 ^ lam)) }).loseLambda p lam
    else if 16 ≤ lam ∧ lam < 25 ∧ 3 ≤ k.fecRun then (s.setPort p { k with fecRun := 0 }).loseLambda p (lam - 16)
    else s)

/-- A lane map that a port's register takes at the slot guard: in service it is checked as R310 gives (R313). -/
def State.guardMap (s : State) (p : Nat) : State :=
  let k := s.port p
  match k.mapNext with
  | none => s
  | some v =>
    let t := s.setPort p { k with lanemap := v, mapNext := none }
    if k.up then
      let u := t.portUp p
      if (u.port p).up then u.spareRecord p k.lanemap.toNat v.toNat else u
    else t.spareRecord p k.lanemap.toNat v.toNat

/-- A port in service at the slot guard: a mapped wavelength that a sweep has left unlocked is lost (R311, R331), a map in waiting takes
effect, and the slots in which bursts failed FEC are counted. -/
def State.guardPort (s : State) (p : Nat) : State :=
  let k := s.port p
  let s1 := match (if k.up then firstOf (fun l => !k.locked l) (sortBy id (mapUsed k.lanemap.toNat)) else none) with
    | some l => s.loseLambda p l
    | none => s.guardMap p
  let x := s1.port p
  s1.setPort p { x with fecBad := false, fecRun := if x.fecBad then x.fecRun + 1 else 0 }

/-- ROTOR_SLOT (R324, R329): the slot guard, then the next slot; no port transmits until the engine is locked. -/
def execRotorSlot (s : State) : Out :=
  let s1 := (upFrom 0 34).foldl State.guardPort s
  if !s1.fab.locked then .next s1
  else .next ({ s1 with fab := { s1.fab with slot := (s1.fab.slot + 1) % 127 } }.resolve).slotSends

/-- KEY_EXHAUSTED (R310, R334): the counter has reached 2^48 - 1, a value that is never used. -/
def execKeyExhausted (p : Nat) (s : State) : Out :=
  let k := s.port p
  .next (if p < 34 ∧ k.up ∧ 2 ^ 48 - 1 ≤ k.ctr then s.portState p 8 6 else s)

/-- Read a register of a port (R309); none where there is none. -/
def State.readPort (s : State) (p off : Nat) : Option Nat :=
  let k := s.port p
  let lam := fun (base : Nat) => decide (base ≤ off) && decide (off < base + 36) && decide (off % 4 = 0)
  if off = 0 then some k.ctl.toNat
  else if off = 4 then some k.stat.toNat
  else if lam 0x10 then some (tget heatReset k.heat ((off - 0x10) / 4)).toNat
  else if lam 0x40 then some (k.monitor ((off - 0x40) / 4))
  else if off = 0x70 then some k.lockctl.toNat
  else if lam 0x80 then some (tget 0 k.eye ((off - 0x80) / 4)).toNat
  else if off = 0xB0 then some k.trainctl.toNat
  else if off = 0xC0 then some k.lanemap.toNat
  else if off = 0xD0 then some k.laser.toNat
  else none

/-- Write a register of a port (R309, R314). -/
def State.writePort (s : State) (p off val : Nat) : State :=
  let k := s.port p
  if off = 0 then s.writeCtl p val
  else if 0x10 ≤ off ∧ off < 0x34 then
    let l := (off - 0x10) / 4
    if k.sweeping ∧ bitOf k.lockctl.toNat l then s
    else s.setPort p { k with heat := tset heatReset k.heat l (BitVec.ofNat 32 (val % 4096)) }
  else if off = 0x70 then s.writeLockctl p val
  else if off = 0xB0 then s.writeTrainctl p val
  else if off = 0xC0 then s.writeLanemap p val
  else if off = 0xD0 then s.setPort p { k with laser := BitVec.ofNat 32 (val &&& 0x000F03FF) }
  else s

end Sys2Proof.Machine
end

