-- ==== Sys2Proof/Machine/Io.lean ====
section
/-! DEFINITION. The registers of the X-die as management cores see them, `ldio`, `stio`, `wfi` (R266, R291, R298, R305, R309,
R314 to R316, R354, R388). -/
namespace Sys2Proof.Machine

/-- A register of the X-die status block (R316). -/
def State.readXs (s : State) (off : Nat) : Option Nat :=
  let x := s.xd
  if 0x40 ≤ off ∧ off < 0x60 then some (leAt (tget zeros32 x.meas (x.measel.toNat % 8)) (off - 0x40) 4)
  else match off with
  | 0x000 => some x.boot.toNat
  | 0x004 => some (maskOf ((upFrom 0 4).filter (fun m => (s.mc m).waiting)) + 256 * maskOf ((upFrom 0 4).filter (fun m => (s.mc m).stopped)))
  | 0x008 => some x.throttleCnt.toNat
  | 0x00C => some x.temp.toNat
  | 0x010 => some (x.power.toNat % 65536)
  | 0x014 => some x.rail.toNat
  | 0x018 => some (x.flash.length % 2 ^ 24 + (if x.lifeFull then 2 ^ 31 else 0))
  | 0x01C => some x.lifepage.toNat
  | 0x020 => some x.fusemin.toNat
  | 0x060 => some x.measel.toNat
  | _ => none

/-- Write a register of the X-die status block (R316). -/
def State.writeXs (s : State) (off v : Nat) : State :=
  let x := s.xd
  match off with
  | 0x008 => { s with xd := { x with throttleCnt := BitVec.ofNat 32 v } }
  | 0x014 => s.writeRail v
  | 0x01C => { s with xd := { x with lifepage := BitVec.ofNat 32 (v % 16384) } }
  | 0x020 => s.writeFusemin v
  | 0x060 => { s with xd := { x with measel := BitVec.ofNat 32 (v % 8) } }
  | _ => s

/-- A word of the lifetime window: the page that `xs.lifepage` selects; flash that no record has reached reads as 0 (R305; log
entry 3). -/
def State.readFlash (s : State) (off : Nat) : Nat :=
  leAt (nth [] s.xd.flash (64 * s.xd.lifepage.toNat + off / 64)) (off % 64) 4

/-- A register of a management core's block (R298). -/
def State.readMc (s : State) (m off : Nat) : Option Nat :=
  let k := s.mc m
  match off with
  | 0x000 => some k.ipend.toNat
  | 0x004 => some k.ien.toNat
  | 0x008 => some k.vec.toNat
  | 0x00C => some k.fcode.toNat
  | 0x010 => some k.fpcLo.toNat
  | 0x014 => some k.fpcHi.toNat
  | 0x018 => some 0
  | _ => none

/-- Write a register of a management core's block (R298). -/
def State.writeMc (s : State) (m off v : Nat) : State :=
  let k := s.mc m
  match off with
  | 0x000 => s.setMc m { k with ipend := k.ipend &&& ~~~ (BitVec.ofNat 32 v) }
  | 0x004 => s.setMc m { k with ien := BitVec.ofNat 32 v }
  | 0x008 => s.setMc m { k with vec := BitVec.ofNat 32 (v / 4 * 4) }
  | 0x018 => s.poke v
  | _ => s

/-- A register of a die's control block (R266). -/
def State.readDc (s : State) (d off : Nat) : Option Nat :=
  let k := s.die d
  match off with
  | 0x00 => some k.retLo.toNat
  | 0x04 => some k.retHi.toNat
  | 0x08 => some k.stopblk.toNat
  | 0x0C => some k.stoptLo.toNat
  | 0x10 => some k.stoptHi.toNat
  | 0x14 => some 0
  | 0x18 => some k.walks.toNat
  | 0x1C => some k.merged.toNat
  | 0x20 => some k.steal.toNat
  | 0x24 => some k.ovf.toNat
  | 0x28 => some k.ovfbase.toNat
  | _ => none

/-- A state after an event of the part that always goes on. -/
def outState (o : Out) (s : State) : State := match o with
  | .next t => t
  | _ => s

/-- Write a register of a die's control block (R266). -/
def State.writeDc (s : State) (d off v : Nat) : State :=
  let k := s.die d
  match off with
  | 0x00 => s.writeRetire d false v
  | 0x04 => s.writeRetire d true v
  | 0x08 => s.setDie d { k with stopblk := BitVec.ofNat 32 v }
  | 0x0C => s.setDie d { k with stoptLo := BitVec.ofNat 32 v }
  | 0x10 => s.setDie d { k with stoptHi := BitVec.ofNat 32 (v % 2 ^ 24) }
  | 0x14 => if bitOf v 0 then outState (execDebugStopRequest d s) s else s
  | 0x28 => s.setDie d { k with ovfbase := BitVec.ofNat 32 v }
  | _ => s

/-- A register of the fabric engine block (R354, R388). -/
def State.readFe (s : State) (off : Nat) : Option Nat :=
  let f := s.fab
  let sel := f.tblsel.toNat
  let cnt := (s.port (f.keysel.toNat % 32)).ctr
  if 0x20 ≤ off ∧ off < 0x40 then some (tget vcwReset f.vcw ((off - 0x20) / 4)).toNat
  else if 0x80 ≤ off ∧ off < 0x180 then some (s.chan ((off - 0x80) / 4)).part.toNat
  else if 0x210 ≤ off ∧ off < 0x220 then
    some (maskOf ((upFrom 0 32).filter (fun j => decide (8 * (off - 0x210) + j ∈ s.nx.leaf.members))))
  else if 0x300 ≤ off ∧ off < 0x360 then some (tget 0 s.nx.desc ((off - 0x300) / 4)).toNat
  else match off with
  | 0x000 => some (f.id.toNat % 4096)
  | 0x004 => some f.slotReg
  | 0x008 => some f.sched.toNat
  | 0x010 => some sel
  | 0x014 => some (tget 0xFFF f.tbl (sel % 128 * 32 + sel / 256 % 32))
  | 0x040 => some f.keysel.toNat
  | 0x044 => some 0
  | 0x048 => some f.keyuse.toNat
  | 0x04C => some (f.keyreq.toNat % 2 ^ 32)
  | 0x050 => some (cnt % 2 ^ 32)
  | 0x054 => some (cnt / 2 ^ 32 % 2 ^ 16)
  | 0x060 => some f.half.toNat
  | 0x064 => some (f.relay % 2 ^ 13)
  | 0x068 => some f.retry.toNat
  | 0x06C => some f.rfail.toNat
  | 0x070 => some f.stagebase.toNat
  | 0x200 => some s.nx.ctl.toNat
  | 0x204 => some s.nxstat
  | 0x208 => some (s.nx.leaf.seq % 2 ^ 32)
  | 0x20C => some (s.nx.leaf.seq / 2 ^ 32 % 2 ^ 32)
  | 0x220 => some s.nx.regen.toNat
  | 0x224 => some s.nx.susp.toNat
  | 0x228 => some s.nx.repair.toNat
  | _ => none

/-- Write `fe.nxdesc`: only while the partition's configuration may change, which is measured as it is set (R292, R302, R388). -/
def State.writeNxdesc (s : State) (p v : Nat) : State :=
  if !s.idlePart p then s
  else
    let k := s.part p
    let s1 := { s with nx := { s.nx with desc := tset 0 s.nx.desc p (BitVec.ofNat 32 v) } }
    let c := { k.cfg with nx := 4096 * v }
    if k.on then (s1.setPart p { k with cfg := c }).measureCfg p c else s1

/-- Write a register of the fabric engine block (R354, R388). -/
def State.writeFe (s : State) (off v : Nat) : State :=
  let f := s.fab
  if 0x20 ≤ off ∧ off < 0x40 then
    if v % 256 = 0 then s else { s with fab := { f with vcw := tset vcwReset f.vcw ((off - 0x20) / 4) (BitVec.ofNat 32 (v % 256)) } }
  else if 0x80 ≤ off ∧ off < 0x180 then outState (execFeChpartWrite ((off - 0x80) / 4) v s) s
  else if 0x300 ≤ off ∧ off < 0x360 then s.writeNxdesc ((off - 0x300) / 4) v
  else match off with
  | 0x008 => s.writeSched v
  | 0x010 => { s with fab := { f with tblsel := BitVec.ofNat 32 (v &&& 0x1F7F) } }
  | 0x014 => outState (execFeTbldataWrite v s) s
  | 0x040 => { s.setPort (v % 32) { s.port (v % 32) with keyPos := 0 } with fab := { f with keysel := BitVec.ofNat 32 (v &&& 0x11F) } }
  | 0x044 => outState (execFeKeydataWrite v s) s
  | 0x048 => outState (execFeKeyuseWrite v s) s
  | 0x070 => { s with fab := { f with stagebase := BitVec.ofNat 32 (v % 65536) } }
  | 0x200 => s.writeNxctl v
  | _ => s

/-- The blocks of the X-die's registers. -/
inductive Block32 where
  | xs (off : Nat)
  | mc (m off : Nat)
  | dc (d off : Nat)
  | hb (n off : Nat)
  | opt (p off : Nat)
  | flash (off : Nat)
  | fe (off : Nat)
  | nowhere
  deriving DecidableEq, Repr

/-- The block that an X-die address lies in (R266, R291, R298, R305, R309, R316, R354). -/
def block32 (a : Nat) : Block32 :=
  if a < 0x1000 then .xs a
  else if 0x01000000 ≤ a ∧ a < 0x01004000 then .mc ((a - 0x01000000) / 0x1000) (a % 0x1000)
  else if 0x02000000 ≤ a ∧ a < 0x02040000 then .dc ((a - 0x02000000) / 0x10000) (a % 0x10000)
  else if 0x02100000 ≤ a ∧ a < 0x02108000 then .hb ((a - 0x02100000) / 0x1000) (a % 0x1000)
  else if 0x03000000 ≤ a ∧ a < 0x03220000 then .opt ((a - 0x03000000) / 0x10000) (a % 0x10000)
  else if 0x04000000 ≤ a ∧ a < 0x04001000 then .flash (a - 0x04000000)
  else if 0x05000000 ≤ a ∧ a < 0x05001000 then .fe (a - 0x05000000)
  else .nowhere

/-- Read the register at an X-die address; none where it names none. -/
def State.readReg (s : State) (a : Nat) : Option Nat :=
  match block32 a with
  | .xs o => s.readXs o
  | .mc m o => s.readMc m o
  | .dc d o => s.readDc d o
  | .hb n o => s.readHb n o
  | .opt p o => s.readPort p o
  | .flash o => some (s.readFlash o)
  | .fe o => s.readFe o
  | .nowhere => none

/-- Write the register at an X-die address; a write to an RO register has no effect (R314). -/
def State.writeReg (s : State) (a v : Nat) : State :=
  match block32 a with
  | .xs o => s.writeXs o v
  | .mc m o => s.writeMc m o v
  | .dc d o => s.writeDc d o v
  | .hb n o => s.writeHb n o v
  | .opt p o => s.writePort p o v
  | .flash _ => s
  | .fe o => s.writeFe o v
  | .nowhere => s

/-- A word that only management cores run: `privilege` in user mode, `illegal-instruction` in privileged mode of a C-die core
(R314, R315). -/
def mgmtWord (f : Nat → SRegs → Out) (s : State) : Out :=
  match s.cur.ag with
  | .mgmt m => if s.cur.act = [] then .next s.retire else f m (s.mc m).sregs
  | .group b g => match s.blk b with
    | none => .fault .noAgent
    | some k => .next (s.raise (if k.priv g then 0x01 else 0x03) 0)
  | _ => .fault .noAgent

/-- The address of `ldio` and `stio`, or the fault of its checks (R314). -/
def ioAddr (s : State) (r : SRegs) (a i : Nat) : Nat ⊕ Nat :=
  let x := sval r a
  let ad := wrap 32 ((x % 2 ^ 32 : Nat) + sgn 12 i * 4)
  if !sok r a then .inr 0x04
  else if 2 ^ 32 ≤ x then .inr 0x07
  else if ad % 4 ≠ 0 then .inr 0x05
  else if (s.readReg ad).isNone then .inr 0x07
  else .inl ad

/-- `ldio` (R314). -/
def execLdio (d a i : Nat) (s : State) : Out :=
  mgmtWord (fun _ r => match ioAddr s r a i with
    | .inr c => .next (s.raise c 0)
    | .inl ad => .next (s.setSregs (sfresh r d (match s.readReg ad with | some v => v | none => 0))).retire) s

/-- `stio` (R314): the residue of all of d is checked, as `sst` checks its data (R120). -/
def execStio (d a i : Nat) (s : State) : Out :=
  mgmtWord (fun _ r => match ioAddr s r a i with
    | .inr c => .next (s.raise c 0)
    | .inl ad =>
      if sok r d then .next (s.retire.writeReg ad (sval r d % 2 ^ 32))
      else .next (s.raise 0x04 0)) s

/-- An enabled interrupt of a management core is pending (R315). -/
def Mc.pending (k : Mc) : Bool := decide (k.ipend &&& k.ien ≠ 0)

/-- `wfi` (R315). -/
def execWfi (s : State) : Out :=
  mgmtWord (fun m _ =>
    let s1 := s.retire
    .next (if (s.mc m).pending then s1 else s1.setMc m { s1.mc m with waiting := true })) s

/-- WFI_WAKE (R315). -/
def execWfiWake (m : Nat) (s : State) : Out :=
  let k := s.mc m
  .next (if m < 4 ∧ k.waiting ∧ k.pending then s.setMc m { k with waiting := false } else s)

end Sys2Proof.Machine
end

