-- ==== Sys2Proof/Machine/Waits.lean ====
section
/-! DEFINITION. Waiting words: a word that waits on presence, on a completion bitmap, on the object log or on a cluster slot is run again
in the state as it stands; the limits of those waits (R143, R144, R228, R229, R262, R373 to R375). -/
namespace Sys2Proof.Machine

/-- A word whose wait has a limit, run again. -/
def timedWord (i : Instr) (t : State) : Option Out :=
  match i with
  | .vld d z r o b => some (execVld d z r o b t)
  | .vldsp d z r o b => some (execVldsp d z r o b t)
  | .vldt d z r o b => some (execVldt d z r o b t)
  | .vldx d z r o b => some (execVldx d z r o b t)
  | .vstx d z r o b => some (execVstx d z r o b t)
  | .prswait z r o => some (execPrswait z r o t)
  | .sld d a z o => some (execSld d a z o t)
  | .mbind g u h x l => some (execMbind g u h x l t)
  | .mrowLines r b g x m => some (execMrowLines r b g x m t)
  | .cwait a b v => some (execCwait a b v t)
  | .rocall d a b => some (execRocall d a b t)
  | .rowait d a => some (execRowait d a t)
  | .roread d a b => some (execRoread d a b t)
  | _ => none

/-- The wait of an agent. -/
def State.waitOf (s : State) (ag : Agent) : Option Wait :=
  match ag with
  | .group b g => (match s.bg b g with | some (_, x) => x.wait | none => none)
  | .scalar b g => (match s.bg b g with | some (_, x) => x.swait | none => none)
  | .matrix b => (match s.blk b with | some k => k.ms.wait | none => none)
  | .copy b => (match s.blk b with | some k => k.cs.wait | none => none)
  | _ => none

/-- A wait has a limit of its own, and for which fault: `cr.prstimeout` with 0x09 (R144, R262), `cr.joinwin` with 0x0B (R228). -/
def WaitOn.limit (w : WaitOn) : Option Nat :=
  match w with
  | .presence => some 0x09
  | .bitmap => some 0x09
  | .object => some 0x09
  | .slot => some 0x0B
  | _ => none

/-- The call that a group has queued has not been sent. -/
def State.callUnsent (s : State) (part : Nat) (who : Nat × Nat) : Bool := (s.part part).unsent.any (fun e => decide (e.2 = some who))

/-- The limit of a wait of an agent's word: each wait of `rocall` has `cr.prstimeout`'s, but a call that has been sent waits for its place
(R372, R373, log entry 49). -/
def State.waitLimit (s : State) (ag : Agent) (i : Instr) (w : WaitOn) : Option Nat :=
  match i, ag with
  | .rocall _ _ _, .group b g =>
    if w = .called then (match s.blk b with
      | some k => if s.callUnsent k.trec.part (b, g) then some 0x09 else none
      | none => none)
    else some 0x09
  | _, _ => w.limit

/-- The control register in force that limits a wait of an agent: for a stream the block's (R144, R209, R228). -/
def State.limitOf (s : State) (ag : Agent) (code : Nat) : Nat :=
  let pick := fun (p j : Nat) => if code = 0x09 then p else j
  match ag with
  | .group b g => (match s.bg b g with | some (_, x) => pick x.inf.prstimeout x.inf.joinwin | none => 0)
  | .scalar b g => (match s.bg b g with | some (_, x) => pick x.inf.prstimeout x.inf.joinwin | none => 0)
  | .matrix b => (match s.blk b with | some k => pick k.prstimeout.toNat k.joinwin.toNat | none => 0)
  | .copy b => (match s.blk b with | some k => pick k.prstimeout.toNat k.joinwin.toNat | none => 0)
  | _ => 0

/-- The waiting word of an agent, about to be run again. -/
def State.waitingWord (s : State) (ag : Agent) : Option (Instr × State × Wait) :=
  match s.waitOf ag, s.nextOf ag with
  | some w, .word i t => if t.cur.pc = w.pc then some (i, t, w) else none
  | _, _ => none

/-- An agent's timed word waits on, for what it has waited for. -/
def State.waitsOn (s : State) (ag : Agent) : Bool :=
  match s.waitingWord ag with
  | some (i, t, w) => (match timedWord i t with
    | some (.next u) => (match u.waitOf ag with
      | some v => decide (v.on = w.on) && decide (v.start = w.start)
      | none => false)
    | _ => false)
  | none => false

/-- The first cycle in which a wait of an agent with a limit of code 0x09 or 0x0B is over that limit, its word still to wait on (R144,
R228). -/
def State.overAt (s : State) (ag : Agent) (code : Nat) : Option Nat :=
  match s.waitingWord ag with
  | some (i, _, w) =>
    let n := s.limitOf ag code
    let at_ := w.start + n * (if code = 0x09 then 1024 else 1000) + 1
    if s.waitLimit ag i w.on = some code ∧ n ≠ 0 ∧ at_ ≤ s.cycle ∧ s.waitsOn ag then some at_ else none
  | none => none

/-- A wait of an agent is over its limit, 0x09 or 0x0B, and its word would wait on (R144, R228). -/
def State.over_ (s : State) (ag : Agent) (code : Nat) : Bool := (s.overAt ag code).isSome

/-- A call that a group has queued is taken back: it has not been sent (R372). -/
def State.unqueue (s : State) (b g : Nat) : State :=
  match s.bg b g with
  | some (k, x) =>
    if x.calling then
      let p := s.part k.trec.part
      (s.setPart k.trec.part { p with unsent := p.unsent.filter (fun e => decide (e.2 ≠ some (b, g))) }).updGrp b g (fun y => { y with wait := none })
    else s
  | none => s

/-- The fault of a wait that is over its limit, precise at the word, which has no effect (R144, R228). It names the lanes that were active
where the word began to wait, its info is 0 (log entry 79). -/
def State.giveUp (s : State) (ag : Agent) (code : Nat) : State :=
  match s.waitingWord ag with
  | some (_, t, w) =>
    let u := match ag with
      | .scalar b g => (match t.blk b with
        | some k => (t.unhold k.core (ofSide b g 2)).updGrp b g (fun x => { x with swait := none })
        | none => t)
      | .group b g => t.unqueue b g
      | _ => t
    u.raiseAt ag code (match ag with | .group _ _ => w.lanes | _ => 0) w.pc 0
  | none => s

/-- The agents of a block that an event names: a group's wide and scalar side; 0x10 and 0x11 are the streams. -/
def sidesOf (blk grp : Nat) : List Agent :=
  if grp = 0x10 then [.matrix blk] else if grp = 0x11 then [.copy blk] else [.group blk grp, .scalar blk grp]

/-- PRESENCE_WAIT_RESUME (R143): a word that waited on absent lines performs once every line is present. -/
def execPresenceWaitResume (blk grp : Nat) (s : State) : Out :=
  match firstOf (fun ag => match s.waitOf ag with | some w => decide (w.on = .presence) | none => false) (sidesOf blk grp) with
  | none => .next s
  | some ag => match s.waitingWord ag with
    | some (i, t, _) => (match timedWord i t with
      | some o => o
      | none => .next s)
    | none => .next s

/-- PRESENCE_TIMEOUT (R144): a presence wait, or a `cwait`, `rocall`, `rowait` or `roread` wait, exceeds `cr.prstimeout`. -/
def execPresenceTimeout (blk grp : Nat) (s : State) : Out :=
  match firstOf (fun ag => s.over_ ag 0x09) (sidesOf blk grp) with
  | some ag => .next (s.giveUp ag 0x09)
  | none => .next s

/-- CLUSTER_JOIN_TIMEOUT (R228): a remote access parked on an empty or away slot exceeds `cr.joinwin`. -/
def execClusterJoinTimeout (blk grp : Nat) (s : State) : Out :=
  if s.over_ (.group blk grp) 0x0B then .next (s.giveUp (.group blk grp) 0x0B) else .next s

/-- The rank of a group, or of a stream as group 16 or 17, among those that move in one cycle: lower cores first, on a core lower groups,
then the matrix stream, then the copy stream (R199, R224). -/
def Block.rank (k : Block) (g : Nat) : Nat := 18 * k.core + g + 1

/-- A fault of a wait that is over its limit: the first cycle in which it is, the rank of its group or stream, the event that raises it. -/
structure Due where
  at_ : Nat
  rank : Nat
  what : Instr
  deriving DecidableEq, Repr

/-- The waits of a block's group or stream that are over their limits (R144, R228). -/
def State.duesOf (s : State) (k : Block) (g : Nat) : List Due :=
  ((sidesOf k.id g).filterMap (fun ag => (s.overAt ag 0x09).map (fun c => ⟨c, k.rank g, .presenceTimeout k.id g⟩)))
    ++ ((s.overAt (.group k.id g) 0x0B).map (fun c => (⟨c, k.rank g, .clusterJoinTimeout k.id g⟩ : Due))).toList

/-- The atomics that are late at a die's gauntlet (R220). -/
def State.lateAtomics (s : State) (d : Nat) : List Due :=
  (s.die d).gaunt.filterMap (fun w => match s.bg w.blk w.grp with
    | some (k, x) => if s.gateLate w && x.wait.isSome then (s.gateEnd w).map (fun c => ⟨c, k.rank w.grp, .replayGateTimeout d w.blk w.grp⟩) else none
    | none => none)

/-- Every fault of a wait that is over its limit (R144, R220, R228). -/
def State.dues (s : State) : List Due :=
  (s.blocks.map (fun k => ((k.groups.map (fun g => g.num) ++ [0x10, 0x11]).map (s.duesOf k)).flatten)).flatten
    ++ ((upFrom 0 4).map s.lateAtomics).flatten

/-- A fault of a wait comes before a move of a rank: it is due since an earlier cycle, or it is due in this cycle and its rank is no higher.
It comes before every move without a rank (R199; log entry 2). -/
def Due.before (d : Due) (now : Nat) (r : Option Nat) : Bool :=
  decide (d.at_ < now) || (match r with | some n => decide (d.rank ≤ n) | none => true)

/-- The fault of a wait that comes before a move of a rank: the one due first, of those due in one cycle that of the lowest rank (R144, R199,
R220, R228). -/
def State.due (s : State) (r : Option Nat) : Option Due :=
  ((s.dues.filter (fun d => d.before s.cycle r)).foldl (fun (best : Option Due) d => match best with
    | none => some d
    | some x => if d.at_ < x.at_ ∨ (d.at_ = x.at_ ∧ d.rank < x.rank) then some d else best) none)

end Sys2Proof.Machine
end

