-- ==== Sys2Proof/Machine/Dispatch.lean ====
section
/-! DEFINITION. The meaning of every instruction: one arm for each constructor of `Instr`. -/
namespace Sys2Proof.Machine

def exec (i : Instr) (s : State) : Host.Outcome State Fault Refusal :=
  match i with
  | .clauseHeader n cls y wait b bar g sense guard => Sys2Proof.Machine.execClauseHeader n cls y wait b bar g sense guard s
  | .sadd d a b => Sys2Proof.Machine.execSadd d a b s
  | .ssub d a b => Sys2Proof.Machine.execSsub d a b s
  | .smul d a b => Sys2Proof.Machine.execSmul d a b s
  | .smulh d a b => Sys2Proof.Machine.execSmulh d a b s
  | .sand d a b => Sys2Proof.Machine.execSand d a b s
  | .sor d a b => Sys2Proof.Machine.execSor d a b s
  | .sxor d a b => Sys2Proof.Machine.execSxor d a b s
  | .sshl d a b => Sys2Proof.Machine.execSshl d a b s
  | .sshr d a b => Sys2Proof.Machine.execSshr d a b s
  | .ssra d a b => Sys2Proof.Machine.execSsra d a b s
  | .smin d a b => Sys2Proof.Machine.execSmin d a b s
  | .smax d a b => Sys2Proof.Machine.execSmax d a b s
  | .smov d a => Sys2Proof.Machine.execSmov d a s
  | .smovi d n => Sys2Proof.Machine.execSmovi d n s
  | .slui d a m => Sys2Proof.Machine.execSlui d a m s
  | .scmp c p a b => Sys2Proof.Machine.execScmp c p a b s
  | .ssel d a b p => Sys2Proof.Machine.execSsel d a b p s
  | .sfadd d a b => Sys2Proof.Machine.execSfadd d a b s
  | .sfmul d a b => Sys2Proof.Machine.execSfmul d a b s
  | .sfma d a b => Sys2Proof.Machine.execSfma d a b s
  | .sld d a z o => Sys2Proof.Machine.execSld d a z o s
  | .sst d a z o => Sys2Proof.Machine.execSst d a z o s
  | .qfwd a => Sys2Proof.Machine.execQfwd a s
  | .qret d => Sys2Proof.Machine.execQret d s
  | .sclk d => Sys2Proof.Machine.execSclk d s
  | .sgid d z => Sys2Proof.Machine.execSgid d z s
  | .vadd d a b t v => Sys2Proof.Machine.execVadd d a b t v s
  | .vsub d a b t v => Sys2Proof.Machine.execVsub d a b t v s
  | .vmul d a b t v => Sys2Proof.Machine.execVmul d a b t v s
  | .vmulh d a b t v => Sys2Proof.Machine.execVmulh d a b t v s
  | .vmac d a b t v => Sys2Proof.Machine.execVmac d a b t v s
  | .vaddc d a b t v => Sys2Proof.Machine.execVaddc d a b t v s
  | .vabs d a t v => Sys2Proof.Machine.execVabs d a t v s
  | .vneg d a t v => Sys2Proof.Machine.execVneg d a t v s
  | .vmin d a b t v => Sys2Proof.Machine.execVmin d a b t v s
  | .vmax d a b t v => Sys2Proof.Machine.execVmax d a b t v s
  | .vand d a b t v => Sys2Proof.Machine.execVand d a b t v s
  | .vor d a b t v => Sys2Proof.Machine.execVor d a b t v s
  | .vxor d a b t v => Sys2Proof.Machine.execVxor d a b t v s
  | .vnot d a t v => Sys2Proof.Machine.execVnot d a t v s
  | .vshl d a b t v => Sys2Proof.Machine.execVshl d a b t v s
  | .vshr d a b t v => Sys2Proof.Machine.execVshr d a b t v s
  | .vsra d a b t v => Sys2Proof.Machine.execVsra d a b t v s
  | .vpopc d a t v => Sys2Proof.Machine.execVpopc d a t v s
  | .vclz d a t v => Sys2Proof.Machine.execVclz d a t v s
  | .vbrev d a t v => Sys2Proof.Machine.execVbrev d a t v s
  | .vbfx d a b t v => Sys2Proof.Machine.execVbfx d a b t v s
  | .vbfi d a b t v => Sys2Proof.Machine.execVbfi d a b t v s
  | .vsel d a b t v => Sys2Proof.Machine.execVsel d a b t v s
  | .vcmp c p a b v => Sys2Proof.Machine.execVcmp c p a b v s
  | .vmov d a t v => Sys2Proof.Machine.execVmov d a t v s
  | .vmovi d m => Sys2Proof.Machine.execVmovi d m s
  | .vlui d m => Sys2Proof.Machine.execVlui d m s
  | .vlea d a b t v => Sys2Proof.Machine.execVlea d a b t v s
  | .vfadd d a b t m => Sys2Proof.Machine.execVfadd d a b t m s
  | .vfsub d a b t m => Sys2Proof.Machine.execVfsub d a b t m s
  | .vfmul d a b t m => Sys2Proof.Machine.execVfmul d a b t m s
  | .vfma d a b t m => Sys2Proof.Machine.execVfma d a b t m s
  | .vfmin d a b t => Sys2Proof.Machine.execVfmin d a b t s
  | .vfmax d a b t => Sys2Proof.Machine.execVfmax d a b t s
  | .vfcmp c p a b => Sys2Proof.Machine.execVfcmp c p a b s
  | .vfclass d a t => Sys2Proof.Machine.execVfclass d a t s
  | .vfrcp d a t => Sys2Proof.Machine.execVfrcp d a t s
  | .vfrsq d a t => Sys2Proof.Machine.execVfrsq d a t s
  | .vfsqrt d a t => Sys2Proof.Machine.execVfsqrt d a t s
  | .vfexp2 d a t => Sys2Proof.Machine.execVfexp2 d a t s
  | .vflog2 d a t => Sys2Proof.Machine.execVflog2 d a t s
  | .vftanh d a t => Sys2Proof.Machine.execVftanh d a t s
  | .vfadd2 d a b t v => Sys2Proof.Machine.execVfadd2 d a b t v s
  | .vfmul2 d a b t v => Sys2Proof.Machine.execVfmul2 d a b t v s
  | .vfma2 d a b t v => Sys2Proof.Machine.execVfma2 d a b t v s
  | .vcvt d a c r m t v => Sys2Proof.Machine.execVcvt d a c r m t v s
  | .vsrnd d a b t v => Sys2Proof.Machine.execVsrnd d a b t v s
  | .vrng d a b t v => Sys2Proof.Machine.execVrng d a b t v s
  | .vpack d a b t e => Sys2Proof.Machine.execVpack d a b t e s
  | .vunpk d a b t e => Sys2Proof.Machine.execVunpk d a b t e s
  | .vplane d a b t v => Sys2Proof.Machine.execVplane d a b t v s
  | .vmxscale d a b t v => Sys2Proof.Machine.execVmxscale d a b t v s
  | .vmxq d a b t v => Sys2Proof.Machine.execVmxq d a b t v s
  | .vqswap d a b t v => Sys2Proof.Machine.execVqswap d a b t v s
  | .vqbcast d a b t v => Sys2Proof.Machine.execVqbcast d a b t v s
  | .vqsum d a b t v => Sys2Proof.Machine.execVqsum d a b t v s
  | .vshfl d a b t v => Sys2Proof.Machine.execVshfl d a b t v s
  | .vbcast d a b t v => Sys2Proof.Machine.execVbcast d a b t v s
  | .vred d a b t v => Sys2Proof.Machine.execVred d a b t v s
  | .vscan d a b t v => Sys2Proof.Machine.execVscan d a b t v s
  | .vballot d a b t v => Sys2Proof.Machine.execVballot d a b t v s
  | .vsys d a b t v => Sys2Proof.Machine.execVsys d a b t v s
  | .pand d a b => Sys2Proof.Machine.execPand d a b s
  | .por d a b => Sys2Proof.Machine.execPor d a b s
  | .pxor d a b => Sys2Proof.Machine.execPxor d a b s
  | .pnot d a => Sys2Proof.Machine.execPnot d a s
  | .pmov d a => Sys2Proof.Machine.execPmov d a s
  | .pset d m => Sys2Proof.Machine.execPset d m s
  | .vqpop d t v => Sys2Proof.Machine.execVqpop d t v s
  | .vqpush a v => Sys2Proof.Machine.execVqpush a v s
  | .vld d z r o b => Sys2Proof.Machine.execVld d z r o b s
  | .vst d z r o b => Sys2Proof.Machine.execVst d z r o b s
  | .vldsp d z r o b => Sys2Proof.Machine.execVldsp d z r o b s
  | .vstsp d z r o b => Sys2Proof.Machine.execVstsp d z r o b s
  | .vldt d z r o b => Sys2Proof.Machine.execVldt d z r o b s
  | .vldx d z r o b => Sys2Proof.Machine.execVldx d z r o b s
  | .vstx d z r o b => Sys2Proof.Machine.execVstx d z r o b s
  | .vpref z r o b => Sys2Proof.Machine.execVpref z r o b s
  | .prsclr z r o => Sys2Proof.Machine.execPrsclr z r o s
  | .prswait z r o => Sys2Proof.Machine.execPrswait z r o s
  | .prstest d z r o => Sys2Proof.Machine.execPrstest d z r o s
  | .phase z => Sys2Proof.Machine.execPhase z s
  | .memoryAccessCompletion core id => Sys2Proof.Machine.execMemoryAccessCompletion core id s
  | .presenceWaitResume blk grp => Sys2Proof.Machine.execPresenceWaitResume blk grp s
  | .presenceTimeout blk grp => Sys2Proof.Machine.execPresenceTimeout blk grp s
  | .divergenceStarvation blk grp lane => Sys2Proof.Machine.execDivergenceStarvation blk grp lane s
  | .groupPromotion core quad => Sys2Proof.Machine.execGroupPromotion core quad s
  | .bra n c o => Sys2Proof.Machine.execBra n c o s
  | .bru n c o => Sys2Proof.Machine.execBru n c o s
  | .jmpi a v => Sys2Proof.Machine.execJmpi a v s
  | .call m => Sys2Proof.Machine.execCall m s
  | .ret => Sys2Proof.Machine.execRet s
  | .enrol k => Sys2Proof.Machine.execEnrol k s
  | .rejoin k => Sys2Proof.Machine.execRejoin k s
  | .strike k => Sys2Proof.Machine.execStrike k s
  | .spawn d a b v => Sys2Proof.Machine.execSpawn d a b v s
  | .exit => Sys2Proof.Machine.execExit s
  | .yield => Sys2Proof.Machine.execYield s
  | .nop => Sys2Proof.Machine.execNop s
  | .fork k => Sys2Proof.Machine.execFork k s
  | .rdv k => Sys2Proof.Machine.execRdv k s
  | .barar m => Sys2Proof.Machine.execBarar m s
  | .barwt m => Sys2Proof.Machine.execBarwt m s
  | .barsync m => Sys2Proof.Machine.execBarsync m s
  | .msync a => Sys2Proof.Machine.execMsync a s
  | .cljoin d a b v => Sys2Proof.Machine.execCljoin d a b v s
  | .clleave d v => Sys2Proof.Machine.execClleave d v s
  | .clslot d v => Sys2Proof.Machine.execClslot d v s
  | .clusterJoinTimeout blk grp => Sys2Proof.Machine.execClusterJoinTimeout blk grp s
  | .atadd d a b v => Sys2Proof.Machine.execAtadd d a b v s
  | .atinc d a b v => Sys2Proof.Machine.execAtinc d a b v s
  | .atbadd d a b v => Sys2Proof.Machine.execAtbadd d a b v s
  | .atmin d a b v => Sys2Proof.Machine.execAtmin d a b v s
  | .atmax d a b v => Sys2Proof.Machine.execAtmax d a b v s
  | .atand d a b v => Sys2Proof.Machine.execAtand d a b v s
  | .ator d a b v => Sys2Proof.Machine.execAtor d a b v s
  | .atxor d a b v => Sys2Proof.Machine.execAtxor d a b v s
  | .atxchg d a b v => Sys2Proof.Machine.execAtxchg d a b v s
  | .atcas d a b v => Sys2Proof.Machine.execAtcas d a b v s
  | .atld d a v => Sys2Proof.Machine.execAtld d a v s
  | .atred a b v => Sys2Proof.Machine.execAtred a b v s
  | .tkdec d a v => Sys2Proof.Machine.execTkdec d a v s
  | .tkadd d a b v => Sys2Proof.Machine.execTkadd d a b v s
  | .tkmake d a b v => Sys2Proof.Machine.execTkmake d a b v s
  | .tktake d v => Sys2Proof.Machine.execTktake d v s
  | .rocall d a b => Sys2Proof.Machine.execRocall d a b s
  | .rowait d a => Sys2Proof.Machine.execRowait d a s
  | .roread d a b => Sys2Proof.Machine.execRoread d a b s
  | .rotrim d a => Sys2Proof.Machine.execRotrim d a s
  | .cpost a b v => Sys2Proof.Machine.execCpost a b v s
  | .cpostTry n a b v => Sys2Proof.Machine.execCpostTry n a b v s
  | .cwait a b v => Sys2Proof.Machine.execCwait a b v s
  | .ctest d a b v => Sys2Proof.Machine.execCtest d a b v s
  | .cfence a b v => Sys2Proof.Machine.execCfence a b v s
  | .crec d a b v => Sys2Proof.Machine.execCrec d a b v s
  | .cabort d a v => Sys2Proof.Machine.execCabort d a v s
  | .ccoll a v => Sys2Proof.Machine.execCcoll a v s
  | .cgen d a v => Sys2Proof.Machine.execCgen d a v s
  | .trap m => Sys2Proof.Machine.execTrap m s
  | .tret => Sys2Proof.Machine.execTret s
  | .csrr d r => Sys2Proof.Machine.execCsrr d r s
  | .csrw a r => Sys2Proof.Machine.execCsrw a r s
  | .ctxsave d a b => Sys2Proof.Machine.execCtxsave d a b s
  | .ctxload d a => Sys2Proof.Machine.execCtxload d a s
  | .mbpost d a b => Sys2Proof.Machine.execMbpost d a b s
  | .mbpoll d a b => Sys2Proof.Machine.execMbpoll d a b s
  | .halt => Sys2Proof.Machine.execHalt s
  | .tlbinv a b => Sys2Proof.Machine.execTlbinv a b s
  | .ldio d a m => Sys2Proof.Machine.execLdio d a m s
  | .stio d a m => Sys2Proof.Machine.execStio d a m s
  | .wfi => Sys2Proof.Machine.execWfi s
  | .wfiWake m => Sys2Proof.Machine.execWfiWake m s
  | .mcfgIndex n m => Sys2Proof.Machine.execMcfgIndex n m s
  | .mcfgArea u => Sys2Proof.Machine.execMcfgArea u s
  | .mcfgAfmt k t => Sys2Proof.Machine.execMcfgAfmt k t s
  | .mcfgGrp g => Sys2Proof.Machine.execMcfgGrp g s
  | .mcfgHi n m => Sys2Proof.Machine.execMcfgHi n m s
  | .mbind g t h x l => Sys2Proof.Machine.execMbind g t h x l s
  | .mrowLines r b g x m => Sys2Proof.Machine.execMrowLines r b g x m s
  | .mrowTslots r b g x m => Sys2Proof.Machine.execMrowTslots r b g x m s
  | .mzero a c => Sys2Proof.Machine.execMzero a c s
  | .mmul a r n g t k => Sys2Proof.Machine.execMmul a r n g t k s
  | .mmulw a r g t k => Sys2Proof.Machine.execMmulw a r g t k s
  | .mdrain a f p m z x => Sys2Proof.Machine.execMdrain a f p m z x s
  | .mdrainCh a c => Sys2Proof.Machine.execMdrainCh a c s
  | .mdrainf a x l => Sys2Proof.Machine.execMdrainf a x l s
  | .msignal b => Sys2Proof.Machine.execMsignal b s
  | .mwaitb b => Sys2Proof.Machine.execMwaitb b s
  | .mloop x o => Sys2Proof.Machine.execMloop x o s
  | .mjmp o => Sys2Proof.Machine.execMjmp o s
  | .mstamp a f => Sys2Proof.Machine.execMstamp a f s
  | .mstampRetire a => Sys2Proof.Machine.execMstampRetire a s
  | .mend => Sys2Proof.Machine.execMend s
  | .mnop => Sys2Proof.Machine.execMnop s
  | .haltBroadcast blk => Sys2Proof.Machine.execHaltBroadcast blk s
  | .debugStopBreakpoint blk grp => Sys2Proof.Machine.execDebugStopBreakpoint blk grp s
  | .debugStopRequest die => Sys2Proof.Machine.execDebugStopRequest die s
  | .traceSample core => Sys2Proof.Machine.execTraceSample core s
  | .preemptionSave blk => Sys2Proof.Machine.execPreemptionSave blk s
  | .blockPlacement die => Sys2Proof.Machine.execBlockPlacement die s
  | .dcRetireWrite die hi val => Sys2Proof.Machine.execDcRetireWrite die hi val s
  | .tlbWalk die part page => Sys2Proof.Machine.execTlbWalk die part page s
  | .replayGauntletAdmit die blk grp => Sys2Proof.Machine.execReplayGauntletAdmit die blk grp s
  | .replayGateTimeout die blk grp => Sys2Proof.Machine.execReplayGateTimeout die blk grp s
  | .packetBegin q => Sys2Proof.Machine.execPacketBegin q s
  | .chunkLanding q data => Sys2Proof.Machine.execChunkLanding q data s
  | .packetCompletion q => Sys2Proof.Machine.execPacketCompletion q s
  | .fencePacket q => Sys2Proof.Machine.execFencePacket q s
  | .abandonedSlotWrite q => Sys2Proof.Machine.execAbandonedSlotWrite q s
  | .queueRestart vf q => Sys2Proof.Machine.execQueueRestart vf q s
  | .taskReleaseWrite vf off data => Sys2Proof.Machine.execTaskReleaseWrite vf off data s
  | .hostSyncAtomic vf off size x => Sys2Proof.Machine.execHostSyncAtomic vf off size x s
  | .hostCxlMemAccess wr off len data => Sys2Proof.Machine.execHostCxlMemAccess wr off len data s
  | .hbmCorrectedError stack ch bank row col => Sys2Proof.Machine.execHbmCorrectedError stack ch bank row col s
  | .classifierEntryExpiry stack idx => Sys2Proof.Machine.execClassifierEntryExpiry stack idx s
  | .hbmRepair stack idx => Sys2Proof.Machine.execHbmRepair stack idx s
  | .hbmRepairMoveDone stack => Sys2Proof.Machine.execHbmRepairMoveDone stack s
  | .mcIpendClear m val => Sys2Proof.Machine.execMcIpendClear m val s
  | .mcPoke m val => Sys2Proof.Machine.execMcPoke m val s
  | .packageReset selftest images => Sys2Proof.Machine.execPackageReset selftest images s
  | .mgmtImageReceived image => Sys2Proof.Machine.execMgmtImageReceived image s
  | .spdmGetVersion req => Sys2Proof.Machine.execSpdmGetVersion req s
  | .spdmGetCapabilities req => Sys2Proof.Machine.execSpdmGetCapabilities req s
  | .spdmNegotiateAlgorithms req => Sys2Proof.Machine.execSpdmNegotiateAlgorithms req s
  | .spdmGetDigests req => Sys2Proof.Machine.execSpdmGetDigests req s
  | .spdmGetCertificate req => Sys2Proof.Machine.execSpdmGetCertificate req s
  | .spdmChallenge req => Sys2Proof.Machine.execSpdmChallenge req s
  | .spdmGetMeasurements req => Sys2Proof.Machine.execSpdmGetMeasurements req s
  | .lifetimeMonthEnd => Sys2Proof.Machine.execLifetimeMonthEnd s
  | .throttle die power temp => Sys2Proof.Machine.execThrottle die power temp s
  | .dieOvertempStop die temp => Sys2Proof.Machine.execDieOvertempStop die temp s
  | .xsFuseminWrite val => Sys2Proof.Machine.execXsFuseminWrite val s
  | .optCtlBits p val => Sys2Proof.Machine.execOptCtlBits p val s
  | .optStateOffRequest p val => Sys2Proof.Machine.execOptStateOffRequest p val s
  | .optStateUpRequest p val => Sys2Proof.Machine.execOptStateUpRequest p val s
  | .optLit p mon => Sys2Proof.Machine.execOptLit p mon s
  | .optLitTimeout p => Sys2Proof.Machine.execOptLitTimeout p s
  | .optLaserFailure p laser mon => Sys2Proof.Machine.execOptLaserFailure p laser mon s
  | .optLockSweep p val => Sys2Proof.Machine.execOptLockSweep p val s
  | .optSweepDone p readings => Sys2Proof.Machine.execOptSweepDone p readings s
  | .optTrain p val => Sys2Proof.Machine.execOptTrain p val s
  | .optTrainDone p peer eyes => Sys2Proof.Machine.execOptTrainDone p peer eyes s
  | .optLanemapWrite p val => Sys2Proof.Machine.execOptLanemapWrite p val s
  | .wavelengthLoss p lam => Sys2Proof.Machine.execWavelengthLoss p lam s
  | .keyRequestThreshold p => Sys2Proof.Machine.execKeyRequestThreshold p s
  | .keyExhausted p => Sys2Proof.Machine.execKeyExhausted p s
  | .feKeyuseWrite val => Sys2Proof.Machine.execFeKeyuseWrite val s
  | .feKeydataWrite val => Sys2Proof.Machine.execFeKeydataWrite val s
  | .feSchedLock val => Sys2Proof.Machine.execFeSchedLock val s
  | .feTbldataWrite val => Sys2Proof.Machine.execFeTbldataWrite val s
  | .feChpartWrite ch val => Sys2Proof.Machine.execFeChpartWrite ch val s
  | .rotorSlot => Sys2Proof.Machine.execRotorSlot s
  | .burstReceived p sender slot ok vc seq dst flits => Sys2Proof.Machine.execBurstReceived p sender slot ok vc seq dst flits s
  | .remoteRequestIngress pkg spart mode dpart addr len mx data => Sys2Proof.Machine.execRemoteRequestIngress pkg spart mode dpart addr len mx data s
  | .remoteAtomicIngress pkg spart dpart addr op w64 x b2 => Sys2Proof.Machine.execRemoteAtomicIngress pkg spart dpart addr op w64 x b2 s
  | .leaseExpiry line => Sys2Proof.Machine.execLeaseExpiry line s
  | .remoteTimeout q => Sys2Proof.Machine.execRemoteTimeout q s
  | .collectiveHead ch => Sys2Proof.Machine.execCollectiveHead ch s
  | .collectiveFlitIngress ch src kind gen gid seq op dt red total base vals => Sys2Proof.Machine.execCollectiveFlitIngress ch src kind gen gid seq op dt red total base vals s
  | .collectiveResend id => Sys2Proof.Machine.execCollectiveResend id s
  | .collectiveAbortReceived ch src gen gid seq => Sys2Proof.Machine.execCollectiveAbortReceived ch src gen gid seq s
  | .collectiveCompletion ch => Sys2Proof.Machine.execCollectiveCompletion ch s
  | .capReceived => Sys2Proof.Machine.execCapReceived s
  | .capRegeneration => Sys2Proof.Machine.execCapRegeneration s
  | .possessionClose port frames => Sys2Proof.Machine.execPossessionClose port frames s
  | .nirraxGapTimeout => Sys2Proof.Machine.execNirraxGapTimeout s
  | .expelFallback pkg => Sys2Proof.Machine.execExpelFallback pkg s
  | .callApply part => Sys2Proof.Machine.execCallApply part s
  | .membershipExpel part => Sys2Proof.Machine.execMembershipExpel part s
  | .membershipAdmit part => Sys2Proof.Machine.execMembershipAdmit part s
  | .membershipReplace part => Sys2Proof.Machine.execMembershipReplace part s
  | .membershipClone part => Sys2Proof.Machine.execMembershipClone part s
  | .membershipAbort part => Sys2Proof.Machine.execMembershipAbort part s
  | .membershipAddspare part => Sys2Proof.Machine.execMembershipAddspare part s
  | .membershipGetgen part => Sys2Proof.Machine.execMembershipGetgen part s
  | .trainctlStep part => Sys2Proof.Machine.execTrainctlStep part s
  | .trainctlSetscale part => Sys2Proof.Machine.execTrainctlSetscale part s
  | .trainctlSetclip part => Sys2Proof.Machine.execTrainctlSetclip part s
  | .trainctlSetgrowth part => Sys2Proof.Machine.execTrainctlSetgrowth part s
  | .trainctlGetscale part => Sys2Proof.Machine.execTrainctlGetscale part s
  | .trainctlGetstep part => Sys2Proof.Machine.execTrainctlGetstep part s
  | .generationFence part => Sys2Proof.Machine.execGenerationFence part s
  | .cuffPageCopy part page => Sys2Proof.Machine.execCuffPageCopy part page s
  | .joinClone part stripe status kind data => Sys2Proof.Machine.execJoinClone part stripe status kind data s
  | .partitionConfiguration part cfg => Sys2Proof.Machine.execPartitionConfiguration part cfg s
  | .managementPortFrame frame => Sys2Proof.Machine.execManagementPortFrame frame s
  | .hostSyncApertureWrite vf off data => Sys2Proof.Machine.execHostSyncApertureWrite vf off data s
  | .registerUnitRetirement core => Sys2Proof.Machine.execRegisterUnitRetirement core s
  | .softError kind blk grp addr bit => Sys2Proof.Machine.execSoftError kind blk grp addr bit s
  | .powerRemoval => Sys2Proof.Machine.execPowerRemoval s

end Sys2Proof.Machine
end

