-- ==== Sys2Proof/Machine/Turn.lean ====
section
/-! DEFINITION. Which agent moves, and one move of it: the agenda, a quadrant's turn, the turns of streams, completions and
management cores; where a word stands so that the next step runs it (R121, R122, R126; log entries 2 and 6). -/
namespace Sys2Proof.Machine

/-- One step of an agent. -/
def State.runAgent (s : State) (ag : Agent) : Out :=
  match s.nextOf ag with
  | .word i t => exec i t
  | .done t => .next t

/-- A move writes to a page of a cuff whose shadow pool is empty: it waits, and nothing of it is performed (R383; log entry 34). -/
def stalls (o : Out) : Bool := match o with | .next t => t.stalled | _ => false

/-- A move that waits for a page of a cuff: an event or an act of the host is made again once the page has been read; an agent comes to its word
again by itself (R383; log entry 34). -/
def State.park (s : State) (m : Move) : State :=
  match m with
  | .event _ => { s with parked := s.parked ++ [m] }
  | .host _ => { s with parked := s.parked ++ [m] }
  | _ => s

/-- The outcome of a move, or the state in which it waits for a page of a cuff. -/
def State.orStall (s : State) (o : Out) : Out := if stalls o then .next s else o

/-- The wide side of a group can issue: it stands at no class S clause that the scalar side must execute first, and its word does
not wait (R123, R126). -/
def State.canWide (s : State) (b g : Nat) : Bool :=
  match s.bg b g with
  | none => false
  | some (k, x) =>
    if s.atScalar k x && x.starved.isNone then false
    else match s.runAgent (.group b g) with
    | .next t => !t.waits (.group b g) && !t.stalled
    | _ => true

/-- The scalar side of a group can issue. -/
def State.canScalar (s : State) (b g : Nat) : Bool :=
  match s.nextOf (.scalar b g) with
  | .word i t => (match exec i t with
    | .next u => !u.waits (.scalar b g) && !u.stalled
    | _ => true)
  | .done _ => match s.bg b g with
    | some (_, x) => x.resErr && x.sc.isSome
    | none => false

/-- A group is ready: some word of it can issue (R122, R123). -/
def State.ready (s : State) (b g : Nat) : Bool := s.canWide b g || s.canScalar b g

/-- A move of rank `r`: of the moves of one cycle those of lower rank come first, so that after a higher one it moves in the next cycle
(R199, R224, R248; log entry 2). -/
def State.ranked (s : State) (r : Nat) : State :=
  if s.rank.1 = s.cycle ∧ r < s.rank.2 then { s with cycle := s.cycle + 1, rank := (s.cycle + 1, r) } else { s with rank := (s.cycle, r) }

/-- The rank of a resident block's group or stream. -/
def State.rankOf (s : State) (b g : Nat) : Option Nat := (s.blk b).map (fun k => k.rank g)

/-- The rank of an agent's move. -/
def State.agentRank (s : State) (a : Agent) : Option Nat :=
  match a with
  | .group b g => s.rankOf b g
  | .scalar b g => s.rankOf b g
  | .matrix b => s.rankOf b 16
  | .copy b => s.rankOf b 17
  | _ => none

/-- The rank of an event that moves a group, or that changes the cluster slot of a core's block before the core's groups move (R224); a
remote atomic comes after every local access of its cycle (R248). -/
def State.eventRank (s : State) (i : Instr) : Option Nat :=
  match i with
  | .presenceWaitResume b g => s.rankOf b g
  | .presenceTimeout b g => s.rankOf b g
  | .clusterJoinTimeout b g => s.rankOf b g
  | .replayGauntletAdmit _ b g => s.rankOf b g
  | .replayGateTimeout _ b g => s.rankOf b g
  | .divergenceStarvation b g _ => s.rankOf b g
  | .preemptionSave b => (s.blk b).map (fun k => 18 * k.core)
  | .memoryAccessCompletion c id => (match firstOf (fun o => decide (o.id = id)) (s.core c).outs with
    | some o => s.rankOf o.blk o.grp
    | none => none)
  | .remoteAtomicIngress _ _ _ _ _ _ _ _ => some (2 ^ 16)
  | _ => none

/-- A move that may change the cluster slots of blocks on several cores: it has a cycle of its own (R224, R241, R244; log entry 2). -/
def Move.alone (m : Move) : Bool :=
  match m with
  | .event (.blockPlacement _) => true
  | .event (.dcRetireWrite _ _ _) => true
  | _ => false

/-- A cycle in which no ranked move has been made, and after which every ranked move comes in the next (R224). -/
def State.ownCycle (s : State) : State :=
  let n := if s.rank.1 = s.cycle ∧ s.rank.2 ≠ 0 then s.cycle + 1 else s.cycle
  { s with cycle := n, rank := (n, 2 ^ 17) }

/-- The state in which a move of a rank, if it has one, is made. -/
def State.atRank (s : State) (r : Option Nat) : State := match r with | some n => s.ranked n | none => s

/-- A move of a rank that is made unless the fault of a wait over its limit comes first (R144, R199, R220, R228). -/
def State.unlessDue (s : State) (r : Option Nat) (go : State → Out) : Out :=
  match s.due r with
  | some d =>
    let o := exec d.what { (if d.at_ = s.cycle then s.ranked d.rank else s) with cur := Cur.none }
    if stalls o then go s else o
  | none => go s

/-- A ready group's step: the wide side where it can issue, else the scalar side (R126). -/
def State.goGroup (s : State) (b g : Nat) : Out :=
  (s.atRank (s.rankOf b g)).unlessDue (s.rankOf b g) (fun t => if t.canWide b g then t.runAgent (.group b g) else t.runAgent (.scalar b g))

/-- The noted wait of a side of a group is over, though its word has not issued (R123). -/
def State.markReady (s : State) (b g : Nat) (scalar : Bool) : State :=
  let past := fun (o : Option Wait) => o.map (fun (w : Wait) => { w with ready := true })
  s.updGrp b g (fun x => if scalar then { x with swait := past x.swait } else { x with wait := past x.wait })

/-- A side of a group stalls at its word: the wait is noted, and what the word starts while it waits (a table walk, R245) is under
way. A wait that is noted already stays as it is, or is marked as over. -/
def State.noteSide (s : State) (b g : Nat) (scalar : Bool) : State :=
  let ag : Agent := if scalar then .scalar b g else .group b g
  match s.runAgent ag with
  | .next t => if t.stalled then s else if t.waits ag then (if t.waitOf ag ≠ s.waitOf ag then t else s) else if s.waits ag then s.markReady b g scalar else s
  | _ => s

/-- The stalls of a group's two sides are noted (R123). -/
def State.noteGroup (s : State) (b g : Nat) : State :=
  let s1 := match s.bg b g with
    | some (k, x) => if s.atScalar k x && x.starved.isNone then s else s.noteSide b g false
    | none => s
  match s1.nextOf (.scalar b g) with
  | .word _ _ => s1.noteSide b g true
  | .done _ => s1

/-- Before a pick, every stall of the quadrant's groups is noted (R122, R123). -/
def State.noteWaits (s : State) (c q : Nat) : State :=
  (s.quadGroups c q).foldl (fun t x => t.noteGroup x.1.id x.2.num) s

/-- One step of a quadrant (R122): the group that holds it goes on while it is ready; otherwise the quadrant picks. Either way the stalls of
its groups are as they stand now (R123). -/
def State.quadTurn (s : State) (c q : Nat) : Out :=
  let s0 := s.noteWaits c q
  let s1 := match (s.quad c q).cur with
    | some x =>
      if s.ready x.1 x.2 ∧ (s.quadGroups c q).any (fun y => decide ((y.1.id, y.2.num) = x)) then s0.updQuad c q (fun k => { k with cur := some x })
      else s0.pick s0.ready c q
    | none => s0.pick s0.ready c q
  match (s1.quad c q).cur with
  | some x => s1.goGroup x.1 x.2
  | none => .next s1

/-- A stream of a block can issue, or has not noted its wait. -/
def State.streamGoes (s : State) (b : Nat) (copy : Bool) : Bool :=
  let ag : Agent := if copy then .copy b else .matrix b
  match s.blk b with
  | none => false
  | some k =>
    let x := if copy then k.cs else k.ms
    x.running && (x.wait.isNone || (match s.runAgent ag with
      | .next t => !t.waits ag && !t.stalled
      | _ => true))

/-- One step of a core's streams of a kind: the first that can issue. -/
def State.streamTurn (s : State) (c : Nat) (copy : Bool) : Out :=
  match firstOf (fun b => s.streamGoes b.id copy) (s.onCore c) with
  | some b =>
    let r := s.rankOf b.id (if copy then 17 else 16)
    (s.atRank r).unlessDue r (fun t => t.runAgent (if copy then .copy b.id else .matrix b.id))
  | none => .next s

/-- One step of a core's memory side: the oldest outstanding access that does not wait for presence completes; with none, the oldest walk
of the die. -/
def State.memTurn (s : State) (c : Nat) : Out :=
  match (s.core c).outs.filter (fun o => decide (o.held = 0)), (s.die (dieOf c)).walkq with
  | o :: _, _ => (s.atRank (s.rankOf o.blk o.grp)).unlessDue (s.rankOf o.blk o.grp) (exec (.memoryAccessCompletion c o.id))
  | [], w :: _ => exec (.tlbWalk (dieOf c) w.part w.page) s
  | [], [] => .next s

/-- The places in a round: quadrants 0 to 3 of a core, its matrix streams, its copy streams, its memory side; after the last core
the management cores. -/
def nextFocus (f : Nat × Nat) : Nat × Nat :=
  if f.1 < 256 then (if f.2 < 6 then (f.1, f.2 + 1) else (f.1 + 1, 0)) else if f.2 < 3 then (f.1, f.2 + 1) else (0, 0)

/-- A move with an empty agenda: the part of the machine whose turn it is. A round over all parts is a cycle (log entry 2). -/
def State.roundTurn (s : State) : Out :=
  let f := s.focus
  let s1 := { s with focus := nextFocus f, cycle := if nextFocus f = (0, 0) then s.cycle + 1 else s.cycle }
  s1.orStall (if 256 ≤ f.1 then (if f.2 = 0 then s1.endTasks else s1).runAgent (.mgmt f.2)
  else match f.2 with
  | 4 => s1.streamTurn f.1 false
  | 5 => s1.streamTurn f.1 true
  | 6 => s1.memTurn f.1
  | q => s1.quadTurn f.1 q)

/-- The rank of a move of the agenda; a quadrant's is that of the group that it picks. -/
def State.moveRank (s : State) (m : Move) : Option Nat :=
  match m with
  | .event i => s.eventRank i
  | .agent a => s.agentRank a
  | _ => none

/-- The rank against which the faults of waits are held before a move of the agenda: a quadrant's group is known once it is picked. -/
def State.dueRank (s : State) (m : Move) : Option Nat :=
  match m with
  | .core _ _ => some 0
  | m => s.moveRank m

/-- A move of the agenda. -/
def State.move (s : State) (m : Move) : Out :=
  match m with
  | .event i => exec i { s with cur := Cur.none }
  | .agent a => s.runAgent a
  | .core c q => s.quadTurn c q
  | .early b g sec => .next (s.fetchEarly b g sec)
  | .sector q => .next (s.landSector q)
  | .host h => .next (s.hostAct h)

/-- One move of the machine: the head of the agenda, or the next part in the round; before it, in place of either, the fault of a wait
that is over its limit. -/
def State.turn (s : State) : Out :=
  match s.agenda with
  | [] => s.unlessDue (some 0) State.roundTurn
  | t :: rest =>
    let s0 : State := { s with agenda := ⟨0, t.what⟩ :: rest, cycle := s.cycle + t.dt }
    let s1 := if t.what.alone then s0.ownCycle else s0.atRank (s.moveRank t.what)
    s1.unlessDue (s.dueRank t.what) (fun u =>
      let v : State := { u with agenda := rest }
      (v.park t.what).orStall (v.move t.what))

/-- A task record for a block of one group with one lane (log entry 6). -/
def fetchRec : TaskRec :=
  { addr := 0, code := 0x02000000, mentry := 0, centry := 0, save := 0, spill := 0, grid := 1, sstride := 0, spb := 0, groups := 1,
    lanes := 1, gwin := 32, bwin := 1, frame := 0, rb := 1, mg := 1, rex := false, pri := 0, part := 0, slots := 0, vv := 0, vw := 0,
    vt := 0, va := 0, opnd := [] }

/-- The group of that block, with its lane at a header, or in the clause at the word behind it. -/
def fetchGroup (entered scalar : Bool) : Group :=
  let x : Lane := { (Lane.none.enter 0x02000000) with st := .live }
  let y : Lane := if entered then { x with pc := 0x02000004, entered := true } else x
  { Group.new 0 0 0 with lanes := tset Lane.none [] 0 y, nlanes := 1, sc := if scalar then some ⟨0x02000000, 0, 1, false, true⟩ else none }

/-- That block: block 0 on core 0 in partition 0, its matrix stream running where a class X word stands there. -/
def fetchBlock (g : Group) (matrix entered : Bool) : Block :=
  { id := 0, core := 0, task := 0, index := 0, resNo := 0, seq := 0, order := 0, trec := fetchRec, groups := [g], bwin := [], scr := [],
    scrBad := [], absent := [], bars := [], barNow := [],
    ms := if matrix then { Stream.idle with running := true, pc := if entered then 0x02000004 else 0x02000000, hdr := 0x02000000, entered := entered }
          else .idle,
    cs := .idle, forked := false, ix := [], area := 0, afmt := 0x80, ogrp := 0, mz := [], rbs := [], mgs := [], tvec := 0, tframe := 0,
    mbox := 0, tcause := 0, tinfo := 0, dumpbase := 0, bk0 := 0, bk1 := 0, bk2 := 0, bk3 := 0, prstimeout := 0x3D09, joinwin := 0xFA0,
    stampbase := 0, stampseq := 0, stampdrop := 0, mtest := 0, mode := .run, pend := [], stopReq := false, repost := [], cl := none,
    heads := [0x02000000], rr := none, stash := none, frameAt := 0, saving := .no }

/-- A clause's header word for one word of a class. -/
def fetchHeader (cls : Nat) : Nat := match encodeWord (.clauseHeader 1 cls 0 0 0 0 0 0 0) with | some h => h | none => 0

/-- Put code of partition 0 at its page, give the page with its unit and the slice to the partition, and put block 0 on core 0. -/
def State.putProgram (s : State) (bs : List Byte) (b : Block) (ag : Agent) : State :=
  let p := s.part 0
  let m : MapEnt := ⟨0x02000000, hbmBase, 0, true, true, true⟩
  let s1 := s.setPart 0 { p with on := true, cfg := { p.cfg with slices := insNat 0 p.cfg.slices, units := insNat 0 p.cfg.units, maps := m :: p.cfg.maps } }
  let s2 := s1.homeWrite hbmBase bs
  { s2 with blocks := b :: s2.blocks.filter (fun x => decide (x.id ≠ 0)), blkNext := max 1 s2.blkNext, agenda := ⟨0, .agent ag⟩ :: s2.agenda }

/-- Put a word in a management core's SRAM where core 0 fetches its next word, firmware running. -/
def State.putMgmt (s : State) (bs : List Byte) : State :=
  let k := s.mc 0
  let s1 := s.setMc 0 { k with sram := tsets 0 k.sram 0 bs, pc := 4, hdr := 0, entered := true, guardOff := false, heads := [0],
                               waiting := false, stopped := false }
  { s1 with xd := { s1.xd with boot := 0xF0 }, agenda := ⟨0, .agent (.mgmt 0)⟩ :: s1.agenda }

/-- Put an instruction, whose word is `w`, where the next step runs it: a header or a word at its agent, an event of the part at
the head of the agenda. -/
def State.putNext (s : State) (i : Instr) (w : Nat) : State :=
  match i, Sys2Proof.classOf i with
  | .clauseHeader _ cls _ _ _ _ _ _ _, _ =>
    if cls = 3 then s.putProgram (toLe 4 w) (fetchBlock (fetchGroup false false) true false) (.matrix 0)
    else s.putProgram (toLe 4 w) (fetchBlock (fetchGroup false false) false false) (if cls = 0 then .scalar 0 0 else .group 0 0)
  | .ldio _ _ _, _ => s.putMgmt (toLe 4 (fetchHeader 7) ++ toLe 4 w)
  | .stio _ _ _, _ => s.putMgmt (toLe 4 (fetchHeader 7) ++ toLe 4 w)
  | .wfi, _ => s.putMgmt (toLe 4 (fetchHeader 7) ++ toLe 4 w)
  | _, some 0 => s.putProgram (toLe 4 (fetchHeader 0) ++ toLe 4 w) (fetchBlock (fetchGroup false true) false false) (.scalar 0 0)
  | _, some 3 => s.putProgram (toLe 4 (fetchHeader 3) ++ toLe 4 w) (fetchBlock (fetchGroup false false) true true) (.matrix 0)
  | _, some c => s.putProgram (toLe 4 (fetchHeader c) ++ toLe 4 w) (fetchBlock (fetchGroup true false) false false) (.group 0 0)
  | _, none => { s with agenda := ⟨0, .event i⟩ :: s.agenda }

end Sys2Proof.Machine
end

