-- ==== Sys2Proof/Machine/Step.lean ====
section
/-! DEFINITION. One step of the machine, and a word placed where the next step runs it. -/
namespace Sys2Proof.Machine

/-- One step: the head of the agenda, or the next part of the machine in the round (log entry 2). -/
def step (s : State) : Host.Outcome State Fault Refusal := s.turn

/-- The instruction whose bits are `w`, as spec/opcode_table.json numbers them, placed so that the next step runs it; with 64 bits
the first word is the clause header and the second the word (log entries 5 and 6). Bits that decode to nothing are placed as a
class W word. -/
def State.withFetchWord (s : State) (nbits w : Nat) : State :=
  match Sys2Proof.decodeTableWord nbits w with
  | some i => s.putNext i (if nbits ≤ 32 then w else w / 2 ^ 32)
  | none => s.putProgram (toLe 4 (fetchHeader 1) ++ toLe 4 w) (fetchBlock (fetchGroup true false) false false) (.group 0 0)

end Sys2Proof.Machine
end

