-- ==== Sys2Proof/Safety.lean ====
section
/-! DEFINITION. What the claims speak of: a word that an agent issues, what stays as it was around it, the registers, latches and
predicates that it writes, and the invariant of the machine. -/
namespace Sys2Proof.Machine

/-- Group `g` of block `b` issues a word: `k` and `x` are the block and the group as they stand, the lanes of the PC-set are
distinct live lanes, and some of them are active (R17, R61). -/
structure State.Issues (s : State) (b g : Nat) (k : Block) (x : Group) : Prop where
  agent : s.cur.ag = .group b g
  found : s.bg b g = some (k, x)
  some_ : s.cur.act ≠ []
  sub : ∀ l ∈ s.cur.act, l ∈ s.cur.set
  once : s.cur.set.Nodup
  actOnce : s.cur.act.Nodup
  live : ∀ l ∈ s.cur.set, l < 32 ∧ (x.lane l).st = .live

/-- The word of the state is the last of its clause. -/
def State.lastWord (s : State) : Prop := s.cur.pc = s.cur.hdr + 4 * s.cur.n

/-- The named slots lie inside their windows (R116). -/
def SlotsIn (k : Block) (x : Group) (slots : List (View × Nat)) : Prop := ∀ p ∈ slots, p.2 < 125 → k.slotOk x p.1 p.2 = true

/-- The lanes that a class W word writes: the active lanes, and the free lanes of a quad with one (R64, R82). -/
def Group.written (x : Group) (act : List Nat) : List Nat := act ++ x.helpers act

/-- The window that a view's slots lie in (R117). -/
def winOf (vw : View) (k : Block) (x : Group) : Sparse RWord :=
  match vw with
  | .a => k.bwin
  | _ => x.win

/-- Outside one block and the issue state of one core a step changes nothing. -/
structure State.OnlyBlock (s t : State) (b c : Nat) : Prop where
  rest : ∃ bs cs, t = { s with blocks := bs, cores := cs }
  blocks : ∀ n, n ≠ b → t.blk n = s.blk n
  cores : ∀ n, n ≠ c → t.core n = s.core n
  core : ∃ qs, t.core c = { s.core c with quads := qs }

/-- Inside a block a word of group `g` changes that group and the block window alone. -/
structure Block.OnlyGroup (k k' : Block) (g : Nat) : Prop where
  rest : ∃ gs w, k' = { k with groups := gs, bwin := w }
  groups : ∀ n, n ≠ g → k'.grp n = k.grp n

/-- A group has moved past its word: the lanes of the PC-set stand four bytes on, the others where they stood; no lane's
status, depth or frames change. -/
structure State.PassedWord (s : State) (x x' : Group) : Prop where
  lanes : ∀ l, ∃ pc hdr entered off starve pred, x'.lane l = { x.lane l with
    pc := pc, hdr := hdr, entered := entered, guardOff := off, starve := starve, pred := pred }
  pcs : ∀ l, (x'.lane l).pc = if l ∈ s.cur.set then (x.lane l).pc + 4 else (x.lane l).pc

/-- A wide-side word of group `g` of block `b` has retired and changed at most the group's windows, latches and predicates and the
block window: `k'` and `x'` are the block and the group after it. -/
structure State.WordDone (s t : State) (b g : Nat) (k k' : Block) (x x' : Group) : Prop where
  outside : s.OnlyBlock t b k.core
  found : t.bg b g = some (k', x')
  inside : k.OnlyGroup k' g
  group : ∃ ls w b1 b2 b3 f, x' = { x with lanes := ls, win := w, by1 := b1, by2 := b2, by3 := b3, wait := none,
                                           bkSkip := false, forced := f }
  passed : s.PassedWord x x'

/-- Every predicate of every lane is as it was. -/
def Group.SamePreds (x x' : Group) : Prop := ∀ l, (x'.lane l).pred = (x.lane l).pred

/-- Both windows are as they were. -/
def SameWindows (k k' : Block) (x x' : Group) : Prop := x'.win = x.win ∧ k'.bwin = k.bwin

/-- Lane `l` of slot `d` of a view holds the words `f l` for the lanes `ls`; every other word of both windows is as it was
(R82, R117). -/
structure WroteSlot (k k' : Block) (x x' : Group) (vw : View) (d : Nat) (ls : List Nat) (f : Nat → List RWord) : Prop where
  new : ∀ l ∈ ls, tgets RWord.zero (winOf vw k' x') (k.slotWord x vw d l) vw.parts = f l
  old : ∀ w, (∀ l ∈ ls, w < k.slotWord x vw d l ∨ k.slotWord x vw d l + vw.parts ≤ w) →
    tget RWord.zero (winOf vw k' x') w = tget RWord.zero (winOf vw k x) w
  other : if vw = .a then x'.win = x.win else k'.bwin = k.bwin

/-- The latches after a word that pushes no result: cleared at the end of a clause with Y = 1, else kept (R19, R27). -/
def State.KeptLatches (s : State) (x x' : Group) : Prop :=
  (s.lastWord ∧ s.cur.y = true → x'.by1 = [] ∧ x'.by2 = [] ∧ x'.by3 = []) ∧
  (¬(s.lastWord ∧ s.cur.y = true) → x'.by1 = x.by1 ∧ x'.by2 = x.by2 ∧ x'.by3 = x.by3)

/-- The latches after a word that pushes the low words of `f l` for the lanes `ls` (R13, R19, R27). -/
def State.PushedLatches (s : State) (x x' : Group) (ls : List Nat) (f : Nat → List RWord) : Prop :=
  (s.lastWord ∧ s.cur.y = true → x'.by1 = [] ∧ x'.by2 = [] ∧ x'.by3 = []) ∧
  (¬(s.lastWord ∧ s.cur.y = true) →
    (∀ l, tget RWord.zero x'.by1 l = if l ∈ ls then (f l).headD RWord.zero else RWord.zero) ∧ x'.by2 = x.by1 ∧ x'.by3 = x.by2)

/-- A class W word has delivered the results `f l` in the lanes `ls`: to slot `d`, or to the bypass alone with T = 1; it has
pushed them either way (R13, R28). -/
def State.Delivered (s : State) (k k' : Block) (x x' : Group) (vw : View) (t d : Nat) (ls : List Nat) (f : Nat → List RWord) : Prop :=
  (if t = 1 then SameWindows k k' x x' else WroteSlot k k' x x' vw d ls f) ∧ s.PushedLatches x x' ls f ∧ x.SamePreds x'

/-- The words of a number of `n` 32-bit parts, each with a fresh residue (R55, R84). -/
def freshWords (n v : Nat) : List RWord := (upFrom 0 n).map (fun i => fresh (BitVec.ofNat 32 (v / 2 ^ (32 * i))))

/-- A result whose words carry the number `v`, with fresh residues where the operands are good (R84). -/
def CarriesVal (vw : View) (ws : List RWord) (v : Nat) (good : Prop) : Prop :=
  ws.map (fun w => w.val) = (freshWords vw.parts v).map (fun w => w.val) ∧ (good → ws = freshWords vw.parts v)

/-- A word that has written predicate `p` of the lanes `ls`, and nothing else (R26, R27, R57, R112). -/
structure State.WrotePred (s : State) (k k' : Block) (x x' : Group) (p : Nat) (ls : List Nat) (f : Nat → Bool) : Prop where
  preds : ∀ l n, n < 16 → (x'.lane l).p n = if l ∈ ls ∧ n = p ∧ n ≠ 0 then f l else (x.lane l).p n
  windows : SameWindows k k' x x'
  latches : s.KeptLatches x x'

/-- A class S word issues: on the scalar side of a group whose run of a clause stands, or on a management core, with its guard
passed (R17, R126, R297). -/
def State.ScalarIssues (s : State) : Prop :=
  s.cur.act ≠ [] ∧ match s.cur.ag with
    | .scalar b g => ∃ k x r, s.bg b g = some (k, x) ∧ x.sc = some r
    | .mgmt _ => True
    | _ => False

/-- The scalar side of group `g` of block `b` has passed its word and changed at most the scalar registers and predicates and the lanes'
counts toward R63: the run stands at the next word, or the clause is done (R126). -/
structure State.ScalarSideDone (s t : State) (b g : Nat) (k k' : Block) (x x' : Group) : Prop where
  rest : ∃ bs, t = { s with blocks := bs }
  blocks : ∀ n, n ≠ b → t.blk n = s.blk n
  found : t.bg b g = some (k', x')
  block : ∃ gs, k' = { k with groups := gs }
  groups : ∀ n, n ≠ g → k'.grp n = k.grp n
  group : ∃ ls rs p sc sa, x' = { x with lanes := ls, sregs := rs, sp := p, sc := sc, sAhead := sa, swait := none, bkSkip := false }
  lanes : ∀ l, ∃ n, x'.lane l = { x.lane l with starve := n }
  next : ∀ r, x.sc = some r → if r.idx + 1 < r.n then x'.sc = some { r with idx := r.idx + 1 } ∧ x'.sAhead = x.sAhead
    else x'.sc = none ∧ x'.sAhead = insNat r.hdr x.sAhead

/-- Management core `m` has passed its word and changed at most its scalar registers and predicates (R297). -/
structure State.MgmtDone (s t : State) (m : Nat) : Prop where
  rest : ∃ ms, t = { s with mcs := ms }
  others : ∀ n, n ≠ m → t.mc n = s.mc n
  core : ∃ rs p h e o, t.mc m = { s.mc m with
    sregs := rs, sp := p, pc := BitVec.ofNat 48 (s.cur.pc + 4), hdr := h, entered := e, guardOff := o }

/-- A class S word has retired and changed at most the scalar registers and predicates of its agent. -/
def State.ScalarDone (s t : State) : Prop :=
  match s.cur.ag with
  | .scalar b g => ∃ k x k' x', s.bg b g = some (k, x) ∧ s.ScalarSideDone t b g k k' x x'
  | .mgmt m => s.MgmtDone t m
  | _ => False

/-- Scalar register `d` holds the words `ws` and every other one is as it was (R125). -/
def WroteScalar (r r' : SRegs) (d : Nat) (ws : List RWord) : Prop :=
  ∀ n, shalves r' n = if n = d then ws else shalves r n

/-- The invariant of the machine: device memory and host memory in their canonical form. -/
def State.Inv (s : State) : Prop := Memory.wf s.mem = true ∧ Memory.wf s.hostMem = true

end Sys2Proof.Machine
end

