-- ==== Sys2Proof/Certificates/Slice0/Obligations.lean ====
section
/-! DEFINITION. The statements for the provers: what the words and the steps of the part do, rule by rule, with the tables that the
statements over many instructions read. -/

namespace Sys2Proof.Claims
open Sys2Proof.Machine

/-- The source operand of a number, in a list of their values. -/
def arg (xs : List Nat) (n : Nat) : Nat := nth 0 xs n

/-- A class W word that computes each lane from the same lane of its sources: the view, T, the destination, the source slots, and
the number that the destination lane takes, from the numbers in the source lanes in order. -/
structure LaneWord where
  vw : View
  t : Nat
  d : Nat
  srcs : List Nat
  val : List Nat → Nat

/-- The slots that the word names (R116). -/
def LaneWord.slots (r : LaneWord) : List (View × Nat) :=
  (if r.t = 1 then [] else [(r.vw, r.d)]) ++ r.srcs.map (fun n => (r.vw, n))

/-- The numbers in a lane of its sources. -/
def LaneWord.args (r : LaneWord) (k : Block) (x : Group) (l : Nat) : List Nat := r.srcs.map (fun n => valOf (k.src x r.vw n l))

/-- The length that R89 gives a bit field at `pos` of `len` bits in a w-bit lane. -/
def fieldLen (w pos len : Nat) : Nat := if len = 0 ∨ w ≤ pos then 0 else min len (w - pos)

/-- The integer words of R88, R89 and R91, and the whole-lane forms of R100 and R102, in the view that R29 gives. -/
def intWord : Instr → Option LaneWord
  | .vadd d a b t v => let w := (viewOf v).bits
    some ⟨viewOf v, t, d, [a, b], fun xs => (arg xs 0 + arg xs 1) % 2 ^ w⟩
  | .vsub d a b t v => let w := (viewOf v).bits
    some ⟨viewOf v, t, d, [a, b], fun xs => wrap w ((arg xs 0 : Int) - arg xs 1)⟩
  | .vmul d a b t v => let w := (viewOf v).bits
    some ⟨viewOf v, t, d, [a, b], fun xs => arg xs 0 * arg xs 1 % 2 ^ w⟩
  | .vmulh d a b t v => let w := (viewU v).bits
    some ⟨viewU v, t, d, [a, b], fun xs => wrap w (readU v (arg xs 0) * readU v (arg xs 1) / (2 ^ w : Nat))⟩
  | .vmac d a b t v => let w := (viewOf v).bits
    some ⟨viewOf v, t, d, [a, b, if t = 1 then 0 else d], fun xs => (arg xs 0 * arg xs 1 + arg xs 2) % 2 ^ w⟩
  | .vaddc d a b t v => let w := (viewOf v).bits
    some ⟨viewOf v, t, d, [a, b], fun xs => if 2 ^ w ≤ arg xs 0 + arg xs 1 then 1 else 0⟩
  | .vabs d a t v => let w := (viewOf v).bits
    some ⟨viewOf v, t, d, [a], fun xs => if sgn w (arg xs 0) < 0 then wrap w (-(arg xs 0 : Int)) else arg xs 0⟩
  | .vneg d a t v => let w := (viewOf v).bits
    some ⟨viewOf v, t, d, [a], fun xs => wrap w (-(arg xs 0 : Int))⟩
  | .vmin d a b t v =>
    some ⟨viewU v, t, d, [a, b], fun xs => if readU v (arg xs 0) < readU v (arg xs 1) then arg xs 0 else arg xs 1⟩
  | .vmax d a b t v =>
    some ⟨viewU v, t, d, [a, b], fun xs => if readU v (arg xs 1) < readU v (arg xs 0) then arg xs 0 else arg xs 1⟩
  | .vshl d a b t v => let w := (viewOf v).bits
    some ⟨viewOf v, t, d, [a, b], fun xs => if w ≤ arg xs 1 then 0 else arg xs 0 * 2 ^ arg xs 1 % 2 ^ w⟩
  | .vshr d a b t v => let w := (viewOf v).bits
    some ⟨viewOf v, t, d, [a, b], fun xs => if w ≤ arg xs 1 then 0 else arg xs 0 / 2 ^ arg xs 1⟩
  | .vsra d a b t v => let w := (viewOf v).bits
    some ⟨viewOf v, t, d, [a, b], fun xs =>
      if w ≤ arg xs 1 then (if sgn w (arg xs 0) < 0 then 2 ^ w - 1 else 0)
      else wrap w (sgn w (arg xs 0) / (2 ^ arg xs 1 : Nat))⟩
  | .vpopc d a t v => let w := (viewOf v).bits
    some ⟨viewOf v, t, d, [a], fun xs => ((upFrom 0 w).filter (fun i => bitOf (arg xs 0) i)).length⟩
  | .vclz d a t v => let w := (viewOf v).bits
    some ⟨viewOf v, t, d, [a], fun xs => ((upFrom 0 w).filter (fun i => decide (arg xs 0 < 2 ^ i))).length⟩
  | .vbrev d a t v => let w := (viewOf v).bits
    some ⟨viewOf v, t, d, [a], fun xs => maskOf ((upFrom 0 w).filter (fun i => bitOf (arg xs 0) (w - 1 - i)))⟩
  | .vbfx d a b t v => let w := (viewOf v).bits
    some ⟨viewOf v, t, d, [a, b], fun xs =>
      let pos := arg xs 1 % 256
      let len := fieldLen w pos (arg xs 1 / 256 % 256)
      arg xs 0 / 2 ^ pos % 2 ^ len⟩
  | .vbfi d a b t v => let w := (viewOf v).bits
    some ⟨viewOf v, t, d, [a, b, if t = 1 then 0 else d], fun xs =>
      let pos := arg xs 1 % 256
      let len := fieldLen w pos (arg xs 1 / 256 % 256)
      maskOf ((upFrom 0 w).filter (fun i =>
        if pos ≤ i ∧ i < pos + len then bitOf (arg xs 0) (i - pos) else bitOf (arg xs 2) i))⟩
  | .vlea d a b t v =>
    some ⟨viewOf v, t, d, [a, b], fun xs =>
      if v = 1 then wrap 56 ((arg xs 0 : Int) + sgn 32 (arg xs 1 % 2 ^ 32)) else (arg xs 0 + arg xs 1) % 2 ^ 20⟩
  | .vmovi d i => some ⟨.v, 0, d, [], fun _ => wrap 32 (sgn 17 i)⟩
  | .vlui d i => some ⟨.v, 0, d, [d], fun xs => i * 2 ^ 15 + arg xs 0 % 2 ^ 15⟩
  | .vcvt d a c r m t v => if v = 1 then some ⟨.w, t, d, [a], fun xs => cvtLane c r (modeOf m) (arg xs 0)⟩ else none
  | .vrng d a b t v => if v = 1 then some ⟨.w, t, d, [a, b], fun xs => rng64 (arg xs 0) (arg xs 1)⟩ else none
  | _ => none

end Sys2Proof.Claims

open Sys2Proof Sys2Proof.Machine Sys2Proof.Claims in
/-- R88, R89, R91, with R13, R27, R28, R82, R83, R84 and R116: the lane-local integer words (and the whole-lane forms of `vcvt`
and `vrng`) complete wherever their slots lie inside their windows. Every active and helper lane takes the number that the rule
gives, to its destination lane and the bypass, with fresh residues where its source words match theirs; nothing else of the machine
changes. -/
def Obligations.IntegerLanesTakeTheirResults : Prop :=
  ∀ (i : Instr) (r : LaneWord) (s : State) (b g : Nat) (k : Block) (x : Group), i.wf = true → intWord i = some r →
    s.Issues b g k x → SlotsIn k x r.slots →
    ∃ t k' x' res, exec i s = .next t ∧ s.WordDone t b g k k' x x' ∧
      s.Delivered k k' x x' r.vw r.t r.d (x.written s.cur.act) res ∧ ∀ l ∈ x.written s.cur.act,
        CarriesVal r.vw (res l) (r.val (r.args k x l)) (∀ n ∈ r.srcs, goodOf (k.src x r.vw n l) = true)

namespace Sys2Proof.Claims
open Sys2Proof.Machine

/-- A class W word that computes each 32-bit part of a lane from the same part of its sources (R87): the view, T, the destination,
the source slots, and the part that the destination takes, from the parts of the sources in order. -/
structure PartWord where
  vw : View
  t : Nat
  d : Nat
  srcs : List Nat
  part : List RWord → RWord

/-- The slots that the word names (R116). -/
def PartWord.slots (r : PartWord) : List (View × Nat) :=
  (if r.t = 1 then [] else [(r.vw, r.d)]) ++ r.srcs.map (fun n => (r.vw, n))

/-- The parts that a lane of the destination takes. -/
def PartWord.result (r : PartWord) (k : Block) (x : Group) (l : Nat) : List RWord :=
  (upFrom 0 r.vw.parts).map (fun i => r.part (r.srcs.map (fun n => nth RWord.zero (k.src x r.vw n l) i)))

/-- A computed part (R84): a fresh residue where every source word matches its own, else one that does not match. -/
def computedBy (f : List Nat → Nat) (ws : List RWord) : RWord := computed (ws.all rok) (f (ws.map (fun w => w.val.toNat)))

/-- A bit-wise word, bit by bit (R90). -/
def bitsOf (f : List Bool → Bool) (xs : List Nat) : Nat :=
  maskOf ((upFrom 0 32).filter (fun i => f (xs.map (fun x => bitOf x i))))

/-- The part-wise words: R90's, R93's to R98's, and the part forms of R100 and R102. -/
def partWord : Instr → Option PartWord
  | .vand d a b t v => some ⟨viewOf v, t, d, [a, b], computedBy (bitsOf (fun bs => bs.all id))⟩
  | .vor d a b t v => some ⟨viewOf v, t, d, [a, b], computedBy (bitsOf (fun bs => bs.any id))⟩
  | .vxor d a b t v => some ⟨viewOf v, t, d, [a, b], computedBy (bitsOf (fun bs => nth false bs 0 != nth false bs 1))⟩
  | .vnot d a t v => some ⟨viewOf v, t, d, [a], computedBy (bitsOf (fun bs => !nth false bs 0))⟩
  | .vsel d a b t v => some ⟨viewOf v, t, d, [a, b, if t = 1 then 0 else d],
      computedBy (bitsOf (fun bs => if nth false bs 2 then nth false bs 0 else nth false bs 1))⟩
  | .vmov d a t v => some ⟨viewOf v, t, d, [a], fun ws => nth RWord.zero ws 0⟩
  | .vfadd d a b t m => some ⟨.v, t, d, [a, b],
      computedBy (fun xs => rnd f32F (modeOf m) (fadd (modeOf m) (f32v (arg xs 0)) (f32v (arg xs 1))))⟩
  | .vfsub d a b t m => some ⟨.v, t, d, [a, b],
      computedBy (fun xs => rnd f32F (modeOf m) (fadd (modeOf m) (f32v (arg xs 0)) (fneg (f32v (arg xs 1)))))⟩
  | .vfmul d a b t m => some ⟨.v, t, d, [a, b], computedBy (fun xs => rnd f32F (modeOf m) (fmul (f32v (arg xs 0)) (f32v (arg xs 1))))⟩
  | .vfma d a b t m => some ⟨.v, t, d, [a, b, if t = 1 then 0 else d],
      computedBy (fun xs => rnd f32F (modeOf m) (fadd (modeOf m) (fmul (f32v (arg xs 0)) (f32v (arg xs 1))) (f32v (arg xs 2))))⟩
  | .vfmin d a b t => some ⟨.v, t, d, [a, b], computedBy (fun xs => fminCode (arg xs 0) (arg xs 1))⟩
  | .vfmax d a b t => some ⟨.v, t, d, [a, b], computedBy (fun xs => fmaxCode (arg xs 0) (arg xs 1))⟩
  | .vfclass d a t => some ⟨.v, t, d, [a], computedBy (fun xs => f32Class (arg xs 0))⟩
  | .vfrcp d a t => some ⟨.v, t, d, [a], computedBy (fun xs => f32Rcp (arg xs 0))⟩
  | .vfrsq d a t => some ⟨.v, t, d, [a], computedBy (fun xs => f32Rsq (arg xs 0))⟩
  | .vfsqrt d a t => some ⟨.v, t, d, [a], computedBy (fun xs => f32Sqrt (arg xs 0))⟩
  | .vfexp2 d a t => some ⟨.v, t, d, [a], computedBy (fun xs => f32Exp2 (arg xs 0))⟩
  | .vflog2 d a t => some ⟨.v, t, d, [a], computedBy (fun xs => f32Log2 (arg xs 0))⟩
  | .vftanh d a t => some ⟨.v, t, d, [a], computedBy (fun xs => f32Tanh (arg xs 0))⟩
  | .vfadd2 d a b t v => some ⟨.v, t, d, [a, b], computedBy (fun xs => pairs (fun ys =>
      rnd (pairFmt v) .rne (fadd .rne (readF (pairFmt v) (arg ys 0)) (readF (pairFmt v) (arg ys 1)))) xs)⟩
  | .vfmul2 d a b t v => some ⟨.v, t, d, [a, b], computedBy (fun xs => pairs (fun ys =>
      rnd (pairFmt v) .rne (fmul (readF (pairFmt v) (arg ys 0)) (readF (pairFmt v) (arg ys 1)))) xs)⟩
  | .vfma2 d a b t v => some ⟨.v, t, d, [a, b, if t = 1 then 0 else d], computedBy (fun xs => pairs (fun ys =>
      rnd (pairFmt v) .rne (fadd .rne (fmul (readF (pairFmt v) (arg ys 0)) (readF (pairFmt v) (arg ys 1)))
        (readF (pairFmt v) (arg ys 2)))) xs)⟩
  | .vcvt d a c r m t v => if v = 1 then none else some ⟨viewOf v, t, d, [a], computedBy (fun xs => cvtPart c r (modeOf m) (arg xs 0))⟩
  | .vrng d a b t v => if v = 1 then none else some ⟨viewOf v, t, d, [a, b], computedBy (fun xs => rng32 (arg xs 0) (arg xs 1))⟩
  | _ => none
where
  /-- The two 16-bit halves of a word under a function of the halves of the sources (R98). -/
  pairs (f : List Nat → Nat) (xs : List Nat) : Nat :=
    f (xs.map (fun x => x % 65536)) + 65536 * f (xs.map (fun x => x / 65536))

end Sys2Proof.Claims

open Sys2Proof Sys2Proof.Machine Sys2Proof.Claims in
/-- R90, R93 to R98, R100, R102, with R13, R27, R28, R82, R83, R84, R87 and R116: the part-wise words complete wherever their slots
lie inside their windows. Every part of every active and helper lane takes the value that the rule gives, a fresh residue where its
own source words match and a mismatch where they do not (a move takes the words as they are, residues too); nothing else of the
machine changes. -/
def Obligations.PartWordsTakeTheirResults : Prop :=
  ∀ (i : Instr) (r : PartWord) (s : State) (b g : Nat) (k : Block) (x : Group), i.wf = true → partWord i = some r →
    s.Issues b g k x → SlotsIn k x r.slots →
    ∃ t k' x', exec i s = .next t ∧ s.WordDone t b g k k' x x' ∧
      s.Delivered k k' x x' r.vw r.t r.d (x.written s.cur.act) (r.result k x)

namespace Sys2Proof.Claims
open Sys2Proof.Machine

/-- A part-wise word under a control field of each part (R85): `srcs` in the order of their parts, the field's place among them, the
fields that the entry assigns, and the value. -/
structure ControlWord where
  vw : View
  t : Nat
  d : Nat
  srcs : List Nat
  field : Nat
  legal : Nat → Bool
  val : List Nat → Nat

def ControlWord.slots (r : ControlWord) : List (View × Nat) :=
  (if r.t = 1 then [] else [(r.vw, r.d)]) ++ r.srcs.map (fun n => (r.vw, n))

/-- The words of part `i` of the sources in lane `l`. -/
def ControlWord.words (r : ControlWord) (k : Block) (x : Group) (l i : Nat) : List RWord :=
  r.srcs.map (fun n => nth RWord.zero (k.src x r.vw n l) i)

/-- The control field of a part is one that the entry assigns. -/
def ControlWord.ok (r : ControlWord) (k : Block) (x : Group) (l i : Nat) : Bool :=
  r.legal (nth RWord.zero (r.words k x l i) r.field).val.toNat

/-- The parts that a lane takes: 0 with a mismatch in the parts whose field is not assigned (R85). -/
def ControlWord.result (r : ControlWord) (k : Block) (x : Group) (l : Nat) : List RWord :=
  (upFrom 0 r.vw.parts).map (fun i => if r.ok k x l i then computedBy r.val (r.words k x l i) else marked 0)

/-- The active lanes with a part whose field is not assigned. -/
def ControlWord.bad (r : ControlWord) (k : Block) (x : Group) (act : List Nat) : List Nat :=
  act.filter (fun l => (upFrom 0 r.vw.parts).any (fun i => !r.ok k x l i))

/-- `vsrnd` and `vmxq` (R101, R106). -/
def controlWord : Instr → Option ControlWord
  | .vsrnd d a b t v => some ⟨viewOf v, t, d, [a, b, if t = 1 then 0 else d], 2,
      fun c => decide (c / 1024 = 0 ∧ 9 ≤ c % 16 ∧ c / 16 % 64 ≤ 32),
      fun xs => srnd (fmtOf (arg xs 2 % 16)) (arg xs 0) (arg xs 1) (arg xs 2 / 16)⟩
  | .vmxq d a b t v => some ⟨viewOf v, t, d, [a, b], 1, fun c => decide (c / 16384 = 0 ∧ 11 ≤ c / 256 % 16),
      fun xs => mxq (f32v (arg xs 0)) (arg xs 1 % 256) (arg xs 1 / 256 % 16) (modeOf (arg xs 1 / 4096 % 4))⟩
  | _ => none

/-- A class W word whose lanes read other lanes: what the result words of a lane are to be, from the block, the group and the active
lanes. -/
structure CrossWord where
  vw : View
  t : Nat
  d : Nat
  srcs : List Nat
  gives : Block → Group → List Nat → Nat → List RWord → Prop

def CrossWord.slots (r : CrossWord) : List (View × Nat) :=
  (if r.t = 1 then [] else [(r.vw, r.d)]) ++ r.srcs.map (fun n => (r.vw, n))

/-- The words of a source lane, taken by a lane whose own choosing word is `w` (R84). -/
def takenBy (w : RWord) (ws : List RWord) : List RWord := ws.map (fun y => computed (rok w && rok y) y.val.toNat)

/-- The low word of a source lane. -/
def lowWord (k : Block) (x : Group) (vw : View) (n l : Nat) : RWord := nth RWord.zero (k.src x vw n l) 0

/-- The lanes of the quad of a lane. -/
def quadOf (l : Nat) : List Nat := [4 * (l / 4), 4 * (l / 4) + 1, 4 * (l / 4) + 2, 4 * (l / 4) + 3]

/-- The exchanges without a selector (R107, R108, R110). -/
def crossWord : Instr → Option CrossWord
  | .vqswap d a b t v => some ⟨viewOf v, t, d, [a, b], fun k x _ l ws =>
      let w := lowWord k x (viewOf v) b l
      ws = takenBy w (k.src x (viewOf v) a (l ^^^ (w.val.toNat % 4)))⟩
  | .vqbcast d a b t v => some ⟨viewOf v, t, d, [a, b], fun k x _ l ws =>
      let w := lowWord k x (viewOf v) b l
      ws = takenBy w (k.src x (viewOf v) a (4 * (l / 4) + w.val.toNat % 4))⟩
  | .vqsum d a b t v => some ⟨viewOf v, t, d, [a, b], fun k x _ l ws => let vw := viewOf v
      CarriesVal vw ws ((valOf (k.src x vw b l) + ((quadOf l).map (fun j => valOf (k.src x vw a j))).sum) % 2 ^ vw.bits)
        (goodOf (k.src x vw b l) = true ∧ ∀ j ∈ quadOf l, goodOf (k.src x vw a j) = true)⟩
  | .vshfl d a b t v => some ⟨viewOf v, t, d, [a, b], fun k x _ l ws =>
      let w := lowWord k x (viewOf v) b l
      ws = takenBy w (k.src x (viewOf v) a (w.val.toNat % 32))⟩
  | .vballot d a b t v => some ⟨viewOf v, t, d, [a, b], fun k x act _ ws => let vw := viewOf v
      CarriesVal vw ws (maskOf (act.filter (fun j => decide ((valOf (k.src x vw a j) &&& valOf (k.src x vw b j)) ≠ 0))))
        (∀ j ∈ act, goodOf (k.src x vw a j) = true ∧ goodOf (k.src x vw b j) = true)⟩
  | _ => none

/-- A word under a selector byte (R85): the selectors that its entry assigns, and what a lane takes under one. -/
structure SelectWord where
  vw : View
  t : Nat
  d : Nat
  a : Nat
  b : Nat
  legal : Nat → Bool
  gives : Nat → Block → Group → List Nat → Nat → List RWord → Prop

def SelectWord.slots (r : SelectWord) : List (View × Nat) :=
  (if r.t = 1 then [] else [(r.vw, r.d)]) ++ [(r.vw, r.a), (r.vw, r.b)]

/-- The word that holds the selector byte: the low word of the lowest active lane of b. -/
def SelectWord.word (r : SelectWord) (k : Block) (x : Group) (act : List Nat) : RWord := lowWord k x r.vw r.b (lowest act)

def SelectWord.sel (r : SelectWord) (k : Block) (x : Group) (act : List Nat) : Nat := (r.word k x act).val.toNat % 256

/-- The leaves of R109: the lane's number, or the identity for an inactive lane. -/
def leavesOf (k : Block) (x : Group) (act : List Nat) (vw : View) (a sel : Nat) : List Nat :=
  lanes32.map (fun l => if l ∈ act then valOf (k.src x vw a l) else redId vw.bits sel)

/-- The system values of R111. -/
def sysOf (x : Group) (act : List Nat) (l : Nat) : Nat → Nat
  | 0 => l
  | 1 => maskOf act
  | 2 => maskOf (lanes32.filter (fun j => decide ((x.lane j).st ≠ .free)))
  | 3 => if l ∈ act then (x.lane l).depth else 0
  | _ => x.num

/-- The bits of an element of the packing words (R103). -/
def elemBits (e : Nat) : Nat := if e = 0 then 8 else if e = 1 then 6 else 4

/-- The words under a selector but `vpack` (R103 to R105, R108, R109, R111). -/
def selectWord : Instr → Option SelectWord
  | .vbcast d a b t v => some ⟨viewOf v, t, d, a, b, fun j => decide (j ≤ 31), fun j k x _ _ ws =>
      ws = (k.src x (viewOf v) a j).map (fun y => computed (rok y) y.val.toNat)⟩
  | .vred d a b t v => some ⟨viewOf v, t, d, a, b, fun j => decide (j ≤ 7 ∨ (j ≤ 10 ∧ v = 0)), fun j k x act _ ws => let vw := viewOf v
      CarriesVal vw ws (treeOf (redOp vw.bits j) 0 (leavesOf k x act vw a j)) (∀ l ∈ act, goodOf (k.src x vw a l) = true)⟩
  | .vscan d a b t v => some ⟨viewOf v, t, d, a, b, fun j => decide (j ≤ 7 ∨ (j ≤ 10 ∧ v = 0)), fun j k x act l ws => let vw := viewOf v
      CarriesVal vw ws (prefixOf (redOp vw.bits j) 0 (leavesOf k x act vw a j) l) (∀ m ∈ act, m ≤ l → goodOf (k.src x vw a m) = true)⟩
  | .vsys d a b t v => some ⟨viewOf v, t, d, a, b, fun j => decide (j ≤ 4), fun j k x act l ws => let vw := viewOf v
      CarriesVal vw ws ((valOf (k.src x vw a l) + sysOf x act l j) % 2 ^ vw.bits) (goodOf (k.src x vw a l) = true)⟩
  | .vunpk d a b t e => some ⟨.v, t, d, a, b, fun o => decide (o + elemBits e ≤ 32), fun o k x _ l ws => let n := elemBits e
      CarriesVal .v ws (packLanes 32 ((upFrom o n).map (fun j => (lowWord k x .v a j).val.toNat)) / 2 ^ (l * n) % 2 ^ n)
        (∀ j, o ≤ j → j < o + n → rok (lowWord k x .v a j) = true)⟩
  | .vplane d a b t v => some ⟨viewOf v, t, d, a, b,
      fun c => decide (c / 32 % 4 = 0 ∧ 2 ≤ c % 32 ∧ c % 32 ≤ if c / 128 = 1 then 16 else 8),
      fun c k x _ l ws =>
        let n := c % 32
        let wd := if c / 128 = 1 then 16 else 8
        let word := fun i j => nth RWord.zero (k.src x (viewOf v) a j) i
        let val := fun i => npread ((upFrom 0 n).map (fun j => (word i j).val.toNat)) wd n l
        if v = 1 then CarriesVal .w ws (wrap 64 (val 0)) (∀ j < n, rok (word 0 j) = true)
        else ws = (upFrom 0 (viewOf v).parts).map (fun i => computed ((upFrom 0 n).all (fun j => rok (word i j))) (wrap 32 (val i)))⟩
  | .vmxscale d a b t v => some ⟨viewOf v, t, d, a, b, fun f => decide (11 ≤ f ∧ f ≤ 15), fun f k x _ _ ws =>
      let word := fun i j => nth RWord.zero (k.src x (viewOf v) a j) i
      ws = (upFrom 0 (viewOf v).parts).map (fun i => computed (lanes32.all (fun j => rok (word i j)))
        (mxscale (lanes32.map (fun j => f32v (word i j).val.toNat)) f + 256 * f))⟩
  | _ => none

/-- `vpack` as a word under a selector, for its faults: its lanes stand in their own statement. -/
def packWord : Instr → Option SelectWord
  | .vpack d a b t e => some ⟨.v, t, d, a, b, fun o => decide (o + elemBits e ≤ 32), fun _ _ _ _ _ _ => True⟩
  | _ => none

/-- The words that write a predicate from two sources (R92, R95). -/
structure CompareWord where
  vw : View
  p : Nat
  a : Nat
  b : Nat
  val : Nat → Nat → Bool

/-- The relations of the integer compares by their code (R92). -/
def relOf (c : Nat) (x y : Int) : Bool :=
  decide ((c = 0 ∧ x = y) ∨ (c = 1 ∧ x ≠ y) ∨ (c = 2 ∧ x < y) ∨ (c = 3 ∧ x ≤ y) ∨ (c = 4 ∧ y < x) ∨ (c = 5 ∧ y ≤ x))

def compareWord : Instr → Option CompareWord
  | .vcmp c p a b v => some ⟨viewU v, p, a, b, fun x y => relOf c (readU v x) (readU v y)⟩
  | .vfcmp c p a b => some ⟨.v, p, a, b, condFloat c⟩
  | _ => none

/-- Both source lanes of a compare match their residues. -/
def CompareWord.good (r : CompareWord) (k : Block) (x : Group) (l : Nat) : Bool :=
  goodOf (k.src x r.vw r.a l) && goodOf (k.src x r.vw r.b l)

/-- The predicate words of R112: the destination and the bit that a lane takes from its own predicates. -/
def predOf : Instr → Option (Nat × (Lane → Bool))
  | .pand d a b => some (d, fun l => l.p a && l.p b)
  | .por d a b => some (d, fun l => l.p a || l.p b)
  | .pxor d a b => some (d, fun l => l.p a != l.p b)
  | .pnot d a => some (d, fun l => !l.p a)
  | .pmov d a => some (d, fun l => l.p a)
  | .pset d i => some (d, fun _ => decide (i = 1))
  | _ => none

end Sys2Proof.Claims

open Sys2Proof Sys2Proof.Machine Sys2Proof.Claims in
/-- R101 and R106, with R85: `vsrnd` and `vmxq` complete where every active lane's control fields are assigned; a helper lane takes 0
with a mismatch in the parts whose field is not. Where an active lane's field is not assigned the word raises `illegal-instruction`
for the lanes that have one. -/
def Obligations.ControlledPartsFollowTheirFields : Prop :=
  ∀ (i : Instr) (r : ControlWord) (s : State) (b g : Nat) (k : Block) (x : Group), i.wf = true → controlWord i = some r →
    s.Issues b g k x → SlotsIn k x r.slots →
    (r.bad k x s.cur.act = [] → ∃ t k' x', exec i s = .next t ∧ s.WordDone t b g k k' x x' ∧
      s.Delivered k k' x x' r.vw r.t r.d (x.written s.cur.act) (r.result k x)) ∧
    (r.bad k x s.cur.act ≠ [] → exec i s = .next (s.raiseFor 0x01 (maskOf (r.bad k x s.cur.act)) 0))

open Sys2Proof Sys2Proof.Machine Sys2Proof.Claims in
/-- R107, R108 and R110: the quad exchanges, `vshfl` and `vballot` complete wherever their slots lie inside their windows, read their
source lanes whatever their state, and give every active and helper lane what its entry gives. -/
def Obligations.ExchangesReadTheirLanes : Prop :=
  ∀ (i : Instr) (r : CrossWord) (s : State) (b g : Nat) (k : Block) (x : Group), i.wf = true → crossWord i = some r →
    s.Issues b g k x → SlotsIn k x r.slots →
    ∃ t k' x' res, exec i s = .next t ∧ s.WordDone t b g k k' x x' ∧
      s.Delivered k k' x x' r.vw r.t r.d (x.written s.cur.act) res ∧
      ∀ l ∈ x.written s.cur.act, r.gives k x s.cur.act l (res l)

open Sys2Proof Sys2Proof.Machine Sys2Proof.Claims in
/-- R85, R103 to R105, R108, R109 and R111: the words under a selector byte complete where the word that holds it matches its residue
and its entry assigns it, and give every active and helper lane what the entry gives. -/
def Sys2Proof.Claims.SelectorWordsFollowTheirByte : Prop :=
  ∀ (i : Instr) (r : SelectWord) (s : State) (b g : Nat) (k : Block) (x : Group), i.wf = true → selectWord i = some r →
    s.Issues b g k x → SlotsIn k x r.slots → rok (r.word k x s.cur.act) = true → r.legal (r.sel k x s.cur.act) = true →
    ∃ t k' x' res, exec i s = .next t ∧ s.WordDone t b g k k' x x' ∧
      s.Delivered k k' x x' r.vw r.t r.d (x.written s.cur.act) res ∧
      ∀ l ∈ x.written s.cur.act, r.gives (r.sel k x s.cur.act) k x s.cur.act l (res l)

open Sys2Proof Sys2Proof.Machine Sys2Proof.Claims in
/-- R85: a word whose selector's 32-bit word mismatches raises `residue` for the lowest active lane, and one whose selector is not
assigned raises `illegal-instruction` for its active lanes, before any lane is written. -/
def Sys2Proof.Claims.SelectorFaultsComeFirst : Prop :=
  ∀ (i : Instr) (r : SelectWord) (s : State) (b g : Nat) (k : Block) (x : Group), i.wf = true →
    (selectWord i = some r ∨ packWord i = some r) → s.Issues b g k x → SlotsIn k x r.slots →
    (rok (r.word k x s.cur.act) = false → exec i s = .next (s.raiseFor 0x04 (2 ^ lowest s.cur.act) 0)) ∧
    (rok (r.word k x s.cur.act) = true → r.legal (r.sel k x s.cur.act) = false →
      exec i s = .next (s.raiseFor 0x01 (maskOf s.cur.act) 0))

open Sys2Proof Sys2Proof.Machine Sys2Proof.Claims in
/-- R103 and R27: `vpack` writes the lanes from its offset on with the packed block, leaves the other lanes of the destination as
they are, and pushes each written lane of the destination as it then stands; with T = 1 it pushes the block's lanes alone. -/
def Obligations.PackWritesItsBlock : Prop :=
  ∀ (d a c t e : Nat) (s : State) (b g : Nat) (k : Block) (x : Group), (Instr.vpack d a c t e).wf = true → s.Issues b g k x →
    SlotsIn k x ((if t = 1 then [] else [(.v, d)]) ++ [(.v, a), (.v, c)]) →
    let w := lowWord k x .v c (lowest s.cur.act)
    let o := w.val.toNat % 256
    let n := elemBits e
    rok w = true → o + n ≤ 32 →
    ∃ t' k' x' res, exec (.vpack d a c t e) s = .next t' ∧ s.WordDone t' b g k k' x x' ∧ x.SamePreds x' ∧
      (∀ l, o ≤ l → l < o + n → CarriesVal .v (res l)
        (packLanes n (lanes32.map (fun j => (lowWord k x .v a j).val.toNat % 2 ^ n)) / 2 ^ (32 * (l - o)) % 2 ^ 32)
        (∀ j < 32, rok (lowWord k x .v a j) = true)) ∧
      (if t = 1 then SameWindows k k' x x' ∧
          s.PushedLatches x x' ((x.written s.cur.act).filter (fun l => decide (o ≤ l ∧ l < o + n))) res
        else WroteSlot k k' x x' .v d ((x.written s.cur.act).filter (fun l => decide (o ≤ l ∧ l < o + n))) res ∧
          s.PushedLatches x x' (x.written s.cur.act) (fun l => if o ≤ l ∧ l < o + n then res l else k.src x .v d l))

open Sys2Proof Sys2Proof.Machine Sys2Proof.Claims in
/-- R84, R92 and R95: a compare writes its predicate in every active and helper lane, 0 in a helper lane that mismatches; where an
active lane's operand mismatches it raises `residue` for the lanes that do; it pushes nothing, and `vcmp` with T = 1 is illegal. -/
def Obligations.ComparesWriteTheirPredicate : Prop :=
  (∀ (i : Instr) (r : CompareWord) (s : State) (b g : Nat) (k : Block) (x : Group), i.wf = true → compareWord i = some r →
    s.Issues b g k x → SlotsIn k x [(r.vw, r.a), (r.vw, r.b)] →
    (s.cur.act.filter (fun l => !r.good k x l) = [] → ∃ t k' x', exec i s = .next t ∧ s.WordDone t b g k k' x x' ∧
      s.WrotePred k k' x x' r.p (x.written s.cur.act)
        (fun l => r.good k x l && r.val (valOf (k.src x r.vw r.a l)) (valOf (k.src x r.vw r.b l)))) ∧
    (s.cur.act.filter (fun l => !r.good k x l) ≠ [] →
      exec i s = .next (s.raiseFor 0x04 (maskOf (s.cur.act.filter (fun l => !r.good k x l))) 0))) ∧
  (∀ (s : State) (w : Nat), w < 2 ^ 32 → w / 2 ^ 24 = 0x18 → w / 4 % 2 = 1 → s.issue 1 w = .done (s.raise 0x01 0)) ∧
  decodeWord 1 0x18260400 = .ok (.vcmp 1 3 1 0 0)

open Sys2Proof Sys2Proof.Machine Sys2Proof.Claims in
/-- R112: the predicate words write their predicate in every active and helper lane from the lane's own predicates, discard a write
of `p0`, push nothing, and change nothing else, the guards of the clause's lanes neither. A word of theirs that names a predicate above 15,
a view or T = 1, or that sets a bit of an immediate above bit 0 or of a field that is to be zero, raises `illegal-instruction`. -/
def Obligations.PredicateWordsWriteTheirBit : Prop :=
  (∀ (i : Instr) (p : Nat) (f : Lane → Bool) (s : State) (b g : Nat) (k : Block) (x : Group), i.wf = true → predOf i = some (p, f) →
    s.Issues b g k x → ∃ t k' x', exec i s = .next t ∧ s.WordDone t b g k k' x x' ∧
      s.WrotePred k k' x x' p (x.written s.cur.act) (fun l => f (x.lane l)) ∧
      (¬s.lastWord → ∀ l, (x'.lane l).guardOff = (x.lane l).guardOff)) ∧
  (∀ (s : State) (w : Nat), w < 2 ^ 32 →
    let op := w / 2 ^ 24
    0x3F ≤ op → op ≤ 0x44 →
    (15 < w / 2 ^ 17 % 128 ∨ w % 2 = 1 ∨ (op ≤ 0x43 ∧ (15 < w / 2 ^ 10 % 128 ∨ w % 8 ≠ 0)) ∨ (op ≤ 0x41 ∧ 15 < w / 2 ^ 3 % 128) ∨
      ((op = 0x42 ∨ op = 0x43) ∧ w / 2 ^ 3 % 128 ≠ 0) ∨ (op = 0x44 ∧ w / 2 ^ 2 % 2 ^ 15 ≠ 0)) →
    s.issue 1 w = .done (s.raise 0x01 0)) ∧
  decodeWord 1 0x3F020818 = .ok (.pand 1 2 3) ∧ decodeWord 1 0x44080002 = .ok (.pset 4 1)

open Sys2Proof.Claims in
/-- R85, R103, R104, R105, R108, R109 and R111: words with a selector follow its byte, and the faults of it come before any result. -/
def Obligations.SelectorWordsReadTheirByte : Prop :=
  SelectorWordsFollowTheirByte ∧ SelectorFaultsComeFirst

namespace Sys2Proof.Claims
open Sys2Proof.Machine

/-- Group `g` of block `b` stands at a word of its PC-set with no active lane (R18). -/
def IssuesNone (s : State) (b g : Nat) (k : Block) (x : Group) : Prop :=
  s.cur.ag = .group b g ∧ s.bg b g = some (k, x) ∧ s.cur.act = []

/-- The slots that a class W word names. -/
def wideSlots (i : Instr) : Option (List (View × Nat)) :=
  match intWord i, partWord i, controlWord i, crossWord i with
  | some r, _, _, _ => some r.slots
  | _, some r, _, _ => some r.slots
  | _, _, some r, _ => some r.slots
  | _, _, _, some r => some r.slots
  | _, _, _, _ => match selectWord i, packWord i, compareWord i with
    | some r, _, _ => some r.slots
    | _, some r, _ => some r.slots
    | _, _, some r => some [(r.vw, r.a), (r.vw, r.b)]
    | _, _, _ => none

/-- A class S word that writes a scalar register: what the register's words are to be, from the state and the registers. -/
structure ScalarRow where
  d : Nat
  gives : State → SRegs → List RWord → Prop

/-- A number computed from two registers. -/
def sOf2 (a b : Nat) (f : Nat → Nat → Nat) (_s : State) (r : SRegs) (ws : List RWord) : Prop :=
  CarriesVal .w ws (f (sval r a) (sval r b)) (sok r a = true ∧ sok r b = true)

/-- The low half of a register. -/
def lowHalf (r : SRegs) (n : Nat) : RWord := nth RWord.zero (shalves r n) 0

/-- The class S words that write a register (R129, R130, R131, R133). -/
def scalarRow : Instr → Option ScalarRow
  | .sadd d a b => some ⟨d, sOf2 a b (fun x y => (x + y) % 2 ^ 64)⟩
  | .ssub d a b => some ⟨d, sOf2 a b (fun x y => wrap 64 ((x : Int) - y))⟩
  | .smul d a b => some ⟨d, sOf2 a b (fun x y => x * y % 2 ^ 64)⟩
  | .smulh d a b => some ⟨d, sOf2 a b (fun x y => wrap 64 (sgn 64 x * sgn 64 y / (2 ^ 64 : Nat)))⟩
  | .sand d a b => some ⟨d, sOf2 a b (fun x y => x &&& y)⟩
  | .sor d a b => some ⟨d, sOf2 a b (fun x y => x ||| y)⟩
  | .sxor d a b => some ⟨d, sOf2 a b (fun x y => x ^^^ y)⟩
  | .sshl d a b => some ⟨d, sOf2 a b (fun x y => if 64 ≤ y then 0 else x * 2 ^ y % 2 ^ 64)⟩
  | .sshr d a b => some ⟨d, sOf2 a b (fun x y => if 64 ≤ y then 0 else x / 2 ^ y)⟩
  | .ssra d a b => some ⟨d, sOf2 a b (fun x y =>
      if 64 ≤ y then (if sgn 64 x < 0 then 2 ^ 64 - 1 else 0) else wrap 64 (sgn 64 x / (2 ^ y : Nat)))⟩
  | .smin d a b => some ⟨d, sOf2 a b (fun x y => if sgn 64 x < sgn 64 y then x else y)⟩
  | .smax d a b => some ⟨d, sOf2 a b (fun x y => if sgn 64 y < sgn 64 x then x else y)⟩
  | .smov d a => some ⟨d, fun _ r ws => ws = shalves r a⟩
  | .smovi d i => some ⟨d, fun _ _ ws => ws = freshWords 2 (wrap 64 (sgn 12 i))⟩
  | .slui d a i => some ⟨d, fun _ r ws => CarriesVal .w ws (sval r a * 4096 % 2 ^ 64 + i) (sok r a = true)⟩
  | .ssel d a b p => some ⟨d, fun s r ws => ws = shalves r (if spBit s.spreds p then a else b)⟩
  | .sfadd d a b => some ⟨d, fun _ r ws => ws = [computedBy (fun xs => f32Add .rne (arg xs 0) (arg xs 1)) [lowHalf r a, lowHalf r b], RWord.zero]⟩
  | .sfmul d a b => some ⟨d, fun _ r ws => ws = [computedBy (fun xs => f32Mul .rne (arg xs 0) (arg xs 1)) [lowHalf r a, lowHalf r b], RWord.zero]⟩
  | .sfma d a b => some ⟨d, fun _ r ws =>
      ws = [computedBy (fun xs => f32Fma .rne (arg xs 0) (arg xs 1) (arg xs 2)) [lowHalf r a, lowHalf r b, lowHalf r d], RWord.zero]⟩
  | .sclk d => some ⟨d, fun s _ ws => ws = freshWords 2 (s.cycle % 2 ^ 64)⟩
  | _ => none

/-- The conditions of `scmp` by their code (R131). -/
def scalarRel (c x y : Nat) : Bool :=
  decide ((c < 6 ∧ relOf c (sgn 64 x) (sgn 64 y) = true) ∨ (c = 6 ∧ x < y) ∨ (c = 7 ∧ y ≤ x))

/-- The identifiers of `sgid` by their selector (R133). -/
def idOf (k : Block) (x : Group) : Nat → Nat
  | 0 => k.trec.addr
  | 1 => k.index
  | 2 => x.num
  | 3 => k.groups.length
  | 4 => x.nlanes
  | 5 => k.core
  | _ => k.trec.part

/-- The scalar side of group `g` of block `b` issues a word (R126). -/
def SideIssues (s : State) (b g : Nat) (k : Block) (x : Group) : Prop :=
  s.cur.ag = .scalar b g ∧ s.bg b g = some (k, x) ∧ s.cur.act ≠ [] ∧ ∃ r, x.sc = some r

end Sys2Proof.Claims

open Sys2Proof Sys2Proof.Machine Sys2Proof.Claims in
/-- R84: in the views of one word, the result of a lane-local integer word is fresh where every source word matches its residue and
carries a mismatch where one does not. -/
def Sys2Proof.Claims.MismatchesTravelWithResults : Prop :=
  ∀ (i : Instr) (r : LaneWord) (s : State) (b g : Nat) (k : Block) (x : Group), i.wf = true → intWord i = some r → r.vw.parts = 1 →
    s.Issues b g k x → SlotsIn k x r.slots →
    ∃ t k' x', exec i s = .next t ∧ s.WordDone t b g k k' x x' ∧
      s.Delivered k k' x x' r.vw r.t r.d (x.written s.cur.act)
        (fun l => [computed (r.srcs.all (fun n => rok (nth RWord.zero (k.src x r.vw n l) 0))) (r.val (r.args k x l) % 2 ^ 32)])

open Sys2Proof Sys2Proof.Machine Sys2Proof.Claims in
/-- R18: a word of a clause with no active lane retires without effect: of classes W, M, C, Y and F on the wide side, of class S on
the scalar side. -/
def Sys2Proof.Claims.EmptyWordsOnlyRetire : Prop :=
  ∀ (i : Instr) (s : State) (b g : Nat) (k : Block) (x : Group), i.wf = true → s.bg b g = some (k, x) → s.cur.act = [] →
    (s.cur.ag = .group b g → (classOf i = some 1 ∨ classOf i = some 2 ∨ classOf i = some 4 ∨ classOf i = some 5 ∨ classOf i = some 6) →
      exec i s = .next s.retire) ∧
    (s.cur.ag = .scalar b g → classOf i = some 0 → exec i s = .next s.retire)

open Sys2Proof Sys2Proof.Machine Sys2Proof.Claims in
/-- R116: a class W word that names a slot outside its window raises `protection` for its active lanes and writes nothing. -/
def Sys2Proof.Claims.SlotsOutsideWindowsFault : Prop :=
  ∀ (i : Instr) (slots : List (View × Nat)) (s : State) (b g : Nat) (k : Block) (x : Group), i.wf = true → wideSlots i = some slots →
    s.Issues b g k x → ¬SlotsIn k x slots → exec i s = .next (s.raise 0x07 0)

open Sys2Proof Sys2Proof.Machine Sys2Proof.Claims in
/-- R129 to R131, R133, R297: the class S words that write a register complete on a group's scalar side and on a management core; the
register takes what the rule gives, every other register and every predicate is as it was. -/
def Sys2Proof.Claims.ScalarWordsTakeTheirResults : Prop :=
  ∀ (i : Instr) (r : ScalarRow) (s : State) (q : SRegs), i.wf = true → scalarRow i = some r → s.ScalarIssues → s.sregs = some q →
    ∃ t q' ws, exec i s = .next t ∧ s.ScalarDone t ∧ t.sregs = some q' ∧ t.spreds = s.spreds ∧ WroteScalar q q' r.d ws ∧ r.gives s q ws

open Sys2Proof Sys2Proof.Machine Sys2Proof.Claims in
/-- R131: `scmp` writes its predicate from the condition where both operands match their residues, leaves `sp0` at 1 and the other
predicates and the registers as they were; on a mismatch it raises `residue` and writes nothing. -/
def Sys2Proof.Claims.ScalarComparesWriteTheirPredicate : Prop :=
  ∀ (c p a b : Nat) (s : State) (q : SRegs), (Instr.scmp c p a b).wf = true → s.ScalarIssues → s.sregs = some q →
    (sok q a = true → sok q b = true → ∃ t, exec (.scmp c p a b) s = .next t ∧ s.ScalarDone t ∧ t.sregs = some q ∧
      ∀ n < 8, spBit t.spreds n = if n = p ∧ n ≠ 0 then scalarRel c (sval q a) (sval q b) else spBit s.spreds n) ∧
    (¬(sok q a = true ∧ sok q b = true) → exec (.scmp c p a b) s = .next (s.raise 0x04 0))

open Sys2Proof Sys2Proof.Machine Sys2Proof.Claims in
/-- R133 and R297: `sgid` gives a group's scalar side the identifier of its selector; a management core has none and raises
`illegal-instruction`. -/
def Sys2Proof.Claims.ScalarIdentifiers : Prop :=
  ∀ (d n : Nat) (s : State) (q : SRegs), (Instr.sgid d n).wf = true → s.ScalarIssues → s.sregs = some q →
    (∀ b g k x, s.cur.ag = .scalar b g → s.bg b g = some (k, x) →
      ∃ t q', exec (.sgid d n) s = .next t ∧ s.ScalarDone t ∧ t.sregs = some q' ∧ t.spreds = s.spreds ∧
        WroteScalar q q' d (freshWords 2 (idOf k x n))) ∧
    (∀ m, s.cur.ag = .mgmt m → exec (.sgid d n) s = .next (s.raise 0x01 0))

open Sys2Proof Sys2Proof.Machine Sys2Proof.Claims in
/-- R134: `vqpop` takes the oldest forward entry into every active and helper lane, once for the word; `vqpush` puts the lowest
active lane's words behind the return queue, the upper half 0 in view `v`. -/
def Sys2Proof.Claims.WideQueueWordsMoveOneEntry : Prop :=
  ∀ (s : State) (b g : Nat) (k : Block) (x : Group), s.Issues b g k x →
    (∀ d t v e rest, (Instr.vqpop d t v).wf = true → (t = 1 ∨ SlotsIn k x [(viewOf v, d)]) → x.fq = e :: rest →
      ∃ t' k' x', exec (.vqpop d t v) s = .next t' ∧ s.WordDone t' b g k k' { x with fq := rest } x' ∧
        s.Delivered k k' x x' (viewOf v) t d (x.written s.cur.act) (fun _ => if v = 0 then [e.1] else [e.1, e.2])) ∧
    (∀ a v, (Instr.vqpush a v).wf = true → SlotsIn k x [(viewOf v, a)] → goodOf (k.src x (viewOf v) a (lowest s.cur.act)) = true →
      x.rq.length < 8 →
      ∃ t' k' x', exec (.vqpush a v) s = .next t' ∧
        s.WordDone t' b g k k'
          { x with rq := x.rq ++ [(lowWord k x (viewOf v) a (lowest s.cur.act),
            if v = 0 then RWord.zero else nth RWord.zero (k.src x .w a (lowest s.cur.act)) 1)] } x' ∧
        SameWindows k k' x x' ∧ s.KeptLatches x x' ∧ x.SamePreds x')

open Sys2Proof Sys2Proof.Machine Sys2Proof.Claims in
/-- R133: `qfwd` puts the register's halves behind the forward queue and `qret` takes the oldest return entry into its register;
nothing else of the group changes. -/
def Sys2Proof.Claims.ScalarQueueWordsMoveOneEntry : Prop :=
  ∀ (s : State) (b g : Nat) (k : Block) (x : Group), SideIssues s b g k x →
    (∀ a, (Instr.qfwd a).wf = true → sok x.sregs a = true → x.fq.length < 8 →
      ∃ t k' x', exec (.qfwd a) s = .next t ∧
        s.ScalarSideDone t b g k k'
          { x with fq := x.fq ++ [(lowHalf x.sregs a, nth RWord.zero (shalves x.sregs a) 1)] } x' ∧
        x'.sregs = x.sregs ∧ x'.sp = x.sp) ∧
    (∀ d e rest, (Instr.qret d).wf = true → x.rq = e :: rest →
      ∃ t k' x', exec (.qret d) s = .next t ∧ s.ScalarSideDone t b g k k' { x with rq := rest } x' ∧
        WroteScalar x.sregs x'.sregs d [e.1, e.2] ∧ x'.sp = x.sp)

open Sys2Proof Sys2Proof.Machine Sys2Proof.Claims in
/-- R127: a queue word that finds its queue empty or full waits with stall reason `QUEUE`, or raises `queue-protocol` where the other
side can no longer relieve it. Which states of the scalar side count as such is in part the model's choice, log entry 84. -/
def Sys2Proof.Claims.QueueWordsWaitOrFault : Prop :=
  ∀ (s : State) (b g : Nat) (k : Block) (x : Group), s.bg b g = some (k, x) →
    (s.Issues b g k x →
      (∀ d t v, (Instr.vqpop d t v).wf = true → (t = 1 ∨ SlotsIn k x [(viewOf v, d)]) → x.fq = [] →
        exec (.vqpop d t v) s = .next (if s.scalarStuck k x then s.raise 0x0E 0 else s.wait .queue)) ∧
      (∀ a v, (Instr.vqpush a v).wf = true → SlotsIn k x [(viewOf v, a)] → goodOf (k.src x (viewOf v) a (lowest s.cur.act)) = true →
        8 ≤ x.rq.length → exec (.vqpush a v) s = .next (if s.scalarStuck k x then s.raise 0x0E 0 else s.wait .queue))) ∧
    (SideIssues s b g k x →
      (∀ a, (Instr.qfwd a).wf = true → sok x.sregs a = true → 8 ≤ x.fq.length →
        exec (.qfwd a) s = .next (if x.wideHdr = some s.cur.hdr then s.raise 0x0E 0 else s.wait .queue)) ∧
      (∀ d, (Instr.qret d).wf = true → x.rq = [] →
        exec (.qret d) s = .next (if x.wideHdr = some s.cur.hdr then s.raise 0x0E 0 else s.wait .queue)))

open Sys2Proof.Claims in
/-- R127, R133 and R134: the queue words of both sides move one entry, and wait or fault where there is none. -/
def Obligations.QueueWordsMoveTheirEntries : Prop :=
  WideQueueWordsMoveOneEntry ∧ ScalarQueueWordsMoveOneEntry ∧ QueueWordsWaitOrFault

open Sys2Proof.Claims in
/-- R129, R130, R131, R133 and R297: scalar words take their results, compares write their predicate, and the clock and the identifiers are read. -/
def Obligations.ScalarWordsFollowTheirRules : Prop :=
  ScalarWordsTakeTheirResults ∧ ScalarComparesWriteTheirPredicate ∧ ScalarIdentifiers

open Sys2Proof.Claims in
/-- R18, R84 and R116: a mismatch travels with the result that it reaches, a word without active lanes only retires, and a slot outside its window faults.
Where the spec leaves a point open, the clauses rest on the model's reading, log entry 13. -/
def Obligations.MismatchesTravelEmptyWordsRetireOutsideSlotsFault : Prop :=
  MismatchesTravelWithResults ∧ EmptyWordsOnlyRetire ∧ SlotsOutsideWindowsFault

namespace Sys2Proof.Claims
open Sys2Proof.Machine

/-- The word is past, with no register, latch or predicate written: `s0` is the state with the word's own effect, `k0` and `x0` its
block and group there. -/
def PassedFrom (s0 t : State) (b g : Nat) (k0 : Block) (x0 : Group) : Prop :=
  ∃ k' x', s0.WordDone t b g k0 k' x0 x' ∧ SameWindows k0 k' x0 x' ∧ s0.KeptLatches x0 x' ∧ x0.SamePreds x'

/-- The dependence counter that a word names, one up (R124). -/
def counted (x : Group) (sb : Nat) : Group := if sb < 6 then { x with sb := tset 0 x.sb sb (tget 0 x.sb sb + 1) } else x

/-- The state after the accesses of a word, with the access `o` outstanding on the block's core and its counter one up (R124, R154). -/
def standing (s0 : State) (c b g sb : Nat) (o : Nat → Outst) : State :=
  ((s0.setCore c { s0.core c with
      outs := (s0.core c).outs ++ [o (s0.core c).outNext], outNext := (s0.core c).outNext + 1 }).updGrp b g (fun y => counted y sb))

/-- A word has accessed (`s0` is the state after its accesses) and is past: its access stands outstanding, its counter has risen, and
no register, latch or predicate has changed. -/
def AccessDone (s0 t : State) (b g sb : Nat) (k : Block) (x : Group) (o : Nat → Outst) : Prop :=
  PassedFrom (standing s0 k.core b g sb o) t b g (k.updGrp g (fun y => counted y sb)) (counted x sb)

/-- A load or store form: its size code, counter, data register, what its lanes' accesses are, and the slots of its address. -/
structure AccessRow where
  z : Nat
  sb : Nat
  d : Nat
  lane : State → Block → Group → Nat → La
  slots : List (View × Nat)

/-- The loads of one value for each lane (R155, R157). -/
def loadRow : Instr → Option AccessRow
  | .vld d z r o sb => some ⟨z, sb, d, vaForm .rd r z o none, [(.w, r)]⟩
  | .vldsp d z r o sb => some ⟨z, sb, d, spForm r z o none, [(.v, r)]⟩
  | .vldx d z r o sb => some ⟨z, sb, d, clForm r z o none, [(.v, r)]⟩
  | _ => none

/-- The stores (R155, R157). -/
def storeRow : Instr → Option AccessRow
  | .vst d z r o sb => some ⟨z, sb, d, vaForm .wr r z o (some d), [(.w, r)]⟩
  | .vstsp d z r o sb => some ⟨z, sb, d, spForm r z o (some d), [(.v, r)]⟩
  | .vstx d z r o sb => some ⟨z, sb, d, clForm r z o (some d), [(.v, r)]⟩
  | _ => none

/-- The lanes of an access. -/
def AccessRow.las (r : AccessRow) (s : State) (k : Block) (x : Group) : List La := s.cur.act.map (r.lane s k x)

/-- The value that a lane stores: the low bytes of its data lane. -/
def AccessRow.value (r : AccessRow) (k : Block) (x : Group) (l : Nat) : Nat := valOf (k.src x (dataView r.z) r.d l) % 2 ^ (8 * 2 ^ r.z)

/-- The active lanes' stores to memory and to the block's own scratchpad, in ascending lane order. -/
def AccessRow.stored (r : AccessRow) (s : State) (k : Block) (x : Group) : State :=
  (r.las s k x).foldl (fun t a => if a.tgt.remote k then t else t.storeTgt k a.tgt (toLe (2 ^ r.z) (r.value k x a.l))) s

/-- The bytes that a store still has to write in the scratchpads of other blocks of its cluster (R231). -/
def AccessRow.unsent (r : AccessRow) (s : State) (k : Block) (x : Group) : List (Nat × Nat × List Byte) :=
  putsOf k (2 ^ r.z) ((r.las s k x).map (fun a => (a, r.value k x a.l)))

/-- A load has its place among the outstanding accesses: its counter has room, or it has issued already and waited for presence. -/
def MayLoad (s : State) (k : Block) (x : Group) (sb : Nat) : Prop := x.counterFull sb = false ∨ s.holding k x.num 1 = true

/-- Nothing of a side of the group waits for presence, and no access of the core has still to write in a scratchpad. -/
def Settled (s : State) (k : Block) (g side : Nat) : Prop :=
  s.holding k g side = false ∧ ∀ o ∈ (s.core k.core).outs, o.puts = []

/-- A load begins: what the group has sent before to the scratchpads that its lanes reach is performed (R231), and a wait for presence
ends what the core has fetched ahead for the group (R397). -/
def AccessRow.began (r : AccessRow) (s : State) (k : Block) (x : Group) : State :=
  (s.unhold1 k x.num 1 (spotsOf (r.las s k x))).passPresence k x.num (spotsOf (r.las s k x))

/-- The lanes of a load together: the bytes of each, the lanes that find an uncorrectable error, the state. -/
def AccessRow.loaded (r : AccessRow) (s : State) (k : Block) (x : Group) : List (La × List Byte) × List La × State :=
  (r.began s k x).loadLanes k (2 ^ r.z) (r.las s k x)

/-- Some lane of an access goes to a slot of the block's cluster (R226). -/
def AccessRow.member (r : AccessRow) (s : State) (k : Block) (x : Group) : Bool := (r.las s k x).any (fun a => a.member)

/-- The place in a scratchpad that an address word and an offset give (R155). -/
def spOff (k : Block) (x : Group) (r z o l : Nat) : Int := (valOf (k.src x .v r l) : Int) + sgn 7 o * ((2 ^ z : Nat) : Int)

/-- The lines of 512 bytes that `n` bytes from an offset touch. -/
def lineIn (off : Nat) (n line : Nat) : Prop := off / 512 ≤ line ∧ line ≤ (off + n - 1) / 512

/-- A lane's access to its own block's scratchpad is one that R142 allows. -/
def spGood (k : Block) (x : Group) (r z o l : Nat) : Prop :=
  goodOf (k.src x .v r l) = true ∧ 0 ≤ spOff k x r z o l ∧ spOff k x r z o l + ((2 ^ z : Nat) : Int) ≤ (k.lines * 512 : Nat)

/-- The register words that a load brings: each lane's bytes as a number, with fresh residues, to its lane of the slot. -/
def landing (k : Block) (x : Group) (vw : View) (d : Nat) (ls : List (Nat × Nat)) : List (Nat × RWord) :=
  (ls.map (fun p => (upFrom (k.slotWord x vw d p.1) vw.parts).zip (freshWords vw.parts p.2))).flatten

/-- The bytes of the transposed block of `vldt` (R156): element (r, c) of rows of 16 bytes goes to place 32c + r. -/
def turned (bs : List Byte) (e p : Nat) : Byte :=
  let q := p / e
  nth 0 bs (16 * (q % 32) + q / 32 * e + p % e)

/-- A run of lines that a lane's address word names, and whether it lies in the allocation (R159). -/
def runStart (k : Block) (x : Group) (r z o l : Nat) : Int := ((valOf (k.src x .v r l) % 2 ^ 20 : Nat) : Int) + sgn 7 o * ((2 ^ z : Nat) : Int)

def runCount (k : Block) (x : Group) (r l : Nat) : Nat := valOf (k.src x .v r l) / 2 ^ 21

def inRun (k : Block) (x : Group) (r z o l n : Nat) : Prop :=
  (runStart k x r z o l).toNat / 512 ≤ n ∧ n ≤ (runStart k x r z o l).toNat / 512 + runCount k x r l

def runGood (k : Block) (x : Group) (r z o l : Nat) : Prop :=
  goodOf (k.src x .v r l) = true ∧ valOf (k.src x .v r l) / 2 ^ 20 % 2 = 0 ∧ 0 ≤ runStart k x r z o l ∧
    (runStart k x r z o l).toNat / 512 + runCount k x r l < k.lines

end Sys2Proof.Claims

open Sys2Proof Sys2Proof.Machine Sys2Proof.Claims in
/-- R154, R155, R157 and R124: a load whose lanes pass every check, whose counter has room and whose lines are present performs its
lanes in ascending order and stands outstanding with the words that it will bring to its data lanes. -/
def Sys2Proof.Claims.LoadsStandOutstanding : Prop :=
  ∀ (i : Instr) (r : AccessRow) (s : State) (b g : Nat) (k : Block) (x : Group), i.wf = true → loadRow i = some r →
    s.Issues b g k x → SlotsIn k x ((dataView r.z, r.d) :: r.slots) → checks (r.las s k x) = .ok → MayLoad s k x r.sb →
    (∀ a ∈ r.las s k x, s.absentTgt a.tgt (2 ^ r.z) = false) →
    let q := r.loaded s k x
    q.2.2.crowded k.core = false →
    ∃ t k0 x0, exec i s = .next t ∧ q.2.2.bg b g = some (k0, x0) ∧ (Settled s k g 1 → k0 = k ∧ x0 = x) ∧
      AccessDone q.2.2 t b g r.sb k0 x0 (fun id =>
      { id := id, blk := b, grp := g, sb := r.sb, pc := s.cur.pc,
        lanes := if q.2.1 = [] then maskOf s.cur.act else maskOf (q.2.1.map (fun a => a.l)),
        poison := (q.2.1.head?).map (fun a => a.info),
        writes := landing k x (dataView r.z) r.d (q.1.map (fun p => (p.1.l, leAt p.2 0 (2 ^ r.z)))),
        held := 0, spots := spotsOf (r.las s k x), puts := [], member := r.member s k x })

open Sys2Proof Sys2Proof.Machine Sys2Proof.Claims in
/-- R141, R142, R143 and R155: `vldsp` in its own allocation, with its lines present, brings each active lane the bytes of the
scratchpad at its address and changes no memory; where bytes have an uncorrectable error it stands as a load that will raise
`poisoned` for the lanes that read them. -/
def Sys2Proof.Claims.ScratchpadLoadsReadTheirBytes : Prop :=
  ∀ (d z r o sb : Nat) (s : State) (b g : Nat) (k : Block) (x : Group), (Instr.vldsp d z r o sb).wf = true → s.Issues b g k x →
    SlotsIn k x [(dataView z, d), (.v, r)] → x.counterFull sb = false → Settled s k g 1 → s.crowded k.core = false →
    (∀ l ∈ s.cur.act, spGood k x r z o l) →
    (∀ l ∈ s.cur.act, ∀ n ∈ k.absent, ¬lineIn (spOff k x r z o l).toNat (2 ^ z) n) →
    let bad := s.cur.act.filter (fun l => k.scrPoison (spOff k x r z o l).toNat (2 ^ z))
    ∃ t, exec (.vldsp d z r o sb) s = .next t ∧ AccessDone (s.dropAhead k x.num) t b g sb k x (fun id =>
      { id := id, blk := b, grp := g, sb := sb, pc := s.cur.pc, lanes := if bad = [] then maskOf s.cur.act else maskOf bad,
        poison := (bad.head?).map (fun l => scrBase + (spOff k x r z o l).toNat),
        writes := landing k x (dataView z) d
          (s.cur.act.map (fun l => (l, leAt (tgets 0 k.scr (spOff k x r z o l).toNat (2 ^ z)) 0 (2 ^ z)))),
        held := 0, spots := s.cur.act.map (fun _ => b), puts := [], member := false })

open Sys2Proof Sys2Proof.Machine Sys2Proof.Claims in
/-- R156: `vldt` acts once for the group at the lowest active lane's address, a multiple of 16 whose 512 bytes lie in the allocation
and are present, and brings each active lane its 16 bytes of the transposed block. -/
def Sys2Proof.Claims.TransposingLoadsTurnTheBlock : Prop :=
  ∀ (d z r o sb : Nat) (s : State) (b g : Nat) (k : Block) (x : Group), (Instr.vldt d z r o sb).wf = true → s.Issues b g k x →
    SlotsIn k x [(.t, d), (.v, r)] → x.counterFull sb = false → Settled s k g 1 →
    let a := spOff k x r z o (lowest s.cur.act)
    goodOf (k.src x .v r (lowest s.cur.act)) = true → 0 ≤ a → a % 16 = 0 → a + 512 ≤ (k.lines * 512 : Nat) → k.lines * 512 ≤ 2 ^ 20 →
    (∀ n ∈ k.absent, ¬lineIn a.toNat 512 n) →
    let blk := tgets 0 k.scr a.toNat 512
    ∃ t, exec (.vldt d z r o sb) s = .next t ∧ AccessDone (s.dropAhead k x.num) t b g sb k x (fun id =>
      { id := id, blk := b, grp := g, sb := sb, pc := s.cur.pc, lanes := maskOf s.cur.act,
        poison := if k.scrPoison a.toNat 512 then some (scrBase + a.toNat) else none,
        writes := landing k x .t d (s.cur.act.map (fun l => (l, leAt ((upFrom (16 * l) 16).map (turned blk (2 ^ z))) 0 16))),
        held := 0, spots := [b], puts := [], member := false })

open Sys2Proof Sys2Proof.Machine Sys2Proof.Claims in
/-- R154, R155, R157 and R231: a store whose lanes pass every check and whose counter is not full stores every lane's value in
ascending lane order, its bytes for other blocks' scratchpads standing with it until its completion point; a group of no recorded task
hashes nothing (R221). -/
def Sys2Proof.Claims.StoresWriteTheirLanes : Prop :=
  ∀ (i : Instr) (r : AccessRow) (s : State) (b g : Nat) (k : Block) (x : Group), i.wf = true → storeRow i = some r →
    s.Issues b g k x → SlotsIn k x ((dataView r.z, r.d) :: r.slots) → checks (r.las s k x) = .ok → x.counterFull r.sb = false →
    k.rr = none → (r.stored s k x).crowded k.core = false →
    ∃ t k0 x0, exec i s = .next t ∧ (r.stored s k x).bg b g = some (k0, x0) ∧ AccessDone (r.stored s k x) t b g r.sb k0 x0 (fun id =>
      { id := id, blk := b, grp := g, sb := r.sb, pc := s.cur.pc, lanes := maskOf s.cur.act, poison := none, writes := [],
        held := 0, spots := spotsOf (r.las s k x), puts := r.unsent s k x, member := r.member s k x })

open Sys2Proof Sys2Proof.Machine Sys2Proof.Claims in
/-- R141, R142, R143 and R155: what `vstsp` stores. A byte that one lane alone stores takes that lane's byte, a byte that no lane
stores is as it was, the lines stored to become present and no others, an 8-byte word that one lane stores whole holds no error any
more, and nothing but the block's scratchpad changes. That a partial store leaves the error is the model's choice, log entry 72. -/
def Sys2Proof.Claims.ScratchpadStoresWriteTheirBytes : Prop :=
  ∀ (d z r o sb : Nat) (s : State) (b g : Nat) (k : Block) (x : Group) (row : AccessRow), (Instr.vstsp d z r o sb).wf = true →
    storeRow (.vstsp d z r o sb) = some row → s.Issues b g k x → (∀ l ∈ s.cur.act, spGood k x r z o l) →
    ∃ k0, (∃ bs, row.stored s k x = { s with blocks := bs }) ∧ (row.stored s k x).blk b = some k0 ∧
      (∀ n, n ≠ b → (row.stored s k x).blk n = s.blk n) ∧
      (∃ scr ab bad, k0 = { k with scr := scr, absent := ab, scrBad := bad }) ∧
      (∀ a : Nat, (∀ l ∈ s.cur.act, (a : Int) < spOff k x r z o l ∨ spOff k x r z o l + ((2 ^ z : Nat) : Int) ≤ a) → tget 0 k0.scr a = tget 0 k.scr a) ∧
      (∀ l ∈ s.cur.act, ∀ j < 2 ^ z, (∀ m ∈ s.cur.act, m ≠ l → (((spOff k x r z o l).toNat + j : Nat) : Int) < spOff k x r z o m ∨
          spOff k x r z o m + ((2 ^ z : Nat) : Int) ≤ ((spOff k x r z o l).toNat + j : Nat)) →
        tget 0 k0.scr ((spOff k x r z o l).toNat + j) = BitVec.ofNat 8 (row.value k x l / 256 ^ j)) ∧
      (∀ n, n ∈ k0.absent ↔ n ∈ k.absent ∧ ∀ l ∈ s.cur.act, ¬lineIn (spOff k x r z o l).toNat (2 ^ z) n) ∧
      (∀ n, n ∈ k0.scrBad ↔ n ∈ k.scrBad ∧ ∀ l ∈ s.cur.act,
        ¬((spOff k x r z o l).toNat ≤ 8 * n ∧ 8 * n + 8 ≤ (spOff k x r z o l).toNat + 2 ^ z))

open Sys2Proof Sys2Proof.Machine Sys2Proof.Claims in
/-- R149 and R154: a memory word whose checks find a fault raises it for the lanes that fail, one that misses its core's TLB waits for
the walk, one whose cluster slot is empty or away waits for that slot, and one that has passed them waits while its counter is full;
none of them accesses. A load that finds a line absent has issued, its counter one up, and waits for presence. A word that the core's
cache has no sector for waits, and forces a publication once no access of the core is outstanding. -/
def Obligations.AccessChecksComeFirst : Prop :=
  ∀ (i : Instr) (r : AccessRow) (s : State) (b g : Nat) (k : Block) (x : Group), i.wf = true →
    (loadRow i = some r ∨ storeRow i = some r) → s.Issues b g k x → SlotsIn k x ((dataView r.z, r.d) :: r.slots) →
    (∀ c lanes info, checks (r.las s k x) = .fault c lanes info → exec i s = .next (s.raiseFor c lanes info)) ∧
    (∀ page, checks (r.las s k x) = .walk page → exec i s = .next (s.waitWalk k.core k.trec.part page)) ∧
    (checks (r.las s k x) = .park → exec i s = .next (s.waitSlots .slot ((r.las s k x).filterMap (fun a => a.park)))) ∧
    (checks (r.las s k x) = .ok → x.counterFull r.sb = true → (loadRow i = some r → s.holding k g 1 = false) →
      exec i s = .next (s.wait .counter)) ∧
    (checks (r.las s k x) = .ok → MayLoad s k x r.sb → loadRow i = some r →
      (∃ a ∈ r.las s k x, s.absentTgt a.tgt (2 ^ r.z) = true) →
      exec i s = .next (s.hold k g r.sb (maskOf s.cur.act) 1 (spotsOf (r.las s k x)) (r.member s k x))) ∧
    (checks (r.las s k x) = .ok → MayLoad s k x r.sb → loadRow i = some r →
      (∀ a ∈ r.las s k x, s.absentTgt a.tgt (2 ^ r.z) = false) → (r.loaded s k x).2.2.crowded k.core = true →
      exec i s = .next (((r.began s k x).forceQuiet k.core).wait .counter)) ∧
    (checks (r.las s k x) = .ok → x.counterFull r.sb = false → storeRow i = some r → (r.stored s k x).crowded k.core = true →
      exec i s = .next ((s.forceQuiet k.core).wait .counter))

open Sys2Proof Sys2Proof.Machine Sys2Proof.Claims in
/-- R158, R160, R362 and R363: `vpref` never faults and stands outstanding after its lanes' prefetches, of which there are none where its
address slot lies outside the window. `phase` waits until the core has no access outstanding, publishes, waits until the frames that its core
has sent have been applied here, and after a scope of `.pod` or `.sys` until the calls placed before them are applied; then the core is
refreshed and the word is past. -/
def Sys2Proof.Claims.PrefetchAndPhaseComplete : Prop :=
  ∀ (s : State) (b g : Nat) (k : Block) (x : Group), s.Issues b g k x →
    (∀ z r o sb, (Instr.vpref z r o sb).wf = true → x.counterFull sb = false →
      let ls := if k.slotsOk x [(.w, r)] then s.cur.act else []
      let u := ls.foldl (fun t l => t.prefLane k x r z o l) s
      ∃ t k0 x0, exec (.vpref z r o sb) s = .next t ∧ u.bg b g = some (k0, x0) ∧ AccessDone u t b g sb k0 x0 (fun id =>
          { id := id, blk := b, grp := g, sb := sb, pc := s.cur.pc, lanes := maskOf s.cur.act, poison := none, writes := [],
            held := 0, spots := [], puts := [], member := false })) ∧
    (∀ z r o sb, (Instr.vpref z r o sb).wf = true → x.counterFull sb = true → exec (.vpref z r o sb) s = .next (s.wait .counter)) ∧
    (∀ z, (Instr.phase z).wf = true → x.wait = none → (s.core k.core).outs ≠ [] → exec (.phase z) s = .next (s.wait .counter)) ∧
    (∀ z s1 pod sys, (Instr.phase z).wf = true → x.wait = none → (s.core k.core).outs = [] →
      s.phasePublish k.core k.trec.part z = (s1, pod, sys) →
      let p := s1.part k.trec.part
      (s1.pubsDone pod sys = false → exec (.phase z) s = .next (s1.wait (.phase pod sys))) ∧
      (s1.pubsDone pod sys = true → 4 ≤ z → p.applied < p.placed → exec (.phase z) s = .next (s1.wait (.applied p.placed))) ∧
      (s1.pubsDone pod sys = true → z < 4 ∨ p.placed ≤ p.applied → s1.bg b g = s.bg b g →
        ∃ t k0 x0, exec (.phase z) s = .next t ∧ (s1.refresh k.core).bg b g = some (k0, x0) ∧ PassedFrom (s1.refresh k.core) t b g k0 x0)) ∧
    (∀ z w pod sys, (Instr.phase z).wf = true → x.wait = some w → w.on = .phase pod sys → w.pc = s.cur.pc →
      let p := s.part k.trec.part
      (s.pubsDone pod sys = false → exec (.phase z) s = .next (s.wait (.phase pod sys))) ∧
      (s.pubsDone pod sys = true → 4 ≤ z → p.applied < p.placed → exec (.phase z) s = .next (s.wait (.applied p.placed))) ∧
      (s.pubsDone pod sys = true → z < 4 ∨ p.placed ≤ p.applied →
        ∃ t k0 x0, exec (.phase z) s = .next t ∧ (s.refresh k.core).bg b g = some (k0, x0) ∧ PassedFrom (s.refresh k.core) t b g k0 x0)) ∧
    (∀ z w n, (Instr.phase z).wf = true → x.wait = some w → w.on = .applied n → w.pc = s.cur.pc →
      ((s.part k.trec.part).applied < n → exec (.phase z) s = .next (s.wait (.applied n))) ∧
      (n ≤ (s.part k.trec.part).applied →
        ∃ t k0 x0, exec (.phase z) s = .next t ∧ (s.refresh k.core).bg b g = some (k0, x0) ∧ PassedFrom (s.refresh k.core) t b g k0 x0))

open Sys2Proof Sys2Proof.Machine Sys2Proof.Claims in
/-- R159: the presence words, where every active lane's run lies in the allocation: `prsclr` clears the lines of the runs and no
others, `prswait` goes on once every line is present, `prstest` writes each active lane's predicate from its own run. -/
def Sys2Proof.Claims.PresenceWordsActOnTheirRuns : Prop :=
  ∀ (z r o : Nat) (s : State) (b g : Nat) (k : Block) (x : Group), s.Issues b g k x → SlotsIn k x [(.v, r)] → r < 128 → z < 8 → o < 128 →
    (∀ l ∈ s.cur.act, runGood k x r z o l) →
    (∃ t ab, exec (.prsclr z r o) s = .next t ∧ (∀ n, n ∈ ab ↔ n ∈ k.absent ∨ ∃ l ∈ s.cur.act, inRun k x r z o l n) ∧
      PassedFrom (s.updBlk b (fun q => { q with absent := ab })) t b g { k with absent := ab } x) ∧
    ((∀ l ∈ s.cur.act, ∀ n ∈ k.absent, ¬inRun k x r z o l n) →
      ∃ t, exec (.prswait z r o) s = .next t ∧ PassedFrom (s.dropAhead k x.num) t b g k x) ∧
    ((∃ l ∈ s.cur.act, ∃ n ∈ k.absent, inRun k x r z o l n) → exec (.prswait z r o) s = .next (s.wait .presence)) ∧
    (∀ d < 16, ∃ t k' x' f, exec (.prstest d z r o) s = .next t ∧ s.WordDone t b g k k' x x' ∧
      s.WrotePred k k' x x' d s.cur.act f ∧ ∀ l ∈ s.cur.act, f l = true ↔ ∀ n ∈ k.absent, ¬inRun k x r z o l n)

open Sys2Proof Sys2Proof.Machine Sys2Proof.Claims in
/-- R132 and R297: `sld` and `sst` of a management core in its SRAM: the register takes the bytes at the address, or the bytes take the
register's low bytes; every other byte and register is as it was. -/
def Sys2Proof.Claims.ManagementAccessesReachTheSram : Prop :=
  ∀ (d a z o m : Nat) (s : State), d < 64 → a < 64 → z < 4 → o < 1024 → s.cur.ag = .mgmt m → s.cur.act ≠ [] →
    sok (s.mc m).sregs a = true →
    let at_ := scalarAddr (s.mc m).sregs a z o
    at_ + 2 ^ z ≤ 0x80000 →
    (∃ t, exec (.sld d a z o) s = .next t ∧ s.MgmtDone t m ∧ (t.mc m).sp = (s.mc m).sp ∧
      WroteScalar (s.mc m).sregs (t.mc m).sregs d (freshWords 2 (leAt (tgets 0 (s.mc m).sram at_ (2 ^ z)) 0 (2 ^ z)))) ∧
    (sok (s.mc m).sregs d = false → exec (.sst d a z o) s = .next (s.raise 0x04 0)) ∧
    (sok (s.mc m).sregs d = true →
      ∃ t sram, exec (.sst d a z o) s = .next t ∧ (s.setMc m { s.mc m with sram := sram }).MgmtDone t m ∧
        (t.mc m).sregs = (s.mc m).sregs ∧ (t.mc m).sp = (s.mc m).sp ∧
        (∀ j < 2 ^ z, tget 0 sram (at_ + j) = BitVec.ofNat 8 (sval (s.mc m).sregs d / 256 ^ j)) ∧
        (∀ n, n < at_ ∨ at_ + 2 ^ z ≤ n → tget 0 sram n = tget 0 (s.mc m).sram n))

open Sys2Proof Sys2Proof.Machine Sys2Proof.Claims in
/-- R132, R141 and R142: `sld` and `sst` of a group's scalar side. In the scratchpad window, where the bytes lie in the block's
allocation, a load of present lines takes the bytes, or raises `poisoned` where they have an uncorrectable error; a store writes them. An
access of memory or the sync window whose check passes loads or stores the bytes of its address. -/
def Sys2Proof.Claims.ScalarAccessesReachTheScratchpad : Prop :=
  ∀ (d a z o : Nat) (s : State) (b g : Nat) (k : Block) (x : Group), d < 64 → a < 64 → z < 4 → o < 1024 → SideIssues s b g k x →
    sok x.sregs a = true →
    let at_ := scalarAddr x.sregs a z o
    let bs := toLe (2 ^ z) (sval x.sregs d % 2 ^ (8 * 2 ^ z))
    (s.crowded k.core = false → scrBase ≤ at_ → at_ + 2 ^ z ≤ scrBase + k.lines * 512 → k.lines * 512 ≤ 2 ^ 20 →
    ((∀ n ∈ k.absent, ¬lineIn (at_ - scrBase) (2 ^ z) n) → s.holding k g 2 = false →
      (k.scrPoison (at_ - scrBase) (2 ^ z) = false → ∃ t k' x', exec (.sld d a z o) s = .next t ∧
        (s.dropAhead k g).ScalarSideDone t b g k k' x x' ∧
        x'.sp = x.sp ∧ WroteScalar x.sregs x'.sregs d (freshWords 2 (leAt (tgets 0 k.scr (at_ - scrBase) (2 ^ z)) 0 (2 ^ z)))) ∧
      (k.scrPoison (at_ - scrBase) (2 ^ z) = true → exec (.sld d a z o) s = .next ((s.dropAhead k g).raise 0x08 at_))) ∧
    ((∃ n ∈ k.absent, lineIn (at_ - scrBase) (2 ^ z) n) → exec (.sld d a z o) s = .next (s.hold k g 7 0 2 [b] false)) ∧
    (sok x.sregs d = true → k.rr = none →
      ∃ t k1 k' x', exec (.sst d a z o) s = .next t ∧ (s.updBlk b (fun _ => k1)).ScalarSideDone t b g k1 k' x x' ∧
        x'.sregs = x.sregs ∧ x'.sp = x.sp ∧ (∃ scr ab bad, k1 = { k with scr := scr, absent := ab, scrBad := bad }) ∧
        (∀ j < 2 ^ z, tget 0 k1.scr (at_ - scrBase + j) = BitVec.ofNat 8 (sval x.sregs d / 256 ^ j)) ∧
        (∀ n, n < at_ - scrBase ∨ at_ - scrBase + 2 ^ z ≤ n → tget 0 k1.scr n = tget 0 k.scr n) ∧
        (∀ n, n ∈ k1.absent ↔ n ∈ k.absent ∧ ¬lineIn (at_ - scrBase) (2 ^ z) n)) ∧
    (sok x.sregs d = false → exec (.sst d a z o) s = .next (s.raise 0x04 0))) ∧
    (∀ s0 la q, s.laneNow k 0 true true .rd at_ (2 ^ z) = (s0, la) → checks [la] = .ok → la.tgt = .va at_ → s0.holding k g 2 = false →
      s0.loadTgt k (.va at_) (2 ^ z) = q → q.2.2.crowded k.core = false →
      (q.2.1 = true → exec (.sld d a z o) s = .next (q.2.2.raise 0x08 at_)) ∧
      (q.2.1 = false → ∃ t k1 k' x1 x', exec (.sld d a z o) s = .next t ∧ q.2.2.bg b g = some (k1, x1) ∧
        q.2.2.ScalarSideDone t b g k1 k' x1 x' ∧ WroteScalar x.sregs x'.sregs d (freshWords 2 (leAt q.1 0 (2 ^ z))))) ∧
    (∀ s0 la u, s.laneNow k 0 true (sok x.sregs d) .wr at_ (2 ^ z) = (s0, la) → checks [la] = .ok → la.tgt = .va at_ → k.rr = none →
      s0.storeTgt k (.va at_) bs = u → u.crowded k.core = false →
      ∃ t k1 k' x1 x', exec (.sst d a z o) s = .next t ∧ u.bg b g = some (k1, x1) ∧ u.ScalarSideDone t b g k1 k' x1 x' ∧
        x'.sregs = x1.sregs)

open Sys2Proof Sys2Proof.Machine Sys2Proof.Claims in
/-- R149: a core reads what it has itself stored in a sector, and while its cache has room its store stands in its cache alone: the
homes hold what they held.
Where the spec leaves a point open, the clauses rest on the model's reading, log entry 33. -/
def Obligations.CoresReadTheirOwnStores : Prop :=
  ∀ (s : State) (c pa : Nat) (bs : List Byte), (∀ x ∈ (s.core c).cache, x.data.length = 32 ∧ x.dirty.length = 32 ∧ x.sent.length = 32) →
    bs ≠ [] → pa % 32 + bs.length ≤ 32 →
    ((s.cacheWrite c pa bs).cacheRead c pa bs.length).1 = bs ∧
    ((s.core c).cache.length < 8192 → (s.cacheWrite c pa bs).mem = s.mem ∧ ∀ n, n ≠ c → (s.cacheWrite c pa bs).core n = s.core n)

open Sys2Proof Sys2Proof.Machine Sys2Proof.Claims in
/-- R124, R154 and R231: an access that reaches its completion point leaves the outstanding ones, what has to be performed before it at the
scratchpads that it reaches and what it has itself to write there is written, its words stand in its group's window and its counter falls by
one; where its data are poisoned nothing is brought and the group's block takes `poisoned`. An access that waits for presence does not
complete. Where the spec leaves a point open, the clauses rest on the model's reading, log entry 8. -/
def Obligations.CompletionsBringTheirWords : Prop :=
  ∀ (s : State) (c : Nat),
    (∀ (o : Outst) (k : Block) (x : Group), firstOf (fun q => decide (q.id = o.id) && decide (q.held = 0)) (s.core c).outs = some o →
      s.bg o.blk o.grp = some (k, x) → x.heldLanes ≠ [] → (∀ y ∈ s.grids, y.failed = false ∧ ∃ q ∈ s.blocks, q.task = y.task) →
      let s1 := (s.flushFor c o.blk o.grp o.id o.spots).land1 c o
      (∀ q ∈ (s1.core c).outs, q.id ≠ o.id) ∧ s1.mem = s.mem ∧
      (o.poison = none → exec (.memoryAccessCompletion c o.id) s = .next (s1.updGrp o.blk o.grp (fun y => y.putWords o.writes))) ∧
      (∀ info, o.poison = some info → k.mode = .run → k.saving = .no →
        exec (.memoryAccessCompletion c o.id) s = .next (s1.takeFault o.blk ⟨0x08, o.grp, o.lanes, o.pc, info, o.pc⟩ false).endTasks)) ∧
    (∀ id, (∀ o ∈ (s.core c).outs, o.id = id → o.held ≠ 0) → exec (.memoryAccessCompletion c id) s = .next s)

open Sys2Proof Sys2Proof.Machine Sys2Proof.Claims in
/-- R143, R144, R198 and R228: a presence wait that ends performs its word as it would be issued, so a `prswait` whose lines are all present
goes on. A `prswait` with a line absent that has waited for more than `cr.prstimeout` units of 1,024 cycles raises `presence-timeout`, 0x09;
a cluster access parked on an empty or away slot for more than `cr.joinwin` units of 1,000 cycles raises `cluster-empty`, 0x0B. Either fault is
precise at the word. The lanes that it names and its info of 0 are the model's reading, log entry 79. -/
def Sys2Proof.Claims.PresenceWaitsEnd : Prop :=
  ∀ (s u : State) (b g : Nat) (k : Block) (x : Group) (w : Wait) (i : Instr), s.bg b g = some (k, x) → x.wait = some w → g < 16 →
    s.waitingWord (.group b g) = some (i, u, w) →
    (∀ o, w.on = .presence → timedWord i u = some o → exec (.presenceWaitResume b g) s = o) ∧
    (∀ k1 x1, u.Issues b g k1 x1 → x1.wait = some w →
      (∀ z r o, i = .prswait z r o → w.on = .presence → r < 128 → z < 8 → o < 128 → SlotsIn k1 x1 [(.v, r)] →
        (∀ l ∈ u.cur.act, runGood k1 x1 r z o l) →
        ((∀ l ∈ u.cur.act, ∀ n ∈ k1.absent, ¬inRun k1 x1 r z o l n) →
          ∃ t, exec (.presenceWaitResume b g) s = .next t ∧ PassedFrom (u.dropAhead k1 x1.num) t b g k1 x1) ∧
        ((∃ l ∈ u.cur.act, ∃ n ∈ k1.absent, inRun k1 x1 r z o l n) → x.inf.prstimeout ≠ 0 → w.start + x.inf.prstimeout * 1024 < s.cycle →
          exec (.presenceTimeout b g) s = .next (u.raiseAt (.group b g) 0x09 w.lanes w.pc 0))) ∧
      (∀ r, (loadRow i = some r ∨ storeRow i = some r) → (∃ d z a o sb, i = .vldx d z a o sb ∨ i = .vstx d z a o sb) → w.on = .slot →
        SlotsIn k1 x1 ((dataView r.z, r.d) :: r.slots) → checks (r.las u k1 x1) = .park →
        x.inf.joinwin ≠ 0 → w.start + x.inf.joinwin * 1000 < s.cycle →
        exec (.clusterJoinTimeout b g) s = .next (u.raiseAt (.group b g) 0x0B w.lanes w.pc 0)))

open Sys2Proof.Claims in
/-- R124, R142, R143, R154, R155, R156 and R157: a wide load of memory stands outstanding under its dependence counter, one of the scratchpad reads its bytes, a transposing one turns its block.
Where the spec leaves a point open, the clauses rest on the model's reading, log entry 8. -/
def Obligations.LoadsFollowTheirRules : Prop :=
  LoadsStandOutstanding ∧ ScratchpadLoadsReadTheirBytes ∧ TransposingLoadsTurnTheBlock

open Sys2Proof.Claims in
/-- R142, R143, R154, R155 and R157: a wide store of memory writes the bytes of its lanes in the core's cache, one of the scratchpad writes its bytes there. -/
def Obligations.StoresFollowTheirRules : Prop :=
  StoresWriteTheirLanes ∧ ScratchpadStoresWriteTheirBytes

open Sys2Proof.Claims in
/-- R143, R144, R158, R159 and R160: prefetches and phases, presence words and the ends of their waits. -/
def Obligations.PresenceAndPhaseWordsFollowTheirRules : Prop :=
  PrefetchAndPhaseComplete ∧ PresenceWordsActOnTheirRuns ∧ PresenceWaitsEnd

open Sys2Proof.Claims in
/-- R132, R142 and R297: the scalar loads and stores of a management core reach its own memory, those of a group its block's scratchpad and memory. -/
def Obligations.ScalarAccessesReachTheirMemory : Prop :=
  ManagementAccessesReachTheSram ∧ ScalarAccessesReachTheScratchpad

namespace Sys2Proof.Claims
open Sys2Proof.Machine

/-- Lanes of a group redirected to a place in code (R62, R71). -/
def sentTo (t : State) (b g : Nat) (ls : List Nat) (p : Land) : State :=
  t.updGrp b g (fun y => y.mapLanes ls (fun _ z => { z with pc := BitVec.ofNat 48 p.pc, hdr := p.hdr, entered := false, guardOff := false }))

/-- A management core past its word with the same registers, then at a place in code. -/
def McAt (s t : State) (m hdr pc : Nat) : Prop :=
  (∃ ms, t = { s with mcs := ms }) ∧ (∀ n, n ≠ m → t.mc n = s.mc n) ∧
  (∃ rs h, t.mc m = { s.mc m with sregs := rs, heads := h, pc := BitVec.ofNat 48 pc, hdr := hdr, entered := false, guardOff := false })

/-- A mask of the listed lanes. -/
def laneMask (ls : List Nat) : BitVec 32 := BitVec.ofNat 32 (maskOf ls)

/-- What R66 does to mask `n` when its enrolled and arrived fields become `e` and `a`: it releases where every enrolled lane has
arrived. -/
def releases (e a : BitVec 32) : Bool := decide (e ≠ 0 ∧ a = e)

/-- A word on rejoin mask `n` (R66, R74): the group's fields become `e` and `a`, the lanes `parks` park, and where that releases the mask
empties and its parked lanes become live; the other masks and every other part of the lanes are as they were. -/
structure MaskDone (x x0 : Group) (n : Nat) (e a : BitVec 32) (parks : List Nat) : Prop where
  rest : ∃ ls es as_, x0 = { x with lanes := ls, kEnr := es, kArr := as_ }
  enr : ∀ j, tget 0 x0.kEnr j = if j = n then (if releases e a then 0 else e) else tget 0 x.kEnr j
  arr : ∀ j, tget 0 x0.kArr j = if j = n then (if releases e a then 0 else a) else tget 0 x.kArr j
  lanes : ∀ l, l < 32 → x0.lane l = { x.lane l with st := (x0.lane l).st }
  freed : releases e a = true → ∀ l, l < 32 →
    (x0.lane l).st = if l ∈ parks ∨ (x.lane l).st = .parked n then .live else (x.lane l).st
  parked : releases e a = false → ∀ l, l < 32 → (x0.lane l).st = if l ∈ parks then .parked n else (x.lane l).st

/-- A word past with its own effect on the group alone: `x0` is the group with that effect. -/
def PassedWith (s t : State) (b g : Nat) (k : Block) (x0 : Group) : Prop :=
  ∃ k' x', s.WordDone t b g k k' x0 x' ∧ SameWindows k k' x0 x' ∧ s.KeptLatches x0 x' ∧ x0.SamePreds x'

/-- The value that a word gives every active lane of its destination slot (R32). -/
def GaveAll (s0 t : State) (b g : Nat) (k0 : Block) (x0 : Group) (act : List Nat) (vw : View) (d v : Nat) : Prop :=
  ∃ k' x', s0.WordDone t b g k0 k' x0 x' ∧ WroteSlot k0 k' x0 x' vw d act (fun _ => freshWords vw.parts v) ∧
    s0.KeptLatches x0 x' ∧ x0.SamePreds x'

/-- The masks of the slots of a cluster by state (R227). -/
def slotBits (c : Cluster) (p : SlotSt → Bool) : Nat :=
  maskOf ((upFrom 0 16).filter (fun n => p (tget SlotSt.empty c.slots n)))

/-- The status word of R225 and R226. -/
def clusterWord (st members slot : Nat) : Nat := st * 2 ^ 16 + members * 2 ^ 8 + slot

/-- The cluster that a block's partition and task have under a key (R225). -/
def HasKey (k : Block) (key : Nat) (c : Cluster) : Prop := c.part = k.trec.part ∧ c.task = k.task ∧ c.key.toNat = key

end Sys2Proof.Claims

open Sys2Proof Sys2Proof.Machine Sys2Proof.Claims in
/-- R71 and R62: `bra` moves the active lanes whose predicate says so to the word that its step names, and the other lanes of the set
go on; `bru` moves every active lane on one scalar predicate. A step that is refused raises its fault and moves no lane (R423). -/
def Sys2Proof.Claims.BranchesMoveTheirLanes : Prop :=
  ∀ (n c o : Nat) (s : State) (b g : Nat) (k : Block) (x : Group), n < 2 → c < 16 → o < 2 ^ 19 → s.Issues b g k x →
    let taken := s.cur.act.filter (fun l => (x.lane l).p c != decide (n = 1))
    let goes := spBit x.sp c != decide (n = 1)
    (taken = [] → ∃ t, exec (.bra n c o) s = .next t ∧ PassedFrom s t b g k x) ∧
    (∀ p, taken ≠ [] → s.jStep (sgn 19 o) = .inl p → ∃ t, PassedFrom s t b g k x ∧ exec (.bra n c o) s = .next (sentTo t b g taken p)) ∧
    (∀ e, taken ≠ [] → s.jStep (sgn 19 o) = .inr e → exec (.bra n c o) s = .next (s.raise e.1 e.2)) ∧
    (goes = false → ∃ t, exec (.bru n c o) s = .next t ∧ PassedFrom s t b g k x) ∧
    (∀ p, goes = true → s.jStep (sgn 19 o) = .inl p → ∃ t, PassedFrom s t b g k x ∧ exec (.bru n c o) s = .next (sentTo t b g s.cur.act p)) ∧
    (∀ e, goes = true → s.jStep (sgn 19 o) = .inr e → exec (.bru n c o) s = .next (s.raise e.1 e.2))

open Sys2Proof Sys2Proof.Machine Sys2Proof.Claims in
/-- R58 and R72: `jmpi` sends each active lane to the address in its own source lane, which becomes a chain head; nothing moves where a
lane's address mismatches its residue, lies at or above 2^48 or is no multiple of 4. -/
def Sys2Proof.Claims.IndirectJumpsTakeEachLanesTarget : Prop :=
  ∀ (a v : Nat) (s : State) (b g : Nat) (k : Block) (x : Group), (Instr.jmpi a v).wf = true → s.Issues b g k x →
    SlotsIn k x [(viewOf v, a)] →
    let dest := fun l => valOf (k.src x (viewOf v) a l)
    ((∀ l ∈ s.cur.act, goodOf (k.src x (viewOf v) a l) = true ∧ dest l < 2 ^ 48 ∧ dest l % 4 = 0) →
      ∃ t t0 k0 x0 k1 x1, PassedFrom s t0 b g k x ∧ exec (.jmpi a v) s = .next t ∧ t0.bg b g = some (k0, x0) ∧ t.bg b g = some (k1, x1) ∧
        (∃ bs, t = { t0 with blocks := bs }) ∧ (∀ n, n ≠ b → t.blk n = t0.blk n) ∧
        (∃ ls, x1 = { x0 with lanes := ls }) ∧ (∃ gs hs, k1 = { k0 with groups := gs, heads := hs }) ∧
        (∀ l, x1.lane l = if l ∈ s.cur.act then { x0.lane l with pc := BitVec.ofNat 48 (dest l), hdr := dest l, entered := false, guardOff := false }
          else x0.lane l) ∧
        (∀ h, h ∈ k1.heads ↔ h ∈ k.heads ∨ ∃ l ∈ s.cur.act, h = dest l)) ∧
    ((∃ l ∈ s.cur.act, ¬(goodOf (k.src x (viewOf v) a l) = true ∧ dest l < 2 ^ 48 ∧ dest l % 4 = 0)) →
      ∃ c lanes info, (c = 0x04 ∨ c = 0x05 ∨ c = 0x06) ∧ exec (.jmpi a v) s = .next (s.raiseFor c lanes info))

open Sys2Proof Sys2Proof.Machine Sys2Proof.Claims in
/-- R69, R70, R73 and R123: a `call` that spills nothing puts the return place in slots 0 and 1 of the new frame of each active lane,
deepens the lane by one and sends it to the target; every other word of the window is as it was. Where an active lane's ring is full the
word spills that lane's lowest resident frame, one for each lane of the word, and stands, with stall reason `WINDOW`. A group whose frame is
below 2 raises `window-overflow` before any effect. -/
def Sys2Proof.Claims.CallsOpenAFrame : Prop :=
  ∀ (i : Nat) (s : State) (b g : Nat) (k : Block) (x : Group) (p : Land), i < 2 ^ 24 → s.Issues b g k x →
    let burst := x.spilledIn s.cur.pc
    let spilt := burst.getD []
    (x.frame < 2 → exec (.call i) s = .next (s.raise 0x0C 0)) ∧
    (2 ≤ x.frame → s.jStep (sgn 24 i) = .inl p →
      (∀ l ∈ s.cur.act, (burst = none → (x.lane l).depth < 65535) ∧ (l ∈ spilt ∨ (x.lane l).depth + 1 - (x.lane l).lo < k.ringFrames x)) →
      let back := s.cur.pc + 4
      let idx := if s.cur.idx = s.cur.n then 0 else s.cur.idx + 1
      ∃ t t0 k0 x0 k1 x1, PassedFrom s t0 b g k x ∧ exec (.call i) s = .next t ∧ t0.bg b g = some (k0, x0) ∧ t.bg b g = some (k1, x1) ∧
        (∃ bs, t = { t0 with blocks := bs }) ∧ (∀ n, n ≠ b → t.blk n = t0.blk n) ∧
        (∃ ls w, x1 = { x0 with lanes := ls, win := w }) ∧ (∃ gs, k1 = { k0 with groups := gs }) ∧
        (∀ l, x1.lane l = if l ∈ s.cur.act then { x0.lane l with
            depth := (x0.lane l).depth + 1, pc := BitVec.ofNat 48 p.pc, hdr := p.hdr, entered := false, guardOff := false }
          else x0.lane l) ∧
        (∀ l ∈ s.cur.act, tget RWord.zero x1.win (k1.slotWord x1 .v 0 l) = fresh (BitVec.ofNat 32 (back % 2 ^ 32)) ∧
          tget RWord.zero x1.win (k1.slotWord x1 .v 1 l) = fresh (BitVec.ofNat 32 (idx * 65536 + back / 2 ^ 32))) ∧
        (∀ w, (∀ l ∈ s.cur.act, w ≠ k1.slotWord x1 .v 0 l ∧ w ≠ k1.slotWord x1 .v 1 l) → tget RWord.zero x1.win w = tget RWord.zero x.win w)) ∧
    (∀ l s1, 2 ≤ x.frame → s.jStep (sgn 24 i) = .inl p →
      (∀ j ∈ s.cur.act, (x.lane j).depth < 65535 ∧ (k.ringFrames x ≤ (x.lane j).depth + 1 - (x.lane j).lo →
        x.inf.spillbase + ((x.lane j).lo + 1) * x.frameBytes ≤ x.inf.spilllim)) →
      firstOf (fun j => decide (j ∉ spilt) && decide (k.ringFrames x ≤ (x.lane j).depth + 1 - (x.lane j).lo)) s.cur.act = some l →
      s.spill k x (x.lane l).lo l (upFrom 0 x.frame) = .inl s1 → s1.crowded k.core = false →
      exec (.call i) s =
        .next ((s1.updGrp b g (fun y => y.setLane l { y.lane l with lo := (x.lane l).lo + 1 })).waitSlots .window (spilt ++ [l])))

open Sys2Proof Sys2Proof.Machine Sys2Proof.Claims in
/-- R58, R70, R73 and R123: a `ret` that refills nothing takes each active lane to the place that slots 0 and 1 of its frame hold and one
level up; no register changes. Where the frame below an active lane's is not resident the word refills it and stands, with stall reason
`WINDOW`. Lanes at depth 0 raise `window-overflow` together, where every other active lane's return place is sound. -/
def Sys2Proof.Claims.ReturnsCloseAFrame : Prop :=
  ∀ (s : State) (b g : Nat) (k : Block) (x : Group), s.Issues b g k x → SlotsIn k x [(.v, 0), (.v, 1)] →
    let w0 := fun l => lowWord k x .v 0 l
    let w1 := fun l => lowWord k x .v 1 l
    let dest := fun l => (w0 l).val.toNat + 2 ^ 32 * ((w1 l).val.toNat % 2 ^ 16)
    let idx := fun l => (w1 l).val.toNat / 2 ^ 16 % 16
    ((∀ l ∈ s.cur.act, rok (w0 l) = true ∧ rok (w1 l) = true ∧ dest l % 4 = 0 ∧ 0 < (x.lane l).depth ∧ (x.lane l).lo < (x.lane l).depth) →
      ∃ t t0 k0 x0 k1 x1, PassedFrom s t0 b g k x ∧ exec .ret s = .next t ∧ t0.bg b g = some (k0, x0) ∧ t.bg b g = some (k1, x1) ∧
        (∃ bs, t = { t0 with blocks := bs }) ∧ (∀ n, n ≠ b → t.blk n = t0.blk n) ∧
        (∃ ls, x1 = { x0 with lanes := ls }) ∧ (∃ gs hs, k1 = { k0 with groups := gs, heads := hs }) ∧
        (∀ l, x1.lane l = if l ∈ s.cur.act then { x0.lane l with
            depth := (x0.lane l).depth - 1, pc := BitVec.ofNat 48 (dest l),
            hdr := if idx l = 0 then dest l else (dest l + 2 ^ 48 - 4 * idx l) % 2 ^ 48, entered := false, guardOff := false }
          else x0.lane l)) ∧
    (∀ l s1 ws, (∀ j ∈ s.cur.act, rok (w0 j) = true ∧ rok (w1 j) = true ∧ dest j % 4 = 0 ∧ 0 < (x.lane j).depth) →
      firstOf (fun j => decide ((x.lane j).depth - 1 < (x.lane j).lo)) s.cur.act = some l →
      s.refill k x ((x.lane l).depth - 1) l (upFrom 0 x.frame) [] = .inl (s1, ws) → s1.crowded k.core = false →
      exec .ret s = .next ((s1.updGrp b g (fun y => (y.putWords ws).setLane l { y.lane l with lo := (x.lane l).depth - 1 })).wait .window)) ∧
    (let none_ := s.cur.act.filter (fun l => decide ((x.lane l).depth = 0))
     none_ ≠ [] → (∀ l ∈ s.cur.act, (x.lane l).depth ≠ 0 → rok (w0 l) = true ∧ rok (w1 l) = true ∧ dest l % 4 = 0) →
      exec .ret s = .next (s.raiseFor 0x0C (maskOf none_) 0))

open Sys2Proof Sys2Proof.Machine Sys2Proof.Claims in
/-- R79: `bru`, `jmpi`, `call`, `ret` and `nop` on a management core: the core goes to its target, or past a `bru` whose predicate does not
say so; `call` leaves the return place in `s63` and `ret` takes it from there. That bits 51 to 48 of `s63` hold the place of the word in its
clause is the model's reading, log entry 19, and that a branch not taken resolves no step log entry 64. -/
def Obligations.ManagementCoresBranch : Prop :=
  ∀ (s : State) (m : Nat), s.cur.ag = .mgmt m → s.cur.act ≠ [] →
    (∃ t, exec .nop s = .next t ∧ s.MgmtDone t m ∧ (t.mc m).sregs = (s.mc m).sregs ∧ (t.mc m).sp = (s.mc m).sp) ∧
    (∀ n c o p, c < 8 → s.jStep (sgn 19 o) = .inl p → (spBit (s.mc m).sp c != decide (n = 1)) = true →
      ∃ t, exec (.bru n c o) s = .next t ∧ McAt s t m p.hdr p.pc ∧ (t.mc m).sregs = (s.mc m).sregs) ∧
    (∀ n c o, c < 8 → (spBit (s.mc m).sp c != decide (n = 1)) = false →
      ∃ t, exec (.bru n c o) s = .next t ∧ s.MgmtDone t m ∧ (t.mc m).sregs = (s.mc m).sregs ∧ (t.mc m).sp = (s.mc m).sp) ∧
    (∀ a, a < 64 → sok (s.mc m).sregs a = true → sval (s.mc m).sregs a < 2 ^ 48 → sval (s.mc m).sregs a % 4 = 0 →
      ∃ t, exec (.jmpi a 0) s = .next t ∧ McAt s t m (sval (s.mc m).sregs a) (sval (s.mc m).sregs a) ∧ (t.mc m).sregs = (s.mc m).sregs) ∧
    (∀ i p, s.jStep (sgn 24 i) = .inl p →
      ∃ t, exec (.call i) s = .next t ∧ McAt s t m p.hdr p.pc ∧
        WroteScalar (s.mc m).sregs (t.mc m).sregs 63
          (freshWords 2 (s.cur.pc + 4 + 2 ^ 48 * (if s.cur.idx = s.cur.n then 0 else s.cur.idx + 1)))) ∧
    (let r := sval (s.mc m).sregs 63
     let dest := r % 2 ^ 48
     let idx := r / 2 ^ 48 % 16
     sok (s.mc m).sregs 63 = true → dest % 4 = 0 →
      ∃ t, exec .ret s = .next t ∧ (t.mc m).sregs = (s.mc m).sregs ∧
        McAt s t m (if idx = 0 then dest else (dest + 2 ^ 48 - 4 * idx) % 2 ^ 48) dest)

open Sys2Proof Sys2Proof.Machine Sys2Proof.Claims in
/-- R66 and R74: `enrol`, `rejoin` and `strike` act on their mask as the rule's three lines say, and release as R66 does. -/
def Sys2Proof.Claims.RejoinMasksMeetAndRelease : Prop :=
  ∀ (n : Nat) (s : State) (b g : Nat) (k : Block) (x : Group), n < 8 → s.Issues b g k x →
    let enr := tget 0 x.kEnr n
    let arr := tget 0 x.kArr n
    let act := laneMask s.cur.act
    let comes := s.cur.act.filter (fun l => enr.getLsbD l)
    (∃ t x0, exec (.enrol n) s = .next t ∧ PassedWith s t b g k x0 ∧ (∃ es as_, x0 = { x with kEnr := es, kArr := as_ }) ∧
      (∀ j, tget 0 x0.kEnr j = if j = n then enr ||| act else tget 0 x.kEnr j) ∧
      (∀ j, tget 0 x0.kArr j = if j = n then arr &&& ~~~act else tget 0 x.kArr j)) ∧
    (∃ t x0, exec (.rejoin n) s = .next t ∧ PassedWith s t b g k x0 ∧ MaskDone x x0 n enr (arr ||| laneMask comes) comes) ∧
    (∃ t x0, exec (.strike n) s = .next t ∧ PassedWith s t b g k x0 ∧ MaskDone x x0 n (enr &&& ~~~act) (arr &&& ~~~act) [])

open Sys2Proof Sys2Proof.Machine Sys2Proof.Claims in
/-- R75: `spawn` makes a fibre of the lowest free lanes, as many as the lowest active lane of b says, at the address in its lane of a;
each new lane of the destination holds its ordinal and each active lane the mask of the new lanes. -/
def Sys2Proof.Claims.SpawnMakesFibres : Prop :=
  ∀ (d a c v : Nat) (s : State) (b g : Nat) (k : Block) (x : Group), (Instr.spawn d a c v).wf = true → s.Issues b g k x →
    SlotsIn k x [(viewOf v, d), (viewOf v, a), (viewOf v, c)] →
    let vw := viewOf v
    let l0 := lowest s.cur.act
    let dest := valOf (k.src x vw a l0)
    goodOf (k.src x vw a l0) = true → rok (lowWord k x vw c l0) = true → dest < 2 ^ 48 → dest % 4 = 0 →
    let free := lanes32.filter (fun l => decide ((x.lane l).st = .free))
    let new := free.take (lowWord k x vw c l0).val.toNat
    ∃ t x0 k0 k' x' f, exec (.spawn d a c v) s = .next t ∧ s.WordDone t b g k0 k' x0 x' ∧
      (∃ ls, x0 = { x with lanes := ls }) ∧
      (∀ l, x0.lane l = if l ∈ new then
          { st := .live, guardOff := false, deferred := false, pc := BitVec.ofNat 48 dest, pred := 1, depth := 0, lo := 0, hdr := dest,
            entered := false, starve := 0 } else x.lane l) ∧
      (∃ hs, k0 = { k with heads := hs }) ∧ WroteSlot k0 k' x0 x' vw d (new ++ s.cur.act) f ∧
      (∀ l ∈ s.cur.act, f l = freshWords vw.parts (maskOf new)) ∧
      (∀ j, j < new.length → f (nth 0 new j) = freshWords vw.parts j) ∧ s.KeptLatches x0 x' ∧ x0.SamePreds x'

open Sys2Proof Sys2Proof.Machine Sys2Proof.Claims in
/-- R57 and R76: `exit` frees every active lane, its record otherwise as it was, out of every rejoin mask and of the `msync` state, and
leaves the other lanes where they stood, save that a mask whose lanes have then all arrived releases; a group that still holds a fibre goes on. -/
def Sys2Proof.Claims.ExitFreesItsLanes : Prop :=
  ∀ (s : State) (b g : Nat) (k : Block) (x : Group), s.Issues b g k x →
    (∃ t t0, PassedFrom s t0 b g k x ∧
      ((∃ l < 32, l ∉ s.cur.act ∧ (x.lane l).st ≠ .free) → exec .exit s = .next t) ∧
      t = t0.updGrp b g (fun y => s.cur.act.foldl Group.exitLane y)) ∧
    (let y := s.cur.act.foldl Group.exitLane x
     (∀ l ∈ s.cur.act, y.lane l = { x.lane l with st := .free, guardOff := false, deferred := false, entered := false, starve := 0 } ∧ y.msM.getLsbD l = false ∧ y.msA.getLsbD l = false ∧
        ∀ j < 8, (tget 0 y.kEnr j).getLsbD l = false ∧ (tget 0 y.kArr j).getLsbD l = false) ∧
     (∀ l, l ∉ s.cur.act → ((y.lane l).st = (x.lane l).st ∨ (y.lane l).st = .live) ∧ y.lane l = { x.lane l with st := (y.lane l).st }) ∧
     y.win = x.win ∧ y.sregs = x.sregs ∧ y.sb = x.sb)

open Sys2Proof Sys2Proof.Machine Sys2Proof.Claims in
/-- R77: `nop` only passes; `yield` defers the active lanes, makes the clause end for the lanes that run in it as though Y were 1, and changes
nothing else. -/
def Sys2Proof.Claims.YieldDefersItsLanes : Prop :=
  ∀ (s : State) (b g : Nat) (k : Block) (x : Group), s.Issues b g k x →
    (∃ t, exec .nop s = .next t ∧ PassedFrom s t b g k x) ∧
    (∃ t x0, exec .yield s = .next t ∧ PassedWith { s with cur := { s.cur with y := true } } t b g k x0 ∧
      (∃ ls ye, x0 = { x with lanes := ls, yends := ye }) ∧
      (∀ l, x0.lane l = if l ∈ s.cur.act then { x.lane l with deferred := true } else x.lane l) ∧
      (∀ h, tget 0 x0.yends h = if h = s.cur.hdr then tget 0 x.yends h ||| maskOf s.cur.set else tget 0 x.yends h))

open Sys2Proof Sys2Proof.Machine Sys2Proof.Claims in
/-- R168: `fork` of a stream that runs only passes; else it starts the stream's run at the word after its descriptor, owned by the
group, with the descriptor's participation bits and no arrival of the stream left. `rdv` passes once the stream has stopped and waits
with reason `MATRIX` before. -/
def Obligations.ForkAndRendezvous : Prop :=
  ∀ (n : Nat) (s : State) (b g : Nat) (k : Block) (x : Group), n < 2 → s.Issues b g k x →
    let st := if n = 0 then k.ms else k.cs
    let e := if n = 0 then k.trec.mentry else k.trec.centry
    let la := s.vaLane k (lowest s.cur.act) true true .rd e 8
    let q := s.loadTgt k la.tgt 8
    let desc := leAt q.1 0 8
    (st.running = true → ∃ t, exec (.fork n) s = .next t ∧ PassedFrom s t b g k x) ∧
    (st.running = false → e = 0 → exec (.fork n) s = .next (s.raise 0x01 0)) ∧
    (∀ k1 x1, q.2.2.bg b g = some (k1, x1) → st.running = false → e ≠ 0 → checks [la] = .ok → q.2.1 = false →
      desc < (if n = 0 then 2 ^ 16 else 2 ^ 20) → s.quietGroup k.core b g = true → bitOf (q.2.2.core k.core).tracectl.toNat 2 = false →
      q.2.2.crowded k.core = false →
      ∃ t k0, exec (.fork n) s = .next t ∧ PassedFrom q.2.2 t b g k0 x1 ∧
        (∃ ms cs hs bars, k0 = { k1 with ms := ms, cs := cs, heads := hs, forked := true, bars := bars }) ∧
        (if n = 0 then k0.cs = k1.cs else k0.ms = k1.ms) ∧
        (let run := if n = 0 then k0.ms else k0.cs
         run.running = true ∧ run.owner = g ∧ run.pc = e + 8 ∧ run.hdr = e + 8 ∧ run.part = BitVec.ofNat 16 desc ∧ run.wait = none) ∧
        (∀ j < 16, (tget Bar.zero k0.bars j).seqarr.getLsbD n = false ∧ (tget Bar.zero k0.bars j).grparr = (tget Bar.zero k1.bars j).grparr ∧
          (tget Bar.zero k0.bars j).phase = (tget Bar.zero k1.bars j).phase)) ∧
    (st.running = false → ∃ t, exec (.rdv n) s = .next t ∧ PassedFrom s t b g k x) ∧
    (st.running = true → exec (.rdv n) s = .next (s.wait .matrix))

open Sys2Proof Sys2Proof.Machine Sys2Proof.Claims in
/-- R78: `msync`, with the group's stores to other scratchpads performed, meets the active lanes with those that wait under the same mask:
complete, every lane of the set goes on and the state is idle; else the active lanes park. A lane whose mask leaves itself out, or masks that differ, raise `mask-disagreement` for every
participant. -/
def Sys2Proof.Claims.MsyncMeetsUnderOneMask : Prop :=
  ∀ (a : Nat) (s : State) (b g : Nat) (k : Block) (x : Group), a < 128 → s.Issues b g k x → SlotsIn k x [(.v, a)] →
    (∀ l ∈ s.cur.act, goodOf (k.src x .v a l) = true) →
    let held := maskOf (lanes32.filter (fun l => decide ((x.lane l).st ≠ .free)))
    let m := fun l => valOf (k.src x .v a l) &&& held
    let m0 := m (lowest s.cur.act)
    let all := x.msA ||| laneMask s.cur.act
    let want := if x.msA = 0 then BitVec.ofNat 32 m0 else x.msM
    let agree := (∀ l ∈ s.cur.act, bitOf (m l) l = true ∧ m l = m0) ∧ (x.msA ≠ 0 → m0 = x.msM.toNat)
    let s1 := (s.flushGroup k.core b g).dropAhead k g
    (agree → ∃ t k1 x1 x0, exec (.msync a) s = .next t ∧ s1.bg b g = some (k1, x1) ∧ PassedWith s1 t b g k1 x0 ∧
      (∀ o ∈ (t.core k.core).outs, o.blk = b → o.grp = g → o.puts = []) ∧
      (∃ ls mm ma, x0 = { x1 with lanes := ls, msM := mm, msA := ma }) ∧
      (all = want → x0.msM = 0 ∧ x0.msA = 0 ∧ ∀ l < 32, x0.lane l = { x.lane l with
        st := if l ∈ s.cur.act ∨ (x.lane l).st = .parked 8 then .live else (x.lane l).st }) ∧
      (all ≠ want → x0.msM = want ∧ x0.msA = all ∧ ∀ l < 32, x0.lane l = { x.lane l with
        st := if l ∈ s.cur.act then .parked 8 else (x.lane l).st })) ∧
    (¬agree → exec (.msync a) s = .next (s.raiseFor 0x0D (maskOf s.cur.act ||| x.msA.toNat) 0))

open Sys2Proof Sys2Proof.Machine Sys2Proof.Claims in
/-- R135, R136, R137 and R394: `barar` of a group that has not arrived performs the group's stores to other scratchpads and sets its arrival
bit, and the phase that this completes moves on; one that has waited for the phase before passes with its core's reads refreshed; `barar`,
`barwt` and `barsync` of a group that has arrived wait with reason `BARRIER`; `barwt` of one that has not passes, with its core's reads
refreshed where it has arrived in an earlier phase. -/
def Sys2Proof.Claims.BarriersArriveAndWait : Prop :=
  ∀ (n : Nat) (s : State) (b g : Nat) (k : Block) (x : Group), n < 16 → g < 16 → s.Issues b g k x →
    bitOf (s.core k.core).tracectl.toNat 1 = false →
    let bar := tget Bar.zero k.bars n
    (bar.grparr.getLsbD g = true → exec (.barar n) s = .next (s.wait (.barrier n)) ∧ exec (.barwt n) s = .next (s.wait (.barrier n)) ∧
      (x.wait = none → exec (.barsync n) s = .next (s.wait (.barrier n)))) ∧
    (bar.grparr.getLsbD g = false → bitOf x.arrived n = false → ∃ t, exec (.barwt n) s = .next t ∧ PassedFrom s t b g k x) ∧
    (bar.grparr.getLsbD g = false → bitOf x.arrived n = true → ∃ t k1 x1, exec (.barwt n) s = .next t ∧
      (s.refresh k.core).bg b g = some (k1, x1) ∧ PassedFrom (s.refresh k.core) t b g k1 x1) ∧
    (bar.grparr.getLsbD g = false →
      let again := x.waited s.cur.pc n && bitOf x.arrived n
      let s1 := (if again then s.refresh k.core else s).flushGroup k.core b g
      ∃ t k1 x1 k0 x0, exec (.barar n) s = .next t ∧ s1.bg b g = some (k1, x1) ∧ PassedFrom s1 t b g k0 x0 ∧
        (∀ o ∈ (t.core k.core).outs, o.blk = b → o.grp = g → o.puts = []) ∧ x0 = { x1 with arrived := x1.arrived ||| 2 ^ n } ∧
        (∃ bars now, k0 = { k1 with bars := bars, barNow := now }) ∧ (∀ j, j ≠ n → tget Bar.zero k0.bars j = tget Bar.zero k.bars j) ∧
        (let all := bar.arrivals ||| 2 ^ g
         if all &&& k.participants n = k.participants n ∧ all &&& k.participants n ≠ 0
         then tget Bar.zero k0.bars n = ⟨0, bar.phase + 1, 0, 0⟩
         else (tget Bar.zero k0.bars n).grparr = bar.grparr ||| BitVec.ofNat 16 (2 ^ g) ∧
           (tget Bar.zero k0.bars n).phase = bar.phase ∧ (tget Bar.zero k0.bars n).seqarr = bar.seqarr))

open Sys2Proof Sys2Proof.Machine Sys2Proof.Claims in
/-- R136 and R137: a group whose `barsync` completes the phase goes on with its core's reads refreshed, and one whose `barsync` does not
waits on the phase. -/
def Sys2Proof.Claims.BarsyncArrivesThenWaits : Prop :=
  ∀ (n : Nat) (s : State) (b g : Nat) (k : Block) (x : Group), n < 16 → g < 16 → s.Issues b g k x → x.wait = none →
    (tget Bar.zero k.bars n).grparr.getLsbD g = false →
    let s1 := s.comeBar k g n
    ∃ k1 x1, s1.bg b g = some (k1, x1) ∧
      ((tget Bar.zero k1.bars n).grparr.getLsbD g = true → exec (.barsync n) s = .next (s1.wait (.barrier (16 + n)))) ∧
      ((tget Bar.zero k1.bars n).grparr.getLsbD g = false →
        ∃ t k2 x2, exec (.barsync n) s = .next t ∧ (s1.refresh k.core).bg b g = some (k2, x2) ∧ PassedFrom (s1.refresh k.core) t b g k2 x2)

open Sys2Proof Sys2Proof.Machine Sys2Proof.Claims in
/-- R223, R225 to R227: the cluster words give every active lane their status or slot word: a join takes the lowest empty slot or the
one asked for, a leave vacates the block's slot, and `clslot` reads the slots by state. A join waits for the block's own accesses that
have resolved to its own scratchpad, a leave for every `vldx` and `vstx` that a group of the block has issued, those to its own slot too.
That a waiting join reports `COUNTER` is the model's choice, log entry 80. -/
def Obligations.ClusterWordsAnswerTheirStatus : Prop :=
  ∀ (s : State) (b g : Nat) (k : Block) (x : Group), s.Issues b g k x →
    let die := dieOf k.core
    (∀ d a c v, (Instr.cljoin d a c v).wf = true → SlotsIn k x [(viewOf v, d), (viewOf v, a), (viewOf v, c)] →
      let l0 := lowest s.cur.act
      let key := (lowWord k x (viewOf v) a l0).val.toNat
      let req := (lowWord k x (viewOf v) c l0).val.toNat % 256
      rok (lowWord k x (viewOf v) a l0) = true → rok (lowWord k x (viewOf v) c l0) = true →
      (16 ≤ req ∧ req < 255 → exec (.cljoin d a c v) s = .next (s.raise 0x01 0)) ∧
      ((req < 16 ∨ req = 255) → s.owes k (fun j => decide (j = b)) = true → exec (.cljoin d a c v) s = .next (s.wait .counter)) ∧
      ((req < 16 ∨ req = 255) → s.owes k (fun j => decide (j = b)) = false → ∃ t s1 k0 x0 st n slot, exec (.cljoin d a c v) s = .next t ∧
        s1.bg b g = some (k0, x0) ∧ (∃ w, x0 = { x with wait := w }) ∧
        GaveAll s1 t b g k0 x0 s.cur.act (viewOf v) d (clusterWord st n slot) ∧
        (st ≠ 0 → s1 = s) ∧
        (∀ cid sl, k.cl = some (cid, sl) → st = 3 ∧ n = s.membersOf die cid ∧ slot = sl) ∧
        (k.cl = none → (∀ cl ∈ (s.die die).clusters, s.cluster die cl.cid = some cl) →
          (∀ cl1 ∈ (s.die die).clusters, ∀ cl2 ∈ (s.die die).clusters, HasKey k key cl1 → HasKey k key cl2 → cl1 = cl2) →
          ((∀ cl ∈ (s.die die).clusters, ¬HasKey k key cl) →
            (s.clusterRoom die k.trec.part ≤ s.clustersOf die k.trec.part → st = 2 ∧ n = 0 ∧ slot = 255) ∧
            (s.clustersOf die k.trec.part < s.clusterRoom die k.trec.part → st = 0 ∧ n = 1)) ∧
          (∀ cl ∈ (s.die die).clusters, HasKey k key cl →
            let empty := fun (j : Nat) => j < 16 ∧ tget SlotSt.empty cl.slots j = .empty
            ((∃ j, empty j ∧ (req = 255 ∨ j = req)) → st = 0 ∧ empty slot ∧ (req = 255 → ∀ j, empty j → slot ≤ j)) ∧
            ((∀ j, empty j → req ≠ 255 ∧ j ≠ req) → st = 1 ∧ n = cl.members ∧ slot = 255)) ∧
          (st = 0 → ∃ cid cl, k0.cl = some (cid, slot) ∧ s1.cluster die cid = some cl ∧ HasKey k key cl ∧
            tget SlotSt.empty cl.slots slot = .occupied b ∧ n = cl.members ∧ (req ≠ 255 → slot = req))))) ∧
    (∀ d v, (Instr.clslot d v).wf = true → SlotsIn k x [(viewOf v, d)] → ∃ t,
      exec (.clslot d v) s = .next t ∧
      (k.cl = none → GaveAll s t b g k x s.cur.act (viewOf v) d (255 * 2 ^ 56)) ∧
      (∀ cid slot c, k.cl = some (cid, slot) → s.cluster die cid = some c →
        GaveAll s t b g k x s.cur.act (viewOf v) d (slot * 2 ^ 56 + slotBits c (fun q => match q with | .away _ => true | _ => false) * 2 ^ 32 +
          slotBits c (fun q => match q with | .vacated => true | _ => false) * 2 ^ 16 + slotBits c (fun q => match q with | .occupied _ => true | _ => false)))) ∧
    (∀ d v, (Instr.clleave d v).wf = true → SlotsIn k x [(viewOf v, d)] → ∃ t,
      exec (.clleave d v) s = .next t ∧
      (k.cl = none → GaveAll s t b g k x s.cur.act (viewOf v) d (clusterWord 4 0 255)) ∧
      (∀ cid slot, k.cl = some (cid, slot) → s.owesMembers k = true → t = s.wait .counter) ∧
      (∀ cid slot, k.cl = some (cid, slot) → s.owesMembers k = false →
        let s1 := s.leaveCluster k die
        ∃ k0, s1.bg b g = some (k0, x) ∧ k0.cl = none ∧
          GaveAll s1 t b g k0 x s.cur.act (viewOf v) d (clusterWord 0 (s1.membersOf die cid) slot)))

open Sys2Proof.Claims in
/-- R135, R136 and R137: the words of the block barriers arrive and wait. -/
def Obligations.BlockBarriersMeet : Prop :=
  BarriersArriveAndWait ∧ BarsyncArrivesThenWaits

open Sys2Proof.Claims in
/-- R58, R69 and R73: calls open a frame and returns close it.
Where the spec leaves a point open, the clauses rest on the model's reading, log entries 19 and 28. -/
def Obligations.FramesOpenAndClose : Prop :=
  CallsOpenAFrame ∧ ReturnsCloseAFrame

open Sys2Proof.Claims in
/-- R66, R74 and R78: the words of the rejoin masks meet and release their lanes. -/
def Obligations.MasksMeetAndRelease : Prop :=
  RejoinMasksMeetAndRelease ∧ MsyncMeetsUnderOneMask

open Sys2Proof.Claims in
/-- R75, R76 and R77: fibres begin, are deferred and end.
Where the spec leaves a point open, the clauses rest on the model's reading, log entries 14 and 29. -/
def Obligations.FibresBeginDeferAndEnd : Prop :=
  SpawnMakesFibres ∧ ExitFreesItsLanes ∧ YieldDefersItsLanes

open Sys2Proof.Claims in
/-- R58, R62, R71 and R72: branches and indirect jumps move their lanes.
That a branch which no lane takes resolves no step is the model's reading, log entry 64. -/
def Obligations.JumpsMoveTheirLanes : Prop :=
  BranchesMoveTheirLanes ∧ IndirectJumpsTakeEachLanesTarget

namespace Sys2Proof.Claims
open Sys2Proof.Machine

/-- What an atomic is (R249): its operands and view, whether it takes x and b2, writes, returns its old value, may name a predicate, the
bound of its option field, and its new value and success from the width in bits, the old value, x, b2 and the option. -/
structure AtomRow where
  d : Nat
  a : Nat
  b : Nat
  v : Nat
  useX : Bool
  useB2 : Bool
  writes : Bool
  gives : Bool
  tests : Bool
  opts : Nat
  f : Nat → Nat → Nat → Nat → Nat → Nat × Bool

/-- The twelve atomics of R249. -/
def atomRow : Instr → Option AtomRow
  | .atadd d a b v => some ⟨d, a, b, v, true, false, true, true, false, 1, fun w old x _ _ => ((old + x) % 2 ^ w, true)⟩
  | .atinc d a b v => some ⟨d, a, b, v, true, false, true, true, false, 1, fun w old x _ _ => (if x ≤ old then 0 else (old + 1) % 2 ^ w, true)⟩
  | .atbadd d a b v => some ⟨d, a, b, v, true, true, true, true, true, 8, fun _ old x b2 _ => if old + x ≤ b2 then (old + x, true) else (old, false)⟩
  | .atmin d a b v => some ⟨d, a, b, v, true, false, true, true, false, 2, fun w old x _ o =>
      (if o = 1 then (if sgn w x ≤ sgn w old then x else old) else min old x, true)⟩
  | .atmax d a b v => some ⟨d, a, b, v, true, false, true, true, false, 2, fun w old x _ o =>
      (if o = 1 then (if sgn w old < sgn w x then x else old) else max old x, true)⟩
  | .atand d a b v => some ⟨d, a, b, v, true, false, true, true, false, 1, fun _ old x _ _ => (old &&& x, true)⟩
  | .ator d a b v => some ⟨d, a, b, v, true, false, true, true, false, 1, fun _ old x _ _ => (old ||| x, true)⟩
  | .atxor d a b v => some ⟨d, a, b, v, true, false, true, true, false, 1, fun _ old x _ _ => (old ^^^ x, true)⟩
  | .atxchg d a b v => some ⟨d, a, b, v, true, false, true, true, false, 1, fun _ _ x _ _ => (x, true)⟩
  | .atcas d a b v => some ⟨d, a, b, v, true, true, true, true, true, 8, fun _ old x b2 _ => if old = x then (b2, true) else (old, false)⟩
  | .atld d a v => some ⟨d, a, 0, v, false, false, false, true, false, 1, fun _ old _ _ _ => (old, true)⟩
  | .atred a b v => some ⟨0, a, b, v, true, false, true, false, false, 1, fun w old x _ _ =>
      (f32Add .rne (old % 2 ^ 32) (x % 2 ^ 32) + (if w = 64 then 2 ^ 32 * f32Add .rne (old / 2 ^ 32) (x / 2 ^ 32) else 0), true)⟩
  | _ => none

/-- The slots of an address word (R249). -/
def addressSlots (v a : Nat) : List (View × Nat) := if v = 0 then [(.v, a), (.v, a + 1)] else [(viewOf v, a)]

/-- An address word in lane `l`. -/
def addressWords (k : Block) (x : Group) (v a l : Nat) : List RWord :=
  if v = 0 then [lowWord k x .v a l, lowWord k x .v (a + 1) l] else k.src x (viewOf v) a l

/-- The slots that an atomic reads and writes. -/
def AtomRow.slots (r : AtomRow) : List (View × Nat) :=
  addressSlots r.v r.a ++ (if r.gives then [(viewOf r.v, r.d)] else []) ++ (if r.useX then [(viewOf r.v, r.b)] else [])
    ++ (if r.useB2 then [(viewOf r.v, r.b + 1)] else [])

/-- The bytes of an atomic's word. -/
def AtomRow.bytes (r : AtomRow) : Nat := if r.v = 0 then 4 else 8

/-- An operand of an atomic in its lane; none counts as 0. -/
def AtomRow.operand (r : AtomRow) (k : Block) (x : Group) (used : Bool) (n l : Nat) : List RWord :=
  if used then k.src x (viewOf r.v) n l else []

/-- An atomic has acted once for the active lanes at its home, from `u`, and the state is `t` then (R249): every active lane has the old
value, the named predicate the success, the word in memory the new value; with its R bit the core's reads are refreshed; one that gives its
old value ends what the core has fetched ahead for the group (R397). -/
def AtomicActs (u t : State) (b g : Nat) (k : Block) (x : Group) (r : AtomRow) (ctl pa xv yv : Nat) : Prop :=
  let n := r.bytes
  let s2 := (u.sectorHome k.core pa n).recall pa n
  let old := s2.homeLe pa n
  let new := r.f (8 * n) old xv yv (ctl / 32)
  let s3 := (if r.writes then s2.homeWrite pa (toLe n new.1) else s2)
  let s4 := if r.gives then s3.dropAhead k g else s3
  ∃ t0 k0 x0 k' x', t = (if bitOf ctl 4 then t0.refresh k.core else t0) ∧ s4.bg b g = some (k0, x0) ∧
    (∃ scr bad ab gs, k0 = { k with scr := scr, scrBad := bad, absent := ab, groups := gs }) ∧ (∃ sb, x0 = { x with sb := sb }) ∧
    s4.WordDone t0 b g k0 k' x0 x' ∧ s4.KeptLatches x0 x' ∧
    (if r.gives then WroteSlot k0 k' x0 x' (viewOf r.v) r.d u.cur.act (fun _ => freshWords (viewOf r.v).parts old) else SameWindows k0 k' x0 x') ∧
    (∀ l p, p < 16 → (x'.lane l).p p =
      if l ∈ u.cur.act ∧ r.tests = true ∧ ctl / 32 ≠ 0 ∧ p = ctl / 32 then new.2 else (x.lane l).p p)

/-- The value `u` in slot `d` of view 01 and `v` in slot `d + 1`, for every active lane (R372). -/
def GaveTwo (s0 t : State) (b g : Nat) (k0 : Block) (x0 : Group) (act : List Nat) (d u v : Nat) : Prop :=
  ∃ k' x', s0.WordDone t b g k0 k' x0 x' ∧ s0.KeptLatches x0 x' ∧ x0.SamePreds x' ∧ k'.bwin = k0.bwin ∧
    (∀ l ∈ act, tgets RWord.zero x'.win (k0.slotWord x0 .w d l) 2 = freshWords 2 u ∧
      tgets RWord.zero x'.win (k0.slotWord x0 .w (d + 1) l) 2 = freshWords 2 v) ∧
    (∀ w, (∀ l ∈ act, ∀ n, (n = d ∨ n = d + 1) → w < k0.slotWord x0 .w n l ∨ k0.slotWord x0 .w n l + 2 ≤ w) →
      tget RWord.zero x'.win w = tget RWord.zero x0.win w)

/-- The parts of a word that an agent of copies passes: a group, or the copy stream of a block (R264). `k` is its block, `x` the group
whose registers it reads, `act` its active lanes, `l0` the lane of its once-per-group operands. -/
def CopyIssues (s : State) (b g : Nat) (k : Block) (x : Group) (act : List Nat) (l0 : Nat) (str : Bool) : Prop :=
  if str then s.cur.ag = .copy b ∧ s.blk b = some k ∧ k.grp k.cs.og = some x ∧ g = k.cs.og ∧ act = [] ∧ l0 = 0
  else s.Issues b g k x ∧ act = s.cur.act ∧ l0 = lowest s.cur.act

/-- A block changed alone, from a state. -/
def OnlyBlk (s t : State) (b : Nat) (k : Block) : Prop :=
  (∃ bs, t = { s with blocks := bs }) ∧ (∀ n, n ≠ b → t.blk n = s.blk n) ∧ t.blk b = some k

/-- A word of class C is past from `s0`, the state with its own effect: a group's as ever; the copy stream stands at the next word, and
at the end of its clause R264 goes on from there. -/
def CopyPast (s0 t : State) (b g : Nat) (k : Block) (x : Group) (str : Bool) : Prop :=
  if str then ∃ t0, OnlyBlk s0 t0 b { k with cs := { k.cs with pc := s0.cur.pc + 4, again := false, wait := none } } ∧
    t = if s0.cur.pc = s0.cur.hdr + 4 * s0.cur.n then t0.copyEnd b else t0
  else PassedFrom s0 t b g k x

/-- A packet is posted (R253, R259): the next index is claimed, and its slot is written where it is free; else the agent waits with
the claim held (R260). -/
def Posts (t : State) (b g : Nat) (k : Block) (x : Group) (act : List Nat) (l0 : Nat) (str : Bool) (q : CQueue) (pkt : List Byte) (out : Out) : Prop :=
  let i := t.qWidx q.off
  let t1 := (t.qClaim q.off).2
  (t1.qFree q.off i = true → ∃ u, out = .next u ∧ CopyPast (t1.qWrite q i pkt) u b g k x str) ∧
  (t1.qFree q.off i = false → out = .next ((t1.setClaim ⟨k, x, act, l0, str⟩ (some ⟨q.off, i, pkt⟩)).wait .copyRoom))

/-- Every lane of a 64-byte operand of a view is good (R259). -/
def Good64 (k : Block) (x : Group) (vw : View) (n : Nat) : Prop := ∀ l < 16 / vw.parts, goodOf (k.src x vw n l) = true

/-- The 64 bytes of such an operand. -/
def bytes64 (k : Block) (x : Group) (vw : View) (n : Nat) : List Byte :=
  ((upFrom 0 (16 / vw.parts)).map (fun l => ((k.src x vw n l).map (fun w => toLe 4 w.val.toNat)).flatten)).flatten

/-- The owner word of a packet of a block's agent (R254). -/
def ownerOf (k : Block) (g : Nat) (str : Bool) : Nat :=
  2 ^ 31 + (if str then 2 ^ 26 else 0) + 2 ^ 18 * (k.core % 256) + 2 ^ 12 * (k.resNo % 64) + 2 ^ 8 * (g % 16) + k.seq % 256

end Sys2Proof.Claims

open Sys2Proof Sys2Proof.Machine Sys2Proof.Claims in
/-- R247, R249 and R160: an atomic whose address word, control byte, page and operands are good, past the publication that its P asks for,
acts once for the group at its home. Every active lane takes the old value, the named predicate takes the success, the word in memory the
new value, and with its R bit the core's reads are refreshed; one that gives its old value ends what the core has fetched ahead for the group
(R397). An illegal control byte and a misaligned address raise their faults.
Where the spec leaves a point open, the clauses rest on the model's reading, log entries 22 and 23. -/
def Obligations.AtomicsActAtTheHome : Prop :=
  ∀ (i : Instr) (r : AtomRow) (s : State) (b g : Nat) (k : Block) (x : Group), i.wf = true → atomRow i = some r → s.Issues b g k x →
    SlotsIn k x r.slots → k.rr = none →
    let l0 := lowest s.cur.act
    let aw := addressWords k x r.v r.a l0
    let ctl := valOf aw / 2 ^ 56
    let va := valOf aw % 2 ^ 56
    let n := r.bytes
    let xs := r.operand k x r.useX r.b l0
    let ys := r.operand k x r.useB2 (r.b + 1) l0
    let legal := ctl % 8 ≤ 5 ∧ (ctl % 8 = 0 ∨ ctl / 8 % 4 ≠ 0) ∧ ctl / 32 < r.opts
    goodOf aw = true →
    (¬legal → exec i s = .next (s.raise 0x01 0)) ∧
    (legal → va % n ≠ 0 → exec i s = .next (s.raise 0x05 va)) ∧
    (legal → va % n = 0 → ∀ pa s1, s.homeAt k va (if r.writes then [.wr, .rd] else [.rd]) = .ok pa → s.inMirror k.trec.part pa = false →
      goodOf xs = true → goodOf ys = true → s.poisonedIn pa n = false →
      s.pubFirst k x.wait (bitOf ctl 3) (ctl % 8) = .inr s1 →
      (bitOf ctl 3 = false → s1 = s) ∧
      (∃ t, exec i s = .next t ∧ AtomicActs (s1.gateLeave (homeDie pa) b g) t b g k x r ctl pa (valOf xs) (valOf ys)))

namespace Sys2Proof.Claims
open Sys2Proof.Machine

/-- A word of the task forms acts at its record: the record is good, what it publishes first is published, and `s2` is the state in which
it finds the record at its home (R237, R250). -/
def AtRecord (s : State) (k : Block) (x : Group) (pa : Nat) (s2 : State) : Prop :=
  s.poisonedIn pa 128 = false ∧
    ∃ s1, s.pubFirst k x.wait true 3 = .inr s1 ∧ s2 = s1.sectorHome k.core pa 128

/-- All ones in a lane of a view (R250, R251). -/
def allOnes (v : Nat) : Nat := 2 ^ (32 * (viewOf v).parts) - 1

/-- A word answers `v` in every active lane and has changed the state to `s0` beside (R32). -/
def Answers (s0 t : State) (b g : Nat) (x : Group) (act : List Nat) (vw : View) (d v : Nat) : Prop :=
  ∃ k0 x0 sb, s0.bg b g = some (k0, x0) ∧ x0 = { x with sb := sb } ∧ GaveAll s0 t b g k0 x0 act vw d v

/-- A record whose counter has become `n`, released where that is 0 (R237, R250). -/
def counterSet (s2 : State) (pa va n : Nat) : State :=
  if n = 0 then (s2.homeWrite (pa + 0x2C) (toLe 4 0)).release pa va else s2.homeWrite (pa + 0x2C) (toLe 4 n)

end Sys2Proof.Claims

open Sys2Proof Sys2Proof.Machine Sys2Proof.Claims in
/-- R250: `tkdec` and `tkadd` change the counter of a waiting record where it stays in range, release the record where it reaches 0, and
answer the old counter; a refused one changes nothing and answers all ones. -/
def Sys2Proof.Claims.CountersChangeInRange : Prop :=
  ∀ (s s2 : State) (b g : Nat) (k : Block) (x : Group) (d a c v pa : Nat), s.Issues b g k x →
    let aw := addressWords k x v a (lowest s.cur.act)
    let w := lowWord k x (viewOf v) c (lowest s.cur.act)
    let dep := s2.homeLe (pa + 0x2C) 4
    goodOf aw = true → s.recordAt k (valOf aw) [.wr, .rd] = .ok pa → AtRecord s k x pa s2 →
    ((Instr.tkdec d a v).wf = true → SlotsIn k x (addressSlots v a ++ [(viewOf v, d)]) →
      (s2.taskState pa = 0 ∧ 0 < dep ∧ dep ≤ 2 ^ 31 → ∃ t, exec (.tkdec d a v) s = .next t ∧
        Answers (counterSet s2 pa (valOf aw) (dep - 1)) t b g x s.cur.act (viewOf v) d dep) ∧
      (s2.taskState pa ≠ 0 ∨ dep = 0 → ∃ t, exec (.tkdec d a v) s = .next t ∧ Answers s2 t b g x s.cur.act (viewOf v) d (allOnes v))) ∧
    ((Instr.tkadd d a c v).wf = true → SlotsIn k x (addressSlots v a ++ [(viewOf v, d), (viewOf v, c)]) → rok w = true →
      let new := (dep : Int) + w.val.toInt
      (s2.taskState pa = 0 ∧ 0 ≤ new ∧ new ≤ 2 ^ 31 - 1 → ∃ t, exec (.tkadd d a c v) s = .next t ∧
        Answers (counterSet s2 pa (valOf aw) new.toNat) t b g x s.cur.act (viewOf v) d dep) ∧
      (s2.taskState pa ≠ 0 ∨ new < 0 ∨ 2 ^ 31 - 1 < new → ∃ t, exec (.tkadd d a c v) s = .next t ∧
        Answers s2 t b g x s.cur.act (viewOf v) d (allOnes v)))

open Sys2Proof Sys2Proof.Machine Sys2Proof.Claims in
/-- R250: `tkmake` copies a template with state 0 over a record that is neither ready nor running, releases it where its counter is 0, and
answers 0; over one that is it changes nothing and answers 1. -/
def Sys2Proof.Claims.TemplatesBecomeRecords : Prop :=
  ∀ (s s2 : State) (b g : Nat) (k : Block) (x : Group) (d a c v pa pb : Nat), s.Issues b g k x → (Instr.tkmake d a c v).wf = true →
    SlotsIn k x (addressSlots v a ++ addressSlots v c ++ [(viewOf v, d)]) →
    let aw := addressWords k x v a (lowest s.cur.act)
    let cw := addressWords k x v c (lowest s.cur.act)
    let bs := patch (s2.homeBytes pb 128) 0x3F [0]
    goodOf aw = true → goodOf cw = true → s.recordAt k (valOf aw) [.wr, .rd] = .ok pa → s.recordAt k (valOf cw) [.rd] = .ok pb →
    s.inMirror k.trec.part pa = false → s.inMirror k.trec.part pb = false → s.poisonedIn pb 128 = false → AtRecord s k x pa s2 →
    ((s2.taskState pa = 1 ∨ s2.taskState pa = 2) → ∃ t, exec (.tkmake d a c v) s = .next t ∧
      Answers s2 t b g x s.cur.act (viewOf v) d 1) ∧
    (¬(s2.taskState pa = 1 ∨ s2.taskState pa = 2) → leAt bs 0x2C 4 ≠ 0 → ∃ t, exec (.tkmake d a c v) s = .next t ∧
      Answers (s2.homeWrite pa bs) t b g x s.cur.act (viewOf v) d 0) ∧
    (¬(s2.taskState pa = 1 ∨ s2.taskState pa = 2) → leAt bs 0x2C 4 = 0 → ∃ t, exec (.tkmake d a c v) s = .next t ∧
      Answers ((s2.homeWrite pa bs).release pa (valOf aw)) t b g x s.cur.act (viewOf v) d 0)

open Sys2Proof Sys2Proof.Machine Sys2Proof.Claims in
/-- R239, R240 and R251: `tktake` takes the lowest index that its die's share of the block's own grid still holds, after a steal where the
share is empty, and answers all ones where no die's share holds one. -/
def Sys2Proof.Claims.IndicesAreTaken : Prop :=
  ∀ (s : State) (b g : Nat) (k : Block) (x : Group) (d v : Nat), s.Issues b g k x → (Instr.tktake d v).wf = true →
    SlotsIn k x [(viewOf v, d)] →
    (s.grid k.task = none → ∃ t, exec (.tktake d v) s = .next t ∧ GaveAll s t b g k x s.cur.act (viewOf v) d (allOnes v)) ∧
    (∀ q, s.grid k.task = some q → (∀ e ∈ q.dies, untaken (q.share e) = 0) → untaken (q.share (dieOf k.core)) = 0 →
      ∃ t, exec (.tktake d v) s = .next t ∧ GaveAll s t b g k x s.cur.act (viewOf v) d (allOnes v)) ∧
    (∀ q n q', s.grid k.task = some q → q.take (dieOf k.core) = some (n, q') → ∃ t, exec (.tktake d v) s = .next t ∧
      GaveAll (s.updGrid k.task (fun _ => q')) t b g k x s.cur.act (viewOf v) d n) ∧
    (∀ q q1 n q', s.grid k.task = some q → q.take (dieOf k.core) = none → q.steal (dieOf k.core) true = some q1 →
      q1.take (dieOf k.core) = some (n, q') → ∃ t, exec (.tktake d v) s = .next t ∧
      GaveAll ((s.updGrid k.task (fun _ => q')).countSteal (dieOf k.core)) t b g k x s.cur.act (viewOf v) d n)

open Sys2Proof.Claims in
/-- R237, R239, R240, R250 and R251: the task forms act on their record at its home and answer what they found there; `tktake` answers an
index of the block's own grid. -/
def Obligations.TaskWordsAnswerTheirRecord : Prop :=
  CountersChangeInRange ∧ TemplatesBecomeRecords ∧ IndicesAreTaken

namespace Sys2Proof.Claims
open Sys2Proof.Machine

/-- The argument of a call: lanes 0 to 7 of a slot (R373). -/
def argOf (k : Block) (x : Group) (a : Nat) : List Nat := (upFrom 0 8).map (fun l => valOf (k.src x .w a l))

/-- A word that calls names a method of an object and its operands match their residues (R372). -/
def Names (s : State) (k : Block) (x : Group) (a c obj meth : Nat) : Prop :=
  let w := k.src x .w c (lowest s.cur.act)
  goodOf w = true ∧ (∀ l < 8, goodOf (k.src x .w a l) = true) ∧ valOf w = obj * 256 + meth ∧ obj < 64 ∧ meth < 32 ∧
    meth < s.methodsOf k.trec.part obj

/-- The group has noted a position of the log (R372). -/
def Noted (s s0 : State) (b g : Nat) (x : Group) (pos : Nat) (k0 : Block) (x0 : Group) : Prop :=
  s0.bg b g = some (k0, x0) ∧ x0 = { x with roseen := BitVec.ofNat 64 (max x.roseen.toNat pos) } ∧ ∃ bs, s0 = { s with blocks := bs }

end Sys2Proof.Claims

open Sys2Proof Sys2Proof.Machine Sys2Proof.Claims in
/-- R372 and R373: `rocall` queues its call behind the partition's unsent ones and waits; once the call is placed it answers its position,
which the group notes. -/
def Sys2Proof.Claims.CallsAnswerTheirPosition : Prop :=
  ∀ (s : State) (b g : Nat) (k : Block) (x : Group) (d a c : Nat), s.Issues b g k x → (Instr.rocall d a c).wf = true →
    SlotsIn k x [(.w, d), (.w, a), (.w, c)] →
    (∀ obj meth s1, x.calling = false → Names s k x a c obj meth →
      s.pubFirst k x.wait true 3 = .inr s1 → s1.callRoom k.trec.part = true →
      ∃ t k0 x0, exec (.rocall d a c) s = .next t ∧ t.bg b g = some (k0, x0) ∧ x0.calling = true ∧ x0.roPos = none ∧ x0.lanes = x.lanes ∧
        (t.part k.trec.part).unsent = (s1.part k.trec.part).unsent ++ [(callEntry s1.pkgId k.trec.part obj meth (argOf k x a), some (b, g))]) ∧
    (∀ pos, x.calling = true → x.roPos = some pos → k.stopping = false → ∃ t s0 k0 x0, exec (.rocall d a c) s = .next t ∧
      Noted s s0 b g { x with roPos := none, wait := none } pos k0 x0 ∧ GaveAll s0 t b g k0 x0 s.cur.act .w d pos)

open Sys2Proof Sys2Proof.Machine Sys2Proof.Claims in
/-- R372 and R374 to R376: `rowait` answers the outcome of an applied call, and status 0x20 of a trimmed one; `roread` runs a read-only call
on the objects as they stand; `rotrim` sends a trim and answers the trim point. A number of 2^48 or more is illegal. -/
def Sys2Proof.Claims.LogWordsAnswer : Prop :=
  ∀ (s : State) (b g : Nat) (k : Block) (x : Group) (d a : Nat), s.Issues b g k x →
    let p := s.part k.trec.part
    let w := k.src x .w a (lowest s.cur.act)
    ((Instr.rowait d a).wf = true → SlotsIn k x [(.w, d + 1), (.w, d), (.w, a)] → goodOf w = true →
      (2 ^ 48 ≤ valOf w → exec (.rowait d a) s = .next (s.raise 0x01 0)) ∧
      (valOf w < 2 ^ 48 → p.applied ≤ valOf w → exec (.rowait d a) s = .next (s.wait .object)) ∧
      (valOf w < 2 ^ 48 → valOf w < p.applied → ∃ t s0 k0 x0, exec (.rowait d a) s = .next t ∧ Noted s s0 b g x (valOf w) k0 x0 ∧
        GaveTwo s0 t b g k0 x0 s.cur.act d (if valOf w < p.trim then 0 else s.homeLe (s.logSlot k.trec.part (valOf w) + 88) 8)
          (if valOf w < p.trim then 0x20 else s.homeLe (s.logSlot k.trec.part (valOf w) + 96) 8))) ∧
    (∀ c obj meth, (Instr.roread d a c).wf = true → SlotsIn k x [(.w, d + 1), (.w, d), (.w, a), (.w, c)] → Names s k x a c obj meth →
      (p.applied ≤ x.roseen.toNat → ¬(p.applied = 0 ∧ x.roseen = 0) → exec (.roread d a c) s = .next (s.wait .object)) ∧
      (x.roseen.toNat < p.applied ∨ (p.applied = 0 ∧ x.roseen = 0) →
        let r := s.runCall k.trec.part ⟨s.pkgId, obj, meth, argOf k x a⟩ p.applied true
        ∃ t s0 k0 x0, exec (.roread d a c) s = .next t ∧ Noted s s0 b g x (p.applied - 1) k0 x0 ∧
          GaveTwo s0 t b g k0 x0 s.cur.act d (callResult r) (callStatus r))) ∧
    ((Instr.rotrim d a).wf = true → SlotsIn k x [(.w, d), (.w, a)] → goodOf w = true →
      (2 ^ 48 ≤ valOf w → exec (.rotrim d a) s = .next (s.raise 0x01 0)) ∧
      (valOf w < 2 ^ 48 → ∃ t, exec (.rotrim d a) s = .next t ∧
        GaveAll { s with nx := { s.nx with
            outq := s.nx.outq ++ [queuedFrame 5 (if s.partSys k.trec.part then 2 else 0) k.trec.part (toLe 8 (valOf w))] } }
          t b g k x s.cur.act .w d p.trim))

open Sys2Proof.Claims in
/-- R372 to R376: the words of replayed objects call, wait, read and trim.
Where the spec leaves a point open, the clauses rest on the model's reading, log entry 49. -/
def Obligations.ObjectWordsAnswerTheirCalls : Prop :=
  CallsAnswerTheirPosition ∧ LogWordsAnswer

open Sys2Proof Sys2Proof.Machine Sys2Proof.Claims in
/-- R259 to R262, R264 and R350 of both agents of class C, a group and the copy stream: `cpost` posts its packet with the agent's owner
word, after publication; `cfence` posts a fence of its queues' write indices; `cwait` passes with the core's reads refreshed once every
bit of its mask is set, and waits before; `ccoll` posts to its channel and waits while 16 stand there. -/
def Sys2Proof.Claims.CopyWordsPostAndWait : Prop :=
  ∀ (s : State) (b g : Nat) (k : Block) (x : Group) (act : List Nat) (l0 : Nat) (str : Bool), CopyIssues s b g k x act l0 str →
    let wait := if str then k.cs.wait else x.wait
    let claim := if str then k.cs.claim else x.claim
    let cx : Cx := ⟨k, x, act, l0, str⟩
    (∀ a c v q s1, (Instr.cpost a c v).wf = true → SlotsIn k x [(viewOf v, a), (viewOf v, c)] → claim = none →
      rok (lowWord k x (viewOf v) a l0) = true → s.namedQueue k.trec.part (lowWord k x (viewOf v) a l0).val.toNat = some q →
      Good64 k x (viewOf v) c → s.pubFirst k wait true 3 = .inr s1 →
      ∃ k1, s1.blk b = some k1 ∧ Posts s1 b g k1 x act l0 str q (patch (bytes64 k x (viewOf v) c) 4 (toLe 4 (ownerOf k g str))) (exec (.cpost a c v) s)) ∧
    (∀ a c v q qs, (Instr.cfence a c v).wf = true → SlotsIn k x [(viewOf v, a), (viewOf v, c)] → claim = none →
      rok (lowWord k x (viewOf v) a l0) = true → s.namedQueue k.trec.part (lowWord k x (viewOf v) a l0).val.toNat = some q →
      s.fenceList cx (viewOf v) c (upFrom 0 7) = .inl qs →
      Posts s b g k x act l0 str q (padTo 64 (toLe 4 (15 * 2 ^ 27 + 255 * 2 ^ 16) ++ toLe 4 (ownerOf k g str) ++
        (qs.map (fun y => toLe 8 (s.qWidx y.off * 2 ^ 32 + s.qField y.off 0x12 2 % 1024 * 2 ^ 16))).flatten)) (exec (.cfence a c v) s)) ∧
    (∀ a c v, (Instr.cwait a c v).wf = true → SlotsIn k x [(viewOf v, a), (viewOf v, c)] → rok (lowWord k x (viewOf v) a l0) = true →
      s.syncOk k.trec.part (lowWord k x (viewOf v) a l0).val.toNat = true → Good64 k x (viewOf v) c →
      let m := leAt (bytes64 k x (viewOf v) c) 0 64
      let have_ := s.homeLe (syncBase + (lowWord k x (viewOf v) a l0).val.toNat) 64
      ((∀ j < 512, bitOf m j = true → bitOf have_ j = true) →
        ∃ t k1 x1, exec (.cwait a c v) s = .next t ∧ (s.refresh k.core).bg b g = some (k1, x1) ∧
          CopyPast (s.refresh k.core) t b g k1 x1 str) ∧
      ((∃ j < 512, bitOf m j = true ∧ bitOf have_ j = false) → exec (.cwait a c v) s = .next (s.wait .bitmap))) ∧
    (∀ a v s1, (Instr.ccoll a v).wf = true → SlotsIn k x [(viewOf v, a)] → Good64 k x (viewOf v) a →
      let p := bytes64 k x (viewOf v) a
      let c := leAt p 8 1
      (63 < c ∨ (s.chan c).part.toNat ≠ k.trec.part → exec (.ccoll a v) s = .next (s.raise 0x01 0)) ∧
      (c ≤ 63 → (s.chan c).part.toNat = k.trec.part → s.pubFirst k wait true 3 = .inr s1 →
        ((s1.chan c).posts.length < 16 → ∃ t k1, exec (.ccoll a v) s = .next t ∧ s1.blk b = some k1 ∧
          CopyPast (s1.setChan c { s1.chan c with posts := (s1.chan c).posts ++ [Coll.new p] }) t b g k1 x str) ∧
        (16 ≤ (s1.chan c).posts.length → exec (.ccoll a v) s = .next (s1.wait .channel))))

open Sys2Proof Sys2Proof.Machine Sys2Proof.Claims in
/-- R259, R262 to R264 and R351: `cpost.try` reports in its predicate whether it wrote a slot; `ctest` reports its mask; `crec` brings the
active lanes their parts of a record; `cabort` answers how many packets it abandoned, and on the copy stream abandons without an answer;
`cgen` answers generation, rank and live ranks. On the copy stream the forms with an answer are illegal. -/
def Sys2Proof.Claims.CopyWordsAnswer : Prop :=
  (∀ (s : State) (b g : Nat) (k : Block) (x : Group), s.Issues b g k x →
    let l0 := lowest s.cur.act
    (∀ n a c v q s1, (Instr.cpostTry n a c v).wf = true → SlotsIn k x [(viewOf v, a), (viewOf v, c)] → x.claim = none →
      rok (lowWord k x (viewOf v) a l0) = true → s.namedQueue k.trec.part (lowWord k x (viewOf v) a l0).val.toNat = some q →
      Good64 k x (viewOf v) c → s.pubFirst k x.wait true 3 = .inr s1 →
      let i := s1.qWidx q.off
      let ok := s1.qFree q.off i
      let s2 := if ok then (s1.qClaim q.off).2.qWrite q i (patch (bytes64 k x (viewOf v) c) 4 (toLe 4 (ownerOf k g false))) else s1
      ∃ t k1 k' x', exec (.cpostTry n a c v) s = .next t ∧ s1.bg b g = some (k1, x) ∧ s2.WordDone t b g k1 k' x x' ∧
        s2.WrotePred k1 k' x x' n s.cur.act (fun _ => ok)) ∧
    (∀ d a c v, (Instr.ctest d a c v).wf = true → SlotsIn k x [(viewOf v, a), (viewOf v, c)] → rok (lowWord k x (viewOf v) a l0) = true →
      s.syncOk k.trec.part (lowWord k x (viewOf v) a l0).val.toNat = true → Good64 k x (viewOf v) c →
      ∃ ok : Bool, (ok = true ↔ ∀ j < 512, bitOf (leAt (bytes64 k x (viewOf v) c) 0 64) j = true →
          bitOf (s.homeLe (syncBase + (lowWord k x (viewOf v) a l0).val.toNat) 64) j = true) ∧
        (let s2 := if ok then s.refresh k.core else s
         ∃ t k1 x1 k' x', exec (.ctest d a c v) s = .next t ∧ s2.bg b g = some (k1, x1) ∧ s2.WordDone t b g k1 k' x1 x' ∧
           s2.WrotePred k1 k' x1 x' d s.cur.act (fun _ => ok))) ∧
    (∀ d a c v q, (Instr.crec d a c v).wf = true → SlotsIn k x [(viewOf v, a), (viewOf v, d), (viewOf v, c)] →
      rok (lowWord k x (viewOf v) a l0) = true → s.namedQueue k.trec.part (lowWord k x (viewOf v) a l0).val.toNat = some q →
      goodOf (k.src x (viewOf v) c l0) = true → regionOf (s.qField q.off 0x18 8) = .sync →
      s.syncOk k.trec.part (s.qField q.off 0x18 8 - syncBase) = true →
      let n := 4 * (viewOf v).parts
      let at_ := s.qField q.off 0x18 8 + 64 * (valOf (k.src x (viewOf v) c l0) % s.qSize q.off)
      (s.syncOwn k.trec.part at_ = false → exec (.crec d a c v) s = .next (s.raise 0x07 at_)) ∧
      (s.syncOwn k.trec.part at_ = true → ∃ t k' x', exec (.crec d a c v) s = .next t ∧ s.WordDone t b g k k' x x' ∧
        WroteSlot k k' x x' (viewOf v) d (s.cur.act.filter (fun l => decide (n * l < 64)))
          (fun l => freshWords (viewOf v).parts (leAt (s.homeBytes at_ 64) (n * l) n)) ∧ s.KeptLatches x x' ∧ x.SamePreds x')) ∧
    (∀ d a v q, (Instr.cabort d a v).wf = true → SlotsIn k x [(viewOf v, a), (viewOf v, d)] →
      rok (lowWord k x (viewOf v) a l0) = true → (lowWord k x (viewOf v) a l0).val.toNat ≠ 0xFFFFFFFF →
      s.namedQueue k.trec.part (lowWord k x (viewOf v) a l0).val.toNat = some q →
      let r := s.abandonIn k q
      ∃ t, exec (.cabort d a v) s = .next t ∧ GaveAll r.1 t b g k x s.cur.act (viewOf v) d r.2.length) ∧
    (∀ d a v, (Instr.cgen d a v).wf = true → SlotsIn k x [(viewOf v, a), (viewOf v, d)] → rok (lowWord k x (viewOf v) a l0) = true →
      let gid := (lowWord k x (viewOf v) a l0).val.toNat % 65536
      let gen := (s.part k.trec.part).gen.toNat
      ∃ t, exec (.cgen d a v) s = .next t ∧
        (s.ranksOf k.trec.part gid = none → GaveAll s t b g k x s.cur.act (viewOf v) d (0xFFFF * 2 ^ 16 + gen)) ∧
        (∀ tbl, s.ranksOf k.trec.part gid = some tbl →
          GaveAll s t b g k x s.cur.act (viewOf v) d ((liveRanks tbl).length * 2 ^ 32 + rankIn tbl s.pkgId * 2 ^ 16 + gen)))) ∧
  (∀ (s : State) (b g : Nat) (k : Block) (x : Group), CopyIssues s b g k x [] 0 true →
    (∀ n a c v, exec (.cpostTry n a c v) s = .next (s.raise 0x01 0)) ∧ (∀ d a c v, exec (.ctest d a c v) s = .next (s.raise 0x01 0)) ∧
    (∀ d a c v, exec (.crec d a c v) s = .next (s.raise 0x01 0)) ∧ (∀ d a v, exec (.cgen d a v) s = .next (s.raise 0x01 0)) ∧
    (∀ d a v, d ≠ 0 → exec (.cabort d a v) s = .next (s.raise 0x01 0)) ∧
    (∀ a v q, a < 128 → v < 2 → SlotsIn k x [(viewOf v, a), (viewOf v, 0)] → rok (lowWord k x (viewOf v) a 0) = true →
      (lowWord k x (viewOf v) a 0).val.toNat ≠ 0xFFFFFFFF → s.namedQueue k.trec.part (lowWord k x (viewOf v) a 0).val.toNat = some q →
      ∃ t, exec (.cabort 0 a v) s = .next t ∧ CopyPast (s.abandonIn k q).1 t b g k x true))

open Sys2Proof.Claims in
/-- R259, R260, R261, R262, R263, R264, R350 and R351: the words of the copy stream post, wait and answer. -/
def Obligations.CopyWordsFollowTheirRules : Prop :=
  CopyWordsPostAndWait ∧ CopyWordsAnswer

namespace Sys2Proof.Claims
open Sys2Proof.Machine

/-- A class P word of the handler's group issues (R33 check 7, R201). -/
def PrivIssues (s : State) (b g : Nat) (k : Block) (x : Group) : Prop := s.Issues b g k x ∧ k.priv g = true

/-- A privileged word has answered `v` in scalar register `d` of its group, from the state `s0` after its accesses, and is past (R209). -/
def GaveScalar (s0 t : State) (b g : Nat) (k : Block) (x : Group) (d v : Nat) : Prop :=
  ∃ k' x' rs, s0.WordDone t b g k k' { x with sregs := rs } x' ∧ WroteScalar x.sregs rs d (freshWords 2 v) ∧ SameWindows k k' x x' ∧
    s0.KeptLatches x x' ∧ x.SamePreds x'

/-- The words of class P that only privileged mode runs (R33, R208 to R212, R265); a `csrw` of a register that is none or read-only is
illegal before that (R33). -/
def needsPrivilege : Instr → Bool
  | .tret => true
  | .halt => true
  | .csrw _ r => csrKnown r && csrRw r
  | .ctxsave _ _ _ => true
  | .ctxload _ _ => true
  | .mbpost _ _ _ => true
  | .mbpoll _ _ _ => true
  | .tlbinv _ _ => true
  | _ => false

end Sys2Proof.Claims

open Sys2Proof Sys2Proof.Machine Sys2Proof.Claims in
/-- R33, R208, R209, R314 and R315: a privileged form in user mode raises `privilege` whatever its operands and active lanes, and so do a
read of a privileged control register, `ldio`, `stio` and `wfi`; in privileged mode of a core these three are illegal.
That a privileged form without an active lane raises it too is the model's reading, log entry 36. -/
def Obligations.PrivilegedFormsTrapInUserMode : Prop :=
  ∀ (i : Instr) (s : State) (b g : Nat) (k : Block) (x : Group), s.cur.ag = .group b g → s.bg b g = some (k, x) →
    (k.priv g = false →
      (needsPrivilege i = true → exec i s = .next (s.raise 0x03 0)) ∧
      (∀ d r, csrKnown r = true → (0x50 ≤ r ∧ r ≤ 0x5D ∨ r = 0x5F) → exec (.csrr d r) s = .next (s.raise 0x03 0))) ∧
    (let c := if k.priv g then 0x01 else 0x03
     (∀ d a n, exec (.ldio d a n) s = .next (s.raise c 0)) ∧ (∀ d a n, exec (.stio d a n) s = .next (s.raise c 0)) ∧
     exec .wfi s = .next (s.raise c 0))

open Sys2Proof Sys2Proof.Machine Sys2Proof.Claims in
/-- R207 and R209: `csrr` of a register of the map gives its value to its scalar register, unprivileged registers in both modes; an
unknown number is illegal in both modes, as is `csrw` of an unknown or read-only one. `csrw` of a writable register with a value in its limits makes that register read as the value and every other
one as before; the rest of the group, the windows and memory are as they were. -/
def Obligations.ControlRegistersReadAndWrite : Prop :=
  ∀ (s : State) (b g : Nat) (k : Block) (x : Group), s.Issues b g k x →
    (∀ d r, (Instr.csrr d r).wf = true →
      (csrKnown r = true → (k.priv g = true ∨ ¬(0x50 ≤ r ∧ r ≤ 0x5D ∨ r = 0x5F)) →
        ∃ t, exec (.csrr d r) s = .next t ∧ GaveScalar s t b g k x d (s.csrVal k x r)) ∧
      (csrKnown r = false → exec (.csrr d r) s = .next (s.raise 0x01 0))) ∧
    (∀ a r, csrKnown r = false ∨ csrRw r = false → exec (.csrw a r) s = .next (s.raise 0x01 0)) ∧
    (∀ a r, (Instr.csrw a r).wf = true → k.priv g = true →
      let v := sval x.sregs a
      (csrKnown r = true → csrRw r = true → csrLimit k x r v = true → sok x.sregs a = true →
        ∃ t s0 k0 x0, exec (.csrw a r) s = .next t ∧ PassedFrom s0 t b g k0 x0 ∧ s0.bg b g = some (k0, x0) ∧
          (∃ bs cs ps, s0 = { s with blocks := bs, cores := cs, parts := ps }) ∧ (∀ n, n ≠ b → s0.blk n = s.blk n) ∧
          x0.lanes = x.lanes ∧ x0.win = x.win ∧ x0.sregs = x.sregs ∧ x0.frame = x.frame ∧ k0.bwin = k.bwin ∧ k0.scr = k.scr ∧ k0.mode = k.mode ∧
          s0.csrVal k0 x0 r = v ∧ (∀ n, n ≠ r → s0.csrVal k0 x0 n = s.csrVal k x n)) ∧
      (csrLimit k x r v = false → exec (.csrw a r) s = .next (s.raise 0x01 0)))

open Sys2Proof Sys2Proof.Machine Sys2Proof.Claims in
/-- R196, R199 to R201, R204 and R206: taking a fault where no call is queued and the frame's page takes the frame. The group that hosts the
handler runs it in lane 0 from `cr.tvec` with its other lanes free, its queues and latches empty; the block is in the handler's mode with
the cause and the info in their registers; its windows, its control registers and its other groups' registers are as they were before.
A fault that no group is left to handle ends the block.
Where the spec leaves a point open, the clauses rest on the model's reading, log entries 15 and 17. -/
def Obligations.FaultsEnterTheHandler : Prop :=
  (∀ (s : State) (b : Nat) (f : PFault) (ext : Bool) (k : Block), s.blk b = some k → k.calling = false → k.hostOf f.grp = none →
    (s.takeFault b f ext).blk b = none) ∧
  ∀ (s : State) (b h : Nat) (f : PFault) (ext : Bool) (k k3 : Block) (g0 : Group), s.blk b = some k → k.calling = false →
    k.hostOf f.grp = some h →
    let s1 := ((s.countResidue k.core f.code).stopAll k).landBegun k
    let d := (s1.abandonAll k).1.drain k
    let s3 := d.1
    s3.bg b h = some (k3, g0) → f.resume = 0 →
    let flags := (if f.grp < 16 then 0 else 1) + (if d.2.isEmpty && k3.pend.isEmpty then 0 else 2) + (if ext then 4 else 0)
    let code2 := match d.2 ++ k3.pend with | y :: _ => y.code | [] => 0
    let at_ := k3.tframe.toNat + 2048 * k3.core
    let frame := trapFrame k3 g0 (s3.scalarPos k3.trec.part g0) (faultRecord f k flags (s3.cycle % 2 ^ 32) code2)
    (∀ s4, s3.homePut k3.core k3.trec.part at_ frame = .inl s4 →
      ∃ k' x', (s.takeFault b f ext).bg b h = some (k', x') ∧ k'.mode = .handler h f.code ∧ k'.tcause = BitVec.ofNat 64 (f.code + 256 * f.grp) ∧
        k'.tinfo = BitVec.ofNat 64 f.info ∧ k'.frameAt = at_ ∧ k'.tvec = k3.tvec ∧ k'.tframe = k3.tframe ∧ k'.pend = k3.pend ++ d.2 ∧
        k'.bwin = k3.bwin ∧ k'.scr = k3.scr ∧ (∀ n, n ≠ h → k'.grp n = k3.grp n) ∧
        (x'.lane 0).st = .live ∧ (x'.lane 0).pc = BitVec.ofNat 48 k3.tvec.toNat ∧ (x'.lane 0).pred = 1 ∧ (∀ l, l ≠ 0 → (x'.lane l).st = .free) ∧
        x'.win = g0.win ∧ x'.sregs = g0.sregs ∧ x'.sp = g0.sp ∧ x'.sb = g0.sb ∧ x'.by1 = [] ∧ x'.by2 = [] ∧ x'.by3 = [] ∧ x'.fq = [] ∧ x'.rq = []) ∧
    (∀ e, s3.homePut k3.core k3.trec.part at_ frame = .inr e → s.takeFault b f ext = (s3.trace 4 k3 f.grp 0).terminate b f.code)

open Sys2Proof Sys2Proof.Machine Sys2Proof.Claims in
/-- R200, R202, R203 and R208: in user mode `trap` retires and its group's fault 0x14 is taken at its word with the immediate as info; in
the handler it is a nested fault, and `halt` ends the block, which is then gone. `tret` ends a block whose cause is a copy fault; else it
goes back to the run that its frame holds, and the block is no longer in the handler.
Where the spec leaves a point open, the clauses rest on the model's reading, log entry 30. -/
def Obligations.TrapsAndReturns : Prop :=
  ∀ (s : State) (b g : Nat) (k : Block) (x : Group), s.Issues b g k x →
    (∀ n, n < 4096 → k.priv g = false →
      ∃ t, PassedFrom s t b g k x ∧ exec (.trap n) s = .next (t.takeFault b ⟨0x14, g, maskOf s.cur.act, s.cur.pc, n, 0⟩ false)) ∧
    (∀ n, n < 4096 → k.priv g = true → exec (.trap n) s = .next (s.nested b 0x14)) ∧
    (k.priv g = true → ∀ code, k.mode = .handler g code → ∃ t, exec .halt s = .next t ∧ t.blk b = none ∧
      (k.cl = none → (∀ o ∈ (s.core k.core).outs, o.blk ≠ b) → (∀ q ∈ s.queues, q.infl = none) → ∀ n, n ≠ b → t.blk n = s.blk n)) ∧
    (∀ code, k.mode = .handler g code → code = 0x10 → ∃ t, exec .tret s = .next t ∧ t.blk b = none) ∧
    (∀ code frame s1, k.mode = .handler g code → code ≠ 0x10 → s.homeGet k.core k.trec.part k.frameAt 2048 = .inl (frame, s1) →
      k.repost = [] → k.pend = [] → k.stopReq = false → (∀ y ∈ k.groups, y.num ≠ g → y.ended = true ∨ y.heldLanes ≠ []) → ∀ y, k.stash = some y → y.num = g → y.ended = false →
      (∃ l < 32, leAt frame 0x600 8 / 4 ^ l % 4 ≠ 0) →
      ∃ t k' x', exec .tret s = .next t ∧ t.bg b g = some (k', x') ∧ k'.mode = .run ∧ k'.dumpbase = 0 ∧ k'.stash = none ∧
        x'.win = x.win ∧ k'.bwin = k.bwin ∧ k'.scr = k.scr ∧ (∀ n, n ≠ g → k'.grp n = k.grp n) ∧
        (∀ l < 32, ((x'.lane l).st = .free ↔ leAt frame 0x600 8 / 4 ^ l % 4 = 0) ∧ ((x'.lane l).st = .live ↔ leAt frame 0x600 8 / 4 ^ l % 4 = 1) ∧
          (x'.lane l).pred = BitVec.ofNat 16 (leAt frame (0x180 + 12 * l + 6) 2) ||| 1) ∧
        (∀ n < 64, sval x'.sregs n = leAt frame (4 * (224 + 2 * n)) 8))

open Sys2Proof Sys2Proof.Machine Sys2Proof.Claims in
/-- R210 to R212 and R265: the privileged words that answer. `ctxsave` writes the block's image at its address and answers its length;
`ctxload` takes over the state of an image of the block's shape, with the handler group's part in its frame, and answers 0; of another shape
it answers 1. `mbpost` puts its message and its length in the mailbox and answers its new sequence number; while the last message stands it
answers 0. `mbpoll` stores the message in its buffer, takes its sequence number over and answers its length; it answers 0 where there is no
message and bit 63 with the length where it does not fit. `tlbinv` drops the translations of its range and writes no register. -/
def Obligations.ContextAndMailboxWords : Prop :=
  ∀ (s : State) (b g : Nat) (k : Block) (x : Group), PrivIssues s b g k x →
    let rd := s.homeGet k.core k.trec.part
    let box := k.mbox.toNat
    (∀ d a c frame s1 s2, (Instr.ctxsave d a c).wf = true → sok x.sregs a = true → sval x.sregs a % 64 = 0 →
      rd k.frameAt 2048 = .inl (frame, s1) → sval x.sregs c % 256 = 0 →
      let im := s1.haltedImage k g frame
      s1.putRun k.core k.trec.part (sval x.sregs a) im.1 = (s2, none) →
      ∃ t, exec (.ctxsave d a c) s = .next t ∧ GaveScalar s2 t b g k x d (im.1.length + (if im.2 then 2 ^ 63 else 0))) ∧
    (∀ d a hd s1, (Instr.ctxload d a).wf = true → sok x.sregs a = true → sval x.sregs a % 64 = 0 → rd (sval x.sregs a) 896 = .inl (hd, s1) →
      (k.sameShape hd = false → ∃ t, exec (.ctxload d a) s = .next t ∧ GaveScalar s1 t b g k x d 1) ∧
      (k.sameShape hd = true → ∀ im s2 s3 s4,
        s1.homeGet k.core k.trec.part (sval x.sregs a) (imageSize hd k.trec k.groups.length) = .inl (im, s2) →
        s2.homePut k.core k.trec.part k.frameAt ((im.drop (grpOff k.trec g)).take 1600) = .inl s3 →
        s3.homePut k.core k.trec.part (k.frameAt + 0x700) (imageBitmap im k.trec k.groups.length g) = .inl s4 →
        ∃ t k0, exec (.ctxload d a) s = .next t ∧ (s4.loadImage k g im).bg b g = some (k0, x) ∧
          GaveScalar (s4.loadImage k g im) t b g k0 x d 0)) ∧
    (∀ d a c hd s1, (Instr.mbpost d a c).wf = true → 1 ≤ sval x.sregs c ∧ sval x.sregs c ≤ 112 → sok x.sregs a = true →
      rd box 12 = .inl (hd, s1) →
      (leAt hd 8 4 ≠ leAt hd 0 4 → ∃ t, exec (.mbpost d a c) s = .next t ∧ GaveScalar s1 t b g k x d 0) ∧
      (leAt hd 8 4 = leAt hd 0 4 →
        let m := s1.bufferLanes k .rd (sval x.sregs a) (sval x.sregs c)
        let got := m.1.loadLanes k 1 m.2
        let seq := (leAt hd 0 4 + 1) % 2 ^ 32
        (∀ w ls i, checks m.2 ≠ .fault w ls i) → got.2.2.crowded k.core = false → got.2.1 = [] →
        ∀ u1 u2 u3, got.2.2.homePut k.core k.trec.part (box + 0x10) (got.1.map (fun y => y.2)).flatten = .inl u1 →
          u1.homePut k.core k.trec.part (box + 4) (toLe 1 (sval x.sregs c)) = .inl u2 → u2.homePut k.core k.trec.part box (toLe 4 seq) = .inl u3 →
          ∃ t, exec (.mbpost d a c) s = .next t ∧ GaveScalar (u3.interrupt 1) t b g k x d seq)) ∧
    (∀ d a c hd s1, (Instr.mbpoll d a c).wf = true → sok x.sregs a = true → rd (box + 0x80) 12 = .inl (hd, s1) →
      (leAt hd 0 4 = leAt hd 8 4 → ∃ t, exec (.mbpoll d a c) s = .next t ∧ GaveScalar s1 t b g k x d 0) ∧
      (leAt hd 0 4 ≠ leAt hd 8 4 → sval x.sregs c < leAt hd 4 1 →
        ∃ t, exec (.mbpoll d a c) s = .next t ∧ GaveScalar s1 t b g k x d (2 ^ 63 + leAt hd 4 1)) ∧
      (leAt hd 0 4 ≠ leAt hd 8 4 → leAt hd 4 1 ≤ sval x.sregs c → ∀ bs s2 u0 u,
        s1.homeGet k.core k.trec.part (box + 0x90) (leAt hd 4 1) = .inl (bs, s2) →
        let m := s2.bufferLanes k .wr (sval x.sregs a) (leAt hd 4 1)
        (∀ w ls i, checks m.2 ≠ .fault w ls i) → m.1.homePut k.core k.trec.part (box + 0x88) (toLe 4 (leAt hd 0 4)) = .inl u0 →
        ((m.2.zip bs).foldl (fun v y => v.storeTgt k y.1.tgt [y.2]) m.1).crowded k.core = false →
        ((m.2.zip bs).foldl (fun v y => v.storeTgt k y.1.tgt [y.2]) m.1).homePut k.core k.trec.part (box + 0x88) (toLe 4 (leAt hd 0 4)) = .inl u →
        ∃ t k0, exec (.mbpoll d a c) s = .next t ∧ u.bg b g = some (k0, x) ∧ GaveScalar u t b g k0 x d (leAt hd 4 1))) ∧
    (∀ a c, (Instr.tlbinv a c).wf = true →
      (sok x.sregs a = false ∨ sok x.sregs c = false → exec (.tlbinv a c) s = .next (s.raise 0x04 0)) ∧
      (sok x.sregs a = true → sok x.sregs c = true → tlbRange (sval x.sregs a) (sval x.sregs c) = none → exec (.tlbinv a c) s = .next (s.raise 0x01 0))) ∧
    (∀ a c lo n, (Instr.tlbinv a c).wf = true → tlbRange (sval x.sregs a) (sval x.sregs c) = some (lo, n) → sok x.sregs a = true →
      sok x.sregs c = true → s.quietGroup k.core b g = true → s.quietPart k.trec.part = true → ∃ t s0, exec (.tlbinv a c) s = .next t ∧ PassedFrom s0 t b g k x ∧ (∃ cs, s0 = { s with cores := cs }) ∧
        (∀ m, m ∈ s.cores.map Prod.fst → (s0.core m).tlb = (s.core m).tlb.filter (fun e => !(decide (e.part = k.trec.part) &&
          (decide (n = 0) || (decide (e.map.va < lo + n) && decide (lo < e.map.va + pageBytes e.map.sz)))))))

namespace Sys2Proof.Claims
open Sys2Proof.Machine

/-- A word of management core `m` issues (R297). -/
def MgmtIssues (s : State) (m : Nat) : Prop := s.cur.ag = .mgmt m ∧ s.cur.act ≠ []

/-- The X-die address of `ldio` and `stio`: the low 32 bits of the base and four times the signed offset (R314). -/
def ioPlace (q : SRegs) (a n : Nat) : Nat := ((((sval q a % 2 ^ 32 : Nat) : Int) + 4 * sgn 12 n) % (2 ^ 32 : Nat)).toNat

/-- A management core after an interrupt of the part with bit `n` (R298). -/
def Interrupted (s t : State) (n : Nat) : Prop :=
  (∃ ms, t = { s with mcs := ms }) ∧ ∀ m, t.mc m = if m < 4 then { s.mc m with ipend := (s.mc m).ipend ||| BitVec.ofNat 32 (2 ^ n) } else s.mc m

/-- Some words that only a group runs: a management core refuses them (R33, R79, R297). -/
def groupOnly : Instr → Bool
  | .bra _ _ _ => true
  | .enrol _ => true
  | .rejoin _ => true
  | .strike _ => true
  | .spawn _ _ _ _ => true
  | .exit => true
  | .yield => true
  | .fork _ => true
  | .rdv _ => true
  | .msync _ => true
  | .tret => true
  | .csrr _ _ => true
  | _ => false

end Sys2Proof.Claims

open Sys2Proof Sys2Proof.Machine Sys2Proof.Claims in
/-- R314 to R316: on a management core `ldio` reads the register at its address into its scalar register, zero-extended, and `stio` writes
the low 32 bits of its register there; an address off the map or not a multiple of 4, and a base of 2^32 or more, raise their faults.
`wfi` passes where an enabled interrupt is pending and else waits for one. That a read changes nothing but its scalar register is the
model's choice, log entry 59. -/
def Obligations.ManagementWordsReachTheirRegisters : Prop :=
  ∀ (s : State) (m : Nat), MgmtIssues s m →
    let q := (s.mc m).sregs
    (∀ d a n, (Instr.ldio d a n).wf = true → sok q a = true → sval q a < 2 ^ 32 →
      let ad := ioPlace q a n
      (∀ v, ad % 4 = 0 → s.readReg ad = some v →
        ∃ t, exec (.ldio d a n) s = .next t ∧ s.MgmtDone t m ∧ WroteScalar q (t.mc m).sregs d (freshWords 2 v) ∧ (t.mc m).sp = (s.mc m).sp) ∧
      (ad % 4 ≠ 0 → exec (.ldio d a n) s = .next (s.raise 0x05 0)) ∧
      (ad % 4 = 0 → s.readReg ad = none → exec (.ldio d a n) s = .next (s.raise 0x07 0))) ∧
    (∀ d a n, (Instr.stio d a n).wf = true → sok q a = true → sval q a < 2 ^ 32 → sok q d = true →
      let ad := ioPlace q a n
      ad % 4 = 0 → (s.readReg ad).isSome = true →
        ∃ t, s.MgmtDone t m ∧ (t.mc m).sregs = q ∧ (t.mc m).sp = (s.mc m).sp ∧
          exec (.stio d a n) s = .next (t.writeReg ad (sval q d % 2 ^ 32))) ∧
    (∃ t, exec .wfi s = .next t ∧
      ((s.mc m).ipend &&& (s.mc m).ien ≠ 0 → s.MgmtDone t m ∧ (t.mc m).sregs = q ∧ (t.mc m).waiting = (s.mc m).waiting) ∧
      ((s.mc m).ipend &&& (s.mc m).ien = 0 → ∃ t0, s.MgmtDone t0 m ∧ t = t0.setMc m { t0.mc m with waiting := true }))

open Sys2Proof Sys2Proof.Machine Sys2Proof.Claims in
/-- R297, R298, R300 and R315: `halt` of a management core stops it and raises bit 8 everywhere; its faults, `trap` among them, save code and pc
and go to its vector, or stop it where the vector is 0. A word that only a group runs is illegal there, with no active lane too. A waiting core
wakes on an enabled pending interrupt; a write of a core's pending bits clears those it names, and a poke raises bit 7 in the cores it names
and ends the wait of one that still stands in the mask ROM. -/
def Obligations.ManagementCoresStopTrapAndWake : Prop :=
  (∀ (s : State) (m : Nat), MgmtIssues s m → m < 4 →
    (∃ t, exec .halt s = .next t ∧ ∃ t0, (∃ ms, t0 = { s with mcs := ms }) ∧ t0.mc m = { s.mc m with stopped := true } ∧
      (∀ n, n ≠ m → t0.mc n = s.mc n) ∧ Interrupted t0 t 8) ∧
    (∀ n, n < 4096 → exec (.trap n) s = .next (s.raise 0x14 n)) ∧
    (∀ code info, code < 256 → ∃ t0, (∃ ms, t0 = { s with mcs := ms }) ∧ (∀ n, n ≠ m → t0.mc n = s.mc n) ∧
      ((s.mc m).vec ≠ 0 → s.raise code info = t0 ∧ (t0.mc m).fcode = BitVec.ofNat 32 code ∧ (t0.mc m).fpcLo = BitVec.ofNat 32 s.cur.pc ∧
        (t0.mc m).pc = BitVec.ofNat 48 (s.mc m).vec.toNat ∧ (t0.mc m).sregs = (s.mc m).sregs ∧ (t0.mc m).sp = (s.mc m).sp ∧
        (t0.mc m).stopped = (s.mc m).stopped) ∧
      ((s.mc m).vec = 0 → Interrupted t0 (s.raise code info) 8 ∧ (t0.mc m).stopped = true ∧ (t0.mc m).fcode = BitVec.ofNat 32 code))) ∧
  (∀ (s : State) (m : Nat) (i : Instr), s.cur.ag = .mgmt m → groupOnly i = true → exec i s = .next (s.raise 0x01 0)) ∧
  (∀ (s : State) (m : Nat), m < 4 → (s.mc m).waiting = true → (s.mc m).ipend &&& (s.mc m).ien ≠ 0 →
    ∃ t, exec (.wfiWake m) s = .next t ∧ (∃ ms, t = { s with mcs := ms }) ∧ t.mc m = { s.mc m with waiting := false } ∧ ∀ n, n ≠ m → t.mc n = s.mc n) ∧
  (∀ (s : State) (m v : Nat), m < 4 →
    (∃ t, exec (.mcIpendClear m v) s = .next t ∧ (∃ ms, t = { s with mcs := ms }) ∧ (∀ n, n ≠ m → t.mc n = s.mc n) ∧
      t.mc m = { s.mc m with ipend := (s.mc m).ipend &&& ~~~ (BitVec.ofNat 32 v) }) ∧
    (∃ t, exec (.mcPoke m v) s = .next t ∧ (∃ ms, t = { s with mcs := ms }) ∧
      ∀ n, t.mc n = if n < 4 ∧ bitOf v n = true then
        { s.mc n with ipend := (s.mc n).ipend ||| 0x80, waiting := (s.mc n).waiting && !(s.mc n).rom, rom := false } else s.mc n))

namespace Sys2Proof.Claims
open Sys2Proof.Machine

/-- The matrix sequencer of a block issues a word (R166, R188). -/
def MatrixIssues (s : State) (b : Nat) (k : Block) : Prop := s.cur.ag = .matrix b ∧ s.blk b = some k

/-- A sequencer past its word: at the next word, or at the next header after the last of its clause, with its waiting time added up. -/
def seqPast (s : State) (x : Stream) : Stream :=
  let last := decide (s.cur.pc = s.cur.hdr + 4 * s.cur.n)
  { x with pc := s.cur.pc + 4, hdr := if last then s.cur.pc + 4 else s.cur.hdr, entered := !last, again := false, wait := none,
           waited := x.waited + (match x.wait with | none => 0 | some w => s.cycle - w.start) }

/-- A word of class X is past: from `s0`, with `k0` the block with the word's own effect. -/
def MatrixPast (s0 t : State) (b : Nat) (k0 : Block) : Prop := OnlyBlk s0 t b { k0 with ms := seqPast s0 k0.ms }

/-- A sequencer sent to a place in code (R187). -/
def seqAt (x : Stream) (p : Land) : Stream := { x with pc := p.pc, hdr := p.hdr, entered := false, again := false, wait := none }

/-- The words of tile `j` and of its record (R163, R165). -/
def inTile (k : Block) (j w : Nat) : Prop := (1024 * j ≤ w ∧ w < 1024 * j + 1024) ∨ (k.recWord j ≤ w ∧ w < k.recWord j + 0x80)

/-- The records of the tiles from `a` to `e` lie outside all of these tiles. -/
def apart (k : Block) (a e : Nat) : Prop :=
  ∀ i j, a ≤ i → i ≤ e → a ≤ j → j ≤ e → k.recWord i + 0x80 ≤ 1024 * j ∨ 1024 * j + 1024 ≤ k.recWord i

/-- Bytes of the scratchpad that a word reads lie in its allocation and are present (R142, R144). -/
def scrPresent (k : Block) (off n : Nat) : Prop := off + n ≤ spallocOf k.trec ∧ ∀ l ∈ k.absent, ¬lineIn off n l

/-- They hold no uncorrectable error either (R141). -/
def scrThere (k : Block) (off n : Nat) : Prop := scrPresent k off n ∧ k.scrPoison off n = false

/-- An `mrow` word's buffers and scale slot pass its checks (R174, R120). -/
def rowsReady (k : Block) (r bs sr : Nat) : Prop :=
  let two := k.afmt % 16 = 1 ∧ 8 < k.afmt / 16
  r < k.trec.rb ∧ (two → r % 2 = 0 ∧ r + 1 < k.trec.rb) ∧ k.scaleOk sr = true ∧ k.recsOk [r] [] [] = true ∧
    (bs ≠ 0 → ∀ m < 32, rok (tget RWord.zero k.operand.win (k.scaleWord sr m)) = true)

/-- Bytes of the image that `mrow` takes its rows from (R174). -/
def rowImage (k : Block) : Nat := if k.afmt % 16 = 1 then 8192 else 4096

end Sys2Proof.Claims

open Sys2Proof Sys2Proof.Machine Sys2Proof.Claims in
/-- R167, R171, R187 and R188: `mcfg` sets its one piece of the stream's configuration and nothing else; `mloop` counts its index down and
goes back until it is 0; `mjmp` goes; `msignal` arrives at its barrier and waits, as `mwaitb` does, while an arrival stands; both are illegal
at a barrier in which the stream takes no part; `mend` ends the run; `mnop` passes.
Where the spec leaves a point open, the clauses rest on the model's reading, log entry 58. -/
def Obligations.MatrixControlWords : Prop :=
  ∀ (s : State) (b : Nat) (k : Block), MatrixIssues s b k →
    (∀ n i, (Instr.mcfgIndex n i).wf = true → ∃ t k0, exec (.mcfgIndex n i) s = .next t ∧ MatrixPast s t b k0 ∧ (∃ ix, k0 = { k with ix := ix }) ∧
      ∀ j, k0.index_ j = if j = n then i else k.index_ j) ∧
    (∀ n i, (Instr.mcfgHi n i).wf = true → ∃ t k0, exec (.mcfgHi n i) s = .next t ∧ MatrixPast s t b k0 ∧ (∃ ix, k0 = { k with ix := ix }) ∧
      ∀ j, k0.index_ j = if j = n then i * 65536 + k.index_ n % 65536 else k.index_ j) ∧
    (∀ u, u < 32 → ∃ t, exec (.mcfgArea u) s = .next t ∧ MatrixPast s t b { k with area := u }) ∧
    (∀ p f, (Instr.mcfgAfmt p f).wf = true → ∃ t, exec (.mcfgAfmt p f) s = .next t ∧ MatrixPast s t b { k with afmt := 16 * p + f }) ∧
    (∀ g, (g < k.groups.length → ∃ t, exec (.mcfgGrp g) s = .next t ∧ MatrixPast s t b { k with ogrp := g }) ∧
      (k.groups.length ≤ g → exec (.mcfgGrp g) s = .next (s.raise 0x01 0))) ∧
    (∀ x o, (Instr.mloop x o).wf = true →
      let v := (k.index_ x + 2 ^ 32 - 1) % 2 ^ 32
      (v = 0 → ∃ t k0, exec (.mloop x o) s = .next t ∧ MatrixPast s t b k0 ∧ (∃ ix, k0 = { k with ix := ix }) ∧
        ∀ j, k0.index_ j = if j = x then 0 else k.index_ j) ∧
      (∀ p, v ≠ 0 → s.jStep (sgn 21 o) = .inl p → ∃ t k0, exec (.mloop x o) s = .next t ∧ OnlyBlk s t b { k0 with ms := seqAt k0.ms p } ∧
        (∃ ix, k0 = { k with ix := ix }) ∧ ∀ j, k0.index_ j = if j = x then v else k.index_ j)) ∧
    (∀ o p, o < 2 ^ 24 → s.jStep (sgn 24 o) = .inl p → ∃ t, exec (.mjmp o) s = .next t ∧ OnlyBlk s t b { k with ms := seqAt k.ms p }) ∧
    (∀ n, n < 16 →
      let came := (tget Bar.zero k.bars n).seqarr.getLsbD 0
      (k.ms.part.getLsbD n = false → exec (.msignal n) s = .next (s.raise 0x01 0) ∧ exec (.mwaitb n) s = .next (s.raise 0x01 0)) ∧
      (k.ms.part.getLsbD n = true → came = true →
        exec (.msignal n) s = .next (s.wait (.barrier n)) ∧ exec (.mwaitb n) s = .next (s.wait (.barrier n))) ∧
      (k.ms.part.getLsbD n = true → came = false → ∃ t, MatrixPast s t b k ∧ exec (.msignal n) s = .next (t.barArrive b 16 n) ∧
        exec (.mwaitb n) s = .next t)) ∧
    (∃ t, exec .mnop s = .next t ∧ MatrixPast s t b k) ∧
    (∃ t, MatrixPast s t b k ∧ exec .mend s = .next (t.endRun b false) ∧
      ∀ k', (t.endRun b false).blk b = some k' → k'.ms.running = false ∧ k'.ms.part = 0)

open Sys2Proof Sys2Proof.Machine Sys2Proof.Claims in
/-- R172, R174, R176, R189 and R190: `mbind` loads a mitten group from its lines: with h and t 0 element (kk, n) is lane kk mod 32 of planar
block 4n + kk / 32; where what it reads holds an uncorrectable error it raises `poisoned`. `mrow` fills its row buffers from an image in lines
or `t` slots in every format, and of planes it fills its buffer with the planes that `mcfg afmt` asks for and its blocks' exponents. `mzero`
clears elements, record and stamp. `mstamp` sets its one time, and `mstamp retire` clears the record. No other word of the block window
but records of tiles that a rewritten buffer or group makes stale is changed.
Where the spec leaves a point open, the clauses rest on the model's reading, log entries 15, 18 and 57. -/
def Obligations.MatrixLoadsFillTheirBuffers : Prop :=
  ∀ (s : State) (b : Nat) (k : Block), MatrixIssues s b k →
    (∀ g tr h x l, (Instr.mbind g tr h x l).wf = true → g < k.trec.mg → k.recsOk [] [g] [] = true →
      let off := 512 * (k.index_ x + l)
      scrThere k off ((if h = 0 then 4096 else 8192) + 128) →
      ∃ t k0, exec (.mbind g tr h x l) s = .next t ∧ MatrixPast s t b k0 ∧ (∃ m w, k0 = { k with mgs := m, bwin := w }) ∧
        (∀ n, n ≠ g → tget Mitten.none k0.mgs n = tget Mitten.none k.mgs n) ∧
        (tget Mitten.none k0.mgs g).bound = true ∧ (tget Mitten.none k0.mgs g).hf = h ∧
        (h = 0 → tr = 0 → ∀ kk < 128, ∀ n < 32, ∀ j < 8, (tget 0 (tget Mitten.none k0.mgs g).el (32 * kk + n)).getLsbD j =
          bitOf (leAt (tgets 0 k.scr (off + 32 * (4 * n + kk / 32) + 4 * (7 - j)) 4) 0 4) (kk % 32)) ∧
        (h = 0 → tr = 0 → ∀ q < 4, ∀ n < 32, k0.bscale g q n = (tget 0 k.scr (off + 4096 + 4 * n + q)).toNat)) ∧
    (∀ g tr h x l, (Instr.mbind g tr h x l).wf = true → g < k.trec.mg → k.recsOk [] [g] [] = true →
      let off := 512 * (k.index_ x + l)
      let n := (if h = 0 then 4096 else 8192) + 128
      scrPresent k off n → k.scrPoison off n = true → exec (.mbind g tr h x l) s = .next (s.raise 0x08 (scrBase + off))) ∧
    (∀ r bs sr x i, (Instr.mrowLines r bs sr x i).wf = true → rowsReady k r bs sr → scrThere k (512 * (k.index_ x + i)) (rowImage k) →
      ∃ t, exec (.mrowLines r bs sr x i) s = .next t ∧
        MatrixPast s t b (k.fillRows r sr bs (tgets 0 k.scr (512 * (k.index_ x + i)) (rowImage k)))) ∧
    (∀ r bs sr x i, (Instr.mrowTslots r bs sr x i).wf = true → rowsReady k r bs sr →
      let o := k.operand.vt.toNat + 512 * (k.index_ x + i)
      let ws := tgets RWord.zero k.operand.win (o / 4) (rowImage k / 4)
      o + rowImage k ≤ k.gwinBytes → (∀ w ∈ ws, rok w = true) →
      ∃ t, exec (.mrowTslots r bs sr x i) s = .next t ∧ MatrixPast s t b (k.fillRows r sr bs (bytesOf (ws.map (fun w => w.val))))) ∧
    (∀ r bs sr x i, (Instr.mrowLines r bs sr x i).wf = true → k.afmt % 16 = 0 → 2 ≤ k.afmt / 16 → k.afmt / 16 ≤ 8 → r < k.trec.rb →
      k.scaleOk sr = true → k.recsOk [r] [] [] = true → scrThere k (512 * (k.index_ x + i)) 4096 →
      (bs ≠ 0 → ∀ m < 32, rok (tget RWord.zero k.operand.win (k.scaleWord sr m)) = true) →
      ∃ t k0, exec (.mrowLines r bs sr x i) s = .next t ∧ MatrixPast s t b k0 ∧ (∃ q w, k0 = { k with rbs := q, bwin := w }) ∧
        (let buf := tget RowBuf.none k0.rbs r
         buf.valid = true ∧ buf.kp = k.afmt / 16 ∧ buf.ty = 0 ∧ (∀ n, n ≠ r → tget RowBuf.none k0.rbs n = tget RowBuf.none k.rbs n) ∧
         (∀ m < 32, ∀ j < 4, ∀ p < k.afmt / 16, (tget 0 buf.planes (8 * (4 * m + j) + p)).toNat =
           leAt (tgets 0 k.scr (512 * (k.index_ x + i) + 32 * (4 * m + j) + 4 * p) 4) 0 4) ∧
         (∀ m < 32, ∀ j < 4, k0.eblk r m j = (
           let code := (tget RWord.zero k.operand.win (k.scaleWord sr m)).val.toNat / 256 ^ j % 256
           if bitOf bs j = false then some 0 else if code = 255 then none else some ((code : Int) - 127))))) ∧
    (∀ r bs sr x i, (Instr.mrowTslots r bs sr x i).wf = true → k.afmt % 16 = 0 → 2 ≤ k.afmt / 16 → k.afmt / 16 ≤ 8 → r < k.trec.rb →
      k.scaleOk sr = true → k.recsOk [r] [] [] = true →
      let o := k.operand.vt.toNat + 512 * (k.index_ x + i)
      o + 4096 ≤ k.gwinBytes → (∀ w, rok (tget RWord.zero k.operand.win w) = true) →
      ∃ t k0, exec (.mrowTslots r bs sr x i) s = .next t ∧ MatrixPast s t b k0 ∧ (∃ q w, k0 = { k with rbs := q, bwin := w }) ∧
        (∀ m < 32, ∀ j < 4, ∀ p < k.afmt / 16, tget 0 (tget RowBuf.none k0.rbs r).planes (8 * (4 * m + j) + p) =
          (tget RWord.zero k.operand.win (o / 4 + 8 * (4 * m + j) + p)).val)) ∧
    (∀ a c, (Instr.mzero a c).wf = true → k.recsOk [] [] (upFrom a (c + 1)) = true →
      ∃ t k0, exec (.mzero a c) s = .next t ∧ MatrixPast s t b k0 ∧ (∃ w mz, k0 = { k with bwin := w, mz := mz }) ∧
        (∀ w, (∀ j, a ≤ j → j ≤ a + c → ¬inTile k j w) → tget RWord.zero k0.bwin w = tget RWord.zero k.bwin w) ∧
        (apart k a (a + c) → ∀ j, a ≤ j → j ≤ a + c → (∀ n < 1024, tget RWord.zero k0.bwin (1024 * j + n) = RWord.zero) ∧
          (k0.tile j).status = 0 ∧ k0.bn (k0.recWord j + 88) = 0 ∧ (∀ n, (n = 1 ∨ n = 2 ∨ 4 ≤ n ∧ n ≤ 6) → k0.bn (k0.recWord j + 88 + n) = 0xFFFFFFFF))) ∧
    (∀ a f, (Instr.mstamp a f).wf = true → k.recsOk [] [] [a] = true →
      ∃ t k0, exec (.mstamp a f) s = .next t ∧ MatrixPast s t b k0 ∧ (∃ w, k0 = { k with bwin := w }) ∧
        ∀ w, tget RWord.zero k0.bwin w = if w = k.recWord a + 88 + (if f = 0 then 1 else if f = 1 then 2 else 6)
          then fresh (BitVec.ofNat 32 (s.cycle % 2 ^ 32)) else tget RWord.zero k.bwin w) ∧
    (∀ a, a < 32 → k.recsOk [] [] [a] = true → ∃ t s0 k0, exec (.mstampRetire a) s = .next t ∧ MatrixPast s0 t b k0 ∧
        (k.stampbase.toNat / 4096 = 0 → s0 = s ∧ k0.stampseq = k.stampseq) ∧
        (k.stampbase.toNat / 4096 ≠ 0 → k0.stampseq = satInc k.stampseq) ∧ k0.bn (k0.recWord a + 88) = 0 ∧
        (∀ w, (w < k.recWord a + 88 ∨ k.recWord a + 96 ≤ w) → tget RWord.zero k0.bwin w = tget RWord.zero k.bwin w))

open Sys2Proof Sys2Proof.Machine Sys2Proof.Claims in
/-- R50, R175, R177, R178 and R180 to R186: a multiplication whose operands are valid changes only its tiles and their records; the element
(m, n) of the tile of a one-tile `mmul` is its old value with each K range's four scaled partial sums added in f32. A drain whose checks pass
writes its tile, correction and re-execution counted: `mdrainf` as f32 rows to scratchpad lines, `mdrain` as converted rows with their scale
codes, `mdrain.ch` to its channel's staging area in HBM; one whose checks fail raises `matrix-integrity`, its re-executions counted in the stamp, and firmware is told (R298).
Where the spec leaves a point open, the clauses rest on the model's reading, log entries 56 to 58. -/
def Obligations.MatrixProductsAndDrains : Prop :=
  ∀ (s : State) (b : Nat) (k : Block), MatrixIssues s b k →
    (∀ (i : Instr) (f : MulF), i.wf = true →
      ((∃ a r n g tn kp, i = .mmul a r n g tn kp ∧ f = ⟨a, r, n + 1, g, tn + 1, kp, false⟩) ∨
        (∃ a r g tn kp, i = .mmulw a r g tn kp ∧ f = ⟨a, r, 1, g, tn + 1, kp, true⟩)) →
      (k.mulOk f = true → k.recsOk f.rbs ((upFrom 0 f.nn).map f.mgs).flatten ((upFrom 0 f.nn).map (fun j => f.acc + j)) = true →
        ∃ t k0, exec i s = .next t ∧ MatrixPast s t b k0 ∧ (∃ w mt, k0 = { k with bwin := w, mtest := mt }) ∧
          (∀ w, (∀ j, f.acc ≤ j → j < f.acc + f.nn → ¬inTile k j w) → tget RWord.zero k0.bwin w = tget RWord.zero k.bwin w) ∧
          (f.wide = false → f.nn = 1 → apart k f.acc f.acc → k.mtest.toNat / 2 ^ 15 % 2 = 0 → ∀ m < 32, ∀ n < 32,
            tget RWord.zero k0.bwin (1024 * f.acc + 32 * m + n) = fresh (BitVec.ofNat 32 (
              (upFrom 0 f.nk).foldl (fun acc q =>
                let p := fun (j : Nat) => partSum (k.eblk (f.rb + q) m j) (k.bscale (f.mg + q) j n)
                  (dot (k.aread (f.rb + q) m j f.k) (k.bread (f.mg + q) j n))
                f32Add .rne acc (f32Add .rne (f32Add .rne (p 0) (p 1)) (f32Add .rne (p 2) (p 3))))
                (k.bn (1024 * f.acc + 32 * m + n)))))) ∧
      (k.mulOk f = false → exec i s = .next (s.raise 0x01 0))) ∧
    (∀ a, a < 32 → k.recsOk [] [] [a] = true →
      let v := k.verify a
      let s0 := s.countDrain k v
      let els := (v.b.tile a).el.map (fun y => y.val)
      (v.ok = false → (∀ x l, x < 8 → l < 256 → 512 * (k.index_ x + l) + 4096 ≤ spallocOf k.trec →
        ∃ t, OnlyBlk s0 t b v.b ∧ exec (.mdrainf a x l) s = .next ((t.interrupt 4).raise 0x0F a))) ∧
      (v.ok = true →
        (∀ x l, x < 8 → l < 256 → 512 * (k.index_ x + l) + 4096 ≤ spallocOf k.trec → ∃ t k0, exec (.mdrainf a x l) s = .next t ∧
          MatrixPast s0 t b k0 ∧ (∃ c bad ab, k0 = { v.b with scr := c, scrBad := bad, absent := ab }) ∧
          (∀ n < 1024, leAt (tgets 0 k0.scr (512 * (k.index_ x + l) + 4 * n) 4) 0 4 = (nth 0 els n).toNat) ∧
          (∀ n, (n < 512 * (k.index_ x + l) ∨ 512 * (k.index_ x + l) + 4096 ≤ n) → tget 0 k0.scr n = tget 0 k.scr n) ∧
          (∀ n ∈ k0.absent, n ∈ k.absent ∧ ¬lineIn (512 * (k.index_ x + l)) 4096 n)) ∧
        (∀ f p m sr x og, (Instr.mdrain a f p m sr x).wf = true → k.scaleOk sr = true → k.grp k.ogrp = some og →
          let w := drainWidth f
          let o := 512 * k.index_ x + w * p
          o + 128 * 31 + w ≤ spallocOf k.trec → ∃ t k0, exec (.mdrain a f p m sr x) s = .next t ∧ MatrixPast s0 t b k0 ∧
            (∃ c bad ab gs, k0 = { v.b with scr := c, scrBad := bad, absent := ab, groups := gs }) ∧
            (∀ r < 32, tgets 0 k0.scr (o + 128 * r) w = (drainRow f m (rowOf r (els.map (fun y => y.toNat)))).1 ∧
              (tget RWord.zero k0.operand.win (k.scaleWord sr r)).val.toNat / 256 ^ p % 256 =
                (drainRow f m (rowOf r (els.map (fun y => y.toNat)))).2)) ∧
        (∀ c, c < 64 → (s.chan c).part.toNat = k.trec.part → (s.chan c).tiles < 256 →
          let at_ := hbmBase + s.fab.stagebase.toNat % 65536 * 0x4000000 + c * 0x100000 + ((s.chan c).first + (s.chan c).tiles) % 256 * 4096
          inHbm at_ = true → ∃ t, exec (.mdrainCh a c) s = .next t ∧
            MatrixPast ((s0.homeWrite at_ (bytesOf els)).setChan c { s.chan c with tiles := (s.chan c).tiles + 1 }) t b v.b)))

namespace Sys2Proof.Claims
open Sys2Proof.Machine

/-- Group `g` of block `b` is changed alone: from `k` and `x` to `x'`, the issue state of its core apart. -/
def OnlyGrp (s t : State) (b g : Nat) (k : Block) (x' : Group) : Prop :=
  ∃ k', (∃ bs cs, t = { s with blocks := bs, cores := cs }) ∧ (∀ n, n ≠ b → t.blk n = s.blk n) ∧ t.bg b g = some (k', x') ∧
    (∃ gs, k' = { k with groups := gs }) ∧ (∀ n, n ≠ g → k'.grp n = k.grp n) ∧ (∀ n, n ≠ k.core → t.core n = s.core n) ∧
    ∃ qs, t.core k.core = { s.core k.core with quads := qs }

/-- A lane fails its clause's guard: the guard's bit, of the lane in most classes, of the group in S and P, does not have its sense (R17). -/
def guardFails (x : Group) (cls sense guard l : Nat) : Prop :=
  (if cls = 0 ∨ cls = 7 then spBit x.sp guard else (x.lane l).p guard) = decide (sense = 1)

/-- A core's breakpoints in force name a pc (R205). -/
def breaksAt (x : Group) (pc : Nat) : Prop :=
  ∃ v, (v = x.inf.bk0 ∨ v = x.inf.bk1 ∨ v = x.inf.bk2 ∨ v = x.inf.bk3) ∧ v.toNat / 2 ^ 63 = 1 ∧ v.toNat % 2 ^ 48 = pc

end Sys2Proof.Claims

open Sys2Proof Sys2Proof.Machine Sys2Proof.Claims in
/-- R17, R21, R166, R264 and R297: a header waits while a dependence counter that it names is not zero, then while its barrier's phase is
unfinished; past them the lanes of the set are in the clause at its first word, those that fail the guard inactive. The scalar side begins a
run of its clause; a stream and a management core enter theirs. That a management core ignores the header's wait bits is the model's choice, log
entry 62. Where the spec leaves a point open, the clauses rest on the model's reading, log entries 11, 16 and 62. -/
def Obligations.ClauseHeadersOpenTheirClauses : Prop :=
  ∀ (n cls y wait bb bar gg sense guard : Nat) (s : State), let i := Instr.clauseHeader n cls y wait bb bar gg sense guard
    i.wf = true →
    (∀ b g k x, s.cur.ag = .group b g → s.bg b g = some (k, x) → cls ≠ 0 → (∀ l ∈ s.cur.set, l < 32) → s.cur.set.Nodup →
      let zero := ∀ j < 6, bitOf wait j = true → tget 0 x.sb j = 0
      let came := (tget Bar.zero k.bars bar).grparr.getLsbD g
      (¬zero → exec i s = .next (s.wait .header)) ∧
      (zero → bb = 1 → came = true → exec i s = .next (s.wait (.barrier bar))) ∧
      (zero → bb = 0 → ∃ t x', exec i s = .next t ∧ OnlyGrp s t b g k x' ∧ x'.win = x.win ∧ x'.sregs = x.sregs ∧ x'.sb = x.sb ∧ x'.wait = none ∧
        (∀ l, l ∉ s.cur.set → x'.lane l = x.lane l) ∧
        (∀ l ∈ s.cur.set, ∃ off, x'.lane l = { x.lane l with
            entered := true, guardOff := off, pc := if (x.lane l).pc.toNat = s.cur.hdr then BitVec.ofNat 48 (s.cur.hdr + 4) else (x.lane l).pc } ∧
          (off = true ↔ gg = 1 ∧ guardFails x cls sense guard l)))) ∧
    (∀ b g k x, s.cur.ag = .scalar b g → s.bg b g = some (k, x) →
      let zero := ∀ j < 6, bitOf wait j = true → tget 0 x.sb j = 0
      (¬zero → exec i s = .next (s.wait .header)) ∧
      (zero → bb = 0 → ∃ t x' on, exec i s = .next t ∧ OnlyGrp s t b g k x' ∧
        x' = { x with swait := none, sc := some ⟨s.cur.hdr, (s.cur.pc - s.cur.hdr) / 4 - 1, n, decide (y = 1), on⟩ } ∧
        (on = false ↔ gg = 1 ∧ spBit x.sp guard = decide (sense = 1)))) ∧
    (∀ b k, s.cur.ag = .matrix b → s.blk b = some k → bb = 0 → ∃ t x', exec i s = .next t ∧ OnlyBlk s t b { k with ms := x' } ∧
      x'.entered = true ∧ x'.wait = none ∧ x'.pc = (if k.ms.pc = s.cur.hdr then s.cur.hdr + 4 else k.ms.pc) ∧ x'.running = k.ms.running) ∧
    (∀ b k, s.cur.ag = .copy b → s.blk b = some k → (wait ≠ 0 ∨ sense ≠ 0 → exec i s = .next (s.raise 0x01 0)) ∧
      (wait = 0 → sense = 0 → bb = 0 → ∃ t x', exec i s = .next t ∧ OnlyBlk s t b { k with cs := x' } ∧
        x'.entered = true ∧ x'.wait = none ∧ x'.pc = (if k.cs.pc = s.cur.hdr then s.cur.hdr + 4 else k.cs.pc) ∧ x'.running = k.cs.running)) ∧
    (∀ m, s.cur.ag = .mgmt m → ∃ t off, exec i s = .next t ∧ (∃ ms, t = { s with mcs := ms }) ∧ (∀ n, n ≠ m → t.mc n = s.mc n) ∧
      t.mc m = { s.mc m with
        entered := true, guardOff := off, pc := if (s.mc m).pc.toNat = s.cur.hdr then BitVec.ofNat 48 (s.cur.hdr + 4) else (s.mc m).pc } ∧
      (off = true ↔ gg = 1 ∧ spBit (s.mc m).sp guard = decide (sense = 1)))

open Sys2Proof Sys2Proof.Machine Sys2Proof.Claims in
/-- R63, R122, R200, R205, R206 and R266: a starved lane's set is selected next; groups passed over 64 times are promoted; a word at a
breakpoint in force raises the debug stop before it issues; a halted block's held fault, and a stop held for it, is taken once it runs; a stop
request stops the block that it names; a sample of a resident group, ended or not, is due once a period has passed.
Where the spec leaves a point open, the clauses rest on the model's reading, log entries 16, 31, 38 and 70. -/
def Obligations.CoreEventsActOnTheirGroups : Prop :=
  (∀ (s : State) (b g l : Nat) (k : Block) (x : Group), s.bg b g = some (k, x) → l < 32 →
    ((x.lane l).st = .live → 1024 ≤ (x.lane l).starve → x.forcedSet = [] → ∃ t x', exec (.divergenceStarvation b g l) s = .next t ∧
      OnlyGrp s t b g k x' ∧ x'.forced = some (x.lane l).pc.toNat ∧ x'.win = x.win ∧
      ∀ j < 32, x'.lane j = if (x.lane j).st = .live ∧ (x.lane j).pc = (x.lane l).pc then { x.lane j with deferred := false, starve := 0 } else x.lane j) ∧
    (¬((x.lane l).st = .live ∧ 1024 ≤ (x.lane l).starve ∧ x.forcedSet = []) → exec (.divergenceStarvation b g l) s = .next s)) ∧
  (∀ (s : State) (c q : Nat), q < 4 → ∃ t, exec (.groupPromotion c q) s = .next t ∧ (∃ bs cs, t = { s with blocks := bs, cores := cs }) ∧
    ∀ b g k x, s.bg b g = some (k, x) → (k, x) ∈ s.quadGroups c q → 64 ≤ x.skip → x.promo = none →
      ∃ k' n, t.bg b g = some (k', { x with promo := some n }) ∧ (s.quad c q).promoNext ≤ n ∧ n < (t.quad c q).promoNext) ∧
  (∀ (s : State) (b g : Nat) (k : Block) (x : Group), s.bg b g = some (k, x) → (s.cur.ag = .group b g ∨ s.cur.ag = .scalar b g) →
    (k.mode = .run → x.bkSkip = false → breaksAt x s.cur.pc → exec (.debugStopBreakpoint b g) s = .next (s.raise 0x13 0)) ∧
    (k.mode ≠ .run ∨ x.bkSkip = true ∨ ¬breaksAt x s.cur.pc → exec (.debugStopBreakpoint b g) s = .next s)) ∧
  (∀ (s : State) (b : Nat) (k : Block), s.blk b = some k → k.mode = .run → k.calling = false →
    (∀ f rest, k.pend = f :: rest → exec (.haltBroadcast b) s = .next ((s.updBlk b (fun y => { y with pend := rest })).takeFault b f false)) ∧
    (k.pend = [] → k.stopReq = true → exec (.haltBroadcast b) s = .next ((s.updBlk b (fun y => { y with stopReq := false })).takeFault b
      ⟨0x13, k.lowestHeld, 0, k.tracePc k.lowestHeld, 0, 0⟩ true)) ∧
    (k.pend = [] → k.stopReq = false → exec (.haltBroadcast b) s = .next s)) ∧
  (∀ (s : State) (die : Nat) (k : Block), s.blk k.id = some k →
    let named := fun (y : Block) => dieOf y.core = die ∧ y.index = (s.die die).stopblk.toNat ∧
      y.trec.addr = (s.die die).stoptLo.toNat + 2 ^ 32 * (s.die die).stoptHi.toNat
    (named k → k ∈ s.blocks → (∀ y ∈ s.blocks, named y → y = k) →
      (∀ h c, k.mode = .handler h c → ∃ t, exec (.debugStopRequest die) s = .next t ∧ OnlyBlk s t k.id { k with stopReq := true }) ∧
      (k.mode = .run → (∃ y ∈ k.groups, y.heldLanes ≠ []) → exec (.debugStopRequest die) s = .next (s.takeFault k.id
        ⟨0x13, k.lowestHeld, 0, k.tracePc k.lowestHeld, 0, 0⟩ true))) ∧
    ((∀ y ∈ s.blocks, ¬named y) → exec (.debugStopRequest die) s = .next s)) ∧
  (∀ (s : State) (c : Nat),
    let k := s.core c
    let period := k.tracectl.toNat / 2 ^ 8 % 2 ^ 16
    let due := period ≠ 0 ∧ k.traceLast + period * 1024 ≤ s.cycle ∧ bitOf k.tracectl.toNat 0 = true ∧ k.tracebase.toNat / 4096 ≠ 0
    (¬due → exec (.traceSample c) s = .next s) ∧
    (due → (∃ y ∈ s.blocks, y.core = c ∧ y.groups ≠ []) → ∃ y x, y ∈ s.blocks ∧ y.core = c ∧ x ∈ y.groups ∧
      exec (.traceSample c) s = .next ((s.setCore c { k with traceTurn := 64 * x.quad + x.slot + 1, traceLast := s.cycle }).trace 1 y x.num 0)))

open Sys2Proof Sys2Proof.Machine Sys2Proof.Claims in
/-- R60, R141, R220, R235, R237, R241, R244 to R246, R287, R291 and R307: a block placed stands on its core with its task's lanes at the task's
code and its registers as the record gives them, the core's trace registers at their resets; a die without work places nothing; a block that is
no victim and whose save does not wait is not saved, and one whose save succeeds leaves its core for the save ring. Retirement bits are only set, at most 16 of a die. A walk
of a die that has not stopped answers every group that waits on its page: its core's TLB holds the page's entry, or its `translation` is due. A
waiting atomic whose party the log's current chunk names runs, and where its operands, page and home are good it acts there once, takes one from
the run, and has its store hashed; an atomic diverges once its wait is over the gate limit. An error in a register window inverts one
bit; an uncorrectable one marks a word of a scratchpad, or poisons an HBM sector, which its stack counts.
Where the spec leaves a point open, the clauses rest on the model's reading, log entries 35, 37, 57 and 75. -/
def Obligations.DieEventsPlaceSaveAndAnswer : Prop :=
  (∀ (s : State) (q : Grid) (c index : Nat), ((s.placeNew q c index).core c).tracebase = 0 ∧ ((s.placeNew q c index).core c).tracectl = 0 ∧
    ((s.placeNew q c index).core c).traceseq = 0 ∧ ((s.placeNew q c index).core c).tracedrop = 0) ∧
  (∀ (s : State) (q : Grid) (c index : Nat), ∃ k, (s.placeNew q c index).blocks = s.blocks ++ [k] ∧ k.id = s.blkNext ∧ k.core = c ∧ k.index = index ∧
    k.task = q.task ∧ k.trec = q.trec ∧ k.mode = .run ∧ k.bwin = [] ∧ k.scr = [] ∧ k.groups.length = q.trec.groups ∧
    (∀ n < q.trec.groups, ∃ x, k.grp n = some x ∧ x.frame = q.trec.frame ∧ x.win = [] ∧ x.sregs = [] ∧ x.spillbase =
        BitVec.ofNat 64 (q.trec.spill + 64 * q.trec.sstride * (index * q.trec.groups + n)) ∧
      (∀ l < 32, (x.lane l).st = (if l < q.trec.lanes then .live else .free)) ∧
      (∀ l < 32, l < q.trec.lanes → (x.lane l).pc = BitVec.ofNat 48 q.trec.code ∧ (x.lane l).pred = 1 ∧ (x.lane l).depth = 0))) ∧
  (∀ (s : State) (d : Nat), (4 ≤ d ∨ s.savingOn d = [] ∧ ∀ p < 24, s.pool p = []) → exec (.blockPlacement d) s = .next s) ∧
  (∀ (s : State) (d : Nat), d < 4 → ∃ t, exec (.blockPlacement d) s = .next t ∧ t = (s.goOnSaving d).placeAll d 4096) ∧
  (∀ (s : State) (b : Nat) (k : Block), s.blk b = some k →
    (k.saving = .no → s.isVictim k = false → exec (.preemptionSave b) s = .next s) ∧
    (k.saving ≠ .no ∨ s.isVictim k = true → ∃ t, exec (.preemptionSave b) s = .next t ∧ t = (s.saveBlock b).1 ∧
      ((s.saveBlock b).2 = .saved → t.blk b = none ∧ ∃ v ∈ t.saved, v.blk.id = b))) ∧
  (∀ (s : State) (d hi v : Nat), d < 4 →
    let lo' := if hi = 1 then (s.die d).retLo else (s.die d).retLo ||| BitVec.ofNat 32 v
    let hi' := if hi = 1 then (s.die d).retHi ||| BitVec.ofNat 32 v else (s.die d).retHi
    let many := ((upFrom 0 64).filter (fun i => bitOf (lo'.toNat + 2 ^ 32 * hi'.toNat) i)).length
    ∃ t, exec (.dcRetireWrite d hi v) s = .next t ∧ (16 < many → t = s) ∧
      (many ≤ 16 → (t.die d).retLo = lo' ∧ (t.die d).retHi = hi' ∧ ((∀ y ∈ s.blocks, dieOf y.core ≠ d) → ∃ x ms, t = { s.setDie d { s.die d with retLo := lo', retHi := hi' } with xd := x, mcs := ms }))) ∧
  (∀ (s : State) (d p page : Nat),
    let mine := fun (y : WalkReq) => decide (y.part = p) && decide (y.page = page)
    let waits := fun (o : Option Wait) => ∃ v, o = some v ∧ v.on = .walk page
    ((s.die d).dead = true ∨ (∀ y ∈ (s.die d).walkq, mine y = false) → exec (.tlbWalk d p page) s = .next s) ∧
    ((s.die d).dead = false → (∃ y ∈ (s.die d).walkq, mine y = true) → ∃ t, exec (.tlbWalk d p page) s = .next t ∧
      (∃ cs ds, t = { s with cores := cs, dies := ds }) ∧
      (t.die d).walkq = (s.die d).walkq.filter (fun y => !mine y) ∧ (t.die d).walks = satInc32 (s.die d).walks ∧
      (∀ m, s.mapping p (65536 * page) = some m → ∀ y ∈ (s.die d).walkq, mine y = true → ∃ e ∈ (t.core y.core).tlb, e.part = p ∧ e.map = m) ∧
      (s.mapping p (65536 * page) = none → ∀ y ∈ (s.die d).walkq, mine y = true → ∀ k x, s.bg y.blk y.grp = some (k, x) →
        waits x.wait ∨ waits x.swait → y ∈ (t.core y.core).fails))) ∧
  (∀ (s : State) (d b g : Nat) (k : Block) (r : RrDesc) (c : Cur) (cls word : Nat) (w : GWait) (i : Instr), s.gateWait d b g = some w → s.blk b = some k →
    k.rr = some r → s.waitingCur b g = some (c, cls, word) →
    (decodeWord 5 word = .ok i → (atomRow i).isSome = true → (s.rrNow k.trec.part r).2.1 ≠ 0 → (s.rrNow k.trec.part r).2.2 = w.party →
      exec (.replayGauntletAdmit d b g) s = exec i { s with cur := c }) ∧
    ((s.rrNow k.trec.part r).2.1 = 0 ∨ (s.rrNow k.trec.part r).2.2 ≠ w.party → exec (.replayGauntletAdmit d b g) s = .next s)) ∧
  (∀ (s : State) (d b g : Nat) (k : Block) (x : Group) (r : RrDesc) (c : Cur) (cls word : Nat) (w : GWait) (y : Wait) (i : Instr) (a : AtomRow) (pa : Nat),
    s.gateWait d b g = some w → k.rr = some r → x.wait = some y → y.on = .gauntlet → s.waitingCur b g = some (c, cls, word) →
    decodeWord 5 word = .ok i → i.wf = true → atomRow i = some a →
    let u := { s with cur := c }
    u.Issues b g k x → SlotsIn k x a.slots →
    let l0 := lowest c.act
    let aw := addressWords k x a.v a.a l0
    let ctl := valOf aw / 2 ^ 56
    let va := valOf aw % 2 ^ 56
    let xs := a.operand k x a.useX a.b l0
    let ys := a.operand k x a.useB2 (a.b + 1) l0
    ctl % 8 ≤ 5 ∧ (ctl % 8 = 0 ∨ ctl / 8 % 4 ≠ 0) ∧ ctl / 32 < a.opts → va % a.bytes = 0 → goodOf aw = true → goodOf xs = true → goodOf ys = true →
    u.homeAt k va (if a.writes then [.wr, .rd] else [.rd]) = .ok pa → homeDie pa = d → u.inMirror k.trec.part pa = false → u.poisonedIn pa a.bytes = false →
    r.mode ≠ 1 → r.lo ≤ va → va < r.hi → (s.rrNow k.trec.part r).2.1 ≠ 0 → (s.rrNow k.trec.part r).2.2 = w.party → k.party15 g = w.party →
    let v := (u.gateLeave d b g).rrTake k.trec.part r
    ∃ t, AtomicActs v t b g k x a ctl pa (valOf xs) (valOf ys) ∧
      let old := ((v.sectorHome k.core pa a.bytes).recall pa a.bytes).homeLe pa a.bytes
      let h := t.hashStores b g (unitsOf va a.bytes (a.f (8 * a.bytes) old (valOf xs) (valOf ys) (ctl / 32)).1 l0)
      exec (.replayGauntletAdmit d b g) s = .next (if a.writes then (match h.2 with | none => h.1 | some l => h.1.diverge (maskOf [l])) else t)) ∧
  (∀ (s : State) (d b g : Nat) (k : Block) (x : Group) (r : RrDesc) (w : GWait) (y : Wait), s.gateWait d b g = some w → s.bg b g = some (k, x) →
    k.rr = some r → x.wait = some y →
    let late := r.gate ≠ 0 ∧ w.start + 1024 * r.gate < s.cycle ∧ ¬((s.rrNow k.trec.part r).2.1 ≠ 0 ∧ (s.rrNow k.trec.part r).2.2 = w.party)
    (late → exec (.replayGateTimeout d b g) s = .next ((s.gateLeave d b g).raiseAt (.group b g) 0x12 y.lanes y.pc 0)) ∧
    (¬late → exec (.replayGateTimeout d b g) s = .next s)) ∧
  (∀ (s : State) (c : Nat), c < 256 → (s.core c).retired < 127 →
    exec (.registerUnitRetirement c) s = .next (s.setCore c { s.core c with retired := (s.core c).retired + 1 })) ∧
  (∀ (s : State) (b g a bit : Nat) (k : Block) (x : Group), s.bg b g = some (k, x) →
    (a < k.gwinBytes → ∃ t k' x', exec (.softError 0 b g a bit) s = .next t ∧ t.bg b g = some (k', x') ∧ (∃ bs, t = { s with blocks := bs }) ∧
      ∀ w, tget RWord.zero x'.win w = if w = a / 4 then ⟨(tget RWord.zero x.win w).val ^^^ BitVec.ofNat 32 (2 ^ (bit % 32)), (tget RWord.zero x.win w).res⟩
        else tget RWord.zero x.win w) ∧
    (a < k.bwinBytes → ∃ t k', exec (.softError 1 b g a bit) s = .next t ∧ t.blk b = some k' ∧ (∃ bs, t = { s with blocks := bs }) ∧
      ∀ w, tget RWord.zero k'.bwin w = if w = a / 4 then ⟨(tget RWord.zero k.bwin w).val ^^^ BitVec.ofNat 32 (2 ^ (bit % 32)), (tget RWord.zero k.bwin w).res⟩
        else tget RWord.zero k.bwin w) ∧
    (a < spallocOf k.trec → ∃ t k', exec (.softError 3 b g a bit) s = .next t ∧ OnlyBlk s t b k' ∧ (∃ z, k' = { k with scrBad := z }) ∧
      ∀ n, n ∈ k'.scrBad ↔ n = a / 8 ∨ n ∈ k.scrBad) ∧
    (inHbm a = true → ∃ t, exec (.softError 6 b g a bit) s = .next t ∧ (∃ hs z, t = { s with hbms := hs, poison := z }) ∧
      (∀ n, t.poisoned n = true ↔ n = a / 32 ∨ s.poisoned n = true) ∧
      (t.hbm ((a - hbmBase) / 2 ^ 30 / 48)).unc = satInc32 (s.hbm ((a - hbmBase) / 2 ^ 30 / 48)).unc))

namespace Sys2Proof.Claims
open Sys2Proof.Machine

/-- No sector is poisoned, no vault word bad, no line leased out and no cuff open: a home write then touches its own bytes alone. -/
def PlainHomes (s : State) : Prop := s.poison = [] ∧ s.vbad = [] ∧ s.leases = [] ∧ s.anyCuff = false

/-- Queue `q` alone is changed: it stands as `k`. -/
def OnlyQueue (s t : State) (q : Nat) (k : CQueue) : Prop :=
  (∃ qs, t = { s with queues := qs }) ∧ t.queue q = some k ∧ ∀ n, n ≠ q → t.queue n = s.queue n

/-- The home bytes of `s` are kept but for those that `p` names. -/
def HomesKept (s t : State) (p : Nat → Prop) : Prop := ∀ a, ¬p a → t.homeByte a = s.homeByte a

/-- A packet ends early with a status at the chunk that was next (R257). -/
def endedWith (f : Inflight) (st : Nat) : Inflight := { f with status := st, failing := f.next, done := true }

/-- A chunk of `n` bytes of a packet has landed (R254). -/
def landedOne (f : Inflight) (n : Nat) : Inflight :=
  { f with next := f.next + 1, landed := f.landed + 1, written := f.written + n, done := decide (f.total ≤ f.next + 1) }

/-- The completion record of R257. -/
def completionRecord (s : State) (k : CQueue) (f : Inflight) : List Byte :=
  toLe 4 (2 ^ 31 * (f.idx / s.qSize k.off % 2) + 2 ^ 24 * f.status + pktTag f.pkt) ++ toLe 2 k.num ++ toLe 1 (pktMode f.pkt) ++ [0] ++ toLe 4 f.idx
    ++ toLe 2 f.landed ++ toLe 2 f.total ++ toLe 4 f.overrun ++ toLe 2 f.failing ++ [0, 0] ++ toLe 8 f.written ++ toLe 4 f.t0 ++ toLe 4 s.cycle
    ++ List.replicate 24 0

/-- Packet `f` of queue `q` has ended: its record stands in the completion ring, ridx is past it, and the state byte of the queue is `st`
(R252, R257). -/
def PacketEnded (s u : State) (q : Nat) (k : CQueue) (f : Inflight) (st : Nat) : Prop :=
  let h := syncBase + k.off
  let at_ := s.qField k.off 0x18 8 + 64 * (f.idx % s.qSize k.off)
  (∃ m qs, u = { s with mem := m, queues := qs }) ∧
  u.queue q = some { k with infl := none, abandoned := k.abandoned.filter (fun i => decide (i ≠ f.idx)) } ∧ (∀ n, n ≠ q → u.queue n = s.queue n) ∧
  u.homeBytes at_ 64 = completionRecord s k f ∧ u.qRidx k.off = (f.idx + 1) % 2 ^ 32 ∧ u.qField k.off 0x11 1 = st ∧
  HomesKept s u (fun a => (at_ ≤ a ∧ a < at_ + 64) ∨ (h + 4 ≤ a ∧ a < h + 8) ∨ a = h + 0x11)

/-- The state byte that a packet's end leaves where it stops nothing: 0 once the queue is empty (R252). -/
def stateAfter (s : State) (k : CQueue) (f : Inflight) : Nat :=
  if (f.idx + 1) % 2 ^ 32 = s.qWidx k.off ∧ s.qField k.off 0x11 1 ≠ 2 then 0 else s.qField k.off 0x11 1

/-- The completion ring's slot lies in a sync area of the queue's partition, apart from the queue's header (R246, R252). -/
def RecordApart (s : State) (k : CQueue) (f : Inflight) : Prop :=
  let at_ := s.qField k.off 0x18 8 + 64 * (f.idx % s.qSize k.off)
  regionOf at_ = .sync ∧ syncSlice at_ ∈ (s.part k.part).cfg.slices ∧ (at_ + 64 ≤ syncBase + k.off ∨ syncBase + k.off + 64 ≤ at_)

/-- Line `l` of a scratchpad is one that the destination stream of a packet names: `n` bytes from its address on (R14, R143). -/
def namesLine (o : Block) (p : List Byte) (n l : Nat) : Prop :=
  l < o.lines ∧ ∃ i < n, ((copyByte p [] i).2 - scrBase) / 512 = l

/-- An entry of a fence is satisfied (R261). -/
def joined (s : State) (k : CQueue) (e : Nat) : Prop :=
  (e / 2 ^ 32 = 0 ∧ e / 2 ^ 16 % 1024 = 0) ∨ e / 2 ^ 16 % 1024 = k.num ∨
    ∃ z, s.queue (e / 2 ^ 16 % 1024) = some z ∧ (s.qRidx z.off + 2 ^ 32 - e / 2 ^ 32) % 2 ^ 32 < 2 ^ 31

/-- The source of byte `i` of a packet's destination stream. -/
def streamByte (s : State) (k : CQueue) (own : Option Block) (p : List Byte) (gl : List (Nat × Nat)) (i : Nat) : Byte ⊕ Nat :=
  match (copyByte p gl i).1 with
  | .at a => s.engineRead k.part own a
  | .pat v => .inl (BitVec.ofNat 8 v)

/-- R253, R254, R257, R260 and R307: an engine of a die that has not stopped begins the packet at ridx once it is claimed and its slot is valid;
an abandoned one is not begun and ends with status 3, one that breaks the limits of R254 to R256 with status 5; one that begins clears the
presence bits of its destination lines (R14, R143). -/
def PacketsBegin : Prop :=
  ∀ (s : State) (q : Nat) (k : CQueue), (s.writeKept q).queue q = some k →
    let s1 := s.writeKept q
    let i := s1.qRidx k.off
    let p := s1.qPacket k i
    let ready := k.infl = none ∧ s1.engineDead k = false ∧ s1.qStopped k.off = false ∧ i ≠ s1.qWidx k.off ∧ s1.qValid k i = true
    let known := pktMode p ≠ 4 ∧ (pktMode p ≤ 9 ∨ pktMode p = 15)
    (¬ready → exec (.packetBegin q) s = .next s1) ∧
    (ready → i ∈ k.abandoned → ∃ t f, exec (.packetBegin q) s = .next t ∧ t.queue q = some { k with infl := some f } ∧
      (∃ qs fc, t = { s1 with queues := qs, freeCtr := fc }) ∧ (∀ n, n ≠ q → t.queue n = s1.queue n) ∧
      f.idx = i ∧ f.pkt = p ∧ f.status = 3 ∧ f.done = true ∧ f.landed = 0 ∧ f.written = 0 ∧ f.t0 = s.cycle % 2 ^ 32 ∧
      (known → f.total = packetChunks p [])) ∧
    (ready → i ∉ k.abandoned → ∃ t f, exec (.packetBegin q) s = .next t ∧ t.queue q = some { k with infl := some f } ∧
      (∀ n, n ≠ q → t.queue n = s1.queue n) ∧ f.idx = i ∧ f.pkt = p ∧ f.t0 = s.cycle % 2 ^ 32 ∧ f.landed = 0 ∧ f.written = 0 ∧
      (known → f.total = packetChunks p []) ∧ (PlainHomes s1 → t.qField k.off 0x11 1 = 1) ∧
      (pktMode p ≠ 4 → s1.packetOk p [] = false → f.status = 5 ∧ f.done = true) ∧
      (pktMode p < 4 ∨ pktMode p = 5 → s1.packetOk p [] = true → regionOf (pktDst p) ≠ .scr →
        f = ⟨i, p, 0, (streamBytes p [] + 511) / 512, 0, 0, 0xFFFF, overrunOf p, 0, s.cycle % 2 ^ 32, decide (streamBytes p [] = 0), false, 0, []⟩) ∧
      (pktMode p < 4 ∨ pktMode p = 5 → s1.packetOk p [] = true → regionOf (pktDst p) = .scr →
        (s1.ownerBlk p = none → f.status = 2 ∧ f.done = true) ∧ (s1.ownerBlk p ≠ none → f.status = 0 ∧ f.next = 0)) ∧
      (regionOf (pktDst p) ≠ .scr ∨ s1.ownerBlk p = none → t.blocks = s1.blocks) ∧
      (pktMode p < 4 ∨ pktMode p = 5 → regionOf (pktDst p) = .scr → ∀ o y, s1.ownerBlk p = some o → s1.blk o.id = some y →
        ∃ y', t.blk o.id = some y' ∧ (∃ a, y' = { y with absent := a }) ∧
          ∀ l, l ∈ y'.absent ↔ l ∈ y.absent ∨ namesLine o p (streamBytes p []) l))

/-- R143, R254, R255, R257, R307, R336 and R338: the rest of the next chunk of a local packet lands in memory, in host memory or in the owner's scratchpad, whose
line takes every byte of the chunk, the sectors written before among them, and is present then, or ends its packet with the status of the first byte that fails; the answer to a remote request lands its
chunk or ends its packet with status 6. -/
def ChunksLand : Prop :=
  (∀ (s : State) (q : Nat) (k : CQueue) (f : Inflight) (gl : List (Nat × Nat)), s.queue q = some k → k.infl = some f → k.num = q →
    f.done = false → s.engineDead k = false → f.remote = false → pktMode f.pkt ≠ 15 → s.gatherList k (s.ownerBlk f.pkt) f.pkt = .inl gl →
    let own := s.ownerBlk f.pkt
    let n := min 512 (streamBytes f.pkt gl - 512 * f.next)
    let src := fun (j : Nat) => streamByte s k own f.pkt gl (512 * f.next + j)
    let dst := fun (j : Nat) => s.engineDst k.part own (copyByte f.pkt gl (512 * f.next + j)).2
    (∀ j e, f.off ≤ j → j < n → src j = .inr e → (∀ m, f.off ≤ m → m < j → ∃ v, src m = .inl v) →
      ∃ t, exec (.chunkLanding q []) s = .next t ∧ OnlyQueue s t q { k with infl := some (endedWith f e) }) ∧
    (∀ j e, f.off ≤ j → j < n → (∀ m, f.off ≤ m → m < n → ∃ v, src m = .inl v) → dst j = .inr e →
      (∀ m, f.off ≤ m → m < j → ∃ y, dst m = .inl y) →
      ∃ t, exec (.chunkLanding q []) s = .next t ∧ OnlyQueue s t q { k with infl := some (endedWith f e) }) ∧
    (∀ (v : Nat → Byte) (a : Nat → Nat) (place : Nat),
      let mine := fun (j : Nat) => f.off ≤ j ∧ j < n
      (∀ j, mine j → src j = .inl (v j)) → (∀ j, mine j → dst j = .inl (place, a j)) →
      (∀ i j, mine i → mine j → a i = a j → i = j) → pktCb f.pkt = 255 →
      ∃ t, exec (.chunkLanding q []) s = .next t ∧ t.queue q = some { k with infl := some { landedOne f (n - f.off) with off := 0, ahead := [] } } ∧
        (∀ m, m ≠ q → t.queue m = s.queue m) ∧
        (place = 0 → PlainHomes s → regionOf (pktDst f.pkt) ≠ .scr → (∀ j, mine j → t.homeByte (a j) = v j) ∧
          HomesKept s t (fun x => ∃ j, mine j ∧ x = a j) ∧ t.blocks = s.blocks ∧ t.hostMem = s.hostMem) ∧
        (place = 2 → regionOf (pktDst f.pkt) ≠ .scr → (∀ j, mine j → tget 0 t.hostMem (a j) = v j) ∧
          (∀ x, (∀ j, mine j → x ≠ a j) → tget 0 t.hostMem x = tget 0 s.hostMem x) ∧ t.blocks = s.blocks ∧ t.mem = s.mem) ∧
        (place = 1 → regionOf (pktDst f.pkt) = .scr → (f.off = 0 → f.ahead = []) → let z := pktDst f.pkt - scrBase + 512 * f.next
          let early := fun (x : Nat) => z ≤ x ∧ x < z + f.ahead.length
          (∀ j, mine j → ¬early (a j)) → ∀ o y, own = some o → s.blk o.id = some y → ∃ y', t.blk o.id = some y' ∧
          (∃ sc bad ab, y' = { y with scr := sc, scrBad := bad, absent := ab }) ∧ (∀ j, mine j → tget 0 y'.scr (a j) = v j) ∧
          (∀ x, early x → tget 0 y'.scr x = nth 0 f.ahead (x - z)) ∧
          (∀ x, ¬early x → (∀ j, mine j → x ≠ a j) → tget 0 y'.scr x = tget 0 y.scr x) ∧
          (∀ l, l ∈ y'.absent ↔ l ∈ y.absent ∧ l ≠ (pktDst f.pkt - scrBase) / 512 + f.next) ∧ t.mem = s.mem ∧ t.hostMem = s.hostMem))) ∧
  (∀ (s : State) (q : Nat) (k : CQueue) (f : Inflight) (st : Nat) (bs : List Nat), s.queue q = some k → k.infl = some f → k.num = q →
    f.done = false → s.engineDead k = false → f.remote = true → pktMode f.pkt ≠ 15 →
    (st ≠ 0 → ∃ t, exec (.chunkLanding q (st :: bs)) s = .next t ∧ t.queue q = some { k with infl := some (endedWith f 6) } ∧
      (∀ n, n ≠ q → t.queue n = s.queue n) ∧ (∀ x ∈ t.fab.remotes, x.1 ≠ q) ∧ (∃ fb qs, t = { s with fab := fb, queues := qs })) ∧
    (st = 0 → pktMode f.pkt = 7 ∨ pktMode f.pkt = 8 → f.total ≤ f.next + 1 → ∃ t, exec (.chunkLanding q (st :: bs)) s = .next t ∧
      t.queue q = some { k with infl := some (landedOne f (min 512 (pktLen f.pkt - 512 * f.next))) } ∧ (∀ x ∈ t.fab.remotes, x.1 ≠ q) ∧
      t.fab.out = s.fab.out ∧ t.blocks = s.blocks ∧ t.hostMem = s.hostMem)) ∧
  (∀ (s : State) (q : Nat) (data : List Nat),
    (∀ k f, s.queue q = some k → k.infl = some f → f.done = true ∨ s.engineDead k = true ∨ pktMode f.pkt = 15) →
    exec (.chunkLanding q data) s = .next s)

/-- R252, R257, R258 and R261: a packet that is done writes its completion record and advances ridx; a failing packet of the host or of an
owner that has ended stops its queue, one of a resident block raises `copy-fault` there; a fence ends once every named queue has reached its
index. -/
def PacketsEnd : Prop :=
  (∀ (s : State) (q : Nat) (k : CQueue) (f : Inflight), s.queue q = some k → k.infl = some f → k.num = q →
    (f.done = false ∨ s.engineDead k = true → exec (.packetCompletion q) s = .next s) ∧
    (f.done = true → s.engineDead k = false → PlainHomes s → RecordApart s k f →
      (f.status = 0 ∨ f.status = 3 → ∃ t, exec (.packetCompletion q) s = .next t ∧ PacketEnded s t q k f (stateAfter s k f)) ∧
      (f.status ≠ 0 → f.status ≠ 3 → (leAt f.pkt 4 4 / 2 ^ 31 ≠ 1 ∨ s.ownerBlk f.pkt = none) →
        ∃ t, exec (.packetCompletion q) s = .next t ∧ PacketEnded s t q k f 2) ∧
      (∀ b, f.status ≠ 0 → f.status ≠ 3 → leAt f.pkt 4 4 / 2 ^ 31 = 1 → s.ownerBlk f.pkt = some b →
        let w := leAt f.pkt 4 4
        let grp := if bitOf w 26 then 0x11 else w / 2 ^ 8 % 16
        let chunk := if f.failing = 0xFFFF then 0 else f.failing % 512
        ∃ u, PacketEnded s u q k f (stateAfter s k f) ∧ exec (.packetCompletion q) s = .next ((u.abandonAll b).1.asyncFault b.id
          ⟨0x10, grp, 0, b.tracePc grp, k.num % 1024 * 2 ^ 54 + chunk * 2 ^ 32 + f.idx % 2 ^ 32, 0⟩))) ∧
    (pktMode f.pkt = 15 → f.done = false → s.engineDead k = false → f.status = 0 →
      ((∀ j < 7, joined s k (leAt f.pkt (8 + 8 * j) 8)) → PlainHomes s → RecordApart s k f →
        ∃ t, exec (.fencePacket q) s = .next t ∧ PacketEnded s t q k f (stateAfter s k f)) ∧
      ((∃ j < 7, ¬joined s k (leAt f.pkt (8 + 8 * j) 8)) → exec (.fencePacket q) s = .next s)))

/-- R258, R260, R263 and R336: the queue logic writes a kept packet once its slot is free; the host restarts a stopped queue of its own
partition; a remote packet whose target has not answered for 1 ms ends with status 6. -/
def QueuesRecover : Prop :=
  (∀ (s : State) (q : Nat) (k : CQueue), s.queue q = some k →
    ((∀ c ∈ k.kept, s.qFree k.off c.idx = false) → ∃ t, exec (.abandonedSlotWrite q) s = .next t ∧ OnlyQueue s t q k) ∧
    (∀ c, k.kept = [c] → c.pkt.length = 64 → s.qFree k.off c.idx = true → PlainHomes s → ∃ t, exec (.abandonedSlotWrite q) s = .next t ∧
      t.queue q = some { k with kept := [] } ∧ (∀ n, n ≠ q → t.queue n = s.queue n) ∧ (∃ m qs, t = { s with mem := m, queues := qs }) ∧
      (s.qSlot k c.idx = none → t.mem = s.mem) ∧ ∀ pa, s.qSlot k c.idx = some pa →
        t.homeBytes pa 64 = toLe 4 (leAt c.pkt 0 4 % 2 ^ 31 + 2 ^ 31 * (c.idx / s.qSize k.off % 2)) ++ c.pkt.drop 4 ∧
        HomesKept s t (fun a => pa ≤ a ∧ a < pa + 64))) ∧
  (∀ (s : State) (v q : Nat) (k : CQueue), s.queue q = some k →
    ((s.vf v).part = some k.part → s.qField k.off 0x11 1 = 2 → PlainHomes s → ∃ t, exec (.queueRestart v q) s = .next t ∧
      (∃ m, t = { s with mem := m }) ∧ t.qField k.off 0x11 1 = 1 ∧ HomesKept s t (fun a => a = syncBase + k.off + 0x11)) ∧
    ((s.vf v).part ≠ some k.part ∨ s.qField k.off 0x11 1 ≠ 2 → exec (.queueRestart v q) s = .next s)) ∧
  (∀ (s : State) (q : Nat) (k : CQueue) (f : Inflight), s.queue q = some k → k.infl = some f → k.num = q →
    let late := f.remote = true ∧ f.done = false ∧ ∃ x ∈ s.fab.remotes, x.1 = q ∧ x.2 + 4000000 ≤ s.cycle
    (late → ∃ t, exec (.remoteTimeout q) s = .next t ∧ OnlyQueue s t q { k with infl := some (endedWith f 6) }) ∧
    (¬late → exec (.remoteTimeout q) s = .next s))

end Sys2Proof.Claims

open Sys2Proof Sys2Proof.Machine Sys2Proof.Claims in
/-- R143, R252 to R261, R307, R336 and R338: the copy engines of a die that has not stopped begin packets, land their chunks and end them, and the queues recover.
Where the spec leaves a point open, the clauses rest on the model's reading, log entries 20, 26, 27, 32, 39 and 61. -/
def Obligations.CopyEnginesPerformTheirPackets : Prop := PacketsBegin ∧ ChunksLand ∧ PacketsEnd ∧ QueuesRecover

namespace Sys2Proof.Claims
open Sys2Proof.Machine

/-- The sync-window address of a BAR 0 offset of a virtual function, if its partition holds the slice (R246, R293). -/
def IsAperture (s : State) (v off a : Nat) : Prop :=
  ∃ p, (s.vf v).part = some p ∧ 0x800000 ≤ off ∧ off < 0x1000000 ∧ (off - 0x800000) / 0x40000 ∈ (s.part p).cfg.slices ∧
    a = 0xE000000000 + (off - 0x800000) / 0x40000 / 8 * 0x200000 + (off - 0x800000) / 0x40000 % 8 * 0x40000 + (off - 0x800000) % 0x40000

/-- The bytes from an address were written, and nothing else of the state is changed. -/
def HomeWritten (s t : State) (a : Nat) (bs : List Byte) : Prop :=
  (∃ m, t = { s with mem := m }) ∧ t.homeBytes a bs.length = bs ∧ HomesKept s t (fun x => a ≤ x ∧ x < a + bs.length)

/-- A virtual function alone is changed. -/
def OnlyVf (s t : State) (v : Nat) (k : Vf) : Prop := (∃ vs, t = { s with vfs := vs }) ∧ t.vf v = k ∧ ∀ n, n ≠ v → t.vf n = s.vf n

/-- A release write of R294 is well-formed: 8 bytes at offset 0 that name an aligned record of the partition. -/
def ReleaseOf (s : State) (p off : Nat) (data : List Nat) (pa : Nat) : Prop :=
  let w := leAt (byteList data) 0 8
  off = 0 ∧ data.length = 8 ∧ w < 2 ^ 56 ∧ w % 128 = 0 ∧ regionOf w = .mem ∧ s.xlateNow p .rd w = .ok pa ∧ (∃ x, s.xlateNow p .wr w = .ok x) ∧
    s.homeLe (pa + 0x3D) 1 = p

/-- A stack's controller alone is changed. -/
def OnlyHbm (s t : State) (n : Nat) (k : Stack) : Prop := (∃ hs, t = { s with hbms := hs }) ∧ t.hbm n = k ∧ ∀ m, m ≠ n → t.hbm m = s.hbm m

/-- A classifier's table is in order: indices below 1,024, each with errors, no bank twice. -/
def tableOk (k : Stack) : Prop :=
  canonical ClsEnt.none k.ents = true ∧ (∀ y ∈ k.ents, y.1 < 1024 ∧ y.2.cnt ≠ 0) ∧
    ∀ y ∈ k.ents, ∀ z ∈ k.ents, y.2.ch = z.2.ch → y.2.bank = z.2.bank → y.1 = z.1

/-- The index that a bank's error updates or takes (R288). -/
def takesIndex (k : Stack) (ch bank i : Nat) : Prop :=
  (∃ e, (i, e) ∈ k.ents ∧ e.ch = ch ∧ e.bank = bank) ∨
  ((∀ y ∈ k.ents, ¬(y.2.ch = ch ∧ y.2.bank = bank)) ∧
    ((i < 1024 ∧ k.ent i = .none ∧ ∀ j < i, k.ent j ≠ .none) ∨
     ((∀ j < 1024, k.ent j ≠ .none) ∧ (∃ e, (i, e) ∈ k.ents) ∧ ∀ y ∈ k.ents, (k.ent i).cnt < y.2.cnt ∨ ((k.ent i).cnt = y.2.cnt ∧ (k.ent i).order ≤ y.2.order))))

/-- A list holds at least `n` distinct numbers. -/
def distinctAtLeast (n : Nat) (xs : List Nat) : Prop := ∃ l : List Nat, l.Nodup ∧ l.length = n ∧ ∀ x ∈ l, x ∈ xs

/-- The class that a list of errors, each a row and a column, shows (R288). -/
def shows (errs : List (Nat × Nat)) (c : Nat) : Prop :=
  let bank := distinctAtLeast 3 (errs.map Prod.fst) ∧ distinctAtLeast 3 (errs.map Prod.snd)
  let row := ∃ r, distinctAtLeast 4 ((errs.filter (fun e => decide (e.1 = r))).map Prod.snd)
  let col := ∃ q, distinctAtLeast 4 ((errs.filter (fun e => decide (e.2 = q))).map Prod.fst)
  let cell := ∃ e, 3 ≤ errs.count e
  (bank → c = 4) ∧ (¬bank → row → c = 2) ∧ (¬bank → ¬row → col → c = 3) ∧ (¬bank → ¬row → ¬col → cell → c = 1) ∧
    (¬bank → ¬row → ¬col → ¬cell → c = 0)

/-- The kinds of a month's summary records in the order of appending (R304, R305). -/
def summaryKinds : List Nat := 1 :: List.replicate 34 2 ++ List.replicate 34 3 ++ [4, 5] ++ List.replicate 16 6 ++ List.replicate 16 7

/-- The X-die block after a cold start: the fuses and the flash stay, everything else is at its reset value (R308). -/
def FusesKept (s t : State) : Prop :=
  t.xd.fusemin = s.xd.fusemin ∧ t.xd.keyHash = s.xd.keyHash ∧ t.xd.secret = s.xd.secret ∧ t.xd.targets = s.xd.targets

/-- No work, queue, register or link of the package outlives its reset (R308). -/
def AllReset (t : State) : Prop :=
  t.hostMem = [] ∧ t.hostBad = [] ∧ t.poison = [] ∧ t.vbad = [] ∧ t.blocks = [] ∧ t.saved = [] ∧ t.grids = [] ∧ t.cores = [] ∧ t.parts = [] ∧
    t.vfs = [] ∧ t.queues = [] ∧ t.hbms = [] ∧ t.leases = [] ∧ t.nx = .reset ∧ t.cur = .none ∧ (∃ n, t.fab = { Fabric.reset with id := n })

/-- The boot tries a target, its port first: it is fused (R300). -/
def triesTarget (s : State) (j : Nat) : Prop := nth 0 s.xd.targets j ≠ 0

/-- After the targets below `n` the ports of those that the boot has tried are up, in state 4, and every other one is at its reset value
(R300, R309 to R313). -/
def PortsUp (s t : State) (n : Nat) : Prop :=
  ∀ p < 32, ((∃ j < n, triesTarget s j ∧ (nth 0 s.xd.targets j).toNat / 2 ^ 58 = p) →
      (t.port p).st = 4 ∧ (t.port p).ctl.toNat % 16 = 7 ∧ (t.port p).stat.toNat = 0x101FF) ∧
    ((∀ j < n, triesTarget s j → (nth 0 s.xd.targets j).toNat / 2 ^ 58 ≠ p) → t.port p = Port.reset)

/-- An image runs (R300 state 5, R301, R302, R304): measurement 1 is extended by it, management core 0 stands at its entry, and the cores that
have a retirement record are retired. -/
def ImageRuns (s t : State) (img : List Byte) : Prop :=
  t.xd.boot = 0xF0 ∧ t.xd.vfState = 0 ∧ tget zeros32 t.xd.meas 1 = sha256 (tget zeros32 s.xd.meas 1 ++ img) ∧
  (t.mc 0).pc = BitVec.ofNat 48 (leAt img 0x18 8) ∧ (t.mc 0).waiting = false ∧ (t.mc 0).stopped = false ∧
  (∀ j < img.length - 256, leAt img 0x10 8 + j < 0x80000 → tget 0 (t.mc 0).sram (leAt img 0x10 8 + j) = nth 0 img (256 + j)) ∧
  (s.xd.flash.length < flashRecords → t.xd.flash.length = s.xd.flash.length + 1 ∧ leAt (nth [] t.xd.flash s.xd.flash.length) 3 1 = 8) ∧
  (∀ c ∈ s.xd.retRec, t.coreRetired c = true)

/-- R246, R247, R218 to R220 and R293 to R295: the host's writes and FetchAdds through the sync aperture act at the home where the partition
holds the slice and are dropped elsewhere; a FetchAdd gives the host the old value, and under record and replay is party 15's, logged, or performed only when the log names it; CXL
accesses act on HBM, and a unit that a remap took reads 0 and drops writes; a well-formed release write is a `tkdec`, counted in `vf.rel` or
`vf.refuse`, a malformed one is counted and changes nothing else. -/
def HostActs : Prop :=
  (∀ (s : State) (v off : Nat) (data : List Nat),
    ((∀ a, ¬IsAperture s v off a) → exec (.hostSyncApertureWrite v off data) s = .next s) ∧
    (∀ a, IsAperture s v off a → PlainHomes s → ∃ t, exec (.hostSyncApertureWrite v off data) s = .next t ∧
      HomeWritten s t a ((byteList data).take (0x40000 - (off - 0x800000) % 0x40000)))) ∧
  (∀ (s : State) (v off size x : Nat),
    ((∀ a, ¬IsAperture s v off a) → exec (.hostSyncAtomic v off size x) s = .next s) ∧
    (∀ a p, IsAperture s v off a → (size = 4 ∨ size = 8) → a % size = 0 → (s.vf v).part = some p →
      let gets := fun (t : State) => { t with hostSaw := toLe size (s.homeLe a size) :: t.hostSaw }
      (s.rrOf p = none → PlainHomes s → ∃ t, exec (.hostSyncAtomic v off size x) s = .next (gets t) ∧ HomeWritten s t a (toLe size (s.homeLe a size + x))) ∧
      (∀ r, s.rrOf p = some r →
        let add := fun (s1 : State) => gets (s1.homeWrite a (toLe size (s.homeLe a size + x)))
        (a < r.lo ∨ r.hi ≤ a → exec (.hostSyncAtomic v off size x) s = .next (add s)) ∧
        (r.lo ≤ a → a < r.hi → r.mode = 1 → exec (.hostSyncAtomic v off size x) s = .next (add (s.rrLog p r 15))) ∧
        (r.lo ≤ a → a < r.hi → r.mode ≠ 1 →
          let n := s.rrNow p r
          (n.2.1 ≠ 0 → n.2.2 = 15 → exec (.hostSyncAtomic v off size x) s = .next (add (s.rrTake p r))) ∧
          (n.2.1 = 0 ∨ n.2.2 ≠ 15 → exec (.hostSyncAtomic v off size x) s = .next s)))) ∧
    (∀ a, IsAperture s v off a → ¬((size = 4 ∨ size = 8) ∧ a % size = 0) → exec (.hostSyncAtomic v off size x) s = .next s)) ∧
  (∀ (s : State) (wr off len : Nat) (data : List Nat),
    let gone := fun (o : Nat) => o / 2 ^ 30 ∈ (s.hbm (o / 2 ^ 30 / 48)).removed
    (384 * 2 ^ 30 < off + len → exec (.hostCxlMemAccess wr off len data) s = .next s) ∧
    (off + len ≤ 384 * 2 ^ 30 → wr = 1 → (∀ j < len, gone (off + j)) → exec (.hostCxlMemAccess wr off len data) s = .next s) ∧
    (off + len ≤ 384 * 2 ^ 30 → wr = 1 → (∀ j < len, ¬gone (off + j)) → data.length = len → PlainHomes s →
      ∃ t, exec (.hostCxlMemAccess wr off len data) s = .next t ∧ HomeWritten s t (0x20000000000 + off) (byteList data)) ∧
    (off + len ≤ 384 * 2 ^ 30 → wr ≠ 1 → ∃ t m ls bs, exec (.hostCxlMemAccess wr off len data) s = .next t ∧
      t = { s with mem := m, leases := ls, hostSaw := bs :: s.hostSaw } ∧ bs.length = len ∧
      (∀ j < len, (gone (off + j) → nth 0 bs j = 0) ∧ (¬gone (off + j) → nth 0 bs j = s.homeByte (0x20000000000 + off + j))) ∧
      (∀ l, l ∈ ls ↔ l ∈ s.leases ∧ ¬∃ j < len, (0x20000000000 + off + j) / 64 = l.line))) ∧
  (∀ (s : State) (v off : Nat) (data : List Nat),
    let k := s.vf v
    let w := leAt (byteList data) 0 8
    ((∀ p pa, k.part = some p → ¬ReleaseOf s p off data pa) → ∃ t, exec (.taskReleaseWrite v off data) s = .next t ∧ OnlyVf s t v { k with refuse := k.refuse + 1 }) ∧
    (∀ p pa, k.part = some p → ReleaseOf s p off data pa →
      let dep := s.homeLe (pa + 0x2C) 4
      (s.taskState pa = 0 ∧ 1 ≤ dep ∧ dep ≤ 2 ^ 31 →
        let s1 := s.homeWrite (pa + 0x2C) (toLe 4 (dep - 1))
        let s2 := if dep = 1 then s1.release pa w else s1
        ∃ t, exec (.taskReleaseWrite v off data) s = .next t ∧ OnlyVf s2 t v { k with rel := k.rel + 1, last := BitVec.ofNat 32 dep }) ∧
      (¬(s.taskState pa = 0 ∧ 1 ≤ dep ∧ dep ≤ 2 ^ 31) → ∃ t, exec (.taskReleaseWrite v off data) s = .next t ∧
        OnlyVf s t v { k with refuse := k.refuse + 1, last := 0xFFFFFFFF })))

/-- R287 to R290: the classifier counts a corrected error at its bank's entry and raises a request, with interrupt bit 2, when the entry
reaches a wider class; an entry without an error for 720 powered hours is freed; a repair of a requested entry begins, a bank remap with the
highest free unit of the stack, and stays pending where none is free; a move ends. -/
def StacksClassifyAndRepair : Prop :=
  (∀ (s : State) (n ch bank row col : Nat), n < 8 → tableOk (s.hbm n) →
    let k := s.hbm n
    ∃ t i c k' e', exec (.hbmCorrectedError n ch bank row col) s = .next t ∧ takesIndex k ch bank i ∧
      let mine := (k.ent i).ch = ch ∧ (k.ent i).bank = bank ∧ (k.ent i).cnt ≠ 0
      let old := if mine then k.ent i else { ClsEnt.none with ch := ch, bank := bank, order := k.orderNext }
      let wider := classWidth old.cls < classWidth c
      shows (old.errs ++ [(row, col)]) c ∧
      e' = { old with errs := old.errs ++ [(row, col)], cnt := min 4095 (old.cnt + 1), row := row, col := col, cls := if wider then c else old.cls,
                      req := old.req || decide wider, hour := s.hoursNow } ∧
      t.hbm n = k' ∧ k'.ent i = e' ∧ (∀ j, j ≠ i → k'.ent j = k.ent j) ∧ k'.corr = satInc32 k.corr ∧ k'.busy = k.busy ∧ k'.removed = k.removed ∧
      (∀ m, m ≠ n → t.hbm m = s.hbm m) ∧ tget 0 t.xd.corrected 3 = tget 0 s.xd.corrected 3 + 1 ∧
      (∀ m < 4, (t.mc m).ipend = if wider then (s.mc m).ipend ||| 4 else (s.mc m).ipend) ∧ t.mem = s.mem ∧ t.blocks = s.blocks) ∧
  (∀ (s : State) (n i : Nat),
    let k := s.hbm n
    ((k.ent i).cnt ≠ 0 → (k.ent i).hour + 720 ≤ s.hoursNow → ∃ t k', exec (.classifierEntryExpiry n i) s = .next t ∧ OnlyHbm s t n k' ∧
      k'.ent i = .none ∧ (∀ j, j ≠ i → k'.ent j = k.ent j) ∧ ∃ es, k' = { k with ents := es }) ∧
    ((k.ent i).cnt = 0 ∨ s.hoursNow < (k.ent i).hour + 720 → exec (.classifierEntryExpiry n i) s = .next s)) ∧
  (∀ (s : State) (n i : Nat), n < 8 →
    let k := s.hbm n
    let begun := fun (t : State) (gone : List Nat) => ∃ k', t.hbm n = k' ∧ k'.busy = some i ∧ k'.removed = k.removed ++ gone ∧
      k'.ent i = { k.ent i with req := false } ∧ (∀ j, j ≠ i → k'.ent j = k.ent j) ∧ (∀ m, m ≠ n → t.hbm m = s.hbm m) ∧ t.mem = s.mem ∧
      (s.xd.flash.length < flashRecords → t.xd.flash.length = s.xd.flash.length + 1 ∧ leAt (nth [] t.xd.flash s.xd.flash.length) 3 1 = 8)
    (k.busy ≠ none ∨ (k.ent i).req = false → exec (.hbmRepair n i) s = .next s) ∧
    (k.busy = none → (k.ent i).req = true →
      ((k.ent i).cls ≠ 4 → ∃ t, exec (.hbmRepair n i) s = .next t ∧ begun t []) ∧
      ((k.ent i).cls = 4 → (∀ u, 48 * n ≤ u → u < 48 * n + 48 → s.unitFree n u = false) → exec (.hbmRepair n i) s = .next s) ∧
      (∀ u, (k.ent i).cls = 4 → 48 * n ≤ u → u < 48 * n + 48 → s.unitFree n u = true → (∀ v, u < v → v < 48 * n + 48 → s.unitFree n v = false) →
        ∃ t, exec (.hbmRepair n i) s = .next t ∧ begun t [u]))) ∧
  (∀ (s : State) (n : Nat), ∃ t, exec (.hbmRepairMoveDone n) s = .next t ∧ OnlyHbm s t n { s.hbm n with busy := none })

/-- R300 to R302 and R308: package reset brings every part to its reset value and boots: a failed self-test halts with 0xE1; the ports of the
targets tried come up, also where a read fails, and the first target whose image verifies runs; without one the package waits for an image, which then runs if it
verifies. With the power removed only the
fuses and the flash are left. -/
def PackageBoots : Prop :=
  (∀ (s : State) (test : Nat) (images : List (List Nat)),
    let img := fun (j : Nat) => byteList (nth [] images j)
    let good := fun (j : Nat) => triesTarget s j ∧ nth [] images j ≠ [] ∧ s.imageOk (img j) = true
    (test ≠ 1 → ∃ t, exec (.packageReset test images) s = .next t ∧ AllReset t ∧ t.ports = [] ∧ t.dies = [] ∧ t.mem = [] ∧ FusesKept s t ∧
      t.xd.flash = s.xd.flash ∧ t.xd.boot = 0xE1 ∧ (t.mc 0).stopped = true) ∧
    (test = 1 → (∀ j < 8, ¬good j) → ∃ t, exec (.packageReset test images) s = .next t ∧ AllReset t ∧ PortsUp s t 8 ∧ t.dies = [] ∧ t.mem = [] ∧
      FusesKept s t ∧ t.xd.flash = s.xd.flash ∧ t.xd.boot = 6 ∧ t.xd.vfState = 2 ∧ (∀ m, 1 ≤ m → (t.mc m).waiting = true)) ∧
    (∀ j < 8, test = 1 → good j → (∀ i < j, ¬good i) → ∃ t s1, exec (.packageReset test images) s = .next t ∧ AllReset t ∧
      PortsUp s t (j + 1) ∧ FusesKept s t ∧ ImageRuns s1 t (img j) ∧ tget zeros32 s1.xd.meas 1 = zeros32 ∧ s1.xd.flash = s.xd.flash ∧ ∀ m, 1 ≤ m → (t.mc m).waiting = true)) ∧
  (∀ (s : State) (image : List Nat),
    (s.xd.boot = 6 → s.imageOk (byteList image) = true → ∃ t, exec (.mgmtImageReceived image) s = .next t ∧ ImageRuns s t (byteList image) ∧ t.blocks = s.blocks) ∧
    (s.xd.boot ≠ 6 ∨ s.imageOk (byteList image) = false → exec (.mgmtImageReceived image) s = .next s)) ∧
  (∀ s : State, ∃ t, exec .powerRemoval s = .next t ∧ AllReset t ∧ t.ports = [] ∧ t.dies = [] ∧ t.mem = [] ∧ FusesKept s t ∧ t.xd.flash = s.xd.flash ∧ t.xd.boot = 0 ∧ t.mcs = [])

/-- The answer to an SPDM request of version 1.2 or 1.3 that comes after the messages it needs; other versions and orders get an error. -/
def SpdmGives (i : Instr) (req : List Nat) (s : State) (ready : Bool) (ok : State → List Nat → Prop) : Prop :=
  let v := nth 0 req 0
  ∃ t, exec i s = .next t ∧ t.mem = s.mem ∧ t.blocks = s.blocks ∧ t.xd.meas = s.xd.meas ∧
    (v ≠ 0x12 ∧ v ≠ 0x13 → t.xd.spdmOut = [0x10, 0x7F, 0x41, 0]) ∧
    ((v = 0x12 ∨ v = 0x13) → ready = false → t.xd.spdmOut = [v, 0x7F, 0x04, 0]) ∧
    ((v = 0x12 ∨ v = 0x13) → ready = true → ok t t.xd.spdmOut)

/-- R10, R302 and R303: the device answers the seven messages of SPDM: versions 1.2 and 1.3, no sessions, SHA-256 and ECDSA P-256 alone, the
chain of slot 0, and the measurement registers; challenges and measurements are signed with the alias key over the messages so far. What the
response bytes are in detail is the model's (log entry 47). -/
def SpdmAnswers : Prop :=
  ∀ (s : State) (req : List Nat),
    let v := nth 0 req 0
    let chain := s.certChain
    let tail := if v = 0x13 then req.drop (req.length - 8) else []
    let meas := ((upFrom 0 8).map (fun i => tget zeros32 s.xd.meas i)).flatten
    (∃ t, exec (.spdmGetVersion req) s = .next t ∧ t.xd.spdmVer = true ∧ t.xd.spdmCaps = false ∧ t.xd.spdmAlg = false ∧
      t.xd.spdmOut = [0x10, 0x04, 0, 0, 0, 2, 0x00, 0x12, 0x00, 0x13]) ∧
    SpdmGives (.spdmGetCapabilities req) req s s.xd.spdmVer (fun t out => t.xd.spdmCaps = true ∧ ∃ r1 r2 : List Nat, r1.length = 1 ∧ r2.length = 8 ∧
      out = [v, 0x61, 0, 0, 0] ++ r1 ++ [0, 0, 0x16, 0, 0, 0] ++ r2) ∧
    SpdmGives (.spdmNegotiateAlgorithms req) req s s.xd.spdmCaps (fun t out => t.xd.spdmAlg = true ∧
      out = [v, 0x63, 0, 0, 36, 0, 1, 0, 2, 0, 0, 0, 0x10, 0, 0, 0, 1, 0, 0, 0] ++ List.replicate 16 0) ∧
    SpdmGives (.spdmGetDigests req) req s s.xd.spdmAlg (fun _ out => out = [v, 0x01, 0, 1] ++ natBytes (sha256 (byteList chain))) ∧
    SpdmGives (.spdmGetCertificate req) req s s.xd.spdmAlg (fun _ out =>
      (nth 0 req 2 % 16 ≠ 0 → out = [v, 0x7F, 0x01, 0]) ∧
      (nth 0 req 2 % 16 = 0 → let off := leAt (byteList req) 4 2
        let part := (chain.drop off).take (leAt (byteList req) 6 2)
        out = [v, 0x02, 0, 0] ++ natBytes (toLe 2 part.length) ++ natBytes (toLe 2 (chain.length - off - part.length)) ++ part)) ∧
    SpdmGives (.spdmChallenge req) req s s.xd.spdmAlg (fun _ out =>
      (nth 0 req 2 % 16 ≠ 0 → out = [v, 0x7F, 0x01, 0]) ∧
      (nth 0 req 2 % 16 = 0 → ∃ r : List Nat, r.length = 32 ∧
        let resp := [v, 0x03, 0, 1] ++ natBytes (sha256 (byteList chain)) ++ r ++ (if nth 0 req 3 = 0 then [] else natBytes (sha256 meas)) ++ [0, 0] ++ tail
        out = resp ++ spdmSigned s.xd.alias_ s.freeCtr v "responder-challenge_auth signing" (s.xd.spdmA ++ s.xd.spdmB ++ req ++ resp))) ∧
    SpdmGives (.spdmGetMeasurements req) req s s.xd.spdmAlg (fun _ out =>
      let op := nth 0 req 3
      let block := fun (i : Nat) => [i + 1, 1, 35, 0, min i 3, 32, 0] ++ natBytes (tget zeros32 s.xd.meas i)
      (8 < op → op ≠ 0xFF → out = [v, 0x7F, 0x01, 0]) ∧
      (∀ which : List Nat, (op = 0 ∧ which = [] ∨ op = 0xFF ∧ which = [0, 1, 2, 3, 4, 5, 6, 7] ∨ (1 ≤ op ∧ op ≤ 8 ∧ which = [op - 1])) →
        ∃ r : List Nat, r.length = 32 ∧
          let resp := [v, 0x60, if op = 0 then 8 else 0, 0, which.length] ++ natBytes (toLe 3 ((which.map block).flatten).length)
            ++ (which.map block).flatten ++ r ++ [0, 0] ++ tail
          out = resp ++ (if bitOf (nth 0 req 2) 0 then
            spdmSigned s.xd.alias_ s.freeCtr v "responder-measurements signing" (s.xd.spdmA ++ s.xd.spdmL ++ req ++ resp) else [])))

/-- R298, R299, R301, R304, R305, R307 and R316: a frame of the management port waits with interrupt bit 0; a month ends with its summary
records; readings of power and temperature at a limit throttle the die, with interrupt bit 5 at the first; a die at 105 °C stops and loses its
blocks; `xs.fusemin` only rises. -/
def XdieFollows : Prop :=
  (∀ (s : State) (frame : List Nat), ∃ t, exec (.managementPortFrame frame) s = .next t ∧
    Interrupted { s with xd := { s.xd with mgmtFrames := s.xd.mgmtFrames ++ [frame] } } t 0) ∧
  (∀ s : State, s.xd.flash.length + 103 < flashRecords → ∃ t, exec .lifetimeMonthEnd s = .next t ∧ t.hoursNow % 720 = 0 ∧ s.hoursNow < t.hoursNow ∧
    t.hoursNow ≤ s.hoursNow + 720 ∧ t.xd.flash.length = s.xd.flash.length + 103 ∧ t.xd.flash.take s.xd.flash.length = s.xd.flash ∧
    (∀ i < 103, let r := nth [] t.xd.flash (s.xd.flash.length + i)
      r.length = 64 ∧ leAt r 0 3 = s.xd.flash.length + i ∧ leAt r 3 1 = nth 0 summaryKinds i ∧ leAt r 4 4 = t.hoursNow % 2 ^ 32 ∧
      leAt r 60 4 = crc32 (r.take 60)) ∧ t.xd.tempHist = [] ∧ t.blocks = s.blocks ∧ t.mem = s.mem) ∧
  (∀ (s : State) (d power temp : Nat), d < 4 →
    let hot := 2600 ≤ power ∨ 95 ≤ temp
    ∃ t, exec (.throttle d power temp) s = .next t ∧ t.xd.power.toNat = power % 65536 ∧
      (∀ n < 4, t.xd.temp.toNat / 2 ^ (8 * n) % 256 = if n = d then temp % 256 else s.xd.temp.toNat / 2 ^ (8 * n) % 256) ∧
      t.die d = { s.die d with throttle := if hot then min 15 ((s.die d).throttle + 1) else (s.die d).throttle - 1 } ∧
      (∀ n, n ≠ d → t.die n = s.die n) ∧ t.blocks = s.blocks ∧ t.cores = s.cores ∧ t.mem = s.mem ∧ s.xd.throttleCnt.toNat ≤ t.xd.throttleCnt.toNat ∧
      (∀ m < 4, (t.mc m).ipend = if hot ∧ (s.die d).throttle = 0 then (s.mc m).ipend ||| 0x20 else (s.mc m).ipend)) ∧
  (∀ (s : State) (d temp : Nat),
    (d < 4 → 105 ≤ temp → (s.blocks.map (fun k => k.id)).Nodup → ∃ t, exec (.dieOvertempStop d temp) s = .next t ∧ (t.die d).dead = true ∧
      t.nx.selfRep = true ∧ (∀ y ∈ t.blocks, ∃ z ∈ s.blocks, z.id = y.id ∧ z.core = y.core ∧ dieOf z.core ≠ d) ∧
      ∀ z ∈ s.blocks, dieOf z.core ≠ d → ∃ y ∈ t.blocks, y.id = z.id ∧ y.core = z.core) ∧
    (4 ≤ d ∨ temp < 105 → exec (.dieOvertempStop d temp) s = .next s)) ∧
  (∀ (s : State) (v : Nat),
    (s.xd.fusemin.toNat ≤ v → exec (.xsFuseminWrite v) s = .next { s with xd := { s.xd with fusemin := BitVec.ofNat 32 v } }) ∧
    (v < s.xd.fusemin.toNat → exec (.xsFuseminWrite v) s = .next s))

end Sys2Proof.Claims

open Sys2Proof Sys2Proof.Machine Sys2Proof.Claims in
/-- R246, R247 and R293 to R295: what the host's accesses do.
Where the spec leaves a point open, the clauses rest on the model's reading, log entries 1, 40 and 42. -/
def Obligations.HostAccessesActAtTheHome : Prop := HostActs

open Sys2Proof Sys2Proof.Machine Sys2Proof.Claims in
/-- R287 to R290, R298, R299, R301, R304, R305, R307 and R316: the HBM stacks, the lifetime records and the sensors of the X-die.
Where the spec leaves a point open, the clauses rest on the model's reading, log entries 44, 45 and 51. -/
def Obligations.StacksAndSensorsFollowTheirRules : Prop := StacksClassifyAndRepair ∧ XdieFollows

open Sys2Proof Sys2Proof.Machine Sys2Proof.Claims in
/-- R300 to R303 and R308: reset, boot, power removal and attestation.
Where the spec leaves a point open, the clauses rest on the model's reading, log entries 4, 21, 46, 47 and 76. -/
def Obligations.PackageBootsAndAttests : Prop := PackageBoots ∧ SpdmAnswers

namespace Sys2Proof.Claims
open Sys2Proof.Machine

/-- A port alone is changed. -/
def OnlyPort (s t : State) (p : Nat) (k : Port) : Prop := (∃ ps, t = { s with ports := ps }) ∧ t.port p = k ∧ ∀ n, n ≠ p → t.port n = s.port n

/-- Port `p`, whose record was `k`, is put in a state with a fault code: `opt.stat` keeps its locks and says whether the port carries data,
`fe.half` follows, and a change of state raises interrupt bit 3 (R309, R310, R332). -/
def PortIn (s t : State) (p : Nat) (k : Port) (st code : Nat) : Prop :=
  (∃ ps ms h, t = { s with ports := ps, mcs := ms, fab := { s.fab with half := h } }) ∧ (∀ n, n ≠ p → t.port n = s.port n) ∧
  (∃ c z, t.port p = { k with ctl := c, stat := z }) ∧ (t.port p).ctl.toNat = k.ctl.toNat / 256 * 256 + 16 * st + k.ctl.toNat % 16 ∧
  (t.port p).stat.toNat = k.stat.toNat % 512 + (if st = 4 ∨ st = 5 then 2 ^ 16 else 0) + code * 2 ^ 24 ∧
  (∀ q < 32, bitOf t.fab.half.toNat q = decide ((t.port q).ctl.toNat / 16 % 16 = 5)) ∧
  (∀ m < 4, (t.mc m).ipend = if k.st = st then (s.mc m).ipend else (s.mc m).ipend ||| 8)

/-- A port's record as it goes off: locks, sweeps and training end (R310, R311). -/
def offOf (k : Port) : Port :=
  { k with stat := 0, litAt := none, sweepAt := none, trainAt := none, mpd := [],
           lockctl := k.lockctl &&& 0x7FFFFFFF, trainctl := k.trainctl &&& 0x7FFFFFFF }

/-- The port's state follows bits 2 to 0 of its control register (R310, R317). -/
def PortFollows (s t : State) (p : Nat) (k : Port) : Prop :=
  let lit := bitOf k.ctl.toNat 0
  let both := bitOf k.ctl.toNat 1 && bitOf k.ctl.toNat 2
  (lit = false → k.st = 0 → k.litAt = none → OnlyPort s t p k) ∧
  (lit = false → k.st ≠ 0 ∨ k.litAt ≠ none → PortIn s t p (offOf k) 0 0) ∧
  (lit = true → k.st = 0 → OnlyPort s t p { k with litAt := some (k.litAt.getD s.cycle) }) ∧
  (lit = true → k.st = 1 → both = true → PortIn s t p k 2 0) ∧
  (lit = true → k.st = 2 → both = false → PortIn s t p k 1 0) ∧
  (lit = true → k.st ≠ 0 → ¬(k.st = 1 ∧ both = true) → ¬(k.st = 2 ∧ both = false) → OnlyPort s t p k)

/-- A wavelength is locked; its eye is accepted (R309, R310). -/
def lambdaLocked (k : Port) (l : Nat) : Prop := l < 9 ∧ bitOf k.stat.toNat l = true
def lambdaEye (k : Port) (l : Nat) : Prop := 24 ≤ (tget 0 k.eye l).toNat % 65536 ∧ 20 ≤ (tget 0 k.eye l).toNat / 65536 % 256

/-- The wavelength of lane `i` of a map, and the lanes that it uses. -/
def lambdaOf (m i : Nat) : Nat := m / 16 ^ i % 16
def lanesIn (m : Nat) : Nat := if m / 65536 % 65536 = 0xFFFF then 4 else 8

/-- A map gives wavelength `x` to a lane that it uses. -/
def mapsTo (m x : Nat) : Prop := ∃ i < lanesIn m, lambdaOf m i = x

/-- The fault code of the checks before a port carries data; 0 where they pass (R310). -/
def UpCode (k : Port) (c : Nat) : Prop :=
  let m := k.lanemap.toNat
  let n := lanesIn m
  let bad := ∃ i < n, 8 < lambdaOf m i ∨ ∃ j < i, lambdaOf m j = lambdaOf m i
  let fine := fun (i : Nat) => lambdaLocked k (lambdaOf m i) ∧ lambdaEye k (lambdaOf m i)
  (bad → c = 5) ∧ (¬bad → (∀ i < n, fine i) → c = 0) ∧
  (¬bad → ∀ i < n, (∀ j < i, fine j) → (¬lambdaLocked k (lambdaOf m i) → c = 2) ∧
    (lambdaLocked k (lambdaOf m i) → ¬lambdaEye k (lambdaOf m i) → c = 3))

/-- What the checks lead to (R310, R332). -/
def upState (k : Port) (c : Nat) : Nat := if c ≠ 0 then 8 else if lanesIn k.lanemap.toNat = 4 then 5 else 4

/-- The laser that serves a wavelength, and whether a laser is on (R309). -/
def servedBy (k : Port) (l : Nat) : Nat := if k.laser.toNat / 65536 % 16 = l then 9 else l
def laserLit (k : Port) (n : Nat) : Prop := n < 10 ∧ bitOf k.ctl.toNat 0 = true ∧ bitOf k.laser.toNat n = true

/-- The monitors as the surroundings give them (R309). -/
def MonitorsOf (k : Port) (mon : List Nat) (m : Sparse W32) : Prop :=
  ∀ l < 9, (tget 0 m l).toNat = nth 0 mon (servedBy k l) % 4096 * 65536 + nth 0 mon (10 + l) % 4096

/-- One wavelength after its sweep with readings `r`, all 0 without light (R311): the first least reading locks the ring where the sweep
crossed it. -/
def SweptTo (k k' : Port) (l : Nat) (r : List Nat) : Prop :=
  let heat := (tget heatReset k.heat l).toNat % 4096
  let half := k.lockctl.toNat / 4096 % 4096 / 2
  let lo := heat - half
  let hi := min 4095 (heat + half)
  let rd := fun (i : Nat) => if k.laserOn (servedBy k l) then nth 0 r i % 4096 else 0
  let top := max (rd 0) (rd (hi - lo))
  ∃ b ≤ hi - lo, (∀ i ≤ hi - lo, rd b ≤ rd i) ∧ (∀ i < b, rd b < rd i) ∧
    let lock := 0x100 < top ∧ 2 * rd b ≤ top
    let heat' := if lock then lo + b else heat
    (tget heatReset k'.heat l).toNat = heat' ∧ bitOf k'.stat.toNat l = decide lock ∧
    (tget 0 k'.mpd l).toNat = (tget 0 k.mpd l).toNat / 65536 * 65536 + rd (heat' - lo)

/-- R310, R311, R317 and R318: what a write of `opt.ctl`, the lasers and their failures do to the state of a port. -/
def PortStatesMove : Prop :=
  (∀ (s : State) (p v : Nat), p < 34 →
    let k := s.port p
    let k1 : Port := { k with ctl := BitVec.ofNat 32 (16 * k.st + v % 8) }
    let r := v / 16 % 16
    let off := r = 0 ∧ k.st ≠ 0
    let up := r = 4 ∧ k.st = 2
    (¬off → ¬up → ∃ t, exec (.optCtlBits p v) s = .next t ∧ PortFollows s t p k1) ∧
    (off ∨ up → exec (.optCtlBits p v) s = .next s) ∧
    (off → ∃ t, exec (.optStateOffRequest p v) s = .next t ∧
      PortIn s t p { offOf k1 with litAt := if v % 2 = 1 then some s.cycle else none } 0 0) ∧
    (¬off → exec (.optStateOffRequest p v) s = .next s) ∧
    (up → v % 2 = 1 → ∃ t c, exec (.optStateUpRequest p v) s = .next t ∧ UpCode k1 c ∧ PortIn s t p k1 (upState k1 c) c) ∧
    (up → v % 2 = 0 → ∃ t, exec (.optStateUpRequest p v) s = .next t ∧ PortIn s t p (offOf k1) 0 0) ∧
    (¬up → exec (.optStateUpRequest p v) s = .next s)) ∧
  (∀ (s : State) (p : Nat) (mon : List Nat), p < 34 →
    let k := s.port p
    let due := k.st = 0 ∧ k.litAt ≠ none ∧ bitOf k.ctl.toNat 0 = true
    let late := ∃ t0, k.litAt = some t0 ∧ t0 + 400000 < s.cycle
    let all := ∀ n, laserLit k n → 0x100 < nth 0 mon n
    (due → late → ∃ t m, exec (.optLit p mon) s = .next t ∧ MonitorsOf k mon m ∧ PortIn s t p { k with mpd := m, litAt := none } 8 1) ∧
    (due → ¬late → all → ∃ t m, exec (.optLit p mon) s = .next t ∧ MonitorsOf k mon m ∧
      PortIn s t p { k with mpd := m, litAt := none } (if bitOf k.ctl.toNat 1 = true ∧ bitOf k.ctl.toNat 2 = true then 2 else 1) 0) ∧
    (due → ¬late → ¬all → ∃ t m, exec (.optLit p mon) s = .next t ∧ MonitorsOf k mon m ∧ OnlyPort s t p { k with mpd := m }) ∧
    (¬due → exec (.optLit p mon) s = .next s)) ∧
  (∀ (s : State) (p : Nat), p < 34 →
    let k := s.port p
    (∀ t0, k.litAt = some t0 → k.st = 0 → t0 + 400000 ≤ s.cycle → ∃ t, exec (.optLitTimeout p) s = .next t ∧ PortIn s t p { k with litAt := none } 8 1) ∧
    ((∀ t0, k.litAt = some t0 → k.st ≠ 0 ∨ s.cycle < t0 + 400000) → exec (.optLitTimeout p) s = .next s)) ∧
  (∀ (s : State) (p n v : Nat), p < 34 →
    let k := s.port p
    let fails := k.st ≠ 0 ∧ k.st ≠ 8 ∧ laserLit k n ∧ v ≤ 0x100
    (fails → ∃ t m, exec (.optLaserFailure p n v) s = .next t ∧ PortIn s t p { k with mpd := m } 8 1) ∧
    (¬fails → exec (.optLaserFailure p n v) s = .next s))

/-- R309, R311 to R313, R331, R332 and R334: sweeps lock rings, training measures eyes, a lane map acts at once or at the next slot guard, and not in the cycle of a hardware remap, a
lost wavelength - its lock bit clears, or its bursts have failed FEC in three slots running - is replaced by the spare, or by half width, or ends
the service, and so does an exhausted key. A map that takes the spare leaves an event record. -/
def PortsLockAndTrain : Prop :=
  (∀ (s : State) (p v : Nat), p < 34 →
    let k := s.port p
    (k.lockctl.toNat / 2 ^ 31 = 1 → exec (.optLockSweep p v) s = .next s) ∧
    (k.lockctl.toNat / 2 ^ 31 = 0 → ∃ t c, exec (.optLockSweep p v) s = .next t ∧
      let go := v % 512 ≠ 0 ∧ 1 ≤ k.st
      c.toNat = v % 512 + v / 4096 % 4096 * 4096 + (if go then 2 ^ 31 else 0) ∧
      OnlyPort s t p { k with lockctl := c, sweepAt := if go then some s.cycle else none }) ∧
    (k.trainctl.toNat / 2 ^ 31 = 1 → exec (.optTrain p v) s = .next s) ∧
    (k.trainctl.toNat / 2 ^ 31 = 0 → ∃ t c, exec (.optTrain p v) s = .next t ∧
      let go := v % 512 ≠ 0 ∧ k.st = 2
      c.toNat = v % 512 + (if go then 2 ^ 31 else 0) ∧ OnlyPort s t p { k with trainctl := c, trainAt := if go then some s.cycle else none }) ∧
    (k.remapAt = some s.cycle → exec (.optLanemapWrite p v) s = .next s) ∧
    (k.remapAt ≠ some s.cycle → ∃ t, exec (.optLanemapWrite p v) s = .next t ∧
      (k.st = 4 ∨ k.st = 5 → OnlyPort s t p { k with mapNext := some (BitVec.ofNat 32 v) }) ∧
      (k.st ≠ 4 → k.st ≠ 5 →
        let k' : Port := { k with lanemap := BitVec.ofNat 32 v, mapNext := none }
        let anew := mapsTo v 8 ∧ ¬mapsTo k.lanemap.toNat 8
        (¬anew → OnlyPort s t p k') ∧
        (anew → t.port p = k' ∧ (∀ n, n ≠ p → t.port n = s.port n) ∧
          (s.xd.flash.length < flashRecords → t.xd.flash.length = s.xd.flash.length + 1 ∧ leAt (nth [] t.xd.flash s.xd.flash.length) 3 1 = 8))))) ∧
  (∀ (s : State) (p : Nat) (readings : List (List Nat)), p < 34 →
    let k := s.port p
    (k.lockctl.toNat / 2 ^ 31 = 0 → exec (.optSweepDone p readings) s = .next s) ∧
    (k.lockctl.toNat / 2 ^ 31 = 1 → ∃ t k', exec (.optSweepDone p readings) s = .next t ∧
      (∃ h, OnlyPort { s with xd := { s.xd with heat0 := h } } t p k') ∧
      (∃ h z m, k' = { k with heat := h, stat := z, mpd := m, lockctl := k.lockctl &&& 0x7FFFFFFF, sweepAt := none }) ∧
      ∀ l, (¬(l < 9 ∧ bitOf k.lockctl.toNat l = true) → tget heatReset k'.heat l = tget heatReset k.heat l ∧ tget 0 k'.mpd l = tget 0 k.mpd l ∧
          bitOf k'.stat.toNat l = bitOf k.stat.toNat l) ∧
        (l < 9 → bitOf k.lockctl.toNat l = true →
          SweptTo k k' l (nth [] readings ((upFrom 0 l).filter (fun i => bitOf k.lockctl.toNat i)).length)))) ∧
  (∀ (s : State) (p peer : Nat) (eyes : List Nat), p < 34 →
    let k := s.port p
    (k.trainctl.toNat / 2 ^ 31 = 0 → exec (.optTrainDone p peer eyes) s = .next s) ∧
    (k.trainctl.toNat / 2 ^ 31 = 1 → ∃ t e, exec (.optTrainDone p peer eyes) s = .next t ∧
      OnlyPort s t p { k with eye := e, trainctl := k.trainctl &&& 0x7FFFFFFF, trainAt := none } ∧
      ∀ l, (l < 9 → bitOf k.trainctl.toNat l = true →
          (lambdaLocked k l → peer = 1 → (tget 0 e l).toNat = nth 0 eyes l % 2 ^ 24) ∧ (¬lambdaLocked k l ∨ peer ≠ 1 → tget 0 e l = 0)) ∧
        (¬(l < 9 ∧ bitOf k.trainctl.toNat l = true) → tget 0 e l = tget 0 k.eye l))) ∧
  (∀ (s : State) (p lam : Nat), p < 34 → (9 ≤ lam ∧ lam < 16 ∨ 25 ≤ lam ∨ 16 ≤ lam ∧ (s.port p).fecRun < 3) → exec (.wavelengthLoss p lam) s = .next s) ∧
  (∀ (s : State) (p lam l : Nat) (k : Port), p < 34 → l < 9 →
    (lam = l ∧ k = { s.port p with stat := (s.port p).stat &&& ~~~(BitVec.ofNat 32 (2 ^ l)) } ∨
      lam = 16 + l ∧ 3 ≤ (s.port p).fecRun ∧ k = { s.port p with fecRun := 0 }) →
    let k0 := s.port p
    let m := k.lanemap.toNat
    let used := mapsTo m
    let spare := lambdaLocked k 8 ∧ lambdaEye k 8 ∧ ¬used 8
    let again := fun (x : Nat) => used x ∧ x ≠ l ∧ lambdaLocked k x ∧ lambdaEye k x
    let noted := fun (t : State) => (∀ i < 4, bitOf (t.mc i).ipend.toNat 3 = true) ∧ (∀ n, n ≠ p → t.port n = s.port n) ∧
      (s.xd.flash.length < flashRecords → t.xd.flash.length = s.xd.flash.length + 1)
    let distinct := ∀ i < lanesIn m, ∀ j < i, lambdaOf m j ≠ lambdaOf m i
    (k0.st ≠ 4 → k0.st ≠ 5 → exec (.wavelengthLoss p lam) s = .next s) ∧
    (k0.st = 4 ∨ k0.st = 5 → distinct →
      (¬used l → ∃ t, exec (.wavelengthLoss p lam) s = .next t ∧ OnlyPort s t p k) ∧
      (used l → spare → ∃ t m', exec (.wavelengthLoss p lam) s = .next t ∧ noted t ∧ t.port p = { k with lanemap := m', mapNext := none, remapAt := some s.cycle } ∧
        ∀ i < 8, lambdaOf m'.toNat i = if lambdaOf m i = l then 8 else lambdaOf m i) ∧
      (∀ a b c d, used l → ¬spare → a < b → b < c → c < d → again a → again b → again c → again d → (∀ x < d, again x → x = a ∨ x = b ∨ x = c) →
        ∃ t m', exec (.wavelengthLoss p lam) s = .next t ∧ noted t ∧ (∃ ct z, t.port p = { k with ctl := ct, stat := z, lanemap := m', mapNext := none, remapAt := some s.cycle }) ∧
          (t.port p).st = 5 ∧ m'.toNat = a + 16 * b + 256 * c + 4096 * d + 0xFFFF0000) ∧
      ((∀ a b c d, ¬(a < b ∧ b < c ∧ c < d ∧ again a ∧ again b ∧ again c ∧ again d)) → used l → ¬spare →
        ∃ t, exec (.wavelengthLoss p lam) s = .next t ∧ PortIn s t p k 8 4))) ∧
  (∀ (s : State) (p : Nat), p < 34 →
    let k := s.port p
    let out := (k.st = 4 ∨ k.st = 5) ∧ 2 ^ 48 - 1 ≤ k.ctr
    (out → ∃ t, exec (.keyExhausted p) s = .next t ∧ PortIn s t p k 8 6) ∧ (¬out → exec (.keyExhausted p) s = .next s))

end Sys2Proof.Claims

open Sys2Proof Sys2Proof.Machine Sys2Proof.Claims in
/-- R309 to R313, R317, R318, R331, R332 and R334: the optical ports light, lock, train, carry data and fail as their rules give.
Where the spec leaves a point open, the clauses rest on the model's reading, log entry 50. -/
def Obligations.OpticalPortsFollowTheirStates : Prop := PortStatesMove ∧ PortsLockAndTrain

namespace Sys2Proof.Claims
open Sys2Proof.Machine

/-- The fabric engine alone is changed. -/
def OnlyFab (s t : State) (f : Fabric) : Prop := t = { s with fab := f }

/-- A burst that a package sends to its partner in a slot: one for it, or for its pod's members across the spine; else the excess of a queue of
its own traffic, which the partner relays (R325, R329, R330). -/
def MaySend (s : State) (p partner : Nat) (b : Burst) : Prop :=
  let multi := bitOf s.fab.sched.toNat 1
  let queue := s.fab.out.filter (fun x => decide (x.dst = b.dst) && (decide (x.leg = .own) || decide (x.leg = .landed)))
  reaches s.pkgId multi p partner b = true ∨
    (mayRelay s.pkgId multi p partner b = true ∧ (if (s.port p).st = 5 then 2048 else 4096) < (queue.map (fun x => x.flits.length)).sum)

/-- Nothing waits at the ports for a slot guard: no map, no burst that failed FEC, no mapped wavelength of a port in service without its lock
(R313, R331). -/
def GuardsIdle (s : State) : Prop :=
  ∀ p < 34, (s.port p).mapNext = none ∧ (s.port p).fecBad = false ∧ (s.port p).fecRun = 0 ∧
    ((s.port p).up = true → ∀ i < lanesIn (s.port p).lanemap.toNat, lambdaLocked (s.port p) (lambdaOf (s.port p).lanemap.toNat i))

/-- How a burst for another package stands in the relay buffer, by the port that it came over: over the spine for this pod it has landed, for
another pod it crosses the spine once more, over a leaf circuit it goes to its destination (R329, R330). -/
def heldAs (s : State) (p : Nat) (b : Burst) : Burst :=
  { b with leg := if bitOf s.fab.sched.toNat 1 = true ∧ 28 ≤ p then (if b.dst / 128 = s.pkgId / 128 then .landed else .spine) else .relayed }

/-- The words of a key's slot after a write at place `i` of its eight (R354). -/
def keyPut (ws : List W32) (i : Nat) (v : W32) : List W32 := (upFrom 0 8).map (fun j => if j = i then v else nth 0 ws j)

/-- R333, R334 and R354: a counter past half its range asks for a key, once; a write of `fe.keyuse` changes slots with the counter at 0 and
takes the request back; key words fill the selected slot in order; the schedule, the table while it is unlocked and the partition of an idle
channel are written. As the schedule is locked the engine takes the slot of the switches' clock, a free value (R324). -/
def KeysAndTables : Prop :=
  (∀ (s : State) (p : Nat),
    let due := p < 34 ∧ 2 ^ 47 ≤ (s.port p).ctr ∧ bitOf s.fab.keyreq.toNat p = false
    (due → ∃ t, exec (.keyRequestThreshold p) s = .next t ∧
      Interrupted { s with fab := { s.fab with keyreq := s.fab.keyreq ||| BitVec.ofNat 34 (2 ^ p) } } t 3) ∧
    (¬due → exec (.keyRequestThreshold p) s = .next s)) ∧
  (∀ (s : State) (v : Nat), ∃ t r, exec (.feKeyuseWrite v) s = .next t ∧
    (∃ ps, t = { s with ports := ps, fab := { s.fab with keyuse := BitVec.ofNat 32 v, keyreq := r } }) ∧
    ∀ p, (p < 32 → bitOf s.fab.keyuse.toNat p ≠ bitOf v p → t.port p = { s.port p with ctr := 0 } ∧ bitOf r.toNat p = false) ∧
      (p < 32 → bitOf s.fab.keyuse.toNat p = bitOf v p → t.port p = s.port p ∧ bitOf r.toNat p = bitOf s.fab.keyreq.toNat p) ∧
      (32 ≤ p → t.port p = s.port p ∧ bitOf r.toNat p = bitOf s.fab.keyreq.toNat p)) ∧
  (∀ (s : State) (v : Nat),
    let p := s.fab.keysel.toNat % 32
    let k := s.port p
    let i := k.keyPos % 8
    let w := BitVec.ofNat 32 v
    (bitOf s.fab.keysel.toNat 8 = true → k.key1.length ≤ 8 → ∃ t, exec (.feKeydataWrite v) s = .next t ∧
      OnlyPort s t p { k with key1 := keyPut k.key1 i w, keyPos := (i + 1) % 8 }) ∧
    (bitOf s.fab.keysel.toNat 8 = false → k.key0.length ≤ 8 → ∃ t, exec (.feKeydataWrite v) s = .next t ∧
      OnlyPort s t p { k with key0 := keyPut k.key0 i w, keyPos := (i + 1) % 8 })) ∧
  (∀ (s : State) (v : Nat), ∃ t, exec (.feSchedLock v) s = .next t ∧
    (v % 2 = 0 ∨ s.fab.locked = true → OnlyFab s t { s.fab with sched := BitVec.ofNat 32 (v % 4), locked := decide (v % 2 = 1) }) ∧
    (v % 2 = 1 → s.fab.locked = false → ∃ n fc, n < 127 ∧
      t = { s with fab := { s.fab with sched := BitVec.ofNat 32 (v % 4), locked := true, slot := n }, freeCtr := fc })) ∧
  (∀ (s : State) (v : Nat),
    let slot := s.fab.tblsel.toNat % 128
    let port := s.fab.tblsel.toNat / 256 % 32
    let ignored := s.fab.sched.toNat % 2 = 1 ∨ slot = 127
    (ignored → exec (.feTbldataWrite v) s = .next s) ∧
    (¬ignored → ∃ t e, exec (.feTbldataWrite v) s = .next t ∧ OnlyFab s t { s.fab with tbl := e } ∧ tget 0xFFF e (slot * 32 + port) = v % 4096 ∧
      ∀ j, j ≠ slot * 32 + port → tget 0xFFF e j = tget 0xFFF s.fab.tbl j)) ∧
  (∀ (s : State) (c v : Nat),
    let k := s.chan c
    let ignored := 64 ≤ c ∨ k.posts ≠ [] ∨ k.tiles ≠ 0
    (ignored → exec (.feChpartWrite c v) s = .next s) ∧
    (¬ignored → ∃ t e, exec (.feChpartWrite c v) s = .next t ∧ OnlyFab s t { s.fab with chans := e } ∧
      t.chan c = { k with part := BitVec.ofNat 32 (v % 256) } ∧ ∀ j, j ≠ c → t.chan j = s.chan j))

/-- R313, R324, R325, R329, R330, R331 and R334: each slot the engine, once locked, goes on to the next of 127 slots; a burst of the slot before
that failed on its way waits to be sent again, as does one known to be lost; a port that carries data sends bursts to its partner of that slot
within the slot's flit times, and its flit counter rises with them, never past 2^48 - 1; an unlocked engine stands still. -/
def SlotsTurn : Prop :=
  ∀ s : State, GuardsIdle s →
    (s.fab.locked = false → ∃ t, exec .rotorSlot s = .next t ∧ (∃ ps, t = { s with ports := ps }) ∧ ∀ n, t.port n = s.port n) ∧
    (s.fab.locked = true → (∀ p < 32, (s.port p).up = false) → ∃ t us, exec .rotorSlot s = .next t ∧
      (∃ ps fc, t = { s with ports := ps, freeCtr := fc, fab := { s.fab with slot := (s.fab.slot + 1) % 127, unacked := us } }) ∧
      (∀ n, t.port n = s.port n) ∧ (∀ x ∈ us, x.lost = true ∧ ∃ y ∈ s.fab.unacked, y.burst = x.burst ∧ y.peer = x.peer) ∧
      (∀ y ∈ s.fab.unacked, y.lost = true → y ∈ us)) ∧
    (∀ p < 32, s.fab.locked = true → s.fab.unacked = [] → (s.port p).up = true → (∀ q < 32, q ≠ p → (s.port q).up = false) →
      ∀ q, tget 0xFFF s.fab.tbl ((s.fab.slot + 1) % 127 * 32 + p) = q →
        (q = 0xFFF → ∃ t, exec .rotorSlot s = .next t ∧ (∃ ps, t = { s with ports := ps, fab := { s.fab with slot := (s.fab.slot + 1) % 127 } }) ∧
          ∀ n, t.port n = s.port n) ∧
        (q ≠ 0xFFF → ∃ (t : State) (bs : List Burst), exec .rotorSlot s = .next t ∧
          (∃ ps cr fc, t = { s with ports := ps, freeCtr := fc, fab := { s.fab with
            slot := (s.fab.slot + 1) % 127, out := s.fab.out.filter (fun b => decide (b ∉ bs)),
            unacked := bs.map (fun b => (⟨q, false, b⟩ : Sent)), cred := cr } }) ∧
          t.port p = { s.port p with ctr := (s.port p).ctr + (bs.map (fun b => b.flits.length + 1)).sum } ∧ (∀ n, n ≠ p → t.port n = s.port n) ∧
          (∀ b ∈ bs, b ∈ s.fab.out ∧ MaySend s p q b) ∧
          (bs.map (fun b => b.flits.length + 1)).sum ≤ (if (s.port p).st = 5 then 1980 else 3960) - 8 ∧
          ((s.port p).ctr ≤ 2 ^ 48 - 1 → (t.port p).ctr ≤ 2 ^ 48 - 1)))

/-- R324, R325, R328, R329 and R331: a received burst that fails its checks is discarded, and one that fails FEC is noted for the slot guard; one
for another package is held as relay traffic while the buffer of 32 MiB has room; one of the package's own is delivered when it is the next of
its source package and channel, held when it came early, and dropped when it was delivered before. -/
def BurstsArrive : Prop :=
  ∀ (s : State) (p sender slot ok vc seq path : Nat) (flits : List (List Nat)),
    let i := Instr.burstReceived p sender slot ok vc seq path flits
    let src := path / 4096
    let dst := path % 4096
    let good := ok = 1 ∧ s.fab.locked = true ∧ sender ≠ 0xFFF ∧ tget 0xFFF s.fab.tbl (slot % 127 * 32 + p) = sender ∧ flits.length ≤ 31 ∧ vc < 8
    let want := tget 0 s.fab.seqIn (src * 8 + vc)
    let b : Burst := ⟨src, dst, vc, seq, .own, flits⟩
    (ok = 0 → p < 32 → s.fab.locked = true → ∃ t, exec i s = .next t ∧ OnlyPort s t p { s.port p with fecBad := true }) ∧
    (¬good → ¬(ok = 0 ∧ p < 32 ∧ s.fab.locked = true) → exec i s = .next s) ∧
    (good → dst ≠ s.pkgId →
      let f : Fabric := { s.fab with out := s.fab.out ++ [heldAs s p b] }
      (heldAs s p b ∈ s.fab.out ∨ 8192 < f.relay → exec i s = .next s) ∧
      (heldAs s p b ∉ s.fab.out → f.relay ≤ 8192 → exec i s = .next { s with fab := f })) ∧
    (good → dst = s.pkgId →
      (seq < want ∨ b ∈ s.fab.early → exec i s = .next s) ∧
      (want < seq → b ∉ s.fab.early → (∀ x ∈ s.fab.early, ¬(x.src = src ∧ x.vc = vc ∧ x.seq = want)) →
        (∀ x ∈ s.fab.arrived, x.vc ≠ 7) → exec i s = .next { s with fab := { s.fab with early := s.fab.early ++ [b] } }) ∧
      (seq = want → s.fab.early = [] → vc ≠ 7 → flits ≠ [] → (∀ x ∈ s.fab.arrived, x.vc ≠ 7) → ∃ t e, exec i s = .next t ∧
        OnlyFab s t { s.fab with arrived := s.fab.arrived ++ [b], seqIn := e } ∧ tget 0 e (src * 8 + vc) = seq + 1 ∧
        ∀ j, j ≠ src * 8 + vc → tget 0 e j = tget 0 s.fab.seqIn j))

end Sys2Proof.Claims

open Sys2Proof Sys2Proof.Machine Sys2Proof.Claims in
/-- R313, R324 to R331, R333, R334 and R354: the fabric engine's registers and keys, its slots, and the bursts that it receives.
Where the spec leaves a point open, the clauses rest on the model's reading, log entries 21, 42, 54 and 55. -/
def Obligations.FabricEngineSendsAndReceives : Prop := KeysAndTables ∧ SlotsTurn ∧ BurstsArrive

namespace Sys2Proof.Claims
open Sys2Proof.Machine

/-- An entry of a peering table grants a source package and partition (R337). -/
def GrantedBy (s : State) (dpart pkg spart : Nat) : Prop :=
  let nx := (s.part dpart).cfg.nx
  let tab := s.homeLe (nx + 0x38) 8
  (s.part dpart).on = true ∧ nx ≠ 0 ∧ tab ≠ 0 ∧ ∃ i < 256, let e := s.homeLe (tab + 4 * i) 4
    e / 2 ^ 31 % 2 = 1 ∧ (e / 2 ^ 30 % 2 = 1 ∨ e % 4096 = pkg) ∧ (e / 2 ^ 29 % 2 = 1 ∨ e / 2 ^ 16 % 32 = spart)

/-- The homes of a remote range of a partition: its sync areas and its mapped memory; no mirror page is written (R336, R339, R361). -/
def HomesOf (s : State) (p : Nat) (k : Acc) (a n : Nat) (pas : List Nat) : Prop :=
  pas.length = n ∧ ∀ j < n, (regionOf (a + j) = .sync ∧ syncSlice (a + j) ∈ (s.part p).cfg.slices ∧ nth 0 pas j = a + j) ∨
    (regionOf (a + j) = .mem ∧ s.xlateNow p k (a + j) = .ok (nth 0 pas j) ∧ (k = .wr → s.inMirror p (nth 0 pas j) = false))

/-- The ranges of a partition's clone map, base and length (R386). -/
def cloneRanges (s : State) (part : Nat) : List (Nat × Nat) :=
  let nx := (s.part part).cfg.nx
  (upFrom 0 16).map (fun r => (s.homeLe (nx + 0x40 + 16 * r) 8, s.homeLe (nx + 0x48 + 16 * r) 8))

/-- The addresses of stripe `i` of a clone map, in order: 1 MiB of the map, its ranges one behind the other (R384). -/
def stripeAt (s : State) (part i : Nat) : List Nat :=
  let rs := cloneRanges s part
  (upFrom (1048576 * i) (min 1048576 ((rs.map Prod.snd).sum - 1048576 * i))).map (gatherAt rs)

/-- The moves that wait for a page of a cuff are made again (R383). -/
def Unparked (s t : State) : Prop := t.parked = [] ∧ t.agenda = s.parked.map (fun m => (⟨0, m⟩ : Turn)) ++ s.agenda

/-- Every lease has its 64 bytes, and no line is leased twice. -/
def LeasesOk (s : State) : Prop := (∀ l ∈ s.leases, l.data.length = 64) ∧ (s.leases.map (fun l => l.line)).Nodup

/-- A failed request at the target is counted and answered with status 6 (R336). -/
def failedAt (s : State) (pkg : Nat) : State := { s with fab := { s.fab with rfail := satInc32 s.fab.rfail } }.send pkg 7 [[6]]

/-- The bytes written at distinct homes; nothing else of the state is changed. -/
def PutAt (s u : State) (pas : List Nat) (bs : List Byte) : Prop :=
  (∃ m, u = { s with mem := m }) ∧ (∀ j < pas.length, u.homeByte (nth 0 pas j) = nth 0 bs j) ∧ HomesKept s u (fun a => a ∈ pas)

/-- R336 to R338, R383 and R384: remote requests act at the target's homes where the peering table grants them, and fail otherwise; a join
engine reads a stripe through its cuff, whose pages have so been read, and the object image in the shadow pool. -/
def RemoteRequestsAct : Prop :=
  (∀ (s : State) (pkg spart mode dpart addr len mx : Nat) (data : List Nat), 2 ≤ mode →
    let i := Instr.remoteRequestIngress pkg spart mode dpart addr len mx data
    let s0 := s.serve pkg 5
    let n := min len 512
    let bs := padTo n ((byteList data).take n)
    let clean := fun (pas : List Nat) => ∀ a ∈ pas, s0.poisonedIn a 1 = false
    (¬GrantedBy s0 dpart pkg spart → exec i s = .next (failedAt s0 pkg)) ∧
    (8 < mode ∨ mode < 6 → exec i s = .next (failedAt s0 pkg)) ∧
    (GrantedBy s0 dpart pkg spart →
      (mode = 6 → ∀ pas, HomesOf s0 dpart .rd addr n pas → clean pas →
        exec i s = .next (s0.send pkg 7 ([0] :: flitsOf 9 (natBytes (pas.map s0.homeByte))))) ∧
      (mode = 6 → (∀ pas, HomesOf s0 dpart .rd addr n pas → ¬clean pas) → exec i s = .next (failedAt s0 pkg)) ∧
      (mode = 7 → ∀ pas, HomesOf s0 dpart .wr addr n pas → pas.Nodup → PlainHomes s0 → ∃ u, exec i s = .next (u.send pkg 7 [[0]]) ∧ PutAt s0 u pas bs) ∧
      (mode = 7 → (∀ pas, ¬HomesOf s0 dpart .wr addr n pas) → exec i s = .next (failedAt s0 pkg)) ∧
      (mode = 8 → n % 4 = 0 → ∀ pas, HomesOf s0 dpart .rd addr n pas → HomesOf s0 dpart .wr addr n pas → pas.Nodup → PlainHomes s0 →
        ∃ u new, exec i s = .next (u.send pkg 7 [[0]]) ∧ PutAt s0 u pas new ∧ new.length = n ∧
          ∀ e < n / 4, leAt new (4 * e) 4 =
            (let a := leAt (pas.map s0.homeByte) (4 * e) 4
             let b := leAt bs (4 * e) 4
             (if mx = 1 then fmaxCode a b else f32Add .rne a b) % 2 ^ 32)) ∧
      (mode = 8 → (∀ pas, ¬(HomesOf s0 dpart .rd addr n pas ∧ clean pas)) ∨ (∀ pas, ¬HomesOf s0 dpart .wr addr n pas) →
        (∀ pas qas, HomesOf s0 dpart .rd addr n pas → HomesOf s0 dpart .wr addr n qas → pas = qas) → exec i s = .next (failedAt s0 pkg)))) ∧
  (∀ (s : State) (pkg spart mode dpart addr len mx : Nat) (data : List Nat), mode ≤ 1 →
    let i := Instr.remoteRequestIngress pkg spart mode dpart addr len mx data
    let s0 := s.serve pkg 0
    let k := s0.part dpart
    let mine := k.cuff ≠ none ∧ leAt (tget [] k.objs 0) 6 2 = pkg
    (¬mine → exec i s = .next (s0.send pkg 7 [[6]])) ∧
    (mine → mode = 0 → (∀ r ∈ cloneRanges s0 dpart, r.1 % 65536 = 0 ∧ r.2 % 65536 = 0) →
      let places := stripeAt s0 dpart addr
      let bs := places.map (s0.cuffByte dpart)
      ∃ t, exec i s = .next (t.send pkg 7 ([0] :: flitsOf (bs.length + 1) (natBytes bs))) ∧ Unparked s t ∧
        (∃ ps a m, t = { s0 with parts := ps, agenda := a, parked := m }) ∧ (∀ n, n ≠ dpart → t.part n = s.part n) ∧
        ∃ z, t.part dpart = { k with seen := z } ∧ ∀ x, x ∈ z ↔ x ∈ k.seen ∨ ∃ a ∈ places, x = a / 65536) ∧
    (mine → mode = 1 → let bs := s0.homeBytes (s0.homeLe (k.cfg.nx + 0x18) 8) k.imgLen
      exec i s = .next (s0.send pkg 7 ([0] :: flitsOf (bs.length + 1) (natBytes bs)))))

/-- R248, R337, R339, R340 and R361: a remote atomic acts on its leased line and answers the old value, and waits where record and replay holds it;
a lease that has run out is written back. The mirror range takes none (R361). -/
def RemoteAtomicsAct : Prop :=
  (∀ (s : State) (pkg spart dpart addr op w64 x b2 : Nat),
    let i := Instr.remoteAtomicIngress pkg spart dpart addr op w64 x b2
    let s0 := s.serve pkg 6
    let n := if w64 = 1 then 8 else 4
    let o := atOpOf op
    let right := GrantedBy s0 dpart pkg spart ∧ 8 ≤ op ∧ op ≤ 0x13 ∧ addr % n = 0
    (¬right → exec i s = .next (failedAt s0 pkg)) ∧
    (right → (∀ pas, ¬HomesOf s0 dpart .rd addr n pas) → exec i s = .next (failedAt s0 pkg)) ∧
    (right → o.writes = true → (∀ pas, ¬HomesOf s0 dpart .wr addr n pas) → exec i s = .next (failedAt s0 pkg)) ∧
    (∀ pas, right → HomesOf s0 dpart .rd addr n pas → (o.writes = true → ∃ qas, HomesOf s0 dpart .wr addr n qas) →
      let pa := nth 0 pas 0
      (s0.poisonedIn pa n = true ∨ s0.inMirror dpart pa = true → exec i s = .next (failedAt s0 pkg)) ∧
      (s0.poisonedIn pa n = false → s0.inMirror dpart pa = false →
      (∀ d, s0.rrOf dpart = some d → (s0.gateOf dpart d 15 addr = .consumed ∨ ∃ p, s0.gateOf dpart d 15 addr = .hold p) → exec i s = .next s) ∧
      (s0.rrOf dpart = none → pa % 64 + n ≤ 64 → LeasesOk s0 → s0.anyCuff = false →
        let old := s0.homeLe pa n
        let new := (o.f (8 * n) old (x % 2 ^ (8 * n)) (b2 % 2 ^ (8 * n)) 0).1
        ∃ u l, exec i s = .next (u.send pkg 7 [[0], natBytes (toLe n old)]) ∧ (∃ m ls, u = { s0 with mem := m, leases := ls }) ∧ LeasesOk u ∧
          (o.writes = true → u.homeBytes pa n = toLe n new) ∧ HomesKept s0 u (fun a => o.writes = true ∧ pa ≤ a ∧ a < pa + n) ∧
          leaseAt u.leases pa = some l ∧
          (∀ l0, leaseAt s0.leases pa = some l0 → s.cycle < l0.until_ → l.until_ = l0.until_) ∧
          ((∀ l0, leaseAt s0.leases pa = some l0 → l0.until_ ≤ s.cycle) → l.until_ = s.cycle + 16000))))) ∧
  (∀ (s : State) (line : Nat) (l : Lease), LeasesOk s → l ∈ s.leases → l.line = line →
    (l.until_ ≤ s.cycle → ∃ t, exec (.leaseExpiry line) s = .next t ∧ (∃ m, t = { s with mem := m, leases := s.leases.filter (fun y => decide (y.line ≠ line)) }) ∧
      HomesKept s t (fun _ => False)) ∧
    (s.cycle < l.until_ → exec (.leaseExpiry line) s = .next s)) ∧
  (∀ (s : State) (line : Nat), (∀ l ∈ s.leases, l.line ≠ line) → exec (.leaseExpiry line) s = .next s)

/-- The head of a channel alone is changed. -/
def OnlyHead (s t : State) (ch : Nat) (c : Coll) : Prop :=
  (∃ e, t = { s with fab := { s.fab with chans := e } }) ∧ t.chan ch = { s.chan ch with posts := c :: (s.chan ch).posts.drop 1 } ∧
    ∀ j, j ≠ ch → t.chan j = s.chan j

/-- The completion record of R349 for a collective that ends with a status. -/
def collectiveRecord (s : State) (ch : Nat) (c : Coll) (st : Nat) : List Byte :=
  let began := st = 0 ∨ 3 ≤ st
  let part := s.chanPart ch
  let rank := match s.ranksOf part c.gid with | some r => rankIn r s.pkgId | none => 0xFFFF
  [BitVec.ofNat 8 st, BitVec.ofNat 8 (min c.restarts 255)] ++ toLe 2 (s.part part).gen.toNat ++ toLe 2 (if began then c.live.length else 0) ++ toLe 2 rank
    ++ toLe 4 (if began then c.lo c.pos else 0) ++ toLe 4 (if began then c.lo (c.pos + 1) - c.lo c.pos else 0)
    ++ toLe 4 (if st = 0 then c.normSum else 0) ++ toLe 4 c.rejects ++ toLe 4 c.t0 ++ toLe 4 s.cycle ++ List.replicate 32 0

/-- A collective has ended with a status: its record, then the bit of its bitmap; it leaves its channel with the tiles that it consumed
(R341, R349). -/
def CollectiveEnded (s t : State) (ch : Nat) (c : Coll) (st : Nat) (pas : List Nat) : Prop :=
  let k := s.chan ch
  let used := if c.begun = true ∧ leAt c.pkt 0x10 8 = 0 then min k.tiles ((leAt c.pkt 0x0C 4 + 1023) / 1024) else 0
  let bm := 0xE000000000 + leAt c.pkt 0x28 4 + leAt c.pkt 0x2C 2 / 8
  (∃ m e, t = { s with mem := m, fab := { s.fab with chans := e } }) ∧
  t.chan ch = { k with posts := k.posts.drop 1, tiles := k.tiles - used, first := (k.first + used) % 256 } ∧
  (∀ j, j ≠ ch → t.chan j = s.chan j) ∧ t.homeByte bm = s.homeByte bm ||| BitVec.ofNat 8 (2 ^ (leAt c.pkt 0x2C 2 % 8)) ∧
  (∀ j < 64, t.homeByte (nth 0 pas j) = nth 0 (collectiveRecord s ch c st) j) ∧ HomesKept s t (fun a => a = bm ∨ a ∈ pas)

/-- R341, R343, R344, R347 to R350 and R391: the collective at the head of a channel is refused, is stale, or begins with the next sequence
number of its group and sends staged elements as they come; flits of another generation are rejected, early ones held, those of a matching
collective combined or its mismatch and abort noted; a retry is sent after 10 µs; a collective that has all it waits for ends. -/
def CollectivesRun : Prop :=
  (∀ (s : State) (ch : Nat) (c : Coll), s.collHead ch = some c →
    let part := s.chanPart ch
    let gid := leAt c.pkt 6 2
    let table := match s.ranksOf part gid with | some r => r | none => []
    (c.status ≠ none → exec (.collectiveHead ch) s = .next s) ∧
    (c.status = none → c.begun = false →
      let c1 := { c with t0 := s.cycle % 2 ^ 32 }
      let stale := leAt c.pkt 4 2 ≠ (s.part part).gen.toNat ∨ rankIn table s.pkgId = 0xFFFF
      (s.collValid part c = false → ∃ t, exec (.collectiveHead ch) s = .next t ∧ OnlyHead s t ch { c1 with status := some 1 }) ∧
      (s.collValid part c = true → ¬stale → (∀ pas, ¬HomesOf s part .wr (leAt c.pkt 0x20 8) 64 pas) →
        ∃ t c', exec (.collectiveHead ch) s = .next t ∧ t.collHead ch = some c' ∧ c'.begun = true ∧ c'.status = some 3) ∧
      (s.collValid part c = true → stale → ∃ t, exec (.collectiveHead ch) s = .next t ∧ OnlyHead s t ch { c1 with status := some 2 }) ∧
      (s.collValid part c = true → ¬stale → ∃ t c', exec (.collectiveHead ch) s = .next t ∧ t.collHead ch = some c' ∧ c'.begun = true ∧
        c'.pkt = c.pkt ∧ c'.t0 = s.cycle % 2 ^ 32 ∧ c'.gen = (s.part part).gen.toNat ∧ c'.seq = tget 0 (s.part part).seqs gid ∧
        c'.live = liveRanks table ∧ c'.rank = rankIn table s.pkgId ∧ tget 0 (t.part part).seqs gid = c'.seq + 1 ∧ t.blocks = s.blocks)) ∧
    (c.status = none → c.begun = true →
      let there := min c.need (1024 * (s.chan ch).tiles)
      (leAt c.pkt 0x10 8 ≠ 0 ∨ there ≤ c.sent → exec (.collectiveHead ch) s = .next s) ∧
      let clean := ∀ i, c.sent / 1024 ≤ i → 1024 * i < there → s.poisonedIn (s.stageAt ch i) 4096 = false
      (leAt c.pkt 0x10 8 = 0 → c.sent < there → ¬clean → ∃ t, exec (.collectiveHead ch) s = .next t ∧ t.collHead ch = some { c with status := some 3 }) ∧
      (leAt c.pkt 0x10 8 = 0 → c.sent < there → clean → ∃ t c', exec (.collectiveHead ch) s = .next t ∧ t.collHead ch = some c' ∧ c'.sent = there ∧
        c'.begun = true ∧ c'.pkt = c.pkt ∧ c'.seq = c.seq ∧ t.blocks = s.blocks))) ∧
  (∀ (s : State) (ch src kind gen gid seq op dt red total base : Nat) (vals : List Nat), kind ≤ 3 ∨ kind = 5 →
    let i := Instr.collectiveFlitIngress ch src kind gen gid seq op dt red total base vals
    let s0 := s.serve src (1 + gid / 2 ^ 14)
    let part := s.chanPart ch
    let table := match s.ranksOf part gid with | some r => r | none => []
    let rank := rankIn table src
    let now := (s.part part).gen.toNat
    let wrong := gen ≠ now ∨ rank = 0xFFFF
    let f : CFlit := ⟨part, src, kind, gen, gid, seq, op, dt, red, total, base, vals⟩
    (wrong → ∃ t, exec i s = .next t ∧ (t.part part).stalegen = satInc (s.part part).stalegen ∧ t.mem = s.mem ∧ t.fab.flits = s.fab.flits ∧
      (∀ c k, c < 64 → s.collHead c = some k → s.chanPart c = part → k.begun = true → k.gid = gid →
        t.collHead c = some { k with rejects := k.rejects + 1 }) ∧
      (let ahead := (gen + 65536 - now) % 65536
       (0 < ahead ∧ ahead < 32768 → ∃ b rest, t.fab.out = s.fab.out ++ b :: rest ∧ b.dst = src ∧ b.vc = 7 ∧
         b.flits.head? = some [0x100, ch, gen, gid, seq, op, dt, red, total, base, kind]) ∧
       (¬(0 < ahead ∧ ahead < 32768) → t.fab.out = s.fab.out))) ∧
    (¬wrong → s.collOf part gid seq = none →
      (tget 0 (s.part part).seqs gid ≤ seq → exec i s = .next { s0 with fab := { s0.fab with flits := s0.fab.flits ++ [f] } }) ∧
      (seq < tget 0 (s.part part).seqs gid → exec i s = .next s0)) ∧
    (∀ n c, ¬wrong → s.collOf part gid seq = some n → s.collHead n = some c → c.status = none →
      let differs := op ≠ leAt c.pkt 0 1 ∨ dt ≠ leAt c.pkt 2 1 ∨ red ≠ leAt c.pkt 3 1 ∨ total ≠ leAt c.pkt 0x0C 4
      (kind ≤ 1 → differs → ∃ t, exec i s = .next t ∧ t.collHead n = some { c with status := some 4 }) ∧
      (kind = 3 → c.norm.any (fun x => decide (x.1 = rank)) = false → ∃ u, exec i s = .next ((u.shardDone n).normDone n) ∧
        OnlyHead s0 u n { c with norm := c.norm ++ [(rank, BitVec.ofNat 32 (nth 0 vals 0))] }) ∧
      (kind = 5 → ∃ u, exec i s = .next ((u.shardDone n).normDone n) ∧ OnlyHead s0 u n { c with normOut := some (BitVec.ofNat 32 (nth 0 vals 0)) }) ∧
      (kind = 0 → ¬differs → ∃ u c', exec i s = .next ((u.shardDone n).normDone n) ∧ OnlyHead s0 u n c' ∧
        (∃ a h l, c' = { c with acc := a, have_ := h, held := l }) ∧
        ∀ e, let who := tget [] c.have_ e
          let x := (fun v => if dt = 1 then v * 65536 else v) (nth 0 vals (e - base))
          (base ≤ e ∧ e < base + vals.length ∧ rank ∉ who → tget [] c'.have_ e = who ++ [rank] ∧
            (leAt c.pkt 1 1 % 2 = 1 → tget [] c'.held e = tget [] c.held e ++ [(rank, BitVec.ofNat 32 x)]) ∧
            (leAt c.pkt 1 1 % 2 = 0 → tget 0 c'.acc e = BitVec.ofNat 32 (if who = [] then x else
              if red = 1 then fmaxCode (tget 0 c.acc e).toNat x else f32Add .rne (tget 0 c.acc e).toNat x))) ∧
          (¬(base ≤ e ∧ e < base + vals.length ∧ rank ∉ who) → tget [] c'.have_ e = who ∧ tget [] c'.held e = tget [] c.held e ∧
            tget 0 c'.acc e = tget 0 c.acc e)))) ∧
  (∀ (s : State) (ch src gen gid seq n : Nat) (c : Coll),
    let part := s.chanPart ch
    let table := match s.ranksOf part gid with | some r => r | none => []
    gen = (s.part part).gen.toNat → rankIn table src ≠ 0xFFFF → s.collOf part gid seq = some n → s.collHead n = some c → c.status = none →
      ∃ t, exec (.collectiveAbortReceived ch src gen gid seq) s = .next t ∧
        OnlyHead (s.serve src (1 + gid / 2 ^ 14)) t n { c with status := some 5 }) ∧
  (∀ (s : State) (ch : Nat) (c : Coll) (pas : List Nat), s.collHead ch = some c → c.begun = true → c.status = none → c.sentShard = false →
    leAt c.pkt 0 1 = 1 → leAt c.pkt 1 1 < 2 → c.shardFull = true → pas.Nodup → PlainHomes s →
    let lo := c.lo c.pos
    let vals := (upFrom lo (c.lo (c.pos + 1) - lo)).map c.reduced
    HomesOf s (s.chanPart ch) .wr (leAt c.pkt 0x18 8 + lo * c.w) (vals.length * c.w) pas →
      ∃ u, OnlyHead s u ch { c with sentShard := true } ∧ PutAt u (s.shardDone ch) pas ((vals.map (toLe c.w)).flatten)) ∧
  (∀ (s : State) (id : Nat) (r : Resend), s.fab.resends.find? (fun y => decide (y.id = id)) = some r →
    let gone := { s with fab := { s.fab with resends := s.fab.resends.filter (fun y => decide (y.id ≠ id)) } }
    ((s.part r.part).gen.toNat ≠ r.gen → exec (.collectiveResend id) s = .next gone) ∧
    ((s.part r.part).gen.toNat = r.gen → s.cycle < r.at_ + 40000 → exec (.collectiveResend id) s = .next s) ∧
    ((s.part r.part).gen.toNat = r.gen → r.at_ + 40000 ≤ s.cycle →
      exec (.collectiveResend id) s = .next (gone.send r.burst.dst r.burst.vc r.burst.flits))) ∧
  (∀ (s : State) (ch : Nat) (c : Coll) (pas : List Nat), s.collHead ch = some c →
    let part := s.chanPart ch
    let bm := 0xE000000000 + leAt c.pkt 0x28 4 + leAt c.pkt 0x2C 2 / 8
    (c.status = none → c.ready = false → exec (.collectiveCompletion ch) s = .next s) ∧
    (HomesOf s part .wr (leAt c.pkt 0x20 8) 64 pas → leAt c.pkt 0x20 8 % 64 = 0 → s.syncOk part (leAt c.pkt 0x28 4) = true → leAt c.pkt 0x2C 2 < 512 →
      pas.Nodup → bm ∉ pas → PlainHomes s →
      (∀ st, c.status = some st → ∃ t, exec (.collectiveCompletion ch) s = .next t ∧ CollectiveEnded s t ch c st pas) ∧
      (c.status = none → c.ready = true → leAt c.pkt 0 1 = 1 → ∃ t, exec (.collectiveCompletion ch) s = .next t ∧ CollectiveEnded s t ch c 0 pas) ∧
      (∀ qas, c.status = none → c.ready = true → leAt c.pkt 0 1 ≠ 1 → qas.Nodup → s.anyCuff = false →
        let vals := (upFrom 0 (leAt c.pkt 0x0C 4)).map (fun e => ((tget none c.got e).getD 0).toNat)
        HomesOf s part .wr (leAt c.pkt 0x18 8) (vals.length * c.w) qas → ∃ u, PutAt s u qas ((vals.map (toLe c.w)).flatten) ∧
          (HomesOf u part .wr (leAt c.pkt 0x20 8) 64 pas → ∃ t, exec (.collectiveCompletion ch) s = .next t ∧ CollectiveEnded u t ch c 0 pas))))

end Sys2Proof.Claims

open Sys2Proof Sys2Proof.Machine Sys2Proof.Claims in
/-- R248, R336 to R340, R361, R383 and R384: what requests and atomics of other packages do at their target.
Where the spec leaves a point open, the clauses rest on the model's reading, log entries 34, 40, 42 and 53. -/
def Obligations.RemoteWorkActsAtTheTarget : Prop := RemoteRequestsAct ∧ RemoteAtomicsAct

open Sys2Proof Sys2Proof.Machine Sys2Proof.Claims in
/-- R341 to R350 and R391: how collectives begin, combine, are rejected, retried, aborted and ended.
Where the spec leaves a point open, the clauses rest on the model's reading, log entries 41, 42 and 56. -/
def Obligations.CollectivesCombineAndEnd : Prop := CollectivesRun

namespace Sys2Proof.Claims
open Sys2Proof.Machine

/-- A group's ring names slots, its rotation count has 16 bits, and the frames that it keeps are whole (R355, R356). -/
def RingOk (s : State) (spine : Bool) : Prop :=
  (∀ m ∈ (s.nxRing spine).members, m < 128) ∧ (s.nxRing spine).rot < 65536 ∧ ∀ f ∈ (s.nxRing spine).frames, f.length = 256

/-- A possession of a group has been sent (R355, R357, R358): at most 16 frames with the heartbeat last, which passes the cap to the next place
of the ring, counts a rotation where that place is lower, and follows the frames before it in the order; each frame has taken a value of the
port's counter. -/
def Possessed (s t : State) (spine : Bool) : Prop :=
  let g := s.nxRing spine
  let g' := t.nxRing spine
  let own := s.ownPlace spine
  let next := nextIn g.members own
  let rot := if next < own then (g.rot + 1) % 65536 else g.rot
  g'.holder = next ∧ g'.cap = decide (next = own) ∧ g'.rot = rot ∧ g'.lastSeen = s.cycle ∧
  (t.port (if spine then 33 else 32)).ctr = (s.port (if spine then 33 else 32)).ctr + g'.sent.length ∧
  ∃ h, g'.sent.getLast? = some h ∧ g'.sent.length ≤ 16 ∧ h.length = 256 ∧ leAt h 0 1 = 1 ∧ leAt h 1 2 % 4096 = s.pkgId ∧ leAt h 16 1 = g'.sent.length ∧
    leAt h 5 2 = rot ∧ leAt h 32 1 = next ∧ leAt h 7 8 = (g.top + (g'.sent.filter (fun f => decide (leAt f 3 1 % 2 = 0))).length) % 2 ^ 64

/-- A group is enabled, its port is up and has a counter value left (R334, R355, R388). -/
def GroupSends (s : State) (spine : Bool) : Prop :=
  let x := s.port (if spine then 33 else 32)
  bitOf s.nx.ctl.toNat (if spine then 1 else 0) = true ∧ x.up = true ∧ x.ctr + 1 < 2 ^ 48

/-- The cap of a group stands idle here and its port can send (R357, R360). -/
def MayPossess (s : State) (spine : Bool) : Prop := GroupSends s spine ∧ (s.nxRing spine).cap = true ∧ (spine = true → s.isRelay = true)

/-- The package stands `k` places after the silent holder (R358). -/
def PlacesAfter (s : State) (spine : Bool) (k : Nat) : Prop :=
  let next := nextIn (s.nxRing spine).members
  1 ≤ k ∧ Nat.repeat next k (s.nxRing spine).holder = s.ownPlace spine ∧ ∀ j, 1 ≤ j → j < k → Nat.repeat next j (s.nxRing spine).holder ≠ s.ownPlace spine

/-- The package may take the cap of a silent group (R358): 12.8 µs and 50 ns for each further place. -/
def SilenceOver (s : State) (spine : Bool) (k : Nat) : Prop :=
  let g := s.nxRing spine
  GroupSends s spine ∧ g.cap = false ∧ s.ownPlace spine ∈ g.members ∧ (spine = true → s.isRelay = true) ∧ g.lastSeen + 51200 + (k - 1) * 200 ≤ s.cycle

/-- A partition that has taken a call of the package's own engines: it waits for room where 8 calls are unsent (R371). -/
def withCall (p : Machine.Part) (e : List Byte) : Machine.Part :=
  if p.unsent.length < 8 then { p with unsent := p.unsent ++ [(e, none)] } else { p with ecalls := p.ecalls ++ [e] }

/-- A call entry stands in the log of its partition at the next position (R367). -/
def Placed (s t : State) (part : Nat) (e : List Byte) : Prop :=
  let pos := (s.part part).placed
  (t.part part).placed = pos + 1 ∧ (PlainHomes s → t.homeBytes (s.logSlot part pos) 96 = e ++ toLe 8 pos ++ List.replicate 8 0)

/-- R357, R358, R360, R364 and R388: the holder of a cap sends its possession; a package that has waited out a silent group takes the cap,
counts it and names the silent holder with cause 1; port 32 belongs to the leaf and port 33 to the spine. -/
def CapsMove : Prop :=
  (∀ s : State, RingOk s false → RingOk s true →
    (¬MayPossess s false → ¬MayPossess s true → exec .capReceived s = .next s) ∧
    (MayPossess s false → s.nxOn true = false → ∃ t, exec .capReceived s = .next t ∧ Possessed s t false) ∧
    (¬MayPossess s false → MayPossess s true → ∃ t, exec .capReceived s = .next t ∧ Possessed s t true)) ∧
  (∀ (s : State) (k : Nat), RingOk s false → PlacesAfter s false k → s.nxOn true = false →
    (¬SilenceOver s false k → exec .capRegeneration s = .next s) ∧
    (SilenceOver s false k → ∃ t, exec .capRegeneration s = .next t ∧ Possessed s t false ∧ t.nx.regen = satInc32 s.nx.regen ∧
      (s.nx.leaf.holder ∈ s.nx.leaf.members → s.nx.leaf.holder ≠ s.ownPlace false → (s.port 32).ctr + 2 < 2 ^ 48 → t.nx.susp = satInc32 s.nx.susp ∧
        ∃ f h, t.nx.leaf.sent = [f, h] ∧ leAt f 0 1 = 4 ∧ leAt f 32 2 = 128 * (s.pkgId / 128) + s.nx.leaf.holder ∧ leAt f 34 1 = 1))) ∧
  (∀ (s : State) (k : Nat), RingOk s true → PlacesAfter s true k → s.nxOn false = false → SilenceOver s true k →
    ∃ t, exec .capRegeneration s = .next t ∧ Possessed s t true ∧ t.nx.regen = satInc32 s.nx.regen ∧
      (s.nx.spine.holder ∈ s.nx.spine.members → s.nx.spine.holder ≠ s.ownPlace true → (s.port 33).ctr + 2 < 2 ^ 48 → t.nx.susp = satInc32 s.nx.susp ∧
        ∃ f h, t.nx.spine.sent = [f, h] ∧ leAt f 0 1 = 4 ∧ leAt f 17 2 = s.pkgId ∧ leAt f 34 1 = 1))

/-- R355, R356, R358 and R359: frames of kinds 1 to 6 are kept, and take effect only once their possession has closed, in the order of their seqs
and behind no gap; a possession without its heartbeat only ends the silence. -/
def PossessionsClose : Prop :=
  ∀ (s : State) (port : Nat) (frames : List (List Nat)),
    let i := Instr.possessionClose port frames
    let spine := decide (port = 33)
    let g := s.nxRing spine
    let fs := (frames.map byteList).filter (fun f => decide (f.length = 256 ∧ 1 ≤ leAt f 0 1 ∧ leAt f 0 1 ≤ 6))
    let heard := fun (h : List Byte) => fs.getLast? = some h ∧ leAt h 0 1 = 1 ∧ fs.length ≤ leAt h 16 1 ∧ leAt h 16 1 ≤ 16
    ((port ≠ 32 ∧ port ≠ 33) ∨ s.nxOn spine = false → exec i s = .next s) ∧
    (port = 32 ∨ port = 33 → s.nxOn spine = true →
      ((∀ h, ¬heard h) → ∃ t, exec i s = .next t ∧ t = s.setNxRing spine { g with lastSeen := s.cycle }) ∧
      (∀ h, heard h → g.wait = [] → (∀ j < fs.length, leAt (nth [] fs j) 7 8 = g.seq + 1 + j) → ∃ t, exec i s = .next t ∧
        let g' := t.nxRing spine
        g'.seq = g.seq + fs.length ∧ g'.wait = [] ∧ g'.gap = none ∧ g'.frames = (fs.reverse ++ g.frames).take 65536 ∧ g'.holder = leAt h 32 1 ∧
        g'.rot = leAt h 5 2 ∧ g'.cap = decide (leAt h 32 1 = s.ownPlace spine) ∧ g'.lastSeen = s.cycle) ∧
      (∀ h, heard h → g.wait = [] → g.gap = none → (∀ f ∈ fs, g.seq + 1 < leAt f 7 8) → (fs.map (fun f => leAt f 7 8)).Nodup →
        ∃ t, exec i s = .next t ∧ (∃ rp, t = s.setNxRing spine { g with
          lastSeen := s.cycle, repeats := rp, holder := leAt h 32 1, rot := leAt h 5 2, cap := decide (leAt h 32 1 = s.ownPlace spine), wait := fs,
          gap := some (g.seq + 1, leAt h 5 2) })))

/-- R361, R362, R365, R367 and R371: what frames of the leaf do where they take effect: a call takes the next position of its log, a
publication is written whole at its last frame, three members' suspicions within four rotations confirm a failure, a heartbeat takes failed members from the
ring, ends their unfinished publications and reports how far its sender has applied, a trim proposal raises the bound of the trim point. -/
def FramesTakeEffect : Prop :=
  (∀ (s : State) (f : List Byte), f.length = 256 → leAt f 0 1 = 3 → leAt f 3 1 / 2 % 2 = 0 → leAt f 3 1 / 8 % 2 = 0 →
    let p := leAt f 4 1
    let e0 := (f.drop 32).take 80
    let e1 := (f.drop 112).take 80
    (s.part p).on = true → leAt e0 0 2 ≠ 0xFFFF →
      (leAt e1 0 2 = 0xFFFF → Placed s (s.applyLeaf f) p e0) ∧
      (leAt e1 0 2 ≠ 0xFFFF → ∃ u, Placed s u p e0 ∧ Placed u (s.applyLeaf f) p e1) ∧
      (∀ b g rest, (s.part p).sentCalls = some (b, g) :: rest → leAt f 17 2 % 4096 = s.pkgId → leAt e1 0 2 = 0xFFFF →
        ((s.applyLeaf f).part p).sentCalls = rest ∧ ∀ k x, s.bg b g = some (k, x) → x.calling = true →
          ∃ k', (s.applyLeaf f).bg b g = some (k', { x with roPos := some (s.part p).placed }))) ∧
  (∀ (s : State) (f : List Byte) (base n sc : Nat), f.length = 256 → leAt f 0 1 = 2 → leAt f 3 1 = 4 → tget [] s.nx.pubs (2 * (leAt f 17 2 % 4096)) = [] →
    (s.part (leAt f 4 1)).on = true → s.mirror (leAt f 4 1) = some (base, n, sc) → base % 32 = 0 → PlainHomes s →
    (∀ j < 5, leAt ((f.drop (32 + 40 * j)).take 40) 4 4 ≠ 0 → j = 0) → leAt ((f.drop 32).take 40) 0 4 % 2 ^ 15 * 32 < n →
      let e := (f.drop 32).take 40
      let a := base + 32 * (leAt e 0 4 % 2 ^ 15)
      let own := leAt f 17 2 % 4096 = s.pkgId
      ∃ u, (∀ x, u.homeByte x = if a ≤ x ∧ x < a + 32 ∧ bitOf (leAt e 4 4) (x - a) = true then nth 0 e (8 + (x - a)) else s.homeByte x) ∧
        u.nx.podA = s.nx.podA + (if own then 1 else 0) ∧ s.applyLeaf f = if own then u.settle.endTasks else u) ∧
  (∀ (s : State) (f : List Byte), f.length = 256 → leAt f 0 1 = 4 →
    let n := s.nx
    let x := leAt f 32 2 % 4096
    let a := leAt f 1 2 % 4096
    let r := leAt f 5 2
    let counts := a ≠ x ∧ a % 128 ∈ n.leaf.members ∧ x % 128 ∈ n.leaf.members ∧ x / 128 = s.pkgId / 128 ∧ x % 128 ∉ n.leaving
    let others := n.votes.filter (fun v => decide (v.1 = x ∧ v.2.1 ≠ a ∧ (r + 65536 - v.2.2) % 65536 ≤ 4))
    leAt f 3 1 / 8 % 2 = 0 →
    (¬counts → s.applyLeaf f = s) ∧
    (counts → others.length < 2 → ∃ v, s.applyLeaf f = { s with nx := { n with votes := v } } ∧ (x, a, r) ∈ v) ∧
    (counts → 2 ≤ others.length → ∃ v, s.applyLeaf f = { s with nx := { n with votes := v, leaving := n.leaving ++ [x % 128], confirmed := n.confirmed ++ [(x, r)] } })) ∧
  (∀ (s : State) (f : List Byte), f.length = 256 → leAt f 0 1 = 1 → leAt f 3 1 = 0 → s.nx.confirmed = [] → canonical [] s.nx.pubs = true →
    let slot := leAt f 1 2 % 4096 % 128
    let t := s.applyLeaf f
    (∀ m, m ∈ t.nx.leaf.members ↔ m ∈ s.nx.leaf.members ∧ m ∉ s.nx.leaving) ∧
    (∀ m ∈ s.nx.leaving, let o := 128 * (s.pkgId / 128) + m
      tget [] t.nx.pubs (2 * o) = [] ∧ (tget 0 s.nx.fly o = 0 → tget [] t.nx.pubs (2 * o + 1) = []) ∧ (tget 0 s.nx.fly o ≠ 0 → o ∈ t.nx.ended)) ∧
    ∀ p < 24, (s.part p).on = true → let e := leAt f (40 + 8 * p) 8
      tget 0 (t.part p).reps slot = e % 2 ^ 48 ∧ tget (0, 0) (t.part p).digs slot = (e % 2 ^ 48 / 4096 * 4096, e / 2 ^ 48) ∧
      (s.part p).trim ≤ (t.part p).trim ∧
      (∀ k ∈ s.liveSlots p, (s.part p).trim < (t.part p).trim → (t.part p).trim ≤ (if k = slot then e % 2 ^ 48 else tget 0 (s.part p).reps k)) ∧
      ((s.part p).trim < (t.part p).trim → (t.part p).trim ≤ (s.part p).trimMax)) ∧
  (∀ (s : State) (f : List Byte), f.length = 256 → leAt f 0 1 = 5 → leAt f 3 1 = 0 → (s.part (leAt f 4 1)).on = true →
    s.applyLeaf f = s.setPart (leAt f 4 1) { s.part (leAt f 4 1) with trimMax := max (s.part (leAt f 4 1)).trimMax (leAt f 32 8) })

/-- R359, R364, R365 and R385: a gap unfilled for 64 rotations sets the self-report bit; each four rotations after a confirmation without a call
the next live slot calls `expel` in every partition in which the package is live or a spare. -/
def FailuresAreExpelled : Prop :=
  (∀ s : State,
    let late := fun (g : NxRing) => ∃ x, g.gap = some x ∧ 64 ≤ (g.rot + 65536 - x.2) % 65536
    (late s.nx.leaf ∨ late s.nx.spine → exec .nirraxGapTimeout s = .next { s with nx := { s.nx with selfRep := true } }) ∧
    (¬late s.nx.leaf → ¬late s.nx.spine → exec .nirraxGapTimeout s = .next s)) ∧
  (∀ (s : State) (pkg : Nat),
    ((∀ c ∈ s.nx.confirmed, c.1 ≠ pkg) → exec (.expelFallback pkg) s = .next s) ∧
    (∀ c rest, s.nx.confirmed = c :: rest → c.1 = pkg →
      let k := (s.nx.leaf.rot + 65536 - c.2) % 65536 / 4
      let live := s.nx.leaf.members.filter (fun m => decide (m ≠ pkg % 128))
      let turn := 1 ≤ k ∧ k < live.length ∧ nth 0 live k = s.pkgId % 128
      (¬turn → exec (.expelFallback pkg) s = .next s) ∧
      (turn → ∃ t, exec (.expelFallback pkg) s = .next t ∧ ∀ p < 24,
        let m := Memb.read (tget [] (s.part p).objs 0)
        let here := (s.part p).on = true ∧ (m.live (s.baseRanks p) pkg = true ∨ pkg ∈ m.spares)
        (here → t.part p = withCall (s.part p) (callEntry s.pkgId p 0 0 [pkg])) ∧ (¬here → t.part p = s.part p))))

end Sys2Proof.Claims

open Sys2Proof Sys2Proof.Machine Sys2Proof.Claims in
/-- R355 to R365, R367, R371, R385 and R388: how the Nirrax engine sends, orders and applies frames, and how failed members leave.
Where the spec leaves a point open, the clauses rest on the model's reading, log entries 21, 48, 53 and 77. -/
def Obligations.NirraxEngineKeepsItsOrder : Prop := CapsMove ∧ PossessionsClose ∧ FramesTakeEffect ∧ FailuresAreExpelled

namespace Sys2Proof.Claims
open Sys2Proof.Machine

/-- A base rank table names a package; what a base package's place holds under the substitutions; a package is live (R378). -/
def BaseNames (base : List (Nat × List Nat)) (b : Nat) : Prop := ∃ t ∈ base, b ∈ t.2
def placeOf (m : Memb) (b : Nat) : Nat := ((m.subs.find? (fun y => decide (y.1 = b))).map Prod.snd).getD b
def LiveIn (base : List (Nat × List Nat)) (m : Memb) (p : Nat) : Prop := p ≠ 0xFFFF ∧ ∃ b, BaseNames base b ∧ placeOf m b = p

/-- The table of substitutions has no room for a package's own entry (R378). -/
def TableFull (base : List (Nat × List Nat)) (m : Memb) (x : Nat) : Prop := BaseNames base x ∧ (∀ e ∈ m.subs, e.1 ≠ x) ∧ 256 ≤ m.subs.length

/-- The places of `x` hold `y`, and with `own` the place of base `x`, whatever it has held; no other changes (R378). -/
def Moved (base : List (Nat × List Nat)) (m m' : Memb) (x y : Nat) (own : Bool) : Prop :=
  ∀ b, BaseNames base b → placeOf m' b = if placeOf m b = x ∨ (own = true ∧ b = x) then y else placeOf m b

/-- What the methods of `membership` give: a result and the state after it, or none where they trap with 0x1001 (R378). -/
def ExpelGives (base : List (Nat × List Nat)) (m : Memb) (pos x : Nat) (r : Option (Nat × Memb)) : Prop :=
  let cancelled := m.joiner ≠ 0xFFFF ∧ (m.joiner = x ∨ x ∈ m.donors base)
  (LiveIn base m x → TableFull base m x → r = none) ∧
  (LiveIn base m x → ¬TableFull base m x → ∃ m', r = some (m'.gen, m') ∧ m'.gen = (m.gen + 1) % 65536 ∧ m'.last = pos ∧ m'.spares = m.spares ∧
    m'.pbase = m.pbase ∧ m'.pgid = m.pgid ∧ Moved base m m' x 0xFFFF false ∧ (cancelled → m'.joiner = 0xFFFF ∧ m'.cuff = 2 ^ 64 - 1) ∧
    (¬cancelled → m'.joiner = m.joiner ∧ m'.cuff = m.cuff)) ∧
  (¬LiveIn base m x → x ∈ m.spares → r = some (m.gen, { m with spares := m.spares.filter (fun p => decide (p ≠ x)) })) ∧
  (¬LiveIn base m x → x ∉ m.spares → r = some (m.gen, m))

def AdmitGives (m : Memb) (pos sp b : Nat) (r : Option (Nat × Memb)) : Prop :=
  let may := m.joiner ≠ 0xFFFF ∧ m.joiner = sp ∧ m.pbase = b ∧ (b, 0xFFFF) ∈ m.subs ∧ m.cuff ≠ 2 ^ 64 - 1
  (¬may → r = none) ∧
  (may → ∃ m', r = some (m'.gen, m') ∧ m'.gen = (m.gen + 1) % 65536 ∧ m'.last = pos ∧ m'.joiner = 0xFFFF ∧ m'.cuff = 2 ^ 64 - 1 ∧
    m'.spares = m.spares.filter (fun p => decide (p ≠ sp)) ∧ placeOf m' b = sp ∧ ∀ x, x ≠ b → placeOf m' x = placeOf m x)

def ReplaceGives (base : List (Nat × List Nat)) (m : Memb) (pos x sp : Nat) (r : Option (Nat × Memb)) : Prop :=
  let clash := m.joiner ≠ 0xFFFF ∧ (x = m.joiner ∨ x = m.pbase ∨ sp = m.joiner ∨ sp = m.pbase)
  let may := LiveIn base m x ∧ sp ∈ m.spares ∧ ¬clash ∧ ¬TableFull base m x
  (¬may → r = none) ∧
  (may → ∃ m', r = some (m'.gen, m') ∧ m'.gen = (m.gen + 1) % 65536 ∧ m'.last = pos ∧ m'.joiner = m.joiner ∧ m'.cuff = m.cuff ∧
    m'.spares = m.spares.filter (fun p => decide (p ≠ sp)) ∧ Moved base m m' x sp true)

def CloneGives (base : List (Nat × List Nat)) (m : Memb) (sp b g : Nat) (r : Option (Nat × Memb)) : Prop :=
  let may := m.joiner = 0xFFFF ∧ sp ∈ m.spares ∧ (b, 0xFFFF) ∈ m.subs ∧ g < 2 ^ 14 ∧ ∃ t ∈ base, t.1 = g ∧ b ∈ t.2
  (¬may → r = none) ∧ (may → r = some (0, { m with joiner := sp, pbase := b, pgid := g, cuff := 2 ^ 64 - 1 }))

def AbortGives (m : Memb) (r : Option (Nat × Memb)) : Prop :=
  r = some (0, if m.joiner = 0xFFFF then m else { m with joiner := 0xFFFF, cuff := 2 ^ 64 - 1 })

def AddspareGives (base : List (Nat × List Nat)) (m : Memb) (p : Nat) (r : Option (Nat × Memb)) : Prop :=
  (LiveIn base m p ∨ p ∈ m.spares → r = some (m.spares.length, m)) ∧
  (¬LiveIn base m p → p ∉ m.spares → 64 ≤ m.spares.length → r = none) ∧
  (¬LiveIn base m p → p ∉ m.spares → m.spares.length < 64 → r = some (m.spares.length + 1, { m with spares := m.spares ++ [p] }))

/-- What `trainctl.step` gives (R380); scales are codes of powers of two, so that 2 ^ 23 more or less doubles or halves one. -/
def StepGives (m : Memb) (t : Train) (pos n ovf : Nat) (r : Nat × Memb × Train) : Prop :=
  let hist := fun (skip : Nat) => (2 * t.hist + skip) % 2 ^ 64
  let t1 : Train := { t with step := (t.step + 1) % 2 ^ 64, last := pos }
  (n ≠ t.step → r = (t.applied % 2 ^ 62 + 2 ^ 62, m, t)) ∧
  (n = t.step → m.joiner ≠ 0xFFFF → r = (t.applied % 2 ^ 63 + 2 ^ 63, { m with cuff := if m.cuff = 2 ^ 64 - 1 then pos else m.cuff }, { t1 with hist := hist 1 })) ∧
  (n = t.step → m.joiner = 0xFFFF → ovf % 2 = 1 →
    r = (t.applied % 2 ^ 63 + 2 ^ 63, m, { t1 with scale := max (t.scale - 2 ^ 23) 0x3F800000, good := 0, hist := hist 1 })) ∧
  (n = t.step → m.joiner = 0xFFFF → ovf % 2 = 0 → t.good + 1 = t.growth → r = ((t.applied + 1) % 2 ^ 62, m,
    { t1 with applied := (t.applied + 1) % 2 ^ 64, scale := min (t.scale + 2 ^ 23) 0x4B800000, good := 0, hist := hist 0 })) ∧
  (n = t.step → m.joiner = 0xFFFF → ovf % 2 = 0 → t.good + 1 ≠ t.growth → r = ((t.applied + 1) % 2 ^ 62, m,
    { t1 with applied := (t.applied + 1) % 2 ^ 64, good := t.good + 1, hist := hist 0 }))

/-- The log slot of a position lies apart from the partition's descriptor and shadow pool (R386). -/
def SlotApart (s : State) (part pos : Nat) : Prop :=
  let nx := (s.part part).cfg.nx
  let a := s.logSlot part pos
  let pool := s.homeLe (nx + 0x18) 8
  (a + 104 ≤ nx ∨ nx + 320 ≤ a) ∧ (a + 104 ≤ pool ∨ pool + 65536 * s.homeLe (nx + 0x20) 4 ≤ a)

/-- The next call of a partition is applied with its result and status, and the objects are as given (R367, R369, R370). -/
def CallDone (s t : State) (part res st : Nat) (objs : Sparse (List Byte)) : Prop :=
  let p := s.part part
  (t.part part).applied = p.applied + 1 ∧ (t.part part).objs = objs ∧ (t.part part).placed = p.placed ∧ t.blocks = s.blocks ∧
  (PlainHomes s → SlotApart s part p.applied → t.homeLe (s.logSlot part p.applied + 88) 8 = res % 2 ^ 64 ∧ t.homeLe (s.logSlot part p.applied + 96) 8 = st % 2 ^ 64)

/-- `membership` and `trainctl` of a partition. -/
def membOf (s : State) (part : Nat) : Memb := Memb.read (tget [] (s.part part).objs 0)
def trainOf (s : State) (part : Nat) : Train := Train.read (tget [] (s.part part).objs 1)

/-- A method of a standard object is applied, with a fence where the generation changes and none of the position has been queued before (R370, R381). -/
def StandardDone (s t : State) (part : Nat) (adm : Bool) (r : Option (Nat × Memb × Train)) : Prop :=
  let p := s.part part
  let m := membOf s part
  (r = none → CallDone s t part 0 (0x11 + 256 * 0x1001) p.objs ∧ (t.part part).fences = p.fences) ∧
  (∀ v m' tr, r = some (v, m', tr) → ∃ o, CallDone s t part v 0 o ∧ tget [] o 0 = m'.bytes ∧ tget [] o 1 = tr.bytes ∧
    (∀ j, 2 ≤ j → tget [] o j = tget [] p.objs j) ∧
    (t.part part).fences = p.fences ++ if m'.gen = m.gen ∨ p.applied < p.fenced then [] else [⟨p.applied, m'.gen, m'.derived (s.baseRanks part), adm⟩])

/-- A method event acts where its method is the next call of the partition's log, and nowhere else. -/
def MethodEvent (i : Instr) (s : State) (part obj meth : Nat) (gives : CallE → Option (Nat × Memb × Train) → Prop) : Prop :=
  (∀ e, s.nextCall part = some e → e.obj = obj → e.meth = meth →
    ∃ t r, exec i s = .next t ∧ gives e r ∧ StandardDone s t part (decide (obj = 0 ∧ meth = 1)) r) ∧
  ((∀ e, s.nextCall part = some e → ¬(e.obj = obj ∧ e.meth = meth)) → exec i s = .next s)

/-- A method that touches `membership` alone, and one that touches `trainctl` alone. -/
def byMemb (s : State) (part : Nat) (f : CallE → Option (Nat × Memb) → Prop) : CallE → Option (Nat × Memb × Train) → Prop :=
  fun e r => ∃ q, f e q ∧ r = q.map (fun y => (y.1, y.2, trainOf s part))
def byTrain (s : State) (part : Nat) (f : CallE → Option (Nat × Train) → Prop) : CallE → Option (Nat × Memb × Train) → Prop :=
  fun e r => ∃ q, f e q ∧ r = q.map (fun y => (y.1, membOf s part, y.2))

/-- The value of a 16-bit argument of a call. -/
def arg16 (e : CallE) (n : Nat) : Nat := nth 0 e.args n % 65536

/-- R367, R369, R370 and R377 to R381: the next call of a partition's log is applied: its object's state, its result and status in its slot of
the log, the applied count; a trap leaves the state with result 0 and status 0x11 above its code. The methods of `membership` and `trainctl`
give what their tables say. -/
def CallsApply : Prop :=
  (∀ (s : State) (part : Nat),
    (s.nextCall part = none → exec (.callApply part) s = .next s) ∧
    (∀ e, s.nextCall part = some e → ∃ t, exec (.callApply part) s = .next t ∧
      (∀ c, s.runCall part e (s.part part).applied false = .inr c → CallDone s t part 0 (0x11 + 256 * c) (s.part part).objs) ∧
      (∀ v o, s.runCall part e (s.part part).applied false = .inl (v, o) → CallDone s t part v 0 o))) ∧
  (∀ (s : State) (part : Nat) (e : CallE) (pos : Nat) (ro : Bool), s.methodsOf part e.obj ≤ e.meth → s.runCall part e pos ro = .inr 2) ∧
  (∀ (s : State) (part : Nat),
    let base := s.baseRanks part
    let m := membOf s part
    let tr := trainOf s part
    let pos := (s.part part).applied
    MethodEvent (.membershipExpel part) s part 0 0 (byMemb s part (fun e => ExpelGives base m pos (arg16 e 0))) ∧
    MethodEvent (.membershipAdmit part) s part 0 1 (byMemb s part (fun e => AdmitGives m pos (arg16 e 0) (arg16 e 1))) ∧
    MethodEvent (.membershipReplace part) s part 0 2 (byMemb s part (fun e => ReplaceGives base m pos (arg16 e 0) (arg16 e 1))) ∧
    MethodEvent (.membershipClone part) s part 0 3 (byMemb s part (fun e => CloneGives base m (arg16 e 0) (arg16 e 1) (arg16 e 2))) ∧
    MethodEvent (.membershipAbort part) s part 0 4 (byMemb s part (fun _ => AbortGives m)) ∧
    MethodEvent (.membershipAddspare part) s part 0 5 (byMemb s part (fun e => AddspareGives base m (arg16 e 0))) ∧
    MethodEvent (.membershipGetgen part) s part 0 6 (byMemb s part (fun _ r => r = some (m.gen, m))) ∧
    MethodEvent (.trainctlStep part) s part 1 0 (fun e r => ∃ q, StepGives m tr pos (nth 0 e.args 0) (nth 0 e.args 1) q ∧ r = some q) ∧
    MethodEvent (.trainctlSetscale part) s part 1 1 (byTrain s part (fun e r => let v := nth 0 e.args 0 % 2 ^ 32
      let good := v % 2 ^ 23 = 0 ∧ 0x3F800000 ≤ v ∧ v ≤ 0x4B800000
      (good → r = some (0, { tr with scale := v })) ∧ (¬good → r = none))) ∧
    MethodEvent (.trainctlSetclip part) s part 1 2 (byTrain s part (fun e r => let v := nth 0 e.args 0 % 2 ^ 32
      let good := 0 < v ∧ v < 0x7F800000
      (good → r = some (0, { tr with clip := v })) ∧ (¬good → r = none))) ∧
    MethodEvent (.trainctlSetgrowth part) s part 1 3 (byTrain s part (fun e r => let v := nth 0 e.args 0
      let good := 1 ≤ v ∧ v ≤ 2 ^ 31
      (good → r = some (0, { tr with growth := v })) ∧ (¬good → r = none))) ∧
    MethodEvent (.trainctlGetscale part) s part 1 4 (byTrain s part (fun _ r => r = some (tr.clip * 2 ^ 32 + tr.scale, tr))) ∧
    MethodEvent (.trainctlGetstep part) s part 1 5 (byTrain s part (fun _ r => r = some (tr.step, tr))))

/-- R342, R348, R381 and R383: a fence publishes the partition's cores, once their accesses are complete, and sends its frame; once that has been applied it installs generation and
tables together and closes the cuff of an admitted clone. The first write to a marked page, or the engine itself, copies the old page to a free
shadow page behind the object image; where the pool is empty a page that the join engine has read is unmarked, and the write of another one
stalls. -/
def FencesAndCuffs : Prop :=
  (∀ (s : State) (part : Nat),
    let p := s.part part
    let quiet := ∀ sl ∈ p.cfg.slices, ∀ j < 8, (s.core (8 * sl + j)).outs = []
    (p.fences = [] → exec (.generationFence part) s = .next s) ∧
    (p.fenceSent = none → ¬quiet → exec (.generationFence part) s = .next s) ∧
    (∀ f rest, p.fences = f :: rest → p.fenceSent = none → quiet → ∃ t, exec (.generationFence part) s = .next t ∧
      (t.part part).fenceSent = some (2 * t.nx.podQ) ∧ (t.part part).gen = p.gen ∧ (t.part part).ranks = p.ranks ∧ (t.part part).fences = p.fences ∧
      s.nx.podQ < t.nx.podQ ∧ t.nx.outq.getLast? = some (queuedFrame 2 4 part (List.replicate 208 0)) ∧
      ∀ sl ∈ p.cfg.slices, ∀ j < 8, ∀ y ∈ (t.core (8 * sl + j)).cache, y.isDirty = false) ∧
    (∀ f rest n, p.fences = f :: rest → p.fenceSent = some n → s.pubDone n = false → exec (.generationFence part) s = .next s) ∧
    (∀ f rest n, p.fences = f :: rest → p.fenceSent = some n → s.pubDone n = true → ∃ t, exec (.generationFence part) s = .next t ∧
      (t.part part).gen.toNat = f.gen % 65536 ∧ (t.part part).ranks = f.ranks ∧ (t.part part).fences = rest ∧ (t.part part).fenceSent = none ∧
      (f.forAdmit = true → (t.part part).cuff = none ∧ (t.part part).shadow = []) ∧ (f.forAdmit = false → (t.part part).cuff = p.cuff))) ∧
  (∀ (s : State) (part page : Nat),
    let p := s.part part
    let base := s.homeLe (p.cfg.nx + 0x18) 8
    let n := s.homeLe (p.cfg.nx + 0x20) 4
    let used := p.shadow.map Prod.snd
    let first := (p.imgLen + 65535) / 65536
    let unmarked := p.marked.filter (fun y => decide (y ≠ page))
    (p.cuff = none ∨ page ∉ p.marked → exec (.cuffPageCopy part page) s = .next s) ∧
    (p.cuff ≠ none → page ∈ p.marked →
      (∀ i < n, first ≤ i → i ∉ used → (∀ j < i, first ≤ j → j ∈ used) → s.leases = [] → ∃ t, exec (.cuffPageCopy part page) s = .next t ∧
        (∃ m ps, t = { s with mem := m, parts := ps }) ∧ t.part part = { p with marked := unmarked, shadow := p.shadow ++ [(page, i)] } ∧
        (∀ j < 65536, t.homeByte (base + 65536 * i + j) = s.homeByte (65536 * page + j)) ∧
        HomesKept s t (fun a => base + 65536 * i ≤ a ∧ a < base + 65536 * i + 65536)) ∧
      ((∀ i < n, first ≤ i → i ∈ used) →
        (page ∈ p.seen → ∃ t, exec (.cuffPageCopy part page) s = .next t ∧ (∃ ps, t = { s with parts := ps }) ∧
          t.part part = { p with marked := unmarked }) ∧
        (page ∉ p.seen → exec (.cuffPageCopy part page) s = .next { s with stalled := true }))))

/-- The join engine of a partition works for this package: the pending joiner is this package and the cuff position is set (R384). -/
def Joining (s : State) (part : Nat) : Prop := (s.part part).on = true ∧ (membOf s part).joiner = s.pkgId ∧ (membOf s part).cuff ≠ 2 ^ 64 - 1

/-- The donors of a pending clone (R383). -/
def donorsOf (s : State) (part : Nat) : List Nat := (membOf s part).donors (s.baseRanks part)

/-- A partition alone is changed. -/
def OnlyPart (s t : State) (part : Nat) (k : Machine.Part) : Prop :=
  (∃ ps, t = { s with parts := ps }) ∧ t.part part = k ∧ ∀ n, n ≠ part → t.part n = s.part n

/-- The join engine's read of stripe `i` goes to donor i mod D, and after each read that has ended with status 6 to the next; where there is
no donor nothing is sent (R384). -/
def AsksStripe (s : State) (part i : Nat) (out : Out) : Prop :=
  let p := s.part part
  let ds := donorsOf s part
  let n := tget 0 p.asked i
  (ds = [] → out = .next s) ∧
  (ds ≠ [] → ∃ t a, out = .next (t.send (nth 0 ds ((i + n) % ds.length)) 0 [[0, part, i]]) ∧ OnlyPart s t part { p with asked := a } ∧
    ∀ j, tget 0 a j = if j = i then n + 1 else tget 0 p.asked j)

/-- R384: the join engine writes the stripes that it has read at their own addresses; a stripe whose read ended with status 6 it asks of the
next donor. -/
def StripesLand : Prop :=
  ∀ (s : State) (part stripe status : Nat) (data : List Nat),
    let i := Instr.joinClone part stripe status 0 data
    let bs := byteList data
    let places := stripeAt s part stripe
    (Joining s part → status = 0 → places ≠ [] → data.length = places.length → places.Nodup → PlainHomes s → ∃ t, exec i s = .next t ∧
      (∀ j < places.length, t.homeByte (nth 0 places j) = nth 0 bs j) ∧ HomesKept s t (fun x => x ∈ places) ∧
      (t.part part).join = insNat stripe (s.part part).join ∧ (t.part part).objs = (s.part part).objs ∧ t.blocks = s.blocks) ∧
    (Joining s part → status = 0 → places = [] ∨ data.length ≠ places.length → exec i s = .next s) ∧
    (Joining s part → status = 6 → places ≠ [] → AsksStripe s part stripe (exec i s)) ∧
    (Joining s part → status = 6 → places = [] → exec i s = .next s) ∧
    (¬Joining s part ∨ (status ≠ 0 ∧ status ≠ 6) → exec i s = .next s)

/-- R384: the join engine sends its reads one by one: each stripe that it has not asked for, then, once all have landed, the object image from
donor 0, then the log entry that the replay engine lacks. -/
def ReadsAreSent : Prop :=
  ∀ (s : State) (part stripe status kind : Nat) (data : List Nat), 5 ≤ kind →
    let i := Instr.joinClone part stripe status kind data
    let p := s.part part
    let is_ := fun (j : Nat) => stripeAt s part j ≠ []
    let asked := ∀ j, is_ j → tget 0 p.asked j ≠ 0
    let landed := ∀ j, is_ j → j ∈ p.join
    let wants := p.joinObjs = true ∧ p.applied < p.placed ∧ s.homeLe (s.logSlot part p.applied + 80) 8 ≠ p.applied ∧ p.entryAsked ≠ some p.applied
    (¬Joining s part → exec i s = .next s) ∧
    (Joining s part →
      (∀ j, is_ j → tget 0 p.asked j = 0 → (∀ n < j, tget 0 p.asked n ≠ 0) → AsksStripe s part j (exec i s)) ∧
      (asked → (donorsOf s part = [] ∨ ¬landed) → exec i s = .next s) ∧
      (∀ d ds, asked → landed → donorsOf s part = d :: ds →
        (p.objAsked = false → ∃ t, exec i s = .next (t.send d 0 [[1, part, 0]]) ∧ OnlyPart s t part { p with objAsked := true }) ∧
        (p.objAsked = true → wants → ∃ t, exec i s = .next (t.send d 5 [[1024, part, 6, part, s.logSlot part p.applied, 88, 0, 0, 0]]) ∧
          OnlyPart s t part { p with entryAsked := some p.applied }) ∧
        (p.objAsked = true → ¬wants → exec i s = .next s)))

/-- R367, R371, R378 and R383 to R385: the join engine loads the object image with the applied count K + 1, takes missing log entries, asks again for
what it could not read, calls `admit` once all is there, and calls `clone` again where its clone was cancelled. -/
def JoinsClone : Prop :=
  (∀ (s : State) (part stripe status : Nat) (data : List Nat), (s.part part).on = true →
    let p := s.part part
    let image := splitObjs p.objs (byteList data)
    let m := Memb.read (tget [] image 0)
    let good := m.joiner = s.pkgId ∧ m.cuff ≠ 2 ^ 64 - 1
    (status = 0 → good → ∃ t, exec (.joinClone part stripe status 1 data) s = .next t ∧
      OnlyPart s t part { p with objs := image, applied := m.cuff + 1, placed := max p.placed (m.cuff + 1), joinObjs := true }) ∧
    (status = 0 → ¬good → exec (.joinClone part stripe status 1 data) s = .next s) ∧
    (status ≠ 0 → ∃ t, exec (.joinClone part stripe status 1 data) s = .next t ∧ OnlyPart s t part { p with objAsked := false })) ∧
  (∀ (s : State) (part stripe status : Nat) (data : List Nat), (s.part part).on = true →
    let p := s.part part
    let bs := byteList data
    let pos := leAt bs 80 8
    (status = 0 → pos < p.applied ∨ data.length < 88 → exec (.joinClone part stripe status 2 data) s = .next s) ∧
    (status = 0 → p.applied ≤ pos → 88 ≤ data.length → PlainHomes s → ∃ t, exec (.joinClone part stripe status 2 data) s = .next t ∧
      t.homeBytes (s.logSlot part pos) 88 = bs.take 88 ∧ t.part part = { p with placed := max p.placed (pos + 1) } ∧
      HomesKept s t (fun x => s.logSlot part pos ≤ x ∧ x < s.logSlot part pos + 88)) ∧
    (status ≠ 0 → ∃ t, exec (.joinClone part stripe status 2 data) s = .next t ∧ OnlyPart s t part { p with entryAsked := none })) ∧
  (∀ (s : State) (part stripe status : Nat) (data : List Nat),
    let p := s.part part
    let m := membOf s part
    let all := ∀ i, stripeAt s part i ≠ [] → i ∈ p.join
    let due := Joining s part ∧ all ∧ p.joinObjs = true ∧ p.applied = p.placed ∧ p.joinAdmit = false
    (due → ∃ t, exec (.joinClone part stripe status 3 data) s = .next t ∧
      OnlyPart s t part (withCall { p with joinAdmit := true } (callEntry s.pkgId part 0 1 [s.pkgId, m.pbase]))) ∧
    (¬due → exec (.joinClone part stripe status 3 data) s = .next s)) ∧
  (∀ (s : State) (part stripe status : Nat) (data : List Nat),
    let p := s.part part
    let m := membOf s part
    let due := fun (b g : Nat) => p.on = true ∧ p.reclone = some (b, g) ∧ s.pkgId ∈ m.spares ∧ m.joiner = 0xFFFF ∧ (b, 0xFFFF) ∈ m.subs
    (∀ b g, due b g → ∃ t, exec (.joinClone part stripe status 4 data) s = .next t ∧
      OnlyPart s t part (withCall { p with reclone := none } (callEntry s.pkgId part 0 3 [s.pkgId, b, g]))) ∧
    ((∀ b g, ¬due b g) → exec (.joinClone part stripe status 4 data) s = .next s))

/-- The tables of the state stand in their canonical form. -/
def TablesOk (s : State) : Prop := canonical Vf.reset s.vfs = true ∧ canonical Core.reset s.cores = true ∧ canonical Machine.Part.none s.parts = true

/-- R1, R6, R7, R252, R290, R292, R302, R342, R377 and R379: a configuration keeps the limits only where its queues run on engines and stand in
sync areas of its own slices and no other partition holds its slices and units. An idle partition takes one that keeps them: its virtual functions, its queues, its
base rank tables at generation 0 and its objects in their first state; cached translations of it go and measurement 3 is extended, over the Nirrax descriptor too. Another
configuration changes nothing. -/
def PartitionsAreConfigured : Prop :=
  ∀ (s : State) (part : Nat) (cfg : PartCfg), TablesOk s →
    let i := Instr.partitionConfiguration part cfg
    (s.cfgOk part cfg = true → (∀ q ∈ cfg.queues, q.eng / 3 ∈ cfg.slices ∧ syncSlice (0xE000000000 + q.off) ∈ cfg.slices) ∧
      (∀ u ∈ cfg.units, u < 384 ∧ s.unitGone (0x1000000000 + u * 2 ^ 30) = false) ∧ (∀ x ∈ cfg.slices, x < 32) ∧
      ∀ p, p ≠ part → (s.part p).on = true → (∀ u ∈ cfg.units, u ∉ (s.part p).cfg.units) ∧ ∀ x ∈ cfg.slices, x ∉ (s.part p).cfg.slices) ∧
    (s.idlePart part = false ∨ s.cfgOk part cfg = false → exec i s = .next s) ∧
    (s.idlePart part = true → s.cfgOk part cfg = true → ∃ t, exec i s = .next t ∧ t.mem = s.mem ∧ t.blocks = s.blocks ∧
      (∀ n, n ≠ part → t.part n = s.part n) ∧ (∃ d, tget zeros32 t.xd.meas 3 = sha256 (tget zeros32 s.xd.meas 3 ++
        byteList (Config.measured 3 (d ++ if cfg.nx = 0 then [] else (s.homeBytes cfg.nx 320).map (fun y => y.toNat))))) ∧
      (∀ c, ∀ y ∈ (t.core c).tlb, y.part ≠ part) ∧ (∀ q ∈ t.queues, q.part = part → ∃ b ∈ cfg.queues, q = ⟨b.num, b.off, b.eng, part, none, [], []⟩) ∧
      (∀ q ∈ t.queues, q.part ≠ part → q ∈ s.queues) ∧
      (cfg.slices = [] → t.part part = .none) ∧
      (cfg.slices ≠ [] → (t.part part).on = true ∧ (t.part part).cfg = cfg ∧ (t.part part).gen = 0 ∧ (t.part part).applied = 0 ∧ (t.part part).placed = 0 ∧
        (t.part part).ranks = t.baseRanks part ∧ (t.part part).rrdesc = BitVec.ofNat 64 cfg.rrdesc ∧
        tget [] (t.part part).objs 0 = Memb.start.bytes ∧ tget [] (t.part part).objs 1 = Train.start.bytes ∧
        (∀ v, (t.vf v).part = some part ↔ v ∈ cfg.vfs) ∧ (∀ b ∈ cfg.queues, ∃ q ∈ t.queues, q.num = b.num ∧ q.off = b.off ∧ q.part = part)))

end Sys2Proof.Claims

open Sys2Proof Sys2Proof.Machine Sys2Proof.Claims in
/-- R367, R369, R370 and R377 to R381: calls of replayed objects are applied as their methods say.
Where the spec leaves a point open, the clauses rest on the model's reading, log entries 43 and 52. -/
def Obligations.ReplayedCallsChangeTheirObjects : Prop := CallsApply

open Sys2Proof Sys2Proof.Machine Sys2Proof.Claims in
/-- R292, R342, R348, R367 and R381 to R385: fences, cuffs and cloning, and a partition's configuration.
Where the spec leaves a point open, the clauses rest on the model's reading, log entries 34, 52 and 53. -/
def Obligations.FencesCloningAndConfiguration : Prop := FencesAndCuffs ∧ StripesLand ∧ ReadsAreSent ∧ JoinsClone ∧ PartitionsAreConfigured

namespace Sys2Proof.Claims
open Sys2Proof.Machine

/-- The words of a clause that stands in code: its header `h` and its words as numbers (R15, R16, R20). -/
def ClauseAt (s : State) (sp : Space) (who : Who) (hdr w : Nat) (h : Hdr) (v : Nat → Nat) : Prop :=
  s.code sp hdr = .inl w ∧ hdrOf who w = some h ∧ decodeHeader w = .ok h.instr ∧ ∀ j < h.n, s.code sp (hdr + 4 + 4 * j) = .inl (v j)

/-- The words of a fetched clause. -/
def wordsAs (w : Nat) (h : Hdr) (v : Nat → Nat) : List W32 := BitVec.ofNat 32 w :: (upFrom 0 h.n).map (fun n => BitVec.ofNat 32 (v n))

/-- Group `g` of block `b` may issue from its set: nothing stops it, no lane is owed a turn, and `x` is the group once deferral has
ended (R61, R63). -/
structure MayIssue (s : State) (b g : Nat) (k : Block) (x : Group) : Prop where
  found : ∃ x0, s.bg b g = some (k, x0) ∧ x = x0.undefer ∧ x0.ended = false ∧ (∀ l < 32, (x0.lane l).st = .live → x0.forcedSet = [] → (x0.lane l).starve < 1024)
  free : k.haltedFor g = false
  error : x.resErr = false
  some_ : x.select ≠ []

/-- The head of the agenda names a move, at which the machine has arrived: `dt` cycles have passed, and one more where a move of a higher
rank has been made in that cycle already (R199, R224, R248; log entry 2). A move that may change the cluster slots of several cores has a cycle
of its own. -/
def Arrived (s : State) (mv : Move) (s1 : State) : Prop :=
  ∃ dt rest, s.agenda = ⟨dt, mv⟩ :: rest ∧
    let c := s.cycle + dt
    let s0 := { s with agenda := ⟨0, mv⟩ :: rest, cycle := c }
    let own := if s.rank.1 = c ∧ s.rank.2 ≠ 0 then c + 1 else c
    s1 = if mv.alone then { s0 with cycle := own, rank := (own, 2 ^ 17) } else match s.moveRank mv with
      | none => s0
      | some n => if s.rank.1 = c ∧ n < s.rank.2 then { s0 with cycle := c + 1, rank := (c + 1, n) } else { s0 with rank := (c, n) }

/-- The step is a move with the outcome `out`; a move that writes to a page of a cuff whose shadow pool is empty is not made, and the state is
`s0` (R383; log entry 34). -/
def StepIs (s s0 : State) (out : Host.Outcome State Fault Refusal) : Prop :=
  ((∀ t, out = .next t → t.stalled = false) → step s = out) ∧ (∀ t, out = .next t → t.stalled = true → step s = .next s0)

/-- The agenda's head names an agent, and no wait's fault comes before it: `s0` is the state with that entry taken and its time passed. -/
def Next (s : State) (ag : Agent) (s0 : State) : Prop :=
  ∃ s1, Arrived s (.agent ag) s1 ∧ s1.due (s.dueRank (.agent ag)) = none ∧ s0 = { s1 with agenda := s1.agenda.drop 1 }

/-- A group that has fetched a clause: it holds the clause's words, and its control registers are in force (R16, R209). -/
def took (k : Block) (x : Group) (hdr w : Nat) (h : Hdr) (v : Nat → Nat) : Group :=
  { x with inf := inForce k x, fetched := tset [] x.fetched hdr (wordsAs w h v) }

/-- Lanes of a set have yielded in the clause at a header: it ends as though Y were 1 (R77). -/
def yieldedIn (x : Group) (set : List Nat) (hdr : Nat) : Bool := set.any (fun l => bitOf (tget 0 x.yends hdr) l)

/-- No breakpoint in force stops a group's word at `pc` (R205). -/
def NoBreak (k : Block) (x : Group) (pc : Nat) : Prop :=
  k.mode ≠ .run ∨ x.bkSkip = true ∨ ∀ v ∈ [x.inf.bk0, x.inf.bk1, x.inf.bk2, x.inf.bk3], v.toNat / 2 ^ 63 ≠ 1 ∨ v.toNat % 2 ^ 48 ≠ pc

/-- A stream of a block in another state; no other block is changed. -/
def withStream (s : State) (b : Nat) (copy : Bool) (y : Stream) : State := s.updBlk b (fun q => if copy then { q with cs := y } else { q with ms := y })

/-- The wide side of a group runs the word at its set's pc, of the clause that it has fetched or that stands in code. -/
def GroupRunsItsWord : Prop :=
  ∀ (s s0 : State) (b g : Nat) (k : Block) (x : Group) (hdr pc : Nat) (i : Instr), Next s (.group b g) s0 → MayIssue s0 b g k x →
    (∀ l ∈ x.select, (x.lane l).entered = true ∧ (x.lane l).hdr = hdr ∧ (x.lane l).pc.toNat = pc) →
    let act := x.select.filter (fun l => !(x.lane l).guardOff)
    (∀ hw ws, tget [] x.fetched hdr = hw :: ws → NoBreak k x pc → decodeWord (clsOf (hw :: ws)) (nth 0 (hw :: ws) ((pc - hdr) / 4)).toNat = .ok i →
      StepIs s s0 (exec i { (s0.updGrp b g (fun _ => x)) with cur := ⟨.group b g, x.select, act, pc, hdr, ws.length, yOf (hw :: ws) || yieldedIn x x.select hdr⟩ })) ∧
    (∀ w h v j, tget [] x.fetched hdr = [] → ClauseAt s0 (.part k.trec.part) .group hdr w h v → j < h.n → pc = hdr + 4 * (j + 1) →
      NoBreak k { x with inf := inForce k x } pc → decodeWord h.cls (v j % 2 ^ 32) = .ok i →
      StepIs s s0 (exec i { (s0.updGrp b g (fun _ => took k x hdr w h v)) with cur := ⟨.group b g, x.select, act, pc, hdr, h.n, h.y || yieldedIn x x.select hdr⟩ }))

/-- The wide side of a group opens the clause at which lanes of its set stand: as it stands in code, where the word that they landed on is
inside it, and `illegal-clause` otherwise; a class S clause that the scalar side has executed as that side fetched it (R16, R73, R126). -/
def GroupOpensItsClause : Prop :=
  ∀ (s s0 : State) (b g : Nat) (k : Block) (x : Group) (hdr pc : Nat), Next s (.group b g) s0 → MayIssue s0 b g k x →
    (∀ l ∈ x.select, (x.lane l).entered = false ∧ (x.lane l).hdr = hdr ∧ (x.lane l).pc.toNat = pc) →
    let at_ := fun (n : Nat) (y : Bool) => (⟨.group b g, x.select, x.select, hdr, hdr, n, y⟩ : Cur)
    (∀ w h v, hdr ∉ x.sAhead ∨ tget [] x.fetched hdr = [] → ClauseAt s0 (.part k.trec.part) .group hdr w h v →
      (pc ≤ hdr + 4 * h.n → StepIs s s0 (exec h.instr { (s0.updGrp b g (fun _ => took k x hdr w h v)) with cur := at_ h.n h.y })) ∧
      (hdr + 4 * h.n < pc → StepIs s s0 (.next (State.raise { (s0.updGrp b g (fun _ => x)) with cur := at_ 0 false } 0x02 0)))) ∧
    (∀ hw ws h, hdr ∈ x.sAhead → tget [] x.fetched hdr = hw :: ws → hdrOf .group hw.toNat = some h →
      StepIs s s0 (exec h.instr { (s0.updGrp b g (fun _ => x)) with cur := at_ h.n h.y }))

/-- The scalar side of a group runs the words of the clause that it is in, and opens a class S clause at which the wide side stands. -/
def ScalarRunsItsWords : Prop :=
  ∀ (s s0 : State) (b g : Nat) (k : Block) (x : Group), Next s (.scalar b g) s0 → s0.bg b g = some (k, x) → x.ended = false →
    k.haltedFor g = false → x.sFault = none →
    (∀ (r : ScRun) (hw : W32) (ws : List W32) (i : Instr), x.sc = some r → x.resErr = false → tget [] x.fetched r.hdr = hw :: ws →
      NoBreak k x (r.hdr + 4 * (r.idx + 1)) → decodeWord 0 (nth 0 (hw :: ws) (r.idx + 1)).toNat = .ok i →
      StepIs s s0 (exec i { s0 with cur := ⟨.scalar b g, [], if r.on then [0] else [], r.hdr + 4 * (r.idx + 1), r.hdr, r.n, r.y⟩ })) ∧
    (∀ (l : Nat) (ls : List Nat) (w : Nat) (h : Hdr) (v : Nat → Nat), x.sc = none → x.select = l :: ls →
      let y := x.lane l
      y.entered = false → y.hdr ∉ x.sAhead → ClauseAt s0 (.part k.trec.part) .group y.hdr w h v → h.cls = 0 → y.pc.toNat ≤ y.hdr + 4 * h.n →
      StepIs s s0 (exec h.instr { (s0.updGrp b g (fun _ => took k x y.hdr w h v)) with cur := ⟨.scalar b g, [], [0], y.pc.toNat, y.hdr, h.n, h.y⟩ }))

/-- A stream opens the clause at which it stands, and runs the words of the clause that it has fetched. -/
def StreamsRunTheirWords : Prop :=
  ∀ (s s0 : State) (b : Nat) (copy : Bool) (k : Block), Next s (if copy then .copy b else .matrix b) s0 → s0.blk b = some k →
    let y := if copy then k.cs else k.ms
    let who := if copy then Who.copy else .matrix
    y.running = true → k.stopping = false → k.mode = .run →
    let c := fun (pc n : Nat) (x : Bool) => (⟨if copy then .copy b else .matrix b, [], [0], pc, y.hdr, n, x⟩ : Cur)
    (∀ w h v, y.entered = false → y.pc ≤ y.hdr + 4 * h.n → ClauseAt s0 (.part k.trec.part) who y.hdr w h v →
      StepIs s s0 (exec h.instr { withStream s0 b copy { y with fetched := wordsAs w h v } with cur := c y.hdr h.n h.y })) ∧
    (∀ hw ws h i, y.entered = true → y.fetched = hw :: ws → hdrOf who hw.toNat = some h → y.pc ≤ y.hdr + 4 * h.n →
      decodeWord h.cls (nth 0 (hw :: ws) ((y.pc - y.hdr) / 4)).toNat = .ok i → StepIs s s0 (exec i { withStream s0 b copy y with cur := c y.pc h.n h.y }))

/-- A management core opens the clause at which it stands, and runs the words of the clause that it has fetched. -/
def MgmtRunsItsWords : Prop :=
  ∀ (s s0 : State) (m : Nat), Next s (.mgmt m) s0 →
    let k := s0.mc m
    k.stopped = false → k.waiting = false → (m = 0 → s0.xd.boot = 0xF0) →
    let c := fun (pc n : Nat) (x : Bool) => (⟨.mgmt m, [], if k.guardOff then [] else [0], pc, k.hdr, n, x⟩ : Cur)
    (∀ w h v, k.entered = false → k.pc.toNat ≤ k.hdr + 4 * h.n → ClauseAt s0 (.mgmt m) .mgmt k.hdr w h v →
      StepIs s s0 (exec h.instr { s0.setMc m { k with fetched := wordsAs w h v } with cur := c k.hdr h.n h.y })) ∧
    (∀ hw ws h i, k.entered = true → k.fetched = hw :: ws → hdrOf .mgmt hw.toNat = some h →
      decodeWord h.cls (nth 0 (hw :: ws) ((k.pc.toNat - k.hdr) / 4)).toNat = .ok i →
      StepIs s s0 (exec i { s0.setMc m k with cur := c k.pc.toNat h.n h.y }))

/-- An event runs with no word current, and an act of the host as it is; one that waits for a page of a cuff is kept, to be made again (R383). The
fault of a wait that is over its limit comes before any move of a later cycle or a higher rank (R144, R199, R220, R228). -/
def EventsAndTimeouts : Prop :=
  (∀ (s s1 : State) (mv : Move), Arrived s mv s1 → s1.due (s.dueRank mv) = none →
    let v := { s1 with agenda := s1.agenda.drop 1 }
    let kept := { v with parked := v.parked ++ [mv] }
    (∀ i, mv = .event i → StepIs s kept (exec i { v with cur := Cur.none })) ∧ (∀ h, mv = .host h → StepIs s kept (.next (v.hostAct h)))) ∧
  (∀ (s s1 : State) (mv : Move) (d : Due), Arrived s mv s1 → s1.due (s.dueRank mv) = some d →
    let out := exec d.what { (if d.at_ = s1.cycle then s1.ranked d.rank else s1) with cur := Cur.none }
    (∀ t, out = .next t → t.stalled = false) → step s = out) ∧
  (∀ (s : State) (d : Due), s.agenda = [] → s.due (some 0) = some d →
    let out := exec d.what { (if d.at_ = s.cycle then s.ranked d.rank else s) with cur := Cur.none }
    (∀ t, out = .next t → t.stalled = false) → step s = out)

/-- Of the faults of waits that are over their limits the one due first comes first, of those due in one cycle the one of the lowest core, there of
the lowest group, a group's before a stream's (R199). -/
def DuesInOrder : Prop :=
  ∀ (s : State) (r : Option Nat) (d : Due), s.due r = some d → d ∈ s.dues ∧
    ∀ e ∈ s.dues, (e.at_ < s.cycle ∨ ∀ n, r = some n → e.rank ≤ n) → d.at_ < e.at_ ∨ (d.at_ = e.at_ ∧ d.rank ≤ e.rank)

end Sys2Proof.Claims

open Sys2Proof Sys2Proof.Machine Sys2Proof.Claims in
/-- R16, R17, R61, R73, R77, R126, R144, R166, R199, R264, R297 and R383: where an agent moves, the step is the meaning of the word at its pc, decoded under the
class of its clause, and the current word names the agent, the lanes, the pc and the clause; a header is opened before its words; a wait over its
limit faults before any move of a later cycle or a higher rank; a move that waits for a page of a cuff is not made.
Where the spec leaves a point open, the clauses rest on the model's reading, log entries 2, 10, 11 and 34. -/
def Obligations.StepRunsTheDecodedWord : Prop := GroupRunsItsWord ∧ GroupOpensItsClause ∧ ScalarRunsItsWords ∧ StreamsRunTheirWords ∧
  MgmtRunsItsWords ∧ EventsAndTimeouts ∧ DuesInOrder

open Sys2Proof Sys2Proof.Machine Sys2Proof.Claims in
/-- R15, R23 and R34: words written out from the pictures of the spec decode to their instructions. -/
def Obligations.WordsDecodeAsPictured : Prop :=
  decodeHeader 0x19040000 = .ok (.clauseHeader 1 4 1 1 0 0 0 0 0) ∧ decodeWord 0 0x10481140 = .ok (.scmp 2 2 1 5) ∧
  decodeWord 0 0x151C1C02 = .ok (.sld 7 1 3 2) ∧ decodeWord 1 0x0109F400 = .ok (.vadd 4 125 0 0 0) ∧ decodeWord 1 0x3F020818 = .ok (.pand 1 2 3) ∧
  decodeWord 1 0x44080002 = .ok (.pset 4 1) ∧
  decodeWord 2 0x01088C00 = .ok (.vld 4 2 3 0 0) ∧ decodeWord 6 0x011FFFFD = .ok (.bra 0 3 524285) ∧ decodeWord 6 0x03001001 = .ok (.jmpi 4 1) ∧
  decodeWord 0 0x0D000001 = .error .reserved ∧ decodeWord 0 0x00000000 = .error .unassigned

open Sys2Proof Sys2Proof.Machine Sys2Proof.Claims in
/-- R15, R23 and R34: the word that a well-formed instruction is encoded as fits 32 bits and is read back as that instruction, every field at
every value that the encoding admits; and a word that decodes is the word of the instruction that it decodes to, so that no two words of a class
mean one instruction. -/
def Obligations.EncodedWordsReadBack : Prop :=
  (∀ (i : Instr) (w : Nat), i.wf = true → encodeWord i = some w →
    w < 2 ^ 32 ∧ (∀ c, classOf i = some c → decodeWord c w = .ok i) ∧ (classOf i = none → decodeHeader w = .ok i)) ∧
  (∀ (i : Instr) (c w : Nat), w < 2 ^ 32 → decodeWord c w = .ok i → i.wf = true ∧ classOf i = some c ∧ encodeWord i = some w) ∧
  (∀ (i : Instr) (w : Nat), w < 2 ^ 32 → decodeHeader w = .ok i → i.wf = true ∧ classOf i = none ∧ encodeWord i = some w)

open Sys2Proof Sys2Proof.Machine Sys2Proof.Claims in
/-- The invariant of the machine: device memory and host memory keep their canonical form over every step from every state that has it. -/
def Obligations.StepsKeepMemoryCanonical : Prop := ∀ (s t : State), s.Inv → step s = .next t → t.Inv

open Sys2Proof Sys2Proof.Machine Sys2Proof.Claims in
/-- R266, R291, R293, R298, R300, R309, R316, R354 and R388: after package reset the registers of the X-die read the reset values that their
tables give, management core 0 runs and cores 1 to 3 wait; the memory has its form.
Where the spec leaves a point open, the clauses rest on the model's reading, log entry 4. -/
def Obligations.ResetRegistersReadTheirValues : Prop :=
  let z := State.reset
  z.Inv ∧ (z.mc 0).waiting = false ∧ (z.mc 1).waiting = true ∧ (z.mc 2).waiting = true ∧ (z.mc 3).waiting = true ∧
  z.readReg 0x000 = some 0 ∧ z.readReg 0x008 = some 0 ∧ z.readReg 0x014 = some 0x90909090 ∧ z.readReg 0x01C = some 0 ∧ z.readReg 0x060 = some 0 ∧
  (∀ m < 4, ∀ o ∈ [0x000, 0x004, 0x008, 0x00C, 0x010, 0x014], z.readReg (0x01000000 + m * 0x1000 + o) = some 0) ∧
  (∀ d < 4, ∀ o ∈ [0x0, 0x4, 0x8, 0xC, 0x10, 0x18, 0x1C, 0x20, 0x24], z.readReg (0x02000000 + d * 0x10000 + o) = some 0) ∧
  (∀ q < 4, ∀ o ∈ [0x004, 0x008, 0x00C, 0x014, 0x018, 0x01C], z.readReg (0x02100000 + q * 0x1000 + o) = some 0) ∧
  (∀ p < 34, z.readReg (0x03000000 + p * 0x10000) = some 0 ∧ z.readReg (0x03000000 + p * 0x10000 + 0x4) = some 0 ∧
    (∀ l < 9, z.readReg (0x03000000 + p * 0x10000 + 0x10 + 4 * l) = some 0x800) ∧
    z.readReg (0x03000000 + p * 0x10000 + 0xC0) = some 0x76543210 ∧ z.readReg (0x03000000 + p * 0x10000 + 0xD0) = some 0x000F0000) ∧
  z.readReg 0x05000004 = some 0 ∧ z.readReg 0x05000008 = some 0 ∧ z.readReg 0x05000014 = some 0xFFF ∧
  (∀ v < 8, z.readReg (0x05000020 + 4 * v) = some 0x10) ∧ z.readReg 0x05000048 = some 0 ∧ z.readReg 0x05000068 = some 0 ∧
  (∀ c < 64, z.readReg (0x05000080 + 4 * c) = some 0xFF) ∧ z.readReg 0x05000200 = some 0 ∧ z.readReg 0x05000220 = some 0 ∧
  (∀ v < 96, z.readVf v 0x4 = 0 ∧ z.readVf v 0x8 = 0 ∧ z.readVf v 0xC = 0xFFFFFFFF ∧ z.readVf v 0x10 = 0)

namespace Sys2Proof.Claims
open Sys2Proof.Machine

/-- The forms of the opcode table that stand for an event of a part of the machine, outside any agent's words. `presenceWaitResume`, which
runs a waiting word again, is apart. -/
def isEvent : Instr → Bool
  | .memoryAccessCompletion _ _ => true
  | .presenceTimeout _ _ => true
  | .divergenceStarvation _ _ _ => true
  | .groupPromotion _ _ => true
  | .clusterJoinTimeout _ _ => true
  | .wfiWake _ => true
  | .haltBroadcast _ => true
  | .debugStopBreakpoint _ _ => true
  | .debugStopRequest _ => true
  | .traceSample _ => true
  | .preemptionSave _ => true
  | .blockPlacement _ => true
  | .dcRetireWrite _ _ _ => true
  | .tlbWalk _ _ _ => true
  | .replayGauntletAdmit _ _ _ => true
  | .replayGateTimeout _ _ _ => true
  | .packetBegin _ => true
  | .chunkLanding _ _ => true
  | .packetCompletion _ => true
  | .fencePacket _ => true
  | .abandonedSlotWrite _ => true
  | .queueRestart _ _ => true
  | .taskReleaseWrite _ _ _ => true
  | .hostSyncAtomic _ _ _ _ => true
  | .hostCxlMemAccess _ _ _ _ => true
  | .hbmCorrectedError _ _ _ _ _ => true
  | .classifierEntryExpiry _ _ => true
  | .hbmRepair _ _ => true
  | .hbmRepairMoveDone _ => true
  | .mcIpendClear _ _ => true
  | .mcPoke _ _ => true
  | .packageReset _ _ => true
  | .mgmtImageReceived _ => true
  | .spdmGetVersion _ => true
  | .spdmGetCapabilities _ => true
  | .spdmNegotiateAlgorithms _ => true
  | .spdmGetDigests _ => true
  | .spdmGetCertificate _ => true
  | .spdmChallenge _ => true
  | .spdmGetMeasurements _ => true
  | .lifetimeMonthEnd => true
  | .throttle _ _ _ => true
  | .dieOvertempStop _ _ => true
  | .xsFuseminWrite _ => true
  | .optCtlBits _ _ => true
  | .optStateOffRequest _ _ => true
  | .optStateUpRequest _ _ => true
  | .optLit _ _ => true
  | .optLitTimeout _ => true
  | .optLaserFailure _ _ _ => true
  | .optLockSweep _ _ => true
  | .optSweepDone _ _ => true
  | .optTrain _ _ => true
  | .optTrainDone _ _ _ => true
  | .optLanemapWrite _ _ => true
  | .wavelengthLoss _ _ => true
  | .keyRequestThreshold _ => true
  | .keyExhausted _ => true
  | .feKeyuseWrite _ => true
  | .feKeydataWrite _ => true
  | .feSchedLock _ => true
  | .feTbldataWrite _ => true
  | .feChpartWrite _ _ => true
  | .rotorSlot => true
  | .burstReceived _ _ _ _ _ _ _ _ => true
  | .remoteRequestIngress _ _ _ _ _ _ _ _ => true
  | .remoteAtomicIngress _ _ _ _ _ _ _ _ => true
  | .leaseExpiry _ => true
  | .remoteTimeout _ => true
  | .collectiveHead _ => true
  | .collectiveFlitIngress _ _ _ _ _ _ _ _ _ _ _ _ => true
  | .collectiveResend _ => true
  | .collectiveAbortReceived _ _ _ _ _ => true
  | .collectiveCompletion _ => true
  | .capReceived => true
  | .capRegeneration => true
  | .possessionClose _ _ => true
  | .nirraxGapTimeout => true
  | .expelFallback _ => true
  | .callApply _ => true
  | .membershipExpel _ => true
  | .membershipAdmit _ => true
  | .membershipReplace _ => true
  | .membershipClone _ => true
  | .membershipAbort _ => true
  | .membershipAddspare _ => true
  | .membershipGetgen _ => true
  | .trainctlStep _ => true
  | .trainctlSetscale _ => true
  | .trainctlSetclip _ => true
  | .trainctlSetgrowth _ => true
  | .trainctlGetscale _ => true
  | .trainctlGetstep _ => true
  | .generationFence _ => true
  | .cuffPageCopy _ _ => true
  | .joinClone _ _ _ _ _ => true
  | .partitionConfiguration _ _ => true
  | .managementPortFrame _ => true
  | .hostSyncApertureWrite _ _ _ => true
  | .registerUnitRetirement _ => true
  | .softError _ _ _ _ _ => true
  | .powerRemoval => true
  | _ => false

/-- A clause header. -/
def isHeader : Instr → Bool
  | .clauseHeader _ _ _ _ _ _ _ _ _ => true
  | _ => false

/-- An instruction is a word that the current agent runs, and that agent stands: a group's wide side runs the words of classes W, M, C, Y, F
and P, its scalar side those of class S, the matrix stream those of class X, the copy stream those of class C, a management core those of
classes S, F and P; each opens its clauses (R15, R16, R20, R264, R297). -/
def AgentFits (s : State) (i : Instr) : Prop :=
  let of := fun (cs : List Nat) => isHeader i = true ∨ ∃ c ∈ cs, classOf i = some c
  (∃ b g, s.cur.ag = .group b g ∧ (s.bg b g).isSome = true ∧ of [1, 2, 4, 5, 6, 7]) ∨ (∃ b g, s.cur.ag = .scalar b g ∧ (s.bg b g).isSome = true ∧ of [0]) ∨
  (∃ b, s.cur.ag = .matrix b ∧ (s.blk b).isSome = true ∧ of [3]) ∨ (∃ b, s.cur.ag = .copy b ∧ (s.blk b).isSome = true ∧ of [4]) ∨
  (∃ m, s.cur.ag = .mgmt m ∧ of [0, 6, 7])

/-- A word of a group issues that has not waited, on a core with no access under way and no sector cached or fetched ahead, with no packet claimed, no sector
poisoned, no line leased and no cuff open. -/
structure AtRest (s : State) (b g : Nat) (k : Block) (x : Group) : Prop where
  issues : s.Issues b g k x
  first : x.wait = none
  none_ : x.claim = none
  cache : (s.core k.core).cache = []
  outs : (s.core k.core).outs = []
  early : (s.core k.core).early = []
  plain : PlainHomes s

/-- R250 and R251: on a settled core the task words complete at once. -/
def TaskWordsComplete : Prop :=
  ∀ (s : State) (b g : Nat) (k : Block) (x : Group) (d a c v : Nat), AtRest s b g k x →
    let act := s.cur.act
    let aw := addressWords k x v a (lowest act)
    let cw := addressWords k x v c (lowest act)
    let w := lowWord k x (viewOf v) c (lowest act)
    (∀ pa, goodOf aw = true → s.recordAt k (valOf aw) [.wr, .rd] = .ok pa → s.taskState pa = 0 →
      let dep := s.homeLe (pa + 0x2C) 4
      ((Instr.tkdec d a v).wf = true → SlotsIn k x (addressSlots v a ++ [(viewOf v, d)]) → 2 ≤ dep → dep ≤ 2 ^ 31 →
        ∃ t, exec (.tkdec d a v) s = .next t ∧ Answers (s.homeWrite (pa + 0x2C) (toLe 4 (dep - 1))) t b g x act (viewOf v) d dep) ∧
      ((Instr.tkadd d a c v).wf = true → SlotsIn k x (addressSlots v a ++ [(viewOf v, d), (viewOf v, c)]) → rok w = true →
        1 ≤ (dep : Int) + w.val.toInt → (dep : Int) + w.val.toInt ≤ 2 ^ 31 - 1 → ∃ t, exec (.tkadd d a c v) s = .next t ∧
          Answers (s.homeWrite (pa + 0x2C) (toLe 4 ((dep : Int) + w.val.toInt).toNat)) t b g x act (viewOf v) d dep)) ∧
    (∀ pa pb, (Instr.tkmake d a c v).wf = true → SlotsIn k x (addressSlots v a ++ addressSlots v c ++ [(viewOf v, d)]) →
      goodOf aw = true → goodOf cw = true → s.recordAt k (valOf aw) [.wr, .rd] = .ok pa → s.recordAt k (valOf cw) [.rd] = .ok pb →
      s.inMirror k.trec.part pa = false → s.inMirror k.trec.part pb = false → s.taskState pa = 0 →
      let bs := patch (s.homeBytes pb 128) 0x3F [0]
      leAt bs 0x2C 4 ≠ 0 → ∃ t, exec (.tkmake d a c v) s = .next t ∧ Answers (s.homeWrite pa bs) t b g x act (viewOf v) d 0) ∧
    ((Instr.tktake d v).wf = true → SlotsIn k x [(viewOf v, d)] → ∀ q n q', s.grid k.task = some q → q.take (dieOf k.core) = some (n, q') →
      ∃ t, exec (.tktake d v) s = .next t ∧ GaveAll (s.updGrid k.task (fun _ => q')) t b g k x act (viewOf v) d n)

/-- R372 to R376: on a settled core the words of replayed objects complete: `rocall` queues its call, and once the call is placed answers its
position; the others answer at once. -/
def ObjectWordsComplete : Prop :=
  (∀ (s : State) (b g : Nat) (k : Block) (x : Group) (d a c pos : Nat), s.Issues b g k x → (Instr.rocall d a c).wf = true →
    SlotsIn k x [(.w, d), (.w, a), (.w, c)] → x.calling = true → x.roPos = some pos → k.stopping = false →
    ∃ t s0 k0 x0, exec (.rocall d a c) s = .next t ∧ GaveAll s0 t b g k0 x0 s.cur.act .w d pos) ∧
  (∀ (s : State) (b g : Nat) (k : Block) (x : Group) (d a c obj meth : Nat), AtRest s b g k x →
    let p := s.part k.trec.part
    let w := k.src x .w a (lowest s.cur.act)
    ((Instr.rocall d a c).wf = true → SlotsIn k x [(.w, d), (.w, a), (.w, c)] →
      Names s k x a c obj meth → s.callRoom k.trec.part = true → ∃ t k0 x0, exec (.rocall d a c) s = .next t ∧
        t.bg b g = some (k0, x0) ∧ x0.calling = true ∧
        (t.part k.trec.part).unsent = p.unsent ++ [(callEntry s.pkgId k.trec.part obj meth (argOf k x a), some (b, g))]) ∧
    ((Instr.rowait d a).wf = true → SlotsIn k x [(.w, d + 1), (.w, d), (.w, a)] → goodOf w = true → valOf w < 2 ^ 48 → valOf w < p.applied →
      p.trim ≤ valOf w → ∃ t s0 k0 x0, exec (.rowait d a) s = .next t ∧
        GaveTwo s0 t b g k0 x0 s.cur.act d (s.homeLe (s.logSlot k.trec.part (valOf w) + 88) 8) (s.homeLe (s.logSlot k.trec.part (valOf w) + 96) 8)) ∧
    ((Instr.roread d a c).wf = true → SlotsIn k x [(.w, d + 1), (.w, d), (.w, a), (.w, c)] → Names s k x a c obj meth →
      x.roseen.toNat < p.applied → ∃ t s0 k0 x0 u v, exec (.roread d a c) s = .next t ∧ GaveTwo s0 t b g k0 x0 s.cur.act d u v) ∧
    ((Instr.rotrim d a).wf = true → SlotsIn k x [(.w, d), (.w, a)] → goodOf w = true → valOf w < 2 ^ 48 → ∃ t s0, exec (.rotrim d a) s = .next t ∧
      GaveAll s0 t b g k x s.cur.act .w d p.trim))

/-- R259 to R263, R350 and R351: on a settled core a group's words of class C complete at once where their queue or channel has room and
their bits are set. -/
def CopyWordsComplete : Prop :=
  ∀ (s : State) (b g : Nat) (k : Block) (x : Group) (d a c v : Nat), AtRest s b g k x →
    let act := s.cur.act
    let l0 := lowest act
    let w := lowWord k x (viewOf v) a l0
    let pkt := patch (bytes64 k x (viewOf v) c) 4 (toLe 4 (ownerOf k g false))
    SlotsIn k x [(viewOf v, a), (viewOf v, c), (viewOf v, d)] → rok w = true →
    (∀ q, s.namedQueue k.trec.part w.val.toNat = some q →
      let i := s.qWidx q.off
      let s1 := (s.qClaim q.off).2
      ((Instr.cpost a c v).wf = true → Good64 k x (viewOf v) c → s1.qFree q.off i = true →
        ∃ t, exec (.cpost a c v) s = .next t ∧ PassedFrom (s1.qWrite q i pkt) t b g k x) ∧
      ((Instr.cpostTry d a c v).wf = true → Good64 k x (viewOf v) c → s.qFree q.off i = true → ∃ t k' x', exec (.cpostTry d a c v) s = .next t ∧
        (s1.qWrite q i pkt).WordDone t b g k k' x x' ∧ (s1.qWrite q i pkt).WrotePred k k' x x' d act (fun _ => true)) ∧
      (∀ qs, (Instr.cfence a c v).wf = true → s.fenceList ⟨k, x, act, l0, false⟩ (viewOf v) c (upFrom 0 7) = .inl qs → s1.qFree q.off i = true →
        ∃ t s2, exec (.cfence a c v) s = .next t ∧ PassedFrom s2 t b g k x) ∧
      ((Instr.crec d a c v).wf = true → goodOf (k.src x (viewOf v) c l0) = true → regionOf (s.qField q.off 0x18 8) = .sync →
        s.syncOk k.trec.part (s.qField q.off 0x18 8 - syncBase) = true →
        s.syncOwn k.trec.part (s.qField q.off 0x18 8 + 64 * (valOf (k.src x (viewOf v) c l0) % s.qSize q.off)) = true → ∃ t k' x', exec (.crec d a c v) s = .next t ∧ s.WordDone t b g k k' x x') ∧
      ((Instr.cabort d a v).wf = true → w.val.toNat ≠ 0xFFFFFFFF → ∃ t, exec (.cabort d a v) s = .next t ∧
        GaveAll (s.abandonIn k q).1 t b g k x act (viewOf v) d (s.abandonIn k q).2.length)) ∧
    (s.syncOk k.trec.part w.val.toNat = true → Good64 k x (viewOf v) c →
      (∀ j < 512, bitOf (leAt (bytes64 k x (viewOf v) c) 0 64) j = true → bitOf (s.homeLe (syncBase + w.val.toNat) 64) j = true) →
      ((Instr.cwait a c v).wf = true → ∃ t, exec (.cwait a c v) s = .next t ∧ PassedFrom (s.refresh k.core) t b g k x) ∧
      ((Instr.ctest d a c v).wf = true → ∃ t k' x', exec (.ctest d a c v) s = .next t ∧ (s.refresh k.core).WordDone t b g k k' x x' ∧
        (s.refresh k.core).WrotePred k k' x x' d act (fun _ => true))) ∧
    ((Instr.ccoll a v).wf = true → Good64 k x (viewOf v) a →
      let p := bytes64 k x (viewOf v) a
      let n := leAt p 8 1
      n ≤ 63 → (s.chan n).part.toNat = k.trec.part → (s.chan n).posts.length < 16 → ∃ t, exec (.ccoll a v) s = .next t ∧
        PassedFrom (s.setChan n { s.chan n with posts := (s.chan n).posts ++ [Coll.new p] }) t b g k x) ∧
    ((Instr.cgen d a v).wf = true → ∀ tbl, s.ranksOf k.trec.part (w.val.toNat % 65536) = some tbl → ∃ t, exec (.cgen d a v) s = .next t ∧
      GaveAll s t b g k x act (viewOf v) d ((liveRanks tbl).length * 2 ^ 32 + rankIn tbl s.pkgId * 2 ^ 16 + (s.part k.trec.part).gen.toNat))

end Sys2Proof.Claims

open Sys2Proof Sys2Proof.Machine Sys2Proof.Claims in
/-- R33, R196, R250, R251, R259 to R263, R350, R351 and R372 to R376: no instruction of an agent that stands ever stops the machine: whatever
the state and the operands, a word answers a next state, and so does every event. On a settled core the task words, the words of replayed objects and a group's words of class C
complete with their own effect.
Where the spec leaves a point open, the clauses rest on the model's reading, log entries 9, 26, 49 and 73. -/
def Obligations.StandingAgentsGoOn : Prop :=
  (∀ (i : Instr) (s : State), AgentFits s i → ∃ t, exec i s = .next t) ∧ (∀ (i : Instr) (s : State), isEvent i = true → ∃ t, exec i s = .next t) ∧
  TaskWordsComplete ∧ ObjectWordsComplete ∧ CopyWordsComplete
end

