-- ==== Sys2Proof/Laws/Sparse.lean ====
section
/-! SUPPORT. Tables by number: reading after writing, and the canonical form (used by every law about registers, lanes and
memory). -/
namespace Sys2Proof.Machine

variable {α : Type}

@[simp] theorem tget_nil (d : α) (n : Nat) : tget d [] n = d := rfl

theorem tget_cons (d : α) (p : Nat × α) (t : Sparse α) (n : Nat) :
    tget d (p :: t) n = if p.1 = n then p.2 else tget d t n := rfl

/-- A table none of whose keys is `n` reads as the default there. -/
theorem tget_none (d : α) (t : Sparse α) (n : Nat) (h : ∀ p ∈ t, p.1 ≠ n) : tget d t n = d := by
  induction t with
  | nil => rfl
  | cons p t ih =>
    rw [tget_cons, if_neg (h p (by simp))]
    exact ih fun q hq => h q (by simp [hq])

/-- Reading in a joined table: the first part where it has the key, else the second. -/
theorem tget_append_none (d : α) (t u : Sparse α) (n : Nat) (h : ∀ p ∈ t, p.1 ≠ n) : tget d (t ++ u) n = tget d u n := by
  induction t with
  | nil => rfl
  | cons p t ih =>
    rw [List.cons_append, tget_cons, if_neg (h p (by simp))]
    exact ih fun q hq => h q (by simp [hq])

theorem tget_append_right (d : α) (t u : Sparse α) (n : Nat) (h : ∀ p ∈ u, p.1 ≠ n) : tget d (t ++ u) n = tget d t n := by
  induction t with
  | nil => exact tget_none d u n h
  | cons p t ih => rw [List.cons_append, tget_cons, tget_cons, ih]

/-- Dropping other keys does not change what a kept key reads as. -/
theorem tget_filter (d : α) (q : Nat → Bool) (t : Sparse α) (n : Nat) (h : q n = true) :
    tget d (t.filter (fun p => q p.1)) n = tget d t n := by
  induction t with
  | nil => rfl
  | cons p t ih =>
    by_cases hp : q p.1 = true
    · rw [List.filter_cons_of_pos (by simpa using hp), tget_cons, tget_cons, ih]
    · rw [List.filter_cons_of_neg (by simpa using hp), ih, tget_cons, if_neg]
      rintro rfl
      exact hp h

theorem tgets_length (d : α) (t : Sparse α) (a n : Nat) : (tgets d t a n).length = n := by
  induction n generalizing a with
  | zero => rfl
  | succ n ih => simp [tgets, ih]

variable [DecidableEq α]

theorem tents_keys (d : α) (a : Nat) (vs : List α) : ∀ p ∈ tents d a vs, a ≤ p.1 ∧ p.1 < a + vs.length := by
  induction vs generalizing a with
  | nil => simp [tents]
  | cons v vs ih =>
    intro p hp
    rw [tents] at hp
    split at hp
    · have := ih (a + 1) p hp
      simp only [List.length_cons]; omega
    · rcases List.mem_cons.1 hp with rfl | hp
      · simp
      · have := ih (a + 1) p hp
        simp only [List.length_cons]; omega

theorem tget_tents (d : α) (a : Nat) (vs : List α) (n : Nat) (h1 : a ≤ n) (h2 : n < a + vs.length) :
    tget d (tents d a vs) n = nth d vs (n - a) := by
  induction vs generalizing a with
  | nil => simp at h2; omega
  | cons v vs ih =>
    simp only [List.length_cons] at h2
    rw [tents]
    by_cases hn : n = a
    · subst hn
      split
      · rename_i hv
        rw [tget_none, Nat.sub_self]
        · simp [nth, hv]
        · intro p hp he
          have := tents_keys d (n + 1) vs p hp
          omega
      · simp [tget_cons, nth]
    · have e : n - a = n - (a + 1) + 1 := by omega
      rw [e]
      split
      · rw [ih (a + 1) (by omega) (by omega)]; rfl
      · rw [tget_cons, if_neg (by simpa using Ne.symm hn), ih (a + 1) (by omega) (by omega)]; rfl

/-- What a table reads as after a write of several values. -/
theorem tget_tsets (d : α) (t : Sparse α) (a : Nat) (vs : List α) (n : Nat) :
    tget d (tsets d t a vs) n = if a ≤ n ∧ n < a + vs.length then nth d vs (n - a) else tget d t n := by
  unfold tsets
  split
  · rename_i h
    rw [List.append_assoc, tget_append_none, tget_append_right, tget_tents d a vs n h.1 h.2]
    · intro p hp he
      have := (List.mem_filter.1 hp).2
      simp at this; omega
    · intro p hp he
      have := (List.mem_filter.1 hp).2
      simp at this; omega
  · rename_i h
    by_cases ha : n < a
    · rw [List.append_assoc, tget_append_right, tget_filter d (fun k => decide (k < a)) t n (by simpa using ha)]
      intro p hp he
      rcases List.mem_append.1 hp with hp | hp
      · have := tents_keys d a vs p hp; omega
      · have := (List.mem_filter.1 hp).2
        simp at this; omega
    · rw [tget_append_none, tget_filter d (fun k => decide (a + vs.length ≤ k)) t n (by simp; omega)]
      intro p hp he
      rcases List.mem_append.1 hp with hp | hp
      · have := (List.mem_filter.1 hp).2
        simp at this; omega
      · have := tents_keys d a vs p hp; omega

theorem tget_tset (d : α) (t : Sparse α) (a : Nat) (v : α) (n : Nat) :
    tget d (tset d t a v) n = if n = a then v else tget d t n := by
  unfold tset
  rw [tget_tsets]
  by_cases h : n = a
  · subst h; simp [nth]
  · rw [if_neg (by simp; omega), if_neg h]

@[simp] theorem tget_tset_same (d : α) (t : Sparse α) (a : Nat) (v : α) : tget d (tset d t a v) a = v := by
  simp [tget_tset]

theorem tget_tset_ne (d : α) (t : Sparse α) (a : Nat) (v : α) (n : Nat) (h : n ≠ a) :
    tget d (tset d t a v) n = tget d t n := by
  simp [tget_tset, h]

/-- Reading back what was written. -/
theorem tgets_tsets_same (d : α) (t : Sparse α) (a : Nat) (vs : List α) : tgets d (tsets d t a vs) a vs.length = vs := by
  suffices h : ∀ (ws us : List α) (k : Nat), vs = us ++ ws → k = a + us.length → tgets d (tsets d t a vs) k ws.length = ws from
    h vs [] a rfl rfl
  intro ws
  induction ws with
  | nil => intros; rfl
  | cons w ws ih =>
    intro us k hv hk
    have hl : vs.length = us.length + (ws.length + 1) := by simp [hv]
    have hn : nth d vs us.length = w := by
      rw [hv]; clear ih hv hk hl
      induction us with
      | nil => rfl
      | cons u us ihu => simpa [nth] using ihu
    rw [List.length_cons, tgets, tget_tsets, if_pos (by omega), hk, Nat.add_sub_cancel_left, hn,
      ih (us ++ [w]) (a + us.length + 1) (by simp [hv]) (by simp; omega)]

/-- A write elsewhere does not change what is read. -/
theorem tgets_tsets_disjoint (d : α) (t : Sparse α) (a : Nat) (vs : List α) (k n : Nat) (h : k + n ≤ a ∨ a + vs.length ≤ k) :
    tgets d (tsets d t a vs) k n = tgets d t k n := by
  induction n generalizing k with
  | zero => rfl
  | succ n ih => rw [tgets, tgets, tget_tsets, if_neg (by omega), ih (k + 1) (by omega)]

/-- The canonical form said by pairs. -/
theorem canonical_iff (d : α) (t : Sparse α) :
    canonical d t = true ↔ t.Pairwise (fun p q => p.1 < q.1) ∧ ∀ p ∈ t, p.2 ≠ d := by
  induction t with
  | nil => simp [canonical]
  | cons p t ih =>
    cases t with
    | nil => cases p; simp [canonical]
    | cons q t =>
      obtain ⟨k, v⟩ := p
      obtain ⟨k', v'⟩ := q
      have e : canonical d ((k, v) :: (k', v') :: t) = (decide (k < k') && decide (v ≠ d) && canonical d ((k', v') :: t)) := rfl
      rw [e, Bool.and_eq_true, Bool.and_eq_true, decide_eq_true_iff, decide_eq_true_iff, ih]
      constructor
      · rintro ⟨⟨h1, h2⟩, h3, h4⟩
        refine ⟨List.pairwise_cons.2 ⟨fun r hr => ?_, h3⟩, fun r hr => ?_⟩
        · rcases List.mem_cons.1 hr with rfl | hr
          · exact h1
          · have := (List.pairwise_cons.1 h3).1 r hr
            simp only at this ⊢; omega
        · rcases List.mem_cons.1 hr with rfl | hr
          · exact h2
          · exact h4 r hr
      · rintro ⟨h1, h2⟩
        have h1' := List.pairwise_cons.1 h1
        exact ⟨⟨h1'.1 (k', v') (by simp), h2 (k, v) (by simp)⟩, h1'.2, fun r hr => h2 r (by simp [hr])⟩

theorem tents_pairwise (d : α) (a : Nat) (vs : List α) : (tents d a vs).Pairwise (fun p q => p.1 < q.1) := by
  induction vs generalizing a with
  | nil => simp [tents]
  | cons v vs ih =>
    rw [tents]
    split
    · exact ih (a + 1)
    · refine List.pairwise_cons.2 ⟨fun p hp => ?_, ih (a + 1)⟩
      have := tents_keys d (a + 1) vs p hp
      simp only; omega

theorem tents_ne (d : α) (a : Nat) (vs : List α) : ∀ p ∈ tents d a vs, p.2 ≠ d := by
  induction vs generalizing a with
  | nil => simp [tents]
  | cons v vs ih =>
    intro p hp
    rw [tents] at hp
    split at hp
    · exact ih (a + 1) p hp
    · rename_i hv
      rcases List.mem_cons.1 hp with rfl | hp
      · exact hv
      · exact ih (a + 1) p hp

/-- A write keeps the canonical form. -/
theorem canonical_tsets (d : α) (t : Sparse α) (a : Nat) (vs : List α) (h : canonical d t = true) :
    canonical d (tsets d t a vs) = true := by
  rw [canonical_iff] at h ⊢
  obtain ⟨hp, hv⟩ := h
  unfold tsets
  refine ⟨?_, fun p hp' => ?_⟩
  · refine List.pairwise_append.2 ⟨List.pairwise_append.2 ⟨hp.filter _, tents_pairwise d a vs, fun p h1 q h2 => ?_⟩, hp.filter _,
      fun p h1 q h2 => ?_⟩
    · have e := (List.mem_filter.1 h1).2
      have := tents_keys d a vs q h2
      simp at e; omega
    · have e2 := (List.mem_filter.1 h2).2
      simp at e2
      rcases List.mem_append.1 h1 with h1 | h1
      · have e := (List.mem_filter.1 h1).2
        simp at e; omega
      · have := tents_keys d a vs p h1; omega
  · rcases List.mem_append.1 hp' with h1 | h1
    · rcases List.mem_append.1 h1 with h1 | h1
      · exact hv p ((List.mem_filter.1 h1).1)
      · exact tents_ne d a vs p h1
    · exact hv p ((List.mem_filter.1 h1).1)

theorem canonical_tset (d : α) (t : Sparse α) (a : Nat) (v : α) (h : canonical d t = true) : canonical d (tset d t a v) = true :=
  canonical_tsets d t a [v] h

end Sys2Proof.Machine
end

