-- ==== Sys2Proof/Laws/State.lean ====
section
/-! SUPPORT. The updates of the state, field by field, and reading back what an update replaced: cores, dies, partitions, blocks,
groups, lanes (used by every law about a word). -/
namespace Sys2Proof.Machine

section
variable (s : State) (c : Nat) (k : Core)
@[simp] theorem State.setCore_mem : (s.setCore c k).mem = s.mem := rfl
@[simp] theorem State.setCore_poison : (s.setCore c k).poison = s.poison := rfl
@[simp] theorem State.setCore_vbad : (s.setCore c k).vbad = s.vbad := rfl
@[simp] theorem State.setCore_hostMem : (s.setCore c k).hostMem = s.hostMem := rfl
@[simp] theorem State.setCore_hostBad : (s.setCore c k).hostBad = s.hostBad := rfl
@[simp] theorem State.setCore_hostSaw : (s.setCore c k).hostSaw = s.hostSaw := rfl
@[simp] theorem State.setCore_blocks : (s.setCore c k).blocks = s.blocks := rfl
@[simp] theorem State.setCore_saved : (s.setCore c k).saved = s.saved := rfl
@[simp] theorem State.setCore_grids : (s.setCore c k).grids = s.grids := rfl
@[simp] theorem State.setCore_blkNext : (s.setCore c k).blkNext = s.blkNext := rfl
@[simp] theorem State.setCore_orderNext : (s.setCore c k).orderNext = s.orderNext := rfl
@[simp] theorem State.setCore_dies : (s.setCore c k).dies = s.dies := rfl
@[simp] theorem State.setCore_parts : (s.setCore c k).parts = s.parts := rfl
@[simp] theorem State.setCore_vfs : (s.setCore c k).vfs = s.vfs := rfl
@[simp] theorem State.setCore_mcs : (s.setCore c k).mcs = s.mcs := rfl
@[simp] theorem State.setCore_queues : (s.setCore c k).queues = s.queues := rfl
@[simp] theorem State.setCore_hbms : (s.setCore c k).hbms = s.hbms := rfl
@[simp] theorem State.setCore_ports : (s.setCore c k).ports = s.ports := rfl
@[simp] theorem State.setCore_xd : (s.setCore c k).xd = s.xd := rfl
@[simp] theorem State.setCore_fab : (s.setCore c k).fab = s.fab := rfl
@[simp] theorem State.setCore_leases : (s.setCore c k).leases = s.leases := rfl
@[simp] theorem State.setCore_nx : (s.setCore c k).nx = s.nx := rfl
@[simp] theorem State.setCore_cycle : (s.setCore c k).cycle = s.cycle := rfl
@[simp] theorem State.setCore_agenda : (s.setCore c k).agenda = s.agenda := rfl
@[simp] theorem State.setCore_focus : (s.setCore c k).focus = s.focus := rfl
@[simp] theorem State.setCore_rank : (s.setCore c k).rank = s.rank := rfl
@[simp] theorem State.setCore_cur : (s.setCore c k).cur = s.cur := rfl
@[simp] theorem State.setCore_freeCtr : (s.setCore c k).freeCtr = s.freeCtr := rfl
@[simp] theorem State.setCore_stalled : (s.setCore c k).stalled = s.stalled := rfl
@[simp] theorem State.setCore_parked : (s.setCore c k).parked = s.parked := rfl
end

section
variable (s : State) (d : Nat) (k : Die)
@[simp] theorem State.setDie_mem : (s.setDie d k).mem = s.mem := rfl
@[simp] theorem State.setDie_poison : (s.setDie d k).poison = s.poison := rfl
@[simp] theorem State.setDie_vbad : (s.setDie d k).vbad = s.vbad := rfl
@[simp] theorem State.setDie_hostMem : (s.setDie d k).hostMem = s.hostMem := rfl
@[simp] theorem State.setDie_hostBad : (s.setDie d k).hostBad = s.hostBad := rfl
@[simp] theorem State.setDie_hostSaw : (s.setDie d k).hostSaw = s.hostSaw := rfl
@[simp] theorem State.setDie_blocks : (s.setDie d k).blocks = s.blocks := rfl
@[simp] theorem State.setDie_saved : (s.setDie d k).saved = s.saved := rfl
@[simp] theorem State.setDie_grids : (s.setDie d k).grids = s.grids := rfl
@[simp] theorem State.setDie_blkNext : (s.setDie d k).blkNext = s.blkNext := rfl
@[simp] theorem State.setDie_orderNext : (s.setDie d k).orderNext = s.orderNext := rfl
@[simp] theorem State.setDie_cores : (s.setDie d k).cores = s.cores := rfl
@[simp] theorem State.setDie_parts : (s.setDie d k).parts = s.parts := rfl
@[simp] theorem State.setDie_vfs : (s.setDie d k).vfs = s.vfs := rfl
@[simp] theorem State.setDie_mcs : (s.setDie d k).mcs = s.mcs := rfl
@[simp] theorem State.setDie_queues : (s.setDie d k).queues = s.queues := rfl
@[simp] theorem State.setDie_hbms : (s.setDie d k).hbms = s.hbms := rfl
@[simp] theorem State.setDie_ports : (s.setDie d k).ports = s.ports := rfl
@[simp] theorem State.setDie_xd : (s.setDie d k).xd = s.xd := rfl
@[simp] theorem State.setDie_fab : (s.setDie d k).fab = s.fab := rfl
@[simp] theorem State.setDie_leases : (s.setDie d k).leases = s.leases := rfl
@[simp] theorem State.setDie_nx : (s.setDie d k).nx = s.nx := rfl
@[simp] theorem State.setDie_cycle : (s.setDie d k).cycle = s.cycle := rfl
@[simp] theorem State.setDie_agenda : (s.setDie d k).agenda = s.agenda := rfl
@[simp] theorem State.setDie_focus : (s.setDie d k).focus = s.focus := rfl
@[simp] theorem State.setDie_rank : (s.setDie d k).rank = s.rank := rfl
@[simp] theorem State.setDie_cur : (s.setDie d k).cur = s.cur := rfl
@[simp] theorem State.setDie_freeCtr : (s.setDie d k).freeCtr = s.freeCtr := rfl
@[simp] theorem State.setDie_stalled : (s.setDie d k).stalled = s.stalled := rfl
@[simp] theorem State.setDie_parked : (s.setDie d k).parked = s.parked := rfl
end

section
variable (s : State) (p : Nat) (k : Part)
@[simp] theorem State.setPart_mem : (s.setPart p k).mem = s.mem := rfl
@[simp] theorem State.setPart_poison : (s.setPart p k).poison = s.poison := rfl
@[simp] theorem State.setPart_vbad : (s.setPart p k).vbad = s.vbad := rfl
@[simp] theorem State.setPart_hostMem : (s.setPart p k).hostMem = s.hostMem := rfl
@[simp] theorem State.setPart_hostBad : (s.setPart p k).hostBad = s.hostBad := rfl
@[simp] theorem State.setPart_hostSaw : (s.setPart p k).hostSaw = s.hostSaw := rfl
@[simp] theorem State.setPart_blocks : (s.setPart p k).blocks = s.blocks := rfl
@[simp] theorem State.setPart_saved : (s.setPart p k).saved = s.saved := rfl
@[simp] theorem State.setPart_grids : (s.setPart p k).grids = s.grids := rfl
@[simp] theorem State.setPart_blkNext : (s.setPart p k).blkNext = s.blkNext := rfl
@[simp] theorem State.setPart_orderNext : (s.setPart p k).orderNext = s.orderNext := rfl
@[simp] theorem State.setPart_cores : (s.setPart p k).cores = s.cores := rfl
@[simp] theorem State.setPart_dies : (s.setPart p k).dies = s.dies := rfl
@[simp] theorem State.setPart_vfs : (s.setPart p k).vfs = s.vfs := rfl
@[simp] theorem State.setPart_mcs : (s.setPart p k).mcs = s.mcs := rfl
@[simp] theorem State.setPart_queues : (s.setPart p k).queues = s.queues := rfl
@[simp] theorem State.setPart_hbms : (s.setPart p k).hbms = s.hbms := rfl
@[simp] theorem State.setPart_ports : (s.setPart p k).ports = s.ports := rfl
@[simp] theorem State.setPart_xd : (s.setPart p k).xd = s.xd := rfl
@[simp] theorem State.setPart_fab : (s.setPart p k).fab = s.fab := rfl
@[simp] theorem State.setPart_leases : (s.setPart p k).leases = s.leases := rfl
@[simp] theorem State.setPart_nx : (s.setPart p k).nx = s.nx := rfl
@[simp] theorem State.setPart_cycle : (s.setPart p k).cycle = s.cycle := rfl
@[simp] theorem State.setPart_agenda : (s.setPart p k).agenda = s.agenda := rfl
@[simp] theorem State.setPart_focus : (s.setPart p k).focus = s.focus := rfl
@[simp] theorem State.setPart_rank : (s.setPart p k).rank = s.rank := rfl
@[simp] theorem State.setPart_cur : (s.setPart p k).cur = s.cur := rfl
@[simp] theorem State.setPart_freeCtr : (s.setPart p k).freeCtr = s.freeCtr := rfl
@[simp] theorem State.setPart_stalled : (s.setPart p k).stalled = s.stalled := rfl
@[simp] theorem State.setPart_parked : (s.setPart p k).parked = s.parked := rfl
end

section
variable (s : State) (v : Nat) (k : Vf)
@[simp] theorem State.setVf_mem : (s.setVf v k).mem = s.mem := rfl
@[simp] theorem State.setVf_poison : (s.setVf v k).poison = s.poison := rfl
@[simp] theorem State.setVf_vbad : (s.setVf v k).vbad = s.vbad := rfl
@[simp] theorem State.setVf_hostMem : (s.setVf v k).hostMem = s.hostMem := rfl
@[simp] theorem State.setVf_hostBad : (s.setVf v k).hostBad = s.hostBad := rfl
@[simp] theorem State.setVf_hostSaw : (s.setVf v k).hostSaw = s.hostSaw := rfl
@[simp] theorem State.setVf_blocks : (s.setVf v k).blocks = s.blocks := rfl
@[simp] theorem State.setVf_saved : (s.setVf v k).saved = s.saved := rfl
@[simp] theorem State.setVf_grids : (s.setVf v k).grids = s.grids := rfl
@[simp] theorem State.setVf_blkNext : (s.setVf v k).blkNext = s.blkNext := rfl
@[simp] theorem State.setVf_orderNext : (s.setVf v k).orderNext = s.orderNext := rfl
@[simp] theorem State.setVf_cores : (s.setVf v k).cores = s.cores := rfl
@[simp] theorem State.setVf_dies : (s.setVf v k).dies = s.dies := rfl
@[simp] theorem State.setVf_parts : (s.setVf v k).parts = s.parts := rfl
@[simp] theorem State.setVf_mcs : (s.setVf v k).mcs = s.mcs := rfl
@[simp] theorem State.setVf_queues : (s.setVf v k).queues = s.queues := rfl
@[simp] theorem State.setVf_hbms : (s.setVf v k).hbms = s.hbms := rfl
@[simp] theorem State.setVf_ports : (s.setVf v k).ports = s.ports := rfl
@[simp] theorem State.setVf_xd : (s.setVf v k).xd = s.xd := rfl
@[simp] theorem State.setVf_fab : (s.setVf v k).fab = s.fab := rfl
@[simp] theorem State.setVf_leases : (s.setVf v k).leases = s.leases := rfl
@[simp] theorem State.setVf_nx : (s.setVf v k).nx = s.nx := rfl
@[simp] theorem State.setVf_cycle : (s.setVf v k).cycle = s.cycle := rfl
@[simp] theorem State.setVf_agenda : (s.setVf v k).agenda = s.agenda := rfl
@[simp] theorem State.setVf_focus : (s.setVf v k).focus = s.focus := rfl
@[simp] theorem State.setVf_rank : (s.setVf v k).rank = s.rank := rfl
@[simp] theorem State.setVf_cur : (s.setVf v k).cur = s.cur := rfl
@[simp] theorem State.setVf_freeCtr : (s.setVf v k).freeCtr = s.freeCtr := rfl
@[simp] theorem State.setVf_stalled : (s.setVf v k).stalled = s.stalled := rfl
@[simp] theorem State.setVf_parked : (s.setVf v k).parked = s.parked := rfl
end

section
variable (s : State) (m : Nat) (k : Mc)
@[simp] theorem State.setMc_mem : (s.setMc m k).mem = s.mem := rfl
@[simp] theorem State.setMc_poison : (s.setMc m k).poison = s.poison := rfl
@[simp] theorem State.setMc_vbad : (s.setMc m k).vbad = s.vbad := rfl
@[simp] theorem State.setMc_hostMem : (s.setMc m k).hostMem = s.hostMem := rfl
@[simp] theorem State.setMc_hostBad : (s.setMc m k).hostBad = s.hostBad := rfl
@[simp] theorem State.setMc_hostSaw : (s.setMc m k).hostSaw = s.hostSaw := rfl
@[simp] theorem State.setMc_blocks : (s.setMc m k).blocks = s.blocks := rfl
@[simp] theorem State.setMc_saved : (s.setMc m k).saved = s.saved := rfl
@[simp] theorem State.setMc_grids : (s.setMc m k).grids = s.grids := rfl
@[simp] theorem State.setMc_blkNext : (s.setMc m k).blkNext = s.blkNext := rfl
@[simp] theorem State.setMc_orderNext : (s.setMc m k).orderNext = s.orderNext := rfl
@[simp] theorem State.setMc_cores : (s.setMc m k).cores = s.cores := rfl
@[simp] theorem State.setMc_dies : (s.setMc m k).dies = s.dies := rfl
@[simp] theorem State.setMc_parts : (s.setMc m k).parts = s.parts := rfl
@[simp] theorem State.setMc_vfs : (s.setMc m k).vfs = s.vfs := rfl
@[simp] theorem State.setMc_queues : (s.setMc m k).queues = s.queues := rfl
@[simp] theorem State.setMc_hbms : (s.setMc m k).hbms = s.hbms := rfl
@[simp] theorem State.setMc_ports : (s.setMc m k).ports = s.ports := rfl
@[simp] theorem State.setMc_xd : (s.setMc m k).xd = s.xd := rfl
@[simp] theorem State.setMc_fab : (s.setMc m k).fab = s.fab := rfl
@[simp] theorem State.setMc_leases : (s.setMc m k).leases = s.leases := rfl
@[simp] theorem State.setMc_nx : (s.setMc m k).nx = s.nx := rfl
@[simp] theorem State.setMc_cycle : (s.setMc m k).cycle = s.cycle := rfl
@[simp] theorem State.setMc_agenda : (s.setMc m k).agenda = s.agenda := rfl
@[simp] theorem State.setMc_focus : (s.setMc m k).focus = s.focus := rfl
@[simp] theorem State.setMc_rank : (s.setMc m k).rank = s.rank := rfl
@[simp] theorem State.setMc_cur : (s.setMc m k).cur = s.cur := rfl
@[simp] theorem State.setMc_freeCtr : (s.setMc m k).freeCtr = s.freeCtr := rfl
@[simp] theorem State.setMc_stalled : (s.setMc m k).stalled = s.stalled := rfl
@[simp] theorem State.setMc_parked : (s.setMc m k).parked = s.parked := rfl
end

section
variable (s : State) (n : Nat) (k : Stack)
@[simp] theorem State.setHbm_mem : (s.setHbm n k).mem = s.mem := rfl
@[simp] theorem State.setHbm_poison : (s.setHbm n k).poison = s.poison := rfl
@[simp] theorem State.setHbm_vbad : (s.setHbm n k).vbad = s.vbad := rfl
@[simp] theorem State.setHbm_hostMem : (s.setHbm n k).hostMem = s.hostMem := rfl
@[simp] theorem State.setHbm_hostBad : (s.setHbm n k).hostBad = s.hostBad := rfl
@[simp] theorem State.setHbm_hostSaw : (s.setHbm n k).hostSaw = s.hostSaw := rfl
@[simp] theorem State.setHbm_blocks : (s.setHbm n k).blocks = s.blocks := rfl
@[simp] theorem State.setHbm_saved : (s.setHbm n k).saved = s.saved := rfl
@[simp] theorem State.setHbm_grids : (s.setHbm n k).grids = s.grids := rfl
@[simp] theorem State.setHbm_blkNext : (s.setHbm n k).blkNext = s.blkNext := rfl
@[simp] theorem State.setHbm_orderNext : (s.setHbm n k).orderNext = s.orderNext := rfl
@[simp] theorem State.setHbm_cores : (s.setHbm n k).cores = s.cores := rfl
@[simp] theorem State.setHbm_dies : (s.setHbm n k).dies = s.dies := rfl
@[simp] theorem State.setHbm_parts : (s.setHbm n k).parts = s.parts := rfl
@[simp] theorem State.setHbm_vfs : (s.setHbm n k).vfs = s.vfs := rfl
@[simp] theorem State.setHbm_mcs : (s.setHbm n k).mcs = s.mcs := rfl
@[simp] theorem State.setHbm_queues : (s.setHbm n k).queues = s.queues := rfl
@[simp] theorem State.setHbm_ports : (s.setHbm n k).ports = s.ports := rfl
@[simp] theorem State.setHbm_xd : (s.setHbm n k).xd = s.xd := rfl
@[simp] theorem State.setHbm_fab : (s.setHbm n k).fab = s.fab := rfl
@[simp] theorem State.setHbm_leases : (s.setHbm n k).leases = s.leases := rfl
@[simp] theorem State.setHbm_nx : (s.setHbm n k).nx = s.nx := rfl
@[simp] theorem State.setHbm_cycle : (s.setHbm n k).cycle = s.cycle := rfl
@[simp] theorem State.setHbm_agenda : (s.setHbm n k).agenda = s.agenda := rfl
@[simp] theorem State.setHbm_focus : (s.setHbm n k).focus = s.focus := rfl
@[simp] theorem State.setHbm_rank : (s.setHbm n k).rank = s.rank := rfl
@[simp] theorem State.setHbm_cur : (s.setHbm n k).cur = s.cur := rfl
@[simp] theorem State.setHbm_freeCtr : (s.setHbm n k).freeCtr = s.freeCtr := rfl
@[simp] theorem State.setHbm_stalled : (s.setHbm n k).stalled = s.stalled := rfl
@[simp] theorem State.setHbm_parked : (s.setHbm n k).parked = s.parked := rfl
end

section
variable (s : State) (p : Nat) (k : Port)
@[simp] theorem State.setPort_mem : (s.setPort p k).mem = s.mem := rfl
@[simp] theorem State.setPort_poison : (s.setPort p k).poison = s.poison := rfl
@[simp] theorem State.setPort_vbad : (s.setPort p k).vbad = s.vbad := rfl
@[simp] theorem State.setPort_hostMem : (s.setPort p k).hostMem = s.hostMem := rfl
@[simp] theorem State.setPort_hostBad : (s.setPort p k).hostBad = s.hostBad := rfl
@[simp] theorem State.setPort_hostSaw : (s.setPort p k).hostSaw = s.hostSaw := rfl
@[simp] theorem State.setPort_blocks : (s.setPort p k).blocks = s.blocks := rfl
@[simp] theorem State.setPort_saved : (s.setPort p k).saved = s.saved := rfl
@[simp] theorem State.setPort_grids : (s.setPort p k).grids = s.grids := rfl
@[simp] theorem State.setPort_blkNext : (s.setPort p k).blkNext = s.blkNext := rfl
@[simp] theorem State.setPort_orderNext : (s.setPort p k).orderNext = s.orderNext := rfl
@[simp] theorem State.setPort_cores : (s.setPort p k).cores = s.cores := rfl
@[simp] theorem State.setPort_dies : (s.setPort p k).dies = s.dies := rfl
@[simp] theorem State.setPort_parts : (s.setPort p k).parts = s.parts := rfl
@[simp] theorem State.setPort_vfs : (s.setPort p k).vfs = s.vfs := rfl
@[simp] theorem State.setPort_mcs : (s.setPort p k).mcs = s.mcs := rfl
@[simp] theorem State.setPort_queues : (s.setPort p k).queues = s.queues := rfl
@[simp] theorem State.setPort_hbms : (s.setPort p k).hbms = s.hbms := rfl
@[simp] theorem State.setPort_xd : (s.setPort p k).xd = s.xd := rfl
@[simp] theorem State.setPort_fab : (s.setPort p k).fab = s.fab := rfl
@[simp] theorem State.setPort_leases : (s.setPort p k).leases = s.leases := rfl
@[simp] theorem State.setPort_nx : (s.setPort p k).nx = s.nx := rfl
@[simp] theorem State.setPort_cycle : (s.setPort p k).cycle = s.cycle := rfl
@[simp] theorem State.setPort_agenda : (s.setPort p k).agenda = s.agenda := rfl
@[simp] theorem State.setPort_focus : (s.setPort p k).focus = s.focus := rfl
@[simp] theorem State.setPort_rank : (s.setPort p k).rank = s.rank := rfl
@[simp] theorem State.setPort_cur : (s.setPort p k).cur = s.cur := rfl
@[simp] theorem State.setPort_freeCtr : (s.setPort p k).freeCtr = s.freeCtr := rfl
@[simp] theorem State.setPort_stalled : (s.setPort p k).stalled = s.stalled := rfl
@[simp] theorem State.setPort_parked : (s.setPort p k).parked = s.parked := rfl
end

section
variable (s : State) (c : Nat) (k : Chan)
@[simp] theorem State.setChan_mem : (s.setChan c k).mem = s.mem := rfl
@[simp] theorem State.setChan_poison : (s.setChan c k).poison = s.poison := rfl
@[simp] theorem State.setChan_vbad : (s.setChan c k).vbad = s.vbad := rfl
@[simp] theorem State.setChan_hostMem : (s.setChan c k).hostMem = s.hostMem := rfl
@[simp] theorem State.setChan_hostBad : (s.setChan c k).hostBad = s.hostBad := rfl
@[simp] theorem State.setChan_hostSaw : (s.setChan c k).hostSaw = s.hostSaw := rfl
@[simp] theorem State.setChan_blocks : (s.setChan c k).blocks = s.blocks := rfl
@[simp] theorem State.setChan_saved : (s.setChan c k).saved = s.saved := rfl
@[simp] theorem State.setChan_grids : (s.setChan c k).grids = s.grids := rfl
@[simp] theorem State.setChan_blkNext : (s.setChan c k).blkNext = s.blkNext := rfl
@[simp] theorem State.setChan_orderNext : (s.setChan c k).orderNext = s.orderNext := rfl
@[simp] theorem State.setChan_cores : (s.setChan c k).cores = s.cores := rfl
@[simp] theorem State.setChan_dies : (s.setChan c k).dies = s.dies := rfl
@[simp] theorem State.setChan_parts : (s.setChan c k).parts = s.parts := rfl
@[simp] theorem State.setChan_vfs : (s.setChan c k).vfs = s.vfs := rfl
@[simp] theorem State.setChan_mcs : (s.setChan c k).mcs = s.mcs := rfl
@[simp] theorem State.setChan_queues : (s.setChan c k).queues = s.queues := rfl
@[simp] theorem State.setChan_hbms : (s.setChan c k).hbms = s.hbms := rfl
@[simp] theorem State.setChan_ports : (s.setChan c k).ports = s.ports := rfl
@[simp] theorem State.setChan_xd : (s.setChan c k).xd = s.xd := rfl
@[simp] theorem State.setChan_leases : (s.setChan c k).leases = s.leases := rfl
@[simp] theorem State.setChan_nx : (s.setChan c k).nx = s.nx := rfl
@[simp] theorem State.setChan_cycle : (s.setChan c k).cycle = s.cycle := rfl
@[simp] theorem State.setChan_agenda : (s.setChan c k).agenda = s.agenda := rfl
@[simp] theorem State.setChan_focus : (s.setChan c k).focus = s.focus := rfl
@[simp] theorem State.setChan_rank : (s.setChan c k).rank = s.rank := rfl
@[simp] theorem State.setChan_cur : (s.setChan c k).cur = s.cur := rfl
@[simp] theorem State.setChan_freeCtr : (s.setChan c k).freeCtr = s.freeCtr := rfl
@[simp] theorem State.setChan_stalled : (s.setChan c k).stalled = s.stalled := rfl
@[simp] theorem State.setChan_parked : (s.setChan c k).parked = s.parked := rfl
end

section
variable (s : State) (b : Nat) (f : Block → Block)
@[simp] theorem State.updBlk_mem : (s.updBlk b f).mem = s.mem := rfl
@[simp] theorem State.updBlk_poison : (s.updBlk b f).poison = s.poison := rfl
@[simp] theorem State.updBlk_vbad : (s.updBlk b f).vbad = s.vbad := rfl
@[simp] theorem State.updBlk_hostMem : (s.updBlk b f).hostMem = s.hostMem := rfl
@[simp] theorem State.updBlk_hostBad : (s.updBlk b f).hostBad = s.hostBad := rfl
@[simp] theorem State.updBlk_hostSaw : (s.updBlk b f).hostSaw = s.hostSaw := rfl
@[simp] theorem State.updBlk_saved : (s.updBlk b f).saved = s.saved := rfl
@[simp] theorem State.updBlk_grids : (s.updBlk b f).grids = s.grids := rfl
@[simp] theorem State.updBlk_blkNext : (s.updBlk b f).blkNext = s.blkNext := rfl
@[simp] theorem State.updBlk_orderNext : (s.updBlk b f).orderNext = s.orderNext := rfl
@[simp] theorem State.updBlk_cores : (s.updBlk b f).cores = s.cores := rfl
@[simp] theorem State.updBlk_dies : (s.updBlk b f).dies = s.dies := rfl
@[simp] theorem State.updBlk_parts : (s.updBlk b f).parts = s.parts := rfl
@[simp] theorem State.updBlk_vfs : (s.updBlk b f).vfs = s.vfs := rfl
@[simp] theorem State.updBlk_mcs : (s.updBlk b f).mcs = s.mcs := rfl
@[simp] theorem State.updBlk_queues : (s.updBlk b f).queues = s.queues := rfl
@[simp] theorem State.updBlk_hbms : (s.updBlk b f).hbms = s.hbms := rfl
@[simp] theorem State.updBlk_ports : (s.updBlk b f).ports = s.ports := rfl
@[simp] theorem State.updBlk_xd : (s.updBlk b f).xd = s.xd := rfl
@[simp] theorem State.updBlk_fab : (s.updBlk b f).fab = s.fab := rfl
@[simp] theorem State.updBlk_leases : (s.updBlk b f).leases = s.leases := rfl
@[simp] theorem State.updBlk_nx : (s.updBlk b f).nx = s.nx := rfl
@[simp] theorem State.updBlk_cycle : (s.updBlk b f).cycle = s.cycle := rfl
@[simp] theorem State.updBlk_agenda : (s.updBlk b f).agenda = s.agenda := rfl
@[simp] theorem State.updBlk_focus : (s.updBlk b f).focus = s.focus := rfl
@[simp] theorem State.updBlk_rank : (s.updBlk b f).rank = s.rank := rfl
@[simp] theorem State.updBlk_cur : (s.updBlk b f).cur = s.cur := rfl
@[simp] theorem State.updBlk_freeCtr : (s.updBlk b f).freeCtr = s.freeCtr := rfl
@[simp] theorem State.updBlk_stalled : (s.updBlk b f).stalled = s.stalled := rfl
@[simp] theorem State.updBlk_parked : (s.updBlk b f).parked = s.parked := rfl
end

section
variable (s : State) (b g : Nat) (f : Group → Group)
@[simp] theorem State.updGrp_mem : (s.updGrp b g f).mem = s.mem := rfl
@[simp] theorem State.updGrp_poison : (s.updGrp b g f).poison = s.poison := rfl
@[simp] theorem State.updGrp_vbad : (s.updGrp b g f).vbad = s.vbad := rfl
@[simp] theorem State.updGrp_hostMem : (s.updGrp b g f).hostMem = s.hostMem := rfl
@[simp] theorem State.updGrp_hostBad : (s.updGrp b g f).hostBad = s.hostBad := rfl
@[simp] theorem State.updGrp_hostSaw : (s.updGrp b g f).hostSaw = s.hostSaw := rfl
@[simp] theorem State.updGrp_saved : (s.updGrp b g f).saved = s.saved := rfl
@[simp] theorem State.updGrp_grids : (s.updGrp b g f).grids = s.grids := rfl
@[simp] theorem State.updGrp_blkNext : (s.updGrp b g f).blkNext = s.blkNext := rfl
@[simp] theorem State.updGrp_orderNext : (s.updGrp b g f).orderNext = s.orderNext := rfl
@[simp] theorem State.updGrp_cores : (s.updGrp b g f).cores = s.cores := rfl
@[simp] theorem State.updGrp_dies : (s.updGrp b g f).dies = s.dies := rfl
@[simp] theorem State.updGrp_parts : (s.updGrp b g f).parts = s.parts := rfl
@[simp] theorem State.updGrp_vfs : (s.updGrp b g f).vfs = s.vfs := rfl
@[simp] theorem State.updGrp_mcs : (s.updGrp b g f).mcs = s.mcs := rfl
@[simp] theorem State.updGrp_queues : (s.updGrp b g f).queues = s.queues := rfl
@[simp] theorem State.updGrp_hbms : (s.updGrp b g f).hbms = s.hbms := rfl
@[simp] theorem State.updGrp_ports : (s.updGrp b g f).ports = s.ports := rfl
@[simp] theorem State.updGrp_xd : (s.updGrp b g f).xd = s.xd := rfl
@[simp] theorem State.updGrp_fab : (s.updGrp b g f).fab = s.fab := rfl
@[simp] theorem State.updGrp_leases : (s.updGrp b g f).leases = s.leases := rfl
@[simp] theorem State.updGrp_nx : (s.updGrp b g f).nx = s.nx := rfl
@[simp] theorem State.updGrp_cycle : (s.updGrp b g f).cycle = s.cycle := rfl
@[simp] theorem State.updGrp_agenda : (s.updGrp b g f).agenda = s.agenda := rfl
@[simp] theorem State.updGrp_focus : (s.updGrp b g f).focus = s.focus := rfl
@[simp] theorem State.updGrp_rank : (s.updGrp b g f).rank = s.rank := rfl
@[simp] theorem State.updGrp_cur : (s.updGrp b g f).cur = s.cur := rfl
@[simp] theorem State.updGrp_freeCtr : (s.updGrp b g f).freeCtr = s.freeCtr := rfl
@[simp] theorem State.updGrp_stalled : (s.updGrp b g f).stalled = s.stalled := rfl
@[simp] theorem State.updGrp_parked : (s.updGrp b g f).parked = s.parked := rfl
end

section
variable (b : Block) (g : Nat) (f : Group → Group)
@[simp] theorem Block.updGrp_id : (b.updGrp g f).id = b.id := rfl
@[simp] theorem Block.updGrp_core : (b.updGrp g f).core = b.core := rfl
@[simp] theorem Block.updGrp_task : (b.updGrp g f).task = b.task := rfl
@[simp] theorem Block.updGrp_index : (b.updGrp g f).index = b.index := rfl
@[simp] theorem Block.updGrp_resNo : (b.updGrp g f).resNo = b.resNo := rfl
@[simp] theorem Block.updGrp_seq : (b.updGrp g f).seq = b.seq := rfl
@[simp] theorem Block.updGrp_order : (b.updGrp g f).order = b.order := rfl
@[simp] theorem Block.updGrp_trec : (b.updGrp g f).trec = b.trec := rfl
@[simp] theorem Block.updGrp_bwin : (b.updGrp g f).bwin = b.bwin := rfl
@[simp] theorem Block.updGrp_scr : (b.updGrp g f).scr = b.scr := rfl
@[simp] theorem Block.updGrp_scrBad : (b.updGrp g f).scrBad = b.scrBad := rfl
@[simp] theorem Block.updGrp_absent : (b.updGrp g f).absent = b.absent := rfl
@[simp] theorem Block.updGrp_bars : (b.updGrp g f).bars = b.bars := rfl
@[simp] theorem Block.updGrp_barNow : (b.updGrp g f).barNow = b.barNow := rfl
@[simp] theorem Block.updGrp_ms : (b.updGrp g f).ms = b.ms := rfl
@[simp] theorem Block.updGrp_cs : (b.updGrp g f).cs = b.cs := rfl
@[simp] theorem Block.updGrp_forked : (b.updGrp g f).forked = b.forked := rfl
@[simp] theorem Block.updGrp_ix : (b.updGrp g f).ix = b.ix := rfl
@[simp] theorem Block.updGrp_area : (b.updGrp g f).area = b.area := rfl
@[simp] theorem Block.updGrp_afmt : (b.updGrp g f).afmt = b.afmt := rfl
@[simp] theorem Block.updGrp_ogrp : (b.updGrp g f).ogrp = b.ogrp := rfl
@[simp] theorem Block.updGrp_mz : (b.updGrp g f).mz = b.mz := rfl
@[simp] theorem Block.updGrp_rbs : (b.updGrp g f).rbs = b.rbs := rfl
@[simp] theorem Block.updGrp_mgs : (b.updGrp g f).mgs = b.mgs := rfl
@[simp] theorem Block.updGrp_tvec : (b.updGrp g f).tvec = b.tvec := rfl
@[simp] theorem Block.updGrp_tframe : (b.updGrp g f).tframe = b.tframe := rfl
@[simp] theorem Block.updGrp_mbox : (b.updGrp g f).mbox = b.mbox := rfl
@[simp] theorem Block.updGrp_tcause : (b.updGrp g f).tcause = b.tcause := rfl
@[simp] theorem Block.updGrp_tinfo : (b.updGrp g f).tinfo = b.tinfo := rfl
@[simp] theorem Block.updGrp_dumpbase : (b.updGrp g f).dumpbase = b.dumpbase := rfl
@[simp] theorem Block.updGrp_bk0 : (b.updGrp g f).bk0 = b.bk0 := rfl
@[simp] theorem Block.updGrp_bk1 : (b.updGrp g f).bk1 = b.bk1 := rfl
@[simp] theorem Block.updGrp_bk2 : (b.updGrp g f).bk2 = b.bk2 := rfl
@[simp] theorem Block.updGrp_bk3 : (b.updGrp g f).bk3 = b.bk3 := rfl
@[simp] theorem Block.updGrp_prstimeout : (b.updGrp g f).prstimeout = b.prstimeout := rfl
@[simp] theorem Block.updGrp_joinwin : (b.updGrp g f).joinwin = b.joinwin := rfl
@[simp] theorem Block.updGrp_stampbase : (b.updGrp g f).stampbase = b.stampbase := rfl
@[simp] theorem Block.updGrp_stampseq : (b.updGrp g f).stampseq = b.stampseq := rfl
@[simp] theorem Block.updGrp_stampdrop : (b.updGrp g f).stampdrop = b.stampdrop := rfl
@[simp] theorem Block.updGrp_mtest : (b.updGrp g f).mtest = b.mtest := rfl
@[simp] theorem Block.updGrp_mode : (b.updGrp g f).mode = b.mode := rfl
@[simp] theorem Block.updGrp_pend : (b.updGrp g f).pend = b.pend := rfl
@[simp] theorem Block.updGrp_stopReq : (b.updGrp g f).stopReq = b.stopReq := rfl
@[simp] theorem Block.updGrp_repost : (b.updGrp g f).repost = b.repost := rfl
@[simp] theorem Block.updGrp_cl : (b.updGrp g f).cl = b.cl := rfl
@[simp] theorem Block.updGrp_heads : (b.updGrp g f).heads = b.heads := rfl
@[simp] theorem Block.updGrp_rr : (b.updGrp g f).rr = b.rr := rfl
@[simp] theorem Block.updGrp_stash : (b.updGrp g f).stash = b.stash := rfl
@[simp] theorem Block.updGrp_frameAt : (b.updGrp g f).frameAt = b.frameAt := rfl
@[simp] theorem Block.updGrp_saving : (b.updGrp g f).saving = b.saving := rfl
end

section
variable (g : Group) (l : Nat) (x : Lane)
@[simp] theorem Group.setLane_num : (g.setLane l x).num = g.num := rfl
@[simp] theorem Group.setLane_quad : (g.setLane l x).quad = g.quad := rfl
@[simp] theorem Group.setLane_slot : (g.setLane l x).slot = g.slot := rfl
@[simp] theorem Group.setLane_kArr : (g.setLane l x).kArr = g.kArr := rfl
@[simp] theorem Group.setLane_kEnr : (g.setLane l x).kEnr = g.kEnr := rfl
@[simp] theorem Group.setLane_msM : (g.setLane l x).msM = g.msM := rfl
@[simp] theorem Group.setLane_msA : (g.setLane l x).msA = g.msA := rfl
@[simp] theorem Group.setLane_win : (g.setLane l x).win = g.win := rfl
@[simp] theorem Group.setLane_by1 : (g.setLane l x).by1 = g.by1 := rfl
@[simp] theorem Group.setLane_by2 : (g.setLane l x).by2 = g.by2 := rfl
@[simp] theorem Group.setLane_by3 : (g.setLane l x).by3 = g.by3 := rfl
@[simp] theorem Group.setLane_vv : (g.setLane l x).vv = g.vv := rfl
@[simp] theorem Group.setLane_vw : (g.setLane l x).vw = g.vw := rfl
@[simp] theorem Group.setLane_vt : (g.setLane l x).vt = g.vt := rfl
@[simp] theorem Group.setLane_va : (g.setLane l x).va = g.va := rfl
@[simp] theorem Group.setLane_frame : (g.setLane l x).frame = g.frame := rfl
@[simp] theorem Group.setLane_spillbase : (g.setLane l x).spillbase = g.spillbase := rfl
@[simp] theorem Group.setLane_spilllim : (g.setLane l x).spilllim = g.spilllim := rfl
@[simp] theorem Group.setLane_inf : (g.setLane l x).inf = g.inf := rfl
@[simp] theorem Group.setLane_fetched : (g.setLane l x).fetched = g.fetched := rfl
@[simp] theorem Group.setLane_sb : (g.setLane l x).sb = g.sb := rfl
@[simp] theorem Group.setLane_sregs : (g.setLane l x).sregs = g.sregs := rfl
@[simp] theorem Group.setLane_sp : (g.setLane l x).sp = g.sp := rfl
@[simp] theorem Group.setLane_fq : (g.setLane l x).fq = g.fq := rfl
@[simp] theorem Group.setLane_rq : (g.setLane l x).rq = g.rq := rfl
@[simp] theorem Group.setLane_sc : (g.setLane l x).sc = g.sc := rfl
@[simp] theorem Group.setLane_sAhead : (g.setLane l x).sAhead = g.sAhead := rfl
@[simp] theorem Group.setLane_sFault : (g.setLane l x).sFault = g.sFault := rfl
@[simp] theorem Group.setLane_nlanes : (g.setLane l x).nlanes = g.nlanes := rfl
@[simp] theorem Group.setLane_ended : (g.setLane l x).ended = g.ended := rfl
@[simp] theorem Group.setLane_wait : (g.setLane l x).wait = g.wait := rfl
@[simp] theorem Group.setLane_swait : (g.setLane l x).swait = g.swait := rfl
@[simp] theorem Group.setLane_forced : (g.setLane l x).forced = g.forced := rfl
@[simp] theorem Group.setLane_skip : (g.setLane l x).skip = g.skip := rfl
@[simp] theorem Group.setLane_promo : (g.setLane l x).promo = g.promo := rfl
@[simp] theorem Group.setLane_claim : (g.setLane l x).claim = g.claim := rfl
@[simp] theorem Group.setLane_roPos : (g.setLane l x).roPos = g.roPos := rfl
@[simp] theorem Group.setLane_roseen : (g.setLane l x).roseen = g.roseen := rfl
@[simp] theorem Group.setLane_rrh : (g.setLane l x).rrh = g.rrh := rfl
@[simp] theorem Group.setLane_rrn : (g.setLane l x).rrn = g.rrn := rfl
@[simp] theorem Group.setLane_bkSkip : (g.setLane l x).bkSkip = g.bkSkip := rfl
@[simp] theorem Group.setLane_resErr : (g.setLane l x).resErr = g.resErr := rfl
@[simp] theorem Group.setLane_arrived : (g.setLane l x).arrived = g.arrived := rfl
@[simp] theorem Group.setLane_yends : (g.setLane l x).yends = g.yends := rfl
end
@[simp] theorem State.core_setCore_same (s : State) (c : Nat) (k : Core) : (s.setCore c k).core c = k := by
  simp [State.core, State.setCore]
@[simp] theorem State.die_setDie_same (s : State) (d : Nat) (k : Die) : (s.setDie d k).die d = k := by
  simp [State.die, State.setDie]
@[simp] theorem State.part_setPart_same (s : State) (p : Nat) (k : Part) : (s.setPart p k).part p = k := by
  simp [State.part, State.setPart]
@[simp] theorem State.vf_setVf_same (s : State) (v : Nat) (k : Vf) : (s.setVf v k).vf v = k := by
  simp [State.vf, State.setVf]
@[simp] theorem State.mc_setMc_same (s : State) (m : Nat) (k : Mc) : (s.setMc m k).mc m = k := by
  simp [State.mc, State.setMc]
@[simp] theorem State.hbm_setHbm_same (s : State) (n : Nat) (k : Stack) : (s.setHbm n k).hbm n = k := by
  simp [State.hbm, State.setHbm]
@[simp] theorem State.port_setPort_same (s : State) (p : Nat) (k : Port) : (s.setPort p k).port p = k := by
  simp [State.port, State.setPort]
@[simp] theorem State.chan_setChan_same (s : State) (c : Nat) (k : Chan) : (s.setChan c k).chan c = k := by
  simp [State.chan, State.setChan]

theorem State.core_setCore (s : State) (c : Nat) (k : Core) (n : Nat) :
    (s.setCore c k).core n = if n = c then k else s.core n := by simp [State.core, State.setCore, tget_tset]
theorem State.die_setDie (s : State) (d : Nat) (k : Die) (n : Nat) :
    (s.setDie d k).die n = if n = d then k else s.die n := by simp [State.die, State.setDie, tget_tset]
theorem State.part_setPart (s : State) (p : Nat) (k : Part) (n : Nat) :
    (s.setPart p k).part n = if n = p then k else s.part n := by simp [State.part, State.setPart, tget_tset]
theorem State.vf_setVf (s : State) (v : Nat) (k : Vf) (n : Nat) :
    (s.setVf v k).vf n = if n = v then k else s.vf n := by simp [State.vf, State.setVf, tget_tset]
theorem State.mc_setMc (s : State) (m : Nat) (k : Mc) (n : Nat) :
    (s.setMc m k).mc n = if n = m then k else s.mc n := by simp [State.mc, State.setMc, tget_tset]
theorem State.port_setPort (s : State) (p : Nat) (k : Port) (n : Nat) :
    (s.setPort p k).port n = if n = p then k else s.port n := by simp [State.port, State.setPort, tget_tset]
theorem State.hbm_setHbm (s : State) (m : Nat) (k : Stack) (n : Nat) :
    (s.setHbm m k).hbm n = if n = m then k else s.hbm n := by simp [State.hbm, State.setHbm, tget_tset]

/-- The first element that meets a test, in a list whose such elements have been replaced by ones that still meet it. -/
theorem firstOf_mapIf_same {α : Type} (p : α → Bool) (f : α → α) (xs : List α) (h : ∀ x, p x = true → p (f x) = true) :
    firstOf p (mapIf p f xs) = (firstOf p xs).map f := by
  induction xs with
  | nil => rfl
  | cons x xs ih =>
    cases hp : p x with
    | true => simp [mapIf, firstOf, hp, h x hp]
    | false => simp [mapIf, firstOf, hp, ih]

/-- The first element that meets another test is not changed. -/
theorem firstOf_mapIf_ne {α : Type} (p q : α → Bool) (f : α → α) (xs : List α) (h : ∀ x, p x = true → q x = false ∧ q (f x) = false) :
    firstOf q (mapIf p f xs) = firstOf q xs := by
  induction xs with
  | nil => rfl
  | cons x xs ih =>
    cases hp : p x with
    | true => simp [mapIf, firstOf, hp, (h x hp).1, (h x hp).2, ih]
    | false =>
      cases hq : q x <;> simp [mapIf, firstOf, hp, hq, ih]

/-- What `firstOf` finds meets its test. -/
theorem firstOf_some {α : Type} (p : α → Bool) (xs : List α) (x : α) (h : firstOf p xs = some x) : p x = true ∧ x ∈ xs := by
  induction xs with
  | nil => simp [firstOf] at h
  | cons y ys ih =>
    rw [firstOf] at h
    split at h
    · injection h with h; subst h; exact ⟨‹_›, by simp⟩
    · exact ⟨(ih h).1, by simp [(ih h).2]⟩

theorem State.blk_id {s : State} {b : Nat} {k : Block} (h : s.blk b = some k) : k.id = b := by
  simpa using (firstOf_some _ _ _ h).1

theorem Block.grp_num {k : Block} {g : Nat} {x : Group} (h : k.grp g = some x) : x.num = g := by
  simpa using (firstOf_some _ _ _ h).1

theorem State.blk_updBlk (s : State) (b : Nat) (f : Block → Block) (h : ∀ k, k.id = b → (f k).id = b) :
    (s.updBlk b f).blk b = (s.blk b).map f :=
  firstOf_mapIf_same _ f s.blocks (by simpa using h)

theorem State.blk_updBlk_ne (s : State) (b n : Nat) (f : Block → Block) (h : ∀ k, k.id = b → (f k).id = b) (hn : n ≠ b) :
    (s.updBlk b f).blk n = s.blk n :=
  firstOf_mapIf_ne _ _ f s.blocks (fun x hx => by
    have e : x.id = b := by simpa using hx
    have e' := h x e
    simp only [decide_eq_false_iff_not]
    exact ⟨fun c => hn (c.symm.trans e), fun c => hn (c.symm.trans e')⟩)

theorem Block.grp_updGrp (k : Block) (g : Nat) (f : Group → Group) (h : ∀ x, x.num = g → (f x).num = g) :
    (k.updGrp g f).grp g = (k.grp g).map f :=
  firstOf_mapIf_same _ f k.groups (by simpa using h)

theorem Block.grp_updGrp_ne (k : Block) (g n : Nat) (f : Group → Group) (h : ∀ x, x.num = g → (f x).num = g) (hn : n ≠ g) :
    (k.updGrp g f).grp n = k.grp n :=
  firstOf_mapIf_ne _ _ f k.groups (fun x hx => by
    have e : x.num = g := by simpa using hx
    have e' := h x e
    simp only [decide_eq_false_iff_not]
    exact ⟨fun c => hn (c.symm.trans e), fun c => hn (c.symm.trans e')⟩)

theorem State.bg_iff {s : State} {b g : Nat} {k : Block} {x : Group} :
    s.bg b g = some (k, x) ↔ s.blk b = some k ∧ k.grp g = some x := by
  unfold State.bg
  constructor
  · intro h
    split at h
    · cases h
    · rename_i k' hk
      split at h
      · cases h
      · rename_i x' hx
        injection h with h
        injection h with h1 h2
        subst h1; subst h2
        exact ⟨hk, hx⟩
  · rintro ⟨h1, h2⟩
    simp [h1, h2]

/-- A replaced group stands where it stood. -/
theorem State.bg_updGrp {s : State} {b g : Nat} {k : Block} {x : Group} (f : Group → Group)
    (h : s.bg b g = some (k, x)) (hf : ∀ y, y.num = g → (f y).num = g) :
    (s.updGrp b g f).bg b g = some (k.updGrp g f, f x) := by
  rw [State.bg_iff] at h ⊢
  refine ⟨?_, ?_⟩
  · rw [State.updGrp, State.blk_updBlk _ _ _ (by simp), h.1]; rfl
  · rw [Block.grp_updGrp _ _ _ hf, h.2]; rfl

/-- A replaced block stands where it stood. -/
theorem State.blk_updBlk_const {s : State} {b : Nat} {k k' : Block} (h : s.blk b = some k) (hk : k'.id = b) :
    (s.updBlk b (fun _ => k')).blk b = some k' := by
  rw [State.blk_updBlk _ _ _ (fun _ _ => hk), h]; rfl

@[simp] theorem Group.lane_setLane_same (g : Group) (l : Nat) (x : Lane) : (g.setLane l x).lane l = x := by
  simp [Group.lane, Group.setLane]

theorem Group.lane_setLane (g : Group) (l : Nat) (x : Lane) (n : Nat) :
    (g.setLane l x).lane n = if n = l then x else g.lane n := by
  simp [Group.lane, Group.setLane, tget_tset]

/-- Replacing lanes changes only lanes. -/
theorem Group.mapLanes_rest (g : Group) (ls : List Nat) (f : Nat → Lane → Lane) :
    g.mapLanes ls f = { g with lanes := (g.mapLanes ls f).lanes } := by
  induction ls generalizing g with
  | nil => rfl
  | cons l ls ih => rw [Group.mapLanes, ih]; rfl

/-- Lanes that are not listed stay as they are. -/
theorem Group.lane_mapLanes_ne (g : Group) (ls : List Nat) (f : Nat → Lane → Lane) (n : Nat) (h : n ∉ ls) :
    (g.mapLanes ls f).lane n = g.lane n := by
  induction ls generalizing g with
  | nil => rfl
  | cons l ls ih =>
    rw [Group.mapLanes, ih _ (fun c => h (by simp [c])), Group.lane_setLane, if_neg]
    rintro rfl
    exact h (by simp)

/-- Each listed lane is replaced once, where none is listed twice. -/
theorem Group.lane_mapLanes (g : Group) (ls : List Nat) (f : Nat → Lane → Lane) (n : Nat) (hd : ls.Nodup) :
    (g.mapLanes ls f).lane n = if n ∈ ls then f n (g.lane n) else g.lane n := by
  induction ls generalizing g with
  | nil => rfl
  | cons l ls ih =>
    have hl := (List.nodup_cons.1 hd).1
    rw [Group.mapLanes, ih _ (List.nodup_cons.1 hd).2]
    by_cases hn : n = l
    · subst hn
      rw [if_neg hl, Group.lane_setLane, if_pos rfl, if_pos (by simp)]
    · rw [Group.lane_setLane, if_neg hn]
      simp [List.mem_cons, hn]

/-- The registers of the fibre and the words of a group stand apart from its lanes. -/
@[simp] theorem Group.mapLanes_num (g : Group) (ls : List Nat) (f : Nat → Lane → Lane) : (g.mapLanes ls f).num = g.num := by
  rw [Group.mapLanes_rest]

end Sys2Proof.Machine
end

