-- ==== Sys2Proof/Laws/Memory.lean ====
section
/-! SUPPORT. Device memory: every memory operation keeps the canonical form, and a home write reads back (R149, R247, R287). -/
namespace Sys2Proof.Machine

/-- Reset memory is canonical. -/
theorem reset_mem_wf : Memory.wf State.reset.mem = true := rfl

/-- Ending leases writes lines back and keeps the form. -/
theorem recall_wf (s : State) (a n : Nat) (h : Memory.wf s.mem = true) : Memory.wf (s.recall a n).mem = true := by
  unfold State.recall
  dsimp only
  split
  · dsimp only
    generalize s.leases.filter _ = ls
    generalize s.mem = m at h
    induction ls generalizing m with
    | nil => exact h
    | cons l ls ih => rw [List.foldl_cons]; exact ih _ (canonical_tsets _ _ _ _ h)
  · exact h

@[simp] theorem recall_poison (s : State) (a n : Nat) : (s.recall a n).poison = s.poison := by
  unfold State.recall; dsimp only; split <;> rfl
@[simp] theorem recall_parts (s : State) (a n : Nat) : (s.recall a n).parts = s.parts := by
  unfold State.recall; dsimp only; split <;> rfl
@[simp] theorem recall_hostMem (s : State) (a n : Nat) : (s.recall a n).hostMem = s.hostMem := by
  unfold State.recall; dsimp only; split <;> rfl

@[simp] theorem healVault_mem (s : State) (a n : Nat) : (s.healVault a n).mem = s.mem := rfl
@[simp] theorem healVault_poison (s : State) (a n : Nat) : (s.healVault a n).poison = s.poison := rfl
@[simp] theorem healVault_leases (s : State) (a n : Nat) : (s.healVault a n).leases = s.leases := rfl

theorem sectorWrite_wf (s : State) (p : Nat × List Byte) (h : Memory.wf s.mem = true) :
    Memory.wf (s.sectorWrite p).mem = true := by
  unfold State.sectorWrite
  split
  · split
    · exact canonical_tsets _ _ _ _ h
    · exact h
  · exact canonical_tsets _ _ _ _ h

theorem cuffCopy_wf (s : State) (p page : Nat) (h : Memory.wf s.mem = true) : Memory.wf (s.cuffCopy p page).mem = true := by
  unfold State.cuffCopy
  dsimp only
  split
  · split
    · rw [State.setPart_mem]; exact canonical_tsets _ _ _ _ h
    · split <;> exact h
  · exact h

theorem cuffs_wf (s : State) (a n : Nat) (h : Memory.wf s.mem = true) : Memory.wf (s.cuffs a n).mem = true := by
  unfold State.cuffs
  split
  · rename_i hq
    clear hq
    generalize s.parts.map Prod.fst = ps
    induction ps generalizing s with
    | nil => exact h
    | cons p ps ih => rw [List.foldl_cons]; exact ih _ (cuffCopy_wf _ _ _ (cuffCopy_wf _ _ _ h))
  · exact h

theorem sectorWrites_wf (s : State) (ps : List (Nat × List Byte)) (h : Memory.wf s.mem = true) :
    Memory.wf (ps.foldl State.sectorWrite s).mem = true := by
  induction ps generalizing s with
  | nil => exact h
  | cons p ps ih => rw [List.foldl_cons]; exact ih _ (sectorWrite_wf _ _ h)

/-- A home write keeps the canonical form. -/
theorem homeWrite_wf (s : State) (a : Nat) (bs : List Byte) (h : Memory.wf s.mem = true) :
    Memory.wf (s.homeWrite a bs).mem = true := by
  unfold State.homeWrite
  split
  · exact h
  · dsimp only
    have h1 := cuffs_wf _ a bs.length (recall_wf s a bs.length h)
    split
    · exact canonical_tsets _ _ _ _ h1
    · exact sectorWrites_wf _ _ h1

/-- A home write of masked bytes keeps the canonical form. -/
theorem homeWriteMask_wf (s : State) (num : Nat) (data : List Byte) (mask : List Bool) (h : Memory.wf s.mem = true) :
    Memory.wf (s.homeWriteMask num data mask).mem = true := by
  unfold State.homeWriteMask
  dsimp only
  have h1 := cuffs_wf _ (32 * num) 32 (recall_wf s (32 * num) 32 h)
  split
  · exact h1
  · exact canonical_tsets _ _ _ _ h1

theorem State.queuePubs_mem (s : State) (part scope : Nat) (ps : List (List Byte)) : (s.queuePubs part scope ps).mem = s.mem := rfl

theorem State.performPuts_mem (s : State) (ps : List (Nat × Nat × List Byte)) : (s.performPuts ps).mem = s.mem := by
  unfold State.performPuts
  induction ps generalizing s with
  | nil => rfl
  | cons p ps ih => rw [List.foldl_cons, ih]; rfl

theorem State.land1_mem (s : State) (c : Nat) (o : Outst) : (s.land1 c o).mem = s.mem := by
  unfold State.land1
  dsimp only
  rw [State.updGrp_mem, State.setCore_mem, State.performPuts_mem]

/-- Performing what a core's accesses have still to write in scratchpads changes no device memory. -/
theorem State.flush_mem (s : State) (c : Nat) (p : Outst → Bool) : (s.flush c p).mem = s.mem := by
  unfold State.flush
  generalize (s.core c).outs.filter _ = os
  induction os generalizing s with
  | nil => rfl
  | cons o os ih => rw [List.foldl_cons, ih, State.land1_mem]

theorem State.dropEarly_mem (s : State) (c : Nat) (p : EarlySec → Bool) : (s.dropEarly c p).mem = s.mem := by
  unfold State.dropEarly; dsimp only; split <;> rfl

/-- A word's fetch of a sector changes no device memory. -/
theorem State.fetchSec_mem (s : State) (c num : Nat) : (s.fetchSec c num).2.2.mem = s.mem := by
  unfold State.fetchSec; dsimp only; split <;> exact State.dropEarly_mem _ _ _

/-- Publications are home writes and queued frames. -/
theorem publish_wf (s : State) (c : Nat) (h : Memory.wf s.mem = true) : Memory.wf (s.publish c).mem = true := by
  have hf : ∀ (xs : List Sector) (t : State), Memory.wf t.mem = true →
      Memory.wf (xs.foldl (fun t x => t.homeWriteMask x.num x.data x.dirty) t).mem = true := by
    intro xs
    induction xs with
    | nil => exact fun _ h => h
    | cons x xs ih => intro t ht; rw [List.foldl_cons]; exact ih _ (homeWriteMask_wf _ _ _ _ ht)
  have h0 : Memory.wf ((s.flush c (fun _ => true)).dropEarly c (fun _ => true)).mem = true := by
    rw [State.dropEarly_mem, State.flush_mem]; exact h
  unfold State.publish
  dsimp only
  split
  · exact h0
  · rw [State.setCore_mem]
    repeat' split
    all_goals first | rw [State.queuePubs_mem] | skip
    all_goals exact hf _ _ h0

/-- An eviction changes no device memory. -/
theorem evict_mem (s t : State) (c : Nat) (h : s.evict c = some t) : t.mem = s.mem := by
  unfold State.evict at h
  dsimp only at h
  split at h
  · injection h with h; subst h; rfl
  · split at h
    · injection h with h; subst h; rfl
    · cases h

theorem force_wf (s : State) (c : Nat) (h : Memory.wf s.mem = true) : Memory.wf (s.force c).mem = true := by
  unfold State.force
  dsimp only
  split
  · exact publish_wf _ c h
  · exact h

theorem forceQuiet_wf (s : State) (c : Nat) (h : Memory.wf s.mem = true) : Memory.wf (s.forceQuiet c).mem = true := by
  unfold State.forceQuiet
  split
  · exact force_wf s c h
  · exact h

/-- Making room publishes at most. -/
theorem makeRoom_wf (s : State) (c : Nat) (h : Memory.wf s.mem = true) : Memory.wf (s.makeRoom c).mem = true := by
  unfold State.makeRoom
  split
  · exact h
  · split
    · rename_i t e; rw [evict_mem _ _ _ e]; exact h
    · split
      · rename_i t e; rw [evict_mem _ _ _ e]; exact forceQuiet_wf s c h
      · exact forceQuiet_wf s c h

theorem countUnfixed_mem (s : State) (c num : Nat) : (s.countUnfixed c num).mem = s.mem := by
  unfold State.countUnfixed; dsimp only; split <;> rfl

/-- A read through the phase cache keeps the form. -/
theorem cacheSector_wf (s : State) (c num : Nat) (h : Memory.wf s.mem = true) : Memory.wf (s.cacheSector c num).2.mem = true := by
  unfold State.cacheSector
  split
  · split
    · exact h
    · simpa [countUnfixed_mem, State.dropEarly_mem] using h
    · simpa [countUnfixed_mem, State.fetchSec_mem] using h
  · simpa [State.fetchSec_mem] using makeRoom_wf _ c (by simpa [countUnfixed_mem] using h)

theorem cacheRead_wf (s : State) (c pa n : Nat) (h : Memory.wf s.mem = true) : Memory.wf (s.cacheRead c pa n).2.2.mem = true :=
  cacheSector_wf s c (pa / 32) h

/-- A store into the phase cache keeps the form. -/
theorem cacheWrite_wf (s : State) (c pa : Nat) (bs : List Byte) (h : Memory.wf s.mem = true) :
    Memory.wf (s.cacheWrite c pa bs).mem = true := by
  unfold State.cacheWrite
  dsimp only
  split
  · exact h
  · simpa using makeRoom_wf _ c h

theorem prefetch_wf (s : State) (c num : Nat) (h : Memory.wf s.mem = true) : Memory.wf (s.prefetch c num).mem = true := by
  unfold State.prefetch
  split
  · split
    · exact h
    · exact h
  · dsimp only
    split
    · simpa using makeRoom_wf _ c h
    · exact h

theorem sectorHome_wf (s : State) (c a n : Nat) (h : Memory.wf s.mem = true) : Memory.wf (s.sectorHome c a n).mem = true := by
  have hf : ∀ (xs : List Sector) (t : State), Memory.wf t.mem = true →
      Memory.wf (xs.foldl (fun t x => t.homeWriteMask x.num x.data x.dirty) t).mem = true := by
    intro xs
    induction xs with
    | nil => exact fun _ h => h
    | cons x xs ih => intro t ht; rw [List.foldl_cons]; exact ih _ (homeWriteMask_wf _ _ _ _ ht)
  have hd := State.dropEarly_mem s c (fun x => decide (a < 32 * x.num + 32) && decide (32 * x.num < a + n))
  unfold State.sectorHome
  generalize s.dropEarly c (fun x => decide (a < 32 * x.num + 32) && decide (32 * x.num < a + n)) = t at hd ⊢
  rw [← hd] at h
  dsimp only
  split
  · exact h
  · repeat' split
    all_goals rw [State.setCore_mem]
    all_goals first | exact publish_wf _ c h | exact hf _ _ h

/-- Reading bytes at the homes, one by one. -/
theorem homeBytes_get (s : State) (a n i : Nat) (hi : i < n) : nth 0 (s.homeBytes a n) i = s.homeByte (a + i) := by
  induction n generalizing a i with
  | zero => omega
  | succ n ih =>
    cases i with
    | zero => rfl
    | succ i => rw [State.homeBytes, nth, ih (a + 1) i (by omega)]; congr 1; omega

/-- No lease holds a byte of the range once it is recalled. -/
theorem recall_leaseAt (s : State) (a n x : Nat) (h1 : a ≤ x) (h2 : x < a + n) : leaseAt (s.recall a n).leases x = none := by
  have key : ∀ ls : List Lease, (∀ l ∈ ls, ¬(a < 64 * l.line + 64 ∧ 64 * l.line < a + n)) → leaseAt ls x = none := by
    intro ls hls
    induction ls with
    | nil => rfl
    | cons l ls ih =>
      have := hls l (by simp)
      rw [leaseAt, firstOf, if_neg (by simp; omega)]
      exact ih fun m hm => hls m (by simp [hm])
  unfold State.recall
  dsimp only
  split
  · refine key _ fun l hl => ?_
    have := (List.mem_filter.1 hl).2
    simp at this
    omega
  · rename_i hh
    refine key _ fun l hl hc => hh ?_
    exact List.any_eq_true.2 ⟨l, hl, by simpa using hc⟩

theorem cuffCopy_leases (s : State) (p page : Nat) : (s.cuffCopy p page).leases = s.leases := by
  unfold State.cuffCopy; dsimp only; repeat' split
  all_goals rfl

theorem cuffCopy_poison (s : State) (p page : Nat) : (s.cuffCopy p page).poison = s.poison := by
  unfold State.cuffCopy; dsimp only; repeat' split
  all_goals rfl

theorem cuffs_leases (s : State) (a n : Nat) : (s.cuffs a n).leases = s.leases ∧ (s.cuffs a n).poison = s.poison := by
  unfold State.cuffs
  split
  · rename_i hq
    clear hq
    generalize s.parts.map Prod.fst = ps
    induction ps generalizing s with
    | nil => exact ⟨rfl, rfl⟩
    | cons p ps ih =>
      rw [List.foldl_cons]
      have := ih ((s.cuffCopy p (a / 65536)).cuffCopy p ((a + n - 1) / 65536))
      rw [this.1, this.2]
      simp [cuffCopy_leases, cuffCopy_poison]
  · exact ⟨rfl, rfl⟩

/-- A home write with no poisoned sector reads back (R149, R248). -/
theorem homeByte_homeWrite (s : State) (a : Nat) (bs : List Byte) (x : Nat) (hp : s.poison = []) (h1 : a ≤ x) (h2 : x < a + bs.length) :
    (s.homeWrite a bs).homeByte x = nth 0 bs (x - a) := by
  have hne : bs.isEmpty = false := by cases bs with | nil => simp at h2; omega | cons _ _ => rfl
  unfold State.homeWrite
  rw [hne]
  dsimp only
  have hq : (((s.recall a bs.length).cuffs a bs.length).healVault a bs.length).poison.isEmpty = true := by
    rw [healVault_poison, (cuffs_leases _ _ _).2, recall_poison, hp]; rfl
  simp only [Bool.false_eq_true, if_false, hq, if_true]
  unfold State.homeByte
  simp only [healVault_leases, (cuffs_leases _ _ _).1, recall_leaseAt s a bs.length x h1 h2]
  rw [tget_tsets, if_pos ⟨h1, h2⟩]

/-- A home write with no lease, no open cuff and no poisoned sector leaves every other byte (R149). -/
theorem homeByte_homeWrite_ne (s : State) (a : Nat) (bs : List Byte) (x : Nat) (hp : s.poison = []) (hl : s.leases = [])
    (hc : s.anyCuff = false) (h : x < a ∨ a + bs.length ≤ x) : (s.homeWrite a bs).homeByte x = s.homeByte x := by
  unfold State.homeWrite
  split
  · rfl
  · have hr : s.recall a bs.length = s := by unfold State.recall; simp [hl]
    have hk : s.cuffs a bs.length = s := by unfold State.cuffs; simp [hc]
    simp only [hr, hk, healVault_poison, healVault_mem, hp, List.isEmpty_nil, if_true]
    unfold State.homeByte
    simp only [healVault_leases, hl, leaseAt, firstOf]
    rw [tget_tsets, if_neg (by omega)]

end Sys2Proof.Machine
end

