-- ==== Sys2Proof/Laws/Words.lean ====
section
/-! SUPPORT. What a wide-side word does when it retires: the lanes of its set move on, the latches stay, are pushed or are
cleared, nothing outside the block and the quadrant changes (R13, R19, R61, R122). -/
namespace Sys2Proof.Machine

theorem upFrom_mem (a n k : Nat) : k ∈ upFrom a n ↔ a ≤ k ∧ k < a + n := by
  induction n generalizing a with
  | zero => simp [upFrom]
  | succ n ih => simp [upFrom, ih]; omega

theorem upFrom_nodup (a n : Nat) : (upFrom a n).Nodup := by
  induction n generalizing a with
  | zero => simp [upFrom]
  | succ n ih =>
    rw [upFrom, List.nodup_cons]
    exact ⟨fun h => by have := (upFrom_mem _ _ _).1 h; omega, ih (a + 1)⟩

theorem upFrom_length (a n : Nat) : (upFrom a n).length = n := by
  induction n generalizing a with
  | zero => rfl
  | succ n ih => simp [upFrom, ih]

theorem liveLanes_nodup (g : Group) : g.liveLanes.Nodup := (upFrom_nodup 0 32).filter _

theorem pc_next (p : BitVec 48) : BitVec.ofNat 48 (p.toNat + 4) = p + 4 := by
  apply BitVec.eq_of_toNat_eq
  simp [BitVec.toNat_add]

@[simp] theorem Lane.advance_pc (x : Lane) (last : Bool) : (x.advance last).pc = x.pc + 4 := by
  unfold Lane.advance Lane.enter
  dsimp only
  split <;> simp [pc_next]

theorem Lane.advance_rest (x : Lane) (last : Bool) :
    ∃ pc hdr entered off, x.advance last = { x with pc := pc, hdr := hdr, entered := entered, guardOff := off } := by
  unfold Lane.advance Lane.enter
  dsimp only
  split <;> exact ⟨_, _, _, _, rfl⟩

/-- A lane of the group after its word has retired. -/
theorem Group.lane_retire (g : Group) (c : Cur) (hd : c.set.Nodup) (l : Nat) :
    (g.retire c).lane l =
      if l ∈ c.set then { (g.lane l).advance (decide (c.pc = c.hdr + 4 * c.n)) with starve := 0 }
      else if l ∈ g.liveLanes then { g.lane l with starve := min ((g.lane l).starve + 1) 65535 } else g.lane l := by
  have hr : (g.liveLanes.filter (fun l => decide (l ∉ c.set))).Nodup := (liveLanes_nodup g).filter _
  have key : ∀ h : Group, (h.clearLatches).lane l = h.lane l := fun _ => rfl
  have e : (g.retire c).lane l = ((g.mapLanes c.set
      (fun _ x => { x.advance (decide (c.pc = c.hdr + 4 * c.n)) with starve := 0 })).mapLanes
      (g.liveLanes.filter (fun l => decide (l ∉ c.set))) (fun _ x => { x with starve := min (x.starve + 1) 65535 })).lane l := by
    unfold Group.retire
    dsimp only
    split <;> rfl
  rw [e, Group.lane_mapLanes _ _ _ _ hr, Group.lane_mapLanes _ _ _ _ hd]
  by_cases h1 : l ∈ c.set
  · simp [h1]
  · by_cases h2 : l ∈ g.liveLanes <;> simp [h1, h2]

/-- The rest of the group after its word has retired. -/
theorem Group.retire_rest (g : Group) (c : Cur) : ∃ ls b1 b2 b3 f, g.retire c = { g with
    lanes := ls, by1 := b1, by2 := b2, by3 := b3, wait := none, bkSkip := false, forced := f } := by
  unfold Group.retire
  dsimp only
  rw [Group.mapLanes_rest _ (List.filter _ _), Group.mapLanes_rest g c.set]
  split <;> exact ⟨_, _, _, _, _, rfl⟩

@[simp] theorem Group.retire_num (g : Group) (c : Cur) : (g.retire c).num = g.num := by
  obtain ⟨_, _, _, _, _, h⟩ := g.retire_rest c
  rw [h]
@[simp] theorem Group.retire_win (g : Group) (c : Cur) : (g.retire c).win = g.win := by
  obtain ⟨_, _, _, _, _, h⟩ := g.retire_rest c
  rw [h]

/-- The latches after the word has retired (R19). -/
theorem Group.retire_latches (g : Group) (c : Cur) :
    (c.pc = c.hdr + 4 * c.n ∧ c.y = true → (g.retire c).by1 = [] ∧ (g.retire c).by2 = [] ∧ (g.retire c).by3 = []) ∧
    (¬(c.pc = c.hdr + 4 * c.n ∧ c.y = true) → (g.retire c).by1 = g.by1 ∧ (g.retire c).by2 = g.by2 ∧ (g.retire c).by3 = g.by3) := by
  unfold Group.retire
  dsimp only
  rw [Group.mapLanes_rest _ (List.filter _ _), Group.mapLanes_rest g c.set]
  constructor
  · intro h
    rw [if_pos (by simp [h.1, h.2])]
    exact ⟨rfl, rfl, rfl⟩
  · intro h
    rw [if_neg (by simpa using h)]
    exact ⟨rfl, rfl, rfl⟩

/-- A change of a quadrant changes its core's quadrants alone. -/
theorem State.updQuad_core (s : State) (c q : Nat) (f : Quad → Quad) :
    (s.updQuad c q f).core c = { s.core c with quads := ((s.updQuad c q f).core c).quads } := by
  simp [State.updQuad]

theorem State.updQuad_core_ne (s : State) (c q n : Nat) (f : Quad → Quad) (h : n ≠ c) :
    (s.updQuad c q f).core n = s.core n := by
  simp [State.updQuad, State.core_setCore, h]

theorem State.updQuad_rest (s : State) (c q : Nat) (f : Quad → Quad) :
    s.updQuad c q f = { s with cores := (s.updQuad c q f).cores } := rfl

@[simp] theorem State.updQuad_blk (s : State) (c q b : Nat) (f : Quad → Quad) : (s.updQuad c q f).blk b = s.blk b := rfl
@[simp] theorem State.updQuad_bg (s : State) (c q b g : Nat) (f : Quad → Quad) : (s.updQuad c q f).bg b g = s.bg b g := rfl

/-- The lanes of group `x1` are those of `x` but for predicates. -/
def LanesButPreds (x x1 : Group) : Prop := ∀ l, ∃ p, x1.lane l = { x.lane l with pred := p }

theorem LanesButPreds.refl (x : Group) : LanesButPreds x x := fun l => ⟨(x.lane l).pred, rfl⟩

/-- The frame of a wide-side word that has changed its block to `k1` and its group to `x1` and retires. -/
theorem retire_wordDone {s : State} {b g : Nat} {k k1 : Block} {x x1 : Group} (hi : s.Issues b g k x)
    (hk : k.OnlyGroup k1 g) (hg : k1.grp g = some x1)
    (hx : ∃ ls w b1 b2 b3, x1 = { x with lanes := ls, win := w, by1 := b1, by2 := b2, by3 := b3 })
    (hl : LanesButPreds x x1) :
    s.WordDone (s.updBlk b (fun _ => k1)).retire b g k (k1.updGrp g (fun y => y.retire s.cur)) x (x1.retire s.cur) := by
  obtain ⟨hb, hgx⟩ := State.bg_iff.1 hi.found
  obtain ⟨gs, w, hk1⟩ := hk.rest
  have hkid : k1.id = b := by rw [hk1]; exact State.blk_id (k := k) hb
  have hcore : k1.core = k.core := by rw [hk1]
  have hnum : ∀ y : Group, y.num = g → (y.retire s.cur).num = g := fun y hy => by simpa using hy
  have h1 : (s.updBlk b (fun _ => k1)).blk b = some k1 := State.blk_updBlk_const hb hkid
  have h1' : (s.updBlk b (fun _ => k1)).bg b g = some (k1, x1) := State.bg_iff.2 ⟨h1, hg⟩
  have h2 := State.bg_updGrp (fun y => y.retire s.cur) h1' hnum
  have hret : (s.updBlk b (fun _ => k1)).retire =
      if s.cur.pc = s.cur.hdr + 4 * s.cur.n then
        ((s.updBlk b (fun _ => k1)).updGrp b g (fun y => y.retire s.cur)).updQuad k1.core x1.quad
          (fun q => q.clauseEnd (b, g) s.cur.y)
      else (s.updBlk b (fun _ => k1)).updGrp b g (fun y => y.retire s.cur) := by
    unfold State.retire
    simp only [State.updBlk_cur, hi.agent]
    unfold State.retireGroup
    simp only [State.updBlk_cur, h1']
    rfl
  have hother : ∀ n, n ≠ b → ((s.updBlk b (fun _ => k1)).updGrp b g (fun y => y.retire s.cur)).blk n = s.blk n := fun n hn => by
    rw [State.updGrp, State.blk_updBlk_ne _ _ _ _ (by simp) hn, State.blk_updBlk_ne _ _ _ _ (fun _ _ => hkid) hn]
  have hlive : x1.liveLanes = x.liveLanes := by
    unfold Group.liveLanes
    congr 1
    funext l
    obtain ⟨p, e⟩ := hl l
    rw [e]; rfl
  refine ⟨⟨?_, ?_, ?_, ?_⟩, ?_, ⟨?_, ?_⟩, ?_, ⟨?_, ?_⟩⟩
  · rw [hret]; split <;> exact ⟨_, _, rfl⟩
  · intro n hn; rw [hret]; split
    · rw [State.updQuad_blk]; exact hother n hn
    · exact hother n hn
  · intro n hn; rw [hret]; split
    · rw [hcore, State.updQuad_core_ne _ _ _ _ _ hn]; rfl
    · rfl
  · rw [hret]; split
    · rw [hcore, State.updQuad_core]; exact ⟨_, rfl⟩
    · exact ⟨_, rfl⟩
  · rw [hret]; split
    · rw [State.updQuad_bg]; exact h2
    · exact h2
  · rw [hk1]; exact ⟨_, _, rfl⟩
  · intro n hn; rw [Block.grp_updGrp_ne _ _ _ _ hnum hn]; exact hk.groups n hn
  · obtain ⟨_, _, _, _, _, e⟩ := x1.retire_rest s.cur
    obtain ⟨_, _, _, _, _, rfl⟩ := hx
    rw [e]; exact ⟨_, _, _, _, _, _, rfl⟩
  · intro l
    rw [Group.lane_retire _ _ hi.once, hlive]
    obtain ⟨p, e⟩ := hl l
    split
    · obtain ⟨_, _, _, _, e'⟩ := (x1.lane l).advance_rest (decide (s.cur.pc = s.cur.hdr + 4 * s.cur.n))
      rw [e', e]; exact ⟨_, _, _, _, _, _, rfl⟩
    · split <;> (rw [e]; exact ⟨_, _, _, _, _, _, rfl⟩)
  · intro l
    rw [Group.lane_retire _ _ hi.once, hlive]
    obtain ⟨p, e⟩ := hl l
    split
    · simp only [Lane.advance_pc, e]
    · split <;> simp only [e]

end Sys2Proof.Machine
end

