-- ==== Sys2Proof/Laws/Operands.lean ====
section
/-! SUPPORT. What writing a slot, pushing a result and delivering it do to the windows and the latches, and what the frames of the
wide words answer (R13, R27, R28, R82, R116, R117). -/
namespace Sys2Proof.Machine

/-- Two groups whose slots stand at the same words: the same view registers, frame size and depths. -/
def SamePlaces (k k1 : Block) (x x1 : Group) : Prop :=
  k1.trec = k.trec ∧ x1.inf = x.inf ∧ x1.frame = x.frame ∧ ∀ l, (x1.lane l).depth = (x.lane l).depth

/-- Where a slot stands depends on the view registers, the frame size and the lane's depth alone. -/
theorem SamePlaces.slotWord {k k1 : Block} {x x1 : Group} (h : SamePlaces k k1 x x1) (vw : View) (n l : Nat) :
    k1.slotWord x1 vw n l = k.slotWord x vw n l := by
  obtain ⟨h1, h2, h3, h4⟩ := h
  unfold Block.slotWord Group.frameBytes Block.gwinBytes
  rw [h1, h2, h3, h4]

/-- The words of two lanes of a slot stand apart. -/
theorem Block.slotWord_apart (k : Block) (x : Group) (vw : View) (n l m : Nat) (hl : l < 32) (hm : m < 32) (h : l ≠ m) :
    k.slotWord x vw n l + vw.parts ≤ k.slotWord x vw n m ∨ k.slotWord x vw n m + vw.parts ≤ k.slotWord x vw n l := by
  cases vw with
  | v =>
    have key : ∀ l, ∃ q, k.slotWord x .v n l = (x.inf.vv + 4 * l) / 4 + 32 * q := by
      intro l
      unfold Block.slotWord vByte
      dsimp only
      split
      · exact ⟨n, by omega⟩
      · rename_i hf
        have hd : 128 ∣ (x.lane l).depth * x.frameBytes + 128 * n := by
          unfold Group.frameBytes
          exact Nat.dvd_add (Nat.dvd_trans (Nat.dvd_mul_left 128 x.frame) (Nat.dvd_mul_left _ _)) (Nat.dvd_mul_right _ _)
        have hm : 128 ∣ ((x.lane l).depth * x.frameBytes + 128 * n) % (frameCount k.gwinBytes x.inf.vv x.frameBytes * x.frameBytes) := by
          refine (Nat.dvd_mod_iff ?_).2 hd
          unfold Group.frameBytes
          exact Nat.dvd_trans (Nat.dvd_mul_left 128 x.frame) (Nat.dvd_mul_left _ _)
        obtain ⟨q, hq⟩ := hm
        exact ⟨q, by rw [hq]; omega⟩
    obtain ⟨q1, h1⟩ := key l
    obtain ⟨q2, h2⟩ := key m
    rw [h1, h2]
    simp only [View.parts]
    omega
  | w => simp only [Block.slotWord, View.parts]; omega
  | t => simp only [Block.slotWord, View.parts]; omega
  | a => simp only [Block.slotWord, View.parts]; omega

/-- One lane of a slot written: the group and the block window after it. -/
theorem Block.writeSlot_spec {k : Block} {g : Nat} {x : Group} (hx : k.grp g = some x) (vw : View) (n l : Nat) (ws : List RWord) :
    ∃ x1, (k.writeSlot g vw n l ws).grp g = some x1 ∧ k.OnlyGroup (k.writeSlot g vw n l ws) g ∧ (∃ w, x1 = { x with win := w }) ∧
      winOf vw (k.writeSlot g vw n l ws) x1 = tsets RWord.zero (winOf vw k x) (k.slotWord x vw n l) ws ∧
      (if vw = .a then x1.win = x.win else (k.writeSlot g vw n l ws).bwin = k.bwin) := by
  have hf : ∀ t : Sparse RWord → Sparse RWord, ∀ y : Group, y.num = g → ({ y with win := t y.win } : Group).num = g := fun _ _ h => h
  cases vw with
  | a =>
    refine ⟨x, ?_, ⟨?_, ?_⟩, ⟨x.win, rfl⟩, ?_, ?_⟩ <;> simp only [Block.writeSlot, hx, winOf, if_true]
    · exact hx
    · exact ⟨_, _, rfl⟩
    · intro n hn; rfl
  | v =>
    refine ⟨{ x with win := tsets RWord.zero x.win (k.slotWord x .v n l) ws }, ?_, ⟨?_, ?_⟩, ⟨_, rfl⟩, ?_, ?_⟩ <;>
      simp only [Block.writeSlot, hx, winOf]
    · rw [Block.grp_updGrp _ _ _ (hf (fun w => tsets RWord.zero w _ ws)), hx]; rfl
    · exact ⟨_, _, rfl⟩
    · intro m hm; exact Block.grp_updGrp_ne _ _ _ _ (hf (fun w => tsets RWord.zero w _ ws)) hm
    · rw [if_neg (by decide)]; rfl
  | w =>
    refine ⟨{ x with win := tsets RWord.zero x.win (k.slotWord x .w n l) ws }, ?_, ⟨?_, ?_⟩, ⟨_, rfl⟩, ?_, ?_⟩ <;>
      simp only [Block.writeSlot, hx, winOf]
    · rw [Block.grp_updGrp _ _ _ (hf (fun w => tsets RWord.zero w _ ws)), hx]; rfl
    · exact ⟨_, _, rfl⟩
    · intro m hm; exact Block.grp_updGrp_ne _ _ _ _ (hf (fun w => tsets RWord.zero w _ ws)) hm
    · rw [if_neg (by decide)]; rfl
  | t =>
    refine ⟨{ x with win := tsets RWord.zero x.win (k.slotWord x .t n l) ws }, ?_, ⟨?_, ?_⟩, ⟨_, rfl⟩, ?_, ?_⟩ <;>
      simp only [Block.writeSlot, hx, winOf]
    · rw [Block.grp_updGrp _ _ _ (hf (fun w => tsets RWord.zero w _ ws)), hx]; rfl
    · exact ⟨_, _, rfl⟩
    · intro m hm; exact Block.grp_updGrp_ne _ _ _ _ (hf (fun w => tsets RWord.zero w _ ws)) hm
    · rw [if_neg (by decide)]; rfl

theorem Block.OnlyGroup.refl (k : Block) (g : Nat) : k.OnlyGroup k g := ⟨⟨_, _, rfl⟩, fun _ _ => rfl⟩

theorem Block.OnlyGroup.trans {k k1 k2 : Block} {g : Nat} (h : k.OnlyGroup k1 g) (h' : k1.OnlyGroup k2 g) : k.OnlyGroup k2 g := by
  obtain ⟨⟨gs, w, e⟩, hg⟩ := h
  obtain ⟨⟨gs', w', e'⟩, hg'⟩ := h'
  subst e
  exact ⟨⟨gs', w', e'⟩, fun n hn => (hg' n hn).trans (hg n hn)⟩

/-- Lanes of a slot written: each lane holds its words, every other word of the windows is as it was. -/
theorem Block.writeLanes_spec (g : Nat) (vw : View) (n : Nat) (f : Nat → List RWord) (ls : List Nat) :
    ∀ {k : Block} {x : Group}, k.grp g = some x → ls.Nodup → (∀ l ∈ ls, l < 32 ∧ (f l).length = vw.parts) →
    ∃ x1, (k.writeLanes g vw n (ls.map (fun l => (l, f l)))).grp g = some x1 ∧
      k.OnlyGroup (k.writeLanes g vw n (ls.map (fun l => (l, f l)))) g ∧ (∃ w, x1 = { x with win := w }) ∧
      WroteSlot k (k.writeLanes g vw n (ls.map (fun l => (l, f l)))) x x1 vw n ls f := by
  induction ls with
  | nil =>
    intro k x hx _ _
    refine ⟨x, hx, .refl k g, ⟨_, rfl⟩, ⟨by simp, fun _ _ => rfl, ?_⟩⟩
    split <;> rfl
  | cons l ls ih =>
    intro k x hx hd hl
    obtain ⟨y, hy, hk, ⟨w, hyw⟩, hwin, hoth⟩ := Block.writeSlot_spec hx vw n l (f l)
    obtain ⟨x1, hx1, hk1, ⟨w1, e1⟩, hw⟩ := ih hy (List.nodup_cons.1 hd).2 (fun m hm => hl m (by simp [hm]))
    have hp : ∀ m, (k.writeSlot g vw n l (f l)).slotWord y vw n m = k.slotWord x vw n m := fun m => by
      refine SamePlaces.slotWord ⟨?_, ?_, ?_, ?_⟩ vw n m
      · obtain ⟨_, _, e⟩ := hk.rest; rw [e]
      · rw [hyw]
      · rw [hyw]
      · intro j; rw [hyw]; rfl
    refine ⟨x1, hx1, hk.trans hk1, ⟨w1, by rw [e1, hyw]⟩, ⟨?_, ?_, ?_⟩⟩
    · intro m hm
      rcases List.mem_cons.1 hm with rfl | hm
      · have hold : tgets RWord.zero (winOf vw ((k.writeSlot g vw n m (f m)).writeLanes g vw n (ls.map (fun l => (l, f l)))) x1)
            (k.slotWord x vw n m) vw.parts = tgets RWord.zero (winOf vw (k.writeSlot g vw n m (f m)) y) (k.slotWord x vw n m) vw.parts := by
          have gen : ∀ c a, k.slotWord x vw n m ≤ a → a + c ≤ k.slotWord x vw n m + vw.parts →
              tgets RWord.zero (winOf vw ((k.writeSlot g vw n m (f m)).writeLanes g vw n (ls.map (fun l => (l, f l)))) x1) a c
                = tgets RWord.zero (winOf vw (k.writeSlot g vw n m (f m)) y) a c := by
            intro c
            induction c with
            | zero => intros; rfl
            | succ c ihc =>
              intro a h1 h2
              rw [tgets, tgets, ihc (a + 1) (by omega) (by omega), hw.old]
              intro j hj
              have hne : j ≠ m := fun e => (List.nodup_cons.1 hd).1 (e ▸ hj)
              have := k.slotWord_apart x vw n j m (hl j (by simp [hj])).1 (hl m (by simp)).1 hne
              rw [hp]; omega
          exact gen _ _ (Nat.le_refl _) (Nat.le_refl _)
        have hlen := (hl m (by simp)).2
        rw [show (k.writeLanes g vw n ((m :: ls).map (fun l => (l, f l)))) =
          (k.writeSlot g vw n m (f m)).writeLanes g vw n (ls.map (fun l => (l, f l))) from rfl, hold, hwin, ← hlen,
          tgets_tsets_same]
      · rw [← hp m]; exact hw.new m hm
    · intro a ha
      have h1 := hw.old a (fun j hj => by rw [hp]; exact ha j (by simp [hj]))
      rw [show (k.writeLanes g vw n ((l :: ls).map (fun l => (l, f l)))) =
          (k.writeSlot g vw n l (f l)).writeLanes g vw n (ls.map (fun l => (l, f l))) from rfl, h1, hwin, tget_tsets, if_neg]
      have := ha l (by simp)
      rw [(hl l (by simp)).2]; omega
    · have := hw.other
      split
      · rename_i hv; rw [if_pos hv] at this hoth; rw [this, hoth]
      · rename_i hv; rw [if_neg hv] at this hoth
        exact this.trans hoth

/-- The first latch after a push. -/
theorem push_by1 (g : Group) (f : Nat → List RWord) (ls : List Nat) (l : Nat) :
    tget RWord.zero (g.push (ls.map (fun l => (l, f l)))).by1 l = if l ∈ ls then (f l).headD RWord.zero else RWord.zero := by
  have gen : ∀ (ls : List Nat) (t : Sparse RWord),
      tget RWord.zero ((ls.map (fun l => (l, f l))).foldl (fun t r => tset RWord.zero t r.1 (r.2.headD RWord.zero)) t) l
        = if l ∈ ls then (f l).headD RWord.zero else tget RWord.zero t l := by
    intro ls
    induction ls with
    | nil => intro t; rfl
    | cons m ls ih =>
      intro t
      rw [List.map_cons, List.foldl_cons, ih, tget_tset]
      by_cases h1 : l ∈ ls
      · simp [h1]
      · by_cases h2 : l = m
        · subst h2; simp
        · simp [h1, h2]
  exact gen ls []

/-- The helper lanes of a word: distinct, below 32, and none of them live. -/
theorem helpers_spec (x : Group) (act : List Nat) : (x.helpers act).Nodup ∧ ∀ l ∈ x.helpers act, l < 32 ∧ (x.lane l).st = .free := by
  refine ⟨(upFrom_nodup 0 32).filter _, fun l hl => ?_⟩
  obtain ⟨h1, h2⟩ := List.mem_filter.1 hl
  have := (upFrom_mem 0 32 l).1 h1
  simp at h2
  exact ⟨by omega, h2.1⟩

/-- The lanes that an issued word writes are distinct and below 32. -/
theorem State.Issues.written {s : State} {b g : Nat} {k : Block} {x : Group} (hi : s.Issues b g k x) :
    (x.written s.cur.act).Nodup ∧ ∀ l ∈ x.written s.cur.act, l < 32 := by
  obtain ⟨h1, h2⟩ := helpers_spec x s.cur.act
  constructor
  · refine List.nodup_append.2 ⟨hi.actOnce, h1, ?_⟩
    intro a ha c hc e
    subst e
    have := (hi.live a (hi.sub a ha)).2
    rw [(h2 a hc).2] at this
    cases this
  · intro l hl
    rcases List.mem_append.1 hl with hl | hl
    · exact (hi.live l (hi.sub l hl)).1
    · exact (h2 l hl).1

/-- A class W word that writes the lanes `ls` of a slot (none with T = 1) and pushes the lanes `ms`, where its slots lie inside
their windows and it finds no fault (R13, R27, R28, R116). -/
theorem pushWord_next {s : State} {b g : Nat} {k : Block} {x : Group} (hi : s.Issues b g k x) (vw : View) (t d : Nat)
    (slots : List (View × Nat)) (f : Wx → Block ⊕ WErr) (ls : List Nat) (r : Nat → List RWord) (ms : List Nat) (p : Nat → List RWord)
    (hs : SlotsIn k x slots)
    (hf : f ⟨k, x, s.cur.act, x.helpers s.cur.act⟩ =
      .inl ((if t = 1 then k else k.writeLanes x.num vw d (ls.map (fun l => (l, r l)))).updGrp x.num
        (fun y => y.push (ms.map (fun l => (l, p l))))))
    (hd : ls.Nodup) (hr : ∀ l ∈ ls, l < 32 ∧ (r l).length = vw.parts) :
    ∃ t' k' x', wideWord slots f s = .next t' ∧ s.WordDone t' b g k k' x x' ∧
      (if t = 1 then SameWindows k k' x x' else WroteSlot k k' x x' vw d ls r) ∧ s.PushedLatches x x' ms p ∧ x.SamePreds x' := by
  obtain ⟨hb, hg⟩ := State.bg_iff.1 hi.found
  have hnum := Block.grp_num hg
  let X : Wx := ⟨k, x, s.cur.act, x.helpers s.cur.act⟩
  let rs := ls.map (fun l => (l, r l))
  let ps := ms.map (fun l => (l, p l))
  let kw := if t = 1 then k else k.writeLanes x.num vw d rs
  have hok : X.slotsOk slots = true := by
    unfold Wx.slotsOk
    rw [List.all_eq_true]
    intro q hq
    by_cases h : 125 ≤ q.2
    · simp [h]
    · simp [hs q hq (by omega), X]
  have hn : wideWord slots f s = .next (s.updBlk b (fun _ => kw.updGrp g (fun z => z.push ps))).retire := by
    unfold wideWord
    simp only [hi.agent, hi.found, hi.some_, if_false]
    rw [if_pos hok, hf]
    simp only [kw, ps, hnum, rs]
  -- the block with the slot written
  have hkw : ∃ y, kw.grp g = some y ∧ k.OnlyGroup kw g ∧ (∃ w, y = { x with win := w }) ∧
      (if t = 1 then SameWindows k kw x y else WroteSlot k kw x y vw d ls r) := by
    by_cases ht : t = 1
    · refine ⟨x, ?_, ?_, ⟨_, rfl⟩, ?_⟩ <;> simp only [kw, if_pos ht]
      · exact hg
      · exact .refl k g
      · exact ⟨rfl, rfl⟩
    · have := Block.writeLanes_spec g vw d r ls hg hd hr
      obtain ⟨y, h1, h2, h3, h4⟩ := this
      refine ⟨y, ?_, ?_, h3, ?_⟩ <;> simp only [kw, if_neg ht, hnum]
      · exact h1
      · exact h2
      · exact h4
  obtain ⟨y, hy, hko, ⟨w, hyw⟩, hw⟩ := hkw
  have hpn : ∀ z : Group, z.num = g → (z.push ps).num = g := fun _ h => h
  let k1 := kw.updGrp g (fun z => z.push ps)
  have hk1 : k.OnlyGroup k1 g := hko.trans ⟨⟨_, _, rfl⟩, fun n hn => Block.grp_updGrp_ne _ _ _ _ hpn hn⟩
  have hg1 : k1.grp g = some (y.push ps) := by
    rw [Block.grp_updGrp _ _ _ hpn, hy]; rfl
  have hx1 : ∃ ls w b1 b2 b3, y.push ps = { x with lanes := ls, win := w, by1 := b1, by2 := b2, by3 := b3 } := by
    rw [hyw]; exact ⟨_, _, _, _, _, rfl⟩
  have hlp : LanesButPreds x (y.push ps) := fun l => ⟨(x.lane l).pred, by rw [hyw]; rfl⟩
  have hdone := retire_wordDone hi hk1 hg1 hx1 hlp
  refine ⟨_, _, _, hn, hdone, ?_, ?_, ?_⟩
  · have hwin : ((y.push ps).retire s.cur).win = y.win := by rw [Group.retire_win]; rfl
    have hbw : (k1.updGrp g (fun z => z.retire s.cur)).bwin = kw.bwin := rfl
    have hwo : ∀ vw, winOf vw (k1.updGrp g (fun z => z.retire s.cur)) ((y.push ps).retire s.cur) = winOf vw kw y := by
      intro vw; cases vw <;> simp only [winOf, hwin, hbw]
    by_cases ht : t = 1
    · rw [if_pos ht] at hw ⊢
      exact ⟨hwin.trans hw.1, hbw.trans hw.2⟩
    · rw [if_neg ht] at hw ⊢
      refine ⟨fun l hl => by rw [hwo]; exact hw.new l hl, fun a ha => by rw [hwo]; exact hw.old a ha, ?_⟩
      have := hw.other
      split
      · rename_i hv; rw [if_pos hv] at this; exact hwin.trans this
      · rename_i hv; rw [if_neg hv] at this; exact hbw.trans this
  · obtain ⟨h1, h2⟩ := (y.push ps).retire_latches s.cur
    refine ⟨h1, fun h => ?_⟩
    obtain ⟨e1, e2, e3⟩ := h2 h
    refine ⟨fun l => by rw [e1]; exact push_by1 y p _ l, ?_, ?_⟩
    · rw [e2]; show y.by1 = x.by1; rw [hyw]
    · rw [e3]; show y.by2 = x.by2; rw [hyw]
  · intro l
    rw [Group.lane_retire _ _ hi.once]
    have hl : (y.push ps).lane l = x.lane l := by rw [hyw]; rfl
    rw [hl]
    split
    · obtain ⟨_, _, _, _, e⟩ := (x.lane l).advance_rest (decide (s.cur.pc = s.cur.hdr + 4 * s.cur.n))
      rw [e]
    · split <;> rfl

/-- A class W word that writes a register slot, where its slots lie inside their windows and it finds no fault: it delivers its
results and retires (R13, R27, R28, R82, R116). -/
theorem wideReg_next {s : State} {b g : Nat} {k : Block} {x : Group} (hi : s.Issues b g k x) (vw : View) (t d : Nat)
    (srcs : List Nat) (f : Wx → List (Nat × List RWord) ⊕ WErr) (r : Nat → List RWord)
    (hs : SlotsIn k x ((if t = 1 then [] else [(vw, d)]) ++ srcs.map (fun n => (vw, n))))
    (hf : f ⟨k, x, s.cur.act, x.helpers s.cur.act⟩ = .inl ((x.written s.cur.act).map (fun l => (l, r l))))
    (hr : ∀ l ∈ x.written s.cur.act, (r l).length = vw.parts) :
    ∃ t' k' x', wideReg vw t d srcs f s = .next t' ∧ s.WordDone t' b g k k' x x' ∧
      s.Delivered k k' x x' vw t d (x.written s.cur.act) r := by
  have hnum := Block.grp_num (State.bg_iff.1 hi.found).2
  obtain ⟨t', k', x', h1, h2, h3, h4, h5⟩ := pushWord_next hi vw t d _ (fun x => match f x with
    | .inr e => .inr e
    | .inl rs => .inl (x.deliver vw t d rs)) (x.written s.cur.act) r (x.written s.cur.act) r hs (by rw [hf]; rfl) hi.written.1
    (fun l hl => ⟨hi.written.2 l hl, hr l hl⟩)
  exact ⟨t', k', x', h1, h2, h3, h4, h5⟩

/-- A source lane has the words of its view. -/
theorem src_length (k : Block) (x : Group) (vw : View) (n l : Nat) : (k.src x vw n l).length = vw.parts := by
  unfold Block.src
  split
  · exact tgets_length _ _ _ _
  · cases vw <;> rfl

@[simp] theorem badOf_length (ws : List RWord) : (badOf ws).length = ws.length := by simp [badOf]

/-- Words that all match have no bad flag. -/
theorem badOf_good {ws : List RWord} (h : goodOf ws = true) : badOf ws = copies ws.length false := by
  unfold badOf goodOf copies at *
  induction ws with
  | nil => rfl
  | cons w ws ih =>
    rw [List.all_cons, Bool.and_eq_true] at h
    rw [List.map_cons, ih h.2, h.1, List.length_cons, List.replicate_succ]; rfl

theorem wordsFor_length (v : Nat) (bs : List Bool) : (wordsFor v bs).length = bs.length := by
  induction bs generalizing v with
  | nil => rfl
  | cons b bs ih => simp [wordsFor, ih]

theorem freshWords_succ (n v : Nat) : freshWords (n + 1) v = fresh (BitVec.ofNat 32 v) :: freshWords n (v / 2 ^ 32) := by
  have h : ∀ m a, (upFrom (a + 1) m).map (fun i => fresh (BitVec.ofNat 32 (v / 2 ^ (32 * i)))) =
      (upFrom a m).map (fun i => fresh (BitVec.ofNat 32 (v / 2 ^ 32 / 2 ^ (32 * i)))) := by
    intro m
    induction m with
    | zero => intro a; rfl
    | succ m ih =>
      intro a
      simp only [upFrom, List.map_cons, ih]
      rw [Nat.div_div_eq_div_mul, ← Nat.pow_add, show 32 + 32 * a = 32 * (a + 1) by omega]
  simp only [freshWords, upFrom, List.map_cons, h]
  simp

theorem computed_val (g : Bool) (v : Nat) : (computed g v).val = BitVec.ofNat 32 v := by
  unfold computed; split <;> rfl

theorem ofNat_mod32 (v : Nat) : BitVec.ofNat 32 (v % 2 ^ 32) = BitVec.ofNat 32 v := by
  apply BitVec.eq_of_toNat_eq; simp

/-- The numbers in computed words do not depend on the flags. -/
theorem wordsFor_vals (v : Nat) (bs : List Bool) :
    (wordsFor v bs).map (fun w => w.val) = (freshWords bs.length v).map (fun w => w.val) := by
  induction bs generalizing v with
  | nil => rfl
  | cons b bs ih =>
    rw [List.length_cons, freshWords_succ, wordsFor, List.map_cons, List.map_cons, ih, computed_val, ofNat_mod32]
    rfl

/-- Words without a bad flag have fresh residues. -/
theorem wordsFor_clean (v n : Nat) : wordsFor v (copies n false) = freshWords n v := by
  induction n generalizing v with
  | zero => rfl
  | succ n ih =>
    show wordsFor v (false :: copies n false) = _
    rw [freshWords_succ, wordsFor, ih]
    have := ofNat_mod32 v
    simp only [computed, Bool.not_false, if_true, this]

theorem orZip_length (a b : List Bool) : (orZip a b).length = a.length := by
  induction a generalizing b with
  | nil => cases b <;> rfl
  | cons x a ih => cases b <;> simp [orZip, ih]

theorem orUp_length (acc : Bool) (a : List Bool) : (orUp acc a).length = a.length := by
  induction a generalizing acc with
  | nil => rfl
  | cons x a ih => simp [orUp, ih]

theorem orZip_clean (n m : Nat) : orZip (copies n false) (copies m false) = copies n false := by
  induction n generalizing m with
  | zero => cases m <;> rfl
  | succ n ih =>
    cases m with
    | zero => rfl
    | succ m => show (false || false) :: orZip (copies n false) (copies m false) = _; rw [ih]; rfl

theorem orUp_clean (n : Nat) : orUp false (copies n false) = copies n false := by
  induction n with
  | zero => rfl
  | succ n ih => show (false || false) :: orUp (false || false) (copies n false) = _; simp only [Bool.or_self]; rw [ih]; rfl

theorem any_clean (n : Nat) : (copies n false).any id = false := by
  induction n with
  | zero => rfl
  | succ n ih => show (id false || (copies n false).any id) = false; rw [ih]; rfl

theorem clean_eq (vw : View) : clean vw = copies vw.parts false := rfl

theorem depend_length (dep : Dep) (a b d : List Bool) (h : 0 < a.length) : (depend dep a b d).length = a.length := by
  cases dep <;> simp [depend, orZip_length, orUp_length, copies]
  omega

theorem map_or_clean (n : Nat) : (copies n false).map (fun x => x || false) = copies n false := by
  simp [copies]

theorem rev_clean (n : Nat) : (copies n false).reverse = copies n false := by simp [copies]

theorem headD_clean (n : Nat) : (copies n false).headD false = false := by cases n <;> rfl

theorem take_clean (n m : Nat) : (copies n false).take m = copies (min m n) false := by simp [copies]

/-- With good operands every result word is good (R84). -/
theorem depend_clean (dep : Dep) (n m j : Nat) (h : 0 < n) :
    depend dep (copies n false) (copies m false) (copies j false) = copies n false := by
  have hl : (copies n false).length = n := by simp [copies]
  have h1 : false :: copies (n - 1) false = copies n false := by
    cases n with
    | zero => omega
    | succ n => rfl
  cases dep <;> simp only [depend, any_clean, orZip_clean, orUp_clean, hl, Bool.or_self, rev_clean, headD_clean, map_or_clean,
    take_clean, h1]

theorem parts_pos (vw : View) : 0 < vw.parts := by cases vw <;> decide

/-- The frame of the lane-local words: what they deliver and what they leave. -/
theorem lane1_next {s : State} {b g : Nat} {k : Block} {x : Group} (hi : s.Issues b g k x) (vw : View) (dep : Dep) (t d a : Nat)
    (f : Nat → Nat) (hs : SlotsIn k x ((if t = 1 then [] else [(vw, d)]) ++ [a].map (fun n => (vw, n)))) :
    ∃ t' k' x' res, lane1 vw dep t d a f s = .next t' ∧ s.WordDone t' b g k k' x x' ∧
      s.Delivered k k' x x' vw t d (x.written s.cur.act) res ∧ ∀ l ∈ x.written s.cur.act,
        CarriesVal vw (res l) (f (valOf (k.src x vw a l))) (goodOf (k.src x vw a l) = true) := by
  have hlen : ∀ l, (depend dep (badOf (k.src x vw a l)) (clean vw) (clean vw)).length = vw.parts := fun l => by
    rw [depend_length _ _ _ _ (by simp [src_length, parts_pos]), badOf_length, src_length]
  obtain ⟨t', k', x', h1, h2, h3⟩ := wideReg_next hi vw t d [a]
    (fun x => .inl (x.writers.map (fun l =>
      let p := x.src vw a l
      (l, wordsFor (f (valOf p)) (depend dep (badOf p) (clean vw) (clean vw))))))
    (fun l => wordsFor (f (valOf (k.src x vw a l))) (depend dep (badOf (k.src x vw a l)) (clean vw) (clean vw))) hs rfl
    (fun l _ => by rw [wordsFor_length, hlen])
  refine ⟨t', k', x', _, h1, h2, h3, fun l _ => ⟨by rw [wordsFor_vals, hlen], fun hg => ?_⟩⟩
  rw [badOf_good hg, src_length, clean_eq, depend_clean _ _ _ _ (parts_pos vw), wordsFor_clean]

theorem lane2_next {s : State} {b g : Nat} {k : Block} {x : Group} (hi : s.Issues b g k x) (vw : View) (dep : Dep) (t d a c : Nat)
    (f : Nat → Nat → Nat) (hs : SlotsIn k x ((if t = 1 then [] else [(vw, d)]) ++ [a, c].map (fun n => (vw, n)))) :
    ∃ t' k' x' res, lane2 vw dep t d a c f s = .next t' ∧ s.WordDone t' b g k k' x x' ∧
      s.Delivered k k' x x' vw t d (x.written s.cur.act) res ∧ ∀ l ∈ x.written s.cur.act,
        CarriesVal vw (res l) (f (valOf (k.src x vw a l)) (valOf (k.src x vw c l)))
          (goodOf (k.src x vw a l) = true ∧ goodOf (k.src x vw c l) = true) := by
  have hlen : ∀ l, (depend dep (badOf (k.src x vw a l)) (badOf (k.src x vw c l)) (clean vw)).length = vw.parts := fun l => by
    rw [depend_length _ _ _ _ (by simp [src_length, parts_pos]), badOf_length, src_length]
  obtain ⟨t', k', x', h1, h2, h3⟩ := wideReg_next hi vw t d [a, c]
    (fun x => .inl (x.writers.map (fun l =>
      let p := x.src vw a l
      let q := x.src vw c l
      (l, wordsFor (f (valOf p) (valOf q)) (depend dep (badOf p) (badOf q) (clean vw))))))
    (fun l => wordsFor (f (valOf (k.src x vw a l)) (valOf (k.src x vw c l)))
      (depend dep (badOf (k.src x vw a l)) (badOf (k.src x vw c l)) (clean vw))) hs rfl
    (fun l _ => by rw [wordsFor_length, hlen])
  refine ⟨t', k', x', _, h1, h2, h3, fun l _ => ⟨by rw [wordsFor_vals, hlen], fun hg => ?_⟩⟩
  rw [badOf_good hg.1, badOf_good hg.2, src_length, src_length, clean_eq, depend_clean _ _ _ _ (parts_pos vw), wordsFor_clean]

theorem lane3_next {s : State} {b g : Nat} {k : Block} {x : Group} (hi : s.Issues b g k x) (vw : View) (dep : Dep) (t d a c : Nat)
    (f : Nat → Nat → Nat → Nat)
    (hs : SlotsIn k x ((if t = 1 then [] else [(vw, d)]) ++ [a, c, dSrc t d].map (fun n => (vw, n)))) :
    ∃ t' k' x' res, lane3 vw dep t d a c f s = .next t' ∧ s.WordDone t' b g k k' x x' ∧
      s.Delivered k k' x x' vw t d (x.written s.cur.act) res ∧ ∀ l ∈ x.written s.cur.act,
        CarriesVal vw (res l) (f (valOf (k.src x vw a l)) (valOf (k.src x vw c l)) (valOf (k.src x vw (dSrc t d) l)))
          (goodOf (k.src x vw a l) = true ∧ goodOf (k.src x vw c l) = true ∧ goodOf (k.src x vw (dSrc t d) l) = true) := by
  have hlen : ∀ l, (depend dep (badOf (k.src x vw a l)) (badOf (k.src x vw c l)) (badOf (k.src x vw (dSrc t d) l))).length = vw.parts :=
    fun l => by rw [depend_length _ _ _ _ (by simp [src_length, parts_pos]), badOf_length, src_length]
  obtain ⟨t', k', x', h1, h2, h3⟩ := wideReg_next hi vw t d [a, c, dSrc t d]
    (fun x => .inl (x.writers.map (fun l =>
      let p := x.src vw a l
      let q := x.src vw c l
      let r := x.src vw (dSrc t d) l
      (l, wordsFor (f (valOf p) (valOf q) (valOf r)) (depend dep (badOf p) (badOf q) (badOf r))))))
    (fun l => wordsFor (f (valOf (k.src x vw a l)) (valOf (k.src x vw c l)) (valOf (k.src x vw (dSrc t d) l)))
      (depend dep (badOf (k.src x vw a l)) (badOf (k.src x vw c l)) (badOf (k.src x vw (dSrc t d) l)))) hs rfl
    (fun l _ => by rw [wordsFor_length, hlen])
  refine ⟨t', k', x', _, h1, h2, h3, fun l _ => ⟨by rw [wordsFor_vals, hlen], fun hg => ?_⟩⟩
  rw [badOf_good hg.1, badOf_good hg.2.1, badOf_good hg.2.2, src_length, src_length, src_length,
    depend_clean _ _ _ _ (parts_pos vw), wordsFor_clean]

/-- A part-wise word of one operand. -/
theorem part1_next {s : State} {b g : Nat} {k : Block} {x : Group} (hi : s.Issues b g k x) (vw : View) (t d a : Nat)
    (f : Nat → Nat) (hs : SlotsIn k x ((if t = 1 then [] else [(vw, d)]) ++ [a].map (fun n => (vw, n)))) :
    ∃ t' k' x', part1 vw t d a f s = .next t' ∧ s.WordDone t' b g k k' x x' ∧
      s.Delivered k k' x x' vw t d (x.written s.cur.act)
        (fun l => (k.src x vw a l).map (fun w => computed (rok w) (f w.val.toNat))) :=
  wideReg_next hi vw t d [a]
    (fun x => .inl (x.writers.map (fun l => (l, (x.src vw a l).map (fun w => computed (rok w) (f w.val.toNat))))))
    _ hs rfl (fun l _ => by rw [List.length_map, src_length])

theorem part2_next {s : State} {b g : Nat} {k : Block} {x : Group} (hi : s.Issues b g k x) (vw : View) (t d a c : Nat)
    (f : Nat → Nat → Nat) (hs : SlotsIn k x ((if t = 1 then [] else [(vw, d)]) ++ [a, c].map (fun n => (vw, n)))) :
    ∃ t' k' x', part2 vw t d a c f s = .next t' ∧ s.WordDone t' b g k k' x x' ∧
      s.Delivered k k' x x' vw t d (x.written s.cur.act)
        (fun l => ((k.src x vw a l).zip (k.src x vw c l)).map (fun p =>
          computed (rok p.1 && rok p.2) (f p.1.val.toNat p.2.val.toNat))) := by
  unfold part2
  refine wideReg_next hi vw t d [a, c] _ _ hs ?_ ?_
  · rfl
  · intro l _; rw [List.length_map, List.length_zip, src_length, src_length, Nat.min_self]

theorem part3_next {s : State} {b g : Nat} {k : Block} {x : Group} (hi : s.Issues b g k x) (vw : View) (t d a c : Nat)
    (f : Nat → Nat → Nat → Nat)
    (hs : SlotsIn k x ((if t = 1 then [] else [(vw, d)]) ++ [a, c, dSrc t d].map (fun n => (vw, n)))) :
    ∃ t' k' x', part3 vw t d a c f s = .next t' ∧ s.WordDone t' b g k k' x x' ∧
      s.Delivered k k' x x' vw t d (x.written s.cur.act)
        (fun l => (((k.src x vw a l).zip (k.src x vw c l)).zip (k.src x vw (dSrc t d) l)).map (fun p =>
          computed (rok p.1.1 && rok p.1.2 && rok p.2) (f p.1.1.val.toNat p.1.2.val.toNat p.2.val.toNat))) := by
  unfold part3
  refine wideReg_next hi vw t d [a, c, dSrc t d] _ _ hs ?_ ?_
  · rfl
  · intro l _; rw [List.length_map, List.length_zip, List.length_zip, src_length, src_length, src_length, Nat.min_self, Nat.min_self]

/-- Reading a predicate bit after writing one (R26, R57). -/
theorem Lane.p_setP (x : Lane) (p n : Nat) (v : Bool) (hn : n < 16) :
    (x.setP p v).p n = if n = p ∧ n ≠ 0 then v else x.p n := by
  unfold Lane.setP Lane.p
  by_cases h0 : n = 0
  · simp [h0]
  · by_cases hp : p = 0
    · subst hp; simp [h0]
    · rw [if_neg hp]
      have hb : (BitVec.ofNat 16 (2 ^ p)).getLsbD n = decide (n = p) := by
        rw [BitVec.getLsbD_ofNat, Nat.testBit_two_pow]
        simp only [hn, decide_true, Bool.true_and]
        by_cases e : p = n
        · simp [e]
        · simp [e, Ne.symm e]
      cases v <;> by_cases e : n = p <;> simp_all

theorem setPreds_lane (x : Group) (p : Nat) (f : Nat → Bool) (ls : List Nat) (l : Nat) (hd : ls.Nodup) :
    (((ls.map (fun l => (l, f l))).foldl (fun y r => y.setLane r.1 ((y.lane r.1).setP p r.2)) x).lane l)
      = if l ∈ ls then (x.lane l).setP p (f l) else x.lane l := by
  induction ls generalizing x with
  | nil => rfl
  | cons m ls ih =>
    obtain ⟨h1, h2⟩ := List.nodup_cons.1 hd
    rw [List.map_cons, List.foldl_cons, ih _ h2, Group.lane_setLane]
    by_cases e : l = m
    · subst e; simp [h1]
    · simp [e]

theorem setPreds_rest (x : Group) (p : Nat) (rs : List (Nat × Bool)) :
    ∃ ls, rs.foldl (fun y r => y.setLane r.1 ((y.lane r.1).setP p r.2)) x = { x with lanes := ls } := by
  induction rs generalizing x with
  | nil => exact ⟨x.lanes, rfl⟩
  | cons r rs ih =>
    obtain ⟨ls, e⟩ := ih (x.setLane r.1 ((x.lane r.1).setP p r.2))
    exact ⟨ls, by rw [List.foldl_cons, e]; rfl⟩

theorem Lane.setP_rest (x : Lane) (p : Nat) (v : Bool) : ∃ q, x.setP p v = { x with pred := q } := by
  unfold Lane.setP; split
  · exact ⟨x.pred, rfl⟩
  · exact ⟨_, rfl⟩

/-- A word that writes a predicate, where its slots lie inside their windows and it finds no fault. -/
theorem widePred_next {s : State} {b g : Nat} {k : Block} {x : Group} (hi : s.Issues b g k x) (p : Nat) (slots : List (View × Nat))
    (f : Wx → List (Nat × Bool) ⊕ WErr) (r : Nat → Bool) (hs : SlotsIn k x slots)
    (hf : f ⟨k, x, s.cur.act, x.helpers s.cur.act⟩ = .inl ((x.written s.cur.act).map (fun l => (l, r l)))) :
    ∃ t' k' x', widePred p slots f s = .next t' ∧ s.WordDone t' b g k k' x x' ∧
      s.WrotePred k k' x x' p (x.written s.cur.act) r := by
  obtain ⟨hb, hg⟩ := State.bg_iff.1 hi.found
  have hnum := Block.grp_num hg
  let X : Wx := ⟨k, x, s.cur.act, x.helpers s.cur.act⟩
  let rs := (x.written s.cur.act).map (fun l => (l, r l))
  have hok : X.slotsOk slots = true := by
    unfold Wx.slotsOk
    rw [List.all_eq_true]
    intro q hq
    by_cases h : 125 ≤ q.2
    · simp [h]
    · simp [hs q hq (by omega), X]
  let put : Group → Group := fun x => rs.foldl (fun y r => y.setLane r.1 ((y.lane r.1).setP p r.2)) x
  have hput : ∀ y : Group, y.num = g → (put y).num = g := fun y hy => by
    obtain ⟨ls, e⟩ := setPreds_rest y p rs
    simp only [put, e, hy]
  have hn : widePred p slots f s = .next (s.updBlk b (fun _ => k.updGrp g put)).retire := by
    unfold widePred wideWord
    simp only [hi.agent, hi.found, hi.some_, if_false]
    rw [if_pos hok, hf]
    simp only [Block.setPreds, hnum, put, rs]
  have hk1 : k.OnlyGroup (k.updGrp g put) g := ⟨⟨_, _, rfl⟩, fun n hn => Block.grp_updGrp_ne _ _ _ _ hput hn⟩
  have hg1 : (k.updGrp g put).grp g = some (put x) := by rw [Block.grp_updGrp _ _ _ hput, hg]; rfl
  obtain ⟨ls, hx1⟩ := setPreds_rest x p rs
  have hlane : ∀ l, (put x).lane l = if l ∈ x.written s.cur.act then (x.lane l).setP p (r l) else x.lane l := fun l =>
    setPreds_lane x p r _ l hi.written.1
  have hlp : LanesButPreds x (put x) := fun l => by
    rw [hlane]; split
    · exact Lane.setP_rest _ _ _
    · exact ⟨_, rfl⟩
  have hdone := retire_wordDone hi hk1 hg1 ⟨ls, _, _, _, _, hx1⟩ hlp
  refine ⟨_, _, _, hn, hdone, ⟨?_, ?_, ?_⟩⟩
  · intro l n h16
    have e : ((put x).retire s.cur |>.lane l).pred = ((put x).lane l).pred := by
      rw [Group.lane_retire _ _ hi.once]
      split
      · obtain ⟨_, _, _, _, e⟩ := ((put x).lane l).advance_rest (decide (s.cur.pc = s.cur.hdr + 4 * s.cur.n))
        rw [e]
      · split <;> rfl
    have e2 : ((put x).retire s.cur |>.lane l).p n = ((put x).lane l).p n := by unfold Lane.p; rw [e]
    rw [e2, hlane]
    by_cases h1 : l ∈ x.written s.cur.act
    · simp only [h1, if_true, true_and]; exact Lane.p_setP _ _ _ _ h16
    · simp [h1]
  · refine ⟨?_, rfl⟩
    rw [Group.retire_win]; show (put x).win = x.win; simp only [put, hx1]
  · obtain ⟨h1, h2⟩ := (put x).retire_latches s.cur
    refine ⟨h1, fun h => ?_⟩
    obtain ⟨e1, e2, e3⟩ := h2 h
    simp only [put, hx1] at e1 e2 e3 ⊢
    exact ⟨e1, e2, e3⟩

end Sys2Proof.Machine
end

