-- ==== Sys2Proof/Laws/Scalar.lean ====
section
/-! SUPPORT. What a class S word does when it retires with new scalar registers or predicates (R125, R126, R129, R297). -/
namespace Sys2Proof.Machine

theorem shalves_sput (r : SRegs) (d n : Nat) (ws : List RWord) (h : ws.length = 2) :
    shalves (sput r d ws) n = if n = d then ws else shalves r n := by
  unfold shalves sput
  split
  · rename_i e; subst e; rw [← h, tgets_tsets_same]
  · rename_i e; exact tgets_tsets_disjoint _ _ _ _ _ _ (by omega)

theorem sput_wrote (r : SRegs) (d : Nat) (ws : List RWord) (h : ws.length = 2) : WroteScalar r (sput r d ws) d ws :=
  fun n => shalves_sput r d n ws h

theorem sfresh_wrote (r : SRegs) (d v : Nat) : WroteScalar r (sfresh r d v) d (freshWords 2 v) := by
  have : wordsFor v [false, false] = freshWords 2 v := wordsFor_clean v 2
  rw [← this]
  exact sput_wrote r d _ (by rw [this]; rfl)

/-- A count toward R63 changes nothing else of a lane. -/
theorem Group.tick_lane (x : Group) (l : Nat) : ∃ n, x.tick.lane l = { x.lane l with starve := n } := by
  unfold Group.tick
  dsimp only
  rw [Group.lane_mapLanes _ _ _ _ (liveLanes_nodup x)]
  split
  · exact ⟨_, rfl⟩
  · exact ⟨_, rfl⟩

@[simp] theorem Group.retireScalar_num (x : Group) : x.retireScalar.num = x.num := by
  unfold Group.retireScalar Group.tick
  split
  · rfl
  · dsimp only
    split <;> exact Group.mapLanes_num _ _ _

/-- What the scalar side's retirement does to its group. -/
theorem Group.retireScalar_eq (x : Group) (r : ScRun) (h : x.sc = some r) :
    ∃ ls sc sa, x.retireScalar = { x with lanes := ls, sc := sc, sAhead := sa, swait := none, bkSkip := false } ∧
      (∀ l, ∃ n, x.retireScalar.lane l = { x.lane l with starve := n }) ∧
      if r.idx + 1 < r.n then sc = some { r with idx := r.idx + 1 } ∧ sa = x.sAhead else sc = none ∧ sa = insNat r.hdr x.sAhead := by
  have e : x.tick = { x with lanes := x.tick.lanes } := Group.mapLanes_rest _ _ _
  have hl := x.tick_lane
  unfold Group.retireScalar
  rw [h]
  dsimp only
  split
  · refine ⟨x.tick.lanes, _, x.sAhead, ?_, hl, rfl, rfl⟩
    rw [e]
  · refine ⟨x.tick.lanes, _, _, ?_, hl, rfl, rfl⟩
    rw [e]

/-- A class S word that replaces scalar registers retires. -/
theorem setSregs_retire {s : State} (hi : s.ScalarIssues) (r : SRegs) :
    s.ScalarDone (s.setSregs r).retire ∧ (s.setSregs r).retire.sregs = some r ∧ (s.setSregs r).retire.spreds = s.spreds := by
  obtain ⟨_, hi⟩ := hi
  cases ha : s.cur.ag with
  | scalar b g =>
    rw [ha] at hi
    obtain ⟨k, x, q, hf, hq⟩ := hi
    obtain ⟨hb, hg⟩ := State.bg_iff.1 hf
    let F : Group → Group := Group.retireScalar
    have hF : ∀ y : Group, (F y).num = y.num := Group.retireScalar_num
    have e : (s.setSregs r).retire = (s.updGrp b g (fun x => { x with sregs := r })).updGrp b g F := by
      unfold State.setSregs
      simp only [ha]
      unfold State.retire
      simp only [State.updGrp_cur, ha]
      rfl
    have h1 := State.bg_updGrp (fun x => ({ x with sregs := r } : Group)) hf (fun y hy => hy)
    have h2 := State.bg_updGrp F h1 (fun y hy => by rw [hF, hy])
    obtain ⟨ls, sc, sa, e1, el, e2⟩ := Group.retireScalar_eq { x with sregs := r } q hq
    have hcur : (s.setSregs r).retire.cur = s.cur := by rw [e]; rfl
    refine ⟨?_, ?_, ?_⟩
    · unfold State.ScalarDone
      rw [ha]
      have h2' := h2
      rw [← e] at h2'
      refine ⟨k, x, _, _, hf, ⟨?_, ?_, h2', ?_, ?_, ?_, el, ?_⟩⟩
      · rw [e]; exact ⟨_, rfl⟩
      · intro n hn
        rw [e, State.updGrp, State.blk_updBlk_ne _ _ _ _ (by simp) hn, State.updGrp, State.blk_updBlk_ne _ _ _ _ (by simp) hn]
      · exact ⟨_, rfl⟩
      · intro n hn
        rw [Block.grp_updGrp_ne _ _ _ _ (fun y hy => by rw [hF, hy]) hn, Block.grp_updGrp_ne]
        · exact fun y hy => hy
        · exact hn
      · exact ⟨ls, r, x.sp, sc, sa, e1⟩
      · intro q' hq'
        rw [hq] at hq'; injection hq' with hq'; subst hq'
        have : F { x with sregs := r } = { ({ x with sregs := r } : Group) with lanes := ls, sc := sc, sAhead := sa, swait := none, bkSkip := false } := e1
        rw [this]
        exact e2
    · unfold State.sregs
      rw [hcur, ha]
      simp only
      rw [e, h2]
      have : F { x with sregs := r } = { ({ x with sregs := r } : Group) with lanes := ls, sc := sc, sAhead := sa, swait := none, bkSkip := false } := e1
      simp only [this]
    · unfold State.spreds
      rw [hcur, ha]
      simp only
      rw [e, h2, hf]
      have : F { x with sregs := r } = { ({ x with sregs := r } : Group) with lanes := ls, sc := sc, sAhead := sa, swait := none, bkSkip := false } := e1
      simp only [this]
  | mgmt m =>
    have e : (s.setSregs r).retire = (s.setMc m { s.mc m with sregs := r }).setMc m
        (Mc.advance { s.mc m with sregs := r } s.cur) := by
      unfold State.setSregs
      simp only [ha]
      unfold State.retire
      simp only [State.setMc_cur, ha, State.mc_setMc_same]
    have hcur : (s.setSregs r).retire.cur = s.cur := by rw [e]; rfl
    refine ⟨?_, ?_, ?_⟩
    · unfold State.ScalarDone
      rw [ha]
      refine ⟨?_, ?_, ?_⟩
      · rw [e]; exact ⟨_, rfl⟩
      · intro n hn; rw [e, State.mc_setMc, if_neg hn, State.mc_setMc, if_neg hn]
      · rw [e, State.mc_setMc_same]; exact ⟨_, _, _, _, _, rfl⟩
    · unfold State.sregs
      rw [hcur, ha]
      simp only
      rw [e, State.mc_setMc_same]; rfl
    · unfold State.spreds
      rw [hcur, ha]
      simp only
      rw [e, State.mc_setMc_same]; rfl
  | none => rw [ha] at hi; exact hi.elim
  | group b g => rw [ha] at hi; exact hi.elim
  | matrix b => rw [ha] at hi; exact hi.elim
  | copy b => rw [ha] at hi; exact hi.elim

/-- The registers of an issuing scalar agent. -/
theorem State.ScalarIssues.sregs {s : State} (hi : s.ScalarIssues) : ∃ r, s.sregs = some r := by
  obtain ⟨_, hi⟩ := hi
  unfold State.sregs
  cases ha : s.cur.ag with
  | scalar b g =>
    rw [ha] at hi
    obtain ⟨k, x, q, hf, _⟩ := hi
    simp only [hf]; exact ⟨_, rfl⟩
  | mgmt m => exact ⟨_, rfl⟩
  | none => rw [ha] at hi; exact hi.elim
  | group b g => rw [ha] at hi; exact hi.elim
  | matrix b => rw [ha] at hi; exact hi.elim
  | copy b => rw [ha] at hi; exact hi.elim

/-- The frame of a class S word that answers new registers. -/
theorem scalarWord_next {s : State} (hi : s.ScalarIssues) {r : SRegs} (hr : s.sregs = some r) (f : SRegs → SRegs) :
    ∃ t, scalarWord (fun r => .next (s.setSregs (f r)).retire) s = .next t ∧ s.ScalarDone t ∧ t.sregs = some (f r) ∧
      t.spreds = s.spreds := by
  refine ⟨(s.setSregs (f r)).retire, ?_, setSregs_retire hi (f r)⟩
  unfold scalarWord
  simp only [hr, hi.1, if_false]

/-- A scalar computation of two operands. -/
theorem scalar2_next {s : State} (hi : s.ScalarIssues) {r : SRegs} (hr : s.sregs = some r) (dep : Dep) (d a c : Nat)
    (f : Nat → Nat → Nat) :
    ∃ t r' ws, scalar2 dep d a c f s = .next t ∧ s.ScalarDone t ∧ t.sregs = some r' ∧ t.spreds = s.spreds ∧ WroteScalar r r' d ws ∧
      CarriesVal .w ws (f (valOf (shalves r a)) (valOf (shalves r c))) (goodOf (shalves r a) = true ∧ goodOf (shalves r c) = true) := by
  have hl : ∀ n, (shalves r n).length = 2 := fun n => tgets_length _ _ _ _
  let ws := wordsFor (f (valOf (shalves r a)) (valOf (shalves r c))) (depend dep (badOf (shalves r a)) (badOf (shalves r c)) [false, false])
  have hlen : (depend dep (badOf (shalves r a)) (badOf (shalves r c)) [false, false]).length = 2 := by
    rw [depend_length _ _ _ _ (by simp [hl]), badOf_length, hl]
  obtain ⟨t, h1, h2, h3, h4⟩ := scalarWord_next hi hr (fun r => sput r d (wordsFor (f (valOf (shalves r a)) (valOf (shalves r c)))
    (depend dep (badOf (shalves r a)) (badOf (shalves r c)) [false, false])))
  refine ⟨t, _, ws, h1, h2, h3, h4, sput_wrote r d ws (by rw [wordsFor_length, hlen]), ?_, ?_⟩
  · rw [wordsFor_vals, hlen]; rfl
  · rintro ⟨ha, hc⟩
    show wordsFor _ _ = _
    rw [badOf_good ha, badOf_good hc, hl, hl, show ([false, false] : List Bool) = copies 2 false from rfl,
      depend_clean _ _ _ _ (by omega), wordsFor_clean]; rfl

end Sys2Proof.Machine
end

