-- ==== Sys2Proof/Laws/Groups.lean ====
section
/-! SUPPORT. Words that act once per group: retiring, and writing one value to the destination lane of every active lane (R18,
R32). -/
namespace Sys2Proof.Machine

/-- The frame of a word of classes M, C, Y and F with an active lane. -/
theorem joinWord_eq {s : State} {b g : Nat} {k : Block} {x : Group} (hi : s.Issues b g k x) (f : Block → Group → List Nat → Out) :
    joinWord f s = f k x s.cur.act := by
  unfold joinWord
  simp only [hi.agent, hi.found, hi.some_, if_false]

/-- Slots that lie in their windows. -/
theorem SlotsIn.ok {k : Block} {x : Group} {slots : List (View × Nat)} (h : SlotsIn k x slots) : k.slotsOk x slots = true := by
  unfold Block.slotsOk
  rw [List.all_eq_true]
  intro p hp
  by_cases h1 : 125 ≤ p.2
  · simp [h1]
  · simp [h p hp (by omega)]

/-- What a retirement is for an issuing group. -/
theorem retire_eq {s : State} {b g : Nat} {k : Block} {x : Group} (hi : s.Issues b g k x) :
    s.retire = if s.cur.pc = s.cur.hdr + 4 * s.cur.n then
        (s.updGrp b g (fun y => y.retire s.cur)).updQuad k.core x.quad (fun q => q.clauseEnd (b, g) s.cur.y)
      else s.updGrp b g (fun y => y.retire s.cur) := by
  unfold State.retire
  simp only [hi.agent]
  unfold State.retireGroup
  simp only [hi.found]

/-- A word that only retires: nothing but the lanes' places, the latches at a clause's end and the notes of its issue changes. -/
theorem retire_done {s : State} {b g : Nat} {k : Block} {x : Group} (hi : s.Issues b g k x) :
    ∃ k' x', s.WordDone s.retire b g k k' x x' ∧ SameWindows k k' x x' ∧ s.KeptLatches x x' ∧ x.SamePreds x' := by
  have hnum : ∀ y : Group, y.num = g → (y.retire s.cur).num = g := fun y hy => by simpa using hy
  have h2 := State.bg_updGrp (fun y => y.retire s.cur) hi.found hnum
  refine ⟨k.updGrp g (fun y => y.retire s.cur), x.retire s.cur, ⟨⟨?_, ?_, ?_, ?_⟩, ?_, ⟨⟨_, _, rfl⟩, ?_⟩, ?_, ⟨?_, ?_⟩⟩,
    ⟨Group.retire_win _ _, rfl⟩, x.retire_latches s.cur, ?_⟩
  · rw [retire_eq hi]; split <;> exact ⟨_, _, rfl⟩
  · intro n hn
    have e : (s.updGrp b g (fun y => y.retire s.cur)).blk n = s.blk n := by
      rw [State.updGrp, State.blk_updBlk_ne _ _ _ _ (by simp) hn]
    rw [retire_eq hi]; split
    · rw [State.updQuad_blk]; exact e
    · exact e
  · intro n hn; rw [retire_eq hi]; split
    · rw [State.updQuad_core_ne _ _ _ _ _ hn]; rfl
    · rfl
  · rw [retire_eq hi]; split
    · rw [State.updQuad_core]; exact ⟨_, rfl⟩
    · exact ⟨_, rfl⟩
  · rw [retire_eq hi]; split
    · rw [State.updQuad_bg]; exact h2
    · exact h2
  · intro n hn; exact Block.grp_updGrp_ne _ _ _ _ hnum hn
  · obtain ⟨_, _, _, _, _, e⟩ := x.retire_rest s.cur
    rw [e]; exact ⟨_, _, _, _, _, _, rfl⟩
  · intro l
    rw [Group.lane_retire _ _ hi.once]
    split
    · obtain ⟨_, _, _, _, e⟩ := (x.lane l).advance_rest (decide (s.cur.pc = s.cur.hdr + 4 * s.cur.n))
      rw [e]; exact ⟨_, _, _, _, _, _, rfl⟩
    · split <;> exact ⟨_, _, _, _, _, _, rfl⟩
  · intro l
    rw [Group.lane_retire _ _ hi.once]
    split
    · simp only [Lane.advance_pc]
    · split <;> rfl
  · intro l
    rw [Group.lane_retire _ _ hi.once]
    split
    · obtain ⟨_, _, _, _, e⟩ := (x.lane l).advance_rest (decide (s.cur.pc = s.cur.hdr + 4 * s.cur.n))
      rw [e]
    · split <;> rfl

theorem PassedWord.places {s : State} {k k' : Block} {x x' : Group} {b g : Nat} {t : State} (h : s.WordDone t b g k k' x x') :
    SamePlaces k k' x x' := by
  obtain ⟨_, _, e1⟩ := h.inside.rest
  obtain ⟨_, _, _, _, _, _, e2⟩ := h.group
  refine ⟨by rw [e1], by rw [e2], by rw [e2], fun l => ?_⟩
  obtain ⟨_, _, _, _, _, _, e⟩ := h.passed.lanes l
  rw [e]

theorem freshWords_length (n v : Nat) : (freshWords n v).length = n := by simp [freshWords, upFrom_length]

/-- A word that retires and gives every active lane one value of slot `d` (R32). -/
theorem retire_giveAll {s : State} {b g : Nat} {k : Block} {x : Group} (hi : s.Issues b g k x) (vw : View) (d v : Nat) :
    ∃ k' x', s.WordDone (s.retire.giveAll b g vw d s.cur.act v) b g k k' x x' ∧
      WroteSlot k k' x x' vw d s.cur.act (fun _ => freshWords vw.parts v) ∧ s.KeptLatches x x' ∧ x.SamePreds x' := by
  obtain ⟨k1, x1, hd, hw, hl, hp⟩ := retire_done hi
  obtain ⟨hb1, hg1⟩ := State.bg_iff.1 hd.found
  have hpl := PassedWord.places hd
  have hlt : ∀ l ∈ s.cur.act, l < 32 ∧ (freshWords vw.parts v).length = vw.parts := fun l hl =>
    ⟨(hi.live l (hi.sub l hl)).1, freshWords_length _ _⟩
  obtain ⟨y, h1, h2, ⟨w, hyw⟩, h4⟩ := Block.writeLanes_spec g vw d (fun _ => freshWords vw.parts v) s.cur.act hg1 hi.actOnce hlt
  let k2 := k1.writeLanes g vw d (s.cur.act.map (fun l => (l, freshWords vw.parts v)))
  have e : s.retire.giveAll b g vw d s.cur.act v = s.retire.updBlk b (fun k => k.writeLanes g vw d (s.cur.act.map (fun l => (l, freshWords vw.parts v)))) := by
    unfold State.giveAll
    simp only [clean_eq, wordsFor_clean]
  have hid : ∀ q : Block, q.id = b → (q.writeLanes g vw d (s.cur.act.map (fun l => (l, freshWords vw.parts v)))).id = b := by
    have : ∀ (rs : List (Nat × List RWord)) (q : Block), (q.writeLanes g vw d rs).id = q.id := by
      intro rs
      induction rs with
      | nil => intro q; rfl
      | cons r rs ih =>
        intro q
        rw [Block.writeLanes, ih]
        unfold Block.writeSlot
        split
        · rfl
        · split <;> rfl
    intro q hq; rw [this, hq]
  refine ⟨k2, y, ⟨⟨?_, ?_, ?_, ?_⟩, ?_, hd.inside.trans h2, ?_, ⟨?_, ?_⟩⟩, ⟨?_, ?_, ?_⟩, ?_, ?_⟩
  · obtain ⟨bs, cs, e1⟩ := hd.outside.rest
    rw [e, e1]; exact ⟨_, _, rfl⟩
  · intro n hn; rw [e, State.blk_updBlk_ne _ _ _ _ hid hn]; exact hd.outside.blocks n hn
  · intro n hn; rw [e]; exact hd.outside.cores n hn
  · rw [e]; exact hd.outside.core
  · rw [e, State.bg_iff]
    refine ⟨?_, h1⟩
    rw [State.blk_updBlk _ _ _ hid, hb1]; rfl
  · obtain ⟨a1, a2, a3, a4, a5, a6, e1⟩ := hd.group
    rw [hyw, e1]; exact ⟨_, _, _, _, _, _, rfl⟩
  · intro l; rw [hyw]; exact hd.passed.lanes l
  · intro l; rw [hyw]; exact hd.passed.pcs l
  · intro l hl; rw [← hpl.slotWord]; exact h4.new l hl
  · intro a ha
    have := h4.old a (fun l hl => by rw [hpl.slotWord]; exact ha l hl)
    rw [this]
    cases vw <;> simp only [winOf, hw.1, hw.2]
  · have := h4.other
    split
    · rename_i hv; rw [if_pos hv] at this; exact this.trans hw.1
    · rename_i hv; rw [if_neg hv] at this; exact this.trans hw.2
  · rw [hyw]; exact hl
  · intro l; rw [hyw]; exact hp l

end Sys2Proof.Machine
end

