-- ==== Sys2Proof/Laws/Parts.lean ====
section
/-! SUPPORT. Lanes part by part, masks bit by bit, and the faults that a wide word finds before it writes a lane (R85, R87, R90,
R116). -/
namespace Sys2Proof.Machine

theorem upFrom_map_nth {α : Type} (d : α) (l : List α) : (upFrom 0 l.length).map (fun i => nth d l i) = l := by
  have : ∀ (l : List α) (a : Nat) (f : Nat → α), (∀ i, i < l.length → f (a + i) = nth d l i) → (upFrom a l.length).map f = l := by
    intro l
    induction l with
    | nil => intros; rfl
    | cons w l ih =>
      intro a f h
      simp only [List.length_cons, upFrom, List.map_cons]
      congr 1
      · have := h 0 (by simp); simpa [nth] using this
      · refine ih (a + 1) f (fun i hi => ?_)
        have := h (i + 1) (by simpa using hi)
        rw [show a + 1 + i = a + (i + 1) by omega, this]; simp [nth]
  exact this l 0 _ (fun i _ => by simp)

/-- A function of the words of a lane, part by part. -/
theorem map_parts (f : RWord → RWord) (n : Nat) (l : List RWord) (h : l.length = n) :
    l.map f = (upFrom 0 n).map (fun i => f (nth RWord.zero l i)) := by
  subst h
  conv => lhs; rw [← upFrom_map_nth RWord.zero l, List.map_map]
  rfl

theorem zip_parts (f : RWord × RWord → RWord) (n : Nat) (l m : List RWord) (h : l.length = n) (h' : m.length = n) :
    (l.zip m).map f = (upFrom 0 n).map (fun i => f (nth RWord.zero l i, nth RWord.zero m i)) := by
  subst h
  conv => lhs; rw [← upFrom_map_nth RWord.zero l, ← upFrom_map_nth RWord.zero m, h', List.zip_map', List.map_map]
  rfl

theorem zip3_parts (f : (RWord × RWord) × RWord → RWord) (n : Nat) (l m o : List RWord) (h : l.length = n) (h' : m.length = n)
    (h'' : o.length = n) : ((l.zip m).zip o).map f =
      (upFrom 0 n).map (fun i => f ((nth RWord.zero l i, nth RWord.zero m i), nth RWord.zero o i)) := by
  subst h
  conv =>
    lhs
    rw [← upFrom_map_nth RWord.zero l, ← upFrom_map_nth RWord.zero m, ← upFrom_map_nth RWord.zero o, h', h'', List.zip_map',
      List.zip_map', List.map_map]
  rfl

theorem zip3_eq (n : Nat) (l m o : List RWord) (h : l.length = n) (h' : m.length = n) (h'' : o.length = n) :
    zip3 l m o = (upFrom 0 n).map (fun i => (nth RWord.zero l i, nth RWord.zero m i, nth RWord.zero o i)) := by
  subst h
  unfold zip3
  conv =>
    lhs
    rw [← upFrom_map_nth RWord.zero l, ← upFrom_map_nth RWord.zero m, ← upFrom_map_nth RWord.zero o, h', h'', List.zip_map',
      List.zip_map']

theorem headD_nth (d : RWord) (l : List RWord) : l.headD d = nth d l 0 := by cases l <;> rfl

theorem bitOf_testBit (w i : Nat) : bitOf w i = w.testBit i := by
  unfold bitOf
  rw [Nat.testBit_eq_decide_div_mod_eq]

/-- The bits of a mask are the numbers listed. -/
theorem maskOf_testBit (ls : List Nat) (j : Nat) : (maskOf ls).testBit j = decide (j ∈ ls) := by
  induction ls with
  | nil => simp [maskOf]
  | cons l ls ih =>
    rw [maskOf, Nat.testBit_or, ih, Nat.testBit_two_pow]
    by_cases h : l = j
    · simp [h]
    · have : ¬ j = l := fun e => h e.symm
      simp [h, this]

/-- A number below 2^n given bit by bit. -/
theorem maskOf_bits (P : Nat → Bool) (n w : Nat) (hw : w < 2 ^ n) (h : ∀ j, j < n → w.testBit j = P j) :
    w = maskOf ((upFrom 0 n).filter P) := by
  apply Nat.eq_of_testBit_eq
  intro j
  rw [maskOf_testBit]
  by_cases hj : j < n
  · rw [h j hj]
    have : j ∈ upFrom 0 n := (upFrom_mem 0 n j).2 (by omega)
    cases hp : P j <;> simp [this, hp]
  · have h1 : ¬ (j ∈ (upFrom 0 n).filter P) := fun hm => by
      have := (upFrom_mem 0 n j).1 (List.mem_filter.1 hm).1; omega
    rw [Nat.testBit_lt_two_pow (Nat.lt_of_lt_of_le hw (Nat.pow_le_pow_right (by decide) (by omega)))]
    simp [h1]

/-- A wide word whose slots lie inside their windows acts on its block, its group and its lanes. -/
theorem wideWord_acts {s : State} {b g : Nat} {k : Block} {x : Group} (hi : s.Issues b g k x) (slots : List (View × Nat))
    (f : Wx → Block ⊕ WErr) (hs : SlotsIn k x slots) :
    wideWord slots f s = match f ⟨k, x, s.cur.act, x.helpers s.cur.act⟩ with
      | .inr e => .next (s.raiseFor e.1 e.2 0)
      | .inl k' => .next (s.updBlk b (fun _ => k')).retire := by
  have hok : Wx.slotsOk ⟨k, x, s.cur.act, x.helpers s.cur.act⟩ slots = true := by
    unfold Wx.slotsOk
    rw [List.all_eq_true]
    intro p hp
    by_cases h : 125 ≤ p.2
    · simp [h]
    · simp [hs p hp (by omega)]
  unfold wideWord
  simp only [hi.agent, hi.found, hi.some_, if_false, hok, if_true]
  all_goals cases f ⟨k, x, s.cur.act, x.helpers s.cur.act⟩ <;> rfl

/-- A register word that finds a fault raises it and writes nothing. -/
theorem wideReg_fault {s : State} {b g : Nat} {k : Block} {x : Group} (hi : s.Issues b g k x) (vw : View) (t d : Nat)
    (srcs : List Nat) (f : Wx → List (Nat × List RWord) ⊕ WErr) (e : WErr)
    (hs : SlotsIn k x ((if t = 1 then [] else [(vw, d)]) ++ srcs.map (fun n => (vw, n))))
    (hf : f ⟨k, x, s.cur.act, x.helpers s.cur.act⟩ = .inr e) : wideReg vw t d srcs f s = .next (s.raiseFor e.1 e.2 0) := by
  unfold wideReg
  rw [wideWord_acts hi _ _ hs, hf]

theorem widePred_fault {s : State} {b g : Nat} {k : Block} {x : Group} (hi : s.Issues b g k x) (p : Nat) (slots : List (View × Nat))
    (f : Wx → List (Nat × Bool) ⊕ WErr) (e : WErr) (hs : SlotsIn k x slots)
    (hf : f ⟨k, x, s.cur.act, x.helpers s.cur.act⟩ = .inr e) : widePred p slots f s = .next (s.raiseFor e.1 e.2 0) := by
  unfold widePred
  rw [wideWord_acts hi _ _ hs, hf]

/-- A selector byte that its entry assigns (R85). -/
theorem selector_ok (X : Wx) (vw : View) (b : Nat) (ok : Nat → Bool)
    (h : rok (nth RWord.zero (X.src vw b (lowest X.act)) 0) = true)
    (h' : ok ((nth RWord.zero (X.src vw b (lowest X.act)) 0).val.toNat % 256) = true) :
    X.selector vw b ok = .inl ((nth RWord.zero (X.src vw b (lowest X.act)) 0).val.toNat % 256) := by
  unfold Wx.selector
  rw [headD_nth]
  have e : X.l0 = lowest X.act := rfl
  simp [e, h, h']

theorem selector_residue (X : Wx) (vw : View) (b : Nat) (ok : Nat → Bool)
    (h : rok (nth RWord.zero (X.src vw b (lowest X.act)) 0) = false) : X.selector vw b ok = .inr (0x04, 2 ^ lowest X.act) := by
  unfold Wx.selector
  rw [headD_nth]
  have e : X.l0 = lowest X.act := rfl
  simp [e, h, maskOf]

theorem selector_illegal (X : Wx) (vw : View) (b : Nat) (ok : Nat → Bool)
    (h : rok (nth RWord.zero (X.src vw b (lowest X.act)) 0) = true)
    (h' : ok ((nth RWord.zero (X.src vw b (lowest X.act)) 0).val.toNat % 256) = false) :
    X.selector vw b ok = .inr (0x01, maskOf X.act) := by
  unfold Wx.selector
  rw [headD_nth]
  have e : X.l0 = lowest X.act := rfl
  simp [e, h, h']

/-- A word under a selector byte that its entry assigns: it delivers its results and retires. -/
theorem wideSel_next {s : State} {b g : Nat} {k : Block} {x : Group} (hi : s.Issues b g k x) (vw : View) (t d a c : Nat)
    (ok : Nat → Bool) (f : Wx → Nat → List (Nat × List RWord)) (r : Nat → List RWord)
    (hs : SlotsIn k x ((if t = 1 then [] else [(vw, d)]) ++ [(vw, a), (vw, c)]))
    (h : rok (nth RWord.zero (k.src x vw c (lowest s.cur.act)) 0) = true)
    (h' : ok ((nth RWord.zero (k.src x vw c (lowest s.cur.act)) 0).val.toNat % 256) = true)
    (hf : f ⟨k, x, s.cur.act, x.helpers s.cur.act⟩ ((nth RWord.zero (k.src x vw c (lowest s.cur.act)) 0).val.toNat % 256) =
      (x.written s.cur.act).map (fun l => (l, r l)))
    (hr : ∀ l ∈ x.written s.cur.act, (r l).length = vw.parts) :
    ∃ t' k' x', wideSel vw t d a c ok f s = .next t' ∧ s.WordDone t' b g k k' x x' ∧
      s.Delivered k k' x x' vw t d (x.written s.cur.act) r := by
  unfold wideSel
  refine wideReg_next hi vw t d [a, c] _ r hs ?_ hr
  rw [selector_ok ⟨k, x, s.cur.act, x.helpers s.cur.act⟩ vw c ok h h']
  exact congrArg Sum.inl hf

end Sys2Proof.Machine
end

