-- ==== Sys2Proof/Laws/PerInstr.lean ====
section
/-! SUPPORT. The per-instruction family RoundTrip: the word that the encoder gives a well-formed instruction is read back as that
instruction, field by field, one lemma per constructor; a step that no word starts has no word. -/
namespace Sys2Proof.Laws.RoundTrip

/-- The instruction's word fits 32 bits and decodes to it: in its class, or as a header (R15, R23, R34). -/
def Statement (i : Instr) : Prop :=
  i.wf = true → ∀ w, encodeWord i = some w → w < 4294967296 ∧
    (match classOf i with
     | some c => decodeWord c w
     | none => decodeHeader w) = .ok i

theorem checked_ok {r : Bool} {i j : Instr} (hr : r = false) (hi : i = j) (hj : j.wf = true) : checked r i = .ok j := by
  subst hr hi; simp [checked, hj]

theorem any_cons {w hi lo : Nat} {r : List (Nat × Nat)} (h : bits w hi lo = 0) (hr : anyBits w r = false) :
    anyBits w ((hi, lo) :: r) = false := by
  simp [anyBits, h, hr]

/-- A word of a class: enough that its decoder reads any number equal to the encoding. -/
theorem ofClass {i : Instr} {c w : Nat} {d : Nat → Except DecodeErr Instr} {P : Prop} [Decidable P] (hc : classOf i = some c)
    (hd : ∀ w, decodeWord c w = d w) (he : encodeWord i = some w) (hp : i.wf = decide P)
    (h : ∀ w', w' = w → P → i.wf = true → w' < 4294967296 ∧ d w' = .ok i) : Statement i := by
  intro hw w' e
  have hP := of_decide_eq_true (hp ▸ hw)
  rw [he] at e; cases e
  rw [hc]; exact ⟨(h _ rfl hP hw).1, (hd w).trans (h _ rfl hP hw).2⟩

/-- A header's word: enough that the header decoder reads any number equal to the encoding. -/
theorem ofHeader {i : Instr} {w : Nat} {P : Prop} [Decidable P] (hc : classOf i = none) (he : encodeWord i = some w)
    (hp : i.wf = decide P) (h : ∀ w', w' = w → P → i.wf = true → w' < 4294967296 ∧ decodeHeader w' = .ok i) : Statement i := by
  intro hw w' e
  have hP := of_decide_eq_true (hp ▸ hw)
  rw [he] at e; cases e
  rw [hc]; exact h _ rfl hP hw

theorem clauseHeader (n cls y wait b bar g sense guard) : Statement (.clauseHeader n cls y wait b bar g sense guard) := by
  refine ofHeader rfl rfl rfl fun w e h hw => ⟨by omega, ?_⟩
  unfold decodeHeader
  exact checked_ok (any_cons (by simp only [bits]; omega) rfl) (by simp only [bits, Instr.clauseHeader.injEq]; omega) hw

theorem sadd (d a b) : Statement (.sadd d a b) := by
  refine ofClass (d := decodeS) rfl (fun _ => rfl) rfl rfl fun w e h hw => ⟨by omega, ?_⟩
  unfold decodeS; rw [show w / 16777216 = 1 by omega]
  exact checked_ok (any_cons (by simp only [bits]; omega) rfl) (by simp only [bits, Instr.sadd.injEq]; omega) hw

theorem ssub (d a b) : Statement (.ssub d a b) := by
  refine ofClass (d := decodeS) rfl (fun _ => rfl) rfl rfl fun w e h hw => ⟨by omega, ?_⟩
  unfold decodeS; rw [show w / 16777216 = 2 by omega]
  exact checked_ok (any_cons (by simp only [bits]; omega) rfl) (by simp only [bits, Instr.ssub.injEq]; omega) hw

theorem smul (d a b) : Statement (.smul d a b) := by
  refine ofClass (d := decodeS) rfl (fun _ => rfl) rfl rfl fun w e h hw => ⟨by omega, ?_⟩
  unfold decodeS; rw [show w / 16777216 = 3 by omega]
  exact checked_ok (any_cons (by simp only [bits]; omega) rfl) (by simp only [bits, Instr.smul.injEq]; omega) hw

theorem smulh (d a b) : Statement (.smulh d a b) := by
  refine ofClass (d := decodeS) rfl (fun _ => rfl) rfl rfl fun w e h hw => ⟨by omega, ?_⟩
  unfold decodeS; rw [show w / 16777216 = 4 by omega]
  exact checked_ok (any_cons (by simp only [bits]; omega) rfl) (by simp only [bits, Instr.smulh.injEq]; omega) hw

theorem sand (d a b) : Statement (.sand d a b) := by
  refine ofClass (d := decodeS) rfl (fun _ => rfl) rfl rfl fun w e h hw => ⟨by omega, ?_⟩
  unfold decodeS; rw [show w / 16777216 = 5 by omega]
  exact checked_ok (any_cons (by simp only [bits]; omega) rfl) (by simp only [bits, Instr.sand.injEq]; omega) hw

theorem sor (d a b) : Statement (.sor d a b) := by
  refine ofClass (d := decodeS) rfl (fun _ => rfl) rfl rfl fun w e h hw => ⟨by omega, ?_⟩
  unfold decodeS; rw [show w / 16777216 = 6 by omega]
  exact checked_ok (any_cons (by simp only [bits]; omega) rfl) (by simp only [bits, Instr.sor.injEq]; omega) hw

theorem sxor (d a b) : Statement (.sxor d a b) := by
  refine ofClass (d := decodeS) rfl (fun _ => rfl) rfl rfl fun w e h hw => ⟨by omega, ?_⟩
  unfold decodeS; rw [show w / 16777216 = 7 by omega]
  exact checked_ok (any_cons (by simp only [bits]; omega) rfl) (by simp only [bits, Instr.sxor.injEq]; omega) hw

theorem sshl (d a b) : Statement (.sshl d a b) := by
  refine ofClass (d := decodeS) rfl (fun _ => rfl) rfl rfl fun w e h hw => ⟨by omega, ?_⟩
  unfold decodeS; rw [show w / 16777216 = 8 by omega]
  exact checked_ok (any_cons (by simp only [bits]; omega) rfl) (by simp only [bits, Instr.sshl.injEq]; omega) hw

theorem sshr (d a b) : Statement (.sshr d a b) := by
  refine ofClass (d := decodeS) rfl (fun _ => rfl) rfl rfl fun w e h hw => ⟨by omega, ?_⟩
  unfold decodeS; rw [show w / 16777216 = 9 by omega]
  exact checked_ok (any_cons (by simp only [bits]; omega) rfl) (by simp only [bits, Instr.sshr.injEq]; omega) hw

theorem ssra (d a b) : Statement (.ssra d a b) := by
  refine ofClass (d := decodeS) rfl (fun _ => rfl) rfl rfl fun w e h hw => ⟨by omega, ?_⟩
  unfold decodeS; rw [show w / 16777216 = 10 by omega]
  exact checked_ok (any_cons (by simp only [bits]; omega) rfl) (by simp only [bits, Instr.ssra.injEq]; omega) hw

theorem smin (d a b) : Statement (.smin d a b) := by
  refine ofClass (d := decodeS) rfl (fun _ => rfl) rfl rfl fun w e h hw => ⟨by omega, ?_⟩
  unfold decodeS; rw [show w / 16777216 = 11 by omega]
  exact checked_ok (any_cons (by simp only [bits]; omega) rfl) (by simp only [bits, Instr.smin.injEq]; omega) hw

theorem smax (d a b) : Statement (.smax d a b) := by
  refine ofClass (d := decodeS) rfl (fun _ => rfl) rfl rfl fun w e h hw => ⟨by omega, ?_⟩
  unfold decodeS; rw [show w / 16777216 = 12 by omega]
  exact checked_ok (any_cons (by simp only [bits]; omega) rfl) (by simp only [bits, Instr.smax.injEq]; omega) hw

theorem smov (d a) : Statement (.smov d a) := by
  refine ofClass (d := decodeS) rfl (fun _ => rfl) rfl rfl fun w e h hw => ⟨by omega, ?_⟩
  unfold decodeS; rw [show w / 16777216 = 13 by omega]
  exact checked_ok (any_cons (by simp only [bits]; omega) rfl) (by simp only [bits, Instr.smov.injEq]; omega) hw

theorem smovi (d i) : Statement (.smovi d i) := by
  refine ofClass (d := decodeS) rfl (fun _ => rfl) rfl rfl fun w e h hw => ⟨by omega, ?_⟩
  unfold decodeS; rw [show w / 16777216 = 14 by omega]
  exact checked_ok (any_cons (by simp only [bits]; omega) rfl) (by simp only [bits, Instr.smovi.injEq]; omega) hw

theorem slui (d a i) : Statement (.slui d a i) := by
  refine ofClass (d := decodeS) rfl (fun _ => rfl) rfl rfl fun w e h hw => ⟨by omega, ?_⟩
  unfold decodeS; rw [show w / 16777216 = 15 by omega]
  exact checked_ok rfl (by simp only [bits, Instr.slui.injEq]; omega) hw

theorem scmp (c p a b) : Statement (.scmp c p a b) := by
  refine ofClass (d := decodeS) rfl (fun _ => rfl) rfl rfl fun w e h hw => ⟨by omega, ?_⟩
  unfold decodeS; rw [show w / 16777216 = 16 by omega]
  exact checked_ok (any_cons (by simp only [bits]; omega) rfl) (by simp only [bits, Instr.scmp.injEq]; omega) hw

theorem ssel (d a b p) : Statement (.ssel d a b p) := by
  refine ofClass (d := decodeS) rfl (fun _ => rfl) rfl rfl fun w e h hw => ⟨by omega, ?_⟩
  unfold decodeS; rw [show w / 16777216 = 17 by omega]
  exact checked_ok (any_cons (by simp only [bits]; omega) rfl) (by simp only [bits, Instr.ssel.injEq]; omega) hw

theorem sfadd (d a b) : Statement (.sfadd d a b) := by
  refine ofClass (d := decodeS) rfl (fun _ => rfl) rfl rfl fun w e h hw => ⟨by omega, ?_⟩
  unfold decodeS; rw [show w / 16777216 = 18 by omega]
  exact checked_ok (any_cons (by simp only [bits]; omega) rfl) (by simp only [bits, Instr.sfadd.injEq]; omega) hw

theorem sfmul (d a b) : Statement (.sfmul d a b) := by
  refine ofClass (d := decodeS) rfl (fun _ => rfl) rfl rfl fun w e h hw => ⟨by omega, ?_⟩
  unfold decodeS; rw [show w / 16777216 = 19 by omega]
  exact checked_ok (any_cons (by simp only [bits]; omega) rfl) (by simp only [bits, Instr.sfmul.injEq]; omega) hw

theorem sfma (d a b) : Statement (.sfma d a b) := by
  refine ofClass (d := decodeS) rfl (fun _ => rfl) rfl rfl fun w e h hw => ⟨by omega, ?_⟩
  unfold decodeS; rw [show w / 16777216 = 20 by omega]
  exact checked_ok (any_cons (by simp only [bits]; omega) rfl) (by simp only [bits, Instr.sfma.injEq]; omega) hw

theorem sld (d a z o) : Statement (.sld d a z o) := by
  refine ofClass (d := decodeS) rfl (fun _ => rfl) rfl rfl fun w e h hw => ⟨by omega, ?_⟩
  unfold decodeS; rw [show w / 16777216 = 21 by omega]
  exact checked_ok rfl (by simp only [bits, Instr.sld.injEq]; omega) hw

theorem sst (d a z o) : Statement (.sst d a z o) := by
  refine ofClass (d := decodeS) rfl (fun _ => rfl) rfl rfl fun w e h hw => ⟨by omega, ?_⟩
  unfold decodeS; rw [show w / 16777216 = 22 by omega]
  exact checked_ok rfl (by simp only [bits, Instr.sst.injEq]; omega) hw

theorem qfwd (a) : Statement (.qfwd a) := by
  refine ofClass (d := decodeS) rfl (fun _ => rfl) rfl rfl fun w e h hw => ⟨by omega, ?_⟩
  unfold decodeS; rw [show w / 16777216 = 23 by omega]
  exact checked_ok (any_cons (by simp only [bits]; omega) (any_cons (by simp only [bits]; omega) rfl)) (by simp only [bits, Instr.qfwd.injEq]; omega) hw

theorem qret (d) : Statement (.qret d) := by
  refine ofClass (d := decodeS) rfl (fun _ => rfl) rfl rfl fun w e h hw => ⟨by omega, ?_⟩
  unfold decodeS; rw [show w / 16777216 = 24 by omega]
  exact checked_ok (any_cons (by simp only [bits]; omega) rfl) (by simp only [bits, Instr.qret.injEq]; omega) hw

theorem sclk (d) : Statement (.sclk d) := by
  refine ofClass (d := decodeS) rfl (fun _ => rfl) rfl rfl fun w e h hw => ⟨by omega, ?_⟩
  unfold decodeS; rw [show w / 16777216 = 25 by omega]
  exact checked_ok (any_cons (by simp only [bits]; omega) rfl) (by simp only [bits, Instr.sclk.injEq]; omega) hw

theorem sgid (d s) : Statement (.sgid d s) := by
  refine ofClass (d := decodeS) rfl (fun _ => rfl) rfl rfl fun w e h hw => ⟨by omega, ?_⟩
  unfold decodeS; rw [show w / 16777216 = 26 by omega]
  exact checked_ok (any_cons (by simp only [bits]; omega) rfl) (by simp only [bits, Instr.sgid.injEq]; omega) hw

theorem vadd (d a b t v) : Statement (.vadd d a b t v) := by
  refine ofClass (d := decodeW) rfl (fun _ => rfl) rfl rfl fun w e h hw => ⟨by omega, ?_⟩
  unfold decodeW; rw [show w / 16777216 = 1 by omega]
  exact checked_ok rfl (by simp only [bits, Instr.vadd.injEq]; omega) hw

theorem vsub (d a b t v) : Statement (.vsub d a b t v) := by
  refine ofClass (d := decodeW) rfl (fun _ => rfl) rfl rfl fun w e h hw => ⟨by omega, ?_⟩
  unfold decodeW; rw [show w / 16777216 = 2 by omega]
  exact checked_ok rfl (by simp only [bits, Instr.vsub.injEq]; omega) hw

theorem vmul (d a b t v) : Statement (.vmul d a b t v) := by
  refine ofClass (d := decodeW) rfl (fun _ => rfl) rfl rfl fun w e h hw => ⟨by omega, ?_⟩
  unfold decodeW; rw [show w / 16777216 = 3 by omega]
  exact checked_ok rfl (by simp only [bits, Instr.vmul.injEq]; omega) hw

theorem vmulh (d a b t v) : Statement (.vmulh d a b t v) := by
  refine ofClass (d := decodeW) rfl (fun _ => rfl) rfl rfl fun w e h hw => ⟨by omega, ?_⟩
  unfold decodeW; rw [show w / 16777216 = 4 by omega]
  exact checked_ok rfl (by simp only [bits, Instr.vmulh.injEq]; omega) hw

theorem vmac (d a b t v) : Statement (.vmac d a b t v) := by
  refine ofClass (d := decodeW) rfl (fun _ => rfl) rfl rfl fun w e h hw => ⟨by omega, ?_⟩
  unfold decodeW; rw [show w / 16777216 = 5 by omega]
  exact checked_ok rfl (by simp only [bits, Instr.vmac.injEq]; omega) hw

theorem vaddc (d a b t v) : Statement (.vaddc d a b t v) := by
  refine ofClass (d := decodeW) rfl (fun _ => rfl) rfl rfl fun w e h hw => ⟨by omega, ?_⟩
  unfold decodeW; rw [show w / 16777216 = 6 by omega]
  exact checked_ok rfl (by simp only [bits, Instr.vaddc.injEq]; omega) hw

theorem vabs (d a t v) : Statement (.vabs d a t v) := by
  refine ofClass (d := decodeW) rfl (fun _ => rfl) rfl rfl fun w e h hw => ⟨by omega, ?_⟩
  unfold decodeW; rw [show w / 16777216 = 7 by omega]
  exact checked_ok (any_cons (by simp only [bits]; omega) rfl) (by simp only [bits, Instr.vabs.injEq]; omega) hw

theorem vneg (d a t v) : Statement (.vneg d a t v) := by
  refine ofClass (d := decodeW) rfl (fun _ => rfl) rfl rfl fun w e h hw => ⟨by omega, ?_⟩
  unfold decodeW; rw [show w / 16777216 = 8 by omega]
  exact checked_ok (any_cons (by simp only [bits]; omega) rfl) (by simp only [bits, Instr.vneg.injEq]; omega) hw

theorem vmin (d a b t v) : Statement (.vmin d a b t v) := by
  refine ofClass (d := decodeW) rfl (fun _ => rfl) rfl rfl fun w e h hw => ⟨by omega, ?_⟩
  unfold decodeW; rw [show w / 16777216 = 9 by omega]
  exact checked_ok rfl (by simp only [bits, Instr.vmin.injEq]; omega) hw

theorem vmax (d a b t v) : Statement (.vmax d a b t v) := by
  refine ofClass (d := decodeW) rfl (fun _ => rfl) rfl rfl fun w e h hw => ⟨by omega, ?_⟩
  unfold decodeW; rw [show w / 16777216 = 10 by omega]
  exact checked_ok rfl (by simp only [bits, Instr.vmax.injEq]; omega) hw

theorem vand (d a b t v) : Statement (.vand d a b t v) := by
  refine ofClass (d := decodeW) rfl (fun _ => rfl) rfl rfl fun w e h hw => ⟨by omega, ?_⟩
  unfold decodeW; rw [show w / 16777216 = 11 by omega]
  exact checked_ok rfl (by simp only [bits, Instr.vand.injEq]; omega) hw

theorem vor (d a b t v) : Statement (.vor d a b t v) := by
  refine ofClass (d := decodeW) rfl (fun _ => rfl) rfl rfl fun w e h hw => ⟨by omega, ?_⟩
  unfold decodeW; rw [show w / 16777216 = 12 by omega]
  exact checked_ok rfl (by simp only [bits, Instr.vor.injEq]; omega) hw

theorem vxor (d a b t v) : Statement (.vxor d a b t v) := by
  refine ofClass (d := decodeW) rfl (fun _ => rfl) rfl rfl fun w e h hw => ⟨by omega, ?_⟩
  unfold decodeW; rw [show w / 16777216 = 13 by omega]
  exact checked_ok rfl (by simp only [bits, Instr.vxor.injEq]; omega) hw

theorem vnot (d a t v) : Statement (.vnot d a t v) := by
  refine ofClass (d := decodeW) rfl (fun _ => rfl) rfl rfl fun w e h hw => ⟨by omega, ?_⟩
  unfold decodeW; rw [show w / 16777216 = 14 by omega]
  exact checked_ok (any_cons (by simp only [bits]; omega) rfl) (by simp only [bits, Instr.vnot.injEq]; omega) hw

theorem vshl (d a b t v) : Statement (.vshl d a b t v) := by
  refine ofClass (d := decodeW) rfl (fun _ => rfl) rfl rfl fun w e h hw => ⟨by omega, ?_⟩
  unfold decodeW; rw [show w / 16777216 = 15 by omega]
  exact checked_ok rfl (by simp only [bits, Instr.vshl.injEq]; omega) hw

theorem vshr (d a b t v) : Statement (.vshr d a b t v) := by
  refine ofClass (d := decodeW) rfl (fun _ => rfl) rfl rfl fun w e h hw => ⟨by omega, ?_⟩
  unfold decodeW; rw [show w / 16777216 = 16 by omega]
  exact checked_ok rfl (by simp only [bits, Instr.vshr.injEq]; omega) hw

theorem vsra (d a b t v) : Statement (.vsra d a b t v) := by
  refine ofClass (d := decodeW) rfl (fun _ => rfl) rfl rfl fun w e h hw => ⟨by omega, ?_⟩
  unfold decodeW; rw [show w / 16777216 = 17 by omega]
  exact checked_ok rfl (by simp only [bits, Instr.vsra.injEq]; omega) hw

theorem vpopc (d a t v) : Statement (.vpopc d a t v) := by
  refine ofClass (d := decodeW) rfl (fun _ => rfl) rfl rfl fun w e h hw => ⟨by omega, ?_⟩
  unfold decodeW; rw [show w / 16777216 = 18 by omega]
  exact checked_ok (any_cons (by simp only [bits]; omega) rfl) (by simp only [bits, Instr.vpopc.injEq]; omega) hw

theorem vclz (d a t v) : Statement (.vclz d a t v) := by
  refine ofClass (d := decodeW) rfl (fun _ => rfl) rfl rfl fun w e h hw => ⟨by omega, ?_⟩
  unfold decodeW; rw [show w / 16777216 = 19 by omega]
  exact checked_ok (any_cons (by simp only [bits]; omega) rfl) (by simp only [bits, Instr.vclz.injEq]; omega) hw

theorem vbrev (d a t v) : Statement (.vbrev d a t v) := by
  refine ofClass (d := decodeW) rfl (fun _ => rfl) rfl rfl fun w e h hw => ⟨by omega, ?_⟩
  unfold decodeW; rw [show w / 16777216 = 20 by omega]
  exact checked_ok (any_cons (by simp only [bits]; omega) rfl) (by simp only [bits, Instr.vbrev.injEq]; omega) hw

theorem vbfx (d a b t v) : Statement (.vbfx d a b t v) := by
  refine ofClass (d := decodeW) rfl (fun _ => rfl) rfl rfl fun w e h hw => ⟨by omega, ?_⟩
  unfold decodeW; rw [show w / 16777216 = 21 by omega]
  exact checked_ok rfl (by simp only [bits, Instr.vbfx.injEq]; omega) hw

theorem vbfi (d a b t v) : Statement (.vbfi d a b t v) := by
  refine ofClass (d := decodeW) rfl (fun _ => rfl) rfl rfl fun w e h hw => ⟨by omega, ?_⟩
  unfold decodeW; rw [show w / 16777216 = 22 by omega]
  exact checked_ok rfl (by simp only [bits, Instr.vbfi.injEq]; omega) hw

theorem vsel (d a b t v) : Statement (.vsel d a b t v) := by
  refine ofClass (d := decodeW) rfl (fun _ => rfl) rfl rfl fun w e h hw => ⟨by omega, ?_⟩
  unfold decodeW; rw [show w / 16777216 = 23 by omega]
  exact checked_ok rfl (by simp only [bits, Instr.vsel.injEq]; omega) hw

theorem vcmp (c p a b v) : Statement (.vcmp c p a b v) := by
  refine ofClass (d := decodeW) rfl (fun _ => rfl) rfl rfl fun w e h hw => ⟨by omega, ?_⟩
  unfold decodeW; rw [show w / 16777216 = 24 by omega]
  exact checked_ok (any_cons (by simp only [bits]; omega) rfl) (by simp only [bits, Instr.vcmp.injEq]; omega) hw

theorem vmov (d a t v) : Statement (.vmov d a t v) := by
  refine ofClass (d := decodeW) rfl (fun _ => rfl) rfl rfl fun w e h hw => ⟨by omega, ?_⟩
  unfold decodeW; rw [show w / 16777216 = 25 by omega]
  exact checked_ok (any_cons (by simp only [bits]; omega) rfl) (by simp only [bits, Instr.vmov.injEq]; omega) hw

theorem vmovi (d i) : Statement (.vmovi d i) := by
  refine ofClass (d := decodeW) rfl (fun _ => rfl) rfl rfl fun w e h hw => ⟨by omega, ?_⟩
  unfold decodeW; rw [show w / 16777216 = 26 by omega]
  exact checked_ok rfl (by simp only [bits, Instr.vmovi.injEq]; omega) hw

theorem vlui (d i) : Statement (.vlui d i) := by
  refine ofClass (d := decodeW) rfl (fun _ => rfl) rfl rfl fun w e h hw => ⟨by omega, ?_⟩
  unfold decodeW; rw [show w / 16777216 = 27 by omega]
  exact checked_ok rfl (by simp only [bits, Instr.vlui.injEq]; omega) hw

theorem vlea (d a b t v) : Statement (.vlea d a b t v) := by
  refine ofClass (d := decodeW) rfl (fun _ => rfl) rfl rfl fun w e h hw => ⟨by omega, ?_⟩
  unfold decodeW; rw [show w / 16777216 = 28 by omega]
  exact checked_ok rfl (by simp only [bits, Instr.vlea.injEq]; omega) hw

theorem vfadd (d a b t m) : Statement (.vfadd d a b t m) := by
  refine ofClass (d := decodeW) rfl (fun _ => rfl) rfl rfl fun w e h hw => ⟨by omega, ?_⟩
  unfold decodeW; rw [show w / 16777216 = 29 by omega]
  exact checked_ok rfl (by simp only [bits, Instr.vfadd.injEq]; omega) hw

theorem vfsub (d a b t m) : Statement (.vfsub d a b t m) := by
  refine ofClass (d := decodeW) rfl (fun _ => rfl) rfl rfl fun w e h hw => ⟨by omega, ?_⟩
  unfold decodeW; rw [show w / 16777216 = 30 by omega]
  exact checked_ok rfl (by simp only [bits, Instr.vfsub.injEq]; omega) hw

theorem vfmul (d a b t m) : Statement (.vfmul d a b t m) := by
  refine ofClass (d := decodeW) rfl (fun _ => rfl) rfl rfl fun w e h hw => ⟨by omega, ?_⟩
  unfold decodeW; rw [show w / 16777216 = 31 by omega]
  exact checked_ok rfl (by simp only [bits, Instr.vfmul.injEq]; omega) hw

theorem vfma (d a b t m) : Statement (.vfma d a b t m) := by
  refine ofClass (d := decodeW) rfl (fun _ => rfl) rfl rfl fun w e h hw => ⟨by omega, ?_⟩
  unfold decodeW; rw [show w / 16777216 = 32 by omega]
  exact checked_ok rfl (by simp only [bits, Instr.vfma.injEq]; omega) hw

theorem vfmin (d a b t) : Statement (.vfmin d a b t) := by
  refine ofClass (d := decodeW) rfl (fun _ => rfl) rfl rfl fun w e h hw => ⟨by omega, ?_⟩
  unfold decodeW; rw [show w / 16777216 = 33 by omega]
  exact checked_ok (any_cons (by simp only [bits]; omega) rfl) (by simp only [bits, Instr.vfmin.injEq]; omega) hw

theorem vfmax (d a b t) : Statement (.vfmax d a b t) := by
  refine ofClass (d := decodeW) rfl (fun _ => rfl) rfl rfl fun w e h hw => ⟨by omega, ?_⟩
  unfold decodeW; rw [show w / 16777216 = 34 by omega]
  exact checked_ok (any_cons (by simp only [bits]; omega) rfl) (by simp only [bits, Instr.vfmax.injEq]; omega) hw

theorem vfcmp (c p a b) : Statement (.vfcmp c p a b) := by
  refine ofClass (d := decodeW) rfl (fun _ => rfl) rfl rfl fun w e h hw => ⟨by omega, ?_⟩
  unfold decodeW; rw [show w / 16777216 = 35 by omega]
  exact checked_ok (any_cons (by simp only [bits]; omega) rfl) (by simp only [bits, Instr.vfcmp.injEq]; omega) hw

theorem vfclass (d a t) : Statement (.vfclass d a t) := by
  refine ofClass (d := decodeW) rfl (fun _ => rfl) rfl rfl fun w e h hw => ⟨by omega, ?_⟩
  unfold decodeW; rw [show w / 16777216 = 36 by omega]
  exact checked_ok (any_cons (by simp only [bits]; omega) (any_cons (by simp only [bits]; omega) rfl)) (by simp only [bits, Instr.vfclass.injEq]; omega) hw

theorem vfrcp (d a t) : Statement (.vfrcp d a t) := by
  refine ofClass (d := decodeW) rfl (fun _ => rfl) rfl rfl fun w e h hw => ⟨by omega, ?_⟩
  unfold decodeW; rw [show w / 16777216 = 37 by omega]
  exact checked_ok (any_cons (by simp only [bits]; omega) (any_cons (by simp only [bits]; omega) rfl)) (by simp only [bits, Instr.vfrcp.injEq]; omega) hw

theorem vfrsq (d a t) : Statement (.vfrsq d a t) := by
  refine ofClass (d := decodeW) rfl (fun _ => rfl) rfl rfl fun w e h hw => ⟨by omega, ?_⟩
  unfold decodeW; rw [show w / 16777216 = 38 by omega]
  exact checked_ok (any_cons (by simp only [bits]; omega) (any_cons (by simp only [bits]; omega) rfl)) (by simp only [bits, Instr.vfrsq.injEq]; omega) hw

theorem vfsqrt (d a t) : Statement (.vfsqrt d a t) := by
  refine ofClass (d := decodeW) rfl (fun _ => rfl) rfl rfl fun w e h hw => ⟨by omega, ?_⟩
  unfold decodeW; rw [show w / 16777216 = 39 by omega]
  exact checked_ok (any_cons (by simp only [bits]; omega) (any_cons (by simp only [bits]; omega) rfl)) (by simp only [bits, Instr.vfsqrt.injEq]; omega) hw

theorem vfexp2 (d a t) : Statement (.vfexp2 d a t) := by
  refine ofClass (d := decodeW) rfl (fun _ => rfl) rfl rfl fun w e h hw => ⟨by omega, ?_⟩
  unfold decodeW; rw [show w / 16777216 = 40 by omega]
  exact checked_ok (any_cons (by simp only [bits]; omega) (any_cons (by simp only [bits]; omega) rfl)) (by simp only [bits, Instr.vfexp2.injEq]; omega) hw

theorem vflog2 (d a t) : Statement (.vflog2 d a t) := by
  refine ofClass (d := decodeW) rfl (fun _ => rfl) rfl rfl fun w e h hw => ⟨by omega, ?_⟩
  unfold decodeW; rw [show w / 16777216 = 41 by omega]
  exact checked_ok (any_cons (by simp only [bits]; omega) (any_cons (by simp only [bits]; omega) rfl)) (by simp only [bits, Instr.vflog2.injEq]; omega) hw

theorem vftanh (d a t) : Statement (.vftanh d a t) := by
  refine ofClass (d := decodeW) rfl (fun _ => rfl) rfl rfl fun w e h hw => ⟨by omega, ?_⟩
  unfold decodeW; rw [show w / 16777216 = 42 by omega]
  exact checked_ok (any_cons (by simp only [bits]; omega) (any_cons (by simp only [bits]; omega) rfl)) (by simp only [bits, Instr.vftanh.injEq]; omega) hw

theorem vfadd2 (d a b t v) : Statement (.vfadd2 d a b t v) := by
  refine ofClass (d := decodeW) rfl (fun _ => rfl) rfl rfl fun w e h hw => ⟨by omega, ?_⟩
  unfold decodeW; rw [show w / 16777216 = 43 by omega]
  exact checked_ok rfl (by simp only [bits, Instr.vfadd2.injEq]; omega) hw

theorem vfmul2 (d a b t v) : Statement (.vfmul2 d a b t v) := by
  refine ofClass (d := decodeW) rfl (fun _ => rfl) rfl rfl fun w e h hw => ⟨by omega, ?_⟩
  unfold decodeW; rw [show w / 16777216 = 44 by omega]
  exact checked_ok rfl (by simp only [bits, Instr.vfmul2.injEq]; omega) hw

theorem vfma2 (d a b t v) : Statement (.vfma2 d a b t v) := by
  refine ofClass (d := decodeW) rfl (fun _ => rfl) rfl rfl fun w e h hw => ⟨by omega, ?_⟩
  unfold decodeW; rw [show w / 16777216 = 45 by omega]
  exact checked_ok rfl (by simp only [bits, Instr.vfma2.injEq]; omega) hw

theorem vcvt (d a c r m t v) : Statement (.vcvt d a c r m t v) := by
  refine ofClass (d := decodeW) rfl (fun _ => rfl) rfl rfl fun w e h hw => ⟨by omega, ?_⟩
  unfold decodeW; rw [show w / 16777216 = 46 by omega]
  exact checked_ok rfl (by simp only [bits, Instr.vcvt.injEq]; omega) hw

theorem vsrnd (d a b t v) : Statement (.vsrnd d a b t v) := by
  refine ofClass (d := decodeW) rfl (fun _ => rfl) rfl rfl fun w e h hw => ⟨by omega, ?_⟩
  unfold decodeW; rw [show w / 16777216 = 47 by omega]
  exact checked_ok rfl (by simp only [bits, Instr.vsrnd.injEq]; omega) hw

theorem vrng (d a b t v) : Statement (.vrng d a b t v) := by
  refine ofClass (d := decodeW) rfl (fun _ => rfl) rfl rfl fun w e h hw => ⟨by omega, ?_⟩
  unfold decodeW; rw [show w / 16777216 = 48 by omega]
  exact checked_ok rfl (by simp only [bits, Instr.vrng.injEq]; omega) hw

theorem vpack (d a b t e) : Statement (.vpack d a b t e) := by
  refine ofClass (d := decodeW) rfl (fun _ => rfl) rfl rfl fun w e h hw => ⟨by omega, ?_⟩
  unfold decodeW; rw [show w / 16777216 = 49 by omega]
  exact checked_ok rfl (by simp only [bits, Instr.vpack.injEq]; omega) hw

theorem vunpk (d a b t e) : Statement (.vunpk d a b t e) := by
  refine ofClass (d := decodeW) rfl (fun _ => rfl) rfl rfl fun w e h hw => ⟨by omega, ?_⟩
  unfold decodeW; rw [show w / 16777216 = 50 by omega]
  exact checked_ok rfl (by simp only [bits, Instr.vunpk.injEq]; omega) hw

theorem vplane (d a b t v) : Statement (.vplane d a b t v) := by
  refine ofClass (d := decodeW) rfl (fun _ => rfl) rfl rfl fun w e h hw => ⟨by omega, ?_⟩
  unfold decodeW; rw [show w / 16777216 = 51 by omega]
  exact checked_ok rfl (by simp only [bits, Instr.vplane.injEq]; omega) hw

theorem vmxscale (d a b t v) : Statement (.vmxscale d a b t v) := by
  refine ofClass (d := decodeW) rfl (fun _ => rfl) rfl rfl fun w e h hw => ⟨by omega, ?_⟩
  unfold decodeW; rw [show w / 16777216 = 52 by omega]
  exact checked_ok rfl (by simp only [bits, Instr.vmxscale.injEq]; omega) hw

theorem vmxq (d a b t v) : Statement (.vmxq d a b t v) := by
  refine ofClass (d := decodeW) rfl (fun _ => rfl) rfl rfl fun w e h hw => ⟨by omega, ?_⟩
  unfold decodeW; rw [show w / 16777216 = 53 by omega]
  exact checked_ok rfl (by simp only [bits, Instr.vmxq.injEq]; omega) hw

theorem vqswap (d a b t v) : Statement (.vqswap d a b t v) := by
  refine ofClass (d := decodeW) rfl (fun _ => rfl) rfl rfl fun w e h hw => ⟨by omega, ?_⟩
  unfold decodeW; rw [show w / 16777216 = 54 by omega]
  exact checked_ok rfl (by simp only [bits, Instr.vqswap.injEq]; omega) hw

theorem vqbcast (d a b t v) : Statement (.vqbcast d a b t v) := by
  refine ofClass (d := decodeW) rfl (fun _ => rfl) rfl rfl fun w e h hw => ⟨by omega, ?_⟩
  unfold decodeW; rw [show w / 16777216 = 55 by omega]
  exact checked_ok rfl (by simp only [bits, Instr.vqbcast.injEq]; omega) hw

theorem vqsum (d a b t v) : Statement (.vqsum d a b t v) := by
  refine ofClass (d := decodeW) rfl (fun _ => rfl) rfl rfl fun w e h hw => ⟨by omega, ?_⟩
  unfold decodeW; rw [show w / 16777216 = 56 by omega]
  exact checked_ok rfl (by simp only [bits, Instr.vqsum.injEq]; omega) hw

theorem vshfl (d a b t v) : Statement (.vshfl d a b t v) := by
  refine ofClass (d := decodeW) rfl (fun _ => rfl) rfl rfl fun w e h hw => ⟨by omega, ?_⟩
  unfold decodeW; rw [show w / 16777216 = 57 by omega]
  exact checked_ok rfl (by simp only [bits, Instr.vshfl.injEq]; omega) hw

theorem vbcast (d a b t v) : Statement (.vbcast d a b t v) := by
  refine ofClass (d := decodeW) rfl (fun _ => rfl) rfl rfl fun w e h hw => ⟨by omega, ?_⟩
  unfold decodeW; rw [show w / 16777216 = 58 by omega]
  exact checked_ok rfl (by simp only [bits, Instr.vbcast.injEq]; omega) hw

theorem vred (d a b t v) : Statement (.vred d a b t v) := by
  refine ofClass (d := decodeW) rfl (fun _ => rfl) rfl rfl fun w e h hw => ⟨by omega, ?_⟩
  unfold decodeW; rw [show w / 16777216 = 59 by omega]
  exact checked_ok rfl (by simp only [bits, Instr.vred.injEq]; omega) hw

theorem vscan (d a b t v) : Statement (.vscan d a b t v) := by
  refine ofClass (d := decodeW) rfl (fun _ => rfl) rfl rfl fun w e h hw => ⟨by omega, ?_⟩
  unfold decodeW; rw [show w / 16777216 = 60 by omega]
  exact checked_ok rfl (by simp only [bits, Instr.vscan.injEq]; omega) hw

theorem vballot (d a b t v) : Statement (.vballot d a b t v) := by
  refine ofClass (d := decodeW) rfl (fun _ => rfl) rfl rfl fun w e h hw => ⟨by omega, ?_⟩
  unfold decodeW; rw [show w / 16777216 = 61 by omega]
  exact checked_ok rfl (by simp only [bits, Instr.vballot.injEq]; omega) hw

theorem vsys (d a b t v) : Statement (.vsys d a b t v) := by
  refine ofClass (d := decodeW) rfl (fun _ => rfl) rfl rfl fun w e h hw => ⟨by omega, ?_⟩
  unfold decodeW; rw [show w / 16777216 = 62 by omega]
  exact checked_ok rfl (by simp only [bits, Instr.vsys.injEq]; omega) hw

theorem pand (d a b) : Statement (.pand d a b) := by
  refine ofClass (d := decodeW) rfl (fun _ => rfl) rfl rfl fun w e h hw => ⟨by omega, ?_⟩
  unfold decodeW; rw [show w / 16777216 = 63 by omega]
  exact checked_ok (any_cons (by simp only [bits]; omega) rfl) (by simp only [bits, Instr.pand.injEq]; omega) hw

theorem por (d a b) : Statement (.por d a b) := by
  refine ofClass (d := decodeW) rfl (fun _ => rfl) rfl rfl fun w e h hw => ⟨by omega, ?_⟩
  unfold decodeW; rw [show w / 16777216 = 64 by omega]
  exact checked_ok (any_cons (by simp only [bits]; omega) rfl) (by simp only [bits, Instr.por.injEq]; omega) hw

theorem pxor (d a b) : Statement (.pxor d a b) := by
  refine ofClass (d := decodeW) rfl (fun _ => rfl) rfl rfl fun w e h hw => ⟨by omega, ?_⟩
  unfold decodeW; rw [show w / 16777216 = 65 by omega]
  exact checked_ok (any_cons (by simp only [bits]; omega) rfl) (by simp only [bits, Instr.pxor.injEq]; omega) hw

theorem pnot (d a) : Statement (.pnot d a) := by
  refine ofClass (d := decodeW) rfl (fun _ => rfl) rfl rfl fun w e h hw => ⟨by omega, ?_⟩
  unfold decodeW; rw [show w / 16777216 = 66 by omega]
  exact checked_ok (any_cons (by simp only [bits]; omega) rfl) (by simp only [bits, Instr.pnot.injEq]; omega) hw

theorem pmov (d a) : Statement (.pmov d a) := by
  refine ofClass (d := decodeW) rfl (fun _ => rfl) rfl rfl fun w e h hw => ⟨by omega, ?_⟩
  unfold decodeW; rw [show w / 16777216 = 67 by omega]
  exact checked_ok (any_cons (by simp only [bits]; omega) rfl) (by simp only [bits, Instr.pmov.injEq]; omega) hw

theorem pset (d i) : Statement (.pset d i) := by
  refine ofClass (d := decodeW) rfl (fun _ => rfl) rfl rfl fun w e h hw => ⟨by omega, ?_⟩
  unfold decodeW; rw [show w / 16777216 = 68 by omega]
  exact checked_ok (any_cons (by simp only [bits]; omega) (any_cons (by simp only [bits]; omega) rfl)) (by simp only [bits, Instr.pset.injEq]; omega) hw

theorem vqpop (d t v) : Statement (.vqpop d t v) := by
  refine ofClass (d := decodeW) rfl (fun _ => rfl) rfl rfl fun w e h hw => ⟨by omega, ?_⟩
  unfold decodeW; rw [show w / 16777216 = 69 by omega]
  exact checked_ok (any_cons (by simp only [bits]; omega) rfl) (by simp only [bits, Instr.vqpop.injEq]; omega) hw

theorem vqpush (a v) : Statement (.vqpush a v) := by
  refine ofClass (d := decodeW) rfl (fun _ => rfl) rfl rfl fun w e h hw => ⟨by omega, ?_⟩
  unfold decodeW; rw [show w / 16777216 = 70 by omega]
  exact checked_ok (any_cons (by simp only [bits]; omega) (any_cons (by simp only [bits]; omega) rfl)) (by simp only [bits, Instr.vqpush.injEq]; omega) hw

theorem vld (d z r o b) : Statement (.vld d z r o b) := by
  refine ofClass (d := decodeM) rfl (fun _ => rfl) rfl rfl fun w e h hw => ⟨by omega, ?_⟩
  unfold decodeM; rw [show w / 16777216 = 1 by omega]
  exact checked_ok rfl (by simp only [bits, Instr.vld.injEq]; omega) hw

theorem vst (d z r o b) : Statement (.vst d z r o b) := by
  refine ofClass (d := decodeM) rfl (fun _ => rfl) rfl rfl fun w e h hw => ⟨by omega, ?_⟩
  unfold decodeM; rw [show w / 16777216 = 2 by omega]
  exact checked_ok rfl (by simp only [bits, Instr.vst.injEq]; omega) hw

theorem vldsp (d z r o b) : Statement (.vldsp d z r o b) := by
  refine ofClass (d := decodeM) rfl (fun _ => rfl) rfl rfl fun w e h hw => ⟨by omega, ?_⟩
  unfold decodeM; rw [show w / 16777216 = 3 by omega]
  exact checked_ok rfl (by simp only [bits, Instr.vldsp.injEq]; omega) hw

theorem vstsp (d z r o b) : Statement (.vstsp d z r o b) := by
  refine ofClass (d := decodeM) rfl (fun _ => rfl) rfl rfl fun w e h hw => ⟨by omega, ?_⟩
  unfold decodeM; rw [show w / 16777216 = 4 by omega]
  exact checked_ok rfl (by simp only [bits, Instr.vstsp.injEq]; omega) hw

theorem vldt (d z r o b) : Statement (.vldt d z r o b) := by
  refine ofClass (d := decodeM) rfl (fun _ => rfl) rfl rfl fun w e h hw => ⟨by omega, ?_⟩
  unfold decodeM; rw [show w / 16777216 = 5 by omega]
  exact checked_ok rfl (by simp only [bits, Instr.vldt.injEq]; omega) hw

theorem vldx (d z r o b) : Statement (.vldx d z r o b) := by
  refine ofClass (d := decodeM) rfl (fun _ => rfl) rfl rfl fun w e h hw => ⟨by omega, ?_⟩
  unfold decodeM; rw [show w / 16777216 = 6 by omega]
  exact checked_ok rfl (by simp only [bits, Instr.vldx.injEq]; omega) hw

theorem vstx (d z r o b) : Statement (.vstx d z r o b) := by
  refine ofClass (d := decodeM) rfl (fun _ => rfl) rfl rfl fun w e h hw => ⟨by omega, ?_⟩
  unfold decodeM; rw [show w / 16777216 = 7 by omega]
  exact checked_ok rfl (by simp only [bits, Instr.vstx.injEq]; omega) hw

theorem vpref (z r o b) : Statement (.vpref z r o b) := by
  refine ofClass (d := decodeM) rfl (fun _ => rfl) rfl rfl fun w e h hw => ⟨by omega, ?_⟩
  unfold decodeM; rw [show w / 16777216 = 8 by omega]
  exact checked_ok (any_cons (by simp only [bits]; omega) rfl) (by simp only [bits, Instr.vpref.injEq]; omega) hw

theorem prsclr (z r o) : Statement (.prsclr z r o) := by
  refine ofClass (d := decodeM) rfl (fun _ => rfl) rfl rfl fun w e h hw => ⟨by omega, ?_⟩
  unfold decodeM; rw [show w / 16777216 = 9 by omega]; show ite _ _ _ = _; rw [if_pos (by simp only [bits]; omega)]
  exact checked_ok (any_cons (by simp only [bits]; omega) rfl) (by simp only [bits, Instr.prsclr.injEq]; omega) hw

theorem prswait (z r o) : Statement (.prswait z r o) := by
  refine ofClass (d := decodeM) rfl (fun _ => rfl) rfl rfl fun w e h hw => ⟨by omega, ?_⟩
  unfold decodeM; rw [show w / 16777216 = 10 by omega]; show ite _ _ _ = _; rw [if_pos (by simp only [bits]; omega)]
  exact checked_ok (any_cons (by simp only [bits]; omega) rfl) (by simp only [bits, Instr.prswait.injEq]; omega) hw

theorem prstest (d z r o) : Statement (.prstest d z r o) := by
  refine ofClass (d := decodeM) rfl (fun _ => rfl) rfl rfl fun w e h hw => ⟨by omega, ?_⟩
  unfold decodeM; rw [show w / 16777216 = 11 by omega]; show ite _ _ _ = _; rw [if_pos (by simp only [bits]; omega)]
  exact checked_ok rfl (by simp only [bits, Instr.prstest.injEq]; omega) hw

theorem phase (s) : Statement (.phase s) := by
  refine ofClass (d := decodeM) rfl (fun _ => rfl) rfl rfl fun w e h hw => ⟨by omega, ?_⟩
  unfold decodeM; rw [show w / 16777216 = 12 by omega]; show ite _ _ _ = _; rw [if_pos (by simp only [bits]; omega)]
  exact checked_ok (any_cons (by simp only [bits]; omega) (any_cons (by simp only [bits]; omega) rfl)) (by simp only [bits, Instr.phase.injEq]; omega) hw

theorem memoryAccessCompletion (core id) : Statement (.memoryAccessCompletion core id) := nofun
theorem presenceWaitResume (blk grp) : Statement (.presenceWaitResume blk grp) := nofun
theorem presenceTimeout (blk grp) : Statement (.presenceTimeout blk grp) := nofun
theorem divergenceStarvation (blk grp lane) : Statement (.divergenceStarvation blk grp lane) := nofun
theorem groupPromotion (core quad) : Statement (.groupPromotion core quad) := nofun
theorem bra (n c o) : Statement (.bra n c o) := by
  refine ofClass (d := decodeF) rfl (fun _ => rfl) rfl rfl fun w e h hw => ⟨by omega, ?_⟩
  unfold decodeF; rw [show w / 16777216 = 1 by omega]
  exact checked_ok rfl (by simp only [bits, Instr.bra.injEq]; omega) hw

theorem bru (n c o) : Statement (.bru n c o) := by
  refine ofClass (d := decodeF) rfl (fun _ => rfl) rfl rfl fun w e h hw => ⟨by omega, ?_⟩
  unfold decodeF; rw [show w / 16777216 = 2 by omega]
  exact checked_ok rfl (by simp only [bits, Instr.bru.injEq]; omega) hw

theorem jmpi (a v) : Statement (.jmpi a v) := by
  refine ofClass (d := decodeF) rfl (fun _ => rfl) rfl rfl fun w e h hw => ⟨by omega, ?_⟩
  unfold decodeF; rw [show w / 16777216 = 3 by omega]
  exact checked_ok (any_cons (by simp only [bits]; omega) (any_cons (by simp only [bits]; omega) rfl)) (by simp only [bits, Instr.jmpi.injEq]; omega) hw

theorem call (i) : Statement (.call i) := by
  refine ofClass (d := decodeF) rfl (fun _ => rfl) rfl rfl fun w e h hw => ⟨by omega, ?_⟩
  unfold decodeF; rw [show w / 16777216 = 4 by omega]
  exact checked_ok rfl (by simp only [bits, Instr.call.injEq]; omega) hw

theorem ret : Statement .ret := by
  refine ofClass (d := decodeF) (P := True) rfl (fun _ => rfl) rfl rfl fun w e h hw => ⟨by omega, ?_⟩
  unfold decodeF; rw [show w / 16777216 = 5 by omega]
  exact checked_ok (any_cons (by simp only [bits]; omega) rfl) rfl hw

theorem enrol (k) : Statement (.enrol k) := by
  refine ofClass (d := decodeF) rfl (fun _ => rfl) rfl rfl fun w e h hw => ⟨by omega, ?_⟩
  unfold decodeF; rw [show w / 16777216 = 6 by omega]
  exact checked_ok (any_cons (by simp only [bits]; omega) rfl) (by simp only [bits, Instr.enrol.injEq]; omega) hw

theorem rejoin (k) : Statement (.rejoin k) := by
  refine ofClass (d := decodeF) rfl (fun _ => rfl) rfl rfl fun w e h hw => ⟨by omega, ?_⟩
  unfold decodeF; rw [show w / 16777216 = 7 by omega]
  exact checked_ok (any_cons (by simp only [bits]; omega) rfl) (by simp only [bits, Instr.rejoin.injEq]; omega) hw

theorem strike (k) : Statement (.strike k) := by
  refine ofClass (d := decodeF) rfl (fun _ => rfl) rfl rfl fun w e h hw => ⟨by omega, ?_⟩
  unfold decodeF; rw [show w / 16777216 = 8 by omega]
  exact checked_ok (any_cons (by simp only [bits]; omega) rfl) (by simp only [bits, Instr.strike.injEq]; omega) hw

theorem spawn (d a b v) : Statement (.spawn d a b v) := by
  refine ofClass (d := decodeF) rfl (fun _ => rfl) rfl rfl fun w e h hw => ⟨by omega, ?_⟩
  unfold decodeF; rw [show w / 16777216 = 9 by omega]
  exact checked_ok (any_cons (by simp only [bits]; omega) rfl) (by simp only [bits, Instr.spawn.injEq]; omega) hw

theorem exit : Statement .exit := by
  refine ofClass (d := decodeF) (P := True) rfl (fun _ => rfl) rfl rfl fun w e h hw => ⟨by omega, ?_⟩
  unfold decodeF; rw [show w / 16777216 = 10 by omega]
  exact checked_ok (any_cons (by simp only [bits]; omega) rfl) rfl hw

theorem yield : Statement .yield := by
  refine ofClass (d := decodeF) (P := True) rfl (fun _ => rfl) rfl rfl fun w e h hw => ⟨by omega, ?_⟩
  unfold decodeF; rw [show w / 16777216 = 11 by omega]
  exact checked_ok (any_cons (by simp only [bits]; omega) rfl) rfl hw

theorem nop : Statement .nop := by
  refine ofClass (d := decodeF) (P := True) rfl (fun _ => rfl) rfl rfl fun w e h hw => ⟨by omega, ?_⟩
  unfold decodeF; rw [show w / 16777216 = 12 by omega]
  exact checked_ok (any_cons (by simp only [bits]; omega) rfl) rfl hw

theorem fork (k) : Statement (.fork k) := by
  refine ofClass (d := decodeF) rfl (fun _ => rfl) rfl rfl fun w e h hw => ⟨by omega, ?_⟩
  unfold decodeF; rw [show w / 16777216 = 13 by omega]
  exact checked_ok (any_cons (by simp only [bits]; omega) rfl) (by simp only [bits, Instr.fork.injEq]; omega) hw

theorem rdv (k) : Statement (.rdv k) := by
  refine ofClass (d := decodeF) rfl (fun _ => rfl) rfl rfl fun w e h hw => ⟨by omega, ?_⟩
  unfold decodeF; rw [show w / 16777216 = 14 by omega]
  exact checked_ok (any_cons (by simp only [bits]; omega) rfl) (by simp only [bits, Instr.rdv.injEq]; omega) hw

theorem barar (i) : Statement (.barar i) := by
  refine ofClass (d := decodeY) rfl (fun _ => rfl) rfl rfl fun w e h hw => ⟨by omega, ?_⟩
  unfold decodeY; rw [show w / 16777216 = 1 by omega]
  exact checked_ok (any_cons (by simp only [bits]; omega) rfl) (by simp only [bits, Instr.barar.injEq]; omega) hw

theorem barwt (i) : Statement (.barwt i) := by
  refine ofClass (d := decodeY) rfl (fun _ => rfl) rfl rfl fun w e h hw => ⟨by omega, ?_⟩
  unfold decodeY; rw [show w / 16777216 = 2 by omega]
  exact checked_ok (any_cons (by simp only [bits]; omega) rfl) (by simp only [bits, Instr.barwt.injEq]; omega) hw

theorem barsync (i) : Statement (.barsync i) := by
  refine ofClass (d := decodeY) rfl (fun _ => rfl) rfl rfl fun w e h hw => ⟨by omega, ?_⟩
  unfold decodeY; rw [show w / 16777216 = 3 by omega]
  exact checked_ok (any_cons (by simp only [bits]; omega) rfl) (by simp only [bits, Instr.barsync.injEq]; omega) hw

theorem msync (a) : Statement (.msync a) := by
  refine ofClass (d := decodeY) rfl (fun _ => rfl) rfl rfl fun w e h hw => ⟨by omega, ?_⟩
  unfold decodeY; rw [show w / 16777216 = 4 by omega]
  exact checked_ok (any_cons (by simp only [bits]; omega) (any_cons (by simp only [bits]; omega) rfl)) (by simp only [bits, Instr.msync.injEq]; omega) hw

theorem cljoin (d a b v) : Statement (.cljoin d a b v) := by
  refine ofClass (d := decodeY) rfl (fun _ => rfl) rfl rfl fun w e h hw => ⟨by omega, ?_⟩
  unfold decodeY; rw [show w / 16777216 = 5 by omega]
  exact checked_ok (any_cons (by simp only [bits]; omega) rfl) (by simp only [bits, Instr.cljoin.injEq]; omega) hw

theorem clleave (d v) : Statement (.clleave d v) := by
  refine ofClass (d := decodeY) rfl (fun _ => rfl) rfl rfl fun w e h hw => ⟨by omega, ?_⟩
  unfold decodeY; rw [show w / 16777216 = 6 by omega]
  exact checked_ok (any_cons (by simp only [bits]; omega) rfl) (by simp only [bits, Instr.clleave.injEq]; omega) hw

theorem clslot (d v) : Statement (.clslot d v) := by
  refine ofClass (d := decodeY) rfl (fun _ => rfl) rfl rfl fun w e h hw => ⟨by omega, ?_⟩
  unfold decodeY; rw [show w / 16777216 = 7 by omega]
  exact checked_ok (any_cons (by simp only [bits]; omega) rfl) (by simp only [bits, Instr.clslot.injEq]; omega) hw

theorem clusterJoinTimeout (blk grp) : Statement (.clusterJoinTimeout blk grp) := nofun
theorem atadd (d a b v) : Statement (.atadd d a b v) := by
  refine ofClass (d := decodeY) rfl (fun _ => rfl) rfl rfl fun w e h hw => ⟨by omega, ?_⟩
  unfold decodeY; rw [show w / 16777216 = 8 by omega]
  exact checked_ok (any_cons (by simp only [bits]; omega) rfl) (by simp only [bits, Instr.atadd.injEq]; omega) hw

theorem atinc (d a b v) : Statement (.atinc d a b v) := by
  refine ofClass (d := decodeY) rfl (fun _ => rfl) rfl rfl fun w e h hw => ⟨by omega, ?_⟩
  unfold decodeY; rw [show w / 16777216 = 9 by omega]
  exact checked_ok (any_cons (by simp only [bits]; omega) rfl) (by simp only [bits, Instr.atinc.injEq]; omega) hw

theorem atbadd (d a b v) : Statement (.atbadd d a b v) := by
  refine ofClass (d := decodeY) rfl (fun _ => rfl) rfl rfl fun w e h hw => ⟨by omega, ?_⟩
  unfold decodeY; rw [show w / 16777216 = 10 by omega]
  exact checked_ok (any_cons (by simp only [bits]; omega) rfl) (by simp only [bits, Instr.atbadd.injEq]; omega) hw

theorem atmin (d a b v) : Statement (.atmin d a b v) := by
  refine ofClass (d := decodeY) rfl (fun _ => rfl) rfl rfl fun w e h hw => ⟨by omega, ?_⟩
  unfold decodeY; rw [show w / 16777216 = 11 by omega]
  exact checked_ok (any_cons (by simp only [bits]; omega) rfl) (by simp only [bits, Instr.atmin.injEq]; omega) hw

theorem atmax (d a b v) : Statement (.atmax d a b v) := by
  refine ofClass (d := decodeY) rfl (fun _ => rfl) rfl rfl fun w e h hw => ⟨by omega, ?_⟩
  unfold decodeY; rw [show w / 16777216 = 12 by omega]
  exact checked_ok (any_cons (by simp only [bits]; omega) rfl) (by simp only [bits, Instr.atmax.injEq]; omega) hw

theorem atand (d a b v) : Statement (.atand d a b v) := by
  refine ofClass (d := decodeY) rfl (fun _ => rfl) rfl rfl fun w e h hw => ⟨by omega, ?_⟩
  unfold decodeY; rw [show w / 16777216 = 13 by omega]
  exact checked_ok (any_cons (by simp only [bits]; omega) rfl) (by simp only [bits, Instr.atand.injEq]; omega) hw

theorem ator (d a b v) : Statement (.ator d a b v) := by
  refine ofClass (d := decodeY) rfl (fun _ => rfl) rfl rfl fun w e h hw => ⟨by omega, ?_⟩
  unfold decodeY; rw [show w / 16777216 = 14 by omega]
  exact checked_ok (any_cons (by simp only [bits]; omega) rfl) (by simp only [bits, Instr.ator.injEq]; omega) hw

theorem atxor (d a b v) : Statement (.atxor d a b v) := by
  refine ofClass (d := decodeY) rfl (fun _ => rfl) rfl rfl fun w e h hw => ⟨by omega, ?_⟩
  unfold decodeY; rw [show w / 16777216 = 15 by omega]
  exact checked_ok (any_cons (by simp only [bits]; omega) rfl) (by simp only [bits, Instr.atxor.injEq]; omega) hw

theorem atxchg (d a b v) : Statement (.atxchg d a b v) := by
  refine ofClass (d := decodeY) rfl (fun _ => rfl) rfl rfl fun w e h hw => ⟨by omega, ?_⟩
  unfold decodeY; rw [show w / 16777216 = 16 by omega]
  exact checked_ok (any_cons (by simp only [bits]; omega) rfl) (by simp only [bits, Instr.atxchg.injEq]; omega) hw

theorem atcas (d a b v) : Statement (.atcas d a b v) := by
  refine ofClass (d := decodeY) rfl (fun _ => rfl) rfl rfl fun w e h hw => ⟨by omega, ?_⟩
  unfold decodeY; rw [show w / 16777216 = 17 by omega]
  exact checked_ok (any_cons (by simp only [bits]; omega) rfl) (by simp only [bits, Instr.atcas.injEq]; omega) hw

theorem atld (d a v) : Statement (.atld d a v) := by
  refine ofClass (d := decodeY) rfl (fun _ => rfl) rfl rfl fun w e h hw => ⟨by omega, ?_⟩
  unfold decodeY; rw [show w / 16777216 = 18 by omega]
  exact checked_ok (any_cons (by simp only [bits]; omega) rfl) (by simp only [bits, Instr.atld.injEq]; omega) hw

theorem atred (a b v) : Statement (.atred a b v) := by
  refine ofClass (d := decodeY) rfl (fun _ => rfl) rfl rfl fun w e h hw => ⟨by omega, ?_⟩
  unfold decodeY; rw [show w / 16777216 = 19 by omega]
  exact checked_ok (any_cons (by simp only [bits]; omega) (any_cons (by simp only [bits]; omega) rfl)) (by simp only [bits, Instr.atred.injEq]; omega) hw

theorem tkdec (d a v) : Statement (.tkdec d a v) := by
  refine ofClass (d := decodeY) rfl (fun _ => rfl) rfl rfl fun w e h hw => ⟨by omega, ?_⟩
  unfold decodeY; rw [show w / 16777216 = 20 by omega]
  exact checked_ok (any_cons (by simp only [bits]; omega) rfl) (by simp only [bits, Instr.tkdec.injEq]; omega) hw

theorem tkadd (d a b v) : Statement (.tkadd d a b v) := by
  refine ofClass (d := decodeY) rfl (fun _ => rfl) rfl rfl fun w e h hw => ⟨by omega, ?_⟩
  unfold decodeY; rw [show w / 16777216 = 21 by omega]
  exact checked_ok (any_cons (by simp only [bits]; omega) rfl) (by simp only [bits, Instr.tkadd.injEq]; omega) hw

theorem tkmake (d a b v) : Statement (.tkmake d a b v) := by
  refine ofClass (d := decodeY) rfl (fun _ => rfl) rfl rfl fun w e h hw => ⟨by omega, ?_⟩
  unfold decodeY; rw [show w / 16777216 = 22 by omega]
  exact checked_ok (any_cons (by simp only [bits]; omega) rfl) (by simp only [bits, Instr.tkmake.injEq]; omega) hw

theorem tktake (d v) : Statement (.tktake d v) := by
  refine ofClass (d := decodeY) rfl (fun _ => rfl) rfl rfl fun w e h hw => ⟨by omega, ?_⟩
  unfold decodeY; rw [show w / 16777216 = 23 by omega]
  exact checked_ok (any_cons (by simp only [bits]; omega) rfl) (by simp only [bits, Instr.tktake.injEq]; omega) hw

theorem rocall (d a b) : Statement (.rocall d a b) := by
  refine ofClass (d := decodeY) rfl (fun _ => rfl) rfl rfl fun w e h hw => ⟨by omega, ?_⟩
  unfold decodeY; rw [show w / 16777216 = 24 by omega]; show ite _ _ _ = _; rw [if_pos (by simp only [bits]; omega)]
  exact checked_ok (any_cons (by simp only [bits]; omega) rfl) (by simp only [bits, Instr.rocall.injEq]; omega) hw

theorem rowait (d a) : Statement (.rowait d a) := by
  refine ofClass (d := decodeY) rfl (fun _ => rfl) rfl rfl fun w e h hw => ⟨by omega, ?_⟩
  unfold decodeY; rw [show w / 16777216 = 25 by omega]; show ite _ _ _ = _; rw [if_pos (by simp only [bits]; omega)]
  exact checked_ok (any_cons (by simp only [bits]; omega) rfl) (by simp only [bits, Instr.rowait.injEq]; omega) hw

theorem roread (d a b) : Statement (.roread d a b) := by
  refine ofClass (d := decodeY) rfl (fun _ => rfl) rfl rfl fun w e h hw => ⟨by omega, ?_⟩
  unfold decodeY; rw [show w / 16777216 = 26 by omega]; show ite _ _ _ = _; rw [if_pos (by simp only [bits]; omega)]
  exact checked_ok (any_cons (by simp only [bits]; omega) rfl) (by simp only [bits, Instr.roread.injEq]; omega) hw

theorem rotrim (d a) : Statement (.rotrim d a) := by
  refine ofClass (d := decodeY) rfl (fun _ => rfl) rfl rfl fun w e h hw => ⟨by omega, ?_⟩
  unfold decodeY; rw [show w / 16777216 = 27 by omega]; show ite _ _ _ = _; rw [if_pos (by simp only [bits]; omega)]
  exact checked_ok (any_cons (by simp only [bits]; omega) rfl) (by simp only [bits, Instr.rotrim.injEq]; omega) hw

theorem cpost (a b v) : Statement (.cpost a b v) := by
  refine ofClass (d := decodeC) rfl (fun _ => rfl) rfl rfl fun w e h hw => ⟨by omega, ?_⟩
  unfold decodeC; rw [show w / 16777216 = 1 by omega]; show ite _ _ _ = _; rw [if_pos (by simp only [bits]; omega), if_pos (by simp only [bits]; omega)]
  exact checked_ok (any_cons (by simp only [bits]; omega) rfl) (by simp only [bits, Instr.cpost.injEq]; omega) hw

theorem cpostTry (n a b v) : Statement (.cpostTry n a b v) := by
  refine ofClass (d := decodeC) rfl (fun _ => rfl) rfl rfl fun w e h hw => ⟨by omega, ?_⟩
  unfold decodeC; rw [show w / 16777216 = 1 by omega]; show ite _ _ _ = _; rw [if_neg (by simp only [bits]; omega), if_pos (by simp only [bits]; omega)]
  exact checked_ok (any_cons (by simp only [bits]; omega) rfl) (by simp only [bits, Instr.cpostTry.injEq]; omega) hw

theorem cwait (a b v) : Statement (.cwait a b v) := by
  refine ofClass (d := decodeC) rfl (fun _ => rfl) rfl rfl fun w e h hw => ⟨by omega, ?_⟩
  unfold decodeC; rw [show w / 16777216 = 2 by omega]
  exact checked_ok (any_cons (by simp only [bits]; omega) (any_cons (by simp only [bits]; omega) rfl)) (by simp only [bits, Instr.cwait.injEq]; omega) hw

theorem ctest (d a b v) : Statement (.ctest d a b v) := by
  refine ofClass (d := decodeC) rfl (fun _ => rfl) rfl rfl fun w e h hw => ⟨by omega, ?_⟩
  unfold decodeC; rw [show w / 16777216 = 3 by omega]
  exact checked_ok (any_cons (by simp only [bits]; omega) rfl) (by simp only [bits, Instr.ctest.injEq]; omega) hw

theorem cfence (a b v) : Statement (.cfence a b v) := by
  refine ofClass (d := decodeC) rfl (fun _ => rfl) rfl rfl fun w e h hw => ⟨by omega, ?_⟩
  unfold decodeC; rw [show w / 16777216 = 4 by omega]
  exact checked_ok (any_cons (by simp only [bits]; omega) (any_cons (by simp only [bits]; omega) rfl)) (by simp only [bits, Instr.cfence.injEq]; omega) hw

theorem crec (d a b v) : Statement (.crec d a b v) := by
  refine ofClass (d := decodeC) rfl (fun _ => rfl) rfl rfl fun w e h hw => ⟨by omega, ?_⟩
  unfold decodeC; rw [show w / 16777216 = 5 by omega]
  exact checked_ok (any_cons (by simp only [bits]; omega) rfl) (by simp only [bits, Instr.crec.injEq]; omega) hw

theorem cabort (d a v) : Statement (.cabort d a v) := by
  refine ofClass (d := decodeC) rfl (fun _ => rfl) rfl rfl fun w e h hw => ⟨by omega, ?_⟩
  unfold decodeC; rw [show w / 16777216 = 6 by omega]
  exact checked_ok (any_cons (by simp only [bits]; omega) rfl) (by simp only [bits, Instr.cabort.injEq]; omega) hw

theorem ccoll (a v) : Statement (.ccoll a v) := by
  refine ofClass (d := decodeC) rfl (fun _ => rfl) rfl rfl fun w e h hw => ⟨by omega, ?_⟩
  unfold decodeC; rw [show w / 16777216 = 7 by omega]
  exact checked_ok (any_cons (by simp only [bits]; omega) (any_cons (by simp only [bits]; omega) rfl)) (by simp only [bits, Instr.ccoll.injEq]; omega) hw

theorem cgen (d a v) : Statement (.cgen d a v) := by
  refine ofClass (d := decodeC) rfl (fun _ => rfl) rfl rfl fun w e h hw => ⟨by omega, ?_⟩
  unfold decodeC; rw [show w / 16777216 = 8 by omega]
  exact checked_ok (any_cons (by simp only [bits]; omega) rfl) (by simp only [bits, Instr.cgen.injEq]; omega) hw

theorem trap (i) : Statement (.trap i) := by
  refine ofClass (d := decodeP) rfl (fun _ => rfl) rfl rfl fun w e h hw => ⟨by omega, ?_⟩
  unfold decodeP; rw [show w / 16777216 = 1 by omega]
  exact checked_ok (any_cons (by simp only [bits]; omega) rfl) (by simp only [bits, Instr.trap.injEq]; omega) hw

theorem tret : Statement .tret := by
  refine ofClass (d := decodeP) (P := True) rfl (fun _ => rfl) rfl rfl fun w e h hw => ⟨by omega, ?_⟩
  unfold decodeP; rw [show w / 16777216 = 2 by omega]
  exact checked_ok (any_cons (by simp only [bits]; omega) rfl) rfl hw

theorem csrr (d r) : Statement (.csrr d r) := by
  refine ofClass (d := decodeP) rfl (fun _ => rfl) rfl rfl fun w e h hw => ⟨by omega, ?_⟩
  unfold decodeP; rw [show w / 16777216 = 3 by omega]
  exact checked_ok (any_cons (by simp only [bits]; omega) rfl) (by simp only [bits, Instr.csrr.injEq]; omega) hw

theorem csrw (a r) : Statement (.csrw a r) := by
  refine ofClass (d := decodeP) rfl (fun _ => rfl) rfl rfl fun w e h hw => ⟨by omega, ?_⟩
  unfold decodeP; rw [show w / 16777216 = 4 by omega]
  exact checked_ok (any_cons (by simp only [bits]; omega) rfl) (by simp only [bits, Instr.csrw.injEq]; omega) hw

theorem ctxsave (d a b) : Statement (.ctxsave d a b) := by
  refine ofClass (d := decodeP) rfl (fun _ => rfl) rfl rfl fun w e h hw => ⟨by omega, ?_⟩
  unfold decodeP; rw [show w / 16777216 = 5 by omega]
  exact checked_ok (any_cons (by simp only [bits]; omega) rfl) (by simp only [bits, Instr.ctxsave.injEq]; omega) hw

theorem ctxload (d a) : Statement (.ctxload d a) := by
  refine ofClass (d := decodeP) rfl (fun _ => rfl) rfl rfl fun w e h hw => ⟨by omega, ?_⟩
  unfold decodeP; rw [show w / 16777216 = 6 by omega]
  exact checked_ok (any_cons (by simp only [bits]; omega) rfl) (by simp only [bits, Instr.ctxload.injEq]; omega) hw

theorem mbpost (d a b) : Statement (.mbpost d a b) := by
  refine ofClass (d := decodeP) rfl (fun _ => rfl) rfl rfl fun w e h hw => ⟨by omega, ?_⟩
  unfold decodeP; rw [show w / 16777216 = 7 by omega]
  exact checked_ok (any_cons (by simp only [bits]; omega) rfl) (by simp only [bits, Instr.mbpost.injEq]; omega) hw

theorem mbpoll (d a b) : Statement (.mbpoll d a b) := by
  refine ofClass (d := decodeP) rfl (fun _ => rfl) rfl rfl fun w e h hw => ⟨by omega, ?_⟩
  unfold decodeP; rw [show w / 16777216 = 8 by omega]
  exact checked_ok (any_cons (by simp only [bits]; omega) rfl) (by simp only [bits, Instr.mbpoll.injEq]; omega) hw

theorem halt : Statement .halt := by
  refine ofClass (d := decodeP) (P := True) rfl (fun _ => rfl) rfl rfl fun w e h hw => ⟨by omega, ?_⟩
  unfold decodeP; rw [show w / 16777216 = 9 by omega]
  exact checked_ok (any_cons (by simp only [bits]; omega) rfl) rfl hw

theorem tlbinv (a b) : Statement (.tlbinv a b) := by
  refine ofClass (d := decodeP) rfl (fun _ => rfl) rfl rfl fun w e h hw => ⟨by omega, ?_⟩
  unfold decodeP; rw [show w / 16777216 = 10 by omega]
  exact checked_ok (any_cons (by simp only [bits]; omega) (any_cons (by simp only [bits]; omega) rfl)) (by simp only [bits, Instr.tlbinv.injEq]; omega) hw

theorem ldio (d a i) : Statement (.ldio d a i) := by
  refine ofClass (d := decodeP) rfl (fun _ => rfl) rfl rfl fun w e h hw => ⟨by omega, ?_⟩
  unfold decodeP; rw [show w / 16777216 = 11 by omega]
  exact checked_ok rfl (by simp only [bits, Instr.ldio.injEq]; omega) hw

theorem stio (d a i) : Statement (.stio d a i) := by
  refine ofClass (d := decodeP) rfl (fun _ => rfl) rfl rfl fun w e h hw => ⟨by omega, ?_⟩
  unfold decodeP; rw [show w / 16777216 = 12 by omega]
  exact checked_ok rfl (by simp only [bits, Instr.stio.injEq]; omega) hw

theorem wfi : Statement .wfi := by
  refine ofClass (d := decodeP) (P := True) rfl (fun _ => rfl) rfl rfl fun w e h hw => ⟨by omega, ?_⟩
  unfold decodeP; rw [show w / 16777216 = 13 by omega]
  exact checked_ok (any_cons (by simp only [bits]; omega) rfl) rfl hw

theorem wfiWake (m) : Statement (.wfiWake m) := nofun
theorem mcfgIndex (n i) : Statement (.mcfgIndex n i) := by
  refine ofClass (d := decodeX) rfl (fun _ => rfl) rfl rfl fun w e h hw => ⟨by omega, ?_⟩
  unfold decodeX; rw [show w / 16777216 = 1 by omega]; show ite _ _ _ = _; rw [if_neg (by rw [any_cons (by simp only [bits]; omega) rfl]; decide), if_pos (by simp only [bits]; omega)]
  exact checked_ok rfl (by simp only [bits, Instr.mcfgIndex.injEq]; omega) hw

theorem mcfgArea (u) : Statement (.mcfgArea u) := by
  refine ofClass (d := decodeX) rfl (fun _ => rfl) rfl rfl fun w e h hw => ⟨by omega, ?_⟩
  unfold decodeX; rw [show w / 16777216 = 1 by omega]; show ite _ _ _ = _; rw [if_neg (by rw [any_cons (by simp only [bits]; omega) rfl]; decide), if_neg (by simp only [bits]; omega), if_neg (by simp only [bits]; omega), if_pos (by simp only [bits]; omega)]
  exact checked_ok (any_cons (by simp only [bits]; omega) rfl) (by simp only [bits, Instr.mcfgArea.injEq]; omega) hw

theorem mcfgAfmt (k t) : Statement (.mcfgAfmt k t) := by
  refine ofClass (d := decodeX) rfl (fun _ => rfl) rfl rfl fun w e h hw => ⟨by omega, ?_⟩
  unfold decodeX; rw [show w / 16777216 = 1 by omega]; show ite _ _ _ = _; rw [if_neg (by rw [any_cons (by simp only [bits]; omega) rfl]; decide), if_neg (by simp only [bits]; omega), if_neg (by simp only [bits]; omega), if_neg (by simp only [bits]; omega), if_pos (by simp only [bits]; omega), if_pos (by simp only [bits]; omega)]
  exact checked_ok (any_cons (by simp only [bits]; omega) rfl) (by simp only [bits, Instr.mcfgAfmt.injEq]; omega) hw

theorem mcfgGrp (g) : Statement (.mcfgGrp g) := by
  refine ofClass (d := decodeX) rfl (fun _ => rfl) rfl rfl fun w e h hw => ⟨by omega, ?_⟩
  unfold decodeX; rw [show w / 16777216 = 1 by omega]; show ite _ _ _ = _; rw [if_neg (by rw [any_cons (by simp only [bits]; omega) rfl]; decide), if_neg (by simp only [bits]; omega), if_neg (by simp only [bits]; omega), if_neg (by simp only [bits]; omega), if_neg (by simp only [bits]; omega), if_pos (by simp only [bits]; omega)]
  exact checked_ok (any_cons (by simp only [bits]; omega) rfl) (by simp only [bits, Instr.mcfgGrp.injEq]; omega) hw

theorem mcfgHi (n i) : Statement (.mcfgHi n i) := by
  refine ofClass (d := decodeX) rfl (fun _ => rfl) rfl rfl fun w e h hw => ⟨by omega, ?_⟩
  unfold decodeX; rw [show w / 16777216 = 1 by omega]; show ite _ _ _ = _; rw [if_neg (by rw [any_cons (by simp only [bits]; omega) rfl]; decide), if_neg (by simp only [bits]; omega), if_pos (by simp only [bits]; omega)]
  exact checked_ok rfl (by simp only [bits, Instr.mcfgHi.injEq]; omega) hw

theorem mbind (g t h x l) : Statement (.mbind g t h x l) := by
  refine ofClass (d := decodeX) rfl (fun _ => rfl) rfl rfl fun w e h hw => ⟨by omega, ?_⟩
  unfold decodeX; rw [show w / 16777216 = 2 by omega]
  exact checked_ok (any_cons (by simp only [bits]; omega) rfl) (by simp only [bits, Instr.mbind.injEq]; omega) hw

theorem mrowLines (r b g x i) : Statement (.mrowLines r b g x i) := by
  refine ofClass (d := decodeX) rfl (fun _ => rfl) rfl rfl fun w e h hw => ⟨by omega, ?_⟩
  unfold decodeX; rw [show w / 16777216 = 3 by omega]; show ite _ _ _ = _; rw [if_pos (by simp only [bits]; omega)]
  exact checked_ok rfl (by simp only [bits, Instr.mrowLines.injEq]; omega) hw

theorem mrowTslots (r b g x i) : Statement (.mrowTslots r b g x i) := by
  refine ofClass (d := decodeX) rfl (fun _ => rfl) rfl rfl fun w e h hw => ⟨by omega, ?_⟩
  unfold decodeX; rw [show w / 16777216 = 3 by omega]; show ite _ _ _ = _; rw [if_neg (by simp only [bits]; omega)]
  exact checked_ok rfl (by simp only [bits, Instr.mrowTslots.injEq]; omega) hw

theorem mzero (a c) : Statement (.mzero a c) := by
  refine ofClass (d := decodeX) rfl (fun _ => rfl) rfl rfl fun w e h hw => ⟨by omega, ?_⟩
  unfold decodeX; rw [show w / 16777216 = 4 by omega]
  exact checked_ok (any_cons (by simp only [bits]; omega) rfl) (by simp only [bits, Instr.mzero.injEq]; omega) hw

theorem mmul (a r n g t k) : Statement (.mmul a r n g t k) := by
  refine ofClass (d := decodeX) rfl (fun _ => rfl) rfl rfl fun w e h hw => ⟨by omega, ?_⟩
  unfold decodeX; rw [show w / 16777216 = 5 by omega]
  exact checked_ok (any_cons (by simp only [bits]; omega) rfl) (by simp only [bits, Instr.mmul.injEq]; omega) hw

theorem mmulw (a r g t k) : Statement (.mmulw a r g t k) := by
  refine ofClass (d := decodeX) rfl (fun _ => rfl) rfl rfl fun w e h hw => ⟨by omega, ?_⟩
  unfold decodeX; rw [show w / 16777216 = 6 by omega]
  exact checked_ok (any_cons (by simp only [bits]; omega) (any_cons (by simp only [bits]; omega) rfl)) (by simp only [bits, Instr.mmulw.injEq]; omega) hw

theorem mdrain (a f p m s x) : Statement (.mdrain a f p m s x) := by
  refine ofClass (d := decodeX) rfl (fun _ => rfl) rfl rfl fun w e h hw => ⟨by omega, ?_⟩
  unfold decodeX; rw [show w / 16777216 = 7 by omega]; show ite _ _ _ = _; rw [if_pos (by simp only [bits]; omega)]
  exact checked_ok (any_cons (by simp only [bits]; omega) rfl) (by simp only [bits, Instr.mdrain.injEq]; omega) hw

theorem mdrainCh (a c) : Statement (.mdrainCh a c) := by
  refine ofClass (d := decodeX) rfl (fun _ => rfl) rfl rfl fun w e h hw => ⟨by omega, ?_⟩
  unfold decodeX; rw [show w / 16777216 = 7 by omega]; show ite _ _ _ = _; rw [if_neg (by simp only [bits]; omega), if_pos (by simp only [bits]; omega)]
  exact checked_ok (any_cons (by simp only [bits]; omega) rfl) (by simp only [bits, Instr.mdrainCh.injEq]; omega) hw

theorem mdrainf (a x l) : Statement (.mdrainf a x l) := by
  refine ofClass (d := decodeX) rfl (fun _ => rfl) rfl rfl fun w e h hw => ⟨by omega, ?_⟩
  unfold decodeX; rw [show w / 16777216 = 8 by omega]
  exact checked_ok (any_cons (by simp only [bits]; omega) rfl) (by simp only [bits, Instr.mdrainf.injEq]; omega) hw

theorem msignal (b) : Statement (.msignal b) := by
  refine ofClass (d := decodeX) rfl (fun _ => rfl) rfl rfl fun w e h hw => ⟨by omega, ?_⟩
  unfold decodeX; rw [show w / 16777216 = 9 by omega]
  exact checked_ok (any_cons (by simp only [bits]; omega) rfl) (by simp only [bits, Instr.msignal.injEq]; omega) hw

theorem mwaitb (b) : Statement (.mwaitb b) := by
  refine ofClass (d := decodeX) rfl (fun _ => rfl) rfl rfl fun w e h hw => ⟨by omega, ?_⟩
  unfold decodeX; rw [show w / 16777216 = 10 by omega]
  exact checked_ok (any_cons (by simp only [bits]; omega) rfl) (by simp only [bits, Instr.mwaitb.injEq]; omega) hw

theorem mloop (x o) : Statement (.mloop x o) := by
  refine ofClass (d := decodeX) rfl (fun _ => rfl) rfl rfl fun w e h hw => ⟨by omega, ?_⟩
  unfold decodeX; rw [show w / 16777216 = 11 by omega]
  exact checked_ok rfl (by simp only [bits, Instr.mloop.injEq]; omega) hw

theorem mjmp (o) : Statement (.mjmp o) := by
  refine ofClass (d := decodeX) rfl (fun _ => rfl) rfl rfl fun w e h hw => ⟨by omega, ?_⟩
  unfold decodeX; rw [show w / 16777216 = 12 by omega]
  exact checked_ok rfl (by simp only [bits, Instr.mjmp.injEq]; omega) hw

theorem mstamp (a f) : Statement (.mstamp a f) := by
  refine ofClass (d := decodeX) rfl (fun _ => rfl) rfl rfl fun w e h hw => ⟨by omega, ?_⟩
  unfold decodeX; rw [show w / 16777216 = 13 by omega]; show ite _ _ _ = _; rw [if_neg (by simp only [bits]; omega)]
  exact checked_ok (any_cons (by simp only [bits]; omega) rfl) (by simp only [bits, Instr.mstamp.injEq]; omega) hw

theorem mstampRetire (a) : Statement (.mstampRetire a) := by
  refine ofClass (d := decodeX) rfl (fun _ => rfl) rfl rfl fun w e h hw => ⟨by omega, ?_⟩
  unfold decodeX; rw [show w / 16777216 = 13 by omega]; show ite _ _ _ = _; rw [if_pos (by simp only [bits]; omega)]
  exact checked_ok (any_cons (by simp only [bits]; omega) rfl) (by simp only [bits, Instr.mstampRetire.injEq]; omega) hw

theorem mend : Statement .mend := by
  refine ofClass (d := decodeX) (P := True) rfl (fun _ => rfl) rfl rfl fun w e h hw => ⟨by omega, ?_⟩
  unfold decodeX; rw [show w / 16777216 = 14 by omega]
  exact checked_ok (any_cons (by simp only [bits]; omega) rfl) rfl hw

theorem mnop : Statement .mnop := by
  refine ofClass (d := decodeX) (P := True) rfl (fun _ => rfl) rfl rfl fun w e h hw => ⟨by omega, ?_⟩
  unfold decodeX; rw [show w / 16777216 = 15 by omega]
  exact checked_ok (any_cons (by simp only [bits]; omega) rfl) rfl hw

theorem haltBroadcast (blk) : Statement (.haltBroadcast blk) := nofun
theorem debugStopBreakpoint (blk grp) : Statement (.debugStopBreakpoint blk grp) := nofun
theorem debugStopRequest (die) : Statement (.debugStopRequest die) := nofun
theorem traceSample (core) : Statement (.traceSample core) := nofun
theorem preemptionSave (blk) : Statement (.preemptionSave blk) := nofun
theorem blockPlacement (die) : Statement (.blockPlacement die) := nofun
theorem dcRetireWrite (die hi val) : Statement (.dcRetireWrite die hi val) := nofun
theorem tlbWalk (die part page) : Statement (.tlbWalk die part page) := nofun
theorem replayGauntletAdmit (die blk grp) : Statement (.replayGauntletAdmit die blk grp) := nofun
theorem replayGateTimeout (die blk grp) : Statement (.replayGateTimeout die blk grp) := nofun
theorem packetBegin (q) : Statement (.packetBegin q) := nofun
theorem chunkLanding (q data) : Statement (.chunkLanding q data) := nofun
theorem packetCompletion (q) : Statement (.packetCompletion q) := nofun
theorem fencePacket (q) : Statement (.fencePacket q) := nofun
theorem abandonedSlotWrite (q) : Statement (.abandonedSlotWrite q) := nofun
theorem queueRestart (vf q) : Statement (.queueRestart vf q) := nofun
theorem taskReleaseWrite (vf off data) : Statement (.taskReleaseWrite vf off data) := nofun
theorem hostSyncAtomic (vf off size x) : Statement (.hostSyncAtomic vf off size x) := nofun
theorem hostCxlMemAccess (wr off len data) : Statement (.hostCxlMemAccess wr off len data) := nofun
theorem hbmCorrectedError (stack ch bank row col) : Statement (.hbmCorrectedError stack ch bank row col) := nofun
theorem classifierEntryExpiry (stack idx) : Statement (.classifierEntryExpiry stack idx) := nofun
theorem hbmRepair (stack idx) : Statement (.hbmRepair stack idx) := nofun
theorem hbmRepairMoveDone (stack) : Statement (.hbmRepairMoveDone stack) := nofun
theorem mcIpendClear (m val) : Statement (.mcIpendClear m val) := nofun
theorem mcPoke (m val) : Statement (.mcPoke m val) := nofun
theorem packageReset (selftest images) : Statement (.packageReset selftest images) := nofun
theorem mgmtImageReceived (image) : Statement (.mgmtImageReceived image) := nofun
theorem spdmGetVersion (req) : Statement (.spdmGetVersion req) := nofun
theorem spdmGetCapabilities (req) : Statement (.spdmGetCapabilities req) := nofun
theorem spdmNegotiateAlgorithms (req) : Statement (.spdmNegotiateAlgorithms req) := nofun
theorem spdmGetDigests (req) : Statement (.spdmGetDigests req) := nofun
theorem spdmGetCertificate (req) : Statement (.spdmGetCertificate req) := nofun
theorem spdmChallenge (req) : Statement (.spdmChallenge req) := nofun
theorem spdmGetMeasurements (req) : Statement (.spdmGetMeasurements req) := nofun
theorem lifetimeMonthEnd : Statement .lifetimeMonthEnd := nofun
theorem throttle (die power temp) : Statement (.throttle die power temp) := nofun
theorem dieOvertempStop (die temp) : Statement (.dieOvertempStop die temp) := nofun
theorem xsFuseminWrite (val) : Statement (.xsFuseminWrite val) := nofun
theorem optCtlBits (p val) : Statement (.optCtlBits p val) := nofun
theorem optStateOffRequest (p val) : Statement (.optStateOffRequest p val) := nofun
theorem optStateUpRequest (p val) : Statement (.optStateUpRequest p val) := nofun
theorem optLit (p mon) : Statement (.optLit p mon) := nofun
theorem optLitTimeout (p) : Statement (.optLitTimeout p) := nofun
theorem optLaserFailure (p laser mon) : Statement (.optLaserFailure p laser mon) := nofun
theorem optLockSweep (p val) : Statement (.optLockSweep p val) := nofun
theorem optSweepDone (p readings) : Statement (.optSweepDone p readings) := nofun
theorem optTrain (p val) : Statement (.optTrain p val) := nofun
theorem optTrainDone (p peer eyes) : Statement (.optTrainDone p peer eyes) := nofun
theorem optLanemapWrite (p val) : Statement (.optLanemapWrite p val) := nofun
theorem wavelengthLoss (p lam) : Statement (.wavelengthLoss p lam) := nofun
theorem keyRequestThreshold (p) : Statement (.keyRequestThreshold p) := nofun
theorem keyExhausted (p) : Statement (.keyExhausted p) := nofun
theorem feKeyuseWrite (val) : Statement (.feKeyuseWrite val) := nofun
theorem feKeydataWrite (val) : Statement (.feKeydataWrite val) := nofun
theorem feSchedLock (val) : Statement (.feSchedLock val) := nofun
theorem feTbldataWrite (val) : Statement (.feTbldataWrite val) := nofun
theorem feChpartWrite (ch val) : Statement (.feChpartWrite ch val) := nofun
theorem rotorSlot : Statement .rotorSlot := nofun
theorem burstReceived (p sender slot ok vc seq dst flits) : Statement (.burstReceived p sender slot ok vc seq dst flits) := nofun
theorem remoteRequestIngress (pkg spart mode dpart addr len mx data) : Statement (.remoteRequestIngress pkg spart mode dpart addr len mx data) := nofun
theorem remoteAtomicIngress (pkg spart dpart addr op w64 x b2) : Statement (.remoteAtomicIngress pkg spart dpart addr op w64 x b2) := nofun
theorem leaseExpiry (line) : Statement (.leaseExpiry line) := nofun
theorem remoteTimeout (q) : Statement (.remoteTimeout q) := nofun
theorem collectiveHead (ch) : Statement (.collectiveHead ch) := nofun
theorem collectiveFlitIngress (ch src kind gen gid seq op dt red total base vals) : Statement (.collectiveFlitIngress ch src kind gen gid seq op dt red total base vals) := nofun
theorem collectiveResend (id) : Statement (.collectiveResend id) := nofun
theorem collectiveAbortReceived (ch src gen gid seq) : Statement (.collectiveAbortReceived ch src gen gid seq) := nofun
theorem collectiveCompletion (ch) : Statement (.collectiveCompletion ch) := nofun
theorem capReceived : Statement .capReceived := nofun
theorem capRegeneration : Statement .capRegeneration := nofun
theorem possessionClose (port frames) : Statement (.possessionClose port frames) := nofun
theorem nirraxGapTimeout : Statement .nirraxGapTimeout := nofun
theorem expelFallback (pkg) : Statement (.expelFallback pkg) := nofun
theorem callApply (part) : Statement (.callApply part) := nofun
theorem membershipExpel (part) : Statement (.membershipExpel part) := nofun
theorem membershipAdmit (part) : Statement (.membershipAdmit part) := nofun
theorem membershipReplace (part) : Statement (.membershipReplace part) := nofun
theorem membershipClone (part) : Statement (.membershipClone part) := nofun
theorem membershipAbort (part) : Statement (.membershipAbort part) := nofun
theorem membershipAddspare (part) : Statement (.membershipAddspare part) := nofun
theorem membershipGetgen (part) : Statement (.membershipGetgen part) := nofun
theorem trainctlStep (part) : Statement (.trainctlStep part) := nofun
theorem trainctlSetscale (part) : Statement (.trainctlSetscale part) := nofun
theorem trainctlSetclip (part) : Statement (.trainctlSetclip part) := nofun
theorem trainctlSetgrowth (part) : Statement (.trainctlSetgrowth part) := nofun
theorem trainctlGetscale (part) : Statement (.trainctlGetscale part) := nofun
theorem trainctlGetstep (part) : Statement (.trainctlGetstep part) := nofun
theorem generationFence (part) : Statement (.generationFence part) := nofun
theorem cuffPageCopy (part page) : Statement (.cuffPageCopy part page) := nofun
theorem joinClone (part stripe status kind data) : Statement (.joinClone part stripe status kind data) := nofun
theorem partitionConfiguration (part cfg) : Statement (.partitionConfiguration part cfg) := nofun
theorem managementPortFrame (frame) : Statement (.managementPortFrame frame) := nofun
theorem hostSyncApertureWrite (vf off data) : Statement (.hostSyncApertureWrite vf off data) := nofun
theorem registerUnitRetirement (core) : Statement (.registerUnitRetirement core) := nofun
theorem softError (kind blk grp addr bit) : Statement (.softError kind blk grp addr bit) := nofun
theorem powerRemoval : Statement .powerRemoval := nofun

end Sys2Proof.Laws.RoundTrip
end

