-- ==== Sys2Proof/Tests/Slice0.lean ====
section
/-! SUPPORT. The tests: terms that the well-formedness check refuses, words of the spec's own text, worked examples, and a witness for the
hypotheses of every statement. -/
namespace Sys2Proof.Tests
open Sys2Proof Sys2Proof.Machine Sys2Proof.Claims

set_option maxRecDepth 20000

/-! ## Well-formedness: a term for each check of each class, which the check refuses (R20, R24 to R31, R33) -/

theorem test_wf_refuses_scalar : ([.sadd 2097152 5 0, .sadd 8 64 63, .sadd 4 63 124, .smovi 0 65535, .scmp 11 5 8 2,
    .scmp 7 31 15 5, .sld 7 3 125 6, .sld 4 32 0 4095, .sgid 1 7] : List Instr).all (fun i => !i.wf) = true := by decide

theorem test_wf_refuses_wide : ([.vadd 8 4096 64 0 0, .vadd 0 11 256 1 1, .vadd 0 124 7 9 0, .vadd 125 32 7 0 1, .vadd 3 8 8 1 0,
    .vadd 9 11 64 0 3, .vmulh 31 16 31 0 127, .vcmp 3 125 125 1 2, .vcmp 6 0 2 2 2, .vmovi 124 131072,
    .vfadd 4 11 64 0 11, .vfcmp 7 11 8 63, .vcvt 0 124 32 1 1 1 2, .vcvt 1 124 9 8 1 0 1, .vsrnd 124 8 3 0 3,
    .vpack 124 123 3 0 3, .pand 16 11 15, .pand 8 16 3, .pand 11 15 124, .pset 7 4095] : List Instr).all (fun i => !i.wf) = true := by decide

theorem test_wf_refuses_memory : ([.vld 15 1 131072 8 5, .vld 64 0 1 131071 2, .vld 6 2 0 63 125, .vld 63 6 7 15 5, .vld 63 4 11 3 6,
    .vld 125 0 9 31 7, .vst 4096 3 0 3 1, .vldt 0 7 0 124 4, .prstest 64 4 11 7, .phase 7] : List Instr).all (fun i => !i.wf) = true := by decide

theorem test_wf_refuses_matrix : ([.mcfgIndex 1024 1, .mcfgIndex 4 65536, .mcfgIndex 0 63, .mcfgArea 123, .mcfgAfmt 5 32,
    .mcfgAfmt 9 4, .mcfgGrp 131071, .mbind 124 0 0 4 123, .mbind 8 3 0 1 8, .mbind 0 1 0 32 8,
    .mbind 2 1 2 0 4095, .mbind 6 1 3 5 4, .mrowLines 123 7 64 0 0, .mrowLines 1 32 8 5 8, .mrowLines 1 3 1 5 256,
    .mrowLines 2 7 125 6 63, .mzero 31 5, .mmul 11 1 8 5 0 4, .mmul 5 1 1 2 1 0, .mmul 1 1 1 5 2 15,
    .mmul 31 3 0 3 3 4, .mmul 11 0 2 11 3 6, .mmulw 2 3 8 1 31, .mmulw 0 3 3 0 4, .mmulw 0 1 8 5 9,
    .mdrain 4095 3 0 0 123 4, .mdrain 4 0 15 0 7 1, .mdrain 11 5 2 124 0 2, .mdrain 1 6 0 3 1 5, .mdrain 4 0 2 3 125 7,
    .mdrainCh 5 124, .mdrainf 0 1 1024, .mloop 2 16777216, .mloop 0 2, .mjmp 16777216,
    .mstamp 5 3] : List Instr).all (fun i => !i.wf) = true := by decide

theorem test_wf_refuses_copy : ([.cpost 2048 64 0, .cpost 9 128 0, .cpost 0 7 2, .cpostTry 123 0 16 0, .ctest 64 8 125 0,
    .crec 127 5 15 0] : List Instr).all (fun i => !i.wf) = true := by decide

theorem test_wf_refuses_sync : ([.barar 1024, .msync 2097152, .cljoin 2 4 2048 1, .cljoin 31 124 5 2, .cljoin 125 64 9 1,
    .atadd 9 125 11 0, .atbadd 63 16 125 1, .tkmake 2 3 124 0, .rowait 125 1] : List Instr).all (fun i => !i.wf) = true := by decide

theorem test_wf_refuses_flow : ([.bra 16 7 32, .bra 1 127 256, .bra 1 6 524288, .bru 1 8 125, .jmpi 1024 1,
    .jmpi 4 3, .call 16777216, .enrol 15, .spawn 7 31 131071 1, .spawn 125 124 2 0,
    .fork 4] : List Instr).all (fun i => !i.wf) = true := by decide

theorem test_wf_refuses_privileged : ([.trap 4096, .csrr 123 0, .csrr 32 524288, .csrw 124 15, .ctxsave 4 32 1024] : List Instr).all (fun i => !i.wf) = true := by decide

theorem test_wf_refuses_header : ([.clauseHeader 0 1 1 0 0 0 0 0 0, .clauseHeader 16 1 1 0 0 0 0 0 0, .clauseHeader 1 8 1 0 0 0 0 0 0, .clauseHeader 1 1 1 64 0 0 0 0 0,
    .clauseHeader 1 1 1 0 2 0 0 0 0, .clauseHeader 1 1 1 0 0 16 0 0 0, .clauseHeader 1 1 1 0 0 0 0 0 16, .clauseHeader 1 0 1 0 0 0 1 0 8,
    .clauseHeader 1 3 1 0 0 0 1 0 0, .clauseHeader 8 4 5 2 1 3 0 1 5, .clauseHeader 9 0 1 11 1 0 6 1 5, .clauseHeader 9 3 0 6 0 5 0 124 9] : List Instr).all (fun i => !i.wf) = true := by decide

/-! ## Words that the spec's text writes out, with the instruction that it gives each (R15, R23, R34) -/

theorem test_decode_header :
    decodeHeader 0xE7000000 = .ok (.clauseHeader 14 3 1 0 0 0 0 0 0) ∧
    decodeHeader 0x3B040000 = .ok (.clauseHeader 3 5 1 1 0 0 0 0 0) ∧
    decodeHeader 0x19040000 = .ok (.clauseHeader 1 4 1 1 0 0 0 0 0) ∧
    decodeHeader 0x51000000 = .ok (.clauseHeader 5 0 1 0 0 0 0 0 0) :=
  ⟨rfl, rfl, rfl, rfl⟩

theorem test_decode_scalar :
    decodeWord 0 0x010C2080 = .ok (.sadd 3 2 2) ∧
    decodeWord 0 0x10481140 = .ok (.scmp 2 2 1 5) ∧
    decodeWord 0 0x151C1C02 = .ok (.sld 7 1 3 2) ∧
    decodeWord 0 0x18100000 = .ok (.qret 4) ∧
    decodeWord 0 0x1A240002 = .ok (.sgid 9 2) ∧
    decodeWord 0 0x02104140 = .ok (.ssub 4 4 5) ∧
    decodeWord 0 0x10244000 = .ok (.scmp 1 1 4 0) ∧
    decodeWord 0 0x15054800 = .ok (.sld 1 20 2 0) :=
  ⟨rfl, rfl, rfl, rfl, rfl, rfl, rfl, rfl⟩

theorem test_decode_wide :
    decodeWord 1 0x0B04000A = .ok (.vand 2 0 1 0 2) ∧
    decodeWord 1 0x1A0FFFFF = .ok (.vmovi 7 131071) ∧
    decodeWord 1 0x18260400 = .ok (.vcmp 1 3 1 0 0) ∧
    decodeWord 1 0x20060411 = .ok (.vfma 3 1 2 0 1) ∧
    decodeWord 1 0x234A0410 = .ok (.vfcmp 2 5 1 2) ∧
    decodeWord 1 0x2B060411 = .ok (.vfadd2 3 1 2 0 1) ∧
    decodeWord 1 0x3F020818 = .ok (.pand 1 2 3) ∧
    decodeWord 1 0x44080002 = .ok (.pset 4 1) ∧
    decodeWord 1 0x450C0000 = .ok (.vqpop 6 0 0) ∧
    decodeWord 1 0x46001C01 = .ok (.vqpush 7 1) ∧
    decodeWord 1 0x01060C08 = .ok (.vadd 3 3 1 0 0) :=
  ⟨rfl, rfl, rfl, rfl, rfl, rfl, rfl, rfl, rfl, rfl, rfl⟩

theorem test_decode_memory :
    decodeWord 2 0x010C8007 = .ok (.vld 6 2 0 0 7) ∧
    decodeWord 2 0x01028820 = .ok (.vld 1 2 2 4 0) ∧
    decodeWord 2 0x020E8C87 = .ok (.vst 7 2 3 16 7) ∧
    decodeWord 2 0x0C00C007 = .ok (.phase 3) :=
  ⟨rfl, rfl, rfl, rfl⟩

theorem test_decode_matrix :
    decodeWord 3 0x02080010 = .ok (.mbind 0 1 0 0 16) ∧
    decodeWord 3 0x02224000 = .ok (.mbind 2 0 1 1 0) ∧
    decodeWord 3 0x031E5000 = .ok (.mrowLines 0 15 20 0 0) ∧
    decodeWord 3 0x03665008 = .ok (.mrowTslots 1 3 20 0 8) ∧
    decodeWord 3 0x04004000 = .ok (.mzero 0 1) ∧
    decodeWord 3 0x05000040 = .ok (.mmul 0 0 0 0 0 8) ∧
    decodeWord 3 0x052081C0 = .ok (.mmul 4 0 1 0 3 8) ∧
    decodeWord 3 0x06100040 = .ok (.mmulw 2 0 0 0 16) ∧
    decodeWord 3 0x070C0050 = .ok (.mdrainCh 1 5) ∧
    decodeWord 3 0x08000020 = .ok (.mdrainf 0 0 32) ∧
    decodeWord 3 0x09000001 = .ok (.msignal 1) ∧
    decodeWord 3 0x0A000002 = .ok (.mwaitb 2) ∧
    decodeWord 3 0x0D020000 = .ok (.mstamp 0 1) ∧
    decodeWord 3 0x0D060000 = .ok (.mstampRetire 0) ∧
    decodeWord 3 0x0E000000 = .ok (.mend) ∧
    decodeWord 3 0x0F000000 = .ok (.mnop) ∧
    decodeWord 3 0x01400002 = .ok (.mcfgArea 2) ∧
    decodeWord 3 0x01100020 = .ok (.mcfgIndex 2 32) :=
  ⟨rfl, rfl, rfl, rfl, rfl, rfl, rfl, rfl, rfl, rfl, rfl, rfl, rfl, rfl, rfl, rfl, rfl, rfl⟩

theorem test_decode_copy :
    decodeWord 4 0x01002440 = .ok (.cpost 9 8 0) ∧
    decodeWord 4 0x01842440 = .ok (.cpostTry 2 9 8 0) ∧
    decodeWord 4 0x02000C50 = .ok (.cwait 3 10 0) ∧
    decodeWord 4 0x030A0C50 = .ok (.ctest 5 3 10 0) ∧
    decodeWord 4 0x07001000 = .ok (.ccoll 4 0) ∧
    decodeWord 4 0x080A0001 = .ok (.cgen 5 0 1) :=
  ⟨rfl, rfl, rfl, rfl, rfl, rfl⟩

theorem test_decode_sync :
    decodeWord 5 0x01000002 = .ok (.barar 2) ∧
    decodeWord 5 0x02000001 = .ok (.barwt 1) ∧
    decodeWord 5 0x0300000F = .ok (.barsync 15) ∧
    decodeWord 5 0x04014000 = .ok (.msync 5) ∧
    decodeWord 5 0x05080410 = .ok (.cljoin 4 1 2 0) ∧
    decodeWord 5 0x06080000 = .ok (.clleave 4 0) ∧
    decodeWord 5 0x070C0001 = .ok (.clslot 6 1) ∧
    decodeWord 5 0x08080830 = .ok (.atadd 4 2 6 0) ∧
    decodeWord 5 0x11060429 = .ok (.atcas 3 1 5 1) ∧
    decodeWord 5 0x13001030 = .ok (.atred 4 6 0) ∧
    decodeWord 5 0x14080800 = .ok (.tkdec 4 2 0) ∧
    decodeWord 5 0x170E0001 = .ok (.tktake 7 1) ∧
    decodeWord 5 0x18101839 = .ok (.rocall 8 6 7) ∧
    decodeWord 5 0x19122001 = .ok (.rowait 9 8) :=
  ⟨rfl, rfl, rfl, rfl, rfl, rfl, rfl, rfl, rfl, rfl, rfl, rfl, rfl, rfl⟩

theorem test_decode_flow :
    decodeWord 6 0x03001001 = .ok (.jmpi 4 1) ∧
    decodeWord 6 0x05000000 = .ok (.ret) ∧
    decodeWord 6 0x09080819 = .ok (.spawn 4 2 3 1) ∧
    decodeWord 6 0x0C000000 = .ok (.nop) ∧
    decodeWord 6 0x020FFFFB = .ok (.bru 0 1 524283) ∧
    decodeWord 6 0x0A000000 = .ok (.exit) ∧
    decodeWord 6 0x04000010 = .ok (.call 16) :=
  ⟨rfl, rfl, rfl, rfl, rfl, rfl, rfl⟩

theorem test_decode_privileged :
    decodeWord 7 0x01000001 = .ok (.trap 1) ∧
    decodeWord 7 0x02000000 = .ok (.tret) ∧
    decodeWord 7 0x04005043 = .ok (.csrw 5 67) ∧
    decodeWord 7 0x0530A2C0 = .ok (.ctxsave 12 10 11) ∧
    decodeWord 7 0x09000000 = .ok (.halt) ∧
    decodeWord 7 0x0A0020C0 = .ok (.tlbinv 2 3) ∧
    decodeWord 7 0x0C081034 = .ok (.stio 2 1 52) ∧
    decodeWord 7 0x0B141000 = .ok (.ldio 5 1 0) :=
  ⟨rfl, rfl, rfl, rfl, rfl, rfl, rfl, rfl⟩

/-- Words that break a check of R33 are refused by its name. -/
theorem test_decode_refuses :
    decodeWord 0 0 = .error .unassigned ∧ decodeWord 0 0x010C2081 = .error .reserved ∧ decodeWord 1 0x18260404 = .error .reserved ∧
    decodeWord 5 0x01000010 = .error .illegalField ∧ decodeHeader 0x00000000 = .error .illegalField := ⟨rfl, rfl, rfl, rfl, rfl⟩

/-! ## Small states -/

/-- A group's wide side at the only word of its clause, lane 0 live and active. -/
def wideCur : Cur := ⟨.group 0 0, [0], [0], 0x02000004, 0x02000000, 1, false⟩
/-- The scalar side at its word, and with no active lane. -/
def sideCur : Cur := ⟨.scalar 0 0, [], [0], 0x02000004, 0x02000000, 1, false⟩
def matrixCur : Cur := ⟨.matrix 0, [], [0], 0x02000004, 0x02000000, 1, false⟩
def copyCur : Cur := ⟨.copy 0, [], [0], 0x02000004, 0x02000000, 1, false⟩
def mgmtCur (m : Nat) : Cur := ⟨.mgmt m, [], [0], 4, 0, 1, false⟩

def grp : Group := fetchGroup true false
def sideGrp : Group := fetchGroup true true
/-- Partition 0 with one page of code and data at 0x02000000, in HBM. -/
def part0 : Part :=
  let p := State.reset.part 0
  { p with on := true, cfg := { p.cfg with slices := [0], units := [0], maps := [⟨0x02000000, hbmBase, 0, true, true, true⟩] } }
/-- A state with one block, whose group is `x`. -/
def one (k : Block) (c : Cur) : State := { (State.reset.setPart 0 part0) with blocks := [k], cur := c, blkNext := 1 }
def blk (x : Group) : Block := fetchBlock x false false
def wide0 : State := one (blk grp) wideCur
def side0 : State := one (blk sideGrp) sideCur
def mgmt0 : State := { State.reset with cur := mgmtCur 0 }
/-- A block whose slot `n` of view v holds `w` in lane 0. -/
def put (k : Block) (n : Nat) (w : RWord) : Block := k.writeSlot 0 .v n 0 [w]
def grpOf (k : Block) : Group := (k.grp 0).getD grp
def good (v : Nat) : RWord := fresh (BitVec.ofNat 32 v)
def wrong (v : Nat) : RWord := marked v

theorem wide_issues : wide0.Issues 0 0 (blk grp) grp := ⟨rfl, rfl, by decide, by decide, by decide, by decide, by decide⟩
/-- The same with other contents of the block's only group. -/
theorem one_issues (k : Block) (x : Group) (h : k.grp 0 = some x) (hi : k.id = 0) (hl : (x.lane 0).st = .live) :
    (one k wideCur).Issues 0 0 k x := by
  refine ⟨rfl, ?_, by simp [one, wideCur], by simp [one, wideCur], by simp [one, wideCur], by simp [one, wideCur], ?_⟩
  · simp [State.bg, State.blk, one, firstOf, hi, h]
  · simp [one, wideCur, hl]

/-! ## Hypotheses that states meet: lane-local and cross-lane words, predicates, scalar words, queues -/

theorem witness_integer_words : (Instr.vadd 124 127 0 0 1).wf = true ∧ (∃ r, intWord (.vadd 4 125 0 0 0) = some r ∧ SlotsIn (blk grp) grp r.slots) ∧
    wide0.Issues 0 0 (blk grp) grp := ⟨rfl, ⟨_, rfl, by unfold SlotsIn; decide⟩, wide_issues⟩
theorem witness_part_words : (Instr.vfma 3 1 2 0 1).wf = true ∧ ∃ r, partWord (.vfma 3 1 2 0 1) = some r ∧ SlotsIn (blk grp) grp r.slots :=
  ⟨rfl, _, rfl, by unfold SlotsIn; decide⟩
/-- A control field of part 0 that is assigned at its least code, and one just below. -/
theorem witness_controlled_parts : let k1 := put (blk grp) 3 (good 9)
    let k2 := put (blk grp) 3 (good 8)
    (∃ r, controlWord (.vsrnd 3 1 2 0 0) = some r ∧ SlotsIn k1 (grpOf k1) r.slots ∧ r.bad k1 (grpOf k1) [0] = [] ∧ r.bad k2 (grpOf k2) [0] ≠ []) ∧
    (one k1 wideCur).Issues 0 0 k1 (grpOf k1) ∧ (one k2 wideCur).Issues 0 0 k2 (grpOf k2) :=
  ⟨⟨_, rfl, by unfold SlotsIn; decide, by decide, by decide⟩, one_issues _ _ rfl rfl rfl, one_issues _ _ rfl rfl rfl⟩
theorem witness_exchanges : (Instr.vballot 3 1 2 0 1).wf = true ∧ ∃ r, crossWord (.vballot 3 1 2 0 1) = some r ∧ SlotsIn (blk grp) grp r.slots :=
  ⟨rfl, _, rfl, by unfold SlotsIn; decide⟩
/-- Selectors at the last assigned value, one past it, and in a word that mismatches. -/
theorem witness_selectors : let k1 := put (blk grp) 2 (good 31)
    let k2 := put (blk grp) 2 (good 32)
    let k3 := put (blk grp) 2 (wrong 0)
    ∃ r, selectWord (.vbcast 3 1 2 0 0) = some r ∧ SlotsIn k1 (grpOf k1) r.slots ∧ rok (r.word k1 (grpOf k1) [0]) = true ∧
      r.legal (r.sel k1 (grpOf k1) [0]) = true ∧ r.legal (r.sel k2 (grpOf k2) [0]) = false ∧ rok (r.word k3 (grpOf k3) [0]) = false :=
  ⟨_, rfl, by unfold SlotsIn; decide, by decide, by decide, by decide, by decide⟩
theorem witness_pack : let k := put (blk grp) 2 (good 24)
    (Instr.vpack 3 1 2 0 0).wf = true ∧ SlotsIn k (grpOf k) [(.v, 3), (.v, 1), (.v, 2)] ∧ rok (lowWord k (grpOf k) .v 2 0) = true ∧
    (lowWord k (grpOf k) .v 2 0).val.toNat % 256 + elemBits 0 ≤ 32 := ⟨rfl, by unfold SlotsIn; decide, by decide, by decide⟩
theorem witness_compares : let k := put (blk grp) 2 (wrong 5)
    ∃ r, compareWord (.vcmp 5 15 1 2 0) = some r ∧ SlotsIn (blk grp) grp [(r.vw, r.a), (r.vw, r.b)] ∧
      [0].filter (fun l => !r.good (blk grp) grp l) = [] ∧ [0].filter (fun l => !r.good k (grpOf k) l) ≠ [] :=
  ⟨_, rfl, by unfold SlotsIn; decide, by decide, by decide⟩
theorem witness_predicates : (∃ p f, predOf (.pset 0 1) = some (p, f)) ∧ (Instr.pset 15 1).wf = true ∧
    (0x44 : Nat) ≤ 0x44080004 / 2 ^ 24 ∧ 0x44080004 / 2 ^ 2 % 2 ^ 15 ≠ 0 := ⟨⟨_, _, rfl⟩, rfl, by decide, by decide⟩
theorem witness_illegal_compare : (0x18260404 : Nat) / 2 ^ 24 = 0x18 ∧ 0x18260404 / 4 % 2 = 1 := by decide
theorem witness_mismatch_words : ∃ r, intWord (.vmovi 4 131071) = some r ∧ r.vw.parts = 1 ∧ SlotsIn (blk grp) grp r.slots :=
  ⟨_, rfl, rfl, by unfold SlotsIn; decide⟩
theorem witness_empty_words : let s := { wide0 with cur := { wideCur with act := [] } }
    let t := { side0 with cur := { sideCur with act := [] } }
    s.bg 0 0 = some (blk grp, grp) ∧ s.cur.act = [] ∧ s.cur.ag = .group 0 0 ∧ classOf (.vadd 1 2 3 0 0) = some 1 ∧ classOf (.vld 6 2 0 0 7) = some 2 ∧
    classOf (.cpost 9 8 0) = some 4 ∧ classOf (.barar 2) = some 5 ∧ classOf .exit = some 6 ∧
    t.bg 0 0 = some (blk sideGrp, sideGrp) ∧ t.cur.act = [] ∧ t.cur.ag = .scalar 0 0 ∧ classOf (.sadd 3 2 2) = some 0 := by
  refine ⟨rfl, rfl, rfl, rfl, rfl, rfl, rfl, rfl, rfl, rfl, rfl, rfl⟩
/-- Slot 63 of view t is the last of a window of 32 KiB, slot 64 lies outside. -/
theorem witness_slots_outside : (∃ sl, wideSlots (.vand 64 1 2 0 2) = some sl ∧ ¬SlotsIn (blk grp) grp sl) ∧
    ∃ sl, wideSlots (.vand 63 1 2 0 2) = some sl ∧ SlotsIn (blk grp) grp sl :=
  ⟨⟨_, rfl, by unfold SlotsIn; decide⟩, _, rfl, by unfold SlotsIn; decide⟩
theorem side_issues : SideIssues side0 0 0 (blk sideGrp) sideGrp := ⟨rfl, rfl, by decide, _, rfl⟩
theorem side_scalar : side0.ScalarIssues := ⟨by decide, blk sideGrp, sideGrp, _, rfl, rfl⟩
theorem mgmt_scalar : mgmt0.ScalarIssues := ⟨by decide, trivial⟩
theorem witness_scalar_words : (∃ r, scalarRow (.sfma 63 1 2) = some r) ∧ (∃ q, side0.sregs = some q) ∧ (∃ q, mgmt0.sregs = some q) :=
  ⟨⟨_, rfl⟩, ⟨_, rfl⟩, ⟨_, rfl⟩⟩
/-- Registers of which one mismatches. -/
def badSregs : SRegs := sput [] 5 [wrong 1, good 0]
theorem witness_scalar_compare : (∃ q, mgmt0.sregs = some q ∧ sok q 1 = true ∧ sok q 2 = true) ∧ sok badSregs 5 = false ∧
    (let s := mgmt0.setMc 0 { mgmt0.mc 0 with sregs := badSregs }
     s.ScalarIssues ∧ s.sregs = some badSregs) := ⟨⟨_, rfl, by decide, by decide⟩, by decide, ⟨by decide, trivial⟩, rfl⟩
theorem witness_identifiers : (Instr.sgid 9 6).wf = true ∧ side0.bg 0 0 = some (blk sideGrp, sideGrp) ∧ mgmt0.cur.ag = .mgmt 0 := ⟨rfl, rfl, rfl⟩
/-- Queues with one entry, full ones, and empty ones. -/
def entry : RWord × RWord := (good 7, good 0)
def full : List (RWord × RWord) := List.replicate 8 entry
theorem witness_wide_queues : let x : Group := { grp with fq := [entry], rq := full }
    (one (blk x) wideCur).Issues 0 0 (blk x) x ∧ x.fq = entry :: [] ∧ 8 ≤ x.rq.length ∧ SlotsIn (blk x) x [(.w, 6)] ∧ grp.fq = [] ∧ grp.rq.length < 8 ∧
    goodOf ((blk grp).src grp .w 7 0) = true := ⟨one_issues _ _ rfl rfl rfl, rfl, by decide, by unfold SlotsIn; decide, rfl, by decide, by decide⟩
theorem witness_scalar_queues : let x : Group := { sideGrp with fq := full, rq := [entry] }
    SideIssues (one (blk x) sideCur) 0 0 (blk x) x ∧ 8 ≤ x.fq.length ∧ x.rq = entry :: [] ∧ sok x.sregs 3 = true ∧ sideGrp.fq.length < 8 ∧ sideGrp.rq = [] :=
  ⟨⟨rfl, rfl, by decide, _, rfl⟩, by decide, rfl, by decide, by decide, rfl⟩

/-! ## Hypotheses that states meet: memory words -/

theorem issues_at (s : State) (k : Block) (x : Group) (hb : s.bg 0 0 = some (k, x)) (hc : s.cur = wideCur) (hl : (x.lane 0).st = .live) :
    s.Issues 0 0 k x := by
  refine ⟨by rw [hc]; rfl, hb, by rw [hc]; decide, by rw [hc]; decide, by rw [hc]; decide, by rw [hc]; decide, ?_⟩
  rw [hc]; simp [wideCur, hl]

/-- A block with 16 lines of scratchpad whose w slot 0 holds an address and whose v slot 9 holds a scratchpad address. -/
def memBlk (sp : RWord) : Block :=
  let k : Block := { blk grp with trec := { fetchRec with spb := 8192 } }
  (k.writeSlot 0 .w 0 0 [good 0x02000100, good 0]).writeSlot 0 .v 9 0 [sp]
def memGrp (sp : RWord) : Group := grpOf (memBlk sp)
/-- The page's translation is in the core's TLB. -/
def mem0 (sp : RWord) : State := (one (memBlk sp) wideCur).fillTlb 0 0 0x02000000
def noTlb : State := one (memBlk (good 0)) wideCur
theorem mem_issues : (mem0 (good 0)).Issues 0 0 (memBlk (good 0)) (memGrp (good 0)) := issues_at _ _ _ rfl rfl rfl

theorem witness_loads : ∃ r, loadRow (.vld 6 2 0 127 5) = some r ∧ (Instr.vld 6 2 0 127 5).wf = true ∧
    SlotsIn (memBlk (good 0)) (memGrp (good 0)) ((dataView r.z, r.d) :: r.slots) ∧
    checks (r.las (mem0 (good 0)) (memBlk (good 0)) (memGrp (good 0))) = .ok ∧ MayLoad (mem0 (good 0)) (memBlk (good 0)) (memGrp (good 0)) r.sb ∧
    (∀ a ∈ r.las (mem0 (good 0)) (memBlk (good 0)) (memGrp (good 0)), (mem0 (good 0)).absentTgt a.tgt (2 ^ r.z) = false) ∧
    (r.loaded (mem0 (good 0)) (memBlk (good 0)) (memGrp (good 0))).2.2.crowded 0 = false ∧ Settled (mem0 (good 0)) (memBlk (good 0)) 0 1 :=
  ⟨_, rfl, rfl, by unfold SlotsIn; decide, rfl, .inl (by decide), by decide, by decide, by unfold Settled; decide⟩
/-- A scratchpad load and a store of the allocation's last four bytes: 0x2000 - 4 lies at slot address 0x1FFC with offset 0. -/
theorem witness_scratchpad_access : let k := memBlk (good 0x1FFC)
    let x := memGrp (good 0x1FFC)
    (mem0 (good 0x1FFC)).Issues 0 0 k x ∧ (Instr.vldsp 6 2 9 0 0).wf = true ∧ SlotsIn k x [(dataView 2, 6), (.v, 9)] ∧ x.counterFull 0 = false ∧
    Settled (mem0 (good 0x1FFC)) k 0 1 ∧ (mem0 (good 0x1FFC)).crowded k.core = false ∧
    spGood k x 9 2 0 0 ∧ (∀ n ∈ k.absent, ¬lineIn (spOff k x 9 2 0 0).toNat (2 ^ 2) n) ∧ (∃ r, storeRow (.vstsp 6 2 9 0 0) = some r) ∧
    (Instr.vstsp 6 2 9 0 0).wf = true ∧ k.scrPoison (spOff k x 9 2 0 0).toNat (2 ^ 2) = false ∧
    ({ k with scrBad := [0x3FF] } : Block).scrPoison (spOff k x 9 2 0 0).toNat (2 ^ 2) = true :=
  ⟨issues_at _ _ _ rfl rfl rfl, rfl, by unfold SlotsIn; decide, by decide, by unfold Settled; decide, by decide, ⟨by decide, by decide, by decide⟩,
    (by intro n h; cases h), ⟨_, rfl⟩, rfl, by decide, by decide⟩
theorem witness_transposing_loads : let k := memBlk (good 0x1E00)
    let x := memGrp (good 0x1E00)
    (mem0 (good 0x1E00)).Issues 0 0 k x ∧ (Instr.vldt 6 2 9 0 0).wf = true ∧ SlotsIn k x [(.t, 6), (.v, 9)] ∧ x.counterFull 0 = false ∧ Settled (mem0 (good 0x1E00)) k 0 1 ∧
    goodOf (k.src x .v 9 0) = true ∧ 0 ≤ spOff k x 9 2 0 0 ∧ spOff k x 9 2 0 0 % 16 = 0 ∧ spOff k x 9 2 0 0 + 512 ≤ (k.lines * 512 : Nat) ∧
    k.lines * 512 ≤ 2 ^ 20 ∧ ∀ n ∈ k.absent, ¬lineIn (spOff k x 9 2 0 0).toNat 512 n :=
  ⟨issues_at _ _ _ rfl rfl rfl, rfl, by unfold SlotsIn; decide, by decide, by unfold Settled; decide, by decide, by decide, by decide, by decide,
    by decide, (by intro n h; cases h)⟩
theorem witness_stores : ∃ r, storeRow (.vst 6 3 0 127 7) = some r ∧ (Instr.vst 6 3 0 127 7).wf = true ∧
    SlotsIn (memBlk (good 0)) (memGrp (good 0)) ((dataView r.z, r.d) :: r.slots) ∧
    checks (r.las (mem0 (good 0)) (memBlk (good 0)) (memGrp (good 0))) = .ok ∧ (memGrp (good 0)).counterFull r.sb = false ∧
    (memBlk (good 0)).rr = none ∧ (r.stored (mem0 (good 0)) (memBlk (good 0)) (memGrp (good 0))).crowded 0 = false :=
  ⟨_, rfl, rfl, by unfold SlotsIn; decide, rfl, by decide, rfl, by decide⟩
/-- A cache that has more sectors than it may hold. -/
def sector0 : Sector := ⟨0, copies 32 0, List.replicate 32 false, List.replicate 32 false, 0, List.replicate 32 false, .fixed, 0⟩
def crowd (s : State) : State := s.setCore 0 { s.core 0 with cache := List.replicate 8193 sector0 }
theorem crowded_of {s : State} (h : (s.core 0).cache = List.replicate 8193 sector0) : s.crowded 0 = true := by
  rw [State.crowded, h, List.length_replicate]; rfl
/-- An absent line under a load, a full counter, a missing translation, an address past the allocation, a crowded cache. -/
theorem witness_access_checks : let k := memBlk (good 0)
    let x := memGrp (good 0)
    let s := mem0 (good 0)
    let ka : Block := { k with absent := [0] }
    (∃ r, loadRow (.vld 6 2 0 0 7) = some r ∧ checks (r.las noTlb k x) = .walk 512) ∧
    (∃ r c l i, loadRow (.vldsp 6 2 9 0 7) = some r ∧
      checks (r.las (mem0 (good 0x1FFD)) (memBlk (good 0x1FFD)) (memGrp (good 0x1FFD))) = .fault c l i) ∧
    ({ x with sb := [(5, 63)] } : Group).counterFull 5 = true ∧
    (∃ r, loadRow (.vldsp 6 2 9 0 7) = some r ∧ checks (r.las (one ka wideCur) ka x) = .ok ∧
      ∃ a ∈ r.las (one ka wideCur) ka x, (one ka wideCur).absentTgt a.tgt (2 ^ r.z) = true) ∧ s.Issues 0 0 k x ∧
    (∃ r, loadRow (.vldsp 6 2 9 0 7) = some r ∧ (r.loaded (crowd s) k x).2.2.crowded 0 = true) ∧
    (∃ r, storeRow (.vstsp 6 2 9 0 7) = some r ∧ (r.stored (crowd s) k x).crowded 0 = true) ∧ (crowd s).Issues 0 0 k x :=
  ⟨⟨_, rfl, rfl⟩, ⟨_, _, _, _, rfl, rfl⟩, by decide, ⟨_, rfl, rfl, _, List.mem_singleton_self _, by decide⟩, mem_issues,
    ⟨_, rfl, crowded_of rfl⟩, ⟨_, rfl, crowded_of rfl⟩, issues_at _ _ _ rfl rfl rfl⟩
theorem witness_prefetch_phase : let s := mem0 (good 0)
    (Instr.vpref 2 0 0 7).wf = true ∧ SlotsIn (memBlk (good 0)) (memGrp (good 0)) [(.w, 0)] ∧ (Instr.phase 1).wf = true ∧
    (memGrp (good 0)).wait = none ∧ (s.core 0).outs = [] ∧
    (∃ s1 pod sys, s.phasePublish 0 0 1 = (s1, pod, sys) ∧ s1.pubsDone pod sys = true ∧ s1.bg 0 0 = s.bg 0 0) ∧
    (let t := s.setCore 0 { s.core 0 with outs := [⟨0, 0, 0, 0, 0, 0, none, [], 0, [], [], false⟩] }
     t.Issues 0 0 (memBlk (good 0)) (memGrp (good 0)) ∧ (t.core 0).outs ≠ []) ∧
    (Instr.phase 4).wf = true ∧ (∃ s1 pod sys, s.phasePublish 0 0 4 = (s1, pod, sys) ∧ s1.pubsDone pod sys = false) ∧
    (s.part 0).placed ≤ (s.part 0).applied ∧ s.pubsDone 0 0 = true ∧ s.pubsDone 1 0 = false ∧
    (memGrp (good 0)).counterFull 7 = false ∧ ({ memGrp (good 0) with sb := [(5, 63)] } : Group).counterFull 5 = true ∧
    (∀ w : WaitOn, let x : Group := { grp with wait := some ⟨w, 0, 1, 0x02000004, false, []⟩ }
      (one (blk x) wideCur).Issues 0 0 (blk x) x ∧ (one (blk x) wideCur).cur.pc = 0x02000004) :=
  ⟨rfl, by unfold SlotsIn; decide, rfl, rfl, rfl, ⟨_, _, _, rfl, by decide, rfl⟩, ⟨issues_at _ _ _ rfl rfl rfl, by decide⟩, rfl,
    ⟨_, _, _, rfl, by decide⟩, by decide, by decide, by decide, by decide, by decide, fun _ => ⟨one_issues _ _ rfl rfl rfl, rfl⟩⟩
/-- A call placed and not yet applied, with no frame of the core under way. -/
theorem witness_phase_calls : let s := mem0 (good 0)
    let u := s.setPart 0 { s.part 0 with placed := 1 }
    u.Issues 0 0 (memBlk (good 0)) (memGrp (good 0)) ∧ (u.part 0).applied < (u.part 0).placed ∧
    (∃ s1 pod sys, ({ u with nx := { u.nx with podA := 1, sysA := 1 } } : State).phasePublish 0 0 4 = (s1, pod, sys) ∧ s1.pubsDone pod sys = true ∧
      (s1.part 0).applied < (s1.part 0).placed) :=
  ⟨issues_at _ _ _ rfl rfl rfl, by decide, _, _, _, rfl, by decide, by decide⟩
/-- A run of the last line of the allocation, absent and present. -/
theorem witness_presence_words : let w := good (15 * 512)
    let k := memBlk w
    let x := memGrp w
    runGood k x 9 2 0 0 ∧ inRun k x 9 2 0 0 15 ∧ SlotsIn k x [(.v, 9)] ∧ (mem0 w).Issues 0 0 k x ∧
    (∀ n ∈ k.absent, ¬inRun k x 9 2 0 0 n) ∧ (15 : Nat) ∈ ({ k with absent := [15] } : Block).absent :=
  ⟨⟨by decide, by decide, by decide, by decide⟩, ⟨by decide, by decide⟩, by unfold SlotsIn; decide, issues_at _ _ _ rfl rfl rfl,
    (by intro n h; cases h), by decide⟩
theorem witness_mgmt_sram : sok (mgmt0.mc 0).sregs 63 = true ∧ scalarAddr (mgmt0.mc 0).sregs 63 3 1 + 2 ^ 3 ≤ 0x80000 ∧
    mgmt0.cur.ag = .mgmt 0 ∧ mgmt0.cur.act ≠ [] ∧ sok (mgmt0.mc 0).sregs 5 = true := ⟨by decide, by decide, rfl, by decide, by decide⟩
/-- The scalar scratchpad words' block, with a line absent, and with an uncorrectable error. -/
theorem witness_scalar_scratchpad : let x : Group := { sideGrp with sregs := sput [] 1 [good (scrBase % 2 ^ 32), good (scrBase / 2 ^ 32)] }
    let k : Block := { blk x with trec := { fetchRec with spb := 8192 } }
    SideIssues (one k sideCur) 0 0 k x ∧ sok x.sregs 1 = true ∧ scrBase ≤ scalarAddr x.sregs 1 3 1 ∧
    scalarAddr x.sregs 1 3 1 + 2 ^ 3 ≤ scrBase + k.lines * 512 ∧ k.lines * 512 ≤ 2 ^ 20 ∧ sok x.sregs 2 = true ∧ k.rr = none ∧
    (one k sideCur).crowded 0 = false ∧ (one k sideCur).holding k 0 2 = false ∧ k.absent = [] ∧ k.scrPoison (scalarAddr x.sregs 1 3 1 - scrBase) 8 = false ∧
    ({ k with scrBad := [1] } : Block).scrPoison (scalarAddr x.sregs 1 3 1 - scrBase) 8 = true ∧ lineIn (scalarAddr x.sregs 1 3 1 - scrBase) 8 0 :=
  ⟨⟨rfl, rfl, by decide, _, rfl⟩, by decide, by decide, by decide, by decide, by decide, rfl, by decide, by decide, rfl, by decide, by decide, by unfold lineIn; decide⟩
/-- A scalar access of memory at 0x02000100, clean and with an uncorrectable error. -/
theorem witness_scalar_memory : let x : Group := { sideGrp with sregs := sput [] 1 [good 0x02000100, good 0] }
    let s := (one (blk x) sideCur).fillTlb 0 0 0x02000000
    let t : State := { s with poison := [(hbmBase + 0x100) / 32] }
    SideIssues s 0 0 (blk x) x ∧ sok x.sregs 1 = true ∧ scalarAddr x.sregs 1 3 0 = 0x02000100 ∧
    (∃ s0 la q, s.laneNow (blk x) 0 true true .rd 0x02000100 8 = (s0, la) ∧ checks [la] = .ok ∧ la.tgt = .va 0x02000100 ∧ s0.holding (blk x) 0 2 = false ∧
      s0.loadTgt (blk x) (.va 0x02000100) 8 = q ∧ q.2.2.crowded 0 = false ∧ q.2.1 = false ∧ (∃ p, q.2.2.bg 0 0 = some p)) ∧
    (∃ s0 la q, t.laneNow (blk x) 0 true true .rd 0x02000100 8 = (s0, la) ∧ checks [la] = .ok ∧ la.tgt = .va 0x02000100 ∧ s0.loadTgt (blk x) (.va 0x02000100) 8 = q ∧
      q.2.1 = true) ∧
    (∃ s0 la u, s.laneNow (blk x) 0 true (sok x.sregs 2) .wr 0x02000100 8 = (s0, la) ∧ checks [la] = .ok ∧ la.tgt = .va 0x02000100 ∧ (blk x).rr = none ∧
      s0.storeTgt (blk x) (.va 0x02000100) (toLe 8 0) = u ∧ u.crowded 0 = false) :=
  ⟨⟨rfl, rfl, by decide, _, rfl⟩, by decide, by decide, ⟨_, _, _, rfl, by decide, by decide, by decide, rfl, by decide, by decide, _, rfl⟩,
    ⟨_, _, _, rfl, by decide, by decide, rfl, by decide⟩, _, _, _, rfl, by decide, by decide, rfl, rfl, by decide⟩
/-- A load that has issued and waited for a line of the scratchpad. -/
theorem witness_held_load : let s := (mem0 (good 0)).setCore 0 { (mem0 (good 0)).core 0 with outs := [⟨0, 0, 0, 5, 0x02000004, 1, none, [], 1, [0], [], false⟩] }
    MayLoad s (memBlk (good 0)) (memGrp (good 0)) 5 ∧ s.holding (memBlk (good 0)) 0 1 = true ∧ (mem0 (good 0)).holding (memBlk (good 0)) 0 1 = false := by
  unfold MayLoad; decide
theorem witness_own_stores : (∀ x ∈ (wide0.core 0).cache, x.data.length = 32 ∧ x.dirty.length = 32 ∧ x.sent.length = 32) ∧ ([1, 2] : List Byte) ≠ [] ∧
    30 % 32 + ([1, 2] : List Byte).length ≤ 32 ∧ (wide0.core 0).cache.length < 8192 := by decide
theorem witness_completions : let o : Outst := ⟨3, 0, 0, 2, 0, 1, none, [], 0, [], [], false⟩
    let p : Outst := ⟨4, 0, 0, 2, 0, 1, some 0x02000000, [], 0, [], [], false⟩
    let s := wide0.setCore 0 { wide0.core 0 with outs := [o, p] }
    firstOf (fun q => decide (q.id = o.id) && decide (q.held = 0)) (s.core 0).outs = some o ∧
    firstOf (fun q => decide (q.id = p.id) && decide (q.held = 0)) (s.core 0).outs = some p ∧ (∀ q ∈ (s.core 0).outs, q.id = 5 → q.held ≠ 0) ∧
    s.bg o.blk o.grp = some (blk grp, grp) ∧ grp.heldLanes ≠ [] ∧ o.poison = none ∧ p.poison = some 0x02000000 ∧ (blk grp).mode = .run ∧ (blk grp).saving = .no ∧
    (∀ y ∈ s.grids, y.failed = false ∧ ∃ q ∈ s.blocks, q.task = y.task) :=
  ⟨rfl, rfl, by decide, rfl, by decide, rfl, rfl, rfl, rfl, by intro y h; cases h⟩
/-- A state whose group waits at a word of a fetched clause of class M, past its limit. -/
def waitGrp (k : Block) (i : Instr) (w : WaitOn) (ss : List Nat) : Group :=
  let word := match encodeWord i with | some n => n | none => 0
  { grpOf k with fetched := [(0x02000000, [BitVec.ofNat 32 (fetchHeader 2), BitVec.ofNat 32 word])], wait := some ⟨w, 0, 1, 0x02000004, false, ss⟩,
                 inf := { InForce.none with prstimeout := 1, joinwin := 1 } }
def waitBlk (k : Block) (i : Instr) (w : WaitOn) (ss : List Nat) : Block := { k with groups := [waitGrp k i w ss] }
def waits (k : Block) (i : Instr) (w : WaitOn) (ss : List Nat) : State := { one (waitBlk k i w ss) wideCur with cycle := 1025 }
theorem witness_presence_wait : let i := Instr.prswait 2 9 0
    let k : Block := { memBlk (good (15 * 512)) with absent := [15] }
    let s := waits k i .presence []
    ∃ x w u k1 x1, s.bg 0 0 = some (waitBlk k i .presence [], x) ∧ x.wait = some w ∧ s.waitingWord (.group 0 0) = some (i, u, w) ∧ u.Issues 0 0 k1 x1 ∧
      x1.wait = some w ∧ w.on = .presence ∧ SlotsIn k1 x1 [(.v, 9)] ∧ (∀ l ∈ u.cur.act, runGood k1 x1 9 2 0 l) ∧
      (∃ l ∈ u.cur.act, ∃ n ∈ k1.absent, inRun k1 x1 9 2 0 l n) ∧ x.inf.prstimeout ≠ 0 ∧ w.start + x.inf.prstimeout * 1024 < s.cycle :=
  ⟨_, _, _, _, _, rfl, rfl, rfl, ⟨rfl, rfl, by decide, by decide, by decide, by decide, by decide⟩, rfl, rfl, by unfold SlotsIn; decide,
    by unfold runGood; decide, ⟨0, by decide, 15, by decide, by unfold inRun; decide⟩, by decide, by decide⟩
/-- The same with its line present. -/
theorem witness_presence_resume : let i := Instr.prswait 2 9 0
    let k : Block := memBlk (good (15 * 512))
    let s := waits k i .presence []
    ∃ u w k1 x1, s.waitingWord (.group 0 0) = some (i, u, w) ∧ w.on = .presence ∧ u.Issues 0 0 k1 x1 ∧ x1.wait = some w ∧ SlotsIn k1 x1 [(.v, 9)] ∧
      (∀ l ∈ u.cur.act, runGood k1 x1 9 2 0 l) ∧ ∀ l ∈ u.cur.act, ∀ n ∈ k1.absent, ¬inRun k1 x1 9 2 0 l n :=
  ⟨_, _, _, _, rfl, rfl, ⟨rfl, rfl, by decide, by decide, by decide, by decide, by decide⟩, rfl, by unfold SlotsIn; decide,
    by unfold runGood; decide, by unfold inRun; decide⟩
/-- A `vldx` to slot 1 of a cluster in which that slot is empty. -/
theorem witness_slot_wait : let i := Instr.vldx 6 2 9 0 7
    let k : Block := { memBlk (good 0x10000000) with cl := some (3, 0) }
    let s := waits k i .slot [1]
    let u := s.setDie 0 { s.die 0 with clusters := [⟨3, 0, 0, 7, [(0, .occupied 0)]⟩] }
    ∃ x w v k1 x1 r, u.bg 0 0 = some (waitBlk k i .slot [1], x) ∧ x.wait = some w ∧ w.on = .slot ∧ x.inf.joinwin ≠ 0 ∧
      w.start + x.inf.joinwin * 1000 < u.cycle ∧ u.waitingWord (.group 0 0) = some (i, v, w) ∧ v.Issues 0 0 k1 x1 ∧ x1.wait = some w ∧
      loadRow i = some r ∧ SlotsIn k1 x1 ((dataView r.z, r.d) :: r.slots) ∧ checks (r.las v k1 x1) = .park :=
  ⟨_, _, _, _, _, _, rfl, rfl, rfl, by decide, by decide, rfl, ⟨rfl, rfl, by decide, by decide, by decide, by decide, by decide⟩, rfl, rfl,
    by unfold SlotsIn; decide, rfl⟩
/-! ## Hypotheses that states meet: flow of control, masks, fibres, barriers, clusters -/

/-- Two clauses of class F with one `nop` each, at the block's code. -/
def codeBytes : List Byte := toLe 4 (fetchHeader 6) ++ toLe 4 0x0C000000 ++ toLe 4 (fetchHeader 6) ++ toLe 4 0x0C000000
def codeOf (k : Block) : State := { (State.reset.putProgram codeBytes k (.group 0 0)) with cur := wideCur, agenda := [] }
/-- Management core 0 with that code in its SRAM. -/
def mgmtCode : State := { mgmt0 with mcs := [(0, { Mc.reset with sram := tsets 0 [] 0 codeBytes, heads := [0] })] }

/-- A step of 0 reaches the next word, one of 1 has no word to reach; `p0` takes the branch and its inverse does not. -/
theorem witness_branches : (codeOf (blk grp)).Issues 0 0 (blk grp) grp ∧ (∃ p, (codeOf (blk grp)).jStep (sgn 19 0) = .inl p) ∧
    (∃ e, (codeOf (blk grp)).jStep (sgn 19 1) = .inr e) ∧ [0].filter (fun l => (grp.lane l).p 0 != decide ((0 : Nat) = 1)) ≠ [] ∧
    [0].filter (fun l => (grp.lane l).p 0 != decide ((1 : Nat) = 1)) = [] ∧ (spBit grp.sp 0 != decide ((0 : Nat) = 1)) = true ∧
    (spBit grp.sp 0 != decide ((1 : Nat) = 1)) = false :=
  ⟨issues_at _ _ _ rfl rfl rfl, ⟨_, rfl⟩, ⟨_, rfl⟩, by decide, by decide, by decide, by decide⟩
theorem witness_indirect_jumps : let k := put (blk grp) 4 (good 0x02000008)
    let k2 := put (blk grp) 4 (good 0x0200000A)
    (one k wideCur).Issues 0 0 k (grpOf k) ∧ (Instr.jmpi 4 0).wf = true ∧ SlotsIn k (grpOf k) [(viewOf 0, 4)] ∧
    goodOf (k.src (grpOf k) .v 4 0) = true ∧ valOf (k.src (grpOf k) .v 4 0) < 2 ^ 48 ∧ valOf (k.src (grpOf k) .v 4 0) % 4 = 0 ∧
    valOf (k2.src (grpOf k2) .v 4 0) % 4 ≠ 0 :=
  ⟨one_issues _ _ rfl rfl rfl, rfl, by unfold SlotsIn; decide, by decide, by decide, by decide, by decide⟩
/-- The least frame that may call, at a depth whose ring has room; and frame 1, which may not. -/
def callGrp : Group := { grp with frame := 2 }
theorem witness_calls : (codeOf (blk callGrp)).Issues 0 0 (blk callGrp) callGrp ∧ 2 ≤ callGrp.frame ∧ grp.frame < 2 ∧
    (∃ p, (codeOf (blk callGrp)).jStep (sgn 24 0) = .inl p) ∧ (callGrp.lane 0).depth + 1 - (callGrp.lane 0).lo < (blk callGrp).ringFrames callGrp :=
  ⟨issues_at _ _ _ rfl rfl rfl, by decide, by decide, ⟨_, rfl⟩, by decide⟩
theorem witness_returns : let x : Group := callGrp.setLane 0 { callGrp.lane 0 with depth := 1 }
    let k := put (put (blk x) 0 (good 0x02000004)) 1 (good 0x10000)
    (one k wideCur).Issues 0 0 k (grpOf k) ∧ SlotsIn k (grpOf k) [(.v, 0), (.v, 1)] ∧ rok (lowWord k (grpOf k) .v 0 0) = true ∧
    rok (lowWord k (grpOf k) .v 1 0) = true ∧ (lowWord k (grpOf k) .v 0 0).val.toNat % 4 = 0 ∧ ((grpOf k).lane 0).lo < ((grpOf k).lane 0).depth ∧
    (grp.lane 0).depth = 0 :=
  ⟨one_issues _ _ rfl rfl rfl, by unfold SlotsIn; decide, by decide, by decide, by decide, by decide, rfl⟩
/-- Lane 0 at a depth that fills its ring, with room in its spill area; and one whose frame below is not resident. -/
def spillGrp (dep lo : Nat) : Group :=
  let x : Group := { callGrp with inf := { callGrp.inf with spillbase := 0x02001000, spilllim := 0x02002000 } }
  x.setLane 0 { x.lane 0 with depth := dep, lo := lo }
theorem witness_spills : let n := (blk callGrp).ringFrames callGrp
    let x := spillGrp (n - 1) 0
    let k := blk x
    (codeOf k).Issues 0 0 k x ∧ 2 ≤ x.frame ∧ (∃ p, (codeOf k).jStep (sgn 24 0) = .inl p) ∧ (x.lane 0).depth < 65535 ∧
    k.ringFrames x ≤ (x.lane 0).depth + 1 - (x.lane 0).lo ∧ x.inf.spillbase + ((x.lane 0).lo + 1) * x.frameBytes ≤ x.inf.spilllim ∧
    ∃ s1, (codeOf k).spill k x (x.lane 0).lo 0 (upFrom 0 x.frame) = .inl s1 :=
  ⟨issues_at _ _ _ rfl rfl rfl, by decide, ⟨_, rfl⟩, by decide, by decide, by decide, _, rfl⟩
theorem witness_refills : let x := spillGrp 3 3
    let k := put (put (blk x) 0 (good 0x02000004)) 1 (good 0x10000)
    (codeOf k).Issues 0 0 k (grpOf k) ∧ 0 < ((grpOf k).lane 0).depth ∧ ((grpOf k).lane 0).depth - 1 < ((grpOf k).lane 0).lo ∧
    rok (lowWord k (grpOf k) .v 0 0) = true ∧ rok (lowWord k (grpOf k) .v 1 0) = true ∧
    ∃ q, (codeOf k).refill k (grpOf k) (((grpOf k).lane 0).depth - 1) 0 (upFrom 0 (grpOf k).frame) [] = .inl q :=
  ⟨issues_at _ _ _ rfl rfl rfl, by decide, by decide, by decide, by decide, _, rfl⟩
theorem witness_mgmt_branches : mgmtCode.cur.ag = .mgmt 0 ∧ mgmtCode.cur.act ≠ [] ∧ (∃ p, mgmtCode.jStep (sgn 19 524287) = .inl p) ∧
    (∃ p, mgmtCode.jStep (sgn 24 16777215) = .inl p) ∧ (spBit (mgmtCode.mc 0).sp 0 != decide ((0 : Nat) = 1)) = true ∧
    sok (mgmtCode.mc 0).sregs 63 = true ∧ sval (mgmtCode.mc 0).sregs 63 % 2 ^ 48 % 4 = 0 :=
  ⟨rfl, by decide, ⟨_, rfl⟩, ⟨_, rfl⟩, by decide, by decide, by decide⟩
/-- Two active lanes of which lane 0 has no frame to return to. -/
theorem witness_return_below : let x : Group := callGrp.setLane 1 { callGrp.lane 0 with depth := 1 }
    let k := (blk x).writeSlot 0 .v 0 1 [good 0x02000004]
    let s : State := { one k wideCur with cur := { wideCur with act := [0, 1], set := [0, 1] } }
    s.Issues 0 0 k (grpOf k) ∧ [0, 1].filter (fun l => decide (((grpOf k).lane l).depth = 0)) = [0] ∧ rok (lowWord k (grpOf k) .v 0 1) = true ∧
    rok (lowWord k (grpOf k) .v 1 1) = true ∧ (lowWord k (grpOf k) .v 0 1).val.toNat % 4 = 0 ∧ SlotsIn k (grpOf k) [(.v, 0), (.v, 1)] := by
  refine ⟨⟨rfl, rfl, by decide, by decide, by decide, by decide, by decide⟩, by decide, by decide, by decide, by decide, by unfold SlotsIn; decide⟩
/-- A call in its burst, whose lane 0 has spilled. -/
theorem witness_burst : ({ callGrp with wait := some ⟨.window, 0, 1, wideCur.pc, false, [0]⟩ } : Group).spilledIn wideCur.pc = some [0] ∧
    callGrp.spilledIn wideCur.pc = none := ⟨rfl, rfl⟩
/-- Mask 7 with lane 0 enrolled alone, which its arrival releases, and with lane 1 as well, which it does not. -/
theorem witness_masks : releases 1 1 = true ∧ releases 3 1 = false ∧ (Instr.rejoin 7).wf = true ∧ wide0.Issues 0 0 (blk grp) grp := ⟨by decide, by decide, rfl, wide_issues⟩
theorem witness_spawn : let k := put (put (blk grp) 2 (good 0x02000000)) 3 (good 31)
    (one k wideCur).Issues 0 0 k (grpOf k) ∧ (Instr.spawn 4 2 3 0).wf = true ∧ SlotsIn k (grpOf k) [(viewOf 0, 4), (viewOf 0, 2), (viewOf 0, 3)] ∧
    goodOf (k.src (grpOf k) .v 2 0) = true ∧ rok (lowWord k (grpOf k) .v 3 0) = true ∧ valOf (k.src (grpOf k) .v 2 0) % 4 = 0 ∧
    valOf (k.src (grpOf k) .v 2 0) < 2 ^ 48 :=
  ⟨one_issues _ _ rfl rfl rfl, rfl, by unfold SlotsIn; decide, by decide, by decide, by decide, by decide⟩
theorem witness_exit : let x := grp.setLane 31 { grp.lane 0 with st := .parked 0 }
    (one (blk x) wideCur).Issues 0 0 (blk x) x ∧ (∃ l < 32, l ∉ wideCur.act ∧ (x.lane l).st ≠ .free) :=
  ⟨one_issues _ _ rfl rfl rfl, 31, by decide, by decide, by decide⟩
theorem witness_yield : let x : Group := { grp with fetched := [(0x02000000, [0x1C000000, 0x0B000000])] }
    tget [] x.fetched wideCur.hdr = 0x1C000000 :: [0x0B000000] ∧ (one (blk x) wideCur).Issues 0 0 (blk x) x := ⟨rfl, one_issues _ _ rfl rfl rfl⟩
/-- A stream whose entry holds a descriptor without bits, a running stream, and an entry of 0. -/
theorem witness_fork : let k : Block := { blk grp with trec := { fetchRec with mentry := 0x02000100 } }
    let s := (codeOf k).fillTlb 0 0 0x02000000
    let r : Block := { blk grp with ms := { Stream.idle with running := true } }
    s.Issues 0 0 k grp ∧ k.ms.running = false ∧ k.trec.mentry ≠ 0 ∧ (blk grp).trec.mentry = 0 ∧ (one r wideCur).Issues 0 0 r grp ∧ r.ms.running = true ∧
    checks [s.vaLane k 0 true true .rd k.trec.mentry 8] = .ok ∧ (s.loadTgt k (s.vaLane k 0 true true .rd k.trec.mentry 8).tgt 8).2.1 = false ∧
    leAt (s.loadTgt k (s.vaLane k 0 true true .rd k.trec.mentry 8).tgt 8).1 0 8 < 2 ^ 16 ∧ s.quietGroup 0 0 0 = true ∧
    bitOf ((s.loadTgt k (s.vaLane k 0 true true .rd k.trec.mentry 8).tgt 8).2.2.core 0).tracectl.toNat 2 = false ∧
    (∃ p, (s.loadTgt k (s.vaLane k 0 true true .rd k.trec.mentry 8).tgt 8).2.2.bg 0 0 = some p) :=
  ⟨issues_at _ _ _ rfl rfl rfl, rfl, by decide, rfl, one_issues _ _ rfl rfl rfl, rfl, rfl, by decide, by decide, by decide, by decide, _, rfl⟩
/-- A mask that names lane 0 alone agrees with itself; one that leaves it out does not. -/
theorem witness_msync : let k := put (blk grp) 5 (good 1)
    let k2 := put (blk grp) 5 (good 2)
    (one k wideCur).Issues 0 0 k (grpOf k) ∧ SlotsIn k (grpOf k) [(.v, 5)] ∧ goodOf (k.src (grpOf k) .v 5 0) = true ∧
    bitOf (valOf (k.src (grpOf k) .v 5 0)) 0 = true ∧ grp.msA = 0 ∧ goodOf (k2.src (grpOf k2) .v 5 0) = true ∧
    bitOf (valOf (k2.src (grpOf k2) .v 5 0)) 0 = false :=
  ⟨one_issues _ _ rfl rfl rfl, by unfold SlotsIn; decide, by decide, by decide, rfl, by decide, by decide⟩
theorem witness_barriers : let k : Block := { blk grp with bars := [(15, ⟨0, 0, 0, 1⟩)] }
    (one k wideCur).Issues 0 0 k grp ∧ (tget Bar.zero k.bars 15).grparr.getLsbD 0 = true ∧ (tget Bar.zero k.bars 0).grparr.getLsbD 0 = false ∧
    bitOf grp.arrived 0 = false ∧ bitOf ({ grp with arrived := 1 } : Group).arrived 0 = true ∧ grp.wait = none ∧
    bitOf ((one k wideCur).core 0).tracectl.toNat 1 = false :=
  ⟨one_issues _ _ rfl rfl rfl, by decide, by decide, by decide, by decide, rfl, by decide⟩
/-- A group that has arrived at barrier 15, waited at the word for it, and may arrive again. -/
theorem witness_barar_again : let x : Group := { grp with arrived := 0x8000, wait := some ⟨.barrier 15, 0, 1, 0x02000004, false, []⟩ }
    (one (blk x) wideCur).Issues 0 0 (blk x) x ∧ (x.waited wideCur.pc 15 && bitOf x.arrived 15) = true ∧
    (tget Bar.zero (blk x).bars 15).grparr.getLsbD 0 = false := ⟨one_issues _ _ rfl rfl rfl, by decide, by decide⟩
/-- A block with a second group, whose first arrival leaves the phase unfinished. -/
theorem witness_barsync : let k : Block := { blk grp with groups := [grp, { grp with num := 1 }] }
    let s := one k wideCur
    s.Issues 0 0 k grp ∧ (∃ k1 x1, (s.comeBar k 0 15).bg 0 0 = some (k1, x1) ∧ (tget Bar.zero k1.bars 15).grparr.getLsbD 0 = true) ∧
    (∃ k1 x1, (wide0.comeBar (blk grp) 0 15).bg 0 0 = some (k1, x1) ∧ (tget Bar.zero k1.bars 15).grparr.getLsbD 0 = false) :=
  ⟨one_issues _ _ rfl rfl rfl, ⟨_, _, rfl, by decide⟩, _, _, rfl, by decide⟩
/-- An access of the block itself that stands at its own scratchpad, and at another's. -/
theorem witness_owes : let o : Outst := ⟨0, 0, 0, 0, 0, 1, none, [], 1, [0, 7], [], true⟩
    let k : Block := { blk grp with cl := some (3, 15) }
    let s := (one k wideCur).setCore 0 { (one k wideCur).core 0 with outs := [o] }
    s.Issues 0 0 k grp ∧ s.owes k (fun j => decide (j = 0)) = true ∧ s.owesMembers k = true ∧
    (one k wideCur).owes k (fun _ => true) = false ∧ (one k wideCur).owesMembers k = false ∧ k.cl = some (3, 15) :=
  ⟨issues_at _ _ _ rfl rfl rfl, by decide, by decide, by decide, by decide, rfl⟩
/-- Slot numbers 15, 16, 254 and 255 of a join; a member and a block that is none. -/
theorem witness_clusters : let k := put (put (blk grp) 1 (good 7)) 2 (good 15)
    (one k wideCur).Issues 0 0 k (grpOf k) ∧ (Instr.cljoin 4 1 2 0).wf = true ∧ SlotsIn k (grpOf k) [(viewOf 0, 4), (viewOf 0, 1), (viewOf 0, 2)] ∧
    goodOf (k.src (grpOf k) .v 1 0) = true ∧ goodOf (k.src (grpOf k) .v 2 0) = true ∧ (lowWord k (grpOf k) .v 2 0).val.toNat % 256 < 16 ∧
    k.cl = none ∧ ((one k wideCur).die 0).clusters = [] ∧ (one k wideCur).clustersOf 0 0 < (one k wideCur).clusterRoom 0 0 ∧
    (Instr.clslot 6 1).wf = true ∧ (Instr.clleave 4 0).wf = true ∧
    (let m : Block := { blk grp with cl := some (3, 15) }
     let s := (one m wideCur).setDie 0 { (one m wideCur).die 0 with clusters := [⟨3, 0, 0, 7, [(15, .occupied 0)]⟩] }
     s.Issues 0 0 m grp ∧ m.cl = some (3, 15) ∧ ∃ c, s.cluster 0 3 = some c ∧ HasKey m 7 c) :=
  ⟨one_issues _ _ rfl rfl rfl, rfl, by unfold SlotsIn; decide, by decide, by decide, by decide, rfl, rfl, by decide, rfl, rfl,
    issues_at _ _ _ rfl rfl rfl, rfl, _, rfl, rfl, rfl, rfl⟩

/-! ## Hypotheses that states meet: atomics, task words, calls of objects, copy words -/

/-- w slot 0 holds an address word: a control byte above an address. -/
def addrBlk (ctl va : Nat) : Block := (blk grp).writeSlot 0 .w 0 0 [good va, good (ctl * 2 ^ 24)]
def addr0 (ctl va : Nat) : State := (one (addrBlk ctl va) wideCur).fillTlb 0 0 0x02000000
theorem addr_issues (ctl va : Nat) : (addr0 ctl va).Issues 0 0 (addrBlk ctl va) (grpOf (addrBlk ctl va)) := issues_at _ _ _ rfl rfl rfl
/-- A legal word, one whose scope 1 asks for no publication or refresh, and a misaligned one. -/
theorem witness_atomics : let k := addrBlk 0 0x02000108
    let x := grpOf k
    ∃ r, atomRow (.atadd 4 0 6 1) = some r ∧ SlotsIn k x r.slots ∧ k.rr = none ∧ goodOf (addressWords k x r.v r.a 0) = true ∧
      valOf (addressWords k x r.v r.a 0) % 2 ^ 56 % r.bytes = 0 ∧ goodOf (r.operand k x r.useX r.b 0) = true ∧
      (addr0 0 0x02000108).homeAt k 0x02000108 [.wr, .rd] = .ok (hbmBase + 0x108) ∧ (addr0 0 0x02000108).inMirror 0 (hbmBase + 0x108) = false ∧
      (addr0 0 0x02000108).poisonedIn (hbmBase + 0x108) 8 = false ∧
      (∃ s1, (addr0 0 0x02000108).pubFirst k x.wait false 0 = .inr s1) ∧
      (let e := addrBlk 1 0x02000108
       ¬(valOf (addressWords e (grpOf e) 1 0 0) / 2 ^ 56 % 8 = 0 ∨ valOf (addressWords e (grpOf e) 1 0 0) / 2 ^ 56 / 8 % 4 ≠ 0)) ∧
      (let m := addrBlk 0 0x0200010C
       valOf (addressWords m (grpOf m) 1 0 0) % 2 ^ 56 % r.bytes ≠ 0) :=
  ⟨_, rfl, by unfold SlotsIn; decide, rfl, by decide, by decide, by decide, rfl, by decide, by decide, ⟨_, rfl⟩, by decide, by decide⟩
/-- A record in a page of the partition, a waiting one at reset; no grid to take from. -/
theorem witness_tasks : let k := addrBlk 0 0x02000080
    let x := grpOf k
    let s := addr0 0 0x02000080
    s.Issues 0 0 k x ∧ (Instr.tkdec 4 0 1).wf = true ∧ SlotsIn k x (addressSlots 1 0 ++ [(viewOf 1, 4)]) ∧ (Instr.tkadd 4 0 6 1).wf = true ∧
    (Instr.tkmake 4 0 0 1).wf = true ∧ goodOf (addressWords k x 1 0 0) = true ∧ rok (lowWord k x .w 6 0) = true ∧
    s.recordAt k (valOf (addressWords k x 1 0 0)) [.wr, .rd] = .ok (hbmBase + 0x80) ∧ s.recordAt k (valOf (addressWords k x 1 0 0)) [.rd] = .ok (hbmBase + 0x80) ∧
    s.poisonedIn (hbmBase + 0x80) 128 = false ∧ s.inMirror 0 (hbmBase + 0x80) = false ∧ (∃ s1, s.pubFirst k x.wait true 3 = .inr s1) ∧
    s.taskState (hbmBase + 0x80) = 0 ∧ (Instr.tktake 7 1).wf = true ∧ s.takeIndex k = none :=
  ⟨addr_issues _ _, rfl, by unfold SlotsIn; decide, rfl, rfl, by decide, by decide, rfl, rfl, by decide, by decide, ⟨_, rfl⟩, by decide, rfl, rfl⟩
/-- The same record with a counter of 1, and one whose slot 0 is ready. -/
theorem witness_counters : let s := addr0 0 0x02000080
    let s1 := s.homeWrite (hbmBase + 0x80 + 0x2C) [1]
    let s2 := s.homeWrite (hbmBase + 0x80 + 0x3F) [1]
    s1.homeLe (hbmBase + 0x80 + 0x2C) 4 = 1 ∧ s1.taskState (hbmBase + 0x80) = 0 ∧ s.homeLe (hbmBase + 0x80 + 0x2C) 4 = 0 ∧
    s2.taskState (hbmBase + 0x80) = 1 := by decide
/-- A grid of a task with one index left in die 0's share. -/
def grid0 : Grid := ⟨0, fetchRec, 1, [0], [(0, [⟨0, 0, 1⟩])], [], [], false, none⟩
/-- One whose indices stand in die 1's share. -/
def grid1 : Grid := ⟨0, fetchRec, 2, [0, 1], [(1, [⟨0, 0, 1⟩])], [], [], false, none⟩
theorem witness_take_index : (∃ q, ({ wide0 with grids := [grid0] } : State).grid 0 = some q ∧ (∃ n q', q.take 0 = some (n, q')) ∧ (blk grp).task = 0) ∧
    wide0.grid 0 = none ∧ grid1.take 0 = none ∧ (∃ q1, grid1.steal 0 true = some q1 ∧ ∃ n q', q1.take 0 = some (n, q')) ∧
    (∀ e ∈ ({ grid0 with shares := [] } : Grid).dies, untaken (({ grid0 with shares := [] } : Grid).share e) = 0) :=
  ⟨⟨_, rfl, ⟨_, _, rfl⟩, rfl⟩, rfl, rfl, ⟨_, rfl, _, _, rfl⟩, by decide⟩
/-- A partition with a call ring of 4,096 slots; `membership` is its object 0 and has seven methods. -/
def callState (k : Block) : State :=
  let s := (one k wideCur).homeWrite (hbmBase + 0x1008) [12]
  s.setPart 0 { s.part 0 with cfg := { (s.part 0).cfg with nx := hbmBase + 0x1000 }, applied := 1 }
/-- Selector 6 of object 0 in w slot 6; a position of 2^48 in w slot 9. -/
def callBlk : Block := ((blk grp).writeSlot 0 .w 6 0 [good 6, good 0]).writeSlot 0 .w 9 0 [good 0, good 0x10000]
theorem witness_object_words : let k := callBlk
    let x := grpOf k
    let s := callState k
    s.Issues 0 0 k x ∧ (Instr.rocall 8 7 6).wf = true ∧ (Instr.rowait 10 3).wf = true ∧ (Instr.roread 10 7 6).wf = true ∧ (Instr.rotrim 8 3).wf = true ∧
    SlotsIn k x [(.w, 8), (.w, 7), (.w, 6)] ∧ SlotsIn k x [(.w, 11), (.w, 10), (.w, 3)] ∧ goodOf (k.src x .w 6 0) = true ∧
    (∀ l < 8, goodOf (k.src x .w 7 l) = true) ∧ s.selector 0 (valOf (k.src x .w 6 0)) = some (0, 6) ∧ x.calling = false ∧
    Names s k x 7 6 0 6 ∧
    (∃ s1, s.pubFirst k x.wait true 3 = .inr s1 ∧ s1.callRoom 0 = true) ∧
    2 ^ 48 ≤ valOf (k.src x .w 9 0) ∧ goodOf (k.src x .w 9 0) = true ∧ valOf (k.src x .w 3 0) < (s.part 0).applied ∧
    (s.part 0).trim ≤ valOf (k.src x .w 3 0) ∧ x.roseen.toNat < (s.part 0).applied ∧
    ((one k wideCur).part 0).applied ≤ valOf (k.src x .w 3 0) :=
  ⟨issues_at _ _ _ rfl rfl rfl, rfl, rfl, rfl, rfl, by unfold SlotsIn; decide, by unfold SlotsIn; decide, by decide, by decide, rfl, by decide,
    by unfold Names; decide, ⟨_, rfl, by decide⟩, by decide, by decide, by decide, by decide, by decide, by decide⟩
theorem witness_placed_call : let x : Group := { grp with wait := some ⟨.called, 0, 1, 0x02000004, false, []⟩, roPos := some 5 }
    (one (blk x) wideCur).Issues 0 0 (blk x) x ∧ x.calling = true ∧ x.roPos = some 5 ∧ (blk x).stopping = false ∧ grp.roPos = none :=
  ⟨one_issues _ _ rfl rfl rfl, by decide, rfl, by decide, rfl⟩
/-- A queue at offset 0 of the sync window, bound to the partition; a copy stream that reads group 0's registers. -/
def copyState (k : Block) (c : Cur) : State := { one k c with queues := [⟨0, 0, 0, 0, none, [], []⟩] }
def strBlk : Block := { blk grp with cs := { Stream.idle with running := true } }
theorem copy_issues : CopyIssues (copyState (blk grp) wideCur) 0 0 (blk grp) grp [0] 0 false := ⟨issues_at _ _ _ rfl rfl rfl, rfl, rfl⟩
theorem stream_issues : CopyIssues (copyState strBlk copyCur) 0 0 strBlk grp [] 0 true := ⟨rfl, rfl, rfl, rfl, rfl, rfl⟩
theorem witness_copy_words : let k := blk grp
    let s := copyState k wideCur
    (Instr.cpost 9 8 0).wf = true ∧ (Instr.cfence 9 8 1).wf = true ∧ (Instr.cwait 9 8 0).wf = true ∧ (Instr.ccoll 8 1).wf = true ∧
    SlotsIn k grp [(viewOf 0, 9), (viewOf 0, 8)] ∧ grp.claim = none ∧ strBlk.cs.claim = none ∧ rok (lowWord k grp .v 9 0) = true ∧
    (∃ q, s.namedQueue 0 (lowWord k grp .v 9 0).val.toNat = some q) ∧ Good64 k grp .v 8 ∧ (∃ s1, s.pubFirst k grp.wait true 3 = .inr s1) ∧
    (∃ s1, (copyState strBlk copyCur).pubFirst strBlk strBlk.cs.wait true 3 = .inr s1) ∧
    (∃ qs, s.fenceList ⟨k, grp, [0], 0, false⟩ .v 8 (upFrom 0 7) = .inl qs) ∧ s.syncOk 0 0 = true ∧
    (∀ j < 512, bitOf (leAt (bytes64 k grp .v 8) 0 64) j = true → bitOf (s.homeLe (syncBase + 0) 64) j = true) :=
  ⟨rfl, rfl, rfl, rfl, by unfold SlotsIn; decide, rfl, rfl, by decide, ⟨_, rfl⟩, by unfold Good64; decide, ⟨_, rfl⟩, ⟨_, rfl⟩, ⟨_, rfl⟩, by decide,
    (by intro j _ h; rw [show leAt (bytes64 (blk grp) grp .v 8) 0 64 = 0 from rfl] at h; simp [bitOf] at h)⟩
/-- A mask whose highest bit is not yet set at the home. -/
theorem witness_copy_wait : let k := (blk grp).writeSlot 0 .v 8 15 [good 0x80000000]
    bitOf (leAt (bytes64 k (grpOf k) .v 8) 0 64) 511 = true ∧ bitOf ((copyState k wideCur).homeLe (syncBase + 0) 64) 511 = false ∧ Good64 k (grpOf k) .v 8 :=
  ⟨rfl, rfl, by unfold Good64; decide⟩
/-- Channel 63 of the partition with room, and full; channel 64 is none. -/
theorem witness_channels : let s := (copyState (blk grp) wideCur).setChan 63 ⟨0, List.replicate 15 (Coll.new []), 0, 0⟩
    (63 : Nat) ≤ 63 ∧ (s.chan 63).part.toNat = 0 ∧ (s.chan 63).posts.length < 16 ∧ ¬(64 : Nat) ≤ 63 ∧ (s.chan 0).part.toNat ≠ 0 ∧
    16 ≤ ((s.setChan 62 ⟨0, List.replicate 16 (Coll.new []), 0, 0⟩).chan 62).posts.length := by decide
theorem witness_copy_answers : let k := blk grp
    let s := copyState k wideCur
    (Instr.cpostTry 15 9 8 0).wf = true ∧ (Instr.ctest 0 9 8 1).wf = true ∧ (Instr.crec 4 9 8 1).wf = true ∧ (Instr.cabort 4 9 0).wf = true ∧
    (Instr.cgen 5 0 1).wf = true ∧ SlotsIn k grp [(viewOf 1, 9), (viewOf 1, 4), (viewOf 1, 8)] ∧ goodOf (k.src grp .w 8 0) = true ∧
    (lowWord k grp .v 9 0).val.toNat ≠ 0xFFFFFFFF ∧ s.ranksOf 0 0 = none ∧
    (s.setPart 0 { s.part 0 with ranks := [(0, [5, 0xFFFF])] }).ranksOf 0 0 = some [5, 0xFFFF] ∧
    SlotsIn strBlk grp [(viewOf 0, 127), (viewOf 0, 0)] :=
  ⟨rfl, rfl, rfl, rfl, rfl, by unfold SlotsIn; decide, by decide, by decide, rfl, rfl, by unfold SlotsIn; decide⟩


/-- A queue whose record base lies in the partition's sync slice. -/
theorem witness_records : let s := (copyState (blk grp) wideCur).homeWrite (syncBase + 0x18) (toLe 8 (syncBase + 0x400))
    s.Issues 0 0 (blk grp) grp ∧ regionOf (s.qField 0 0x18 8) = .sync ∧ s.syncOk 0 (s.qField 0 0x18 8 - syncBase) = true ∧
    (∃ q, s.namedQueue 0 (lowWord (blk grp) grp .v 9 0).val.toNat = some q ∧ q.off = 0) :=
  ⟨issues_at _ _ _ rfl rfl rfl, by decide, by decide, _, rfl, rfl⟩
/-! ## Hypotheses that states meet: faults, the handler, control registers, images, mailboxes -/

/-- Group 0 hosts the handler; the frame lies in the block's page. -/
def privBlk (c : Nat) : Block := { blk grp with mode := .handler 0 c, tframe := 0x02000000, frameAt := 0x02000000, mbox := 0x02001000, stash := some grp }
def priv0 (c : Nat) : State := one (privBlk c) wideCur
theorem priv_issues : PrivIssues (priv0 1) 0 0 (privBlk 1) grp := ⟨one_issues _ _ rfl rfl rfl, by decide⟩
theorem witness_privileged_forms : wide0.cur.ag = .group 0 0 ∧ wide0.bg 0 0 = some (blk grp, grp) ∧ (blk grp).priv 0 = false ∧ wide0.cur.act ≠ [] ∧
    needsPrivilege .tret = true ∧ csrKnown 0x50 = true ∧ csrKnown 0x5D = true ∧ csrKnown 0x5F = true ∧ (0x50 ≤ 0x5D ∧ 0x5D ≤ 0x5D) ∧
    (priv0 1).bg 0 0 = some (privBlk 1, grp) ∧ (privBlk 1).priv 0 = true :=
  ⟨rfl, rfl, by decide, by decide, rfl, rfl, rfl, rfl, by decide, rfl, by decide⟩
/-- Registers at the ends of the privileged range, an unprivileged one, unknown numbers; limits of a table base kept and broken. -/
theorem witness_control_registers : (Instr.csrr 63 0x5F).wf = true ∧ csrKnown 0x10 = true ∧ ¬(0x50 ≤ 0x10 ∧ 0x10 ≤ 0x5D ∨ 0x10 = 0x5F) ∧
    csrKnown 0x3FF = false ∧ (Instr.csrw 63 0x50).wf = true ∧ csrRw 0x50 = true ∧ csrLimit (privBlk 1) grp 0x50 (sval grp.sregs 63) = true ∧
    sok grp.sregs 63 = true ∧ csrRw 0x20 = false ∧ csrLimit (privBlk 1) grp 0x50 1 = false :=
  ⟨rfl, rfl, by decide, rfl, rfl, rfl, by decide, by decide, rfl, by decide⟩
def fault1 : PFault := ⟨0x01, 0, 1, 0x02000004, 0, 0⟩
def faultState (fr : BitVec 64) : State := one { blk grp with tframe := fr } wideCur
theorem witness_faults_enter : let s := faultState 0x02000000
    let s3 := (((((s.countResidue 0 0x01).stopAll (blk grp)).landBegun (blk grp)).abandonAll (blk grp)).1.drain (blk grp))
    s.blk 0 = some { blk grp with tframe := 0x02000000 } ∧ (blk grp).calling = false ∧ (blk grp).hostOf 0 = some 0 ∧ (∃ p, s3.1.bg 0 0 = some p) ∧
    fault1.resume = 0 ∧
    -- a block of which no group is left
    (let e : Group := grp.setLane 0 { grp.lane 0 with st := .free }
     let k : Block := blk { e with ended := true }
     (one k wideCur).blk 0 = some k ∧ k.calling = false ∧ k.hostOf 0 = none) := ⟨rfl, rfl, rfl, ⟨_, rfl⟩, rfl, rfl, rfl, rfl⟩
/-- The frame's page exists, and does not. -/
theorem witness_frame_pages : (∃ s4, (faultState 0x02000000).homePut 0 0 0x02000000 (copies 2048 0) = .inl s4) ∧
    (∃ e, (faultState 0x08000000).homePut 0 0 0x08000000 (copies 2048 0) = .inr e) := ⟨⟨_, rfl⟩, ⟨_, rfl⟩⟩
/-- Causes 0x10 and 1; a frame whose lane 0 was live; the last stash is a group that has not ended. -/
def tretState : State := (priv0 1).homeWrite (hbmBase + 0x600) [1]
theorem witness_returns_from_traps : wide0.Issues 0 0 (blk grp) grp ∧ (blk grp).priv 0 = false ∧ (4095 : Nat) < 4096 ∧ PrivIssues (priv0 1) 0 0 (privBlk 1) grp ∧
    (privBlk 0x10).mode = .handler 0 0x10 ∧ (privBlk 1).mode = .handler 0 1 ∧ (1 : Nat) ≠ 0x10 ∧ (privBlk 1).repost = [] ∧ (privBlk 1).pend = [] ∧
    (privBlk 1).stopReq = false ∧ (∀ q ∈ (priv0 1).queues, q.infl = none) ∧ (∀ y ∈ (privBlk 1).groups, y.num ≠ 0 → y.ended = true ∨ y.heldLanes ≠ []) ∧ (privBlk 1).stash = some grp ∧ grp.num = 0 ∧ grp.ended = false :=
  ⟨wide_issues, by decide, by decide, priv_issues, rfl, rfl, by decide, rfl, rfl, rfl, (by intro q h; cases h), by decide, rfl, rfl, by decide⟩
theorem witness_frame_reads : ∃ frame s1, tretState.homeGet 0 0 0x02000000 2048 = .inl (frame, s1) ∧ leAt frame 0x600 8 / 4 ^ 0 % 4 ≠ 0 := ⟨_, _, rfl, by decide⟩
/-- A message of 112 bytes whose place is taken, and a box whose numbers agree. -/
theorem witness_mailboxes : let s := (priv0 1).homeWrite (hbmBase + 0x1000) [1]
    (Instr.mbpost 8 0 2).wf = true ∧ (Instr.mbpoll 8 0 2).wf = true ∧ sok grp.sregs 0 = true ∧
    (∃ hd s1, s.homeGet 0 0 (privBlk 1).mbox.toNat 12 = .inl (hd, s1) ∧ leAt hd 8 4 ≠ leAt hd 0 4) ∧
    (∃ hd s1, s.homeGet 0 0 ((privBlk 1).mbox.toNat + 0x80) 12 = .inl (hd, s1) ∧ leAt hd 0 4 = leAt hd 8 4) ∧
    (∃ hd s1, (s.homeWrite (hbmBase + 0x1080) [1, 0, 0, 0, 113]).homeGet 0 0 ((privBlk 1).mbox.toNat + 0x80) 12 = .inl (hd, s1) ∧
      leAt hd 0 4 ≠ leAt hd 8 4 ∧ (112 : Nat) < leAt hd 4 1) ∧ (1 ≤ 1 ∧ 1 ≤ 112) ∧ (1 ≤ 112 ∧ 112 ≤ 112) :=
  ⟨rfl, rfl, by decide, ⟨_, _, rfl, by decide⟩, ⟨_, _, rfl, by decide⟩, ⟨_, _, rfl, by decide, by decide⟩, by decide, by decide⟩
theorem witness_images : let g := { grp with sregs := [(0, fresh 0x02000000)] }
    (Instr.ctxsave 8 0 2).wf = true ∧ (Instr.ctxload 8 0).wf = true ∧ sval g.sregs 0 % 64 = 0 ∧ sok g.sregs 0 = true ∧ sval g.sregs 2 % 256 = 0 ∧
    (∃ hd s1, (priv0 1).homeGet 0 0 0x02000000 896 = .inl (hd, s1) ∧ (privBlk 1).sameShape hd = false) ∧
    (∃ s2, (priv0 1).putRun 0 0 0x02000000 (copies 64 1) = (s2, none)) :=
  ⟨rfl, rfl, by decide, by decide, by decide, ⟨_, _, rfl, by decide⟩, ⟨_, rfl⟩⟩
/-- One page, and everything. -/
theorem witness_translations : (Instr.tlbinv 0 2).wf = true ∧ tlbRange 0x02000000 (2 ^ 32) = some (0x02000000, pageBytes 0) ∧ tlbRange 0 3 = some (0, 0) ∧
    (priv0 1).quietGroup 0 0 0 = true ∧ (priv0 1).quietPart 0 = true ∧ sok grp.sregs 0 = true ∧ sok grp.sregs 2 = true :=
  ⟨rfl, rfl, rfl, rfl, rfl, by decide, by decide⟩
/-- A handler whose `s1` names a buffer in its page and whose `s2` holds 4: a message of four bytes is posted, and one of four bytes taken. -/
def boxGrp : Group := { grp with sregs := sput (sput [] 1 [good 0x02000800, good 0]) 2 [good 4, good 0] }
def box0 : State := one { privBlk 1 with groups := [boxGrp], stash := some boxGrp } wideCur
def boxBlk : Block := { privBlk 1 with groups := [boxGrp], stash := some boxGrp }
theorem box_issues : PrivIssues box0 0 0 boxBlk boxGrp := ⟨one_issues _ _ rfl rfl rfl, by decide⟩
theorem witness_posts : ∃ hd s1, box0.homeGet 0 0 boxBlk.mbox.toNat 12 = .inl (hd, s1) ∧ leAt hd 8 4 = leAt hd 0 4 ∧
    (1 ≤ sval boxGrp.sregs 2 ∧ sval boxGrp.sregs 2 ≤ 112) ∧ sok boxGrp.sregs 1 = true ∧
    (let m := s1.bufferLanes boxBlk .rd (sval boxGrp.sregs 1) (sval boxGrp.sregs 2)
     let got := m.1.loadLanes boxBlk 1 m.2
     checks m.2 = .ok ∧ (∀ y ∈ m.2, m.1.absentTgt y.tgt 1 = false) ∧ got.2.1 = [] ∧
     ∃ u1 u2 u3, got.2.2.homePut 0 0 (boxBlk.mbox.toNat + 0x10) (got.1.map (fun y => y.2)).flatten = .inl u1 ∧
       u1.homePut 0 0 (boxBlk.mbox.toNat + 4) (toLe 1 (sval boxGrp.sregs 2)) = .inl u2 ∧ u2.homePut 0 0 boxBlk.mbox.toNat (toLe 4 1) = .inl u3) :=
  ⟨_, _, rfl, by decide, by decide, by decide, by decide, by decide, by decide, _, _, _, rfl, rfl, rfl⟩
theorem witness_polls : let s := box0.homeWrite (hbmBase + 0x1080) [1, 0, 0, 0, 4]
    ∃ hd s1, s.homeGet 0 0 (boxBlk.mbox.toNat + 0x80) 12 = .inl (hd, s1) ∧ leAt hd 0 4 ≠ leAt hd 8 4 ∧ leAt hd 4 1 ≤ sval boxGrp.sregs 2 ∧
    ∃ bs s2, s1.homeGet 0 0 (boxBlk.mbox.toNat + 0x90) (leAt hd 4 1) = .inl (bs, s2) ∧
      (let m := s2.bufferLanes boxBlk .wr (sval boxGrp.sregs 1) (leAt hd 4 1)
       checks m.2 = .ok ∧ (∃ u0, m.1.homePut 0 0 (boxBlk.mbox.toNat + 0x88) (toLe 4 (leAt hd 0 4)) = .inl u0) ∧
       ∃ u, ((m.2.zip bs).foldl (fun v y => v.storeTgt boxBlk y.1.tgt [y.2]) m.1).homePut 0 0 (boxBlk.mbox.toNat + 0x88) (toLe 4 (leAt hd 0 4)) = .inl u) :=
  ⟨_, _, rfl, by decide, by decide, _, _, rfl, by decide, ⟨_, rfl⟩, _, rfl⟩

/-- A halted block without windows, with an image of its shape at 0x02002000. -/
def imGrp : Group := { grp with sregs := sput [] 1 [good 0x02002000, good 0] }
def imBlk : Block := { privBlk 1 with groups := [imGrp], stash := some imGrp, trec := { fetchRec with gwin := 0, bwin := 0 } }
def im0 : State := ((one imBlk wideCur).homeWrite (hbmBase + 0x2006) [1]).homeWrite (hbmBase + 0x2016) [1, 1]
theorem witness_image_loads : PrivIssues im0 0 0 imBlk imGrp ∧ sok imGrp.sregs 1 = true ∧ sval imGrp.sregs 1 % 64 = 0 ∧
    ∃ hd s1, im0.homeGet 0 0 (sval imGrp.sregs 1) 896 = .inl (hd, s1) ∧ imBlk.sameShape hd = true ∧
      ∃ im s2 s3 s4, s1.homeGet 0 0 (sval imGrp.sregs 1) (imageSize hd imBlk.trec 1) = .inl (im, s2) ∧
        s2.homePut 0 0 imBlk.frameAt ((im.drop (grpOff imBlk.trec 0)).take 1600) = .inl s3 ∧
        s3.homePut 0 0 (imBlk.frameAt + 0x700) (imageBitmap im imBlk.trec 1 0) = .inl s4 :=
  ⟨⟨issues_at _ _ _ rfl rfl rfl, by decide⟩, by decide, by decide, _, _, rfl, by decide, _, _, _, _, rfl, rfl, rfl⟩
/-! ## Hypotheses that states meet: management cores, the matrix sequencer -/

/-- Core 0 with a vector, with an enabled interrupt pending, and waiting for one. -/
def mgmtAt (f : Mc → Mc) : State := { mgmt0 with mcs := [(0, f (mgmt0.mc 0))] }
/-- A register of the map, a place off the map, and an address that is no multiple of 4. -/
theorem witness_management_words : MgmtIssues mgmt0 0 ∧ (Instr.ldio 0 0 0).wf = true ∧ (Instr.stio 2 0 0).wf = true ∧ sok (mgmt0.mc 0).sregs 0 = true ∧
    sval (mgmt0.mc 0).sregs 0 < 2 ^ 32 ∧ rok (lowHalf (mgmt0.mc 0).sregs 2) = true ∧
    (let q := ((mgmtAt (fun c => { c with sregs := [(0, fresh 0x01000000)] })).mc 0).sregs
     ioPlace q 0 0 = 0x01000000 ∧ sval q 0 < 2 ^ 32 ∧ sok q 0 = true) ∧
    (let q := ((mgmtAt (fun c => { c with sregs := [(0, fresh 0xFFFFFFFE)] })).mc 0).sregs
     ioPlace q 0 0 % 4 ≠ 0 ∧ ioPlace q 0 4095 % 4 ≠ 0) ∧ mgmt0.readReg 0x01000000 = some 0 ∧ mgmt0.readReg 0x00FFFFFC = none :=
  ⟨⟨rfl, by decide⟩, rfl, rfl, by decide, by decide, by decide, by decide, by decide, by decide, by decide⟩
theorem witness_waits_for_interrupts : let s := mgmtAt (fun c => { c with ipend := 0x80, ien := 0x80, waiting := true, vec := 4 })
    MgmtIssues s 0 ∧ (s.mc 0).waiting = true ∧ (s.mc 0).ipend &&& (s.mc 0).ien ≠ 0 ∧ (mgmt0.mc 0).ipend &&& (mgmt0.mc 0).ien = 0 ∧ (s.mc 0).vec ≠ 0 ∧
    (mgmt0.mc 0).vec = 0 ∧ (0x14 : Nat) < 256 ∧ bitOf 0x8 3 = true ∧ (3 : Nat) < 4 :=
  ⟨⟨rfl, by decide⟩, rfl, by decide, by decide, by decide, by decide, by decide, by decide, by decide⟩
def mtask : TaskRec := { fetchRec with bwin := 8, rb := 4, mg := 16, spb := 16384 }
def mblk : Block := { blk grp with trec := mtask, area := 1, afmt := 0x40, rbs := [(3, ⟨true, 4, 0, []⟩)], mgs := [(15, ⟨true, 0, false, []⟩)] }
def matrix0 (k : Block) : State := one k matrixCur
theorem witness_matrix_control : MatrixIssues (matrix0 mblk) 0 mblk ∧ (Instr.mcfgIndex 7 0).wf = true ∧ (Instr.mcfgHi 7 0).wf = true ∧ (Instr.mcfgAfmt 8 0).wf = true ∧
    (0 : Nat) < mblk.groups.length ∧ mblk.groups.length ≤ 1 ∧ (Instr.mloop 7 0).wf = true ∧ (mblk.index_ 7 + 2 ^ 32 - 1) % 2 ^ 32 ≠ 0 ∧
    (let k := { mblk with ix := [(7, 1)] }
     (k.index_ 7 + 2 ^ 32 - 1) % 2 ^ 32 = 0) :=
  ⟨⟨rfl, rfl⟩, rfl, rfl, rfl, by decide, by decide, rfl, by decide, by decide⟩
theorem present_of (off n : Nat) (h : off + n ≤ 16384) : scrPresent mblk off n :=
  ⟨h, by intro l hl; simp [mblk, blk, fetchBlock] at hl⟩
theorem there_of (off n : Nat) (h : off + n ≤ 16384) : scrThere mblk off n := ⟨present_of off n h, rfl⟩
/-- The same block with an error in the second 8-byte word of its scratchpad. -/
def mblkBad : Block := { mblk with scrBad := [1] }
theorem witness_matrix_loads : (Instr.mbind 15 0 0 7 0).wf = true ∧ (15 : Nat) < mblk.trec.mg ∧ mblk.recsOk [] [15] [] = true ∧ scrThere mblk (512 * (mblk.index_ 7 + 0)) (4096 + 128) ∧
    scrThere mblk 0 (8192 + 128) ∧ (Instr.mrowLines 3 0 0 7 0).wf = true ∧ (Instr.mrowTslots 3 0 0 7 0).wf = true ∧ mblk.afmt % 16 = 0 ∧ 2 ≤ mblk.afmt / 16 ∧ mblk.afmt / 16 ≤ 8 ∧
    (3 : Nat) < mblk.trec.rb ∧ mblk.scaleOk 0 = true ∧ mblk.recsOk [3] [] [] = true ∧ scrThere mblk (512 * (mblk.index_ 7 + 0)) 4096 ∧
    (∀ m < 32, rok (tget RWord.zero mblk.operand.win (mblk.scaleWord 0 m)) = true) ∧ (∀ w, rok (tget RWord.zero mblk.operand.win w) = true) ∧
    mblk.operand.vt.toNat + 512 * (mblk.index_ 7 + 0) + 4096 ≤ mblk.gwinBytes ∧ rowsReady mblk 3 15 0 ∧
    mblkBad.recsOk [] [15] [] = true ∧ mblkBad.scrPoison (512 * (mblkBad.index_ 7 + 0)) (4096 + 128) = true ∧ MatrixIssues (matrix0 mblkBad) 0 mblkBad :=
  ⟨rfl, by decide, by decide, there_of _ _ (by decide), there_of _ _ (by decide), rfl, rfl, rfl, by decide, by decide, by decide, by decide, by decide,
    there_of _ _ (by decide), by decide, fun _ => rfl, by decide, by unfold rowsReady; decide, by decide, by decide, rfl, rfl⟩
/-- Two row buffers for planes of 16 bits, and images of that size. -/
theorem witness_wide_rows : let k := { mblk with afmt := 0x91 }
    rowsReady k 2 0 0 ∧ rowImage k = 8192 ∧ rowImage mblk = 4096 ∧ 512 * (k.index_ 7 + 0) + rowImage k ≤ spallocOf k.trec ∧
    k.operand.vt.toNat + 512 * (k.index_ 7 + 0) + rowImage k ≤ k.gwinBytes := by
  refine ⟨by unfold rowsReady; decide, rfl, rfl, by decide, by decide⟩
theorem tile0_apart : apart mblk 0 0 := by
  intro i j _ h1 _ h2
  obtain rfl : i = 0 := by omega
  obtain rfl : j = 0 := by omega
  decide
/-- Tiles 0 and 1 with their records apart from them; a stamp record without a ring, and with one. -/
theorem witness_tiles : (Instr.mzero 0 1).wf = true ∧ mblk.recsOk [] [] (upFrom 0 2) = true ∧ (∀ i ≤ 1, ∀ j ≤ 1, mblk.recWord i + 0x80 ≤ 1024 * j ∨ 1024 * j + 1024 ≤ mblk.recWord i ∨ j = 1) ∧
    apart mblk 0 0 ∧ (Instr.mstamp 0 2).wf = true ∧ mblk.recsOk [] [] [0] = true ∧ mblk.stampbase.toNat / 4096 = 0 ∧ (0x2000 : Nat) / 4096 ≠ 0 :=
  ⟨rfl, by decide, by decide, tile0_apart, rfl, by decide, by decide, by decide⟩
theorem tgets_nil {α : Type} (d : α) (a n : Nat) : tgets d [] a n = List.replicate n d := by
  induction n generalizing a with
  | zero => rfl
  | succ n ih => simp [tgets, tget, ih, List.replicate_succ]
theorem nth_replicate {α : Type} (d : α) (n k : Nat) : nth d (List.replicate n d) k = d := by
  induction n generalizing k with
  | zero => rfl
  | succ n ih => cases k <;> simp [List.replicate_succ, nth, ih]
theorem zero_tile_passes (b : Block) (j : Nat) (h : b.bwin = []) : (b.verify j).ok = true := by
  have hr : ∀ N m, (rowOf m (List.replicate N false)).any id = false := by intro N m; simp [rowOf, List.drop_replicate, List.take_replicate]
  have hs : ∀ N m, sum32 (rowOf m (List.replicate N 0)) = 0 := by intro N m; simp [rowOf, sum32, List.drop_replicate, List.take_replicate]
  have hc : ∀ N m, (colOf false m (List.replicate N false)).any id = false := by intro N m; simp [colOf, nth_replicate]
  have ht : ∀ N m, sum32 (colOf 0 m (List.replicate N 0)) = 0 := by intro N m; simp [colOf, nth_replicate, sum32, lanes32, upFrom]
  have hd : (b.tile j).damaged = false := by simp [Block.tile, Block.bn, Block.bw, h, bitOf, RWord.zero]
  have he : (b.tile j).el = List.replicate 1024 RWord.zero := by simp only [Block.tile, h, tgets_nil]
  have h1 : (b.tile j).crow = List.replicate 32 0 := by simp only [Block.tile, h, tgets_nil, List.map_replicate]; rfl
  have h2 : (b.tile j).ccol = List.replicate 32 0 := by simp only [Block.tile, h, tgets_nil, List.map_replicate]; rfl
  have hk : (b.tile j).check = some (b.tile j, false) := by
    simp only [Tile.check, hd, he, h1, h2, List.map_replicate, show rok RWord.zero = true from rfl, show RWord.zero.val.toNat = 0 from rfl, Bool.not_true, hr,
      hs, hc, ht, nth_replicate]
    rfl
  simp [Block.verify, hk]
/-- Row buffer 3 and mitten group 15 are bound; row buffer 2 is not. A tile of zeros verifies, one whose element changed does not. -/
theorem witness_products : let f : MulF := ⟨0, 3, 1, 15, 1, 4, false⟩
    (Instr.mmul 0 3 0 15 0 4).wf = true ∧ mblk.mulOk f = true ∧ mblk.recsOk f.rbs ((upFrom 0 f.nn).map f.mgs).flatten ((upFrom 0 f.nn).map (fun j => f.acc + j)) = true ∧
    mblk.mtest.toNat / 2 ^ 15 % 2 = 0 ∧ mblk.mulOk { f with rb := 2 } = false ∧ (Instr.mmulw 0 0 0 0 4).wf = true :=
  ⟨rfl, by decide, by decide, by decide, by decide, rfl⟩
theorem witness_drains : mblk.recsOk [] [] [0] = true ∧ (mblk.verify 0).ok = true ∧ (let k : Block := { mblk with bwin := [(1023, good 1), (1872, good 40)] }
     (k.verify 0).ok = false) ∧ 512 * (mblk.index_ 7 + 0) + 4096 ≤ spallocOf mblk.trec ∧ (Instr.mdrain 0 0 0 0 0 7).wf = true ∧ mblk.scaleOk 0 = true ∧
    mblk.grp mblk.ogrp = some grp ∧ 512 * mblk.index_ 7 + drainWidth 0 * 0 + 128 * 31 + drainWidth 0 ≤ spallocOf mblk.trec ∧
    (((matrix0 mblk).setChan 63 ⟨0, [], 0, 0⟩).chan 63).part.toNat = mblk.trec.part ∧ (((matrix0 mblk).setChan 63 ⟨0, [], 0, 0⟩).chan 63).tiles < 256 ∧
    inHbm (hbmBase + (matrix0 mblk).fab.stagebase.toNat % 65536 * 0x4000000 + 63 * 0x100000 + (0 + 0) % 256 * 4096) = true :=
  ⟨by decide, zero_tile_passes _ _ rfl, by decide +kernel, by decide, rfl, by decide, rfl, by decide, by decide, by decide, by decide⟩
/-! ## Hypotheses that states meet: headers, a core's events, a die's events -/

/-- Counter 0 is zero, and 1; group 0 stands before an unfinished phase of barrier 15, or has not come to it. -/
theorem witness_headers : let x : Group := { grp with sb := [(0, 1)] }
    let k : Block := { blk grp with bars := [(15, { Bar.zero with grparr := 1 })] }
    (Instr.clauseHeader 1 1 0 1 0 15 0 0 0).wf = true ∧ (Instr.clauseHeader 1 0 1 0 1 15 1 1 7).wf = true ∧ wide0.bg 0 0 = some (blk grp, grp) ∧ wide0.cur.set.Nodup ∧
    (∀ l ∈ wide0.cur.set, l < 32) ∧ tget 0 x.sb 0 ≠ 0 ∧ (∀ j < 6, bitOf 1 j = true → tget 0 grp.sb j = 0) ∧ (tget Bar.zero k.bars 15).grparr.getLsbD 0 = true ∧
    side0.cur.ag = .scalar 0 0 ∧ side0.bg 0 0 = some (blk sideGrp, sideGrp) ∧ MatrixIssues (matrix0 mblk) 0 mblk ∧ (copyState strBlk copyCur).cur.ag = .copy 0 ∧
    (copyState strBlk copyCur).blk 0 = some strBlk ∧ mgmt0.cur.ag = .mgmt 0 :=
  ⟨rfl, rfl, rfl, by decide, by decide, by decide, by decide, by decide, rfl, rfl, ⟨rfl, rfl⟩, rfl, rfl, rfl⟩
/-- A guard that fails and one that does not, in class A and in class S. -/
theorem witness_guards : guardFails grp 1 1 0 0 ∧ ¬guardFails grp 1 0 0 0 ∧ ¬guardFails grp 0 1 7 0 ∧ guardFails grp 0 0 7 0 := by unfold guardFails; decide
/-- A lane that starved for 1,024 issues; a group passed over 64 times. -/
theorem witness_starvation : let x : Group := grp.setLane 0 { grp.lane 0 with starve := 1024 }
    let y : Group := { grp with skip := 64 }
    (one (blk x) wideCur).bg 0 0 = some (blk x, x) ∧ (x.lane 0).st = .live ∧ 1024 ≤ (x.lane 0).starve ∧ x.forcedSet = [] ∧ (grp.lane 0).starve < 1024 ∧
    (blk y, y) ∈ (one (blk y) wideCur).quadGroups 0 0 ∧ 64 ≤ y.skip ∧ y.promo = none :=
  ⟨rfl, by decide, by decide, rfl, by decide, by decide, by decide, rfl⟩
/-- A breakpoint at the word, and none; a fault held, a stop held. -/
theorem witness_stops : let x : Group := { grp with inf := { grp.inf with bk3 := 0x8000000002000004 } }
    let k : Block := { blk grp with pend := [fault1] }
    let y : Block := { blk grp with stopReq := true }
    breaksAt x (one (blk x) wideCur).cur.pc ∧ (blk x).mode = .run ∧ x.bkSkip = false ∧ k.mode = .run ∧ k.calling = false ∧ k.pend = fault1 :: [] ∧ y.stopReq = true ∧
    y.pend = [] ∧ (blk grp).stopReq = false ∧ (privBlk 1).mode ≠ .run :=
  ⟨⟨_, .inr (.inr (.inr rfl)), by decide⟩, rfl, rfl, rfl, by decide, rfl, rfl, rfl, rfl, by decide⟩
theorem witness_breaks_nowhere : ¬breaksAt grp 0x02000004 := by rintro ⟨v, h | h | h | h, h1, -⟩ <;> subst h <;> simp [grp, fetchGroup, Group.new] at h1 <;> revert h1 <;> decide
/-- The only block is index 0 of the task at 0, which die 0's stop registers name at reset; die 3's name none. -/
theorem witness_stop_requests : wide0.blk (blk grp).id = some (blk grp) ∧ dieOf (blk grp).core = 0 ∧ (blk grp).index = (wide0.die 0).stopblk.toNat ∧
    (blk grp).trec.addr = (wide0.die 0).stoptLo.toNat + 2 ^ 32 * (wide0.die 0).stoptHi.toNat ∧ wide0.blocks = [blk grp] ∧ dieOf (blk grp).core ≠ 3 ∧
    (blk grp).mode = .run ∧ (∃ y ∈ (blk grp).groups, y.heldLanes ≠ []) :=
  ⟨rfl, rfl, rfl, rfl, rfl, by decide, rfl, ⟨grp, by decide, by decide⟩⟩
/-- Samples each 1,024 cycles, with a ring. -/
theorem witness_samples : let s := (wide0.setCore 0 { wide0.core 0 with tracectl := 0x101, tracebase := 0x02000000 })
    let t : State := { s with cycle := 1024 }
    let k := t.core 0
    k.tracectl.toNat / 2 ^ 8 % 2 ^ 16 ≠ 0 ∧ k.traceLast + k.tracectl.toNat / 2 ^ 8 % 2 ^ 16 * 1024 ≤ t.cycle ∧ bitOf k.tracectl.toNat 0 = true ∧
    k.tracebase.toNat / 4096 ≠ 0 ∧ (∃ y ∈ t.blocks, y.core = 0 ∧ y.groups ≠ []) ∧ (wide0.core 0).tracectl.toNat / 2 ^ 8 % 2 ^ 16 = 0 :=
  ⟨by decide, by decide, by decide, by decide, ⟨blk grp, by decide, rfl, by decide⟩, by decide⟩
/-- A block on a retired core whose task has a save slot, and one on a core in use. -/
def victimBlk : Block := { blk grp with trec := { fetchRec with slots := 1, save := 0x02000000, gwin := 1, bwin := 0 } }
def victim0 : State := (one victimBlk wideCur).setDie 0 { wide0.die 0 with retLo := 1 }
theorem witness_victim : victim0.blk 0 = some victimBlk ∧ victim0.isVictim victimBlk = true ∧ wide0.isVictim (blk grp) = false ∧ (∀ p < 24, wide0.pool p = []) ∧
    (victim0.saveBlock 0).2 = .saved ∧ (∀ d < 4, wide0.savingOn d = []) ∧ victimBlk.saving = .no := ⟨rfl, by decide, by decide, by decide, by decide +kernel, by decide, rfl⟩
/-- Bits 0 to 15, 16 of them, and one more. -/
theorem witness_retirements : ((upFrom 0 64).filter (fun i => bitOf 0xFFFF i)).length = 16 ∧ ((upFrom 0 64).filter (fun i => bitOf (0xFFFF + 2 ^ 63) i)).length = 17 ∧
    (wide0.core 255).retired < 127 ∧ (∀ y ∈ wide0.blocks, dieOf y.core ≠ 3) := by decide
/-- Core 3 waits for a page that partition 0 maps, and for one that it does not map. -/
theorem witness_walks : let s := wide0.setDie 0 { wide0.die 0 with walkq := [⟨0, 0x200, 3, 0, 0⟩] }
    let x : Group := { grp with wait := some ⟨.walk 0x201, 0, 1, 0x02000004, false, []⟩ }
    let u := (one (blk x) wideCur).setDie 0 { wide0.die 0 with walkq := [⟨0, 0x201, 0, 0, 0⟩] }
    (∃ y ∈ (s.die 0).walkq, (decide (y.part = 0) && decide (y.page = 0x200)) = true) ∧ (∃ m, s.mapping 0 (65536 * 0x200) = some m) ∧
    (∀ y ∈ (s.die 0).walkq, (decide (y.part = 0) && decide (y.page = 0x201)) = false) ∧ (s.die 0).dead = false ∧
    (∃ y ∈ (u.die 0).walkq, (decide (y.part = 0) && decide (y.page = 0x201)) = true ∧ (∃ k z v, u.bg y.blk y.grp = some (k, z) ∧ z.wait = some v ∧ v.on = .walk 0x201)) ∧
    u.mapping 0 (65536 * 0x201) = none ∧ (u.die 0).dead = false ∧ ({ u.die 0 with dead := true } : Die).dead = true :=
  ⟨⟨⟨0, 0x200, 3, 0, 0⟩, by decide, by decide⟩, ⟨_, rfl⟩, by decide, rfl, ⟨⟨0, 0x201, 0, 0, 0⟩, by decide, by decide, _, _, _, rfl, rfl, rfl⟩, rfl, rfl, rfl⟩
/-- The block's atomic waits at the gauntlet; the log names party 1, and its run is 0. -/
def rr0 : RrDesc := ⟨0x02000000, 0x02000008, 2, 0, 1, 0x02000000, 0x02001000, 0x02001000, 1, 0, 0, 0, [], 1⟩
def gateGrp : Group := { grp with wait := some ⟨.gauntlet, 0, 1, 0x02000004, false, []⟩, fetched := [(0x02000000, [BitVec.ofNat 32 (fetchHeader 5), BitVec.ofNat 32 (leAt ((encode (.atadd 4 0 6 1)).getD []) 0 4)])] }
def rrBlk : Block := { blk gateGrp with rr := some rr0 }
def rrState (run party : Nat) : State :=
  let s := one rrBlk wideCur
  (s.setDie 0 { s.die 0 with gaunt := [⟨0, 0, 1, 0⟩] }).setPart 0 { part0 with rr := [(1, ⟨0, run, party, false, []⟩)] }
theorem witness_gauntlet : ∃ w c cls word, (rrState 1 1).gateWait 0 0 0 = some w ∧ (rrState 1 1).blk 0 = some rrBlk ∧ rrBlk.rr = some rr0 ∧
    (rrState 1 1).waitingCur 0 0 = some (c, cls, word) ∧ decodeWord 5 word = .ok (.atadd 4 0 6 1) ∧ (atomRow (.atadd 4 0 6 1)).isSome = true ∧
    ((rrState 1 1).rrNow 0 rr0).2.1 ≠ 0 ∧ ((rrState 1 1).rrNow 0 rr0).2.2 = w.party ∧ ((rrState 1 2).rrNow 0 rr0).2.2 ≠ w.party ∧
    (rrState 1 1).bg 0 0 = some (rrBlk, gateGrp) ∧ gateGrp.wait = some ⟨.gauntlet, 0, 1, 0x02000004, false, []⟩ ∧ rr0.gate ≠ 0 ∧
    w.start + 1024 * rr0.gate < ({ rrState 1 1 with cycle := 1025 } : State).cycle ∧ (rrState 1 1).cycle ≤ w.start + 1024 * rr0.gate :=
  ⟨_, _, _, _, rfl, rfl, rfl, rfl, rfl, rfl, by decide, by decide, by decide, rfl, rfl, by decide, by decide, by decide⟩
/-- The same atomic with its operands and its home good, as party 15, which the log names. -/
def admBlk : Block := { addrBlk 0 0x02000108 with groups := [{ grpOf (addrBlk 0 0x02000108) with wait := gateGrp.wait, fetched := gateGrp.fetched }], rr := some rr0 }
def adm0 : State :=
  let s := (one admBlk wideCur).fillTlb 0 0 0x02000000
  (s.setDie 0 { s.die 0 with gaunt := [⟨0, 0, 15, 0⟩] }).setPart 0 { part0 with rr := [(1, ⟨0, 1, 15, false, []⟩)] }
theorem witness_gauntlet_completes : ∃ w c cls word a, adm0.gateWait 0 0 0 = some w ∧ admBlk.rr = some rr0 ∧ (grpOf admBlk).wait = gateGrp.wait ∧
    adm0.waitingCur 0 0 = some (c, cls, word) ∧ decodeWord 5 word = .ok (.atadd 4 0 6 1) ∧ (Instr.atadd 4 0 6 1).wf = true ∧ atomRow (.atadd 4 0 6 1) = some a ∧
    ({ adm0 with cur := c } : State).Issues 0 0 admBlk (grpOf admBlk) ∧ SlotsIn admBlk (grpOf admBlk) a.slots ∧
    goodOf (addressWords admBlk (grpOf admBlk) a.v a.a (lowest c.act)) = true ∧
    valOf (addressWords admBlk (grpOf admBlk) a.v a.a (lowest c.act)) = 0x02000108 ∧ 0x02000108 % a.bytes = 0 ∧
    goodOf (a.operand admBlk (grpOf admBlk) a.useX a.b (lowest c.act)) = true ∧ goodOf (a.operand admBlk (grpOf admBlk) a.useB2 (a.b + 1) (lowest c.act)) = true ∧
    ({ adm0 with cur := c } : State).homeAt admBlk 0x02000108 [.wr, .rd] = .ok (hbmBase + 0x108) ∧ homeDie (hbmBase + 0x108) = 0 ∧
    adm0.inMirror 0 (hbmBase + 0x108) = false ∧ adm0.poisonedIn (hbmBase + 0x108) a.bytes = false ∧ rr0.mode ≠ 1 ∧ rr0.lo ≤ 0x02000108 ∧ 0x02000108 < rr0.hi ∧
    (adm0.rrNow 0 rr0).2.1 ≠ 0 ∧ (adm0.rrNow 0 rr0).2.2 = w.party ∧ admBlk.party15 0 = w.party :=
  ⟨_, _, _, _, _, rfl, rfl, rfl, rfl, rfl, rfl, rfl, ⟨rfl, rfl, by decide, by decide, by decide, by decide, by decide⟩, by unfold SlotsIn; decide,
    by decide, by decide, by decide, by decide, by decide, rfl, by decide, by decide, by decide, by decide, by decide, by decide, by decide, by decide, by decide⟩
/-- The last byte of each window. -/
theorem witness_soft_errors : wide0.bg 0 0 = some (blk grp, grp) ∧ (32767 : Nat) < (blk grp).gwinBytes ∧ (4095 : Nat) < (blk grp).bwinBytes ∧
    (8191 : Nat) < spallocOf (memBlk (good 0)).trec ∧ (mem0 (good 0)).bg 0 0 = some (memBlk (good 0), memGrp (good 0)) ∧
    inHbm (hbmBase + 0x3FFFFFFFF) = true ∧ ¬inHbm (hbmBase - 1) := ⟨rfl, by decide, by decide, by decide, rfl, by decide, by decide⟩
/-! ## Hypotheses that states meet: copy engines -/

/-- A packet: word 0, owner word, source, destination, length, rows, the rest zero. -/
def pk (w0 own src dst len rows : Nat) : List Byte :=
  toLe 4 w0 ++ toLe 4 own ++ toLe 8 src ++ toLe 8 dst ++ toLe 4 len ++ toLe 4 rows ++ List.replicate 32 0
def word0 (mode : Nat) : Nat := mode * 2 ^ 27 + 255 * 2 ^ 16
/-- Queue 0, with one slot at 0x02000800 that holds the packet and a completion ring at 0x400 of the sync area; `st` is its state byte, `wi` its widx. -/
def engineState (k : Block) (q : CQueue) (p : List Byte) (wi st : Nat) : State :=
  ((({ one k wideCur with queues := [q] }).homeWrite syncBase (toLe 4 wi ++ toLe 4 0 ++ toLe 8 0x02000800 ++ [0, BitVec.ofNat 8 st] ++ List.replicate 6 0 ++
    toLe 8 (syncBase + 0x400))).homeWrite (hbmBase + 0x800) p)
def queue0 (f : Option Inflight) : CQueue := ⟨0, 0, 0, 0, f, [], []⟩
def fillPkt : List Byte := pk (word0 5) 0 0 0x02001000 1 0
def scrBlk : Block := { blk grp with trec := { fetchRec with spb := 512 } }
def scrPkt : List Byte := pk (word0 5) (ownerWord scrBlk 0 false) 0 scrBase 1 0
/-- A fill of one byte, the same abandoned, one to the owner's scratchpad, one of no owner, and one that breaks the limits of its mode. -/
theorem witness_packets_begin : let s := engineState (blk grp) (queue0 none) fillPkt 1 1
    let bad := engineState (blk grp) (queue0 none) (pk (word0 5) 0 1 0x02001000 1 0) 1 1
    let s1 := s.writeKept 0
    s1.queue 0 = some (queue0 none) ∧ s1.engineDead (queue0 none) = false ∧ s1.qStopped 0 = false ∧ s1.qRidx 0 ≠ s1.qWidx 0 ∧
    s1.qValid (queue0 none) (s1.qRidx 0) = true ∧ s1.qPacket (queue0 none) 0 = fillPkt ∧ s1.packetOk fillPkt [] = true ∧ pktMode fillPkt = 5 ∧
    regionOf (pktDst fillPkt) ≠ .scr ∧ PlainHomes s1 ∧ bad.packetOk (bad.qPacket (queue0 none) 0) [] = false ∧
    (engineState (blk grp) (queue0 none) fillPkt 0 0).qRidx 0 = 0 ∧ (engineState (blk grp) (queue0 none) fillPkt 0 0).qWidx 0 = 0 :=
  ⟨rfl, by decide, by decide, by decide, by decide, by decide, by decide, by decide, by decide, ⟨rfl, rfl, rfl, by decide⟩, by decide, by decide, by decide⟩
theorem witness_owned_packets_begin : let u := engineState scrBlk (queue0 none) scrPkt 1 1
    let u1 := u.writeKept 0
    u1.queue 0 = some (queue0 none) ∧ u1.engineDead (queue0 none) = false ∧ u1.qStopped 0 = false ∧ u1.qRidx 0 ≠ u1.qWidx 0 ∧
    u1.qValid (queue0 none) (u1.qRidx 0) = true ∧ u1.qPacket (queue0 none) 0 = scrPkt ∧ u1.packetOk scrPkt [] = true ∧
    regionOf (pktDst scrPkt) = .scr ∧ u1.ownerBlk scrPkt = some scrBlk ∧ u1.blk scrBlk.id = some scrBlk :=
  ⟨rfl, by decide, by decide, by decide, by decide, by decide, by decide, by decide, rfl, rfl⟩
/-- Packets of one chunk of one byte: to memory, to host memory, to the owner's scratchpad; a source and a destination that fail. -/
def infl (p : List Byte) : Inflight := ⟨0, p, 0, 1, 0, 0, 0xFFFF, 0, 0, 0, false, false, 0, []⟩
def flying (k : Block) (f : Inflight) : State := engineState k (queue0 (some f)) f.pkt 1 1
theorem witness_chunks : let s := flying (blk grp) (infl fillPkt)
    let u := flying scrBlk (infl scrPkt)
    let h := s.setPart 0 { s.part 0 with cfg := { (s.part 0).cfg with vfs := [3] } }
    s.queue 0 = some (queue0 (some (infl fillPkt))) ∧ (infl fillPkt).done = false ∧ (infl fillPkt).remote = false ∧ pktMode fillPkt ≠ 15 ∧
    s.gatherList (queue0 none) (s.ownerBlk fillPkt) fillPkt = .inl [] ∧ min 512 (streamBytes fillPkt [] - 512 * 0) = 1 ∧
    (∃ v, streamByte s (queue0 none) none fillPkt [] 0 = .inl v) ∧ s.engineDst 0 none (copyByte fillPkt [] 0).2 = .inl (0, hbmBase + 0x1000) ∧ pktCb fillPkt = 255 ∧
    u.engineDst 0 (some scrBlk) (copyByte scrPkt [] 0).2 = .inl (1, 0) ∧ u.ownerBlk scrPkt = some scrBlk ∧ (∃ a, h.engineDst 0 none hostBase = .inl (2, a)) ∧
    (∃ e, streamByte s (queue0 none) none (pk (word0 0) 0 0 0x02001000 1 0) [] 0 = .inr e) ∧ (∃ e, s.engineDst 0 none 0 = .inr e) ∧ PlainHomes s ∧ s.engineDead (queue0 none) = false :=
  ⟨rfl, rfl, rfl, by decide, rfl, by decide, ⟨0, by decide⟩, by decide, by decide, by decide, by decide, ⟨3 * 2 ^ 64, by decide⟩, ⟨1, by decide⟩, ⟨1, by decide⟩, ⟨rfl, rfl, rfl, by decide⟩, by decide⟩
/-- A chunk of 64 bytes whose first 32, with the byte 7, stand in the owner's line already: what is left of it lies behind them. -/
theorem witness_sectors_before : let p := pk (word0 5) (ownerWord scrBlk 0 false) 0 scrBase 64 1
    let f : Inflight := { infl p with off := 32, ahead := List.replicate 32 7 }
    let u := flying scrBlk f
    u.queue 0 = some (queue0 (some f)) ∧ u.gatherList (queue0 none) (u.ownerBlk p) p = .inl [] ∧ min 512 (streamBytes p [] - 512 * 0) = 64 ∧
    (∀ j < 64, 32 ≤ j → u.engineDst 0 (some scrBlk) (copyByte p [] j).2 = .inl (1, j)) ∧ pktDst p - scrBase + 512 * f.next = 0 ∧ f.ahead.length = 32 := by decide
/-- A remote packet's last chunk. -/
theorem witness_remote_chunks : let f : Inflight := { infl (pk (word0 7) 0 0x02001000 0x02001000 1 0) with remote := true }
    (flying (blk grp) f).queue 0 = some (queue0 (some f)) ∧ f.done = false ∧ pktMode f.pkt = 7 ∧ f.total ≤ f.next + 1 := ⟨rfl, rfl, by decide, by decide⟩
/-- A packet that is done, its ring apart from the header: without an error, with one of the host's, with one of a resident block. -/
theorem witness_packets_end : let f := { infl fillPkt with done := true }
    let g := { infl scrPkt with done := true, status := 2 }
    let s := flying (blk grp) f
    let u := flying scrBlk g
    s.queue 0 = some (queue0 (some f)) ∧ PlainHomes s ∧ RecordApart s (queue0 (some f)) f ∧ f.status = 0 ∧ leAt f.pkt 4 4 / 2 ^ 31 ≠ 1 ∧ g.status ≠ 0 ∧ g.status ≠ 3 ∧
    leAt g.pkt 4 4 / 2 ^ 31 = 1 ∧ u.ownerBlk g.pkt = some scrBlk ∧ RecordApart u (queue0 (some g)) g :=
  ⟨rfl, ⟨rfl, rfl, rfl, by decide⟩, by unfold RecordApart; decide, rfl, by decide, by decide, by decide, by decide, rfl, by unfold RecordApart; decide⟩
/-- A fence without entries, and one that waits for index 1 of queue 1, which has not begun. -/
def fencePkt (e : Nat) : List Byte := toLe 4 (15 * 2 ^ 27) ++ toLe 4 0 ++ toLe 8 e ++ List.replicate 48 0
theorem joined_none (s : State) (k : CQueue) : ∀ j < 7, joined s k (leAt (fencePkt 0) (8 + 8 * j) 8) := by
  intro j hj; left
  have h : ∀ j < 7, leAt (fencePkt 0) (8 + 8 * j) 8 = 0 := by decide
  rw [h j hj]; decide
theorem witness_fences : let f := infl (fencePkt (2 ^ 32 + 2 ^ 16))
    let s := { flying (blk grp) f with queues := [queue0 (some f), ⟨1, 64, 0, 0, none, [], []⟩] }
    pktMode f.pkt = 15 ∧ pktMode (fencePkt 0) = 15 ∧ f.done = false ∧ f.status = 0 ∧ leAt f.pkt 8 8 / 2 ^ 32 ≠ 0 ∧ leAt f.pkt 8 8 / 2 ^ 16 % 1024 ≠ (queue0 (some f)).num ∧
    (∃ z, s.queue 1 = some z ∧ 2 ^ 31 ≤ (s.qRidx z.off + 2 ^ 32 - leAt f.pkt 8 8 / 2 ^ 32) % 2 ^ 32) :=
  ⟨by decide, by decide, rfl, rfl, by decide, by decide, ⟨_, rfl, by decide⟩⟩
/-- A kept packet whose slot is free; a stopped queue of the host's partition; a remote packet of 4,000,000 cycles. -/
theorem witness_queues_recover : let c : Claim := ⟨0, 0, fillPkt⟩
    let q : CQueue := ⟨0, 0, 0, 0, none, [c], [0]⟩
    let s := engineState (blk grp) q (List.replicate 64 0) 1 2
    let v : State := { s with vfs := [(3, { s.vf 3 with part := some 0 })] }
    let f : Inflight := { infl (pk (word0 7) 0 0 0 1 0) with remote := true }
    let r := flying (blk grp) f
    let late : State := { r with cycle := 4000000, fab := { r.fab with remotes := [(0, 0)] } }
    s.queue 0 = some q ∧ q.kept = [c] ∧ c.pkt.length = 64 ∧ s.qFree 0 0 = true ∧ PlainHomes s ∧ (v.vf 3).part = some q.part ∧ v.qField 0 0x11 1 = 2 ∧
    (s.vf 4).part ≠ some 0 ∧ late.queue 0 = some (queue0 (some f)) ∧ f.remote = true ∧ f.done = false ∧ (∃ x ∈ late.fab.remotes, x.1 = 0 ∧ x.2 + 4000000 ≤ late.cycle) ∧
    s.qFree 0 1 = false :=
  ⟨rfl, rfl, by decide, by decide, ⟨rfl, rfl, rfl, by decide⟩, rfl, by decide, by decide, rfl, rfl, rfl, ⟨(0, 0), by decide, rfl, by decide⟩, by decide⟩
/-! ## Hypotheses that states meet: the host, the stacks, boot, sensors -/

/-- Virtual function 3 is bound to partition 0, which holds slice 0; a waiting record with one dependence at 0x02000080. -/
def hostState : State :=
  let s := wide0.homeWrite (hbmBase + 0xAC) [1]
  { s with vfs := [(3, { s.vf 3 with part := some 0 })] }
def releaseData : List Nat := [0x80, 0, 0, 2, 0, 0, 0, 0]
/-- The first and the last byte of the slice's aperture; sizes 4 and 8 and none else; an HBM unit that is there and one that is gone. -/
theorem witness_host_accesses : IsAperture hostState 3 0x800000 0xE000000000 ∧ IsAperture hostState 3 0x83FFFF 0xE00003FFFF ∧ PlainHomes hostState ∧
    (0xE000000000 : Nat) % 8 = 0 ∧ ¬((2 = 4 ∨ 2 = 8) ∧ (0xE000000000 : Nat) % 2 = 0) ∧ ¬(384 * 2 ^ 30 < 384 * 2 ^ 30 - 1 + 1 ∨ (384 * 2 ^ 30 - 1) / 2 ^ 30 ∈ (hostState.hbm 7).removed) ∧
    (384 * 2 ^ 30 < 384 * 2 ^ 30 + 1) :=
  ⟨⟨0, rfl, by decide, by decide, by decide, by decide⟩, ⟨0, rfl, by decide, by decide, by decide, by decide⟩, ⟨rfl, rfl, rfl, by decide⟩, by decide, by decide, by decide, by decide⟩
theorem witness_no_aperture : ∀ a, ¬IsAperture hostState 3 0x840000 a := by
  rintro a ⟨p, h, -, -, h2, -⟩
  obtain rfl : 0 = p := Option.some.inj h
  revert h2; decide
theorem witness_releases : ReleaseOf hostState 0 0 releaseData (hbmBase + 0x80) ∧ hostState.taskState (hbmBase + 0x80) = 0 ∧ hostState.homeLe (hbmBase + 0x80 + 0x2C) 4 = 1 ∧
    wide0.homeLe (hbmBase + 0x80 + 0x2C) 4 = 0 ∧ (∀ p pa, (wide0.vf 3).part = some p → ¬ReleaseOf wide0 p 0 [] pa) :=
  ⟨⟨rfl, rfl, by decide, by decide, by decide, by decide, ⟨hbmBase + 0x80, by decide⟩, by decide⟩, by decide, by decide, by decide, (by intro p pa h; have : (none : Option Nat) = some p := h; cases this)⟩
/-- The descriptor of the partition's recorded task covers the aperture's first word, in record and in replay mode. -/
def hostRr (mode : Nat) : RrDesc := ⟨0x02000000, 0x02000008, mode, 0, 1, 0xE000000000, 0xE000000008, 0x02001000, 1, 0, 0, 0, [], 1⟩
def hostRrState (mode party run : Nat) : State :=
  { hostState.setPart 0 { part0 with rr := [(1, ⟨0, run, party, false, []⟩)] } with
    grids := [⟨0, fetchRec, 1, [0], [], [], [], false, some (hostRr mode)⟩] }
theorem witness_host_records : IsAperture (hostRrState 1 0 0) 3 0x800000 0xE000000000 ∧ (hostRrState 1 0 0).rrOf 0 = some (hostRr 1) ∧
    (hostRrState 2 15 1).rrOf 0 = some (hostRr 2) ∧ ((hostRrState 2 15 1).rrNow 0 (hostRr 2)).2.1 ≠ 0 ∧ ((hostRrState 2 15 1).rrNow 0 (hostRr 2)).2.2 = 15 ∧
    ((hostRrState 2 1 1).rrNow 0 (hostRr 2)).2.2 ≠ 15 ∧ ((hostRrState 1 0 0).vf 3).part = some 0 ∧ hostState.rrOf 0 = none ∧
    (0xE000000000 : Nat) < (hostRr 1).hi ∧ ¬(0xE000000008 : Nat) < (hostRr 1).hi :=
  ⟨⟨0, rfl, by decide, by decide, by decide, by decide⟩, rfl, rfl, by decide, by decide, by decide, rfl, rfl, by decide, by decide⟩
/-- A unit of stack 0 that is gone, under an access of two bytes at its first byte. -/
theorem witness_gone_units : let s := { hostState with hbms := [(0, { hostState.hbm 0 with removed := [1] })] }
    2 ^ 30 + 2 ≤ 384 * 2 ^ 30 ∧ (∀ j < 2, (2 ^ 30 + j) / 2 ^ 30 ∈ (s.hbm ((2 ^ 30 + j) / 2 ^ 30 / 48)).removed) ∧
    (∀ j < 2, ¬(0 + j) / 2 ^ 30 ∈ (s.hbm ((0 + j) / 2 ^ 30 / 48)).removed) := by decide
/-- An entry of class `bank` with a request, one 720 hours old; a stack whose units are all free, and one without any. -/
def clsAt (c : Nat) : ClsEnt := { ClsEnt.none with cnt := 3, cls := c, req := true }
def stackState (busy : Option Nat) (c : Nat) (gone : List Nat) : State :=
  let s := { State.reset with cycle := 720 * 14400000000000 }
  { s with hbms := [(7, { s.hbm 7 with ents := [(1023, clsAt c)], busy := busy, removed := gone })] }
theorem witness_table : tableOk ((stackState none 4 []).hbm 7) ∧ tableOk (State.reset.hbm 0) := by
  refine ⟨⟨by decide, by decide, by decide⟩, ⟨by decide, by decide, by decide⟩⟩
theorem witness_stacks : let s := stackState none 4 []
    let k := s.hbm 7
    (k.ent 1023).cnt ≠ 0 ∧ (k.ent 1023).hour + 720 ≤ s.hoursNow ∧ (k.ent 0).cnt = 0 ∧ k.busy = none ∧ (k.ent 1023).req = true ∧ (k.ent 1023).cls = 4 ∧
    ((stackState none 1 []).hbm 7).ent 1023 = clsAt 1 ∧ s.unitFree 7 383 = true ∧ (∀ v, 383 < v → v < 48 * 7 + 48 → s.unitFree 7 v = false) ∧ (k.ent 0).req = false ∧
    ((stackState (some 0) 4 []).hbm 7).busy ≠ none :=
  ⟨by decide, by decide, by decide, rfl, by decide, by decide, rfl, by decide, (by intro v h1 h2; omega), by decide, by decide⟩
theorem witness_no_free_unit : let s := stackState none 4 (upFrom 336 48)
    ∀ u, 48 * 7 ≤ u → u < 48 * 7 + 48 → s.unitFree 7 u = false := by
  intro s u h1 h2
  have : ∀ n < 48, s.unitFree 7 (336 + n) = false := by decide
  have := this (u - 336) (by omega)
  rwa [show 336 + (u - 336) = u by omega] at this
/-- Power and temperature at their limits and below, flash with room, the die that stops. -/
theorem witness_sensors : State.reset.xd.flash.length + 103 < flashRecords ∧ (2600 ≤ 2600 ∨ 95 ≤ 0) ∧ ¬(2600 ≤ 2599 ∨ 95 ≤ 94) ∧ (105 : Nat) ≤ 105 ∧ (3 : Nat) < 4 ∧
    (wide0.blocks.map (fun k => k.id)).Nodup ∧ State.reset.xd.fusemin.toNat ≤ 0 ∧ (0 : Nat) < ({ State.reset.xd with fusemin := 1 } : Xdie).fusemin.toNat := by decide
/-- An image signed with the private key 1 and the nonce 1: its public key and the r of its signature are the base point of the curve. -/
def image0 : List Nat := natBytes (
  toLe 4 0x4D494758 ++ List.replicate 28 0 ++ toLe 32 ecG.1 ++ toLe 32 ecG.2 ++ toLe 32 ecG.1 ++
    toLe 32 0x3f9c0400b19b89cd986db3d71ee6a1ef3b169e974afb999cab75cf6425f19088 ++ List.replicate 96 0)
def bootState (st : Nat) : State :=
  { State.reset with xd := { State.reset.xd with keyHash := sha256 (toLe 32 ecG.1 ++ toLe 32 ecG.2), targets := [1], boot := st } }
theorem witness_image : (bootState 6).imageOk (byteList image0) = true := by decide +kernel
theorem witness_boot : (bootState 0).imageOk (byteList image0) = (bootState 6).imageOk (byteList image0) ∧ nth 0 (bootState 0).xd.targets 0 ≠ 0 ∧ image0.length = 256 ∧
    (∀ j < 8, ¬triesTarget State.reset j) ∧ triesTarget (bootState 0) 0 ∧ nth [] [image0] 0 ≠ [] ∧ (bootState 6).xd.boot = 6 ∧ (bootState 0).xd.boot ≠ 6 ∧ (0 : Nat) ≠ 1 :=
  ⟨rfl, by decide, by decide, by unfold triesTarget; decide, by unfold triesTarget; decide, by decide, rfl, by decide, by decide⟩
/-- Requests of version 1.2 and of another, before and after the messages they need, of slot 0 and another, and of each kind of measurement. -/
theorem witness_attestation : let s : State := { State.reset with xd := { State.reset.xd with spdmVer := true, spdmCaps := true, spdmAlg := true } }
    nth 0 [0x12, 0xE0, 0, 0] 0 = 0x12 ∧ nth 0 [0x11, 0xE0, 0, 0] 0 ≠ 0x12 ∧ nth 0 [0x11, 0xE0, 0, 0] 0 ≠ 0x13 ∧ State.reset.xd.spdmVer = false ∧ State.reset.xd.spdmCaps = false ∧
    State.reset.xd.spdmAlg = false ∧ s.xd.spdmVer = true ∧ s.xd.spdmCaps = true ∧ s.xd.spdmAlg = true ∧ nth 0 [0x12, 0x83, 16, 0] 2 % 16 = 0 ∧ nth 0 [0x12, 0x83, 1, 0] 2 % 16 ≠ 0 ∧
    8 < nth 0 [0x12, 0xE0, 0, 9] 3 ∧ nth 0 [0x12, 0xE0, 0, 9] 3 ≠ 0xFF ∧ (1 ≤ nth 0 [0x12, 0xE0, 0, 8] 3 ∧ nth 0 [0x12, 0xE0, 0, 8] 3 ≤ 8) := by decide
/-! ## Hypotheses that states meet: optical ports, the fabric engine -/

/-- Port 33 as a test asks for it. -/
def portState (k : Port) : State := { State.reset with ports := [(33, k)] }
def port0 : Port := State.reset.port 33
/-- Full width: lanes on wavelengths 0 to 7, each locked with an open eye. -/
def upPort (st : Nat) : Port := { port0 with
  ctl := BitVec.ofNat 32 (16 * st + 7), stat := 0x1FF, lanemap := 0x76543210, eye := (upFrom 0 9).map (fun l => (l, 0x140018)) }
/-- State 2 asked up, state 4 asked off, and neither; the laser lit and dark. -/
theorem witness_port_requests : (upPort 2).st = 2 ∧ (0x41 / 16 % 16 = 4 ∧ 0x41 % 2 = 1 ∧ 0x40 % 2 = 0) ∧ (upPort 4).st ≠ 0 ∧ (0x0F / 16 % 16 = 0) ∧ port0.st = 0 ∧ port0.litAt = none ∧
    bitOf (upPort 1).ctl.toNat 0 = true ∧ (upPort 1).st = 1 ∧ bitOf ({ upPort 4 with ctl := 0x40 } : Port).ctl.toNat 0 = false ∧ (portState (upPort 2)).port 33 = upPort 2 := by
  decide
theorem lambdas : ∀ i < 8, lambdaOf 0x76543210 i = i := by decide
/-- The checks before data pass; one of a wavelength twice fails, as do an unlocked one and a closed eye. -/
theorem witness_port_checks : (∀ i < lanesIn (upPort 2).lanemap.toNat, lambdaLocked (upPort 2) (lambdaOf (upPort 2).lanemap.toNat i) ∧ lambdaEye (upPort 2) (lambdaOf (upPort 2).lanemap.toNat i)) ∧
    (∀ i < lanesIn (upPort 2).lanemap.toNat, ∀ j < i, lambdaOf (upPort 2).lanemap.toNat j ≠ lambdaOf (upPort 2).lanemap.toNat i) ∧ lambdaOf 0x76543211 0 = lambdaOf 0x76543211 1 ∧
    ¬lambdaLocked { upPort 2 with stat := 0x1FE } 0 ∧ ¬lambdaEye { upPort 2 with eye := [] } 0 ∧ lanesIn 0xFFFF3210 = 4 := by
  unfold lambdaLocked lambdaEye; decide
/-- A lit port whose lasers are on, before and at its 400,000 cycles; a laser at the threshold of the loss. -/
def litPort : Port := { port0 with ctl := 1, laser := 1, litAt := some 0 }
theorem witness_lights : litPort.st = 0 ∧ litPort.litAt ≠ none ∧ bitOf litPort.ctl.toNat 0 = true ∧ (∀ n < 10, bitOf litPort.laser.toNat n = true → 0x100 < nth 0 [0x101] n) ∧
    ¬(0x100 < nth 0 [0x100] 0) ∧ litPort.litAt = some 0 ∧ 0 + 400000 ≤ ({ portState litPort with cycle := 400000 } : State).cycle ∧ (portState litPort).cycle < 0 + 400000 ∧
    laserLit { upPort 4 with laser := 1 } 0 ∧ (upPort 4).st ≠ 8 ∧ (0x100 : Nat) ≤ 0x100 ∧ (upPort 8).st = 8 := by
  unfold laserLit; decide
theorem witness_all_lit : ∀ n, laserLit litPort n → 0x100 < nth 0 [0x101] n := by
  rintro n ⟨h, -, h2⟩
  exact witness_lights.2.2.2.1 n h h2
/-- A sweep and a training that run and that do not, and what starts them. -/
theorem witness_sweeps : port0.lockctl.toNat / 2 ^ 31 = 0 ∧ ({ upPort 2 with lockctl := 0x801FF1FF } : Port).lockctl.toNat / 2 ^ 31 = 1 ∧ port0.trainctl.toNat / 2 ^ 31 = 0 ∧
    ({ upPort 2 with trainctl := 0x800001FF } : Port).trainctl.toNat / 2 ^ 31 = 1 ∧ bitOf 0x800001FF 8 = true ∧ bitOf 0x80000000 8 = false ∧ (0x1FF % 512 ≠ 0 ∧ 1 ≤ (upPort 2).st) ∧
    port0.remapAt ≠ some State.reset.cycle ∧ ({ port0 with remapAt := some 0 } : Port).remapAt = some State.reset.cycle := by decide
/-- Wavelength 0 is lost, and is in use; the spare, wavelength 8, stands; without it four others stand. -/
theorem witness_losses : (upPort 4).st = 4 ∧ (upPort 5).st = 5 ∧ (upPort 2).st ≠ 4 ∧ (∃ i < lanesIn (upPort 4).lanemap.toNat, lambdaOf (upPort 4).lanemap.toNat i = 0) ∧
    ¬(∃ i < lanesIn (upPort 4).lanemap.toNat, lambdaOf (upPort 4).lanemap.toNat i = 8) ∧ lambdaLocked (upPort 4) 8 ∧ lambdaEye (upPort 4) 8 ∧ ¬lambdaLocked { upPort 4 with stat := 0xFF } 8 ∧
    (∀ x, 1 ≤ x ∧ x ≤ 4 → lambdaLocked { upPort 4 with stat := 0xFE } x) ∧ ¬lambdaLocked { upPort 4 with stat := 0 } 1 := by
  unfold lambdaLocked lambdaEye
  refine ⟨by decide, by decide, by decide, by decide, by decide, by decide, by decide, by decide, ?_, by decide⟩
  intro x h
  have : ∀ x < 5, 1 ≤ x → (x < 9 ∧ bitOf ({ upPort 4 with stat := 0xFE } : Port).stat.toNat x = true) := by decide
  exact this x (by omega) h.1
theorem witness_key_ends : 2 ^ 48 - 1 ≤ ({ upPort 4 with ctr := 2 ^ 48 - 1 } : Port).ctr ∧ ¬(2 ^ 48 - 1 ≤ ({ upPort 4 with ctr := 2 ^ 48 - 2 } : Port).ctr) := by decide
/-- A lit port one cycle past its bound; a port whose bursts failed FEC in three slots running, and in two; a map that takes the spare. -/
theorem witness_late_light : 0 + 400000 < ({ portState litPort with cycle := 400001 } : State).cycle ∧ litPort.litAt = some 0 ∧
    3 ≤ ({ upPort 4 with fecRun := 3 } : Port).fecRun ∧ ({ upPort 4 with fecRun := 2 } : Port).fecRun < 3 ∧ lambdaOf 0x76543218 0 = 8 ∧
    (∀ i < lanesIn port0.lanemap.toNat, lambdaOf port0.lanemap.toNat i ≠ 8) ∧ (∀ i < 8, ∀ j < i, lambdaOf 0x76543210 j ≠ lambdaOf 0x76543210 i) := by decide
/-- The engine: a counter at half its range; both key slots; the schedule locked and not; an idle channel, and one with a collective. -/
def fabState (f : Fabric) (ps : Sparse Port) : State := { State.reset with fab := f, ports := ps }
theorem witness_engine_registers : let s := fabState Fabric.reset [(31, { upPort 4 with ctr := 2 ^ 47 })]
    2 ^ 47 ≤ (s.port 31).ctr ∧ bitOf s.fab.keyreq.toNat 31 = false ∧ 2 ^ 47 ≤ ((portState { port0 with ctr := 2 ^ 47 }).port 33).ctr ∧ bitOf s.fab.keyreq.toNat 33 = false ∧ bitOf s.fab.keyuse.toNat 31 ≠ bitOf (2 ^ 31) 31 ∧ bitOf s.fab.keyuse.toNat 30 = bitOf (2 ^ 31) 30 ∧
    bitOf ({ s.fab with keysel := 0x11F } : Fabric).keysel.toNat 8 = true ∧ bitOf s.fab.keysel.toNat 8 = false ∧ (s.port 31).key1.length ≤ 8 ∧ (s.port 31).key0.length ≤ 8 ∧
    ¬(s.fab.sched.toNat % 2 = 1 ∨ s.fab.tblsel.toNat % 128 = 127) ∧ ({ s.fab with tblsel := 127 } : Fabric).tblsel.toNat % 128 = 127 ∧ ({ s.fab with sched := 1 } : Fabric).sched.toNat % 2 = 1 ∧
    ¬(64 ≤ 63 ∨ (s.chan 63).posts ≠ [] ∨ (s.chan 63).tiles ≠ 0) := by decide
/-- A schedule that is locked anew, and one that was locked before. -/
theorem witness_locks : Fabric.reset.locked = false ∧ (1 : Nat) % 2 = 1 ∧ ({ Fabric.reset with locked := true } : Fabric).locked = true := by decide
/-- A locked engine whose port 31 alone carries data, to package 5 in slot 1. -/
def slotState : State := fabState { Fabric.reset with locked := true, tbl := [(63, 5)] } [(31, upPort 4)]
theorem witness_guards_idle : GuardsIdle slotState := by unfold GuardsIdle lambdaLocked; decide
theorem witness_unlocked_guards_idle : GuardsIdle (fabState { Fabric.reset with locked := true } []) ∧ GuardsIdle State.reset := by
  unfold GuardsIdle lambdaLocked; decide
theorem witness_slots : slotState.fab.locked = true ∧ slotState.fab.unacked = [] ∧ (slotState.port 31).up = true ∧
    (∀ q < 32, q ≠ 31 → (slotState.port q).up = false) ∧ tget 0xFFF slotState.fab.tbl ((slotState.fab.slot + 1) % 127 * 32 + 31) = 5 ∧ Fabric.reset.locked = false ∧
    tget 0xFFF Fabric.reset.tbl ((Fabric.reset.slot + 1) % 127 * 32 + 31) = 0xFFF ∧ (∀ p < 32, ((fabState { Fabric.reset with locked := true } []).port p).up = false) := by decide
/-- A relay buffer without room. -/
theorem relay_of (xs : List (List Nat)) : ({ slotState.fab with out := [⟨5, 4095, 6, 0, .relayed, xs⟩] } : Fabric).relay = (xs.length * 64 + 4095) / 4096 := by
  simp [Fabric.relay]
theorem witness_relay_full : 8192 < ({ slotState.fab with out := [⟨5, 4095, 6, 0, .relayed, List.replicate 524289 []⟩] } : Fabric).relay := by
  rw [relay_of, List.length_replicate]; decide
/-- A burst from package 5 in slot 1 on port 31: in order, early, late, and for another package. -/
theorem witness_bursts : ((1 : Nat) = 1 ∧ slotState.fab.locked = true ∧ (5 : Nat) ≠ 0xFFF ∧ tget 0xFFF slotState.fab.tbl (1 % 127 * 32 + 31) = 5 ∧ ([] : List (List Nat)).length ≤ 31 ∧ (6 : Nat) < 8) ∧
    slotState.pkgId ≠ 4095 ∧ (5 * 4096 + slotState.pkgId) / 4096 = 5 ∧ (5 * 4096 + slotState.pkgId) % 4096 = slotState.pkgId ∧
    slotState.fab.relay ≤ 8192 ∧ heldAs slotState 31 ⟨5, 4095, 6, 0, .own, []⟩ ∉ slotState.fab.out ∧
    tget 0 slotState.fab.seqIn (5 * 8 + 6) = 0 ∧ slotState.fab.early = [] ∧ slotState.fab.arrived = [] ∧ (0 : Nat) < 1 ∧
    tget 0 ({ slotState.fab with seqIn := [(46, 1)] } : Fabric).seqIn (5 * 8 + 6) = 1 ∧ (∀ x ∈ slotState.fab.arrived, x.vc ≠ 7) ∧ (∀ x ∈ slotState.fab.early, ¬(x.src = 5 ∧ x.vc = 6 ∧ x.seq = 0)) := by decide
/-! ## Hypotheses that states meet: remote requests and atomics, collectives -/

/-- Partition 0 grants every package and partition, in the last entry of its table; the homes of four bytes in its page. -/
def grantState : State :=
  let s := (wide0.homeWrite (hbmBase + 0x1038) (toLe 8 (hbmBase + 0x1800))).homeWrite (hbmBase + 0x1BFC) (toLe 4 0xE0000000)
  s.setPart 0 { s.part 0 with cfg := { (s.part 0).cfg with nx := hbmBase + 0x1000 } }
def pas4 : List Nat := upFrom (hbmBase + 0x2000) 4
theorem witness_grants : GrantedBy grantState 0 9 31 ∧ ¬GrantedBy grantState 1 9 31 ∧ HomesOf grantState 0 .rd 0x02002000 4 pas4 ∧ HomesOf grantState 0 .wr 0x02002000 4 pas4 ∧
    pas4.Nodup ∧ PlainHomes grantState ∧ (∀ a ∈ pas4, grantState.poisonedIn a 1 = false) ∧ LeasesOk grantState ∧ min 4 512 % 4 = 0 := by
  refine ⟨⟨by decide, by decide, by decide, 255, by decide, by decide⟩, ?_, ⟨by decide, by decide⟩, ⟨by decide, by decide⟩, by decide, ⟨rfl, rfl, rfl, by decide⟩, by decide,
    ⟨by decide, by decide⟩, by decide⟩
  rintro ⟨h, -⟩; revert h; decide
/-- No page there: no homes. -/
theorem witness_no_homes : ∀ pas, ¬HomesOf grantState 0 .rd 0x08000000 1 pas ∧ ¬HomesOf grantState 0 .wr 0x08000000 1 pas := by
  intro pas
  constructor <;> (rintro ⟨-, h⟩; rcases h 0 (by decide) with ⟨h1, -⟩ | ⟨-, h1, -⟩ <;> revert h1)
  · decide
  · simp [show grantState.xlateNow 0 .rd (0x08000000 + 0) ≠ .ok (nth 0 pas 0) from by rw [show grantState.xlateNow 0 .rd (0x08000000 + 0) = _ from rfl]; nofun]
  · decide
  · simp [show grantState.xlateNow 0 .wr (0x08000000 + 0) ≠ .ok (nth 0 pas 0) from by rw [show grantState.xlateNow 0 .wr (0x08000000 + 0) = _ from rfl]; nofun]
/-- A joiner, package 7, reads through the cuff of partition 0. -/
theorem witness_cuff : let s := grantState.setPart 0 { grantState.part 0 with cuff := some 0, objs := [(0, [0, 0, 0, 0, 0, 0, 7, 0])] }
    ((s.part 0).cuff ≠ none ∧ leAt (tget [] (s.part 0).objs 0) 6 2 = 7) ∧ ¬((grantState.part 0).cuff ≠ none ∧ leAt (tget [] (grantState.part 0).objs 0) 6 2 = 7) ∧
    (∀ r ∈ cloneRanges s 0, r.1 % 65536 = 0 ∧ r.2 % 65536 = 0) := by decide
/-- Operations 8 and 0x13 of an aligned word in its line; the gate of a task that replays: held and consumed. -/
theorem witness_remote_atomics : let d : RrDesc := { rr0 with hi := 0x02003000 }
    let s := fun (run : Nat) => ({ grantState with grids := [{ grid0 with rr := some d }] } : State).setPart 0 { grantState.part 0 with rr := [(1, ⟨1 - run, run, 1, false, []⟩)] }
    (8 ≤ 8 ∧ 0x13 ≤ 0x13 ∧ 0x02002000 % 8 = 0) ∧ (atOpOf 8).writes = true ∧ nth 0 pas4 0 % 64 + 4 ≤ 64 ∧ grantState.poisonedIn (nth 0 pas4 0) 4 = false ∧ grantState.inMirror 0 (nth 0 pas4 0) = false ∧ grantState.rrOf 0 = none ∧
    (s 1).rrOf 0 = some d ∧ (s 1).gateOf 0 d 15 0x02002000 = .hold 15 ∧ (s 0).gateOf 0 d 15 0x02002000 = .consumed ∧
    ({ grantState with poison := [(hbmBase + 0x2000) / 32] } : State).poisonedIn (nth 0 pas4 0) 4 = true ∧ grantState.anyCuff = false :=
  ⟨by decide, by decide, by decide, by decide, by decide, rfl, rfl, by decide, by decide, by decide, by decide⟩
/-- A lease that has run out, one that has not, and a line without one. -/
theorem witness_leases : let l : Lease := ⟨5, copies 64 1, 16000⟩
    let s := { wide0 with leases := [l], cycle := 16000 }
    LeasesOk s ∧ l ∈ s.leases ∧ l.until_ ≤ s.cycle ∧ wide0.cycle < l.until_ ∧ (∀ x ∈ s.leases, x.line ≠ 6) ∧ leaseAt s.leases 320 = some l :=
  ⟨⟨by decide, by decide⟩, by decide, by decide, by decide, by decide, by decide⟩
/-- Packages 0 (this one) and 5 are ranks 0 and 1 of group 3. A reduce-scatter of two f32 elements from the channel's tiles. -/
def collPkt (op tot : Nat) : List Byte :=
  [BitVec.ofNat 8 op, 0, 0, 0] ++ toLe 2 0 ++ toLe 2 3 ++ [0, 0] ++ toLe 2 0 ++ toLe 4 tot ++ toLe 8 0 ++ toLe 8 0x02002000 ++ toLe 8 0x02003000 ++ toLe 4 0 ++ toLe 2 511 ++ copies 18 0
def begun (op : Nat) : Coll := { Coll.new (collPkt op 2) with begun := true, live := [0, 1], rank := 0 }
def collState (c : Coll) (tiles : Nat) : State :=
  (grantState.setPart 0 { grantState.part 0 with ranks := [(3, [0, 5])] }).setChan 63 ⟨0, [c], tiles, 0⟩
theorem witness_collective_heads : let c := Coll.new (collPkt 1 2)
    let s := collState c 0
    s.collHead 63 = some c ∧ c.status = none ∧ c.begun = false ∧ s.collValid (s.chanPart 63) c = true ∧ leAt c.pkt 4 2 = (s.part 0).gen.toNat ∧
    rankIn [0, 5] s.pkgId = 0 ∧ s.ranksOf 0 3 = some [0, 5] ∧ s.collValid 0 (Coll.new (collPkt 4 2)) = false ∧ rankIn [5] s.pkgId = 0xFFFF ∧ (begun 1).begun = true ∧
    leAt (begun 1).pkt 0x10 8 = 0 ∧ (begun 1).sent < min (begun 1).need (1024 * ((collState (begun 1) 1).chan 63).tiles) ∧
    min (begun 1).need (1024 * ((collState (begun 1) 0).chan 63).tiles) ≤ (begun 1).sent :=
  ⟨rfl, rfl, rfl, by decide, by decide, by decide, rfl, by decide, by decide, rfl, by decide, by decide, by decide⟩
/-- Staged elements of which one is poisoned, and none; a record whose address has no home. -/
theorem witness_staging : let s := collState (begun 1) 1
    let bad : State := { s with poison := [s.stageAt 63 0 / 32] }
    (∀ i, (begun 1).sent / 1024 ≤ i → 1024 * i < min (begun 1).need (1024 * (s.chan 63).tiles) → s.poisonedIn (s.stageAt 63 i) 4096 = false) ∧
    bad.poisonedIn (bad.stageAt 63 0) 4096 = true ∧ (∀ pas, ¬HomesOf (collState (begun 1) 0) 0 .wr 0x08000000 64 pas) := by
  refine ⟨fun i _ _ => rfl, by decide, ?_⟩
  rintro pas ⟨-, h⟩
  rcases h 0 (by decide) with ⟨h1, -⟩ | ⟨-, h1, -⟩
  · revert h1; decide
  · exact absurd h1 (by rw [show (collState (begun 1) 0).xlateNow 0 .wr (0x08000000 + 0) = _ from rfl]; nofun)
/-- Kinds 3 and 5: a shard sum of a rank that has not sent one, and the result. -/
theorem witness_norms : (begun 1).norm.any (fun x => decide (x.1 = 1)) = false ∧ (begun 1).status = none := by decide
/-- A flit of rank 1 of the collective's generation and one of the next; sequence numbers 0 of the collective, and 1, which nobody has begun. -/
theorem witness_flits : let s := collState (begun 1) 0
    ¬(0 ≠ (s.part (s.chanPart 63)).gen.toNat ∨ rankIn [0, 5] 5 = 0xFFFF) ∧ (1 ≠ (s.part (s.chanPart 63)).gen.toNat) ∧ (0 < (1 + 65536 - 0) % 65536 ∧ (1 + 65536 - 0) % 65536 < 32768) ∧
    s.collOf 0 3 0 = some 63 ∧ s.collHead 63 = some (begun 1) ∧ s.collOf 0 3 1 = none ∧ tget 0 (s.part 0).seqs 3 ≤ 1 ∧
    tget 0 ({ s.part 0 with seqs := [(3, 2)] } : Part).seqs 3 = 2 ∧ ¬(1 ≠ leAt (begun 1).pkt 0 1 ∨ 0 ≠ leAt (begun 1).pkt 2 1 ∨ 0 ≠ leAt (begun 1).pkt 3 1 ∨ 2 ≠ leAt (begun 1).pkt 0x0C 4) ∧
    (2 ≠ leAt (begun 1).pkt 0 1) :=
  ⟨by decide, by decide, by decide, by decide, rfl, by decide, by decide, by decide, by decide, by decide⟩
/-- A reduce-scatter whose shard, element 0, has both contributions; the homes of the shard and of the record. -/
def fullColl : Coll := { begun 1 with have_ := [(0, [0, 1])], acc := [(0, 0x40000000)] }
theorem witness_shards : let s := collState fullColl 0
    let vals := (upFrom (fullColl.lo fullColl.pos) (fullColl.lo (fullColl.pos + 1) - fullColl.lo fullColl.pos)).map fullColl.reduced
    s.collHead 63 = some fullColl ∧ leAt fullColl.pkt 0 1 = 1 ∧ leAt fullColl.pkt 1 1 < 2 ∧ fullColl.shardFull = true ∧ fullColl.sentShard = false ∧
    HomesOf s 0 .wr (leAt fullColl.pkt 0x18 8 + fullColl.lo fullColl.pos * fullColl.w) (vals.length * fullColl.w) pas4 ∧ PlainHomes s :=
  ⟨rfl, by decide, by decide, by decide, rfl, ⟨by decide, by decide⟩, ⟨rfl, rfl, rfl, by decide⟩⟩
/-- Ready to end: a reduce-scatter whose shard was sent, and a broadcast that holds its element; one that ends with status 5. -/
def ended (op : Nat) : Coll := { begun op with sentShard := true, sent := (begun op).need, got := [(0, some 1), (1, some 2)] }
theorem witness_collective_ends : let s := collState (ended 1) 0
    s.collHead 63 = some (ended 1) ∧ (ended 1).ready = true ∧ (ended 2).ready = true ∧ (begun 1).ready = false ∧ leAt (ended 2).pkt 0 1 ≠ 1 ∧
    HomesOf s 0 .wr (leAt (ended 1).pkt 0x20 8) 64 (upFrom (hbmBase + 0x3000) 64) ∧ leAt (ended 1).pkt 0x20 8 % 64 = 0 ∧ s.syncOk 0 (leAt (ended 1).pkt 0x28 4) = true ∧
    leAt (ended 1).pkt 0x2C 2 < 512 ∧ (upFrom (hbmBase + 0x3000) 64).Nodup ∧ syncBase + 63 ∉ upFrom (hbmBase + 0x3000) 64 ∧ (collState (ended 2) 0).anyCuff = false ∧
    HomesOf (collState (ended 2) 0) 0 .wr (leAt (ended 2).pkt 0x18 8) 8 (upFrom (hbmBase + 0x2000) 8) :=
  ⟨rfl, by decide, by decide, by decide, by decide, ⟨by decide, by decide⟩, by decide, by decide, by decide, by decide, by decide, by decide, ⟨by decide, by decide⟩⟩
/-- A retry 10 µs old, a younger one, and one of a generation that has passed. -/
theorem witness_resends : let r : Resend := ⟨4, 0, 0, 0, ⟨0, 5, 3, 0, .own, []⟩⟩
    let s : State := { grantState with fab := { grantState.fab with resends := [r] }, cycle := 40000 }
    s.fab.resends.find? (fun y => decide (y.id = 4)) = some r ∧ (s.part r.part).gen.toNat = r.gen ∧ r.at_ + 40000 ≤ s.cycle ∧ grantState.cycle < r.at_ + 40000 ∧
    (s.part r.part).gen.toNat ≠ ({ r with gen := 1 } : Resend).gen := by decide
/-! ## Hypotheses that states meet: the Nirrax engine -/

/-- This package, 0, is in slot 0 of a leaf of slots 0, 1 and 2; the leaf's port is on; the cap stands here, or with a holder. -/
def leafState (cap : Bool) (holder at_ : Nat) : State :=
  { State.reset with cycle := at_, ports := [(32, upPort 4)], nx := { State.reset.nx with ctl := 1, leaf := { State.reset.nx.leaf with members := [0, 1, 2], cap := cap, holder := holder } } }
def spineState : State := { State.reset with ports := [(33, upPort 4)], nx := { State.reset.nx with ctl := 2, spine := { State.reset.nx.spine with members := [0, 1], cap := true }, leaf := { State.reset.nx.leaf with members := [0] } } }
theorem witness_caps : RingOk (leafState true 0 0) false ∧ RingOk (leafState true 0 0) true ∧ RingOk spineState false ∧ RingOk spineState true ∧ MayPossess (leafState true 0 0) false ∧
    (leafState true 0 0).nxOn true = false ∧ ¬MayPossess spineState false ∧ MayPossess spineState true ∧ ¬MayPossess (leafState false 1 0) false ∧ ¬MayPossess (leafState false 1 0) true := by
  unfold RingOk MayPossess GroupSends; decide
/-- The holder in slot 1 is silent: the package is two places after it, and waits 51,400 cycles. -/
theorem witness_silence : PlacesAfter (leafState false 1 51400) false 2 ∧ SilenceOver (leafState false 1 51400) false 2 ∧ ¬SilenceOver (leafState false 1 51399) false 2 ∧
    (leafState false 1 51400).nx.leaf.holder ∈ (leafState false 1 51400).nx.leaf.members ∧ (leafState false 1 51400).nx.leaf.holder ≠ (leafState false 1 51400).ownPlace false ∧ ((leafState false 1 51400).port 32).ctr + 2 < 2 ^ 48 := by
  refine ⟨⟨by decide, by decide, ?_⟩, by unfold SilenceOver GroupSends; decide, by unfold SilenceOver GroupSends; decide, by decide, by decide, by decide⟩
  intro j h1 h2
  obtain rfl : j = 1 := by omega
  decide
/-- The spine's holder in slot 1 is silent, and this package, 0, is the relay of its leaf. -/
def spineSilence : State := { spineState with cycle := 51200, nx := { spineState.nx with spine := { spineState.nx.spine with cap := false, holder := 1 } } }
theorem witness_spine_silence : RingOk spineSilence true ∧ PlacesAfter spineSilence true 1 ∧ spineSilence.nxOn false = false ∧ SilenceOver spineSilence true 1 ∧
    spineSilence.nx.spine.holder ∈ spineSilence.nx.spine.members ∧ spineSilence.nx.spine.holder ≠ spineSilence.ownPlace true ∧ (spineSilence.port 33).ctr + 2 < 2 ^ 48 := by
  refine ⟨by unfold RingOk; decide, ⟨by decide, by decide, fun j h1 h2 => by omega⟩, by decide, by unfold SilenceOver GroupSends; decide, by decide, by decide, by decide⟩
/-- A frame of 256 bytes. -/
def frame (bs : List Byte) : List Byte := bs ++ copies (256 - bs.length) 0
def beat (seq n : Nat) : List Byte := frame ([1, 1, 0, 0, 0, 0, 0] ++ toLe 8 seq ++ [0, BitVec.ofNat 8 n])
/-- The frames of a possession that are kept, and whether their last one is a heartbeat that names their number. -/
def kept (frames : List (List Byte)) : List (List Byte) := frames.filter (fun f => decide (f.length = 256 ∧ 1 ≤ leAt f 0 1 ∧ leAt f 0 1 ≤ 6))
/-- One frame that closes itself, in order, and behind a gap; a possession whose last frame is no heartbeat; a frame of kind 7; another port. -/
theorem witness_possessions : let s := leafState false 1 0
    s.nxOn false = true ∧ (s.nxRing false).wait = [] ∧ (s.nxRing false).gap = none ∧ (s.nxRing false).seq = 0 ∧ kept [beat 1 1] = [beat 1 1] ∧ leAt (beat 1 1) 0 1 = 1 ∧
    (1 ≤ leAt (beat 1 1) 16 1 ∧ leAt (beat 1 1) 16 1 ≤ 16) ∧ leAt (beat 1 1) 7 8 = 0 + 1 + 0 ∧ (∀ f ∈ kept [beat 2 1], 0 + 1 < leAt f 7 8) ∧
    ((kept [beat 2 1]).map (fun f => leAt f 7 8)).Nodup ∧ (∀ h, (kept [frame [5]]).getLast? = some h → leAt h 0 1 ≠ 1) ∧ kept [frame [7]] = [] ∧ ((31 : Nat) ≠ 32 ∧ (31 : Nat) ≠ 33) := by
  refine ⟨by decide, rfl, rfl, rfl, by decide, by decide, by decide, by decide, by decide, by decide, ?_, by decide, by decide⟩
  intro h e
  rw [show (kept [frame [5]]).getLast? = some (frame [5]) by decide] at e
  cases e; decide
/-- A call, a publication of one sector, a suspicion, a heartbeat and a trim proposal of the leaf. -/
def callFrame (second : Nat) : List Byte := frame ([3] ++ copies 31 0 ++ toLe 2 1 ++ copies 78 0 ++ toLe 2 second)
def pubFrame : List Byte := frame ([2, 0, 0, 4] ++ copies 28 0 ++ toLe 4 0 ++ toLe 4 1 ++ [7])
def suspicion : List Byte := frame ([4, 1] ++ copies 30 0 ++ toLe 2 2)
theorem witness_call_frames : let s := leafState false 1 0
    let t := s.setPart 0 { s.part 0 with on := true, sentCalls := [some (0, 0)] }
    (callFrame 0xFFFF).length = 256 ∧ leAt (callFrame 0xFFFF) 0 1 = 3 ∧ leAt (callFrame 0xFFFF) 3 1 / 2 % 2 = 0 ∧ leAt (callFrame 0xFFFF) 3 1 / 8 % 2 = 0 ∧ (t.part 0).on = true ∧
    leAt (((callFrame 0xFFFF).drop 32).take 80) 0 2 ≠ 0xFFFF ∧ leAt (((callFrame 0xFFFF).drop 112).take 80) 0 2 = 0xFFFF ∧ leAt (((callFrame 2).drop 112).take 80) 0 2 ≠ 0xFFFF ∧
    (t.part 0).sentCalls = some (0, 0) :: [] ∧ leAt (callFrame 0xFFFF) 17 2 % 4096 = t.pkgId := by decide
theorem witness_publications : let s := (grantState.homeWrite (hbmBase + 0x1009) [16]).homeWrite (hbmBase + 0x1010) (toLe 8 (hbmBase + 0x10000))
    pubFrame.length = 256 ∧ leAt pubFrame 0 1 = 2 ∧ leAt pubFrame 3 1 = 4 ∧ tget [] s.nx.pubs (2 * (leAt pubFrame 17 2 % 4096)) = [] ∧ (s.part (leAt pubFrame 4 1)).on = true ∧
    s.mirror 0 = some (hbmBase + 0x10000, 65536, 0) ∧ (hbmBase + 0x10000) % 32 = 0 ∧ PlainHomes s ∧ (∀ j < 5, leAt ((pubFrame.drop (32 + 40 * j)).take 40) 4 4 ≠ 0 → j = 0) ∧
    leAt ((pubFrame.drop 32).take 40) 0 4 % 2 ^ 15 * 32 < 65536 :=
  ⟨by decide, by decide, by decide, by decide, by decide, by decide, by decide, ⟨rfl, rfl, rfl, by decide⟩, by decide, by decide⟩
/-- Slot 1 suspects slot 2: with no other vote, with two; slot 2 itself does not count. -/
theorem witness_suspicions : let s := leafState false 1 0
    let t := { s with nx := { s.nx with votes := [(2, 0, 0), (2, 3, 65532)] } }
    suspicion.length = 256 ∧ leAt suspicion 0 1 = 4 ∧ leAt suspicion 3 1 / 8 % 2 = 0 ∧ leAt suspicion 1 2 % 4096 = 1 ∧ leAt suspicion 32 2 % 4096 = 2 ∧ leAt suspicion 5 2 = 0 ∧
    ((1 : Nat) ≠ 2 ∧ 1 % 128 ∈ s.nx.leaf.members ∧ 2 % 128 ∈ s.nx.leaf.members ∧ 2 / 128 = s.pkgId / 128 ∧ 2 % 128 ∉ s.nx.leaving) ∧ ¬(leafState false 1 0).nx.leaf.members.contains 3 ∧
    (s.nx.votes.filter (fun v => decide (v.1 = 2 ∧ v.2.1 ≠ 1 ∧ (0 + 65536 - v.2.2) % 65536 ≤ 4))).length < 2 ∧
    2 ≤ (t.nx.votes.filter (fun v => decide (v.1 = 2 ∧ v.2.1 ≠ 1 ∧ (0 + 65536 - v.2.2) % 65536 ≤ 4))).length := by decide
theorem witness_heartbeats : (beat 1 1).length = 256 ∧ leAt (beat 1 1) 0 1 = 1 ∧ leAt (beat 1 1) 3 1 = 0 ∧ (leafState false 1 0).nx.confirmed = [] ∧ (frame [5]).length = 256 ∧
    leAt (frame [5]) 0 1 = 5 ∧ leAt (frame [5]) 3 1 = 0 ∧ (grantState.part (leAt (frame [5]) 4 1)).on = true ∧ canonical [] (leafState false 1 0).nx.pubs = true := by decide
/-- Slot 2 leaves, with unfinished publications of both scopes; the system one has a last frame under way, and none. -/
theorem witness_leaving : let n := { (leafState false 1 0).nx with leaving := [2], pubs := [(4, [pubFrame]), (5, [pubFrame])] }
    (2 : Nat) ∈ n.leaving ∧ canonical [] n.pubs = true ∧ tget 0 n.fly (128 * ((leafState false 1 0).pkgId / 128) + 2) = 0 ∧ tget 0 ({ n with fly := [(2, 1)] } : Nirrax).fly 2 ≠ 0 := by decide
/-- A gap of 64 rotations, and of 63. -/
theorem witness_gaps : (∃ x, ({ (leafState false 1 0).nx.leaf with gap := some (1, 0), rot := 64 } : NxRing).gap = some x ∧ 64 ≤ (64 + 65536 - x.2) % 65536) ∧
    ¬(∃ x, some ((1 : Nat), (1 : Nat)) = some x ∧ 64 ≤ (64 + 65536 - x.2) % 65536) ∧ (leafState false 1 0).nx.leaf.gap = none :=
  ⟨⟨_, rfl, by decide⟩, by rintro ⟨x, h, h2⟩; cases h; revert h2; decide, rfl⟩
/-- Package 2 was confirmed at rotation 0; this package's turn in a leaf of slots 1, 2 and 0 is at the first: its own place among the live slots. -/
theorem witness_expulsions : let s := { leafState false 1 0 with nx := { (leafState false 1 0).nx with confirmed := [(2, 0)], leaf := { (leafState false 1 0).nx.leaf with rot := 4, members := [1, 0, 2] } } }
    s.nx.confirmed = (2, 0) :: [] ∧ (let k := (s.nx.leaf.rot + 65536 - 0) % 65536 / 4
      let live := s.nx.leaf.members.filter (fun m => decide (m ≠ 2 % 128))
      1 ≤ k ∧ k < live.length ∧ nth 0 live k = s.pkgId % 128) ∧ (leafState false 1 0).nx.confirmed = [] := by decide
/-! ## Hypotheses that states meet: objects, fences, cloning, configuration -/

/-- The state block of `membership`: places 0 and 5 of group 3; package 8 a spare; one substitution, of place 5. -/
def membBytes (joiner cuff sub : Nat) : List Byte :=
  padTo 0x40 (toLe 2 0 ++ toLe 2 1 ++ toLe 2 1 ++ toLe 2 joiner ++ toLe 2 5 ++ toLe 2 3 ++ toLe 4 0 ++ toLe 8 cuff ++ toLe 8 0) ++ padTo 192 (toLe 2 8) ++ toLe 2 5 ++ toLe 2 sub
/-- Partition 0 with base rank tables, a log of 4,096 slots whose first holds a call, a clone map of one byte. -/
def objState (o meth : Nat) (args : List Nat) (mb : List Byte) : State :=
  let s := ((((grantState.homeWrite (hbmBase + 0x1000) (toLe 8 (hbmBase + 0x4000) ++ [12])).homeWrite (hbmBase + 0x1030) (toLe 8 (hbmBase + 0x1400))).homeWrite (hbmBase + 0x1400)
    (toLe 2 0 ++ toLe 2 5)).homeWrite (hbmBase + 0x1040) (toLe 8 (hbmBase + 0x8000) ++ toLe 8 1)).homeWrite (hbmBase + 0x4000) (callEntry 0 0 o meth args)
  s.setPart 0 { s.part 0 with placed := 1, cfg := { (s.part 0).cfg with groups := [(3, 2)] }, objs := [(0, mb), (1, Train.start.bytes)] }
def calm : List Byte := membBytes 0xFFFF (2 ^ 64 - 1) 0xFFFF
def methods : List (Nat × Nat) := [(0, 0), (0, 1), (0, 2), (0, 3), (0, 4), (0, 5), (0, 6), (1, 0), (1, 1), (1, 2), (1, 3), (1, 4), (1, 5)]
theorem witness_log_calls : (∀ x ∈ methods, ((objState x.1 x.2 [0] calm).nextCall 0).map (fun e => (e.obj, e.meth)) = some x) ∧ wide0.nextCall 0 = none ∧
    (objState 0 6 [] calm).methodsOf 0 0 ≤ 7 ∧ (∃ v o, (objState 0 6 [] calm).runCall 0 ⟨0, 0, 6, []⟩ 0 false = .inl (v, o)) ∧
    (∃ c, (objState 0 7 [] calm).runCall 0 ⟨0, 0, 7, []⟩ 0 false = .inr c) := ⟨by decide, rfl, by decide, ⟨_, _, rfl⟩, ⟨_, rfl⟩⟩
/-- Package 0 is live, 5 is not, 8 is a spare, 9 neither; a full table of substitutions. -/
theorem witness_membership : let s := objState 0 0 [0] calm
    let base := s.baseRanks 0
    let m := membOf s 0
    base = [(3, [0, 5])] ∧ LiveIn base m 0 ∧ m.spares = [8] ∧ m.subs = [(5, 0xFFFF)] ∧ m.joiner = 0xFFFF ∧ ¬TableFull base m 0 ∧ TableFull base { m with subs := List.replicate 256 (5, 0xFFFF) } 0 ∧
    (∃ t ∈ base, t.1 = 3 ∧ 5 ∈ t.2) ∧ (3 : Nat) < 2 ^ 14 ∧ m.spares.length < 64 ∧ 64 ≤ ({ m with spares := List.replicate 64 8 } : Memb).spares.length := by
  have hb : (objState 0 0 [0] calm).baseRanks 0 = [(3, [0, 5])] := by decide
  have hm : (membOf (objState 0 0 [0] calm) 0).subs = [(5, 0xFFFF)] := by decide
  refine ⟨hb, ⟨by decide, 0, ?_, ?_⟩, by decide, hm, by decide, ?_, ⟨?_, ?_, by decide⟩, ?_, by decide, by decide, by decide⟩
  · rw [hb]; exact ⟨(3, [0, 5]), by decide, by decide⟩
  · simp [placeOf, hm]
  · rintro ⟨-, -, h⟩; rw [hm] at h; revert h; decide
  · rw [hb]; exact ⟨(3, [0, 5]), by decide, by decide⟩
  · intro e h; obtain rfl := List.eq_of_mem_replicate h; decide
  · rw [hb]; exact ⟨(3, [0, 5]), by decide, rfl, by decide⟩
theorem witness_not_live : ∀ x ∈ [5, 8, 9], ¬LiveIn [(3, [0, 5])] (membOf (objState 0 0 [0] calm) 0) x := by
  have hm : (membOf (objState 0 0 [0] calm) 0).subs = [(5, 0xFFFF)] := by decide
  rintro x hx ⟨-, b, ⟨t, ht, hb⟩, h⟩
  simp only [List.mem_singleton] at ht; subst ht
  simp only [List.mem_cons, List.not_mem_nil, or_false] at hb hx
  rcases hb with rfl | rfl <;> simp [placeOf, hm] at h <;> subst h <;> revert hx <;> decide
/-- A clone of package 8 into place 5, before its first step and after it: what `admit` needs, and a pair that clashes. -/
theorem witness_clones : let m := membOf (objState 0 1 [8, 5] (membBytes 8 7 0xFFFF)) 0
    (m.joiner ≠ 0xFFFF ∧ m.joiner = 8 ∧ m.pbase = 5 ∧ (5, 0xFFFF) ∈ m.subs ∧ m.cuff ≠ 2 ^ 64 - 1) ∧ (m.joiner ≠ 0xFFFF ∧ 8 = m.joiner) := by decide
/-- The step that is due and one that is not, an overflow and none, a growth interval of one and of 2,000; values at the ends of their ranges. -/
theorem witness_training : let s := objState 1 0 [0, 0] calm
    let t := trainOf s 0
    t.step = 0 ∧ (1 : Nat) ≠ t.step ∧ t.good + 1 ≠ t.growth ∧ ({ t with growth := 1 } : Train).good + 1 = ({ t with growth := 1 } : Train).growth ∧ (membOf s 0).joiner = 0xFFFF ∧
    (0x3F800000 % 2 ^ 23 = 0 ∧ 0x3F800000 ≤ 0x3F800000 ∧ 0x4B800000 % 2 ^ 23 = 0) ∧ ¬(0x3F800001 % 2 ^ 23 = 0) ∧ (0 < 0x7F7FFFFF ∧ 0x7F7FFFFF < 0x7F800000) ∧ ¬(0 < 0) ∧
    (1 ≤ 2 ^ 31 ∧ 2 ^ 31 ≤ 2 ^ 31) ∧ ¬(1 ≤ 0) := by decide
/-- A fence not sent, sent and not applied, and applied. -/
theorem witness_generation_fences : let f : Fence := ⟨0, 1, [(3, [0, 0xFFFF])], true⟩
    let s := fun (sent : Option Nat) => wide0.setPart 0 { wide0.part 0 with fences := [f], fenceSent := sent }
    ((s none).part 0).fences = f :: [] ∧ ((s none).part 0).fenceSent = none ∧ ((s (some 2)).part 0).fenceSent = some 2 ∧ (∀ sl ∈ ((s none).part 0).cfg.slices, ∀ j < 8, ((s none).core (8 * sl + j)).outs = []) ∧
    (let o : Outst := ⟨0, 0, 0, 0, 0, 0, none, [], 0, [], [], false⟩
     (((s none).setCore 7 { (s none).core 7 with outs := [o] }).core (8 * 0 + 7)).outs ≠ []) ∧ (0 : Nat) ∈ ((s none).part 0).cfg.slices ∧ (s (some 2)).pubDone 2 = false ∧ (s (some 0)).pubDone 0 = true ∧
    (wide0.part 0).fences = [] := by decide
/-- A cuff with a marked page, one shadow page, free and used. -/
theorem witness_cuffs : let s := grantState.homeWrite (hbmBase + 0x1020) (toLe 4 1)
    let p := { s.part 0 with cuff := some 0, marked := [0x2000000] }
    p.cuff ≠ none ∧ 0x2000000 ∈ p.marked ∧ s.homeLe (p.cfg.nx + 0x20) 4 = 1 ∧ (0 ∉ p.shadow.map Prod.snd) ∧ s.leases = [] ∧ (∀ i < 1, i ∈ ({ p with shadow := [(5, 0)] } : Part).shadow.map Prod.snd) ∧
    (p.imgLen + 65535) / 65536 = 0 ∧ 0x2000000 ∉ p.seen ∧ 0x2000000 ∈ ({ p with seen := [0x2000000] } : Part).seen ∧ (({ p with imgLen := 1 } : Part).imgLen + 65535) / 65536 = 1 ∧
    (s.part 0).cuff = none := by decide
/-- This package, 0, joins; stripe 0 of its clone map has one byte; an image, a log entry, what `admit` and `clone` wait for. -/
def joinState : State := objState 0 6 [] (membBytes 0 7 0xFFFF)
theorem stripes_past : ∀ i, 0 < i → stripeAt joinState 0 i = [] := by
  intro i h
  have hs : ((cloneRanges joinState 0).map Prod.snd).sum = 1 := by decide
  have h0 : 1 - 1048576 * i = 0 := by omega
  simp [stripeAt, hs, h0, upFrom]
theorem witness_joins : Joining joinState 0 ∧ stripeAt joinState 0 0 = [hbmBase + 0x8000] ∧ PlainHomes joinState ∧ [7].length = 1 ∧ ¬Joining (objState 0 6 [] calm) 0 ∧
    [hbmBase + 0x8000].Nodup ∧ donorsOf joinState 0 = [0] ∧ donorsOf (objState 0 6 [] (membBytes 0 7 0xFFFF ++ toLe 2 0 ++ toLe 2 0xFFFF)) 0 = [0] := by
  refine ⟨by unfold Joining; decide, by decide, ⟨rfl, rfl, rfl, by decide⟩, rfl, by unfold Joining; decide, by decide, by decide, by decide⟩
/-- Reads: stripe 0 not yet asked for; asked; landed, with the image not yet asked for; loaded, with the call at the applied position missing from its slot. -/
theorem witness_reads : let p := joinState.part 0
    let q := { p with asked := [(0, 1)] }
    let r := { q with join := [0], objAsked := true, joinObjs := true, entryAsked := none }
    tget 0 p.asked 0 = 0 ∧ (∀ j, stripeAt joinState 0 j ≠ [] → tget 0 q.asked j ≠ 0) ∧ (∀ j, stripeAt joinState 0 j ≠ [] → j ∈ r.join) ∧ ¬(∀ j, stripeAt joinState 0 j ≠ [] → j ∈ q.join) ∧
    p.objAsked = false ∧ r.objAsked = true ∧ r.applied < ({ r with placed := 1 } : Part).placed ∧
    (joinState.homeWrite (joinState.logSlot 0 r.applied + 80) [1]).homeLe (joinState.logSlot 0 r.applied + 80) 8 ≠ r.applied ∧ r.entryAsked ≠ some r.applied := by
  refine ⟨by decide, ?_, ?_, ?_, by decide, rfl, by decide, by decide, by decide⟩
  · intro j h; rcases Nat.eq_zero_or_pos j with rfl | hj
    · decide
    · exact absurd (stripes_past j hj) h
  · intro j h; rcases Nat.eq_zero_or_pos j with rfl | hj
    · decide
    · exact absurd (stripes_past j hj) h
  · intro h; exact absurd (h 0 (by decide)) (by decide)
theorem witness_images_of_objects : let p := joinState.part 0
    let m := Memb.read (tget [] (splitObjs p.objs (membBytes 0 7 0xFFFF)) 0)
    let u := Memb.read (tget [] (splitObjs p.objs calm) 0)
    p.on = true ∧ m.joiner = joinState.pkgId ∧ m.cuff = 7 ∧ m.cuff ≠ 2 ^ 64 - 1 ∧ u.joiner ≠ joinState.pkgId ∧ (p.applied ≤ 0 ∧ ¬(88 ≤ 87)) := by decide
/-- The entry of position 0 comes again where 0 is applied, and is new where it is not. -/
theorem witness_entries : let bs := callEntry 0 0 0 6 [] ++ toLe 8 0
    leAt bs 80 8 = 0 ∧ bs.length = 88 ∧ (joinState.part 0).applied ≤ 0 ∧ 0 < ({ joinState.part 0 with applied := 1 } : Part).applied ∧ (joinState.part 0).on = true := by decide
theorem witness_admissions : let p := { joinState.part 0 with join := [0], joinObjs := true, applied := 1 }
    p.joinObjs = true ∧ p.applied = p.placed ∧ p.joinAdmit = false ∧ 0 ∈ p.join ∧ (joinState.part 0).joinObjs = false ∧ p.unsent.length < 8 ∧
    (let s := (objState 0 6 [] (padTo 0x40 (toLe 2 0 ++ toLe 2 1 ++ toLe 2 1 ++ toLe 2 0xFFFF ++ toLe 2 5 ++ toLe 2 3) ++ padTo 192 (toLe 2 0) ++ toLe 2 5 ++ toLe 2 0xFFFF))
     let m := membOf s 0
     (s.part 0).on = true ∧ s.pkgId ∈ m.spares ∧ m.joiner = 0xFFFF ∧ (5, 0xFFFF) ∈ m.subs ∧ ({ s.part 0 with reclone := some (5, 3) } : Part).reclone = some (5, 3) ∧ (s.part 0).reclone = none) := by decide
/-- The log slot of the next call lies apart from the descriptor and from the shadow pool. -/
theorem witness_slots_apart : SlotApart joinState 0 0 := by unfold SlotApart; decide
/-- An idle partition takes slices 0 and 31, unit 383, function 95 and a queue; a slice that does not exist is none of a configuration, nor is
an engine of a slice that it does not hold. -/
def cfg0 : PartCfg := { (State.reset.part 0).cfg with slices := [0, 31], units := [383], vfs := [95], queues := [⟨0, 0, 0⟩] }
theorem witness_configurations : TablesOk State.reset ∧ TablesOk wide0 ∧ State.reset.idlePart 23 = true ∧ State.reset.cfgOk 23 cfg0 = true ∧ cfg0.slices ≠ [] ∧
    State.reset.cfgOk 23 { cfg0 with slices := [32] } = false ∧ wide0.idlePart 0 = false ∧ State.reset.cfgOk 23 { cfg0 with slices := [], queues := [] } = true ∧
    State.reset.cfgOk 23 { cfg0 with queues := [⟨0, 0, 3⟩] } = false := by
  unfold TablesOk; decide
/-- Package 2 stands in for place 5, and is live; package 9 is not. -/
theorem witness_expelled : let s := objState 0 6 [] (membBytes 0xFFFF (2 ^ 64 - 1) 2)
    (s.part 0).on = true ∧ (Memb.read (tget [] (s.part 0).objs 0)).live (s.baseRanks 0) 2 = true ∧ (Memb.read (tget [] (s.part 0).objs 0)).live (s.baseRanks 0) 9 = false := by decide
/-! ## Hypotheses that states meet: a step -/

/-- The agenda names one agent, 3 cycles on; the machine at its move, and past it in the agenda. -/
def turn (a : Agent) (s : State) : State := { s with agenda := [⟨3, .agent a⟩] }
def arrived (a : Agent) (s : State) : State := ({ turn a s with agenda := [⟨0, .agent a⟩], cycle := s.cycle + 3 }).atRank ((turn a s).agentRank a)
def after (a : Agent) (s : State) : State := { arrived a s with agenda := (arrived a s).agenda.drop 1 }
theorem arrived_at (a : Agent) (s : State) : Arrived (turn a s) (.agent a) (arrived a s) := by
  refine ⟨3, [], rfl, ?_⟩
  have h : (turn a s).moveRank (.agent a) = (turn a s).agentRank a := rfl
  simp only [h]
  unfold arrived
  cases (turn a s).agentRank a <;> rfl
theorem next_of (a : Agent) (s : State) (h : (arrived a s).due ((turn a s).dueRank (.agent a)) = none) : Next (turn a s) a (after a s) := ⟨_, arrived_at a s, h, rfl⟩
/-- The clause of one `nop` of class F at the block's code, in code and fetched; its lane at the word, and at the header. -/
def nopHdr : Hdr := ⟨1, 6, false, 0, false, 0, false, 0, 0⟩
def fetchedGrp : Group := { grp with fetched := [(0x02000000, [BitVec.ofNat 32 (fetchHeader 6), 0x0C000000])] }
def headGrp : Group := fetchGroup false false
/-- The same where the scalar side has executed the clause, as a class S clause of one word; a landing behind the clause's only word. -/
def sClauseGrp : Group := { headGrp with sAhead := [0x02000000], fetched := [(0x02000000, [BitVec.ofNat 32 (fetchHeader 0), 0])] }
def farGrp : Group := { headGrp with lanes := tset Lane.none [] 0 { headGrp.lane 0 with pc := 0x02000008 } }
def nopAt (x : Group) : State := codeOf (blk x)
def nopState (x : Group) : State := after (.group 0 0) (nopAt x)
theorem nop_next : (∀ x ∈ [grp, fetchedGrp, headGrp, sClauseGrp, farGrp], (arrived (.group 0 0) (nopAt x)).due ((turn (.group 0 0) (nopAt x)).dueRank (.agent (.group 0 0))) = none) := by decide
/-- The turn comes to the group. -/
theorem nop_turn (x : Group) (h : (arrived (.group 0 0) (nopAt x)).due ((turn (.group 0 0) (nopAt x)).dueRank (.agent (.group 0 0))) = none) : Next (turn (.group 0 0) (nopAt x)) (.group 0 0) (nopState x) := next_of _ _ h
/-- A group that may issue, from its parts. -/
theorem may_issue (x : Group) (h : (nopState x).bg 0 0 = some (blk x, x)) (hu : x = x.undefer) (he : x.ended = false)
    (hs : ∀ l < 32, (x.lane l).st = .live → x.forcedSet = [] → (x.lane l).starve < 1024) (hf : (blk x).haltedFor 0 = false) (hr : x.resErr = false) (h0 : x.select = [0]) :
    MayIssue (nopState x) 0 0 (blk x) x := ⟨⟨x, h, hu, he, hs⟩, hf, hr, by rw [h0]; nofun⟩
theorem nop_found : (nopState grp).bg 0 0 = some (blk grp, grp) := rfl
theorem nop_fetched_found : (nopState fetchedGrp).bg 0 0 = some (blk fetchedGrp, fetchedGrp) := rfl
theorem nop_issues : MayIssue (nopState grp) 0 0 (blk grp) grp := may_issue _ nop_found rfl rfl (by decide) (by decide) rfl rfl
theorem nop_fetched_issues : MayIssue (nopState fetchedGrp) 0 0 (blk fetchedGrp) fetchedGrp := may_issue _ nop_fetched_found rfl rfl (by decide) (by decide) rfl rfl
theorem head_found : (nopState headGrp).bg 0 0 = some (blk headGrp, headGrp) := rfl
theorem nop_clause : ClauseAt (nopState grp) (.part 0) .group 0x02000000 (fetchHeader 6) nopHdr (fun _ => 0x0C000000) ∧
    ClauseAt (nopState headGrp) (.part 0) .group 0x02000000 (fetchHeader 6) nopHdr (fun _ => 0x0C000000) :=
  ⟨⟨by decide, by decide, rfl, by intro j hj; obtain rfl : j = 0 := Nat.lt_one_iff.mp hj; decide⟩,
    ⟨by decide, by decide, rfl, by intro j hj; obtain rfl : j = 0 := Nat.lt_one_iff.mp hj; decide⟩⟩
/-- None of these breakpoints is in force. -/
theorem no_breaks : ∀ v ∈ ([0, 0, 0, 0] : List W64), v.toNat / 2 ^ 63 ≠ 1 := by
  intro v hv
  obtain rfl : v = 0 := by simpa using hv
  decide
theorem witness_group_words : (∀ l ∈ grp.select, (grp.lane l).entered = true ∧ (grp.lane l).hdr = 0x02000000 ∧ (grp.lane l).pc.toNat = 0x02000004) ∧
    tget [] grp.fetched 0x02000000 = [] ∧ 0 < nopHdr.n ∧ [grp.inf.bk0, grp.inf.bk1, grp.inf.bk2, grp.inf.bk3] = [0, 0, 0, 0] ∧
    decodeWord nopHdr.cls (0x0C000000 % 2 ^ 32) = .ok .nop := ⟨by decide, rfl, by decide, rfl, rfl⟩
theorem witness_fetched_clause : tget [] fetchedGrp.fetched 0x02000000 = BitVec.ofNat 32 (fetchHeader 6) :: [0x0C000000] := by simp [fetchedGrp, tget]
theorem head_issues : MayIssue (nopState headGrp) 0 0 (blk headGrp) headGrp := may_issue _ head_found rfl rfl (by decide) (by decide) rfl rfl
theorem witness_group_headers : (∀ l ∈ headGrp.select, (headGrp.lane l).entered = false ∧ (headGrp.lane l).hdr = 0x02000000 ∧ (headGrp.lane l).pc.toNat = 0x02000000) ∧
    headGrp.sAhead = [] ∧ (0x02000000 ≤ 0x02000000 + 4 * nopHdr.n) := by decide
theorem witness_ahead : MayIssue (nopState sClauseGrp) 0 0 (blk sClauseGrp) sClauseGrp ∧ 0x02000000 ∈ sClauseGrp.sAhead ∧
    (∀ l ∈ sClauseGrp.select, (sClauseGrp.lane l).entered = false ∧ (sClauseGrp.lane l).hdr = 0x02000000 ∧ (sClauseGrp.lane l).pc.toNat = 0x02000000) ∧
    tget [] sClauseGrp.fetched 0x02000000 = BitVec.ofNat 32 (fetchHeader 0) :: [0] ∧ (hdrOf .group (BitVec.ofNat 32 (fetchHeader 0)).toNat).isSome = true :=
  ⟨may_issue _ rfl rfl rfl (by decide) (by decide) rfl rfl, by decide, by decide, by simp [sClauseGrp, tget], by decide⟩
theorem witness_far_landings : MayIssue (nopState farGrp) 0 0 (blk farGrp) farGrp ∧ 0x02000000 + 4 * nopHdr.n < 0x02000008 ∧
    (∀ l ∈ farGrp.select, (farGrp.lane l).entered = false ∧ (farGrp.lane l).hdr = 0x02000000 ∧ (farGrp.lane l).pc.toNat = 0x02000008) ∧
    ClauseAt (nopState farGrp) (.part 0) .group 0x02000000 (fetchHeader 6) nopHdr (fun _ => 0x0C000000) :=
  ⟨may_issue _ rfl rfl rfl (by decide) (by decide) rfl rfl, by decide, by decide, ⟨by decide, by decide, rfl, by intro j hj; obtain rfl : j = 0 := Nat.lt_one_iff.mp hj; decide⟩⟩
/-- The scalar side at a fetched `sadd`; a stream of a clause of one word, and management core 0 at its own, entered and not. -/
def wordOf (i : Instr) : Nat := (encodeWord i).getD 0
def scalarGrp : Group := { sideGrp with fetched := [(0x02000000, [BitVec.ofNat 32 (fetchHeader 0), BitVec.ofNat 32 (wordOf (.sadd 63 0 0))])] }
def sideState (x : Group) : State := after (.scalar 0 0) (one (blk x) sideCur)
theorem witness_side_words : Next (turn (.scalar 0 0) (one (blk scalarGrp) sideCur)) (.scalar 0 0) (sideState scalarGrp) ∧
    (sideState scalarGrp).bg 0 0 = some (blk scalarGrp, scalarGrp) ∧ scalarGrp.ended = false ∧ (blk scalarGrp).haltedFor 0 = false ∧ scalarGrp.sFault = none ∧ scalarGrp.resErr = false ∧
    scalarGrp.sc = some ⟨0x02000000, 0, 1, false, true⟩ ∧ NoBreak (blk scalarGrp) scalarGrp 0x02000004 ∧
    decodeWord 0 (BitVec.ofNat 32 (wordOf (.sadd 63 0 0))).toNat = .ok (.sadd 63 0 0) :=
  ⟨next_of _ _ (by decide), rfl, rfl, by decide, rfl, rfl, rfl, Or.inr (Or.inr (fun v hv => Or.inl (no_breaks v hv))), rfl⟩
theorem witness_side_clause : tget [] scalarGrp.fetched 0x02000000 = BitVec.ofNat 32 (fetchHeader 0) :: [BitVec.ofNat 32 (wordOf (.sadd 63 0 0))] := by simp [scalarGrp, tget]
/-- The scalar side at a class S clause at which the wide side stands. -/
def streamCode (cls : Nat) (i : Instr) : List Byte := toLe 4 (fetchHeader cls) ++ toLe 4 (wordOf i)
def sHeadAt : State := { (State.reset.putProgram (streamCode 0 (.sadd 63 0 0)) (blk headGrp) (.scalar 0 0)) with agenda := [] }
theorem witness_side_headers : let s0 := after (.scalar 0 0) sHeadAt
    Next (turn (.scalar 0 0) sHeadAt) (.scalar 0 0) s0 ∧ s0.bg 0 0 = some (blk headGrp, headGrp) ∧ headGrp.ended = false ∧ (blk headGrp).haltedFor 0 = false ∧ headGrp.sFault = none ∧
    headGrp.sc = none ∧ headGrp.select = 0 :: [] ∧ (headGrp.lane 0).entered = false ∧ (headGrp.lane 0).hdr ∉ headGrp.sAhead ∧ (headGrp.lane 0).pc.toNat ≤ (headGrp.lane 0).hdr + 4 * 1 ∧
    ClauseAt s0 (.part 0) .group (headGrp.lane 0).hdr (fetchHeader 0) ⟨1, 0, false, 0, false, 0, false, 0, 0⟩ (fun _ => wordOf (.sadd 63 0 0)) :=
  ⟨next_of _ _ (by decide), rfl, rfl, by decide, rfl, rfl, rfl, rfl, by decide, by decide, ⟨by decide, by decide, rfl, by intro j hj; obtain rfl : j = 0 := Nat.lt_one_iff.mp hj; decide⟩⟩
/-- A stream of block 0 at the clause that stands in code, and at the only word of the clause that it has fetched. -/
def runBlk (copy entered : Bool) (cls : Nat) (i : Instr) : Block :=
  let y : Stream := { Stream.idle with
    running := true, pc := if entered then 0x02000004 else 0x02000000, hdr := 0x02000000, entered := entered, fetched := if entered then [BitVec.ofNat 32 (fetchHeader cls), BitVec.ofNat 32 (wordOf i)] else [] }
  if copy then { blk grp with cs := y } else { blk grp with ms := y }
def streamAt (cls : Nat) (i : Instr) (k : Block) : State := { (State.reset.putProgram (streamCode cls i) k (.group 0 0)) with agenda := [] }
theorem witness_stream_headers : (let k := runBlk false false 3 .mnop
      let s0 := after (.matrix 0) (streamAt 3 .mnop k)
      Next (turn (.matrix 0) (streamAt 3 .mnop k)) (.matrix 0) s0 ∧ s0.blk 0 = some k ∧ k.ms.running = true ∧ k.stopping = false ∧ k.mode = .run ∧ k.ms.entered = false ∧ k.ms.pc ≤ k.ms.hdr + 4 * 1 ∧
      ClauseAt s0 (.part 0) .matrix 0x02000000 (fetchHeader 3) ⟨1, 3, false, 0, false, 0, false, 0, 0⟩ (fun _ => wordOf .mnop)) ∧
    (let k := runBlk true false 4 (.cfence 0 0 1)
      let s0 := after (.copy 0) (streamAt 4 (.cfence 0 0 1) k)
      Next (turn (.copy 0) (streamAt 4 (.cfence 0 0 1) k)) (.copy 0) s0 ∧ s0.blk 0 = some k ∧ k.cs.running = true ∧ k.stopping = false ∧ k.mode = .run ∧ k.cs.entered = false ∧
      ClauseAt s0 (.part 0) .copy 0x02000000 (fetchHeader 4) ⟨1, 4, false, 0, false, 0, false, 0, 0⟩ (fun _ => wordOf (.cfence 0 0 1))) :=
  ⟨⟨next_of _ _ (by decide), rfl, rfl, by decide, rfl, rfl, by decide, ⟨by decide, by decide, rfl, by intro j hj; obtain rfl : j = 0 := Nat.lt_one_iff.mp hj; decide⟩⟩,
    ⟨next_of _ _ (by decide), rfl, rfl, by decide, rfl, rfl, ⟨by decide, by decide, rfl, by intro j hj; obtain rfl : j = 0 := Nat.lt_one_iff.mp hj; decide⟩⟩⟩
theorem witness_stream_words : (let k := runBlk false true 3 .mnop
      let s0 := after (.matrix 0) (streamAt 3 .mnop k)
      Next (turn (.matrix 0) (streamAt 3 .mnop k)) (.matrix 0) s0 ∧ s0.blk 0 = some k ∧ k.ms.running = true ∧ k.ms.entered = true ∧
      k.ms.fetched = BitVec.ofNat 32 (fetchHeader 3) :: [BitVec.ofNat 32 (wordOf .mnop)] ∧ hdrOf .matrix (BitVec.ofNat 32 (fetchHeader 3)).toNat = some ⟨1, 3, false, 0, false, 0, false, 0, 0⟩ ∧
      k.ms.pc ≤ k.ms.hdr + 4 * 1 ∧ decodeWord 3 (BitVec.ofNat 32 (wordOf .mnop)).toNat = .ok .mnop) ∧
    (let k := runBlk true true 4 (.cfence 0 0 1)
      let s0 := after (.copy 0) (streamAt 4 (.cfence 0 0 1) k)
      Next (turn (.copy 0) (streamAt 4 (.cfence 0 0 1) k)) (.copy 0) s0 ∧ s0.blk 0 = some k ∧ k.cs.running = true ∧ k.cs.entered = true ∧
      hdrOf .copy (BitVec.ofNat 32 (fetchHeader 4)).toNat = some ⟨1, 4, false, 0, false, 0, false, 0, 0⟩ ∧ decodeWord 4 (BitVec.ofNat 32 (wordOf (.cfence 0 0 1))).toNat = .ok (.cfence 0 0 1)) :=
  ⟨⟨next_of _ _ (by decide), rfl, rfl, rfl, rfl, rfl, by decide, rfl⟩, ⟨next_of _ _ (by decide), rfl, rfl, rfl, rfl, rfl⟩⟩
/-- Management core 0 runs its firmware: at its clause, and at the only word of the clause that it has fetched. -/
def coreAt (entered : Bool) : State :=
  { State.reset with
    mcs := [(0, { Mc.reset with
      waiting := false, sram := tsets 0 [] 0 (streamCode 7 .wfi), entered := entered, pc := if entered then 4 else 0, fetched := if entered then [BitVec.ofNat 32 (fetchHeader 7), BitVec.ofNat 32 (wordOf .wfi)] else [] })],
    xd := { State.reset.xd with boot := 0xF0 } }
theorem witness_core_words : let s := after (.mgmt 0) (coreAt true)
    Next (turn (.mgmt 0) (coreAt true)) (.mgmt 0) s ∧ (s.mc 0).stopped = false ∧ (s.mc 0).waiting = false ∧ s.xd.boot = 0xF0 ∧ (s.mc 0).entered = true ∧
    (s.mc 0).fetched = BitVec.ofNat 32 (fetchHeader 7) :: [BitVec.ofNat 32 (wordOf .wfi)] ∧ hdrOf .mgmt (BitVec.ofNat 32 (fetchHeader 7)).toNat = some ⟨1, 7, false, 0, false, 0, false, 0, 0⟩ ∧
    decodeWord 7 (BitVec.ofNat 32 (wordOf .wfi)).toNat = .ok .wfi :=
  ⟨next_of _ _ (by decide), rfl, rfl, rfl, rfl, rfl, rfl, rfl⟩
theorem witness_core_headers : let s := after (.mgmt 0) (coreAt false)
    Next (turn (.mgmt 0) (coreAt false)) (.mgmt 0) s ∧ (s.mc 0).stopped = false ∧ (s.mc 0).waiting = false ∧ s.xd.boot = 0xF0 ∧ (s.mc 0).entered = false ∧ (s.mc 0).pc.toNat ≤ (s.mc 0).hdr + 4 * 1 ∧
    ClauseAt s (.mgmt 0) .mgmt (s.mc 0).hdr (fetchHeader 7) ⟨1, 7, false, 0, false, 0, false, 0, 0⟩ (fun _ => wordOf .wfi) :=
  ⟨next_of _ _ (by decide), rfl, rfl, rfl, rfl, by decide, ⟨by decide, by decide, rfl, by intro j hj; obtain rfl : j = 0 := Nat.lt_one_iff.mp hj; decide⟩⟩
/-- An event at the head of the agenda; a load of group 0 that has waited for its line for longer than the bound, with the event due and with none. -/
def eventState : State := { State.reset with agenda := [⟨3, .event .rotorSlot⟩] }
theorem witness_events : ∃ s1, Arrived eventState (.event .rotorSlot) s1 ∧ s1.due (eventState.dueRank (.event .rotorSlot)) = none := ⟨_, ⟨3, [], rfl, rfl⟩, by decide⟩
def lateState : State := waits { memBlk (good (15 * 512)) with absent := [15] } (.prswait 2 9 0) .presence []
theorem witness_late_waits : (∃ s1, Arrived { lateState with agenda := [⟨3, .event .rotorSlot⟩] } (.event .rotorSlot) s1 ∧ s1.due none = some ⟨1025, 1, .presenceTimeout 0 0⟩) ∧
    lateState.agenda = [] ∧ ({ lateState with cycle := 1026 } : State).due (some 0) = some ⟨1025, 1, .presenceTimeout 0 0⟩ := ⟨⟨_, ⟨3, [], rfl, rfl⟩, by decide⟩, rfl, by decide⟩
/-- Moves of one cycle by their ranks, and one that has a cycle of its own; a move that waits for a page of a cuff, and one that does not. -/
theorem witness_moves : let s : State := { wide0 with rank := (3, 9), agenda := [⟨3, .agent (.group 0 0)⟩], cycle := 0 }
    (∃ n, s.moveRank (.agent (.group 0 0)) = some n ∧ s.rank.1 = s.cycle + 3 ∧ n < s.rank.2) ∧ (∃ s1, Arrived s (.agent (.group 0 0)) s1 ∧ s1.cycle = 4) ∧
    (∃ s1, Arrived { s with agenda := [⟨3, .event (.blockPlacement 0)⟩] } (.event (.blockPlacement 0)) s1 ∧ s1.cycle = 4 ∧ s1.rank = (4, 2 ^ 17)) ∧
    (Move.event (.blockPlacement 0)).alone = true ∧ (Move.agent (.group 0 0)).alone = false :=
  ⟨⟨_, rfl, rfl, by decide⟩, ⟨_, ⟨3, [], rfl, rfl⟩, by decide⟩, ⟨_, ⟨3, [], rfl, rfl⟩, by decide, by decide⟩, rfl, rfl⟩
theorem witness_stalls : (∃ t, exec .rotorSlot State.reset = .next t ∧ t.stalled = false) ∧
    (let s := grantState.setPart 0 { grantState.part 0 with cuff := some 0, marked := [0x2000000] }
     ∃ t, exec (.cuffPageCopy 0 0x2000000) s = .next t ∧ t.stalled = true) := ⟨⟨_, rfl, by decide⟩, _, rfl, by decide⟩
/-- Words for the round trip, and the invariant at reset. -/
theorem witness_words_read_back : (Instr.sadd 63 0 0).wf = true ∧ encodeWord (.sadd 63 0 0) = some (wordOf (.sadd 63 0 0)) ∧ classOf (.sadd 63 0 0) = some 0 ∧
    classOf (.clauseHeader 1 0 0 0 0 0 0 0 0) = none := ⟨rfl, rfl, rfl, rfl⟩
/-! ## Small runs: one word each, values by hand from its rule -/

theorem reset_inv : State.reset.Inv := ⟨rfl, rfl⟩
def afterWord (o : Host.Outcome State Fault Refusal) : State := match o with | .next t => t | _ => State.reset
def groupAfter (o : Host.Outcome State Fault Refusal) : Group := ((afterWord o).bg 0 0).elim sideGrp Prod.snd
/-- A scalar side whose s1 is 2^64 - 1 and s2 is 2. -/
def numGrp : Group := { sideGrp with sregs := [(2, fresh 0xFFFFFFFF), (3, fresh 0xFFFFFFFF), (4, fresh 2)] }
def onSide (i : Instr) : SRegs := (groupAfter (exec i (one (blk numGrp) sideCur))).sregs
/-- R129: results wrap, the high product is signed, a shift by 64 or more of a negative number by `ssra` gives all ones. -/
theorem test_sadd_wraps : sval (onSide (.sadd 3 1 2)) 3 = 1 := by decide
theorem test_smulh_is_signed : sval (onSide (.smulh 3 1 2)) 3 = 2 ^ 64 - 1 := by decide
theorem test_smin_is_signed : sval (onSide (.smin 3 1 2)) 3 = 2 ^ 64 - 1 := by decide
/-- A wide side whose v1 is 0xFFFFFFFF and v2 is 1. -/
def numBlk : Block := put (put (blk grp) 1 (good 0xFFFFFFFF)) 2 (good 1)
def onWide (i : Instr) (n : Nat) : Nat :=
  match ((afterWord (exec i (one numBlk wideCur))).blk 0) with
  | some k => (lowWord k (grpOf k) .v n 0).val.toNat
  | none => 77
/-- R35 and R88: a lane's sum wraps; the two orders of a subtraction differ. -/
theorem test_vadd_wraps : onWide (.vadd 3 1 2 0 0) 3 = 0 := by decide
theorem test_vsub_order : onWide (.vsub 3 2 1 0 0) 3 = 2 := by decide
/-- The word that the host's helper stores is the one that the next step runs: s3 := s1 + s2, both 0 at reset, and the scalar side is past it. -/
theorem test_step_runs_the_stored_word : ((groupAfter (step (State.reset.withFetchWord 32 (wordOf (.sadd 3 1 2))))).sc).isSome = false := by decide
/-! ## Hypotheses that states meet: every word goes on -/

theorem witness_agents : AgentFits wide0 (.vadd 4 1 2 0 0) ∧ AgentFits side0 (.sadd 63 0 0) ∧ AgentFits { wide0 with cur := matrixCur } .mnop ∧ AgentFits { wide0 with cur := copyCur } (.cfence 0 0 1) ∧
    AgentFits mgmt0 .wfi ∧ AgentFits wide0 (.clauseHeader 1 6 0 0 0 0 0 0 0) ∧ isEvent .rotorSlot = true ∧ isEvent (.softError 1 0 0 0 0) = true :=
  ⟨.inl ⟨0, 0, rfl, rfl, .inr ⟨1, by decide, rfl⟩⟩, .inr (.inl ⟨0, 0, rfl, rfl, .inr ⟨0, by decide, rfl⟩⟩), .inr (.inr (.inl ⟨0, rfl, rfl, .inr ⟨3, by decide, rfl⟩⟩)),
    .inr (.inr (.inr (.inl ⟨0, rfl, rfl, .inr ⟨4, by decide, rfl⟩⟩))), .inr (.inr (.inr (.inr ⟨0, rfl, .inr ⟨7, by decide, rfl⟩⟩))), .inl ⟨0, 0, rfl, rfl, .inl rfl⟩, rfl, rfl⟩
/-- A record in a page of the partition with a counter of 2 on a settled core: `tkdec` leaves 1, `tkadd` of 0 leaves it, `tkmake` copies it; an index to take. -/
def taskState2 : State := (addr0 0 0x02000080).homeWrite (hbmBase + 0x80 + 0x2C) [2]
theorem witness_task_words : let k := addrBlk 0 0x02000080
    let x := grpOf k
    let s := taskState2
    AtRest s 0 0 k x ∧ goodOf (addressWords k x 1 0 0) = true ∧ s.recordAt k (valOf (addressWords k x 1 0 0)) [.wr, .rd] = .ok (hbmBase + 0x80) ∧
    s.recordAt k (valOf (addressWords k x 1 0 0)) [.rd] = .ok (hbmBase + 0x80) ∧ s.taskState (hbmBase + 0x80) = 0 ∧ s.homeLe (hbmBase + 0x80 + 0x2C) 4 = 2 ∧
    (1 ≤ (2 : Int) + (lowWord k x .w 6 0).val.toInt ∧ (2 : Int) + (lowWord k x .w 6 0).val.toInt ≤ 2 ^ 31 - 1) ∧ s.inMirror 0 (hbmBase + 0x80) = false ∧
    leAt (patch (s.homeBytes (hbmBase + 0x80) 128) 0x3F [0]) 0x2C 4 ≠ 0 :=
  ⟨⟨issues_at _ _ _ rfl rfl rfl, rfl, rfl, rfl, rfl, rfl, ⟨rfl, rfl, rfl, by decide⟩⟩, by decide, rfl, rfl, by decide, by decide, by decide, by decide, by decide⟩
theorem witness_index_rest : AtRest { wide0 with grids := [grid0] } 0 0 (blk grp) grp := ⟨issues_at _ _ _ rfl rfl rfl, rfl, rfl, rfl, rfl, rfl, ⟨rfl, rfl, rfl, by decide⟩⟩
/-- The words of objects: before the call, and where it has been placed, with its number in the group's wait. -/
theorem witness_object_rest : let k := callBlk
    let s := callState k
    AtRest s 0 0 k (grpOf k) ∧ (grpOf k).calling = false ∧ Names s k (grpOf k) 7 6 0 6 ∧ s.callRoom 0 = true ∧ valOf (k.src (grpOf k) .w 3 0) < 2 ^ 48 :=
  ⟨⟨issues_at _ _ _ rfl rfl rfl, rfl, rfl, rfl, rfl, rfl, ⟨rfl, rfl, rfl, by decide⟩⟩, by decide, by unfold Names; decide, by decide, by decide⟩
theorem witness_copy_rest : let k := blk grp
    let s := copyState k wideCur
    AtRest s 0 0 k grp ∧ SlotsIn k grp [(viewOf 0, 9), (viewOf 0, 8), (viewOf 0, 15)] ∧ rok (lowWord k grp .v 9 0) = true ∧
    (∃ q, s.namedQueue 0 (lowWord k grp .v 9 0).val.toNat = some q ∧ (s.qClaim q.off).2.qFree q.off (s.qWidx q.off) = true ∧ s.qFree q.off (s.qWidx q.off) = true) ∧
    (let u := s.homeWrite (syncBase + 0x18) (toLe 8 (syncBase + 0x400))
     u.syncOwn 0 (u.qField 0 0x18 8 + 64 * (15 % u.qSize 0)) = true) :=
  ⟨⟨issues_at _ _ _ rfl rfl rfl, rfl, rfl, rfl, rfl, rfl, ⟨rfl, rfl, rfl, by decide⟩⟩, by unfold SlotsIn; decide, by decide, ⟨_, rfl, by decide, by decide⟩, by decide⟩

end Sys2Proof.Tests
end

/-! ## The canonical form of both memories over every step (O58)

The development has one rule for each operation of the model that answers a state: it takes `h : s.Canon` to the answer, so that a proof
`h.recall.cuffs` reads as the operation's own text. Only the operations that write a memory (`State.recall`, `State.sectorWrite`,
`State.cuffCopy`, `State.homeWrite`, `State.homeWriteMask`, `State.engineWrite`, `State.hostAct`) have content: a `tsets` keeps the form.
Every other one composes these and replaces other fields, for which the rule `State.Canon.set` stands. The rules come in the order of the
model's definitions. -/

namespace Sys2Proof.Machine

section
variable {s t : State} {α β : Type}

/-- Device memory and host memory stand in their canonical form: `State.Inv` as a structure, so that a rule matches the state itself and never
the memories inside. -/
structure State.Canon (s : State) : Prop where
  mem : Memory.wf s.mem = true
  hostMem : Memory.wf s.hostMem = true

theorem State.canon_iff : s.Canon ↔ s.Inv := ⟨fun ⟨hm, hh⟩ => ⟨hm, hh⟩, fun ⟨hm, hh⟩ => ⟨hm, hh⟩⟩

/-! ### The form in an answer that may hold a state -/

/-- The form in the state that a meaning goes on with. -/
inductive OutCanon : Out → Prop
  | next {t : State} (h : t.Canon) : OutCanon (.next t)
  | fault {f : Fault} : OutCanon (.fault f)
  | refused {r : Refusal} : OutCanon (.refused r)

/-- The form in the state with which an agent goes on. -/
inductive TodoCanon : Todo → Prop
  | word {i : Instr} {t : State} (h : t.Canon) : TodoCanon (.word i t)
  | done {t : State} (h : t.Canon) : TodoCanon (.done t)

/-- A property of the answer of an operation that may have none. -/
inductive OnSome {α : Type} (P : α → Prop) : Option α → Prop
  | some {a : α} (h : P a) : OnSome P (some a)
  | none : OnSome P none

/-- A property of the answer of an operation that may fail. -/
inductive OnLeft {α β : Type} (P : α → Prop) : α ⊕ β → Prop
  | inl {a : α} (h : P a) : OnLeft P (.inl a)
  | inr {b : β} : OnLeft P (.inr b)

/-- A property of either answer of an operation. -/
inductive OnBoth {α β : Type} (P : α → Prop) (Q : β → Prop) : α ⊕ β → Prop
  | inl {a : α} (h : P a) : OnBoth P Q (.inl a)
  | inr {b : β} (h : Q b) : OnBoth P Q (.inr b)

theorem OutCanon.of_next {o : Out} (h : OutCanon o) (e : o = .next t) : t.Canon := by
  cases h <;> cases e
  assumption

theorem TodoCanon.of_word {o : Todo} {i : Instr} (h : TodoCanon o) (e : o = .word i t) : t.Canon := by
  cases h <;> cases e
  assumption

theorem TodoCanon.of_done {o : Todo} (h : TodoCanon o) (e : o = .done t) : t.Canon := by
  cases h <;> cases e
  assumption

theorem OnSome.of_some {P : α → Prop} {o : Option α} {a : α} (h : OnSome P o) (e : o = .some a) : P a := by
  cases h <;> cases e
  assumption

theorem OnLeft.of_inl {P : α → Prop} {o : α ⊕ β} {a : α} (h : OnLeft P o) (e : o = .inl a) : P a := by
  cases h <;> cases e
  assumption

theorem OnBoth.of_inl {P : α → Prop} {Q : β → Prop} {o : α ⊕ β} {a : α} (h : OnBoth P Q o) (e : o = .inl a) : P a := by
  cases h <;> cases e
  assumption

theorem OnBoth.of_inr {P : α → Prop} {Q : β → Prop} {o : α ⊕ β} {b : β} (h : OnBoth P Q o) (e : o = .inr b) : Q b := by
  cases h <;> cases e
  assumption

theorem State.Canon.of_fst {p : State × α} {a : α} (h : p.1.Canon) (e : p = (t, a)) : t.Canon := by subst e; exact h

theorem State.Canon.of_snd {p : α × State} {a : α} (h : p.2.Canon) (e : p = (a, t)) : t.Canon := by subst e; exact h

/-! ### Conditionals and folds -/

section
variable {c : Prop} {_ : Decidable c}

theorem State.Canon.ite (h : s.Canon) (h' : t.Canon) : (if c then s else t).Canon := by split <;> assumption

theorem OutCanon.ite {o o' : Out} (h : OutCanon o) (h' : OutCanon o') : OutCanon (if c then o else o') := by split <;> assumption

theorem TodoCanon.ite {o o' : Todo} (h : TodoCanon o) (h' : TodoCanon o') : TodoCanon (if c then o else o') := by split <;> assumption

theorem OnSome.ite {P : α → Prop} {o o' : Option α} (h : OnSome P o) (h' : OnSome P o') : OnSome P (if c then o else o') := by
  split <;> assumption

theorem OnLeft.ite {P : α → Prop} {o o' : α ⊕ β} (h : OnLeft P o) (h' : OnLeft P o') : OnLeft P (if c then o else o') := by
  split <;> assumption

theorem OnBoth.ite {P : α → Prop} {Q : β → Prop} {o o' : α ⊕ β} (h : OnBoth P Q o) (h' : OnBoth P Q o') :
    OnBoth P Q (if c then o else o') := by
  split <;> assumption
end

theorem State.Canon.foldl {f : State → α → State} {xs : List α} (h : s.Canon) (hf : ∀ t x, t.Canon → (f t x).Canon) : (xs.foldl f s).Canon :=
  List.foldlRecOn xs f h fun t ht x _ => hf t x ht

theorem State.Canon.foldlFst {f : State × β → α → State × β} {xs : List α} {p : State × β} (h : p.1.Canon)
    (hf : ∀ q x, q.1.Canon → (f q x).1.Canon) : (xs.foldl f p).1.Canon :=
  List.foldlRecOn (motive := fun q : State × β => q.1.Canon) xs f h fun q hq x _ => hf q x hq

theorem State.Canon.foldlSnd {f : β × State → α → β × State} {xs : List α} {p : β × State} (h : p.2.Canon)
    (hf : ∀ q x, q.2.Canon → (f q x).2.Canon) : (xs.foldl f p).2.Canon :=
  List.foldlRecOn (motive := fun q : β × State => q.2.Canon) xs f h fun q hq x _ => hf q x hq

theorem State.Canon.foldlSndSnd {γ : Type} {f : β × γ × State → α → β × γ × State} {xs : List α} {p : β × γ × State} (h : p.2.2.Canon)
    (hf : ∀ q x, q.2.2.Canon → (f q x).2.2.Canon) : (xs.foldl f p).2.2.Canon :=
  List.foldlRecOn (motive := fun q : β × γ × State => q.2.2.Canon) xs f h fun q hq x _ => hf q x hq

/-! ### Updates: of other fields, and of a range of one memory -/

/-- An update of other fields leaves both memories as they are. -/
theorem State.Canon.set {poison vbad hostBad hostSaw blocks saved grids blkNext orderNext cores dies parts vfs mcs queues hbms ports xd fab
    leases nx cycle agenda focus rank cur freeCtr stalled parked} (h : s.Canon) :
    State.Canon ⟨s.mem, poison, vbad, s.hostMem, hostBad, hostSaw, blocks, saved, grids, blkNext, orderNext, cores, dies, parts, vfs, mcs,
      queues, hbms, ports, xd, fab, leases, nx, cycle, agenda, focus, rank, cur, freeCtr, stalled, parked⟩ :=
  ⟨h.mem, h.hostMem⟩

/-- An update that writes a range of device memory. -/
theorem State.Canon.write {a : Nat} {bs : List Byte} (h : s.Canon) (hm : t.mem = tsets 0 s.mem a bs := by rfl)
    (hh : t.hostMem = s.hostMem := by rfl) : t.Canon := by
  obtain ⟨h1, h2⟩ := h
  exact ⟨hm ▸ canonical_tsets 0 s.mem a bs h1, hh ▸ h2⟩

/-- An update that writes a range of host memory. -/
theorem State.Canon.hostWrite {a : Nat} {bs : List Byte} (h : s.Canon) (hm : t.mem = s.mem := by rfl)
    (hh : t.hostMem = tsets 0 s.hostMem a bs := by rfl) : t.Canon := by
  obtain ⟨h1, h2⟩ := h
  exact ⟨hm ▸ h1, hh ▸ canonical_tsets 0 s.hostMem a bs h2⟩

/-! ### State -/

theorem State.Canon.reset : State.reset.Canon := ⟨rfl, rfl⟩

/-! ### Access -/

theorem State.Canon.setCore {c k} (h : s.Canon) : (s.setCore c k).Canon :=
  h.set

theorem State.Canon.setDie {d k} (h : s.Canon) : (s.setDie d k).Canon :=
  h.set

theorem State.Canon.setPart {p k} (h : s.Canon) : (s.setPart p k).Canon :=
  h.set

theorem State.Canon.setVf {v k} (h : s.Canon) : (s.setVf v k).Canon :=
  h.set

theorem State.Canon.setMc {m k} (h : s.Canon) : (s.setMc m k).Canon :=
  h.set

theorem State.Canon.setHbm {n k} (h : s.Canon) : (s.setHbm n k).Canon :=
  h.set

theorem State.Canon.setPort {p k} (h : s.Canon) : (s.setPort p k).Canon :=
  h.set

theorem State.Canon.setChan {c k} (h : s.Canon) : (s.setChan c k).Canon :=
  h.set

theorem State.Canon.updBlk {b f} (h : s.Canon) : (s.updBlk b f).Canon :=
  h.set

theorem State.Canon.updGrp {b g f} (h : s.Canon) : (s.updGrp b g f).Canon :=
  h.updBlk

theorem State.Canon.interrupt {bit} (h : s.Canon) : (s.interrupt bit).Canon := by
  unfold State.interrupt
  exact h.setMc.setMc.setMc.setMc

/-! ### Memory -/

theorem State.Canon.healVault {a n} (h : s.Canon) : (s.healVault a n).Canon :=
  h.set

/-- The leased lines are written back one by one. -/
theorem State.Canon.recall {a n} (h : s.Canon) : (s.recall a n).Canon := by
  obtain ⟨hm, hh⟩ := h
  exact ⟨recall_wf s a n hm, recall_hostMem s a n ▸ hh⟩

theorem State.Canon.sectorWrite {p} (h : s.Canon) : (s.sectorWrite p).Canon :=
  .ite (.ite h.write h) h.write

theorem State.Canon.cuffCopy {p page} (h : s.Canon) : (s.cuffCopy p page).Canon := by
  unfold State.cuffCopy
  dsimp only
  split
  · split
    · exact h.write
    · exact .ite h.setPart h.set
  · exact h

theorem State.Canon.cuffs {a n} (h : s.Canon) : (s.cuffs a n).Canon := by
  unfold State.cuffs
  exact .ite (h.foldl fun _ _ ht => ht.cuffCopy.cuffCopy) h

theorem State.Canon.homeWrite {a bs} (h : s.Canon) : (s.homeWrite a bs).Canon :=
  .ite h (.ite h.recall.cuffs.write (h.recall.cuffs.healVault.foldl fun _ _ ht => ht.sectorWrite))

theorem State.Canon.homeWriteMask {num data mask} (h : s.Canon) : (s.homeWriteMask num data mask).Canon :=
  .ite h.recall.cuffs h.recall.cuffs.write

theorem State.Canon.putPieces {ps bs} (h : s.Canon) : (s.putPieces ps bs).Canon :=
  h.foldl fun _ _ ht => ht.homeWrite

theorem State.Canon.fillTlb {c p a} (h : s.Canon) : (s.fillTlb c p a).Canon := by
  unfold State.fillTlb
  dsimp only
  split
  · exact h
  · exact h.setCore

theorem State.Canon.walked {w} (h : s.Canon) : (s.walked w).Canon := by
  unfold State.walked
  dsimp only
  split
  · exact h.fillTlb
  · split
    · exact .ite h.setCore h
    · exact h

theorem State.Canon.queuePubs {part scope payloads} (h : s.Canon) : (s.queuePubs part scope payloads).Canon := by
  unfold State.queuePubs
  exact h.set

theorem State.Canon.performPuts {ps} (h : s.Canon) : (s.performPuts ps).Canon :=
  h.foldl fun _ _ ht => ht.updBlk

theorem State.Canon.land1 {c o} (h : s.Canon) : (s.land1 c o).Canon := by
  unfold State.land1
  exact h.performPuts.setCore.updGrp

theorem State.Canon.flush {c p} (h : s.Canon) : (s.flush c p).Canon :=
  h.foldl fun _ _ ht => ht.land1

theorem State.Canon.flushFor {c blk grp id spots} (h : s.Canon) : (s.flushFor c blk grp id spots).Canon := by
  unfold State.flushFor
  exact h.flush

theorem State.Canon.dropEarly {c p} (h : s.Canon) : (s.dropEarly c p).Canon := by
  unfold State.dropEarly
  exact .ite h.setCore h

theorem State.Canon.fetchEarly {blk grp num} (h : s.Canon) : (s.fetchEarly blk grp num).Canon := by
  unfold State.fetchEarly
  dsimp only
  split
  · exact h
  · exact h.setCore

theorem State.Canon.fetchSec {c num} (h : s.Canon) : (s.fetchSec c num).2.2.Canon := by
  unfold State.fetchSec
  dsimp only
  split <;> exact h.dropEarly

theorem State.Canon.publish {c} (h : s.Canon) : (s.publish c).Canon := by
  unfold State.publish
  extract_lets s0 dirty part mir own s1 s2 k id
  have h0 : s0.Canon := h.flush.dropEarly
  refine .ite h0 ?_
  have h1 : s1.Canon := h0.foldl fun _ _ ht => ht.homeWriteMask
  have h2 : s2.Canon := by
    unfold s2
    split
    · exact h1
    · exact .ite h1 h1.queuePubs
  exact h2.setCore

theorem State.Canon.settleCore {c} (h : s.Canon) : (s.settleCore c).Canon := by
  unfold State.settleCore
  exact h.setCore

theorem State.Canon.settle (h : s.Canon) : s.settle.Canon :=
  h.foldl fun _ _ ht => ht.settleCore

theorem State.Canon.refresh {c} (h : s.Canon) : (s.refresh c).Canon := by
  unfold State.refresh
  exact h.flush.setCore

theorem State.Canon.evict {c} (h : s.Canon) : OnSome State.Canon (s.evict c) := by
  unfold State.evict
  dsimp only
  split
  · exact .some h.setCore
  · split
    · exact .some h.setCore
    · exact .none

theorem State.Canon.force {c} (h : s.Canon) : (s.force c).Canon := by
  unfold State.force
  exact .ite h.setCore.publish h

theorem State.Canon.forceQuiet {c} (h : s.Canon) : (s.forceQuiet c).Canon := by
  unfold State.forceQuiet
  exact .ite h.force h

theorem State.Canon.makeRoom {c} (h : s.Canon) : (s.makeRoom c).Canon := by
  unfold State.makeRoom
  refine .ite h ?_
  split
  next e =>
    exact h.evict.of_some e
  · split
    next e' =>
      exact h.forceQuiet.evict.of_some e'
    · exact h.forceQuiet

theorem State.Canon.countUnfixed {c num} (h : s.Canon) : (s.countUnfixed c num).Canon := by
  unfold State.countUnfixed
  exact .ite h.setCore h

theorem State.Canon.cacheSector {c num} (h : s.Canon) : (s.cacheSector c num).2.Canon := by
  unfold State.cacheSector
  dsimp only
  split
  · split
    · exact h
    · exact h.countUnfixed.dropEarly.setCore
    · exact h.countUnfixed.fetchSec.setCore
  · exact h.countUnfixed.makeRoom.fetchSec.setCore

theorem State.Canon.cacheRead {c pa n} (h : s.Canon) : (s.cacheRead c pa n).2.2.Canon := by
  unfold State.cacheRead
  dsimp only
  exact h.cacheSector

theorem State.Canon.cacheWrite {c pa bs} (h : s.Canon) : (s.cacheWrite c pa bs).Canon := by
  unfold State.cacheWrite
  dsimp only
  split
  · exact h.setCore
  · exact h.makeRoom.setCore

theorem State.Canon.prefetch {c num} (h : s.Canon) : (s.prefetch c num).Canon := by
  unfold State.prefetch
  dsimp only
  split
  · exact .ite h.setCore h
  · exact .ite h.makeRoom.setCore h

theorem State.Canon.sectorHome {c a n} (h : s.Canon) : (s.sectorHome c a n).Canon := by
  unfold State.sectorHome
  exact .ite h.dropEarly (.ite h.dropEarly.publish.setCore (h.dropEarly.foldl fun _ _ ht => ht.homeWriteMask).setCore)

/-! ### Dist -/

theorem State.Canon.setTask {a st} (h : s.Canon) : (s.setTask a st).Canon :=
  h.homeWrite

theorem State.Canon.setRr {p d x} (h : s.Canon) : (s.setRr p d x).Canon :=
  h.setPart

theorem State.Canon.release {a va} (h : s.Canon) : (s.release a va).Canon := by
  unfold State.release
  dsimp only
  refine .ite ?_ h.setTask
  refine .set (.setTask ?_)
  split
  · exact h
  · exact .ite h.setPart.setRr.homeWrite h.setPart.setRr

theorem State.Canon.updGrid {a f} (h : s.Canon) : (s.updGrid a f).Canon :=
  h.set

theorem State.Canon.publishPart {p} (h : s.Canon) : (s.publishPart p).Canon :=
  h.foldl fun _ _ ht => ht.publish

theorem State.Canon.setSlot {d cid slot v} (h : s.Canon) : (s.setSlot d cid slot v).Canon := by
  unfold State.setSlot
  exact h.setDie

theorem State.Canon.unhold {c p} (h : s.Canon) : (s.unhold c p).Canon := by
  unfold State.unhold
  exact .ite (h.setCore.foldl fun _ _ ht => ht.updGrp) h

theorem State.Canon.closeSlot {b slot} (h : s.Canon) : (s.closeSlot b slot).Canon := by
  unfold State.closeSlot
  exact h.foldl fun _ _ ht => ht.flush.unhold.foldl fun _ _ hu => hu.updGrp

theorem State.Canon.fillSlot {d cid slot bid} (h : s.Canon) : (s.fillSlot d cid slot bid).Canon := by
  unfold State.fillSlot
  exact h.setSlot.set

theorem State.Canon.leaveCluster {b die} (h : s.Canon) : (s.leaveCluster b die).Canon := by
  unfold State.leaveCluster
  split
  · exact h
  · exact h.closeSlot.setSlot.updBlk

theorem State.Canon.endTask {p a st} (h : s.Canon) : (s.endTask p a st).Canon := by
  unfold State.endTask
  exact .ite h (.ite h.publishPart.setTask h.publishPart)

theorem State.Canon.checkDone {a} (h : s.Canon) : (s.checkDone a).Canon := by
  unfold State.checkDone
  split
  · exact h
  · extract_lets gone s1
    have hgone {t st} (ht : t.Canon) : (gone t st).Canon := .ite ht.set ht
    have h1 : s1.Canon := .ite h h.endTask
    exact .ite (.ite h1 (hgone h1)) (.ite h (.ite (hgone h.endTask) h))

theorem State.Canon.endTasks (h : s.Canon) : s.endTasks.Canon :=
  h.foldl fun _ _ ht => ht.checkDone

theorem State.Canon.failTask {a} (h : s.Canon) : (s.failTask a).Canon := by
  unfold State.failTask
  split
  · exact h.setTask
  · extract_lets s1 s2
    have h1 : s1.Canon := by
      refine h.foldl fun _ _ ht => ?_
      split
      · exact ht.setSlot
      · exact ht
    exact h1.set.updGrid.checkDone

theorem State.Canon.removeBlock {b} (h : s.Canon) : (s.removeBlock b).Canon := by
  unfold State.removeBlock
  exact h.leaveCluster.flush.setCore.set

/-! ### CopyQ -/

theorem State.Canon.updQ {q f} (h : s.Canon) : (s.updQ q f).Canon :=
  h.set

theorem State.Canon.qWrite {q i pkt} (h : s.Canon) : (s.qWrite q i pkt).Canon := by
  unfold State.qWrite
  dsimp only
  split
  · exact h.homeWrite.homeWrite
  · exact h

theorem State.Canon.syncPut {part a bs} (h : s.Canon) : (s.syncPut part a bs).Canon := by
  unfold State.syncPut
  exact .ite h.homeWrite h

theorem State.Canon.qClaim {off} (h : s.Canon) : (s.qClaim off).2.Canon := by
  unfold State.qClaim
  dsimp only
  exact h.homeWrite

theorem State.Canon.abandonIn {b q} (h : s.Canon) : (s.abandonIn b q).1.Canon := by
  unfold State.abandonIn
  dsimp only
  exact h.updQ

theorem State.Canon.abandonAll {b} (h : s.Canon) : (s.abandonAll b).1.Canon := by
  unfold State.abandonAll
  dsimp only
  refine h.foldlFst fun _ _ ht => ?_
  split
  · exact ht
  · exact ht.abandonIn

theorem State.Canon.keepClaim {part c} (h : s.Canon) : (s.keepClaim part c).Canon := by
  unfold State.keepClaim
  split
  · exact h
  · exact h.updQ

theorem State.Canon.repostOne {bid pkt} (h : s.Canon) : (s.repostOne bid pkt).Canon := by
  unfold State.repostOne
  dsimp only
  split
  · exact h
  · split
    · exact h.updBlk
    · exact .ite h.qClaim.qWrite h.qClaim.updQ

theorem State.Canon.repost {bid} (h : s.Canon) : (s.repost bid).Canon := by
  unfold State.repost
  split
  · exact h
  · exact (h.foldl fun _ _ ht => ht.repostOne).updBlk

theorem State.Canon.writeKept {q} (h : s.Canon) : (s.writeKept q).Canon := by
  unfold State.writeKept
  dsimp only
  split
  · exact h
  · exact (h.foldl fun _ _ ht => ht.qWrite).updQ

theorem State.Canon.engineWrite {own r} (h : s.Canon) : (s.engineWrite own r).Canon := by
  unfold State.engineWrite
  split
  · exact h.homeWrite
  · split
    · exact h.updBlk
    · exact h
  · exact h.hostWrite

theorem State.Canon.enginePut {part own ab} (h : s.Canon) : OnLeft State.Canon (s.enginePut part own ab) := by
  unfold State.enginePut
  split
  · exact .inr
  · exact .inl (h.foldl fun _ _ ht => ht.engineWrite)

theorem State.Canon.setChunkBit {q pkt c} (h : s.Canon) : (s.setChunkBit q pkt c).Canon := by
  unfold State.setChunkBit
  exact .ite h h.syncPut

theorem State.Canon.copyRun {q own pkt gl lo n} (h : s.Canon) : OnLeft State.Canon (s.copyRun q own pkt gl lo n) := by
  unfold State.copyRun
  dsimp only
  split
  · exact .inr
  · exact h.enginePut

theorem State.Canon.landLocal {q f} (h : s.Canon) : OnLeft State.Canon (s.landLocal q f) := by
  unfold State.landLocal
  dsimp only
  split
  · exact .inr
  · split
    · exact .inr
    next e' =>
      refine .inl (.updQ (.setChunkBit ?_))
      refine .ite ?_ (h.copyRun.of_inl e')
      split
      · exact .updBlk (.ite (h.copyRun.of_inl e') (h.copyRun.of_inl e').engineWrite)
      · exact h.copyRun.of_inl e'

theorem State.Canon.failChunk {q f st} (h : s.Canon) : (s.failChunk q f st).Canon :=
  h.updQ

theorem State.Canon.landSector {n} (h : s.Canon) : (s.landSector n).Canon := by
  unfold State.landSector
  dsimp only
  split
  · exact h
  · split
    · exact h
    · split
      · exact h
      · refine .ite h ?_
        split
        · exact h.failChunk
        next e₁ =>
          exact (h.copyRun.of_inl e₁).updQ

theorem State.Canon.landAll {q fuel} (h : s.Canon) : (s.landAll q fuel).Canon := by
  induction fuel generalizing s with
  | zero => exact h
  | succ fuel ih =>
    rw [State.landAll]
    split
    · exact h
    · split
      · exact h
      · split
        · exact h
        · split
          next e =>
            exact ih (h.landLocal.of_inl e)
          · exact h.failChunk

theorem State.Canon.writeRecord {q f} (h : s.Canon) : (s.writeRecord q f).Canon := by
  unfold State.writeRecord
  exact h.syncPut.homeWrite.updQ

theorem State.Canon.setQState {off v} (h : s.Canon) : (s.setQState off v).Canon :=
  h.homeWrite

theorem State.Canon.endPacket {k f} (h : s.Canon) : (s.endPacket k f).Canon := by
  unfold State.endPacket
  exact .ite h.writeRecord.setQState h.writeRecord

theorem State.Canon.closePackets {b} (h : s.Canon) : (s.closePackets b).Canon := by
  unfold State.closePackets
  refine h.foldl fun _ _ ht => ?_
  split
  · split
    · exact .ite ht.endPacket ht
    · exact ht
  · exact ht

theorem State.Canon.landBegun {b} (h : s.Canon) : (s.landBegun b).Canon := by
  unfold State.landBegun
  refine .closePackets ?_
  refine h.foldl fun _ _ ht => ?_
  split
  · exact .ite ht.landAll ht
  · exact ht

/-! ### Ops -/

theorem State.Canon.roomFor {c} (h : s.Canon) : (s.roomFor c).Canon := by
  unfold State.roomFor
  exact .ite h h.force

theorem State.Canon.coreStore {c pa bs} (h : s.Canon) : (s.coreStore c pa bs).Canon :=
  h.foldl fun _ _ ht => ht.roomFor.cacheWrite

theorem State.Canon.recordStore {c part va bs} (h : s.Canon) : OnSome State.Canon (s.recordStore c part va bs) := by
  unfold State.recordStore
  split
  · exact .ite .none (.some h.coreStore)
  · exact .none

theorem State.Canon.trace {kind b grp bar} (h : s.Canon) : (s.trace kind b grp bar).Canon := by
  unfold State.trace
  dsimp only
  refine .ite ?_ h
  split
  next e =>
    exact h.setCore.recordStore.of_some e
  · exact h.setCore

theorem State.Canon.updQuad {c q f} (h : s.Canon) : (s.updQuad c q f).Canon := by
  unfold State.updQuad
  exact h.setCore

theorem State.Canon.retireGroup {b g} (h : s.Canon) : (s.retireGroup b g).Canon := by
  unfold State.retireGroup
  dsimp only
  split
  · exact h
  · exact .ite h.updGrp.updQuad h.updGrp

theorem State.Canon.retireScalar {b g} (h : s.Canon) : (s.retireScalar b g).Canon :=
  h.updGrp

theorem State.Canon.waitSlots {on slots} (h : s.Canon) : (s.waitSlots on slots).Canon := by
  unfold State.waitSlots
  dsimp only
  split
  · split
    · exact h
    · exact h.updGrp.updQuad
  · exact h.updGrp
  · exact h.updBlk
  · exact h.updBlk
  · exact h
  · exact h

theorem State.Canon.wait {on} (h : s.Canon) : (s.wait on).Canon :=
  h.waitSlots

theorem State.Canon.barEval {bid who n} (h : s.Canon) : (s.barEval bid who n).Canon := by
  unfold State.barEval
  dsimp only
  split
  · exact h
  · refine .ite ?_ h.updBlk
    split
    · exact h.updBlk.updBlk.trace
    · exact h.updBlk.updBlk

theorem State.Canon.barArrive {bid who n} (h : s.Canon) : (s.barArrive bid who n).Canon :=
  h.updBlk.barEval

theorem State.Canon.depart {bid who ns} (h : s.Canon) : (s.depart bid who ns).Canon :=
  h.foldl fun _ _ ht => ht.barEval

theorem State.Canon.complete {c o} (h : s.Canon) : (s.complete c o).1.Canon := by
  unfold State.complete
  dsimp only
  split <;> exact .ite h.flushFor.land1.updGrp h.flushFor.land1

theorem State.Canon.drain {b} (h : s.Canon) : (s.drain b).1.Canon := by
  unfold State.drain
  dsimp only
  exact h.foldlFst fun _ _ ht => ht.complete

theorem State.Canon.homePut {c part va bs} (h : s.Canon) : OnLeft State.Canon (s.homePut c part va bs) := by
  unfold State.homePut
  split
  · exact .inr
  · exact .ite .inr (.inl (h.foldl fun _ _ ht => ht.sectorHome.homeWrite))

theorem State.Canon.homePutParts {c part ps} (h : s.Canon) : OnBoth State.Canon (·.2.Canon) (s.homePutParts c part ps) := by
  induction ps generalizing s with
  | nil => exact .inl h
  | cons p ps ih =>
    rw [State.homePutParts]
    split
    · exact .inr h
    next e =>
      exact ih (h.homePut.of_inl e)

theorem State.Canon.homeGet {c part va n} (h : s.Canon) : OnLeft (·.2.Canon) (s.homeGet c part va n) := by
  unfold State.homeGet
  dsimp only
  split
  · exact .inr
  · exact .ite .inr (.inl (h.foldl fun _ _ ht => ht.sectorHome))

theorem State.Canon.stopAll {b} (h : s.Canon) : (s.stopAll b).Canon := by
  unfold State.stopAll
  dsimp only
  refine .foldl ?_ (fun _ _ ht => ht.setDie)
  refine .updBlk (.unhold (.setCore ?_))
  refine .foldl ?_ fun _ _ ht => ?_
  · refine h.foldl fun _ _ ht => ?_
    split
    · exact ht
    · exact ht.keepClaim.updGrp
  · split
    · exact ht
    · exact ht.keepClaim

theorem State.Canon.terminate {bid code} (h : s.Canon) : (s.terminate bid code).Canon := by
  unfold State.terminate
  dsimp only
  split
  · exact h
  · exact .ite h.landBegun.abandonAll.removeBlock.updGrid h.landBegun.abandonAll.removeBlock.failTask.checkDone

theorem State.Canon.holdFault {bid f ext} (h : s.Canon) : (s.holdFault bid f ext).Canon :=
  h.updBlk

theorem State.Canon.countResidue {core code} (h : s.Canon) : (s.countResidue core code).Canon := by
  unfold State.countResidue
  exact .ite h.setCore h

theorem State.Canon.orphanFault {b f ext} (h : s.Canon) : (s.orphanFault b f ext).Canon := by
  unfold State.orphanFault
  split
  next e =>
    extract_lets flags code2 s2
    have h1 := State.Canon.of_fst h.stopAll.landBegun.abandonAll.drain e
    have h2 : s2.Canon := by
      unfold s2
      split
      next e' =>
        exact h1.homePut.of_inl e'
      · exact h1
    refine .terminate ?_
    split
    · exact h2.trace
    · exact h2

theorem State.Canon.takeFault {bid f ext} (h : s.Canon) : (s.takeFault bid f ext).Canon := by
  unfold State.takeFault
  split
  · exact h
  · refine .ite h.holdFault ?_
    split
    · exact h.countResidue.orphanFault
    · extract_lets s1 s2
      split
      next e =>
        have h2 : s2.Canon := h.countResidue.stopAll.landBegun.abandonAll
        have h3 := State.Canon.of_fst h2.drain e
        split
        · exact h3
        · extract_lets g flags code2 frame at'
          split
          · exact h3.trace.terminate
          next e' =>
            have h4 := h3.homePut.of_inl e'
            extract_lets s6 s7
            split
            · exact h4.updBlk.updQuad.trace
            · exact h4.updBlk.updQuad

theorem State.Canon.nested {bid code} (h : s.Canon) : (s.nested bid code).Canon := by
  unfold State.nested
  split
  · exact h
  · extract_lets s0 fc p s1 s2
    have h0 : s0.Canon := h.countResidue
    have h1 : s1.Canon := by
      refine .ite h0 ?_
      split
      · exact h0
      next e =>
        split
        · exact h0
        next e' =>
          split
          · exact h0
          next e'' =>
            exact ((h0.homeGet.of_inl e).homePut.of_inl e').homePut.of_inl e''
    have h2 : s2.Canon := by
      unfold s2
      split
      · exact h1
      next e =>
        exact h1.homePut.of_inl e
    exact h2.terminate

theorem State.Canon.asyncFault {bid f} (h : s.Canon) : (s.asyncFault bid f).Canon := by
  unfold State.asyncFault
  split
  · exact h
  · split
    · exact .ite h.takeFault h.holdFault
    · exact h.updBlk

theorem State.Canon.mgmtFault {m code pc} (h : s.Canon) : (s.mgmtFault m code pc).Canon := by
  unfold State.mgmtFault
  exact .ite h.setMc.interrupt h.setMc

theorem State.Canon.raiseAt {ag code lanes pc info} (h : s.Canon) : (s.raiseAt ag code lanes pc info).Canon := by
  unfold State.raiseAt
  split
  · exact h
  · split
    · exact h
    · exact .ite h.nested h.takeFault
  · split
    · exact h
    · exact .ite (.ite h.nested h.takeFault) h.updGrp
  · exact h.takeFault
  · exact h.takeFault
  · exact h.mgmtFault

theorem State.Canon.raiseFor {code lanes info} (h : s.Canon) : (s.raiseFor code lanes info).Canon :=
  h.raiseAt

theorem State.Canon.raise {code info} (h : s.Canon) : (s.raise code info).Canon :=
  h.raiseFor

theorem State.Canon.tryEndBlock {bid} (h : s.Canon) : (s.tryEndBlock bid).Canon := by
  unfold State.tryEndBlock
  split
  · exact h
  · exact .ite h.closePackets.removeBlock.checkDone h

theorem State.Canon.endRun {bid copy} (h : s.Canon) : (s.endRun bid copy).Canon := by
  unfold State.endRun
  dsimp only
  refine .tryEndBlock ?_
  split
  · exact h.updBlk.depart.trace
  · exact h.updBlk.depart

theorem State.Canon.copyEnd {bid} (h : s.Canon) : (s.copyEnd bid).Canon := by
  unfold State.copyEnd
  dsimp only
  split
  · exact h
  · split
    · exact h
    · refine .ite h.wait (.ite ?_ ?_)
      · exact .endRun (.ite h.updBlk.barArrive h.updBlk)
      · exact .ite h.updBlk.barArrive h.updBlk

theorem State.Canon.retireCopy {bid} (h : s.Canon) : (s.retireCopy bid).Canon := by
  unfold State.retireCopy
  exact .ite h.updBlk.copyEnd h.updBlk

theorem State.Canon.retire (h : s.Canon) : s.retire.Canon := by
  unfold State.retire
  split
  · exact h
  · exact h.retireGroup
  · exact h.retireScalar
  · exact h.updBlk
  · exact h.retireCopy
  · exact h.setMc

theorem State.Canon.tryEndGroup {bid g} (h : s.Canon) : (s.tryEndGroup bid g).Canon := by
  unfold State.tryEndGroup
  dsimp only
  split
  · exact h
  · exact .ite h h.updGrp.updQuad.depart.tryEndBlock

theorem State.Canon.rrOverflow {d} (h : s.Canon) : (s.rrOverflow d).Canon :=
  h.homeWrite

theorem State.Canon.hashCheck {part d p r n isEnd} (h : s.Canon) : (s.hashCheck part d p r n isEnd).1.Canon := by
  unfold State.hashCheck
  dsimp only
  split
  · exact h
  · split
    · split
      · exact .ite h.setRr.rrOverflow h
      · split
        · exact h.setRr.putPieces
        · split
          · exact h.setRr
          · exact h
    · exact .ite h.setRr.rrOverflow h

theorem State.Canon.hashUnits {bid g d p us bad} (h : s.Canon) : (s.hashUnits bid g d p us bad).1.Canon := by
  induction us generalizing s bad with
  | nil => exact h
  | cons u us ih =>
    rw [State.hashUnits]
    dsimp only
    split
    · exact h
    · split
      · exact ih h.updGrp.hashCheck
      · exact ih h.updGrp

theorem State.Canon.hashStores {bid g units} (h : s.Canon) : (s.hashStores bid g units).1.Canon := by
  unfold State.hashStores
  split
  · exact h
  · split
    · exact h.hashUnits
    · exact h

theorem State.Canon.diverge {lanes} (h : s.Canon) : (s.diverge lanes).Canon :=
  h.raiseFor

theorem State.Canon.flushGroup {c b g} (h : s.Canon) : (s.flushGroup c b g).Canon :=
  h.flush

theorem State.Canon.resume {bid} (h : s.Canon) : (s.resume bid).Canon := by
  unfold State.resume
  split
  · exact h
  · refine .ite h ?_
    split
    · exact h.updBlk.takeFault
    · exact .ite h.updBlk.takeFault h

theorem State.Canon.rescalar {bid g spos p} (h : s.Canon) : (s.rescalar bid g spos p).Canon := by
  unfold State.rescalar
  dsimp only
  split
  · exact h
  · split <;> exact h.updGrp

theorem State.Canon.tret {bid} (h : s.Canon) : (s.tret bid).Canon := by
  unfold State.tret
  dsimp only
  split
  · exact h
  · split
    · exact h
    · refine .ite h.terminate ?_
      split
      · exact h.nested
      next e'' =>
        refine .resume ?_
        refine .foldl ?_ (fun _ _ ht => ht.tryEndGroup)
        split
        · exact (h.homeGet.of_inl e'').updBlk.rescalar.repost.updQuad
        · exact (h.homeGet.of_inl e'').updBlk.rescalar.repost

/-! ### Operands -/

theorem State.Canon.wideWord {slots f} (h : s.Canon) : OutCanon (Machine.wideWord slots f s) := by
  unfold Machine.wideWord
  dsimp only
  split
  · split
    · exact .fault
    · refine .ite (.next h.retire) ?_
      refine .ite ?_ (.next h.raise)
      split
      · exact .next h.raiseFor
      · exact .next h.updBlk.retire
  · exact .fault

theorem State.Canon.wideReg {vw t₀ d srcs f} (h : s.Canon) : OutCanon (Machine.wideReg vw t₀ d srcs f s) :=
  h.wideWord

theorem State.Canon.lane2 {vw dep t₀ d a b f} (h : s.Canon) : OutCanon (Machine.lane2 vw dep t₀ d a b f s) :=
  h.wideReg

theorem State.Canon.lane1 {vw dep t₀ d a f} (h : s.Canon) : OutCanon (Machine.lane1 vw dep t₀ d a f s) :=
  h.wideReg

theorem State.Canon.lane3 {vw dep t₀ d a b f} (h : s.Canon) : OutCanon (Machine.lane3 vw dep t₀ d a b f s) :=
  h.wideReg

theorem State.Canon.part1 {vw t₀ d a f} (h : s.Canon) : OutCanon (Machine.part1 vw t₀ d a f s) :=
  h.wideReg

theorem State.Canon.part2 {vw t₀ d a b f} (h : s.Canon) : OutCanon (Machine.part2 vw t₀ d a b f s) :=
  h.wideReg

theorem State.Canon.part3 {vw t₀ d a b f} (h : s.Canon) : OutCanon (Machine.part3 vw t₀ d a b f s) :=
  h.wideReg

theorem State.Canon.wideSel {vw t₀ d a b ok f} (h : s.Canon) : OutCanon (Machine.wideSel vw t₀ d a b ok f s) :=
  h.wideReg

theorem State.Canon.widePred {p slots f} (h : s.Canon) : OutCanon (Machine.widePred p slots f s) :=
  h.wideWord

theorem State.Canon.wideCmp {vw p a b f} (h : s.Canon) : OutCanon (Machine.wideCmp vw p a b f s) :=
  h.widePred

theorem State.Canon.joinWord {f} (h : s.Canon) (hf : ∀ x y z, OutCanon (f x y z)) : OutCanon (Machine.joinWord f s) := by
  unfold Machine.joinWord
  split
  · split
    · exact .fault
    · exact .ite (.next h.retire) (hf _ _ _)
  · exact .next h.raise
  · exact .fault

theorem State.Canon.giveAll {b g vw d act v} (h : s.Canon) : (s.giveAll b g vw d act v).Canon :=
  h.updBlk

theorem State.Canon.predAll {b g p act v} (h : s.Canon) : (s.predAll b g p act v).Canon :=
  h.updBlk

theorem State.Canon.setSregs {r} (h : s.Canon) : (s.setSregs r).Canon := by
  unfold State.setSregs
  dsimp only
  split
  · exact h.updGrp
  · exact h.updGrp
  · exact h.setMc
  · exact h

theorem State.Canon.setSpreds {p} (h : s.Canon) : (s.setSpreds p).Canon := by
  unfold State.setSpreds
  dsimp only
  split
  · exact h.updGrp
  · exact h.updGrp
  · exact h.setMc
  · exact h

theorem State.Canon.scalarWord {f} (h : s.Canon) (hf : ∀ x, OutCanon (f x)) : OutCanon (Machine.scalarWord f s) := by
  unfold Machine.scalarWord
  split
  · exact .fault
  · exact .ite (.next h.retire) (hf _)

theorem State.Canon.groupScalar {f} (h : s.Canon) (hf : ∀ x, OutCanon (f x)) : OutCanon (Machine.groupScalar f s) := by
  unfold Machine.groupScalar
  split
  · exact .next h.raise
  · exact h.scalarWord hf

theorem State.Canon.scalar2 {dep d a b f} (h : s.Canon) : OutCanon (Machine.scalar2 dep d a b f s) :=
  h.scalarWord fun _ => .next h.setSregs.retire

/-! ### Flags -/

theorem State.Canon.predWord {d f} (h : s.Canon) : OutCanon (Machine.predWord d f s) :=
  h.widePred

/-! ### MemOps -/

theorem State.Canon.joinWalk {core part page} (h : s.Canon) : (s.joinWalk core part page).Canon := by
  unfold State.joinWalk
  exact h.setDie.foldl fun _ _ ht => ht.walked

theorem State.Canon.walkNow {core part a n} (h : s.Canon) : (s.walkNow core part a n).Canon :=
  h.foldl fun _ _ ht => .ite ht.joinWalk.fillTlb ht

theorem State.Canon.laneNow {b l resOk datOk k a n} (h : s.Canon) : (s.laneNow b l resOk datOk k a n).1.Canon := by
  unfold State.laneNow
  dsimp only
  exact h.walkNow

theorem State.Canon.loadTgt {b t₀ n} (h : s.Canon) : (s.loadTgt b t₀ n).2.2.Canon := by
  unfold State.loadTgt
  dsimp only
  split
  · split <;> exact h
  · split
    · exact h.recall
    · exact h.foldlSndSnd fun _ _ ht => ht.cacheSector

theorem State.Canon.storeTgt {b t₀ bs} (h : s.Canon) : (s.storeTgt b t₀ bs).Canon := by
  unfold State.storeTgt
  split
  · exact h.updBlk
  · exact .ite h.homeWrite (h.foldl fun _ _ ht => ht.cacheWrite)

theorem State.Canon.waitWalk {core part page} (h : s.Canon) : (s.waitWalk core part page).Canon := by
  unfold State.waitWalk
  exact h.setDie.wait

theorem State.Canon.issueAs {c o} (h : s.Canon) : (s.issueAs c o).Canon := by
  unfold State.issueAs
  exact h.setCore.updGrp

theorem State.Canon.issueOut {b g sb lanes poison writes} (h : s.Canon) : (s.issueOut b g sb lanes poison writes).Canon :=
  h.issueAs

theorem State.Canon.hold {b g sb lanes side spots member} (h : s.Canon) : (s.hold b g sb lanes side spots member).Canon :=
  .wait (.ite h h.issueAs)

theorem State.Canon.unhold1 {b g side spots} (h : s.Canon) : (s.unhold1 b g side spots).Canon :=
  h.unhold.flushFor

theorem State.Canon.dropAhead {b g} (h : s.Canon) : (s.dropAhead b g).Canon :=
  h.dropEarly

theorem State.Canon.passPresence {b g spots} (h : s.Canon) : (s.passPresence b g spots).Canon := by
  unfold State.passPresence
  exact .ite h h.dropAhead

theorem State.Canon.afterChecks {b ls go} (h : s.Canon) (h' : OutCanon go) : OutCanon (s.afterChecks b ls go) := by
  unfold State.afterChecks
  split
  · exact h'
  · exact .next h.raiseFor
  · exact .next h.waitWalk
  · exact .next h.waitSlots

theorem State.Canon.orCrowded {c go} (h : s.Canon) (h' : OutCanon go) : OutCanon (s.orCrowded t c go) := by
  unfold State.orCrowded
  exact .ite (.next h.forceQuiet.wait) h'

theorem State.Canon.loadLanes {b n ls} (h : s.Canon) : (s.loadLanes b n ls).2.2.Canon := by
  induction ls generalizing s with
  | nil => exact h
  | cons l ls ih => exact ih h.loadTgt

theorem State.Canon.loadWord {z sb d f slots} (h : s.Canon) : OutCanon (Machine.loadWord z sb d f slots s) := by
  unfold Machine.loadWord
  dsimp only
  refine h.joinWord fun _ _ _ => ?_
  refine .ite ?_ ?_
  · exact h.afterChecks (.ite (.next h.wait) (.ite (.next h.hold)
      (h.unhold1.passPresence.orCrowded (.next h.unhold1.passPresence.loadLanes.issueAs.retire))))
  · exact .next h.raise

theorem State.Canon.storeWord {z sb d f slots} (h : s.Canon) : OutCanon (Machine.storeWord z sb d f slots s) := by
  unfold Machine.storeWord
  dsimp only
  refine h.joinWord fun _ _ _ => ?_
  refine .ite ?_ (.next h.raise)
  refine h.afterChecks ?_
  refine .ite (.next h.wait) ?_
  refine h.orCrowded ?_
  split
  · exact .next (h.foldl fun _ _ ht => .ite ht ht.storeTgt).issueAs.retire.hashStores
  · exact .next (h.foldl fun _ _ ht => .ite ht ht.storeTgt).issueAs.retire.hashStores.diverge

/-! ### Scalar -/

theorem State.Canon.execScmp {c p a b} (h : s.Canon) : OutCanon (Machine.execScmp c p a b s) :=
  h.scalarWord fun _ => .ite (.next h.setSpreds.retire) (.next h.raise)

theorem State.Canon.scalarFloat {d xs f} (h : s.Canon) : OutCanon (Machine.scalarFloat d xs f s) :=
  h.scalarWord fun _ => .next h.setSregs.retire

theorem State.Canon.execSld {d a z o} (h : s.Canon) : OutCanon (Machine.execSld d a z o s) := by
  unfold Machine.execSld
  dsimp only
  refine h.scalarWord fun _ => ?_
  refine .ite (.next h.raise) ?_
  split
  · split
    · exact .fault
    · split
      · exact .next h.laneNow.raise
      · exact .ite (.next h.laneNow.hold) (h.laneNow.unhold1.passPresence.orCrowded
          (.ite (.next h.laneNow.unhold1.passPresence.loadTgt.raise) (.next h.laneNow.unhold1.passPresence.loadTgt.setSregs.retire)))
  · split
    · exact .next h.setSregs.retire
    · exact .ite (.next h.raise) (.next h.recall.setSregs.retire)
    · exact .next h.raise
  · exact .fault

theorem State.Canon.execSst {d a z o} (h : s.Canon) : OutCanon (Machine.execSst d a z o s) := by
  unfold Machine.execSst
  dsimp only
  refine h.scalarWord fun _ => ?_
  refine .ite (.next h.raise) ?_
  split
  · split
    · exact .fault
    · split
      · exact .next h.laneNow.raise
      · refine h.laneNow.orCrowded ?_
        split
        · exact .next h.laneNow.storeTgt.retire.hashStores
        · exact .next h.laneNow.storeTgt.retire.hashStores.diverge
  · split
    · exact .next h.raise
    · exact .ite (.next h.setMc.retire) (.next h.raise)
    · exact .ite (.next h.homeWrite.retire) (.next h.raise)
  · exact .fault

theorem State.Canon.scalarQueueWait (h : s.Canon) : s.scalarQueueWait.Canon := by
  unfold State.scalarQueueWait
  split
  · split
    · exact .ite h.raise h.wait
    · exact h
  · exact h

theorem State.Canon.execQfwd {a} (h : s.Canon) : OutCanon (Machine.execQfwd a s) := by
  unfold Machine.execQfwd
  dsimp only
  refine h.groupScalar fun _ => ?_
  split
  · split
    · exact .fault
    · exact .ite (.next h.raise) (.ite (.next h.scalarQueueWait) (.next h.updGrp.retire))
  · exact .fault

theorem State.Canon.execQret {d} (h : s.Canon) : OutCanon (Machine.execQret d s) := by
  unfold Machine.execQret
  refine h.groupScalar fun _ => ?_
  split
  · split
    · exact .fault
    · split
      · exact .next h.scalarQueueWait
      · exact .next h.updGrp.setSregs.retire
  · exact .fault

theorem State.Canon.execSgid {d i} (h : s.Canon) : OutCanon (Machine.execSgid d i s) := by
  unfold Machine.execSgid
  refine h.groupScalar fun _ => ?_
  split
  · split
    · exact .fault
    · exact .next h.setSregs.retire
  · exact .fault

/-! ### WideInt -/

theorem State.Canon.wideQueueWait {b g} (h : s.Canon) : (s.wideQueueWait b g).Canon := by
  unfold State.wideQueueWait
  exact .ite h.raise h.wait

theorem State.Canon.execVqpop {d t₀ v} (h : s.Canon) : OutCanon (Machine.execVqpop d t₀ v s) := by
  unfold Machine.execVqpop
  dsimp only
  split
  · split
    · exact .fault
    · refine .ite (.next h.retire) ?_
      refine .ite ?_ (.next h.raise)
      split
      · exact .next h.wideQueueWait
      · exact .next h.updBlk.retire
  · exact .fault

theorem State.Canon.execVqpush {a v} (h : s.Canon) : OutCanon (Machine.execVqpush a v s) := by
  unfold Machine.execVqpush
  dsimp only
  split
  · split
    · exact .fault
    · refine .ite (.next h.retire) (.ite ?_ ?_)
      · exact .next h.raise
      · exact .ite (.next h.raiseFor) (.ite (.next h.wideQueueWait) (.next h.updGrp.retire))
  · exact .fault

/-! ### WideFloat -/

theorem State.Canon.execVcvt {d a c r m t₀ v} (h : s.Canon) : OutCanon (Machine.execVcvt d a c r m t₀ v s) := by
  unfold Machine.execVcvt
  exact .ite h.wideReg h.part1

theorem State.Canon.wideCtl {vw t₀ d srcs ok ctl pick f} (h : s.Canon) : OutCanon (Machine.wideCtl vw t₀ d srcs ok ctl pick f s) :=
  h.wideReg

theorem State.Canon.execVrng {d a b t₀ v} (h : s.Canon) : OutCanon (Machine.execVrng d a b t₀ v s) := by
  unfold Machine.execVrng
  exact .ite h.lane2 h.part2

/-! ### Exchange -/

theorem State.Canon.exchange {vw t₀ d a b pick} (h : s.Canon) : OutCanon (Machine.exchange vw t₀ d a b pick s) :=
  h.wideReg

/-! ### Flow -/

theorem State.Canon.land {b g ls l} (h : s.Canon) : (s.land b g ls l).Canon :=
  h.updGrp

theorem State.Canon.execBra {n c o} (h : s.Canon) : OutCanon (Machine.execBra n c o s) := by
  unfold Machine.execBra
  refine h.joinWord fun _ _ _ => ?_
  split
  · exact .next h.retire
  · split
    · exact .next h.raise
    · exact .next h.retire.land

theorem State.Canon.execBru {n c o} (h : s.Canon) : OutCanon (Machine.execBru n c o s) := by
  unfold Machine.execBru
  split
  · refine h.joinWord fun _ _ _ => ?_
    refine .ite ?_ (.next h.retire)
    split
    · exact .next h.raise
    · exact .next h.retire.land
  · refine .ite (.next h.retire) ?_
    refine .ite ?_ (.next h.retire)
    split
    · exact .next h.raise
    · exact .next h.retire.setMc
  · exact .fault

theorem State.Canon.execJmpi {a v} (h : s.Canon) : OutCanon (Machine.execJmpi a v s) := by
  unfold Machine.execJmpi
  dsimp only
  split
  · refine h.joinWord fun _ _ _ => ?_
    refine .ite ?_ (.next h.raise)
    split
    · exact .next h.raiseFor
    · exact .next h.retire.updBlk
  · refine .ite (.next h.raise) (.ite (.next h.retire) ?_)
    split
    · exact .next h.raise
    · exact .next h.retire.setMc
  · exact .fault

theorem State.Canon.spill {b g j l sls} (h : s.Canon) : OnLeft State.Canon (s.spill b g j l sls) := by
  induction sls generalizing s with
  | nil => exact .inl h
  | cons sl sls ih =>
    rw [State.spill]
    dsimp only
    split
    · exact .inr
    · split
      · exact .inr
      · exact .ite .inr (ih h.laneNow.storeTgt)

theorem State.Canon.refill {b g j l sls ws} (h : s.Canon) : OnLeft (·.1.Canon) (s.refill b g j l sls ws) := by
  induction sls generalizing s ws with
  | nil => exact .inl h
  | cons sl sls ih =>
    rw [State.refill]
    dsimp only
    split
    · exact .inr
    · exact .ite .inr (ih h.laneNow.loadTgt)

theorem State.Canon.spillStep {b g act} (h : s.Canon) : OnSome State.Canon (s.spillStep b g act) := by
  unfold State.spillStep
  dsimp only
  split
  · exact .none
  · split
    · exact .some h.raiseFor
    next e' =>
      exact .ite (.some h.forceQuiet.waitSlots) (.some (h.spill.of_inl e').updGrp.waitSlots)

theorem State.Canon.refillStep {b g act} (h : s.Canon) : OnSome State.Canon (s.refillStep b g act) := by
  unfold State.refillStep
  dsimp only
  split
  · exact .none
  · split
    · exact .some h.raiseFor
    next e' =>
      exact .ite (.some h.forceQuiet.wait) (.some (h.refill.of_inl e').updGrp.wait)

theorem State.Canon.execCall {i} (h : s.Canon) : OutCanon (Machine.execCall i s) := by
  unfold Machine.execCall
  dsimp only
  split
  · refine h.joinWord fun _ _ _ => ?_
    refine .ite (.next h.raise) ?_
    split
    · exact .next h.raise
    · split
      · exact .next h.raiseFor
      · split
        next e₁ =>
          exact .next (h.spillStep.of_some e₁)
        · exact .next h.retire.updBlk.land
  · refine .ite (.next h.retire) ?_
    split
    · exact .next h.raise
    · exact .next h.retire.setMc
  · exact .fault

theorem State.Canon.execRet (h : s.Canon) : OutCanon (Machine.execRet s) := by
  unfold Machine.execRet
  dsimp only
  split
  · refine h.joinWord fun _ _ _ => ?_
    split
    · exact .next h.raiseFor
    · split
      next e'' =>
        exact .next (h.refillStep.of_some e'')
      · exact .next h.retire.updBlk
  · refine .ite (.next h.retire) (.ite (.next h.raise) ?_)
    split
    · exact .next h.raise
    · exact .next h.retire.setMc
  · exact .fault

theorem State.Canon.execSpawn {d a b v} (h : s.Canon) : OutCanon (Machine.execSpawn d a b v s) := by
  unfold Machine.execSpawn
  dsimp only
  refine h.joinWord fun _ _ _ => ?_
  refine .ite (.next h.raise) ?_
  split
  · exact .next h.raiseFor
  · exact .ite (.next h.raiseFor) (.next h.retire.updBlk)

theorem State.Canon.hashEnd {b g} (h : s.Canon) : (s.hashEnd b g).1.Canon := by
  unfold State.hashEnd
  split
  · split
    · exact h.hashCheck
    · exact h
  · exact h

theorem State.Canon.execExit (h : s.Canon) : OutCanon (Machine.execExit s) := by
  unfold Machine.execExit
  dsimp only
  refine h.joinWord fun _ _ _ => ?_
  split
  · exact .next h.retire.updGrp
  · exact .ite (.ite (.next h.retire.updGrp.hashEnd.diverge) (.next h.retire.updGrp.hashEnd.tryEndGroup)) (.next h.retire.updGrp)

theorem State.Canon.execNop (h : s.Canon) : OutCanon (Machine.execNop s) := by
  unfold Machine.execNop
  split
  · exact .next h.retire
  · exact h.joinWord fun _ _ _ => .next h.retire

theorem State.Canon.execFork {k} (h : s.Canon) : OutCanon (Machine.execFork k s) := by
  unfold Machine.execFork
  dsimp only
  refine h.joinWord fun _ _ _ => ?_
  refine .ite (.next h.retire) (.ite (.next h.raise) ?_)
  refine h.afterChecks ?_
  refine h.orCrowded ?_
  refine .ite (.next h.loadTgt.raise) (.ite (.next h.loadTgt.raise) ?_)
  refine .ite (.next h.loadTgt.wait) ?_
  split
  · exact .next h.loadTgt.retire.updBlk.trace
  · exact .next h.loadTgt.retire.updBlk

theorem State.Canon.execMsync {a} (h : s.Canon) : OutCanon (Machine.execMsync a s) := by
  unfold Machine.execMsync
  dsimp only
  refine h.joinWord fun _ _ _ => ?_
  refine .ite (.next h.raise) ?_
  split
  · exact .next h.raiseFor
  · exact .ite (.next h.raiseFor) (.next h.flushGroup.dropAhead.retire.updGrp)

/-! ### MemWords -/

theorem State.Canon.execVld {d z r o b} (h : s.Canon) : OutCanon (Machine.execVld d z r o b s) :=
  h.loadWord

theorem State.Canon.execVldsp {d z r o b} (h : s.Canon) : OutCanon (Machine.execVldsp d z r o b s) :=
  h.loadWord

theorem State.Canon.execVldx {d z r o b} (h : s.Canon) : OutCanon (Machine.execVldx d z r o b s) :=
  h.loadWord

theorem State.Canon.execVstx {d z r o b} (h : s.Canon) : OutCanon (Machine.execVstx d z r o b s) :=
  h.storeWord

theorem State.Canon.execVldt {d z r o b} (h : s.Canon) : OutCanon (Machine.execVldt d z r o b s) := by
  unfold Machine.execVldt
  dsimp only
  refine h.joinWord fun _ _ _ => ?_
  refine .ite (.next h.raise) (.ite (.next h.raiseFor) ?_)
  refine .ite (.next h.raiseFor) (.ite ?_ ?_)
  · exact .next h.raiseFor
  · exact .ite (.next h.wait) (.ite (.next h.hold) (.next h.unhold1.passPresence.issueAs.retire))

theorem State.Canon.prefLane {k g r z o l} (h : s.Canon) : (s.prefLane k g r z o l).Canon := by
  unfold State.prefLane
  dsimp only
  refine .ite ?_ ?_
  · refine .foldl ?_ (fun _ _ ht => ht.prefetch)
    split
    · exact h.laneNow
    · exact h
  · split
    · exact h.laneNow
    · exact h

theorem State.Canon.execVpref {z r o b} (h : s.Canon) : OutCanon (Machine.execVpref z r o b s) :=
  h.joinWord fun _ _ _ => .ite (.next h.wait) (.next (h.foldl fun _ _ ht => ht.prefLane).issueOut.retire)

theorem State.Canon.runWord {r z o f} (h : s.Canon) (hf : ∀ x y w, OutCanon (f x y w)) : OutCanon (Machine.runWord r z o f s) := by
  unfold Machine.runWord
  refine h.joinWord fun _ _ _ => ?_
  refine .ite (.next h.raise) ?_
  split
  · exact .next h.raiseFor
  · split
    · exact .next h.raiseFor
    · exact hf _ _ _

theorem State.Canon.execPrswait {z r o} (h : s.Canon) : OutCanon (Machine.execPrswait z r o s) :=
  h.runWord fun _ _ _ => .ite (.next h.wait) (.next h.passPresence.retire)

theorem State.Canon.phasePublish {core part scope} (h : s.Canon) : (s.phasePublish core part scope).1.Canon := by
  unfold State.phasePublish
  dsimp only
  split
  · exact h
  · exact .ite h.publish.queuePubs h.publish

theorem State.Canon.bounded {c} (h : s.Canon) : (s.bounded c).Canon :=
  h.dropEarly

theorem State.Canon.published {b scope pod sys} (h : s.Canon) : OnBoth State.Canon State.Canon (s.published b scope pod sys) := by
  unfold State.published
  dsimp only
  exact .ite (.inl h.wait) (.ite (.inl h.wait) (.inr h.bounded))

theorem State.Canon.publication {b on scope} (h : s.Canon) : OnBoth State.Canon State.Canon (s.publication b on scope) := by
  unfold State.publication
  dsimp only
  split
  · exact h.published
  · exact .ite (.inl h.wait) (.inr h.bounded)
  · exact .ite h.phasePublish.published (.inl h.wait)

theorem State.Canon.execPhase {z} (h : s.Canon) : OutCanon (Machine.execPhase z s) := by
  unfold Machine.execPhase
  dsimp only
  refine h.joinWord fun _ _ _ => ?_
  split
  next e =>
    exact .next (h.publication.of_inl e)
  next e =>
    exact .next (h.publication.of_inr e).refresh.retire

theorem State.Canon.execMemoryAccessCompletion {core id} (h : s.Canon) : OutCanon (Machine.execMemoryAccessCompletion core id s) := by
  unfold Machine.execMemoryAccessCompletion
  dsimp only
  split
  · exact .next h
  · split
    · exact .next h.complete.tryEndGroup.endTasks
    · split
      · exact .next h.complete.endTasks
      · exact .next (.endTasks (.ite h.complete.nested h.complete.asyncFault))

/-! ### Bars -/

theorem State.Canon.passBar {b g n} (h : s.Canon) : (s.passBar b g n).Canon := by
  unfold State.passBar
  split
  · exact h
  · exact .ite h.refresh h

theorem State.Canon.comeBar {b g n} (h : s.Canon) : (s.comeBar b g n).Canon :=
  h.flushGroup.updGrp.barArrive

theorem State.Canon.execBarar {i} (h : s.Canon) : OutCanon (Machine.execBarar i s) :=
  h.joinWord fun _ _ _ => .ite (.next h.wait) (.next (.comeBar (.retire (.ite h.passBar h))))

theorem State.Canon.execBarwt {i} (h : s.Canon) : OutCanon (Machine.execBarwt i s) :=
  h.joinWord fun _ _ _ => .ite (.next h.wait) (.next h.passBar.retire)

theorem State.Canon.syncWait {bid g i} (h : s.Canon) : (s.syncWait bid g i).Canon := by
  unfold State.syncWait
  split
  · exact h
  · exact .ite h.wait h.passBar.retire

theorem State.Canon.execBarsync {i} (h : s.Canon) : OutCanon (Machine.execBarsync i s) := by
  unfold Machine.execBarsync
  dsimp only
  refine h.joinWord fun _ _ _ => ?_
  exact .ite (.next h.syncWait) (.ite (.next h.wait) (.next (.syncWait (.comeBar (.ite h.passBar h)))))

theorem State.Canon.joinCluster {b key req} (h : s.Canon) : (s.joinCluster b key req).1.Canon := by
  unfold State.joinCluster
  dsimp only
  split
  · exact h
  · split
    · split
      · exact h
      · exact h.setDie.updBlk
    · split
      · exact h
      · exact h.updBlk.fillSlot

theorem State.Canon.execCljoin {d a b v} (h : s.Canon) : OutCanon (Machine.execCljoin d a b v s) := by
  unfold Machine.execCljoin
  dsimp only
  refine h.joinWord fun _ _ _ => ?_
  refine .ite (.next h.raise) (.ite ?_ ?_)
  · exact .next h.raiseFor
  · exact .ite (.next h.raise) (.ite (.next h.wait) (.next h.joinCluster.retire.giveAll))

theorem State.Canon.execClleave {d v} (h : s.Canon) : OutCanon (Machine.execClleave d v s) := by
  unfold Machine.execClleave
  dsimp only
  refine h.joinWord fun _ _ _ => ?_
  refine .ite (.next h.raise) ?_
  split
  · exact .next h.retire.giveAll
  · exact .ite (.next h.wait) (.next h.leaveCluster.retire.giveAll)

theorem State.Canon.execClslot {d v} (h : s.Canon) : OutCanon (Machine.execClslot d v s) :=
  h.joinWord fun _ _ _ => .ite (.next h.raise) (.next h.retire.giveAll)

/-! ### Atomics -/

theorem State.Canon.rrTake {p d} (h : s.Canon) : (s.rrTake p d).Canon := by
  unfold State.rrTake
  exact h.setRr

theorem State.Canon.rrLog {p d party} (h : s.Canon) : (s.rrLog p d party).Canon := by
  unfold State.rrLog
  dsimp only
  refine .ite h (.ite h.setRr.rrOverflow ?_)
  refine .homeWrite ?_
  split
  · exact h.setRr.homeWrite
  · exact h.setRr

theorem State.Canon.passGate {p d g} (h : s.Canon) : (s.passGate p d g).Canon := by
  unfold State.passGate
  split
  · exact h
  · split
    · exact h.rrLog
    · exact h.rrTake
    · exact h

theorem State.Canon.gateLeave {die b g} (h : s.Canon) : (s.gateLeave die b g).Canon := by
  unfold State.gateLeave
  exact .ite h h.setDie

theorem State.Canon.gateJoin {die b g party} (h : s.Canon) : (s.gateJoin die b g party).Canon := by
  unfold State.gateJoin
  dsimp only
  split
  · exact h
  · exact h.setDie

theorem State.Canon.pubFirst {b wait pub scope} (h : s.Canon) : OnBoth State.Canon State.Canon (s.pubFirst b wait pub scope) := by
  unfold State.pubFirst
  dsimp only
  refine .ite (.inr h) ?_
  split
  · exact .inr h
  · exact .inr h
  · exact h.publication

theorem State.Canon.atHome {b pa n o x b2 opt} (h : s.Canon) : (s.atHome b pa n o x b2 opt).1.Canon := by
  unfold State.atHome
  dsimp only
  exact .ite h.sectorHome.recall.homeWrite h.sectorHome.recall

theorem State.Canon.atDone {b g act vw d o ctl va n old new ok} (h : s.Canon) : (s.atDone b g act vw d o ctl va n old new ok).Canon := by
  unfold State.atDone
  extract_lets opt s1 s2 s3 s4
  have h1 : s1.Canon := .retire (.ite h.dropAhead h)
  have h2 : s2.Canon := .ite h1.predAll h1
  have h3 : s3.Canon := .ite h2.giveAll h2
  have h4 : s4.Canon := .ite h3.refresh h3
  refine .ite ?_ h4
  split
  · exact h4.hashStores
  · exact h4.hashStores.diverge

theorem State.Canon.atomicWord {o d a b v} (h : s.Canon) : OutCanon (Machine.atomicWord o d a b v s) := by
  unfold Machine.atomicWord
  dsimp only
  refine h.joinWord fun _ _ _ => ?_
  refine .ite (.next h.raise) (.ite (.next h.raiseFor) ?_)
  refine .ite (.next h.raise) (.ite (.next h.raise) ?_)
  split
  · exact .next h.raise
  · exact .next h.waitWalk
  · refine .ite (.next h.raise) (.ite (.next h.raiseFor) ?_)
    refine .ite (.next h.raise) ?_
    split
    next e' =>
      exact .next (h.pubFirst.of_inl e')
    next e' =>
      split
      · exact .next (h.pubFirst.of_inr e').gateJoin.wait
      · exact .next (h.pubFirst.of_inr e').wait
      · exact .next (h.pubFirst.of_inr e').raise
      · exact .next (h.pubFirst.of_inr e').gateLeave.passGate.atHome.atDone

theorem State.Canon.execAtadd {d a b v} (h : s.Canon) : OutCanon (Machine.execAtadd d a b v s) :=
  h.atomicWord

theorem State.Canon.execAtinc {d a b v} (h : s.Canon) : OutCanon (Machine.execAtinc d a b v s) :=
  h.atomicWord

theorem State.Canon.execAtbadd {d a b v} (h : s.Canon) : OutCanon (Machine.execAtbadd d a b v s) :=
  h.atomicWord

theorem State.Canon.execAtmin {d a b v} (h : s.Canon) : OutCanon (Machine.execAtmin d a b v s) :=
  h.atomicWord

theorem State.Canon.execAtmax {d a b v} (h : s.Canon) : OutCanon (Machine.execAtmax d a b v s) :=
  h.atomicWord

theorem State.Canon.execAtand {d a b v} (h : s.Canon) : OutCanon (Machine.execAtand d a b v s) :=
  h.atomicWord

theorem State.Canon.execAtor {d a b v} (h : s.Canon) : OutCanon (Machine.execAtor d a b v s) :=
  h.atomicWord

theorem State.Canon.execAtxor {d a b v} (h : s.Canon) : OutCanon (Machine.execAtxor d a b v s) :=
  h.atomicWord

theorem State.Canon.execAtxchg {d a b v} (h : s.Canon) : OutCanon (Machine.execAtxchg d a b v s) :=
  h.atomicWord

theorem State.Canon.execAtcas {d a b v} (h : s.Canon) : OutCanon (Machine.execAtcas d a b v s) :=
  h.atomicWord

theorem State.Canon.execAtld {d a v} (h : s.Canon) : OutCanon (Machine.execAtld d a v s) :=
  h.atomicWord

theorem State.Canon.execAtred {a b v} (h : s.Canon) : OutCanon (Machine.execAtred a b v s) :=
  h.atomicWord

theorem State.Canon.runAtomic {word} (h : s.Canon) : OnSome OutCanon (Machine.runAtomic word s) := by
  unfold Machine.runAtomic
  split
  · exact .some h.execAtadd
  · exact .some h.execAtinc
  · exact .some h.execAtbadd
  · exact .some h.execAtmin
  · exact .some h.execAtmax
  · exact .some h.execAtand
  · exact .some h.execAtor
  · exact .some h.execAtxor
  · exact .some h.execAtxchg
  · exact .some h.execAtcas
  · exact .some h.execAtld
  · exact .some h.execAtred
  · exact .none

theorem State.Canon.execReplayGauntletAdmit {die blk grp} (h : s.Canon) : OutCanon (Machine.execReplayGauntletAdmit die blk grp s) := by
  unfold Machine.execReplayGauntletAdmit
  dsimp only
  split
  · split
    · refine .ite ?_ (.next h)
      split
      next e₂ =>
        exact h.set.runAtomic.of_some e₂
      · exact .next h
    · exact .next h
  · exact .next h

theorem State.Canon.execReplayGateTimeout {die blk grp} (h : s.Canon) : OutCanon (Machine.execReplayGateTimeout die blk grp s) := by
  unfold Machine.execReplayGateTimeout
  split
  · split
    · exact .ite (.next h.gateLeave.raiseAt) (.next h)
    · exact .next h
  · exact .next h

/-! ### TaskWords -/

theorem State.Canon.addDep {pa va n} (h : s.Canon) : OnSome (·.2.Canon) (s.addDep pa va n) := by
  unfold State.addDep
  dsimp only
  exact .ite (.some (.ite h.homeWrite.release h.homeWrite)) .none

theorem State.Canon.decDep {pa va} (h : s.Canon) : OnSome (·.2.Canon) (s.decDep pa va) := by
  unfold State.decDep
  exact .ite .none h.addDep

theorem State.Canon.depWord {d a v n extra f} (h : s.Canon) (hf : ∀ u x y z, u.Canon → OnSome (·.2.Canon) (f u x y z)) : OutCanon
    (Machine.depWord d a v n extra f s) := by
  unfold Machine.depWord
  dsimp only
  refine h.joinWord fun _ _ _ => ?_
  refine .ite (.next h.raise) (.ite (.next h.raiseFor) ?_)
  split
  · exact .next h.raise
  · exact .next h.waitWalk
  · refine .ite (.next h.raiseFor) (.ite (.next h.raise) ?_)
    split
    next e' =>
      exact .next (h.pubFirst.of_inl e')
    next e' =>
      split
      · exact .next (h.pubFirst.of_inr e').sectorHome.retire.giveAll
      next e'' =>
        exact .next ((hf _ _ _ _ (h.pubFirst.of_inr e').sectorHome).of_some e'').retire.giveAll

theorem State.Canon.makeTask {pa va pb} (h : s.Canon) : OnSome State.Canon (s.makeTask pa va pb) := by
  unfold State.makeTask
  dsimp only
  exact .ite .none (.some (.ite h.homeWrite.release h.homeWrite))

theorem State.Canon.execTkmake {d a b v} (h : s.Canon) : OutCanon (Machine.execTkmake d a b v s) := by
  unfold Machine.execTkmake
  dsimp only
  refine h.joinWord fun _ _ _ => ?_
  refine .ite (.next h.raise) (.ite (.next h.raiseFor) ?_)
  split
  · exact .next h.raise
  · exact .next h.raise
  · exact .next h.waitWalk
  · exact .next h.waitWalk
  · refine .ite (.next h.raise) (.ite (.next h.raise) ?_)
    refine .ite (.next h.raise) (.ite (.next h.raise) ?_)
    split
    next e'' =>
      exact .next (h.pubFirst.of_inl e'')
    next e'' =>
      split
      · exact .next (h.pubFirst.of_inr e'').sectorHome.retire.giveAll
      next e₁ =>
        exact .next ((h.pubFirst.of_inr e'').sectorHome.makeTask.of_some e₁).retire.giveAll

theorem State.Canon.countSteal {die} (h : s.Canon) : (s.countSteal die).Canon :=
  h.setDie

theorem State.Canon.takeIndex {b} (h : s.Canon) : OnSome (·.2.Canon) (s.takeIndex b) := by
  unfold State.takeIndex
  dsimp only
  split
  · exact .none
  · split
    · exact .none
    · exact .some (.ite h.updGrid.countSteal h.updGrid)

theorem State.Canon.execTktake {d v} (h : s.Canon) : OutCanon (Machine.execTktake d v s) := by
  unfold Machine.execTktake
  dsimp only
  refine h.joinWord fun _ _ _ => ?_
  refine .ite (.next h.raise) ?_
  split
  · exact .next h.retire.giveAll
  next e =>
    exact .next (h.takeIndex.of_some e).retire.giveAll

/-! ### CopyWords -/

theorem State.Canon.copyWord {ok f} (h : s.Canon) (hf : ∀ x, OutCanon (f x)) : OutCanon (Machine.copyWord ok f s) := by
  unfold Machine.copyWord
  split
  · exact h.joinWord fun _ _ _ => hf _
  · split
    · exact .fault
    · exact .ite (hf _) (.next h.raise)
  · exact .fault

theorem State.Canon.setClaim {x c} (h : s.Canon) : (s.setClaim x c).Canon := by
  unfold State.setClaim
  exact .ite h.updBlk h.updGrp

theorem State.Canon.queueWord {ok vw a slots f} (h : s.Canon) (hf : ∀ x y, OutCanon (f x y)) : OutCanon
    (Machine.queueWord ok vw a slots f s) := by
  unfold Machine.queueWord
  dsimp only
  refine h.copyWord fun _ => ?_
  refine .ite (.next h.raise) (.ite (.next h.raiseFor) ?_)
  split
  · exact .next h.raise
  · exact hf _ _

theorem State.Canon.placeClaim {x q c} (h : s.Canon) : (s.placeClaim x q c).Canon := by
  unfold State.placeClaim
  exact .ite h.qWrite.setClaim.retire h.setClaim.wait

theorem State.Canon.resumeClaim {x c} (h : s.Canon) : (s.resumeClaim x c).Canon := by
  unfold State.resumeClaim
  split
  · exact h.setClaim.retire
  · exact h.placeClaim

theorem State.Canon.claimAndPlace {x q pkt} (h : s.Canon) : (s.claimAndPlace x q pkt).Canon := by
  unfold State.claimAndPlace
  exact h.qClaim.placeClaim

theorem State.Canon.postWord {ok a b v f} (h : s.Canon) (hf : ∀ u x y z, u.Canon → OutCanon (f u x y z)) : OutCanon
    (Machine.postWord ok a b v f s) := by
  unfold Machine.postWord
  refine h.queueWord fun _ _ => ?_
  split
  · exact .next h.resumeClaim
  · split
    · exact .next h.raiseFor
    · split
      next e'' =>
        exact .next (h.pubFirst.of_inl e'')
      next e'' =>
        exact hf _ _ _ _ (h.pubFirst.of_inr e'')

theorem State.Canon.execCpostTry {n a b v} (h : s.Canon) : OutCanon (Machine.execCpostTry n a b v s) :=
  h.postWord fun _ _ _ _ ht => .ite (.next ht.predAll.qClaim.qWrite.retire) (.next ht.predAll.retire)

theorem State.Canon.execCfence {a b v} (h : s.Canon) : OutCanon (Machine.execCfence a b v s) := by
  unfold Machine.execCfence
  dsimp only
  refine h.queueWord fun _ _ => ?_
  split
  · exact .next h.resumeClaim
  · split
    · exact .next h.raiseFor
    · exact .next h.claimAndPlace

theorem State.Canon.bitmapWord {ok a b v f} (h : s.Canon) (hf : ∀ x y, OutCanon (f x y)) : OutCanon (Machine.bitmapWord ok a b v f s) := by
  unfold Machine.bitmapWord
  dsimp only
  refine h.copyWord fun _ => ?_
  refine .ite (.next h.raise) (.ite (.next h.raiseFor) ?_)
  refine .ite (.next h.raise) ?_
  split
  · exact .next h.raiseFor
  · exact hf _ _

theorem State.Canon.execCwait {a b v} (h : s.Canon) : OutCanon (Machine.execCwait a b v s) :=
  h.bitmapWord fun _ _ => .ite (.next h.refresh.retire) (.next h.wait)

theorem State.Canon.execCtest {d a b v} (h : s.Canon) : OutCanon (Machine.execCtest d a b v s) :=
  h.bitmapWord fun _ _ => .next (.predAll (.retire (.ite h.refresh h)))

theorem State.Canon.execCrec {d a b v} (h : s.Canon) : OutCanon (Machine.execCrec d a b v s) := by
  unfold Machine.execCrec
  extract_lets vw
  refine h.queueWord fun x q => ?_
  extract_lets w
  exact .ite (.next h.raiseFor) (.ite (.next h.raise) (.ite (.next h.raise) (.next h.retire.updBlk)))

theorem State.Canon.abortIn {b qs} (h : s.Canon) : (s.abortIn b qs).1.Canon := by
  induction qs generalizing s with
  | nil => exact h
  | cons q qs ih => exact ih h.abandonIn

theorem State.Canon.execCabort {d a v} (h : s.Canon) : OutCanon (Machine.execCabort d a v s) := by
  unfold Machine.execCabort
  dsimp only
  refine h.copyWord fun _ => ?_
  refine .ite (.next h.raise) (.ite (.next h.raiseFor) ?_)
  refine .ite (.next (.ite h.abortIn.retire h.abortIn.retire.giveAll)) ?_
  split
  · exact .next h.raise
  · exact .next (.ite h.abortIn.retire h.abortIn.retire.giveAll)

theorem State.Canon.execCcoll {a v} (h : s.Canon) : OutCanon (Machine.execCcoll a v s) := by
  unfold Machine.execCcoll
  dsimp only
  refine h.copyWord fun _ => ?_
  refine .ite (.next h.raise) ?_
  split
  · exact .next h.raiseFor
  · refine .ite (.next h.raise) ?_
    split
    next e' =>
      exact .next (h.pubFirst.of_inl e')
    next e' =>
      exact .ite (.next (h.pubFirst.of_inr e').wait) (.next (h.pubFirst.of_inr e').setChan.retire)

theorem State.Canon.execCgen {d a v} (h : s.Canon) : OutCanon (Machine.execCgen d a v s) :=
  h.copyWord fun _ => .ite (.next h.raise) (.ite (.next h.raiseFor) (.next h.retire.giveAll))

/-! ### Life -/

theorem State.Canon.append {kind body} (h : s.Canon) : (s.append kind body).Canon := by
  unfold State.append
  exact .ite h.set.interrupt (.ite h.set.interrupt h.set)

theorem State.Canon.appendEvent {e} (h : s.Canon) : (s.appendEvent e).Canon :=
  h.append

theorem State.Canon.recordRetired {c} (h : s.Canon) : (s.recordRetired c).Canon := by
  unfold State.recordRetired
  exact .ite h.appendEvent.set h.appendEvent

theorem State.Canon.countHours (h : s.Canon) : s.countHours.Canon := by
  unfold State.countHours
  exact h.set

theorem State.Canon.noteHeats {p k} (h : s.Canon) : (s.noteHeats p k).Canon :=
  h.set

theorem State.Canon.newMonth (h : s.Canon) : s.newMonth.Canon := by
  unfold State.newMonth
  exact h.set

theorem State.Canon.monthRecords (h : s.Canon) : s.monthRecords.Canon := by
  unfold State.monthRecords
  exact (((h.append.foldl fun _ _ ht => ht.append.set).foldl fun _ _ ht => ht.append).append.append.foldl fun _ _ ht => ht.append).foldl
    fun _ _ ht => ht.append

theorem State.Canon.writeRail {val} (h : s.Canon) : (s.writeRail val).Canon := by
  unfold State.writeRail
  exact h.set

theorem State.Canon.execThrottle {die power temp} (h : s.Canon) : OutCanon (Machine.execThrottle die power temp s) := by
  unfold Machine.execThrottle
  dsimp only
  exact .ite (.next h) (.ite (.next (.ite h.set.setDie.set.interrupt h.set.setDie.set)) (.next h.set.setDie))

/-! ### Place -/

theorem State.Canon.countPlace {c} (h : s.Canon) : (s.countPlace c).Canon := by
  unfold State.countPlace
  exact h.setCore.set

theorem State.Canon.startTask {g} (h : s.Canon) : (s.startTask g).Canon := by
  unfold State.startTask
  exact .ite (h.setTask.foldl fun _ _ ht => .ite ht.setDie ht) h

theorem State.Canon.placeNew {g c index} (h : s.Canon) : (s.placeNew g c index).Canon := by
  unfold State.placeNew
  exact h.countPlace.setCore.set.updGrid.startTask.refresh

theorem State.Canon.abandonForSave {b cs} (h : s.Canon) : (s.abandonForSave b cs).1.Canon := by
  unfold State.abandonForSave
  dsimp only
  refine h.foldlFst fun _ _ ht => ?_
  split
  · exact ht
  · exact ht.abandonIn

theorem State.Canon.keepBlock {bid fault} (h : s.Canon) : (s.keepBlock bid fault).Canon := by
  unfold State.keepBlock
  dsimp only
  split
  · exact h
  · refine .ite ?_ ?_
    · refine .updBlk ?_
      split
      · exact h.fillSlot
      · exact h
    · refine .resume (.repost (.updBlk ?_))
      split
      · exact h.fillSlot
      · exact h

theorem State.Canon.mismatch {b o} (h : s.Canon) : (s.mismatch b o).Canon :=
  h.keepBlock.updGrp

theorem State.Canon.writeSave {b} (h : s.Canon) : (s.writeSave b).1.Canon := by
  unfold State.writeSave
  split
  · exact h.keepBlock
  · split
    split
    · exact h.mismatch
    · split
      next e =>
        exact (h.homePutParts.of_inr e).keepBlock
      next e =>
        exact (h.homePutParts.of_inl e).setCore.set

theorem State.Canon.finishSave {b} (h : s.Canon) : (s.finishSave b).1.Canon := by
  unfold State.finishSave
  dsimp only
  split
  · split
    · exact h.writeSave
    · exact h
  · split
    · exact h
    · split
      · exact h.publish.writeSave
      · exact h.publish.updBlk

theorem State.Canon.stopToSave {b} (h : s.Canon) : (s.stopToSave b).1.Canon := by
  unfold State.stopToSave
  dsimp only
  refine .updBlk (.drain ?_)
  refine .landBegun (.abandonForSave ?_)
  split
  · exact h.stopAll.closeSlot.setSlot
  · exact h.stopAll

theorem State.Canon.saveBlock {bid} (h : s.Canon) : (s.saveBlock bid).1.Canon := by
  unfold State.saveBlock
  dsimp only
  split
  · exact h
  · split
    · exact h.finishSave
    · split
      · exact h
      · split
        · exact h.stopToSave.keepBlock
        · split
          · exact h.stopToSave.keepBlock.updBlk.takeFault
          · split
            · exact h.stopToSave
            · exact h.stopToSave.finishSave

theorem State.Canon.resumeBlock {x c} (h : s.Canon) : (s.resumeBlock x c).Canon := by
  unfold State.resumeBlock
  extract_lets b
  split
  next s1 e =>
    have h1 : s1.Canon := by
      split at e
      next e' =>
        exact (Prod.mk.inj e).2 ▸ h.homeGet.of_inl e'
      · exact (Prod.mk.inj e).2 ▸ h
    extract_lets k k1 _ s2 s3 s4 s5
    have h3 : s3.Canon := h1.countPlace.set.foldl fun _ _ ht => ht.rescalar
    have h4 : s4.Canon := by
      unfold s4
      split
      · exact h3.fillSlot
      · exact h3
    exact h4.refresh.updBlk.repost.resume

theorem State.Canon.placeWork {g d w c} (h : s.Canon) : (s.placeWork g d w c).Canon := by
  unfold State.placeWork
  dsimp only
  split
  · exact h.resumeBlock
  · exact h.updGrid.placeNew
  · split
    · exact h
    · exact .placeNew (.ite h.updGrid.countSteal h.updGrid)

theorem State.Canon.freeCore {t₀ d skip fuel} (h : s.Canon) : (s.freeCore t₀ d skip fuel).Canon := by
  induction fuel generalizing s skip with
  | zero => rw [State.freeCore]; exact h
  | succ fuel ih =>
    rw [State.freeCore]
    split
    · exact h
    · split
      · exact h
      · extract_lets r
        have hr : r.1.Canon := by
          refine h.foldlFst fun _ _ ht => ?_
          split
          · exact ht
          · exact ht.saveBlock
        split
        · exact hr
        · exact hr
        · exact ih hr

theorem State.Canon.placeFrom {d gs stop} (h : s.Canon) : (s.placeFrom d gs stop).1.Canon := by
  induction gs generalizing s stop with
  | nil => exact h
  | cons g gs ih =>
    unfold State.placeFrom
    extract_lets held
    split
    · exact ih h
    · split
      · exact ih h
      · split
        · exact h.placeWork
        · split
          · exact ih h.freeCore
          · split
            · exact h.freeCore.placeWork
            · exact ih h.freeCore

theorem State.Canon.placeParts {d ps} (h : s.Canon) : (s.placeParts d ps).1.Canon := by
  induction ps generalizing s with
  | nil => exact h
  | cons p ps ih =>
    rw [State.placeParts]
    split
    next e =>
      exact h.placeFrom.of_fst e
    next e =>
      exact ih (h.placeFrom.of_fst e)

theorem State.Canon.placeAll {d fuel} (h : s.Canon) : (s.placeAll d fuel).Canon := by
  induction fuel generalizing s with
  | zero => exact h
  | succ fuel ih =>
    rw [State.placeAll]
    split
    next e =>
      exact ih (h.placeParts.of_fst e)
    next e =>
      exact h.placeParts.of_fst e

theorem State.Canon.goOnSaving {d} (h : s.Canon) : (s.goOnSaving d).Canon :=
  h.foldl fun _ _ ht => ht.saveBlock

theorem State.Canon.execPreemptionSave {blk} (h : s.Canon) : OutCanon (Machine.execPreemptionSave blk s) := by
  unfold Machine.execPreemptionSave
  split
  · exact .next h
  · exact .next (.ite h.saveBlock h)

theorem State.Canon.writeRetire {d hi v} (h : s.Canon) : (s.writeRetire d hi v).Canon := by
  unfold State.writeRetire
  exact .ite h ((h.setDie.foldl fun _ _ ht => ht.recordRetired).foldl fun _ _ ht => .ite ht.saveBlock ht)

/-! ### Csr -/

theorem State.Canon.csrPut {b g n v} (h : s.Canon) : (s.csrPut b g n v).Canon := by
  unfold State.csrPut
  dsimp only
  split
  · exact h.updBlk.setCore.setPart
  · exact h.updBlk.setCore.setPart
  · exact h.updBlk.setCore

/-! ### Priv -/

theorem State.Canon.privWord {f} (h : s.Canon) (hf : ∀ x y, OutCanon (f x y)) : OutCanon (Machine.privWord f s) := by
  unfold Machine.privWord
  split
  · split
    · exact .fault
    · exact .ite (.next h.raise) (.ite (.next h.retire) (hf _ _))
  · exact .next h.raise
  · exact .fault

theorem State.Canon.giveScalar {d v} (h : s.Canon) : (s.giveScalar d v).Canon := by
  unfold State.giveScalar
  split
  · exact h.setSregs
  · exact h

theorem State.Canon.execTrap {i} (h : s.Canon) : OutCanon (Machine.execTrap i s) := by
  unfold Machine.execTrap
  split
  · exact h.joinWord fun _ _ _ => .ite (.next h.nested) (.next h.retire.raiseAt)
  · exact .ite (.next h.retire) (.next h.raise)
  · exact .fault

theorem State.Canon.execHalt (h : s.Canon) : OutCanon (Machine.execHalt s) := by
  unfold Machine.execHalt
  dsimp only
  split
  · exact .ite (.next h.retire) (.next h.setMc.interrupt)
  · exact h.privWord fun _ _ => .next h.terminate

theorem State.Canon.execCsrr {d r} (h : s.Canon) : OutCanon (Machine.execCsrr d r s) := by
  unfold Machine.execCsrr
  split
  · split
    · exact .fault
    · exact .ite (.next h.raise) (.ite (.next h.raise) (.ite (.next h.retire) (.next h.giveScalar.retire)))
  · exact .next h.raise
  · exact .fault

theorem State.Canon.execCsrw {a r} (h : s.Canon) : OutCanon (Machine.execCsrw a r s) := by
  unfold Machine.execCsrw
  dsimp only
  exact .ite (.next h.raise) (h.privWord fun _ _ => .ite (.next h.raise) (.ite (.next h.raise) (.next h.csrPut.retire)))

theorem State.Canon.putThrough {c part ps} (h : s.Canon) : (s.putThrough c part ps).1.Canon := by
  induction ps generalizing s with
  | nil => exact h
  | cons p ps ih =>
    rw [State.putThrough]
    split
    next e =>
      exact ih (h.homePut.of_inl e)
    · exact h

theorem State.Canon.putRun {c part a bs} (h : s.Canon) : (s.putRun c part a bs).1.Canon := by
  unfold State.putRun
  exact h.putThrough

theorem State.Canon.putSections {c part base k a bodies} (h : s.Canon) : (s.putSections c part base k a bodies).1.Canon := by
  induction bodies generalizing s k a with
  | nil => exact h
  | cons body bodies ih =>
    rw [State.putSections]
    dsimp only
    split
    · exact h.putRun
    · split
      · exact h.putRun.putRun
      · exact ih h.putRun.putRun

theorem State.Canon.saved {d v r info} (h : r.1.Canon) : OutCanon (Machine.saved d v r info) := by
  unfold Machine.saved
  split
  · exact .next h.raise
  · exact .next h.giveScalar.retire

theorem State.Canon.execCtxsave {d a b} (h : s.Canon) : OutCanon (Machine.execCtxsave d a b s) := by
  unfold Machine.execCtxsave
  refine h.privWord fun k x => ?_
  extract_lets ad form p
  refine .ite (.next h.raise) (.ite (.next h.raise) (.ite (.next h.raise) ?_))
  split
  · exact .next h.raise
  next s1 e =>
    have h1 : s1.Canon := h.homeGet.of_inl e
    refine .ite h1.putRun.saved ?_
    extract_lets s2 secs total r
    have hr : r.1.Canon := h1.updBlk.putRun
    split
    · exact .next hr.raise
    · exact hr.putSections.saved

theorem State.Canon.loadImage {b r im} (h : s.Canon) : (s.loadImage b r im).Canon := by
  unfold State.loadImage
  exact h.updBlk.foldl fun _ _ ht => ht.rescalar

theorem State.Canon.execCtxload {d a} (h : s.Canon) : OutCanon (Machine.execCtxload d a s) := by
  unfold Machine.execCtxload
  dsimp only
  refine h.privWord fun _ _ => ?_
  refine .ite (.next h.raise) (.ite (.next h.raise) ?_)
  split
  · exact .next h.raise
  next e =>
    refine .ite (.next (h.homeGet.of_inl e).giveScalar.retire) ?_
    split
    · exact .next (h.homeGet.of_inl e).raise
    next e' =>
      split
      · exact .next ((h.homeGet.of_inl e).homeGet.of_inl e').raise
      next e'' =>
        split
        · exact .next (((h.homeGet.of_inl e).homeGet.of_inl e').homePut.of_inl e'').raise
        next e₁ =>
          exact .next ((((h.homeGet.of_inl e).homeGet.of_inl e').homePut.of_inl e'').homePut.of_inl e₁).loadImage.giveScalar.retire

theorem State.Canon.bufferLanes {k acc a n} (h : s.Canon) : (s.bufferLanes k acc a n).1.Canon := by
  unfold State.bufferLanes
  dsimp only
  exact h.walkNow

theorem State.Canon.execMbpost {d a b} (h : s.Canon) : OutCanon (Machine.execMbpost d a b s) := by
  unfold Machine.execMbpost
  refine h.privWord fun k x => ?_
  extract_lets n ad p mb put
  have hput {t o bs} (ht : OnLeft State.Canon t) : OnLeft State.Canon (put t o bs) := by
    cases ht with
    | inl ht => exact ht.homePut
    | inr => exact .inr
  refine .ite (.next h.raise) (.ite (.next h.raise) ?_)
  split
  · exact .next h.raise
  next s1 e =>
    have h1 : s1.Canon := h.homeGet.of_inl e
    refine .ite (.next h1.giveScalar.retire) ?_
    split
    next s2 _ e' =>
      have h2 : s2.Canon := State.Canon.of_fst h1.bufferLanes e'
      split
      · exact .next h2.raise
      · extract_lets r
        have hr : r.2.2.Canon := h2.loadLanes
        refine h2.orCrowded ?_
        split
        · exact .next hr.raise
        · split
          · exact .next hr.raise
          next e'' =>
            exact .next ((hput (hput (hput (.inl hr)))).of_inl e'').interrupt.giveScalar.retire

theorem State.Canon.execMbpoll {d a b} (h : s.Canon) : OutCanon (Machine.execMbpoll d a b s) := by
  unfold Machine.execMbpoll
  refine h.privWord fun k x => ?_
  extract_lets n ad p mb
  refine .ite (.next h.raise) ?_
  split
  · exact .next h.raise
  next s1 e =>
    have h1 : s1.Canon := h.homeGet.of_inl e
    extract_lets seq len
    refine .ite (.next h1.giveScalar.retire) (.ite (.next h1.giveScalar.retire) ?_)
    split
    · exact .next h1.raise
    next s2 e' =>
      have h2 : s2.Canon := h1.homeGet.of_inl e'
      split
      next s3 _ e'' =>
        have h3 : s3.Canon := State.Canon.of_fst h2.bufferLanes e''
        split
        · exact .next h3.raise
        · split
          · exact .next h3.raise
          · extract_lets s4
            have h4 : s4.Canon := h3.foldl fun _ _ ht => ht.storeTgt
            refine h3.orCrowded ?_
            split
            · exact .next h4.raise
            next e₁ =>
              exact .next (h4.homePut.of_inl e₁).giveScalar.retire

theorem State.Canon.dropTlb {p lo n} (h : s.Canon) : (s.dropTlb p lo n).Canon := by
  unfold State.dropTlb
  exact h.foldl fun _ _ ht => ht.setCore

theorem State.Canon.execTlbinv {a b} (h : s.Canon) : OutCanon (Machine.execTlbinv a b s) := by
  unfold Machine.execTlbinv
  refine h.privWord fun _ _ => ?_
  refine .ite (.next h.raise) ?_
  split
  · exact .next h.raise
  · exact .ite (.next h.wait) (.next h.dropTlb.retire)

/-! ### MatrixWords -/

theorem State.Canon.matrixWord {f} (hf : ∀ x, OutCanon (f x)) : OutCanon (Machine.matrixWord f s) := by
  unfold Machine.matrixWord
  split
  · split
    · exact .fault
    · exact hf _
  · exact .fault

theorem State.Canon.putBlk {b} (h : s.Canon) : OutCanon (s.putBlk b) :=
  .next h.updBlk.retire

theorem State.Canon.scrRead {b off n rd f} (h : s.Canon) (hf : ∀ x, OutCanon (f x)) : OutCanon (s.scrRead b off n rd f) := by
  unfold State.scrRead
  exact .ite (.next h.raise) (.ite (.next h.wait) (.ite (.next h.raise) (hf _)))

theorem State.Canon.execMbind {g t₀ r x l} (h : s.Canon) : OutCanon (Machine.execMbind g t₀ r x l s) :=
  State.Canon.matrixWord (fun _ => .ite (.next h.raise) (.ite (.next h.raise) (h.scrRead fun _ => h.putBlk)))

theorem State.Canon.mrowWord {r bsel sreg f} (h : s.Canon) (hf : ∀ x y z, (∀ w, OutCanon (z w)) → OutCanon (f x y z)) : OutCanon
    (Machine.mrowWord r bsel sreg f s) := by
  unfold Machine.mrowWord
  dsimp only
  refine State.Canon.matrixWord fun _ => ?_
  exact .ite (.next h.raise) (.ite (.next h.raise) (hf _ _ _ (fun _ => .ite (.next h.raise) h.putBlk)))

theorem State.Canon.execMrowLines {r b g x i} (h : s.Canon) : OutCanon (Machine.execMrowLines r b g x i s) :=
  h.mrowWord fun _ _ _ ht => h.scrRead ht

theorem State.Canon.execMrowTslots {r b g x i} (h : s.Canon) : OutCanon (Machine.execMrowTslots r b g x i s) :=
  h.mrowWord fun _ _ _ ht => .ite (.next h.raise) (.ite (.next h.raise) (ht _))

theorem State.Canon.mulWord {word} (h : s.Canon) : OutCanon (Machine.mulWord word s) := by
  unfold Machine.mulWord
  dsimp only
  refine State.Canon.matrixWord fun _ => ?_
  split
  · exact .next h.raise
  · exact .ite (.next h.raise) (.ite (.next h.raise) h.putBlk)

theorem State.Canon.countDrain {b v} (h : s.Canon) : (s.countDrain b v).Canon := by
  unfold State.countDrain
  exact h.setCore

theorem State.Canon.drainTile {b a f} (h : s.Canon) (hf : ∀ u x, u.Canon → OutCanon (f u x)) : OutCanon (s.drainTile b a f) := by
  unfold State.drainTile
  exact .ite (.next h.raise) (.ite (hf _ _ h.countDrain) (.next h.countDrain.updBlk.interrupt.raise))

theorem State.Canon.execMdrain {a f p m sr x} (h : s.Canon) : OutCanon (Machine.execMdrain a f p m sr x s) :=
  State.Canon.matrixWord (fun _ => .ite (.next h.raise) (.ite (.next h.raise) (h.drainTile fun _ _ ht => ht.putBlk)))

theorem State.Canon.stage {c bs} (h : s.Canon) : (s.stage c bs).Canon := by
  unfold State.stage
  exact .setChan (.ite h.homeWrite h)

theorem State.Canon.execMdrainCh {a c} (h : s.Canon) : OutCanon (Machine.execMdrainCh a c s) :=
  State.Canon.matrixWord (fun _ => .ite (.next h.raise) (.ite (.next h.wait) (h.drainTile fun _ _ ht => ht.stage.putBlk)))

theorem State.Canon.execMdrainf {a x l} (h : s.Canon) : OutCanon (Machine.execMdrainf a x l s) :=
  State.Canon.matrixWord (fun _ => .ite (.next h.raise) (h.drainTile fun _ _ ht => ht.putBlk))

theorem State.Canon.execMsignal {n} (h : s.Canon) : OutCanon (Machine.execMsignal n s) :=
  State.Canon.matrixWord (fun _ => .ite (.next h.raise) (.ite (.next h.wait) (.next h.retire.barArrive)))

theorem State.Canon.execMwaitb {n} (h : s.Canon) : OutCanon (Machine.execMwaitb n s) :=
  State.Canon.matrixWord (fun _ => .ite (.next h.raise) (.ite (.next h.wait) (.next h.retire)))

theorem State.Canon.execMloop {x o} (h : s.Canon) : OutCanon (Machine.execMloop x o s) := by
  unfold Machine.execMloop
  refine State.Canon.matrixWord fun b => ?_
  extract_lets v
  refine .ite h.putBlk ?_
  split
  · exact .next h.raise
  · exact .next h.updBlk

theorem State.Canon.execMjmp {o} (h : s.Canon) : OutCanon (Machine.execMjmp o s) := by
  unfold Machine.execMjmp
  refine State.Canon.matrixWord fun _ => ?_
  split
  · exact .next h.raise
  · exact .next h.updBlk

theorem State.Canon.execMstampRetire {a} (h : s.Canon) : OutCanon (Machine.execMstampRetire a s) := by
  unfold Machine.execMstampRetire
  dsimp only
  refine State.Canon.matrixWord fun _ => ?_
  refine .ite (.next h.raise) (.ite h.putBlk ?_)
  split
  next e =>
    exact (h.recordStore.of_some e).putBlk
  · exact h.putBlk

/-! ### Issue -/

theorem State.Canon.takeFetch {b g hdr ws} (h : s.Canon) : (s.takeFetch b g hdr ws).Canon :=
  h.updGrp

theorem State.Canon.issue {cls w} (h : s.Canon) : TodoCanon (s.issue cls w) := by
  unfold State.issue
  split
  · exact .word h
  · exact .done h.raise

theorem State.Canon.groupHeader {b g hdr set} (h : s.Canon) : TodoCanon (s.groupHeader b g hdr set) := by
  unfold State.groupHeader
  dsimp only
  split
  · exact .done h.set.raise
  · exact .word (.set (.ite h h.takeFetch))

theorem State.Canon.groupWord {b g l set} (h : s.Canon) : TodoCanon (s.groupWord b g l set) := by
  unfold State.groupWord
  dsimp only
  split
  · split
    · exact .done h.set.raise
    · exact .ite (.done h.takeFetch.set.updGrp.raise) (.ite (.word h.takeFetch.set) h.takeFetch.set.issue)
  · exact .ite (.done h.set.updGrp.raise) (.ite (.word h.set) h.set.issue)

theorem State.Canon.groupNext {b g} (h : s.Canon) : TodoCanon (s.groupNext b g) := by
  unfold State.groupNext
  dsimp only
  split
  · exact .done h
  · refine .ite (.done h) (.ite (.done h.tryEndGroup) ?_)
    refine .ite (.done h) ?_
    split
    · exact .word h
    · split
      · exact h.updGrp.groupHeader
      · split
        · exact h.updGrp.groupWord
        · exact .done h

theorem State.Canon.execDivergenceStarvation {blk grp lane} (h : s.Canon) : OutCanon (Machine.execDivergenceStarvation blk grp lane s) := by
  unfold Machine.execDivergenceStarvation
  dsimp only
  split
  · exact .next h
  · exact .ite (.next h) (.ite (.next h.updGrp) (.next h))

theorem State.Canon.execDebugStopBreakpoint {blk grp} (h : s.Canon) : OutCanon (Machine.execDebugStopBreakpoint blk grp s) := by
  unfold Machine.execDebugStopBreakpoint
  split
  · exact .next h
  · split
    · exact .ite (.next h.raise) (.next h)
    · exact .ite (.next h.raise) (.next h)
    · exact .next h

theorem State.Canon.passScalar {b g n y} (h : s.Canon) : (s.passScalar b g n y).Canon := by
  unfold State.passScalar
  exact h.updGrp.updQuad

theorem State.Canon.wideHeader {b g r} (h : s.Canon) : (s.wideHeader b g r).Canon := by
  unfold State.wideHeader
  dsimp only
  refine .ite ?_ ?_
  · refine .ite h.passScalar ?_
    split
    · exact .ite h.updGrp.nested h.updGrp.takeFault
    · exact h
  · exact .ite h.wait (.ite h.wait (.updGrp (.ite h.passBar h)))

theorem State.Canon.scalarHeader {b g r} (h : s.Canon) : (s.scalarHeader b g r).Canon := by
  unfold State.scalarHeader
  dsimp only
  exact .ite h.wait (.ite h.wait (.updGrp (.ite h.passBar h)))

theorem State.Canon.streamHeader {b x bit r} (h : s.Canon) : (s.streamHeader b x bit r).Canon := by
  unfold State.streamHeader
  dsimp only
  exact .ite h.raise (.ite h.raise (.ite h.wait h.updBlk))

theorem State.Canon.execClauseHeader {n cls y wait b bar g sense guard} (h : s.Canon) : OutCanon
    (Machine.execClauseHeader n cls y wait b bar g sense guard s) := by
  unfold Machine.execClauseHeader
  dsimp only
  split
  · exact .fault
  · split
    · exact .fault
    · exact .next h.wideHeader
  · split
    · exact .fault
    · exact .next h.scalarHeader
  · split
    · exact .fault
    · exact .next h.streamHeader
  · split
    · exact .fault
    · exact .next h.streamHeader
  · exact .next h.setMc

theorem State.Canon.scalarNext {b g} (h : s.Canon) : TodoCanon (s.scalarNext b g) := by
  unfold State.scalarNext
  dsimp only
  split
  · exact .done h
  · refine .ite (.done h) ?_
    split
    · exact .ite (.done h.set.updGrp.raise) (.ite (.word h.set) h.set.issue)
    · refine .ite (.done h) ?_
      split
      · exact .done h
      · exact .ite (.done h) (.word h.takeFetch.set)

theorem State.Canon.streamNext {b copy} (h : s.Canon) : TodoCanon (s.streamNext b copy) := by
  unfold State.streamNext
  dsimp only
  split
  · exact .done h
  · refine .ite (.done h) ?_
    split
    · exact .done h.set.raise
    · exact .ite (.word h.updBlk.set) (.ite (.done h.updBlk.set.copyEnd) h.updBlk.set.issue)

theorem State.Canon.mgmtNext {m} (h : s.Canon) : TodoCanon (s.mgmtNext m) := by
  unfold State.mgmtNext
  dsimp only
  refine .ite (.done h) ?_
  split
  · exact .done h.set.raise
  · exact .ite (.word h.setMc.set) h.setMc.set.issue

theorem State.Canon.nextOf {ag} (h : s.Canon) : TodoCanon (s.nextOf ag) := by
  unfold State.nextOf
  split
  · exact .done h
  · exact h.groupNext
  · exact h.scalarNext
  · exact h.streamNext
  · exact h.streamNext
  · exact h.mgmtNext

theorem State.Canon.promote {c q} (h : s.Canon) : (s.promote c q).Canon := by
  unfold State.promote
  exact h.foldl fun _ _ ht => ht.updGrp.updQuad

theorem State.Canon.pick {ready c q} (h : s.Canon) : (s.pick ready c q).Canon := by
  unfold State.pick
  dsimp only
  split
  · exact h.updGrp.updQuad
  · split
    · exact h.updQuad
    · exact (h.foldl fun _ _ ht => ht.updGrp).updQuad.promote

theorem State.Canon.execHaltBroadcast {blk} (h : s.Canon) : OutCanon (Machine.execHaltBroadcast blk s) := by
  unfold Machine.execHaltBroadcast
  split
  · exact .ite (.next h.resume) (.next h)
  · exact .next h

theorem State.Canon.stopBlock {b} (h : s.Canon) : (s.stopBlock b).Canon := by
  unfold State.stopBlock
  split
  · exact h.updBlk
  · exact .ite h.updBlk (.ite h h.takeFault)

theorem State.Canon.execDebugStopRequest {die} (h : s.Canon) : OutCanon (Machine.execDebugStopRequest die s) := by
  unfold Machine.execDebugStopRequest
  dsimp only
  split
  · exact .next h.stopBlock
  · exact .next h

theorem State.Canon.execTraceSample {core} (h : s.Canon) : OutCanon (Machine.execTraceSample core s) := by
  unfold Machine.execTraceSample
  dsimp only
  refine .ite (.next h) ?_
  split
  · exact .next h
  · exact .next h.setCore.trace

theorem State.Canon.execTlbWalk {die part page} (h : s.Canon) : OutCanon (Machine.execTlbWalk die part page s) := by
  unfold Machine.execTlbWalk
  dsimp only
  refine .ite (.next h) ?_
  split
  · exact .next h
  · exact .next (h.setDie.foldl fun _ _ ht => ht.walked)

theorem State.Canon.execRegisterUnitRetirement {core} (h : s.Canon) : OutCanon (Machine.execRegisterUnitRetirement core s) := by
  unfold Machine.execRegisterUnitRetirement
  exact .ite (.next h.setCore) (.next h)

theorem State.Canon.countCorrected {cls} (h : s.Canon) : (s.countCorrected cls).Canon :=
  h.set

theorem State.Canon.hbmLost {a} (h : s.Canon) : (s.hbmLost a).Canon := by
  unfold State.hbmLost
  exact h.setHbm.set

theorem State.Canon.execSoftError {kind blk grp addr bit} (h : s.Canon) : OutCanon (Machine.execSoftError kind blk grp addr bit s) := by
  unfold Machine.execSoftError
  dsimp only
  split
  · exact .next (.ite h.updGrp h)
  · exact .next (.ite h.updBlk h)
  · exact .next h.countCorrected
  · exact .next (.ite h.updBlk h)
  · exact .next h.countCorrected
  · exact .next (.ite h.set h)
  · exact .next (.ite h.hbmLost h)
  · exact .next h.countCorrected
  · exact .next h

/-! ### Fabric -/

theorem State.Canon.sendFlits {dst vc fuel fs} (h : s.Canon) : (s.sendFlits dst vc fuel fs).Canon := by
  induction fuel generalizing s fs with
  | zero => exact h
  | succ fuel ih => exact .ite h (ih h.set)

theorem State.Canon.send {dst vc fs} (h : s.Canon) : (s.send dst vc fs).Canon :=
  h.sendFlits

theorem State.Canon.sendOn {p partner bs cred} (h : s.Canon) : (s.sendOn p partner bs cred).Canon := by
  unfold State.sendOn
  exact h.set.setPort

theorem State.Canon.resendOn {p bs} (h : s.Canon) : (s.resendOn p bs).Canon := by
  unfold State.resendOn
  exact h.set.setPort

theorem State.Canon.creditReturns {partner} (h : s.Canon) : (s.creditReturns partner).Canon := by
  unfold State.creditReturns
  exact h.set

theorem State.Canon.portSlot {p} (h : s.Canon) : (s.portSlot p).1.Canon := by
  unfold State.portSlot
  dsimp only
  split
  · exact h
  · split
    · exact h
    · exact h.creditReturns.resendOn.sendOn

theorem State.Canon.relaySlot {c} (h : s.Canon) : (s.relaySlot c).Canon := by
  unfold State.relaySlot
  exact h.sendOn

theorem State.Canon.slotSends (h : s.Canon) : s.slotSends.Canon := by
  unfold State.slotSends
  extract_lets r top
  have hr : r.1.Canon := h.foldlFst fun _ _ ht => ht.portSlot
  exact hr.foldl fun _ _ ht => ht.relaySlot

theorem State.Canon.resolve (h : s.Canon) : s.resolve.Canon := by
  unfold State.resolve
  exact h.set

theorem State.Canon.halfBits (h : s.Canon) : s.halfBits.Canon :=
  h.set

theorem State.Canon.portState {p st code} (h : s.Canon) : (s.portState p st code).Canon := by
  unfold State.portState
  exact .ite h.setPort.halfBits h.setPort.halfBits.interrupt

theorem State.Canon.portUp {p} (h : s.Canon) : (s.portUp p).Canon := by
  unfold State.portUp
  exact .ite h.portState h.portState

theorem State.Canon.deliverNext {src vc fuel} (h : s.Canon) : (s.deliverNext src vc fuel).Canon := by
  induction fuel generalizing s with
  | zero => exact h
  | succ fuel ih =>
    rw [State.deliverNext]
    split
    · exact h
    · exact ih h.set

theorem State.Canon.takeNotices (h : s.Canon) : s.takeNotices.Canon := by
  unfold State.takeNotices
  exact h.foldl fun _ _ ht => ht.set

theorem State.Canon.holdRelay {p b} (h : s.Canon) : (s.holdRelay p b).Canon := by
  unfold State.holdRelay
  exact .ite h h.set

theorem State.Canon.execBurstReceived {p sender slot ok vc seq path flits} (h : s.Canon) : OutCanon
    (Machine.execBurstReceived p sender slot ok vc seq path flits s) := by
  unfold Machine.execBurstReceived
  dsimp only
  refine .ite (.next h.setPort) (.ite ?_ ?_)
  · exact .next h
  · exact .ite (.next h.holdRelay) (.ite (.next h) (.next h.set.deliverNext.takeNotices))

theorem State.Canon.serve {src vc} (h : s.Canon) : (s.serve src vc).Canon := by
  unfold State.serve
  dsimp only
  split
  · exact h
  · exact h.set

theorem State.Canon.execKeyRequestThreshold {p} (h : s.Canon) : OutCanon (Machine.execKeyRequestThreshold p s) := by
  unfold Machine.execKeyRequestThreshold
  exact .ite (.next h.set.interrupt) (.next h)

theorem State.Canon.execFeKeyuseWrite {val} (h : s.Canon) : OutCanon (Machine.execFeKeyuseWrite val s) := by
  unfold Machine.execFeKeyuseWrite
  exact .next (h.foldl fun _ _ ht => .ite ht.setPort ht).set

theorem State.Canon.execFeKeydataWrite {val} (h : s.Canon) : OutCanon (Machine.execFeKeydataWrite val s) := by
  unfold Machine.execFeKeydataWrite
  exact .next h.setPort

theorem State.Canon.writeSched {val} (h : s.Canon) : (s.writeSched val).Canon := by
  unfold State.writeSched
  exact .ite h.set.set h.set

theorem State.Canon.execFeTbldataWrite {val} (h : s.Canon) : OutCanon (Machine.execFeTbldataWrite val s) := by
  unfold Machine.execFeTbldataWrite
  exact .ite (.next h) (.ite (.next h) (.next h.set))

theorem State.Canon.execFeChpartWrite {ch val} (h : s.Canon) : OutCanon (Machine.execFeChpartWrite ch val s) := by
  unfold Machine.execFeChpartWrite
  exact .ite (.next h) (.next h.setChan)

/-! ### Copy -/

theorem State.Canon.clearLines {pkt n} (h : s.Canon) : (s.clearLines pkt n).Canon := by
  unfold State.clearLines
  dsimp only
  refine .ite ?_ h
  split
  · exact h
  · exact h.updBlk

theorem State.Canon.endsEarly {q f} (h : s.Canon) : (s.endsEarly q f).Canon := by
  unfold State.endsEarly
  dsimp only
  split
  · exact h.updQ
  · exact h.updQ.set

theorem State.Canon.askRemote {q f} (h : s.Canon) : (s.askRemote q f).Canon := by
  unfold State.askRemote
  dsimp only
  split
  · exact h.failChunk
  · exact h.set.send

theorem State.Canon.beginPacket {q i pkt} (h : s.Canon) : (s.beginPacket q i pkt).Canon := by
  unfold State.beginPacket
  extract_lets s1 own base error
  have h1 : s1.Canon := h.setQState
  refine .ite h1.clearLines.endsEarly (.ite h1.endsEarly ?_)
  split
  · exact h1.endsEarly
  · refine .ite h1.clearLines.endsEarly ?_
    extract_lets n f s2
    have h2 : s2.Canon := h1.clearLines.updQ
    exact .ite h2.askRemote h2

theorem State.Canon.execPacketBegin {q} (h : s.Canon) : OutCanon (Machine.execPacketBegin q s) := by
  unfold Machine.execPacketBegin
  dsimp only
  split
  · exact .next h
  · exact .ite (.next h.writeKept) (.ite (.next h.writeKept.endsEarly) (.next h.writeKept.beginPacket))

theorem State.Canon.landRemote {q f data} (h : s.Canon) : (s.landRemote q f data).Canon := by
  unfold State.landRemote
  extract_lets gone s0 p m bs n addr put
  have h0 : s0.Canon := h.serve.set
  have hput : OnLeft State.Canon put := .ite h0.enginePut (.inl h0)
  clear_value put
  refine .ite h0.failChunk ?_
  cases hput with
  | inl h1 => exact .ite h1.setChunkBit.updQ h1.setChunkBit.updQ.askRemote
  | inr => exact h0.failChunk

theorem State.Canon.execChunkLanding {q data} (h : s.Canon) : OutCanon (Machine.execChunkLanding q data s) := by
  unfold Machine.execChunkLanding
  split
  · exact .next h
  · split
    · exact .next h
    · refine .ite (.next h) (.ite (.next h.landRemote) ?_)
      split
      next e'' =>
        exact .next (h.landLocal.of_inl e'')
      · exact .next h.failChunk

theorem State.Canon.finishPacket {k f} (h : s.Canon) : (s.finishPacket k f).Canon := by
  unfold State.finishPacket
  dsimp only
  refine .ite h.endPacket ?_
  split
  · exact h.endPacket.setQState
  · exact h.endPacket.abandonAll.asyncFault

theorem State.Canon.execPacketCompletion {q} (h : s.Canon) : OutCanon (Machine.execPacketCompletion q s) := by
  unfold Machine.execPacketCompletion
  split
  · exact .next h
  · split
    · exact .next h
    · exact .next (.ite h.finishPacket h)

theorem State.Canon.execFencePacket {q} (h : s.Canon) : OutCanon (Machine.execFencePacket q s) := by
  unfold Machine.execFencePacket
  split
  · exact .next h
  · split
    · exact .next h
    · exact .ite (.next h.finishPacket) (.next h)

theorem State.Canon.execQueueRestart {vf q} (h : s.Canon) : OutCanon (Machine.execQueueRestart vf q s) := by
  unfold Machine.execQueueRestart
  split
  · exact .next h
  · exact .next (.ite h.setQState h)

theorem State.Canon.execRemoteTimeout {q} (h : s.Canon) : OutCanon (Machine.execRemoteTimeout q s) := by
  unfold Machine.execRemoteTimeout
  split
  · exact .next h
  · split
    · exact .next h
    · exact .ite (.next h.failChunk) (.next h)

/-! ### Remote -/

theorem State.Canon.remoteFail {pkg} (h : s.Canon) : (s.remoteFail pkg).Canon :=
  h.set.send

theorem State.Canon.putHomes {pas bs} (h : s.Canon) : (s.putHomes pas bs).Canon :=
  h.foldl fun _ _ ht => ht.homeWrite

theorem State.Canon.unpark (h : s.Canon) : s.unpark.Canon :=
  h.set

theorem State.Canon.cuffRead {pkg part mode i} (h : s.Canon) : (s.cuffRead pkg part mode i).Canon := by
  unfold State.cuffRead
  exact .ite h.serve.send (.send (.ite h.serve.setPart.unpark h.serve))

theorem State.Canon.execRemoteRequestIngress {pkg spart mode dpart addr len mx data} (h : s.Canon) : OutCanon
    (Machine.execRemoteRequestIngress pkg spart mode dpart addr len mx data s) := by
  unfold Machine.execRemoteRequestIngress
  dsimp only
  refine .ite (.next h.cuffRead) (.ite (.next h.serve.remoteFail) ?_)
  refine .ite ?_ ?_
  · split
    · exact .next h.serve.remoteFail
    · exact .ite (.next h.serve.remoteFail) (.next h.serve.send)
  · refine .ite ?_ ?_
    · split
      · exact .next h.serve.remoteFail
      · exact .next h.serve.putHomes.send
    · split
      · exact .ite (.next h.serve.remoteFail) (.next h.serve.putHomes.send)
      · exact .next h.serve.remoteFail

theorem State.Canon.lease {pa} (h : s.Canon) : (s.lease pa).Canon := by
  unfold State.lease
  dsimp only
  refine .ite h ?_
  refine .set ?_
  split
  · exact .ite h.recall.recall h.recall
  · exact h.recall

theorem State.Canon.leaseWrite {pa bs} (h : s.Canon) : (s.leaseWrite pa bs).Canon :=
  h.set

theorem State.Canon.execRemoteAtomicIngress {pkg spart dpart addr op w64 x b2} (h : s.Canon) : OutCanon
    (Machine.execRemoteAtomicIngress pkg spart dpart addr op w64 x b2 s) := by
  unfold Machine.execRemoteAtomicIngress
  dsimp only
  refine .ite (.next h.serve.remoteFail) ?_
  split
  · refine .ite (.next h.serve.remoteFail) ?_
    split
    · exact .next h
    · exact .next h
    · exact .next (.send (.ite h.serve.passGate.lease.cuffs.leaseWrite h.serve.passGate.lease))
  · exact .next h.serve.remoteFail

theorem State.Canon.execLeaseExpiry {line} (h : s.Canon) : OutCanon (Machine.execLeaseExpiry line s) := by
  unfold Machine.execLeaseExpiry
  split
  · exact .next h
  · exact .next (.ite h.recall h)

/-! ### Coll -/

theorem State.Canon.updHead {ch f} (h : s.Canon) : (s.updHead ch f).Canon := by
  unfold State.updHead
  dsimp only
  split
  · exact h
  · exact h.setChan

theorem State.Canon.sendColl {ch c pkg kind base vals} (h : s.Canon) : (s.sendColl ch c pkg kind base vals).Canon := by
  unfold State.sendColl
  exact h.foldl fun _ _ ht => ht.send

theorem State.Canon.give {ch c pkg kind base vals} (h : s.Canon) : (s.give ch c pkg kind base vals).Canon := by
  unfold State.give
  exact .ite h (.ite h.updHead h.sendColl)

theorem State.Canon.giveEach {ch c kind base vals} (h : s.Canon) : (s.giveEach ch c kind base vals).Canon :=
  h.foldl fun _ _ ht => ht.give

theorem State.Canon.collFail {ch st} (h : s.Canon) : (s.collFail ch st).Canon := by
  unfold State.collFail
  dsimp only
  split
  · exact h
  · exact .ite (h.updHead.foldl fun _ _ ht => .ite ht ht.send) h.updHead

theorem State.Canon.putVals {part c base vals} (h : s.Canon) : OnLeft State.Canon (s.putVals part c base vals) := by
  unfold State.putVals
  split
  · exact .inr
  · exact .inl h.putHomes

theorem State.Canon.sendRange {ch c j vals} (h : s.Canon) : (s.sendRange ch c j vals).Canon := by
  unfold State.sendRange
  exact .ite (h.foldl fun _ _ ht => ht.give) h.giveEach

theorem State.Canon.normDone {ch} (h : s.Canon) : (s.normDone ch).Canon := by
  unfold State.normDone
  split
  · exact h
  · exact .ite h.giveEach h

theorem State.Canon.shardDone {ch} (h : s.Canon) : (s.shardDone ch).Canon := by
  unfold State.shardDone
  split
  · exact h
  · refine .ite h ?_
    extract_lets part lo vals s1 s2
    have h1 : s1.Canon := h.updHead
    have h2 : OnLeft State.Canon s2 := by
      refine .ite (.inl h1.giveEach) ?_
      split
      · exact .inr
      next e =>
        have ht := h1.putVals.of_inl e
        exact .ite (.inl ht.give) (.inl ht)
    clear_value s2
    cases h2 with
    | inl ht => exact .ite ht.give.normDone ht
    | inr => exact h1.collFail

theorem State.Canon.moreTiles {ch} (h : s.Canon) : (s.moreTiles ch).Canon := by
  unfold State.moreTiles
  dsimp only
  split
  · exact h
  · refine .ite h ?_
    split
    · exact h.collFail
    · exact h.updHead.sendRange.shardDone

theorem State.Canon.takeFlit {ch f rank} (h : s.Canon) : (s.takeFlit ch f rank).Canon := by
  unfold State.takeFlit
  dsimp only
  split
  · exact h
  · refine .ite h (.ite h.collFail ?_)
    refine .ite h.collFail ?_
    refine .ite ?_ h.updHead.shardDone.normDone
    split
    · exact h.updHead.collFail
    next e' =>
      exact h.updHead.putVals.of_inl e'

theorem State.Canon.useHeld {ch} (h : s.Canon) : (s.useHeld ch).Canon := by
  unfold State.useHeld
  dsimp only
  split
  · exact h
  · exact h.set.foldl fun _ _ ht => ht.takeFlit

theorem State.Canon.beginColl {ch seq} (h : s.Canon) : (s.beginColl ch seq).Canon := by
  unfold State.beginColl
  dsimp only
  split
  · exact h
  · split
    · exact h.updHead.collFail
    · refine .ite h.updHead.useHeld (.ite h.updHead.useHeld.moreTiles.shardDone ?_)
      split
      · exact h.updHead.useHeld.collFail
      · exact h.updHead.useHeld.updHead.sendRange.shardDone

theorem State.Canon.execCollectiveHead {ch} (h : s.Canon) : OutCanon (Machine.execCollectiveHead ch s) := by
  unfold Machine.execCollectiveHead
  dsimp only
  split
  · exact .next h
  · refine .ite (.next h) (.ite ?_ ?_)
    · exact .next h.moreTiles
    · exact .ite (.next h.updHead.collFail) (.ite (.next h.updHead.collFail) (.next h.updHead.setPart.beginColl))

theorem State.Canon.rejectFlit {ch f} (h : s.Canon) : (s.rejectFlit ch f).Canon := by
  unfold State.rejectFlit
  dsimp only
  refine .ite ?_ ?_
  · refine .send ?_
    refine h.setPart.foldl fun _ _ ht => ?_
    split
    · exact .ite ht.updHead ht
    · exact ht
  · refine h.setPart.foldl fun _ _ ht => ?_
    split
    · exact .ite ht.updHead ht
    · exact ht

theorem State.Canon.flitIn {ch f} (h : s.Canon) : (s.flitIn ch f).Canon := by
  unfold State.flitIn
  dsimp only
  refine .ite h.rejectFlit ?_
  split
  · exact h.takeFlit
  · exact .ite h.set h

theorem State.Canon.execCollectiveResend {id} (h : s.Canon) : OutCanon (Machine.execCollectiveResend id s) := by
  unfold Machine.execCollectiveResend
  dsimp only
  split
  · exact .next h
  · exact .ite (.next h.set) (.ite (.next h) (.next h.set.send))

theorem State.Canon.endColl {ch c st} (h : s.Canon) : (s.endColl ch c st).Canon := by
  unfold State.endColl
  dsimp only
  refine .setChan ?_
  refine .ite ?_ ?_
  · refine .homeWrite ?_
    split
    · exact .ite h.putHomes h
    · exact h
  · split
    · exact .ite h.putHomes h
    · exact h

theorem State.Canon.execCollectiveCompletion {ch} (h : s.Canon) : OutCanon (Machine.execCollectiveCompletion ch s) := by
  unfold Machine.execCollectiveCompletion
  dsimp only
  split
  · exact .next h
  · split
    · exact .next h.endColl
    · refine .ite (.next h) (.ite (.next h.endColl) ?_)
      split
      · exact .next h.collFail
      next e'' =>
        exact .next (h.putVals.of_inl e'').endColl

theorem State.Canon.restartColls {part} (h : s.Canon) : (s.restartColls part).Canon := by
  unfold State.restartColls
  dsimp only
  refine h.set.foldl fun _ _ ht => ?_
  split
  · exact ht
  · exact .ite ht (.ite ht.updHead.updHead ht.updHead.beginColl)

/-! ### Hbm -/

theorem State.Canon.execHbmCorrectedError {stack ch bank row col} (h : s.Canon) : OutCanon
    (Machine.execHbmCorrectedError stack ch bank row col s) := by
  unfold Machine.execHbmCorrectedError
  exact .ite (.next h) (.next (.ite h.setHbm.set.interrupt h.setHbm.set))

theorem State.Canon.writeRepair {stack idx} (h : s.Canon) : (s.writeRepair stack idx).Canon := by
  unfold State.writeRepair
  dsimp only
  refine .ite h ?_
  refine .ite ?_ h.setHbm.appendEvent
  split
  · exact h
  · exact h.setHbm.appendEvent

theorem State.Canon.writeHb {stack off val} (h : s.Canon) : (s.writeHb stack off val).Canon := by
  unfold State.writeHb
  dsimp only
  split
  · exact h.setHbm
  · exact .ite h.writeRepair h
  · exact h

/-! ### Host -/

theorem State.Canon.execHostSyncApertureWrite {vf off data} (h : s.Canon) : OutCanon (Machine.execHostSyncApertureWrite vf off data s) := by
  unfold Machine.execHostSyncApertureWrite
  split
  · exact .next h
  · exact .next h.homeWrite

theorem State.Canon.hostGets {bs} (h : s.Canon) : (s.hostGets bs).Canon :=
  h.set

theorem State.Canon.execHostSyncAtomic {vf off size x} (h : s.Canon) : OutCanon (Machine.execHostSyncAtomic vf off size x s) := by
  unfold Machine.execHostSyncAtomic
  dsimp only
  split
  · exact .next h
  · refine .ite (.next h) ?_
    split
    · exact .next h
    · exact .next h
    · exact .next h.passGate.homeWrite.hostGets

theorem State.Canon.refuseRelease {vf} (h : s.Canon) : (s.refuseRelease vf).Canon := by
  unfold State.refuseRelease
  exact h.setVf

theorem State.Canon.execTaskReleaseWrite {vf off data} (h : s.Canon) : OutCanon (Machine.execTaskReleaseWrite vf off data s) := by
  unfold Machine.execTaskReleaseWrite
  dsimp only
  split
  · exact .next h.refuseRelease
  · refine .ite (.next h.refuseRelease) (.ite (.next h.refuseRelease) ?_)
    split
    · refine .ite (.next h.refuseRelease) ?_
      split
      · exact .next h.setVf
      next e₁ =>
        exact .next (h.decDep.of_some e₁).setVf
    · exact .next h.refuseRelease

theorem State.Canon.execHostCxlMemAccess {wr off len data} (h : s.Canon) : OutCanon (Machine.execHostCxlMemAccess wr off len data s) := by
  unfold Machine.execHostCxlMemAccess
  dsimp only
  refine .ite ?_ ?_
  · exact .next h
  · exact .ite (.next (h.foldl fun _ _ ht => .ite ht ht.homeWrite)) (.next (h.foldl fun _ _ ht => ht.recall).hostGets)

theorem State.Canon.hostRead {v off n} (h : s.Canon) : (s.hostRead v off n).Canon := by
  unfold State.hostRead
  exact h.hostGets

theorem State.Canon.poke {val} (h : s.Canon) : (s.poke val).Canon :=
  h.foldl fun _ _ ht => .ite ht.setMc ht

theorem State.Canon.execDieOvertempStop {die temp} (h : s.Canon) : OutCanon (Machine.execDieOvertempStop die temp s) := by
  unfold Machine.execDieOvertempStop
  exact .ite (.next h) (.next (h.setDie.foldl fun _ _ ht => ht.terminate).set)

theorem State.Canon.writeFusemin {val} (h : s.Canon) : (s.writeFusemin val).Canon := by
  unfold State.writeFusemin
  exact .ite h.set h

/-! ### Boot -/

theorem State.Canon.extend {i data} (h : s.Canon) : (s.extend i data).Canon :=
  h.set

theorem State.Canon.hostAct {a} (h : s.Canon) : (s.hostAct a).Canon := by
  cases a with
  | read => exact h.hostRead
  | put => exact h.hostWrite
  | refuse | serve => exact h.set
  | ask => exact h.interrupt
  | measure => exact .ite h.extend h

theorem State.Canon.extendOver {i what} (h : s.Canon) : (s.extendOver i what).Canon :=
  h.extend

theorem State.Canon.loadBody {a bs} (h : s.Canon) : (s.loadBody a bs).Canon := by
  unfold State.loadBody
  exact .ite h.setMc (.ite h.homeWrite h)

theorem State.Canon.retireAgain {c} (h : s.Canon) : (s.retireAgain c).Canon := by
  unfold State.retireAgain
  exact h.setDie

theorem State.Canon.runImage {img} (h : s.Canon) : (s.runImage img).Canon := by
  unfold State.runImage
  exact h.extend.extendOver.loadBody.setMc.set.appendEvent.foldl fun _ _ ht => ht.retireAgain

theorem State.Canon.waitImage (h : s.Canon) : s.waitImage.Canon :=
  h.set

theorem State.Canon.romPort {p} (h : s.Canon) : (s.romPort p).Canon := by
  unfold State.romPort
  exact h.setPort.noteHeats.interrupt.set

theorem State.Canon.tryTargets {ts} (h : s.Canon) : (s.tryTargets ts).Canon := by
  induction ts generalizing s with
  | nil => exact h.waitImage
  | cons t ts ih =>
    have h1 : (if t.1.toNat / 2 ^ 58 < 32 then s.romPort (t.1.toNat / 2 ^ 58) else s).Canon := .ite h.romPort h
    exact .ite (ih h) (.ite h1.runImage (ih h1))

theorem State.Canon.coldState  : s.coldState.Canon := by
  unfold State.coldState
  exact State.Canon.reset.set

theorem State.Canon.execPackageReset {selftest images} : OutCanon (Machine.execPackageReset selftest images s) := by
  unfold Machine.execPackageReset
  exact .ite (.next State.Canon.coldState.setMc.set) (.next State.Canon.coldState.extendOver.tryTargets)

theorem State.Canon.respond {r} (h : s.Canon) : (s.respond r).Canon :=
  h.set

theorem State.Canon.spdmError {ver code} (h : s.Canon) : (s.spdmError ver code).Canon :=
  h.respond

theorem State.Canon.spdm {req ready f} (h : s.Canon) (hf : ∀ x, (f x).Canon) : (s.spdm req ready f).Canon := by
  unfold State.spdm
  exact .ite h.spdmError (.ite h.spdmError (hf _))

theorem State.Canon.logA {req resp} (h : s.Canon) : (s.logA req resp).Canon :=
  h.set.respond

theorem State.Canon.logB {req resp} (h : s.Canon) : (s.logB req resp).Canon :=
  h.set.respond

theorem State.Canon.execSpdmGetMeasurements {req} (h : s.Canon) : OutCanon (Machine.execSpdmGetMeasurements req s) :=
  .next (h.spdm fun _ => .ite h.spdmError (.ite h.set.respond h.set.respond))

/-! ### Nirrax -/

theorem State.Canon.setNxRing {spine g} (h : s.Canon) : (s.setNxRing spine g).Canon := by
  unfold State.setNxRing
  exact .ite h.set h.set

theorem State.Canon.queueCall {part e who} (h : s.Canon) : (s.queueCall part e who).Canon := by
  unfold State.queueCall
  exact h.setPart

theorem State.Canon.engineCall {part e} (h : s.Canon) : (s.engineCall part e).Canon := by
  unfold State.engineCall
  exact .ite h.queueCall h.setPart

theorem State.Canon.suspect {pkg cause part} (h : s.Canon) : (s.suspect pkg cause part).Canon := by
  unfold State.suspect
  exact .ite h h.set

theorem State.Canon.compareDig {part slot} (h : s.Canon) : (s.compareDig part slot).Canon := by
  unfold State.compareDig
  exact .ite h.suspect h

theorem State.Canon.evalTrim {part} (h : s.Canon) : (s.evalTrim part).Canon := by
  unfold State.evalTrim
  exact h.setPart

theorem State.Canon.heartEntry {slot part e} (h : s.Canon) : (s.heartEntry slot part e).Canon := by
  unfold State.heartEntry
  exact .ite h h.setPart.compareDig.evalTrim

theorem State.Canon.callExpels {pkg} (h : s.Canon) : (s.callExpels pkg).Canon :=
  h.foldl fun _ _ ht => .ite ht.engineCall.set ht

theorem State.Canon.endSysPub {o} (h : s.Canon) : (s.endSysPub o).Canon := by
  unfold State.endSysPub
  exact .ite h.set h.set

theorem State.Canon.applyHeart {f} (h : s.Canon) : (s.applyHeart f).Canon := by
  unfold State.applyHeart
  extract_lets n out ended _ s0 s1 mine s2 s3
  have h1 : s1.Canon := h.set.foldl fun _ _ ht => ht.endSysPub
  have h2 : s2.Canon := .ite (h1.foldl fun _ _ ht => ht.callExpels) h1
  have h3 : s3.Canon := .ite h2.suspect h2
  exact h3.foldl fun _ _ ht => ht.heartEntry

theorem State.Canon.applySuspicion {f} (h : s.Canon) : (s.applySuspicion f).Canon := by
  unfold State.applySuspicion
  exact .ite h (.ite h.set h.set)

theorem State.Canon.applyRepair {spine f} (h : s.Canon) : (s.applyRepair spine f).Canon := by
  unfold State.applyRepair
  exact .ite h h.setNxRing

theorem State.Canon.writePub {part body} (h : s.Canon) : (s.writePub part body).Canon := by
  unfold State.writePub
  dsimp only
  split
  · exact h
  · exact h.foldl fun _ _ ht => .ite ht ht.homeWriteMask

theorem State.Canon.applyPub {f} (h : s.Canon) : (s.applyPub f).Canon := by
  unfold State.applyPub
  dsimp only
  refine .ite ?_ ?_
  · exact .endTasks (.settle (.set (.ite (h.set.foldl fun _ _ ht => .ite ht.writePub ht) h.set)))
  · exact .ite (h.set.foldl fun _ _ ht => .ite ht.writePub ht) h.set

theorem State.Canon.placeCall {part origin e} (h : s.Canon) : (s.placeCall part origin e).Canon := by
  unfold State.placeCall
  dsimp only
  refine .ite h (.ite ?_ ?_)
  · refine .set ?_
    split
    · exact h.homeWrite.setPart.updGrp
    · exact h.homeWrite.setPart
  · split
    · exact h.homeWrite.setPart.updGrp
    · exact h.homeWrite.setPart

theorem State.Canon.applyCalls {f} (h : s.Canon) : (s.applyCalls f).Canon := by
  unfold State.applyCalls
  exact h.placeCall.placeCall

theorem State.Canon.applyTrim {f} (h : s.Canon) : (s.applyTrim f).Canon := by
  unfold State.applyTrim
  exact .ite h.setPart h

theorem State.Canon.landed {f} (h : s.Canon) : (s.landed f).Canon := by
  unfold State.landed
  exact .ite (.ite h.set.endSysPub h.set) h

theorem State.Canon.applyLeaf {f} (h : s.Canon) : (s.applyLeaf f).Canon := by
  unfold State.applyLeaf
  extract_lets relayed _ s0
  have h0 : s0.Canon := .ite h.set h
  split
  · exact h0.applyHeart
  · exact h0.applySuspicion
  · exact h0.applyRepair
  · split
    · extract_lets s1
      have h1 : s1.Canon := .ite h0.set h0
      exact .ite h1.set h1
    · split
      · exact h0.applyPub.landed
      · exact h0.applyCalls
      · exact h0.applyTrim
      · exact h0

theorem State.Canon.applySpine {f} (h : s.Canon) : (s.applySpine f).Canon := by
  unfold State.applySpine
  dsimp only
  split
  · exact h.applyRepair
  · exact .ite h h.set

theorem State.Canon.drainNx {spine fuel} (h : s.Canon) : (State.drainNx spine fuel s).Canon := by
  induction fuel generalizing s with
  | zero => exact h
  | succ fuel ih =>
    rw [State.drainNx]
    dsimp only
    split
    · exact h
    · exact ih (.ite h.setNxRing.applySpine h.setNxRing.applyLeaf)

theorem State.Canon.mergeNx {spine fs} (h : s.Canon) : (s.mergeNx spine fs).Canon := by
  unfold State.mergeNx
  exact h.setNxRing.drainNx.setNxRing

theorem State.Canon.takeCalls {room} (h : s.Canon) : (s.takeCalls room).2.Canon := by
  unfold State.takeCalls
  dsimp only
  refine h.foldlSnd fun _ _ ht => ?_
  split
  · exact ht
  · exact ht.setPart

theorem State.Canon.possess {spine again fs} (h : s.Canon) : (s.possess spine again fs).Canon := by
  unfold State.possess
  exact h.setPort.setNxRing.mergeNx

theorem State.Canon.noteAgain {spine again} (h : s.Canon) : (s.noteAgain spine again).Canon := by
  unfold State.noteAgain
  exact h.setNxRing.set

theorem State.Canon.leafTurn (h : s.Canon) : s.leafTurn.Canon := by
  unfold State.leafTurn
  extract_lets again s1 n r2 room2 r3 room3 r4 room4 s2
  have h2 : s2.Canon := h.noteAgain.set
  split
  next e =>
    exact (State.Canon.of_snd h2.takeCalls e).set.possess

theorem State.Canon.spineTurn (h : s.Canon) : s.spineTurn.Canon := by
  unfold State.spineTurn
  exact h.noteAgain.set.possess

theorem State.Canon.execCapReceived (h : s.Canon) : OutCanon (Machine.execCapReceived s) := by
  unfold Machine.execCapReceived
  dsimp only
  refine .next (.ite ?_ ?_)
  · exact .spineTurn (.ite h.leafTurn h)
  · exact .ite h.leafTurn h

theorem State.Canon.regenerate {spine} (h : s.Canon) : (s.regenerate spine).Canon := by
  unfold State.regenerate
  exact .ite h h.set.possess

theorem State.Canon.seeRegenerated {spine fs r} (h : s.Canon) : (s.seeRegenerated spine fs r).Canon := by
  unfold State.seeRegenerated
  exact .ite h h.suspect

theorem State.Canon.execPossessionClose {port frames} (h : s.Canon) : OutCanon (Machine.execPossessionClose port frames s) := by
  unfold Machine.execPossessionClose
  exact .ite (.next h) (.ite (.next h.setNxRing) (.next h.setNxRing.seeRegenerated.setNxRing.mergeNx))

theorem State.Canon.execExpelFallback {pkg} (h : s.Canon) : OutCanon (Machine.execExpelFallback pkg s) := by
  unfold Machine.execExpelFallback
  dsimp only
  split
  · exact .next h
  · exact .next (.ite h.callExpels h)

theorem State.Canon.commission {spine} (h : s.Canon) : (s.commission spine).Canon := by
  unfold State.commission
  exact h.setNxRing.set

theorem State.Canon.writeNxctl {v} (h : s.Canon) : (s.writeNxctl v).Canon := by
  unfold State.writeNxctl
  dsimp only
  exact .ite (.commission (.ite h.set.commission h.set)) (.ite h.set.commission h.set)

/-! ### Calls -/

theorem State.Canon.objectWord {d a b two f} (h : s.Canon) (hf : ∀ x y z w u v, OutCanon (f x y z w u v)) : OutCanon
    (Machine.objectWord d a b two f s) := by
  unfold Machine.objectWord
  dsimp only
  refine h.joinWord fun _ _ _ => ?_
  refine .ite (.next h.raise) (.ite (.next h.raiseFor) ?_)
  refine .ite (.next h.raiseFor) ?_
  split
  · exact .next h.raise
  · exact hf _ _ _ _ _ _

theorem State.Canon.positionWord {d a two f} (h : s.Canon) (hf : ∀ x y z w, OutCanon (f x y z w)) : OutCanon
    (Machine.positionWord d a two f s) := by
  unfold Machine.positionWord
  dsimp only
  refine h.joinWord fun _ _ _ => ?_
  exact .ite (.next h.raise) (.ite (.next h.raiseFor) (.ite (.next h.raise) (hf _ _ _ _)))

theorem State.Canon.noteSeen {b g p} (h : s.Canon) : (s.noteSeen b g p).Canon :=
  h.updGrp

theorem State.Canon.afterCall {bid} (h : s.Canon) : (s.afterCall bid).Canon := by
  unfold State.afterCall
  split
  · exact h
  · exact .ite h.resume h

theorem State.Canon.fromIssue {b g w} (h : s.Canon) : (s.fromIssue b g w).Canon := by
  unfold State.fromIssue
  split
  · split
    · exact .ite h.updGrp h
    · exact h
  · exact h

theorem State.Canon.sinceIssue {o} (h : OutCanon o) : OutCanon (s.sinceIssue o) := by
  cases h with
  | next ht =>
    unfold State.sinceIssue
    split
    next e =>
      cases e
      split
      · split
        · exact .next (.ite ht.fromIssue ht)
        · exact .next ht
      · exact .next ht
    · exact .next ht
  | fault | refused =>
    unfold State.sinceIssue
    split
    next e =>
      cases e
    · constructor

theorem State.Canon.execRocall {d a b} (h : s.Canon) : OutCanon (Machine.execRocall d a b s) := by
  unfold Machine.execRocall
  dsimp only
  refine State.Canon.sinceIssue ?_
  refine h.joinWord fun _ _ _ => ?_
  refine .ite ?_ ?_
  · split
    · exact .next h
    · exact .next h.updGrp.noteSeen.retire.giveAll.afterCall
  · refine h.objectWord fun _ _ _ _ _ _ => ?_
    split
    next e =>
      exact .next (h.pubFirst.of_inl e)
    next e =>
      exact .ite (.next (h.pubFirst.of_inr e).wait) (.next (h.pubFirst.of_inr e).queueCall.updGrp.wait)

theorem State.Canon.execRowait {d a} (h : s.Canon) : OutCanon (Machine.execRowait d a s) :=
  h.positionWord fun _ _ _ _ => .ite (.next h.wait) (.next h.noteSeen.retire.giveAll.giveAll)

theorem State.Canon.execRoread {d a b} (h : s.Canon) : OutCanon (Machine.execRoread d a b s) :=
  h.objectWord fun _ _ _ _ _ _ => .ite (.next h.wait) (.next h.noteSeen.retire.giveAll.giveAll)

theorem State.Canon.openCuff {part k} (h : s.Canon) : (s.openCuff part k).Canon := by
  unfold State.openCuff
  exact h.homeWrite.setPart

theorem State.Canon.closeCuff {part} (h : s.Canon) : (s.closeCuff part).Canon := by
  unfold State.closeCuff
  exact h.setPart.unpark

theorem State.Canon.callClone {part pkg before now} (h : s.Canon) : (s.callClone part pkg before now).Canon := by
  unfold State.callClone
  dsimp only
  refine .ite h ?_
  split
  · split
    · exact .ite h.set h.set.engineCall
    · exact h.set
  · exact h.set

theorem State.Canon.membChange {part pos e m0 m1} (h : s.Canon) : (s.membChange part pos e m0 m1).Canon := by
  unfold State.membChange
  extract_lets base adm p s1 s2 s3 _ s4 x s5
  have h1 : s1.Canon := .ite h h.setPart
  have h2 : s2.Canon := .ite h1.openCuff h1
  have h3 : s3.Canon := .ite h2.closeCuff h2
  have h4 : s4.Canon := .ite h3 h3.setPart
  have h5 : s5.Canon := .ite h4.endSysPub h4
  exact .ite h5.callClone h5

theorem State.Canon.applyNext {part} (h : s.Canon) : (s.applyNext part).Canon := by
  unfold State.applyNext
  dsimp only
  split
  · exact h
  · exact .ite (h.homeWrite.setPart.membChange.foldl fun _ _ ht => ht.compareDig) h.homeWrite.setPart.membChange

theorem State.Canon.applyIf {part obj meth} (h : s.Canon) : (s.applyIf part obj meth).Canon := by
  unfold State.applyIf
  split
  · exact h
  · exact .ite h.applyNext h

theorem State.Canon.swap {part f} (h : s.Canon) : (s.swap part f).Canon := by
  unfold State.swap
  exact .ite h.setPart.restartColls.closeCuff h.setPart.restartColls

theorem State.Canon.execGenerationFence {part} (h : s.Canon) : OutCanon (Machine.execGenerationFence part s) := by
  unfold Machine.execGenerationFence
  dsimp only
  split
  · exact .next h
  · exact .next (.ite h.swap h)
  · exact .ite (.next h) (.next h.publishPart.queuePubs.setPart)

theorem State.Canon.askStripe {part i} (h : s.Canon) : (s.askStripe part i).Canon := by
  unfold State.askStripe
  dsimp only
  split
  · exact h.setPart.send
  · exact h

theorem State.Canon.joinStripe {part i data} (h : s.Canon) : (s.joinStripe part i data).Canon := by
  unfold State.joinStripe
  exact .ite h (h.foldlFst fun _ _ ht => ht.homeWrite).setPart

theorem State.Canon.joinImage {part data} (h : s.Canon) : (s.joinImage part data).Canon := by
  unfold State.joinImage
  exact .ite h h.setPart

theorem State.Canon.joinEntry {part data} (h : s.Canon) : (s.joinEntry part data).Canon := by
  unfold State.joinEntry
  exact .ite h h.homeWrite.setPart

/-- The definition is unfolded before it is applied: against the applied one the kernel would run the match. -/
theorem State.Canon.joinAsk {part} (h : s.Canon) : (s.joinAsk part).Canon := by
  generalize hf : State.joinAsk = f
  delta State.joinAsk at hf
  subst hf
  beta_reduce
  extract_lets p n ds
  split
  · exact h.askStripe
  · exact h
  · exact .ite h (.ite h.setPart.send (.ite h.setPart.send h))

theorem State.Canon.execJoinClone {part stripe status kind data} (h : s.Canon) : OutCanon
    (Machine.execJoinClone part stripe status kind data s) := by
  unfold Machine.execJoinClone
  dsimp only
  refine .ite (.next h) ?_
  split
  · exact .next (.ite h.joinStripe (.ite h.askStripe h))
  · exact .next (.ite h.joinImage h.setPart)
  · exact .next (.ite h.joinEntry h.setPart)
  · exact .next (.ite h.setPart.engineCall h)
  · refine .next ?_
    split
    · exact .ite h.setPart.engineCall h
    · exact h
  · exact .next (.ite h.joinAsk h)

theorem State.Canon.loadObjects {part} (h : s.Canon) : (s.loadObjects part).Canon :=
  h.setPart.foldl fun _ _ ht => .ite ht ht.setPart

theorem State.Canon.measureCfg {part c} (h : s.Canon) : (s.measureCfg part c).Canon :=
  h.extendOver

theorem State.Canon.execPartitionConfiguration {part cfg} (h : s.Canon) : OutCanon (Machine.execPartitionConfiguration part cfg s) := by
  unfold Machine.execPartitionConfiguration
  exact .ite (.next h) (.ite (.next h.set.setPart.measureCfg)
    (.next (h.set.foldl fun _ _ ht => ht.setVf).setPart.loadObjects.setPart.measureCfg))

/-! ### Optics -/

theorem State.Canon.portOff {p} (h : s.Canon) : (s.portOff p).Canon := by
  unfold State.portOff
  exact h.setPort.portState

theorem State.Canon.portFollow {p} (h : s.Canon) : (s.portFollow p).Canon := by
  unfold State.portFollow
  dsimp only
  refine .ite (.ite h h.portOff) (.ite ?_ ?_)
  · exact .ite h.setPort h
  · exact .ite h.portState (.ite h.portState h)

theorem State.Canon.writeCtl {p val} (h : s.Canon) : (s.writeCtl p val).Canon := by
  unfold State.writeCtl
  dsimp only
  refine .portFollow ?_
  split
  · exact h.setPort.portOff
  · exact h.setPort.portUp
  · exact h.setPort

theorem State.Canon.execOptLit {p mon} (h : s.Canon) : OutCanon (Machine.execOptLit p mon s) := by
  unfold Machine.execOptLit
  dsimp only
  split
  · exact .next h
  · refine .ite ?_ ?_
    · exact .ite (.next h.setPort.setPort.portState) (.ite (.next h.setPort.setPort.portState.portFollow) (.next h.setPort))
    · exact .next h

theorem State.Canon.execOptLitTimeout {p} (h : s.Canon) : OutCanon (Machine.execOptLitTimeout p s) := by
  unfold Machine.execOptLitTimeout
  dsimp only
  split
  · exact .ite (.next h.setPort.portState) (.next h)
  · exact .next h

theorem State.Canon.execOptLaserFailure {p laser mon} (h : s.Canon) : OutCanon (Machine.execOptLaserFailure p laser mon s) := by
  unfold Machine.execOptLaserFailure
  exact .ite (.next h.setPort.portState) (.next h)

theorem State.Canon.writeLockctl {p val} (h : s.Canon) : (s.writeLockctl p val).Canon := by
  unfold State.writeLockctl
  exact .ite h h.setPort

theorem State.Canon.execOptSweepDone {p readings} (h : s.Canon) : OutCanon (Machine.execOptSweepDone p readings s) := by
  unfold Machine.execOptSweepDone
  exact .ite (.next h.setPort.noteHeats) (.next h)

theorem State.Canon.writeTrainctl {p val} (h : s.Canon) : (s.writeTrainctl p val).Canon := by
  unfold State.writeTrainctl
  exact .ite h h.setPort

theorem State.Canon.execOptTrainDone {p peer eyes} (h : s.Canon) : OutCanon (Machine.execOptTrainDone p peer eyes s) := by
  unfold Machine.execOptTrainDone
  exact .ite (.next h.setPort) (.next h)

theorem State.Canon.spareRecord {p old new_} (h : s.Canon) : (s.spareRecord p old new_).Canon := by
  unfold State.spareRecord
  exact .ite h.appendEvent h

theorem State.Canon.writeLanemap {p val} (h : s.Canon) : (s.writeLanemap p val).Canon := by
  unfold State.writeLanemap
  exact .ite h (.ite h.setPort h.setPort.spareRecord)

theorem State.Canon.loseLambda {p l} (h : s.Canon) : (s.loseLambda p l).Canon := by
  unfold State.loseLambda
  dsimp only
  exact .ite h (.ite h.setPort.interrupt.appendEvent (.ite h.setPort.portState.interrupt.appendEvent h.portState))

theorem State.Canon.execWavelengthLoss {p lam} (h : s.Canon) : OutCanon (Machine.execWavelengthLoss p lam s) := by
  unfold Machine.execWavelengthLoss
  dsimp only
  refine .next (.ite ?_ ?_)
  · exact h
  · exact .ite h.setPort.loseLambda (.ite h.setPort.loseLambda h)

theorem State.Canon.guardMap {p} (h : s.Canon) : (s.guardMap p).Canon := by
  unfold State.guardMap
  dsimp only
  split
  · exact h
  · exact .ite (.ite h.setPort.portUp.spareRecord h.setPort.portUp) h.setPort.spareRecord

theorem State.Canon.guardPort {p} (h : s.Canon) : (s.guardPort p).Canon := by
  unfold State.guardPort
  dsimp only
  refine .setPort ?_
  split
  · exact h.loseLambda
  · exact h.guardMap

theorem State.Canon.execRotorSlot (h : s.Canon) : OutCanon (Machine.execRotorSlot s) := by
  unfold Machine.execRotorSlot
  exact .ite (.next (h.foldl fun _ _ ht => ht.guardPort)) (.next (h.foldl fun _ _ ht => ht.guardPort).set.resolve.slotSends)

theorem State.Canon.writePort {p off val} (h : s.Canon) : (s.writePort p off val).Canon := by
  unfold State.writePort
  dsimp only
  refine .ite h.writeCtl (.ite (.ite h h.setPort) ?_)
  refine .ite h.writeLockctl (.ite ?_ ?_)
  · exact h.writeTrainctl
  · exact .ite h.writeLanemap (.ite h.setPort h)

/-! ### Io -/

theorem State.Canon.writeXs {off v} (h : s.Canon) : (s.writeXs off v).Canon := by
  unfold State.writeXs
  dsimp only
  split
  · exact h.set
  · exact h.writeRail
  · exact h.set
  · exact h.writeFusemin
  · exact h.set
  · exact h

theorem State.Canon.writeMc {m off v} (h : s.Canon) : (s.writeMc m off v).Canon := by
  unfold State.writeMc
  dsimp only
  split
  · exact h.setMc
  · exact h.setMc
  · exact h.setMc
  · exact h.poke
  · exact h

theorem OutCanon.outState {o} (h : OutCanon o) (h' : s.Canon) : (outState o s).Canon := by
  cases h with
  | next ht => exact ht
  | fault | refused => exact h'

theorem State.Canon.writeDc {d off v} (h : s.Canon) : (s.writeDc d off v).Canon := by
  unfold State.writeDc
  dsimp only
  split
  · exact h.writeRetire
  · exact h.writeRetire
  · exact h.setDie
  · exact h.setDie
  · exact h.setDie
  · exact .ite (h.execDebugStopRequest.outState h) h
  · exact h.setDie
  · exact h

theorem State.Canon.writeNxdesc {p v} (h : s.Canon) : (s.writeNxdesc p v).Canon := by
  unfold State.writeNxdesc
  exact .ite h (.ite h.set.setPart.measureCfg h.set)

theorem State.Canon.writeFe {off v} (h : s.Canon) : (s.writeFe off v).Canon := by
  unfold State.writeFe
  dsimp only
  refine .ite (.ite h h.set) (.ite (h.execFeChpartWrite.outState h) ?_)
  refine .ite h.writeNxdesc ?_
  split
  · exact h.writeSched
  · exact h.set
  · exact h.execFeTbldataWrite.outState h
  · exact h.setPort.set
  · exact h.execFeKeydataWrite.outState h
  · exact h.execFeKeyuseWrite.outState h
  · exact h.set
  · exact h.writeNxctl
  · exact h

theorem State.Canon.writeReg {a v} (h : s.Canon) : (s.writeReg a v).Canon := by
  unfold State.writeReg
  split
  · exact h.writeXs
  · exact h.writeMc
  · exact h.writeDc
  · exact h.writeHb
  · exact h.writePort
  · exact h
  · exact h.writeFe
  · exact h

theorem State.Canon.mgmtWord {f} (h : s.Canon) (hf : ∀ x y, OutCanon (f x y)) : OutCanon (Machine.mgmtWord f s) := by
  unfold Machine.mgmtWord
  split
  · exact .ite (.next h.retire) (hf _ _)
  · split
    · exact .fault
    · exact .next h.raise
  · exact .fault

theorem State.Canon.execLdio {d a i} (h : s.Canon) : OutCanon (Machine.execLdio d a i s) := by
  unfold Machine.execLdio
  refine h.mgmtWord fun _ _ => ?_
  split
  · exact .next h.raise
  · exact .next h.setSregs.retire

theorem State.Canon.execStio {d a i} (h : s.Canon) : OutCanon (Machine.execStio d a i s) := by
  unfold Machine.execStio
  refine h.mgmtWord fun _ _ => ?_
  split
  · exact .next h.raise
  · exact .ite (.next h.retire.writeReg) (.next h.raise)

/-! ### Waits -/

theorem State.Canon.timedWord {i} (h : s.Canon) : OnSome OutCanon (Machine.timedWord i s) := by
  unfold Machine.timedWord
  split
  · exact .some h.execVld
  · exact .some h.execVldsp
  · exact .some h.execVldt
  · exact .some h.execVldx
  · exact .some h.execVstx
  · exact .some h.execPrswait
  · exact .some h.execSld
  · exact .some h.execMbind
  · exact .some h.execMrowLines
  · exact .some h.execCwait
  · exact .some h.execRocall
  · exact .some h.execRowait
  · exact .some h.execRoread
  · exact .none

theorem State.Canon.waitingWord {ag} (h : s.Canon) : OnSome (·.2.1.Canon) (s.waitingWord ag) := by
  unfold State.waitingWord
  split
  next e' =>
    exact .ite (.some (h.nextOf.of_word e')) .none
  · exact .none

theorem State.Canon.unqueue {b g} (h : s.Canon) : (s.unqueue b g).Canon := by
  unfold State.unqueue
  dsimp only
  split
  · exact .ite h.setPart.updGrp h
  · exact h

theorem State.Canon.giveUp {ag code} (h : s.Canon) : (s.giveUp ag code).Canon := by
  unfold State.giveUp
  split
  next t _ e =>
    have ht : t.Canon := h.waitingWord.of_some e
    refine .raiseAt ?_
    split
    · split
      · exact ht.unhold.updGrp
      · exact ht
    · exact ht.unqueue
    · exact ht
  · exact h

theorem State.Canon.execPresenceWaitResume {blk grp} (h : s.Canon) : OutCanon (Machine.execPresenceWaitResume blk grp s) := by
  unfold Machine.execPresenceWaitResume
  split
  · exact .next h
  · split
    next e' =>
      split
      next e'' =>
        exact (h.waitingWord.of_some e').timedWord.of_some e''
      · exact .next h
    · exact .next h

theorem State.Canon.execPresenceTimeout {blk grp} (h : s.Canon) : OutCanon (Machine.execPresenceTimeout blk grp s) := by
  unfold Machine.execPresenceTimeout
  split
  · exact .next h.giveUp
  · exact .next h

theorem State.Canon.execClusterJoinTimeout {blk grp} (h : s.Canon) : OutCanon (Machine.execClusterJoinTimeout blk grp s) := by
  unfold Machine.execClusterJoinTimeout
  exact .ite (.next h.giveUp) (.next h)

/-! ### Dispatch -/

theorem State.Canon.exec {i} (h : s.Canon) : OutCanon (exec i s) := by
  cases i with
  | clauseHeader => exact h.execClauseHeader
  | sadd | ssub | smul | smulh | sand | sor | sxor | sshl | sshr | ssra | smin | smax =>
    simp only [Machine.exec]
    delta execSadd execSsub execSmul execSmulh execSand execSor execSxor execSshl execSshr execSsra execSmin execSmax
    exact h.scalar2
  | smov | smovi | slui | ssel | sclk =>
    simp only [Machine.exec]
    delta execSmov execSmovi execSlui execSsel execSclk
    exact h.scalarWord fun _ => .next h.setSregs.retire
  | scmp => exact h.execScmp
  | sfadd | sfmul | sfma =>
    simp only [Machine.exec]
    delta execSfadd execSfmul execSfma
    exact h.scalarFloat
  | sld => exact h.execSld
  | sst => exact h.execSst
  | qfwd => exact h.execQfwd
  | qret => exact h.execQret
  | sgid => exact h.execSgid
  | vadd | vsub | vmul | vmulh | vaddc | vmin | vmax | vshl | vshr | vsra | vbfx | vlea =>
    simp only [Machine.exec]
    delta execVadd execVsub execVmul execVmulh execVaddc execVmin execVmax execVshl execVshr execVsra execVbfx execVlea
    exact h.lane2
  | vmac | vbfi =>
    simp only [Machine.exec]
    delta execVmac execVbfi
    exact h.lane3
  | vabs | vneg | vpopc | vclz | vbrev =>
    simp only [Machine.exec]
    delta execVabs execVneg execVpopc execVclz execVbrev
    exact h.lane1
  | vand | vor | vxor | vfadd | vfsub | vfmul | vfmin | vfmax | vfadd2 | vfmul2 =>
    simp only [Machine.exec]
    delta execVand execVor execVxor execVfadd execVfsub execVfmul execVfmin execVfmax execVfadd2 execVfmul2
    exact h.part2
  | vnot | vfclass | vfrcp | vfrsq | vfsqrt | vfexp2 | vflog2 | vftanh =>
    simp only [Machine.exec]
    delta execVnot execVfclass execVfrcp execVfrsq execVfsqrt execVfexp2 execVflog2 execVftanh
    exact h.part1
  | vsel | vfma | vfma2 =>
    simp only [Machine.exec]
    delta execVsel execVfma execVfma2
    exact h.part3
  | vcmp | vfcmp =>
    simp only [Machine.exec]
    delta execVcmp execVfcmp
    exact h.wideCmp
  | vmov | vmovi | vlui | vqsum | vballot =>
    simp only [Machine.exec]
    delta execVmov execVmovi execVlui execVqsum execVballot
    exact h.wideReg
  | vcvt => exact h.execVcvt
  | vsrnd | vmxq =>
    simp only [Machine.exec]
    delta execVsrnd execVmxq
    exact h.wideCtl
  | vrng => exact h.execVrng
  | vpack =>
    simp only [Machine.exec]
    delta execVpack
    exact h.wideWord
  | vunpk | vplane | vmxscale | vbcast | vred | vscan | vsys =>
    simp only [Machine.exec]
    delta execVunpk execVplane execVmxscale execVbcast execVred execVscan execVsys
    exact h.wideSel
  | vqswap | vqbcast | vshfl =>
    simp only [Machine.exec]
    delta execVqswap execVqbcast execVshfl
    exact h.exchange
  | pand | por | pxor | pnot | pmov | pset =>
    simp only [Machine.exec]
    delta execPand execPor execPxor execPnot execPmov execPset
    exact h.predWord
  | vqpop => exact h.execVqpop
  | vqpush => exact h.execVqpush
  | vld => exact h.execVld
  | vst | vstsp =>
    simp only [Machine.exec]
    delta execVst execVstsp
    exact h.storeWord
  | vldsp => exact h.execVldsp
  | vldt => exact h.execVldt
  | vldx => exact h.execVldx
  | vstx => exact h.execVstx
  | vpref => exact h.execVpref
  | prsclr | prstest =>
    simp only [Machine.exec]
    delta execPrsclr execPrstest
    exact h.runWord fun _ _ _ => .next h.updBlk.retire
  | prswait => exact h.execPrswait
  | phase => exact h.execPhase
  | memoryAccessCompletion => exact h.execMemoryAccessCompletion
  | presenceWaitResume => exact h.execPresenceWaitResume
  | presenceTimeout => exact h.execPresenceTimeout
  | divergenceStarvation => exact h.execDivergenceStarvation
  | groupPromotion =>
    simp only [Machine.exec]
    delta execGroupPromotion
    exact .next (.ite h.promote h)
  | bra => exact h.execBra
  | bru => exact h.execBru
  | jmpi => exact h.execJmpi
  | call => exact h.execCall
  | ret => exact h.execRet
  | enrol | rejoin | strike =>
    simp only [Machine.exec]
    delta execEnrol execRejoin execStrike
    exact h.joinWord fun _ _ _ => .next h.retire.updGrp
  | spawn => exact h.execSpawn
  | exit => exact h.execExit
  | yield =>
    simp only [Machine.exec]
    delta execYield
    exact h.joinWord fun _ _ _ => .next h.set.retire.updGrp
  | nop => exact h.execNop
  | fork => exact h.execFork
  | rdv =>
    simp only [Machine.exec]
    delta execRdv
    exact h.joinWord fun _ _ _ => .ite (.next h.wait) (.next h.retire)
  | barar => exact h.execBarar
  | barwt => exact h.execBarwt
  | barsync => exact h.execBarsync
  | msync => exact h.execMsync
  | cljoin => exact h.execCljoin
  | clleave => exact h.execClleave
  | clslot => exact h.execClslot
  | clusterJoinTimeout => exact h.execClusterJoinTimeout
  | atadd => exact h.execAtadd
  | atinc => exact h.execAtinc
  | atbadd => exact h.execAtbadd
  | atmin => exact h.execAtmin
  | atmax => exact h.execAtmax
  | atand => exact h.execAtand
  | ator => exact h.execAtor
  | atxor => exact h.execAtxor
  | atxchg => exact h.execAtxchg
  | atcas => exact h.execAtcas
  | atld => exact h.execAtld
  | atred => exact h.execAtred
  | tkdec =>
    simp only [Machine.exec]
    delta execTkdec
    exact h.depWord fun _ _ _ _ ht => ht.decDep
  | tkadd =>
    simp only [Machine.exec]
    delta execTkadd
    exact h.depWord fun _ _ _ _ ht => ht.addDep
  | tkmake => exact h.execTkmake
  | tktake => exact h.execTktake
  | rocall => exact h.execRocall
  | rowait => exact h.execRowait
  | roread => exact h.execRoread
  | rotrim =>
    simp only [Machine.exec]
    delta execRotrim
    exact h.positionWord fun _ _ _ _ => .next h.set.retire.giveAll
  | cpost =>
    simp only [Machine.exec]
    delta execCpost
    exact h.postWord fun _ _ _ _ ht => .next ht.claimAndPlace
  | cpostTry => exact h.execCpostTry
  | cwait => exact h.execCwait
  | ctest => exact h.execCtest
  | cfence => exact h.execCfence
  | crec => exact h.execCrec
  | cabort => exact h.execCabort
  | ccoll => exact h.execCcoll
  | cgen => exact h.execCgen
  | trap => exact h.execTrap
  | tret =>
    simp only [Machine.exec]
    delta execTret
    exact h.privWord fun _ _ => .next h.tret
  | csrr => exact h.execCsrr
  | csrw => exact h.execCsrw
  | ctxsave => exact h.execCtxsave
  | ctxload => exact h.execCtxload
  | mbpost => exact h.execMbpost
  | mbpoll => exact h.execMbpoll
  | halt => exact h.execHalt
  | tlbinv => exact h.execTlbinv
  | ldio => exact h.execLdio
  | stio => exact h.execStio
  | wfi =>
    simp only [Machine.exec]
    delta execWfi
    exact h.mgmtWord fun _ _ => .next (.ite h.retire h.retire.setMc)
  | wfiWake | mcIpendClear =>
    simp only [Machine.exec]
    delta execWfiWake execMcIpendClear
    exact .next (.ite h.setMc h)
  | mcfgIndex | mcfgArea | mcfgAfmt | mcfgHi =>
    simp only [Machine.exec]
    delta execMcfgIndex execMcfgArea execMcfgAfmt execMcfgHi
    exact State.Canon.matrixWord (fun _ => h.putBlk)
  | mcfgGrp =>
    simp only [Machine.exec]
    delta execMcfgGrp
    exact State.Canon.matrixWord (fun _ => .ite h.putBlk (.next h.raise))
  | mbind => exact h.execMbind
  | mrowLines => exact h.execMrowLines
  | mrowTslots => exact h.execMrowTslots
  | mzero | mstamp =>
    simp only [Machine.exec]
    delta execMzero execMstamp
    exact State.Canon.matrixWord (fun _ => .ite (.next h.raise) h.putBlk)
  | mmul | mmulw =>
    simp only [Machine.exec]
    delta execMmul execMmulw
    exact h.mulWord
  | mdrain => exact h.execMdrain
  | mdrainCh => exact h.execMdrainCh
  | mdrainf => exact h.execMdrainf
  | msignal => exact h.execMsignal
  | mwaitb => exact h.execMwaitb
  | mloop => exact h.execMloop
  | mjmp => exact h.execMjmp
  | mstampRetire => exact h.execMstampRetire
  | mend =>
    simp only [Machine.exec]
    delta execMend
    exact State.Canon.matrixWord (fun _ => .next h.retire.endRun)
  | mnop =>
    simp only [Machine.exec]
    delta execMnop
    exact State.Canon.matrixWord (fun _ => .next h.retire)
  | haltBroadcast => exact h.execHaltBroadcast
  | debugStopBreakpoint => exact h.execDebugStopBreakpoint
  | debugStopRequest => exact h.execDebugStopRequest
  | traceSample => exact h.execTraceSample
  | preemptionSave => exact h.execPreemptionSave
  | blockPlacement =>
    simp only [Machine.exec]
    delta execBlockPlacement
    exact .next (.ite h.goOnSaving.placeAll h)
  | dcRetireWrite =>
    simp only [Machine.exec]
    delta execDcRetireWrite
    exact .next (.ite h.writeRetire h)
  | tlbWalk => exact h.execTlbWalk
  | replayGauntletAdmit => exact h.execReplayGauntletAdmit
  | replayGateTimeout => exact h.execReplayGateTimeout
  | packetBegin => exact h.execPacketBegin
  | chunkLanding => exact h.execChunkLanding
  | packetCompletion => exact h.execPacketCompletion
  | fencePacket => exact h.execFencePacket
  | abandonedSlotWrite =>
    simp only [Machine.exec]
    delta execAbandonedSlotWrite
    exact .next h.writeKept
  | queueRestart => exact h.execQueueRestart
  | taskReleaseWrite => exact h.execTaskReleaseWrite
  | hostSyncAtomic => exact h.execHostSyncAtomic
  | hostCxlMemAccess => exact h.execHostCxlMemAccess
  | hbmCorrectedError => exact h.execHbmCorrectedError
  | classifierEntryExpiry =>
    simp only [Machine.exec]
    delta execClassifierEntryExpiry
    exact .next (.ite h.setHbm h)
  | hbmRepair =>
    simp only [Machine.exec]
    delta execHbmRepair
    exact .next (.ite h.writeRepair h)
  | hbmRepairMoveDone =>
    simp only [Machine.exec]
    delta execHbmRepairMoveDone
    exact .next h.setHbm
  | mcPoke =>
    simp only [Machine.exec]
    delta execMcPoke
    exact .next (.ite h.poke h)
  | packageReset => exact State.Canon.execPackageReset
  | mgmtImageReceived =>
    simp only [Machine.exec]
    delta execMgmtImageReceived
    exact .next (.ite h.runImage h)
  | spdmGetVersion =>
    simp only [Machine.exec]
    delta execSpdmGetVersion
    exact .next h.set.logA
  | spdmGetCapabilities | spdmNegotiateAlgorithms =>
    simp only [Machine.exec]
    delta execSpdmGetCapabilities execSpdmNegotiateAlgorithms
    exact .next (h.spdm fun _ => h.set.logA)
  | spdmGetDigests =>
    simp only [Machine.exec]
    delta execSpdmGetDigests
    exact .next (h.spdm fun _ => h.logB)
  | spdmGetCertificate =>
    simp only [Machine.exec]
    delta execSpdmGetCertificate
    exact .next (h.spdm fun _ => .ite h.spdmError h.logB)
  | spdmChallenge =>
    simp only [Machine.exec]
    delta execSpdmChallenge
    exact .next (h.spdm fun _ => .ite h.spdmError h.set.respond)
  | spdmGetMeasurements => exact h.execSpdmGetMeasurements
  | lifetimeMonthEnd =>
    simp only [Machine.exec]
    delta execLifetimeMonthEnd
    exact .next h.set.countHours.monthRecords.newMonth
  | throttle => exact h.execThrottle
  | dieOvertempStop => exact h.execDieOvertempStop
  | xsFuseminWrite =>
    simp only [Machine.exec]
    delta execXsFuseminWrite
    exact .next h.writeFusemin
  | optCtlBits | optStateOffRequest | optStateUpRequest =>
    simp only [Machine.exec]
    delta execOptCtlBits execOptStateOffRequest execOptStateUpRequest
    exact .next (.ite h.writeCtl h)
  | optLit => exact h.execOptLit
  | optLitTimeout => exact h.execOptLitTimeout
  | optLaserFailure => exact h.execOptLaserFailure
  | optLockSweep =>
    simp only [Machine.exec]
    delta execOptLockSweep
    exact .next (.ite h.writeLockctl h)
  | optSweepDone => exact h.execOptSweepDone
  | optTrain =>
    simp only [Machine.exec]
    delta execOptTrain
    exact .next (.ite h.writeTrainctl h)
  | optTrainDone => exact h.execOptTrainDone
  | optLanemapWrite =>
    simp only [Machine.exec]
    delta execOptLanemapWrite
    exact .next (.ite h.writeLanemap h)
  | wavelengthLoss => exact h.execWavelengthLoss
  | keyRequestThreshold => exact h.execKeyRequestThreshold
  | keyExhausted =>
    simp only [Machine.exec]
    delta execKeyExhausted
    exact .next (.ite h.portState h)
  | feKeyuseWrite => exact h.execFeKeyuseWrite
  | feKeydataWrite => exact h.execFeKeydataWrite
  | feSchedLock =>
    simp only [Machine.exec]
    delta execFeSchedLock
    exact .next h.writeSched
  | feTbldataWrite => exact h.execFeTbldataWrite
  | feChpartWrite => exact h.execFeChpartWrite
  | rotorSlot => exact h.execRotorSlot
  | burstReceived => exact h.execBurstReceived
  | remoteRequestIngress => exact h.execRemoteRequestIngress
  | remoteAtomicIngress => exact h.execRemoteAtomicIngress
  | leaseExpiry => exact h.execLeaseExpiry
  | remoteTimeout => exact h.execRemoteTimeout
  | collectiveHead => exact h.execCollectiveHead
  | collectiveFlitIngress | collectiveAbortReceived =>
    simp only [Machine.exec]
    delta execCollectiveFlitIngress execCollectiveAbortReceived
    exact .next h.serve.flitIn
  | collectiveResend => exact h.execCollectiveResend
  | collectiveCompletion => exact h.execCollectiveCompletion
  | capReceived => exact h.execCapReceived
  | capRegeneration =>
    simp only [Machine.exec]
    delta execCapRegeneration
    exact .next h.regenerate.regenerate
  | possessionClose => exact h.execPossessionClose
  | nirraxGapTimeout =>
    simp only [Machine.exec]
    delta execNirraxGapTimeout
    exact .next (.ite h.set h)
  | expelFallback => exact h.execExpelFallback
  | callApply =>
    simp only [Machine.exec]
    delta execCallApply
    exact .next h.applyNext
  | membershipExpel | membershipAdmit | membershipReplace | membershipClone | membershipAbort | membershipAddspare | membershipGetgen |
    trainctlStep | trainctlSetscale | trainctlSetclip | trainctlSetgrowth | trainctlGetscale | trainctlGetstep =>
    simp only [Machine.exec]
    delta execMembershipExpel execMembershipAdmit execMembershipReplace execMembershipClone execMembershipAbort execMembershipAddspare
      execMembershipGetgen execTrainctlStep execTrainctlSetscale execTrainctlSetclip execTrainctlSetgrowth execTrainctlGetscale
      execTrainctlGetstep
    exact .next h.applyIf
  | generationFence => exact h.execGenerationFence
  | cuffPageCopy =>
    simp only [Machine.exec]
    delta execCuffPageCopy
    exact .next h.cuffCopy
  | joinClone => exact h.execJoinClone
  | partitionConfiguration => exact h.execPartitionConfiguration
  | managementPortFrame =>
    simp only [Machine.exec]
    delta execManagementPortFrame
    exact .next h.set.interrupt
  | hostSyncApertureWrite => exact h.execHostSyncApertureWrite
  | registerUnitRetirement => exact h.execRegisterUnitRetirement
  | softError => exact h.execSoftError
  | powerRemoval =>
    simp only [Machine.exec]
    delta execPowerRemoval
    exact .next State.Canon.coldState.set

/-! ### Turn -/

theorem State.Canon.runAgent {ag} (h : s.Canon) : OutCanon (s.runAgent ag) := by
  unfold State.runAgent
  split
  next e =>
    exact (h.nextOf.of_word e).exec
  next e =>
    exact .next (h.nextOf.of_done e)

theorem State.Canon.park {m} (h : s.Canon) : (s.park m).Canon := by
  unfold State.park
  split
  · exact h.set
  · exact h.set
  · exact h

theorem State.Canon.orStall {o} (h : s.Canon) (h' : OutCanon o) : OutCanon (s.orStall o) := by
  unfold State.orStall
  exact .ite (.next h) h'

theorem State.Canon.ranked {r} (h : s.Canon) : (s.ranked r).Canon := by
  unfold State.ranked
  exact .ite h.set h.set

theorem State.Canon.ownCycle (h : s.Canon) : s.ownCycle.Canon := by
  unfold State.ownCycle
  exact h.set

theorem State.Canon.atRank {r} (h : s.Canon) : (s.atRank r).Canon := by
  unfold State.atRank
  split
  · exact h.ranked
  · exact h

theorem State.Canon.unlessDue {r go} (h : s.Canon) (hf : ∀ u, u.Canon → OutCanon (go u)) : OutCanon (s.unlessDue r go) := by
  unfold State.unlessDue
  dsimp only
  split
  · exact .ite (hf _ h) (State.Canon.exec (.set (.ite h.ranked h)))
  · exact hf _ h

theorem State.Canon.goGroup {b g} (h : s.Canon) : OutCanon (s.goGroup b g) :=
  h.atRank.unlessDue fun _ ht => .ite ht.runAgent ht.runAgent

theorem State.Canon.markReady {b g scalar} (h : s.Canon) : (s.markReady b g scalar).Canon := by
  unfold State.markReady
  exact h.updGrp

theorem State.Canon.noteSide {b g scalar} (h : s.Canon) : (s.noteSide b g scalar).Canon := by
  unfold State.noteSide
  dsimp only
  split
  next e =>
    refine .ite h (.ite ?_ ?_)
    · exact .ite (h.runAgent.of_next e) h
    · exact .ite h.markReady h
  · exact h

theorem State.Canon.noteGroup {b g} (h : s.Canon) : (s.noteGroup b g).Canon := by
  unfold State.noteGroup
  dsimp only
  split
  · refine .noteSide ?_
    split
    · exact .ite h h.noteSide
    · exact h
  · split
    · exact .ite h h.noteSide
    · exact h

theorem State.Canon.noteWaits {c q} (h : s.Canon) : (s.noteWaits c q).Canon :=
  h.foldl fun _ _ ht => ht.noteGroup

theorem State.Canon.quadTurn {c q} (h : s.Canon) : OutCanon (s.quadTurn c q) := by
  unfold State.quadTurn
  dsimp only
  split
  · refine State.Canon.goGroup ?_
    split
    · exact .ite h.noteWaits.updQuad h.noteWaits.pick
    · exact h.noteWaits.pick
  · refine .next ?_
    split
    · exact .ite h.noteWaits.updQuad h.noteWaits.pick
    · exact h.noteWaits.pick

theorem State.Canon.streamTurn {c copy} (h : s.Canon) : OutCanon (s.streamTurn c copy) := by
  unfold State.streamTurn
  dsimp only
  split
  · exact h.atRank.unlessDue fun _ ht => ht.runAgent
  · exact .next h

theorem State.Canon.memTurn {c} (h : s.Canon) : OutCanon (s.memTurn c) := by
  unfold State.memTurn
  split
  · exact h.atRank.unlessDue fun _ ht => ht.exec
  · exact h.exec
  · exact .next h

theorem State.Canon.roundTurn (h : s.Canon) : OutCanon s.roundTurn := by
  unfold State.roundTurn
  dsimp only
  refine h.set.orStall ?_
  refine .ite (State.Canon.runAgent (.ite h.set.endTasks h.set)) ?_
  split
  · exact h.set.streamTurn
  · exact h.set.streamTurn
  · exact h.set.memTurn
  · exact h.set.quadTurn

theorem State.Canon.move {m} (h : s.Canon) : OutCanon (s.move m) := by
  unfold State.move
  split
  · exact h.set.exec
  · exact h.runAgent
  · exact h.quadTurn
  · exact .next h.fetchEarly
  · exact .next h.landSector
  · exact .next h.hostAct

theorem State.Canon.turn (h : s.Canon) : OutCanon s.turn := by
  unfold State.turn
  dsimp only
  split
  · exact h.unlessDue fun _ ht => ht.roundTurn
  · exact State.Canon.unlessDue (.ite h.set.ownCycle h.set.atRank) fun _ ht => ht.set.park.orStall ht.set.move

/-- A step is a turn of the machine. -/
theorem State.Canon.step (h : s.Canon) (e : Machine.step s = .next t) : t.Canon := h.turn.of_next e

end

/-- Settles O58: a step is a turn of the machine, and every operation of which a turn consists keeps both memories canonical. -/
theorem stepsKeepMemoryCanonical : Obligations.StepsKeepMemoryCanonical := by
  unfold Obligations.StepsKeepMemoryCanonical
  exact fun _ _ h e => State.canon_iff.1 ((State.canon_iff.2 h).step e)

end Sys2Proof.Machine

/-! ## Encoding and decoding (O56, O57)

One way each constructor's round trip stands in `Sys2Proof.Laws.RoundTrip`. The other way, the fields that a decoder reads from a word are put
together again: `bits_eq_sub` writes a field as a difference of two quotients of the word, so that the fields of a word add up by cancelling. -/

namespace Sys2Proof.Laws.RoundTrip

/-- Every instruction: the round trip of each constructor. -/
theorem statement (i : Instr) : Statement i := by
  cases i
  exacts [clauseHeader _ _ _ _ _ _ _ _ _, sadd _ _ _, ssub _ _ _, smul _ _ _, smulh _ _ _, sand _ _ _, sor _ _ _, sxor _ _ _, sshl _ _ _,
    sshr _ _ _, ssra _ _ _, smin _ _ _, smax _ _ _, smov _ _, smovi _ _, slui _ _ _, scmp _ _ _ _, ssel _ _ _ _, sfadd _ _ _, sfmul _ _ _,
    sfma _ _ _, sld _ _ _ _, sst _ _ _ _, qfwd _, qret _, sclk _, sgid _ _, vadd _ _ _ _ _, vsub _ _ _ _ _, vmul _ _ _ _ _,
    vmulh _ _ _ _ _, vmac _ _ _ _ _, vaddc _ _ _ _ _, vabs _ _ _ _, vneg _ _ _ _, vmin _ _ _ _ _, vmax _ _ _ _ _, vand _ _ _ _ _,
    vor _ _ _ _ _, vxor _ _ _ _ _, vnot _ _ _ _, vshl _ _ _ _ _, vshr _ _ _ _ _, vsra _ _ _ _ _, vpopc _ _ _ _, vclz _ _ _ _,
    vbrev _ _ _ _, vbfx _ _ _ _ _, vbfi _ _ _ _ _, vsel _ _ _ _ _, vcmp _ _ _ _ _, vmov _ _ _ _, vmovi _ _, vlui _ _, vlea _ _ _ _ _,
    vfadd _ _ _ _ _, vfsub _ _ _ _ _, vfmul _ _ _ _ _, vfma _ _ _ _ _, vfmin _ _ _ _, vfmax _ _ _ _, vfcmp _ _ _ _, vfclass _ _ _,
    vfrcp _ _ _, vfrsq _ _ _, vfsqrt _ _ _, vfexp2 _ _ _, vflog2 _ _ _, vftanh _ _ _, vfadd2 _ _ _ _ _, vfmul2 _ _ _ _ _, vfma2 _ _ _ _ _,
    vcvt _ _ _ _ _ _ _, vsrnd _ _ _ _ _, vrng _ _ _ _ _, vpack _ _ _ _ _, vunpk _ _ _ _ _, vplane _ _ _ _ _, vmxscale _ _ _ _ _,
    vmxq _ _ _ _ _, vqswap _ _ _ _ _, vqbcast _ _ _ _ _, vqsum _ _ _ _ _, vshfl _ _ _ _ _, vbcast _ _ _ _ _, vred _ _ _ _ _,
    vscan _ _ _ _ _, vballot _ _ _ _ _, vsys _ _ _ _ _, pand _ _ _, por _ _ _, pxor _ _ _, pnot _ _, pmov _ _, pset _ _, vqpop _ _ _,
    vqpush _ _, vld _ _ _ _ _, vst _ _ _ _ _, vldsp _ _ _ _ _, vstsp _ _ _ _ _, vldt _ _ _ _ _, vldx _ _ _ _ _, vstx _ _ _ _ _,
    vpref _ _ _ _, prsclr _ _ _, prswait _ _ _, prstest _ _ _ _, phase _, memoryAccessCompletion _ _, presenceWaitResume _ _,
    presenceTimeout _ _, divergenceStarvation _ _ _, groupPromotion _ _, bra _ _ _, bru _ _ _, jmpi _ _, call _, ret, enrol _, rejoin _,
    strike _, spawn _ _ _ _, exit, yield, nop, fork _, rdv _, barar _, barwt _, barsync _, msync _, cljoin _ _ _ _, clleave _ _,
    clslot _ _, clusterJoinTimeout _ _, atadd _ _ _ _, atinc _ _ _ _, atbadd _ _ _ _, atmin _ _ _ _, atmax _ _ _ _, atand _ _ _ _,
    ator _ _ _ _, atxor _ _ _ _, atxchg _ _ _ _, atcas _ _ _ _, atld _ _ _, atred _ _ _, tkdec _ _ _, tkadd _ _ _ _, tkmake _ _ _ _,
    tktake _ _, rocall _ _ _, rowait _ _, roread _ _ _, rotrim _ _, cpost _ _ _, cpostTry _ _ _ _, cwait _ _ _, ctest _ _ _ _,
    cfence _ _ _, crec _ _ _ _, cabort _ _ _, ccoll _ _, cgen _ _ _, trap _, tret, csrr _ _, csrw _ _, ctxsave _ _ _, ctxload _ _,
    mbpost _ _ _, mbpoll _ _ _, halt, tlbinv _ _, ldio _ _ _, stio _ _ _, wfi, wfiWake _, mcfgIndex _ _, mcfgArea _, mcfgAfmt _ _,
    mcfgGrp _, mcfgHi _ _, mbind _ _ _ _ _, mrowLines _ _ _ _ _, mrowTslots _ _ _ _ _, mzero _ _, mmul _ _ _ _ _ _, mmulw _ _ _ _ _,
    mdrain _ _ _ _ _ _, mdrainCh _ _, mdrainf _ _ _, msignal _, mwaitb _, mloop _ _, mjmp _, mstamp _ _, mstampRetire _, mend, mnop,
    haltBroadcast _, debugStopBreakpoint _ _, debugStopRequest _, traceSample _, preemptionSave _, blockPlacement _, dcRetireWrite _ _ _,
    tlbWalk _ _ _, replayGauntletAdmit _ _ _, replayGateTimeout _ _ _, packetBegin _, chunkLanding _ _, packetCompletion _, fencePacket _,
    abandonedSlotWrite _, queueRestart _ _, taskReleaseWrite _ _ _, hostSyncAtomic _ _ _ _, hostCxlMemAccess _ _ _ _,
    hbmCorrectedError _ _ _ _ _, classifierEntryExpiry _ _, hbmRepair _ _, hbmRepairMoveDone _, mcIpendClear _ _, mcPoke _ _,
    packageReset _ _, mgmtImageReceived _, spdmGetVersion _, spdmGetCapabilities _, spdmNegotiateAlgorithms _, spdmGetDigests _,
    spdmGetCertificate _, spdmChallenge _, spdmGetMeasurements _, lifetimeMonthEnd, throttle _ _ _, dieOvertempStop _ _, xsFuseminWrite _,
    optCtlBits _ _, optStateOffRequest _ _, optStateUpRequest _ _, optLit _ _, optLitTimeout _, optLaserFailure _ _ _, optLockSweep _ _,
    optSweepDone _ _, optTrain _ _, optTrainDone _ _ _, optLanemapWrite _ _, wavelengthLoss _ _, keyRequestThreshold _, keyExhausted _,
    feKeyuseWrite _, feKeydataWrite _, feSchedLock _, feTbldataWrite _, feChpartWrite _ _, rotorSlot, burstReceived _ _ _ _ _ _ _ _,
    remoteRequestIngress _ _ _ _ _ _ _ _, remoteAtomicIngress _ _ _ _ _ _ _ _, leaseExpiry _, remoteTimeout _, collectiveHead _,
    collectiveFlitIngress _ _ _ _ _ _ _ _ _ _ _ _, collectiveResend _, collectiveAbortReceived _ _ _ _ _, collectiveCompletion _,
    capReceived, capRegeneration, possessionClose _ _, nirraxGapTimeout, expelFallback _, callApply _, membershipExpel _,
    membershipAdmit _, membershipReplace _, membershipClone _, membershipAbort _, membershipAddspare _, membershipGetgen _,
    trainctlStep _, trainctlSetscale _, trainctlSetclip _, trainctlSetgrowth _, trainctlGetscale _, trainctlGetstep _, generationFence _,
    cuffPageCopy _ _, joinClone _ _ _ _ _, partitionConfiguration _ _, managementPortFrame _, hostSyncApertureWrite _ _ _,
    registerUnitRetirement _, softError _ _ _ _ _, powerRemoval]

/-- A word of class `c` (a header's where there is none) is the word of the well-formed instruction `i`. -/
def IsWordOf (c : Option Nat) (w : Nat) (i : Instr) : Prop := i.wf = true ∧ classOf i = c ∧ encodeWord i = some w

/-- A field is what its two ends leave of the word: without the remainder of `bits`, so that the fields of a word add up by cancelling. -/
theorem bits_eq_sub (w hi lo : Nat) (h : lo ≤ hi + 1) :
    (bits w hi lo : Int) = (w / 2 ^ lo : Nat) - 2 ^ (hi + 1 - lo) * (w / 2 ^ (hi + 1) : Nat) := by
  have hq : w / 2 ^ (hi + 1) = w / 2 ^ lo / 2 ^ (hi + 1 - lo) := by
    rw [Nat.div_div_eq_div_mul, ← Nat.pow_add, Nat.add_sub_cancel' h]
  rw [hq, bits, eq_sub_iff_add_eq]
  exact_mod_cast Nat.mod_add_div _ _

theorem bits_eq_iff (w hi lo n : Nat) (h : lo ≤ hi + 1) :
    bits w hi lo = n ↔ w / 2 ^ lo = n + 2 ^ (hi + 1 - lo) * (w / 2 ^ (hi + 1)) := by
  zify [bits_eq_sub w hi lo h]
  exact sub_eq_iff_eq_add

/-- What a candidate that is not refused says: no reserved bit is set, and the fields are legal. -/
theorem isWordOf_of_checked {c : Option Nat} {r : Bool} {w v : Nat} {i j : Instr} (h : checked r i = .ok j) (hc : classOf i = c)
    (he : encodeWord i = some v) (hv : r = false → (v : Int) = w) : IsWordOf c w j := by
  unfold checked at h
  split at h
  · cases h
  next hr =>
    split at h
    next hwf =>
      cases h
      exact ⟨hwf, hc, he.trans (congrArg some (Int.ofNat.inj (hv (by simpa using hr))))⟩
    · cases h

theorem anyBits_cons_eq_false {w hi lo : Nat} {r : List (Nat × Nat)} :
    anyBits w ((hi, lo) :: r) = false ↔ bits w hi lo = 0 ∧ anyBits w r = false := by
  simp [anyBits]

/-- A decoder's row that also asks for the value of a fixed field. -/
theorem guarded_eq_ok {c : Prop} [Decidable c] {o : Except DecodeErr Instr} {e : DecodeErr} {i : Instr} :
    (if c then o else .error e) = .ok i ↔ c ∧ o = .ok i := by
  split <;> simp_all

/-- A decoder's row that refuses some words before it looks at their fields. -/
theorem unless_eq_ok {c : Prop} [Decidable c] {o : Except DecodeErr Instr} {e : DecodeErr} {i : Instr} :
    (if c then .error e else o) = .ok i ↔ ¬c ∧ o = .ok i := by
  split <;> simp_all

theorem decodeS_isWordOf {w : Nat} {i : Instr} (h : decodeS w = .ok i) : IsWordOf (some 0) w i := by
  unfold decodeS at h
  split at h
  case h_27 => cases h
  all_goals
    refine isWordOf_of_checked h rfl rfl fun hr => ?_
    simp (disch := decide) only [anyBits_cons_eq_false, bits_eq_iff, Nat.reducePow, Nat.reduceAdd, Nat.reduceSub] at hr
    push_cast (disch := decide) [bits_eq_sub]
    omega

theorem decodeW_isWordOf {w : Nat} {i : Instr} (h : decodeW w = .ok i) : IsWordOf (some 1) w i := by
  unfold decodeW at h
  split at h
  case h_71 => cases h
  all_goals
    refine isWordOf_of_checked h rfl rfl fun hr => ?_
    simp (disch := decide) only [anyBits_cons_eq_false, bits_eq_iff, Nat.reducePow, Nat.reduceAdd, Nat.reduceSub] at hr
    push_cast (disch := decide) [bits_eq_sub]
    omega

theorem decodeF_isWordOf {w : Nat} {i : Instr} (h : decodeF w = .ok i) : IsWordOf (some 6) w i := by
  unfold decodeF at h
  split at h
  case h_15 => cases h
  all_goals
    refine isWordOf_of_checked h rfl rfl fun hr => ?_
    simp (disch := decide) only [anyBits_cons_eq_false, bits_eq_iff, Nat.reducePow, Nat.reduceAdd, Nat.reduceSub] at hr
    push_cast (disch := decide) [bits_eq_sub]
    omega

theorem decodeP_isWordOf {w : Nat} {i : Instr} (h : decodeP w = .ok i) : IsWordOf (some 7) w i := by
  unfold decodeP at h
  split at h
  case h_14 => cases h
  all_goals
    refine isWordOf_of_checked h rfl rfl fun hr => ?_
    simp (disch := decide) only [anyBits_cons_eq_false, bits_eq_iff, Nat.reducePow, Nat.reduceAdd, Nat.reduceSub] at hr
    push_cast (disch := decide) [bits_eq_sub]
    omega

theorem decodeM_isWordOf {w : Nat} {i : Instr} (h : decodeM w = .ok i) : IsWordOf (some 2) w i := by
  unfold decodeM at h
  split at h
  case h_13 => cases h
  case' h_9 | h_10 | h_11 | h_12 => obtain ⟨hb, h⟩ := guarded_eq_ok.1 h
  all_goals
    refine isWordOf_of_checked h rfl rfl fun hr => ?_
    simp (disch := decide) only [anyBits_cons_eq_false, bits_eq_iff, Nat.reducePow, Nat.reduceAdd, Nat.reduceSub] at *
    push_cast (disch := decide) [bits_eq_sub]
    omega

theorem decodeY_isWordOf {w : Nat} {i : Instr} (h : decodeY w = .ok i) : IsWordOf (some 5) w i := by
  unfold decodeY at h
  split at h
  case h_28 => cases h
  case' h_24 | h_25 | h_26 | h_27 => obtain ⟨hb, h⟩ := guarded_eq_ok.1 h
  all_goals
    refine isWordOf_of_checked h rfl rfl fun hr => ?_
    simp (disch := decide) only [anyBits_cons_eq_false, bits_eq_iff, Nat.reducePow, Nat.reduceAdd, Nat.reduceSub] at *
    push_cast (disch := decide) [bits_eq_sub]
    omega

theorem decodeC_isWordOf {w : Nat} {i : Instr} (h : decodeC w = .ok i) : IsWordOf (some 4) w i := by
  unfold decodeC at h
  split at h
  case h_9 => cases h
  case' h_1 =>
    split at h
    case' isTrue hc => obtain ⟨hb, h⟩ := guarded_eq_ok.1 h
    case' isFalse hc => obtain ⟨hb, h⟩ := guarded_eq_ok.1 h
  all_goals
    refine isWordOf_of_checked h rfl rfl fun hr => ?_
    simp (disch := decide) only [anyBits_cons_eq_false, bits_eq_iff, Nat.reducePow, Nat.reduceAdd, Nat.reduceSub] at *
    push_cast (disch := decide) [bits_eq_sub]
    omega

theorem decodeX_isWordOf {w : Nat} {i : Instr} (h : decodeX w = .ok i) : IsWordOf (some 3) w i := by
  unfold decodeX at h
  split at h
  case h_16 => cases h
  case' h_1 =>
    obtain ⟨hz, h⟩ := unless_eq_ok.1 h
    rw [Bool.not_eq_true] at hz
    split at h
    case' isFalse hi =>
      split at h
      case' isFalse hh =>
        split at h
        case' isFalse ha =>
          split at h
          case' isTrue hf => obtain ⟨hb, h⟩ := guarded_eq_ok.1 h
          case' isFalse hf => obtain ⟨hb, h⟩ := guarded_eq_ok.1 h
  case' h_3 => split at h
  case' h_7 =>
    split at h
    case' isFalse hd => obtain ⟨⟨hb, hb'⟩, h⟩ := guarded_eq_ok.1 h
  case' h_13 => split at h
  all_goals
    refine isWordOf_of_checked h rfl rfl fun hr => ?_
    simp (disch := decide) only [anyBits_cons_eq_false, bits_eq_iff, Nat.reducePow, Nat.reduceAdd, Nat.reduceSub] at *
    push_cast (disch := decide) [bits_eq_sub]
    omega

theorem decodeHeader_isWordOf {w : Nat} {i : Instr} (hw : w < 2 ^ 32) (h : decodeHeader w = .ok i) : IsWordOf none w i := by
  unfold decodeHeader at h
  refine isWordOf_of_checked h rfl rfl fun hr => ?_
  simp (disch := decide) only [anyBits_cons_eq_false, bits_eq_iff, Nat.reducePow, Nat.reduceAdd, Nat.reduceSub] at *
  push_cast (disch := decide) [bits_eq_sub]
  omega

theorem decodeWord_isWordOf {c w : Nat} {i : Instr} (h : decodeWord c w = .ok i) : IsWordOf (some c) w i := by
  unfold decodeWord at h
  split at h
  · exact decodeS_isWordOf h
  · exact decodeW_isWordOf h
  · exact decodeM_isWordOf h
  · exact decodeX_isWordOf h
  · exact decodeC_isWordOf h
  · exact decodeY_isWordOf h
  · exact decodeF_isWordOf h
  · exact decodeP_isWordOf h
  · cases h

end Sys2Proof.Laws.RoundTrip

namespace Sys2Proof.Machine

/-- Settles O57: the round trip of every constructor one way; the other way, a word that decodes is put together again from its fields. -/
theorem encodedWordsReadBack : Obligations.EncodedWordsReadBack := by
  unfold Obligations.EncodedWordsReadBack
  refine ⟨fun i w hwf he => ?_, fun i c w _ h => Laws.RoundTrip.decodeWord_isWordOf h,
    fun i w hw h => Laws.RoundTrip.decodeHeader_isWordOf hw h⟩
  obtain ⟨hlt, hd⟩ := Laws.RoundTrip.statement i hwf w he
  refine ⟨hlt, fun c hc => ?_, fun hc => ?_⟩
  · simpa only [hc] using hd
  · simpa only [hc] using hd

/-- Settles O56: each word is decoded by evaluation. -/
theorem wordsDecodeAsPictured : Obligations.WordsDecodeAsPictured := by
  unfold Obligations.WordsDecodeAsPictured
  exact ⟨rfl, rfl, rfl, rfl, rfl, rfl, rfl, rfl, rfl, rfl, rfl⟩

end Sys2Proof.Machine

/-! ## Privileged forms (O31) -/

namespace Sys2Proof.Machine

section
variable {s : State} {b g : Nat} {k : Block} {x : Group}

/-- A form that only the handler may run, in user mode: `privilege`, whatever its guard (R33, check 7). -/
theorem privWord_user (ha : s.cur.ag = .group b g) (hf : s.bg b g = some (k, x)) (hp : k.priv g = false) (f : Block → Group → Out) :
    privWord f s = .next (s.raise 0x03 0) := by
  simp [privWord, ha, hf, hp]

/-- A word of a management core, run by a group: refused by the group's mode (R314, R315). -/
theorem mgmtWord_group (ha : s.cur.ag = .group b g) (hf : s.bg b g = some (k, x)) (f : Nat → SRegs → Out) :
    mgmtWord f s = .next (s.raise (if k.priv g then 0x01 else 0x03) 0) := by
  simp [mgmtWord, ha, (State.bg_iff.1 hf).1]

theorem csrPriv_iff (r : Nat) : csrPriv r = true ↔ 0x50 ≤ r ∧ r ≤ 0x5D ∨ r = 0x5F := by simp [csrPriv]

/-- A word that needs privilege, in user mode. -/
theorem exec_needsPrivilege {i : Instr} (ha : s.cur.ag = .group b g) (hf : s.bg b g = some (k, x)) (hp : k.priv g = false)
    (hi : Claims.needsPrivilege i = true) : exec i s = .next (s.raise 0x03 0) := by
  cases i <;> try cases hi
  case csrw a r =>
    obtain ⟨hk, hw⟩ := Bool.and_eq_true_iff.1 hi
    simp [exec, execCsrw, hk, hw, privWord_user ha hf hp]
  case halt => simp [exec, execHalt, ha, privWord_user ha hf hp]
  all_goals exact privWord_user ha hf hp _

/-- A read of a privileged control register, in user mode (R209). -/
theorem execCsrr_user {d r : Nat} (ha : s.cur.ag = .group b g) (hf : s.bg b g = some (k, x)) (hp : k.priv g = false)
    (hk : csrKnown r = true) (hr : csrPriv r = true) : execCsrr d r s = .next (s.raise 0x03 0) := by
  simp [execCsrr, ha, hf, hp, hk, hr]

end

/-- Settles O31: the frame of the privileged forms refuses user mode before it looks at operands or lanes. -/
theorem privilegedFormsTrapInUserMode : Obligations.PrivilegedFormsTrapInUserMode := by
  unfold Obligations.PrivilegedFormsTrapInUserMode
  intro i s b g k x ha hf
  refine ⟨fun hp => ⟨exec_needsPrivilege ha hf hp, fun d r hk hr => execCsrr_user ha hf hp hk ((csrPriv_iff r).2 hr)⟩, ?_, ?_, ?_⟩
  · intro d a n
    rw [exec, execLdio, mgmtWord_group ha hf]
  · intro d a n
    rw [exec, execStio, mgmtWord_group ha hf]
  · rw [exec, execWfi, mgmtWord_group ha hf]

end Sys2Proof.Machine

namespace Sys2Proof.Machine
open Claims

/-! ## Clause headers (O41) -/

theorem countersZero_iff (x : Group) (wait : Nat) : x.countersZero wait = true ↔ ∀ j < 6, bitOf wait j = true → tget 0 x.sb j = 0 := by
  unfold Group.countersZero
  rw [List.all_eq_true]
  refine ⟨fun h j hj hb => ?_, fun h j hj => ?_⟩
  · have := h j ((upFrom_mem 0 6 j).2 (by omega))
    rw [hb] at this
    exact of_decide_eq_true this
  · have := (upFrom_mem 0 6 j).1 hj
    cases hb : bitOf wait j with
    | false => rfl
    | true => exact decide_eq_true (h j (by omega) hb)

/-- A guard that does not pass: its bit does not have its sense (R17). -/
theorem not_guardPass_iff (b : Bool) (sense : Nat) : guardPass b sense = false ↔ b = decide (sense = 1) := by
  by_cases hs : sense = 1 <;> cases b <;> simp [guardPass, hs]

/-- The lanes of a set that fail the guard of a clause of any class but S (R17). -/
theorem mem_failing_iff (x : Group) (h : Hdr) (set : List Nat) (l : Nat) (hl : l ∈ set) (hc : h.cls ≠ 0) :
    l ∈ x.failing h set ↔ h.g = true ∧ guardFails x h.cls h.sense h.guard l := by
  unfold Group.failing guardFails
  cases hg : h.g with
  | false => simp
  | true =>
    by_cases h7 : h.cls = 7
    · rw [← not_guardPass_iff]
      cases hp : guardPass (spBit x.sp h.guard) h.sense <;> simp [h7, hp, hl]
    · rw [← not_guardPass_iff]
      simp [hc, h7, hl]

/-- A replaced group of a block, all else as it was. -/
theorem onlyGrp_updGrp {s : State} {b g : Nat} {k : Block} {x : Group} (hf : s.bg b g = some (k, x)) (f : Group → Group)
    (hn : ∀ y, y.num = g → (f y).num = g) : OnlyGrp s (s.updGrp b g f) b g k (f x) :=
  ⟨k.updGrp g f, ⟨_, s.cores, rfl⟩, fun _ hm => State.blk_updBlk_ne _ _ _ _ (by simp) hm, State.bg_updGrp f hf hn, ⟨_, rfl⟩,
    fun _ hm => Block.grp_updGrp_ne _ _ _ _ hn hm, fun _ _ => rfl, _, rfl⟩

/-- A replaced stream of a block, all else as it was. -/
theorem onlyBlk_updBlk {s : State} {b : Nat} {k k' : Block} (hf : s.blk b = some k) (f : Block → Block) (e : f k = k')
    (hid : ∀ y : Block, y.id = b → (f y).id = b) : OnlyBlk s (s.updBlk b f) b k' := by
  refine ⟨⟨_, rfl⟩, fun _ hm => State.blk_updBlk_ne _ _ _ _ hid hm, ?_⟩
  rw [State.blk_updBlk _ _ _ hid, hf, ← e]; rfl

/-- Lanes that enter a clause: they stand at its first word, those of `off` inactive. -/
def Lane.enters (hdr : Nat) (off : Bool) (z : Lane) : Lane :=
  { z with entered := true, guardOff := off, pc := if z.pc.toNat = hdr then BitVec.ofNat 48 (hdr + 4) else z.pc }

/-- A group whose set enters the clause of its current word, the lanes of `off` inactive (R17). -/
def Group.enterClause (c : Cur) (off : List Nat) (x : Group) : Group :=
  { (x.mapLanes c.set (fun l z => z.enters c.hdr (decide (l ∈ off)))).noYield c.set c.hdr with
    wait := none, forced := if x.forcedSet = [] then none
      else match x.forced with | some p => some (if p = c.hdr then c.hdr + 4 else p) | none => none }

/-- Nothing but lanes, yields and the notes of its issue changes. -/
theorem Group.enterClause_rest (c : Cur) (off : List Nat) (x : Group) :
    ∃ ys f, x.enterClause c off =
      { x with lanes := (x.mapLanes c.set (fun l z => z.enters c.hdr (decide (l ∈ off)))).lanes, yends := ys, wait := none, forced := f } := by
  unfold Group.enterClause Group.noYield
  rw [Group.mapLanes_rest]
  dsimp only
  split <;> exact ⟨_, _, rfl⟩

theorem Group.lane_enterClause {c : Cur} (hd : c.set.Nodup) (off : List Nat) (x : Group) (l : Nat) :
    (x.enterClause c off).lane l = if l ∈ c.set then (x.lane l).enters c.hdr (decide (l ∈ off)) else x.lane l := by
  obtain ⟨ys, f, e⟩ := x.enterClause_rest c off
  rw [e]
  exact Group.lane_mapLanes x c.set _ l hd

/-- A wide side's header of no class S clause waits on its counters, then on its barrier (R17, R21). -/
theorem wideHeader_waits_counters {s : State} (k : Block) {x : Group} {h : Hdr} (hc : h.cls ≠ 0) (hz : x.countersZero h.wait ≠ true) :
    s.wideHeader k x h = s.wait .header := by
  simp [State.wideHeader, hc, hz]

theorem wideHeader_waits_barrier {s : State} {k : Block} {x : Group} {h : Hdr} (hc : h.cls ≠ 0) (hz : x.countersZero h.wait = true)
    (hb : h.b = true) (ha : k.hasArrived x.num h.bar = true) : s.wideHeader k x h = s.wait (.barrier h.bar) := by
  simp [State.wideHeader, hc, hz, hb, ha]

/-- Past its counters, without a barrier, the lanes of the set enter the clause (R17). -/
theorem wideHeader_enters {s : State} {b g : Nat} {k : Block} {x : Group} (hf : s.bg b g = some (k, x)) {h : Hdr} (hc : h.cls ≠ 0)
    (hz : x.countersZero h.wait = true) (hb : h.b = false) :
    s.wideHeader k x h = s.updGrp b g (Group.enterClause s.cur (x.failing h s.cur.set)) := by
  obtain ⟨hk, hx⟩ := State.bg_iff.1 hf
  obtain rfl := State.blk_id hk
  obtain rfl := Block.grp_num hx
  simp only [State.wideHeader, hc, hz, hb, if_false, Bool.not_true, Bool.false_and, Bool.false_eq_true]
  rfl

/-- A scalar side's header waits on its counters, and past them begins a run of its clause (R17, R126). -/
theorem scalarHeader_waits {s : State} (k : Block) {x : Group} {h : Hdr} (hz : x.countersZero h.wait ≠ true) :
    s.scalarHeader k x h = s.wait .header := by
  simp [State.scalarHeader, hz]

theorem scalarHeader_runs {s : State} {b g : Nat} {k : Block} {x : Group} (hf : s.bg b g = some (k, x)) {h : Hdr}
    (hz : x.countersZero h.wait = true) (hb : h.b = false) :
    s.scalarHeader k x h = s.updGrp b g (fun y => { y with swait := none, sc := some ⟨s.cur.hdr, (s.cur.pc - s.cur.hdr) / 4 - 1, h.n, h.y,
      !h.g || guardPass (spBit x.sp h.guard) h.sense⟩ }) := by
  obtain ⟨hk, hx⟩ := State.bg_iff.1 hf
  obtain rfl := State.blk_id hk
  obtain rfl := Block.grp_num hx
  simp [State.scalarHeader, hz, hb]

/-- A stream at the header of its clause enters it. -/
def Stream.enters (c : Cur) (now : Nat) (y : Stream) : Stream :=
  { (y.countWait now) with entered := true, pc := if y.pc = c.hdr then c.hdr + 4 else y.pc, wait := none }

theorem streamHeader_enters {s : State} {b : Nat} {k : Block} (hf : s.blk b = some k) {y : Stream} {bit : Nat} {h : Hdr} (hb : h.b = false)
    (hc : bit = 1 → h.wait = 0 ∧ h.sense = 0) : s.streamHeader k y bit h = s.updBlk b (fun q =>
      if bit = 0 then { q with ms := q.ms.enters s.cur s.cycle } else { q with cs := q.cs.enters s.cur s.cycle }) := by
  obtain rfl := State.blk_id hf
  have h1 : ¬(bit = 1 ∧ (h.wait ≠ 0 ∨ h.sense ≠ 0)) := fun ⟨e, o⟩ => by simp [hc e] at o
  simp only [State.streamHeader, h1, hb, if_false, Bool.false_and, Bool.false_eq_true]
  rfl

/-- A copy stream refuses the wait bits and the sense of a header (R264). -/
theorem streamHeader_refuses {s : State} {k : Block} {y : Stream} {h : Hdr} (hc : h.wait ≠ 0 ∨ h.sense ≠ 0) :
    s.streamHeader k y 1 h = s.raise 0x01 0 := by
  simp [State.streamHeader, hc]

theorem Stream.enters_running (c : Cur) (now : Nat) (y : Stream) : (y.enters c now).running = y.running := by
  unfold Stream.enters Stream.countWait
  split <;> rfl

/-- The header that the words of `clauseHeader` stand for. -/
def hdrFor (n cls y wait b bar g sense guard : Nat) : Hdr :=
  ⟨n, cls, decide (y = 1), wait, decide (b = 1), bar, decide (g = 1), sense, guard⟩

section
variable {n cls y wait bb bar gg sense guard : Nat} {s : State} {b g m : Nat} {k : Block} {x : Group}

theorem exec_header_group (ha : s.cur.ag = .group b g) (hf : s.bg b g = some (k, x)) :
    exec (.clauseHeader n cls y wait bb bar gg sense guard) s = .next (s.wideHeader k x (hdrFor n cls y wait bb bar gg sense guard)) := by
  simp only [exec, execClauseHeader, ha, hf, hdrFor]

theorem exec_header_scalar (ha : s.cur.ag = .scalar b g) (hf : s.bg b g = some (k, x)) :
    exec (.clauseHeader n cls y wait bb bar gg sense guard) s = .next (s.scalarHeader k x (hdrFor n cls y wait bb bar gg sense guard)) := by
  simp only [exec, execClauseHeader, ha, hf, hdrFor]

theorem exec_header_matrix (ha : s.cur.ag = .matrix b) (hf : s.blk b = some k) :
    exec (.clauseHeader n cls y wait bb bar gg sense guard) s = .next (s.streamHeader k k.ms 0 (hdrFor n cls y wait bb bar gg sense guard)) := by
  simp only [exec, execClauseHeader, ha, hf, hdrFor]

theorem exec_header_copy (ha : s.cur.ag = .copy b) (hf : s.blk b = some k) :
    exec (.clauseHeader n cls y wait bb bar gg sense guard) s = .next (s.streamHeader k k.cs 1 (hdrFor n cls y wait bb bar gg sense guard)) := by
  simp only [exec, execClauseHeader, ha, hf, hdrFor]

theorem exec_header_mgmt (ha : s.cur.ag = .mgmt m) :
    exec (.clauseHeader n cls y wait bb bar gg sense guard) s =
      .next (s.setMc m ((s.mc m).header (hdrFor n cls y wait bb bar gg sense guard) s.cur.hdr)) := by
  simp only [exec, execClauseHeader, ha, hdrFor]

end

/-- Settles O41: what a header does for each kind of agent, by the lemma of that kind. -/
theorem clauseHeadersOpenTheirClauses : Obligations.ClauseHeadersOpenTheirClauses := by
  unfold Obligations.ClauseHeadersOpenTheirClauses
  intro n cls y wait bb bar gg sense guard s i _
  have hbb : bb = 0 → decide (bb = 1) = false := by rintro rfl; rfl
  refine ⟨?_, ?_, ?_, ?_, ?_⟩
  · intro b g k x ha hf hc _ hd zero came
    have hnum := Block.grp_num (State.bg_iff.1 hf).2
    have hz := countersZero_iff x wait
    rw [exec_header_group ha hf]
    refine ⟨fun h => congrArg _ (wideHeader_waits_counters k hc fun c => h (hz.1 c)), fun h hb ht => ?_, fun h hb => ?_⟩
    · exact congrArg _ (wideHeader_waits_barrier hc (hz.2 h) (decide_eq_true hb) (hnum ▸ ht))
    · rw [wideHeader_enters hf hc (hz.2 h) (hbb hb)]
      let off := x.failing (hdrFor n cls y wait bb bar gg sense guard) s.cur.set
      obtain ⟨ys, f, e⟩ := x.enterClause_rest s.cur off
      refine ⟨_, _, rfl, onlyGrp_updGrp hf (Group.enterClause s.cur off) (fun z hz => ?_), ?_, ?_, ?_, ?_, fun l hl => ?_, fun l hl => ?_⟩
      · obtain ⟨_, _, e⟩ := z.enterClause_rest s.cur off
        rw [e]; exact hz
      · rw [e]
      · rw [e]
      · rw [e]
      · rw [e]
      · rw [Group.lane_enterClause hd, if_neg hl]
      · refine ⟨decide (l ∈ off), by rw [Group.lane_enterClause hd, if_pos hl]; rfl, ?_⟩
        rw [decide_eq_true_iff, mem_failing_iff x _ _ l hl hc]
        exact and_congr_left' decide_eq_true_iff
  · intro b g k x ha hf zero
    rw [exec_header_scalar ha hf]
    have hz := countersZero_iff x wait
    refine ⟨fun h => congrArg _ (scalarHeader_waits k fun c => h (hz.1 c)), fun h hb => ?_⟩
    rw [scalarHeader_runs hf (hz.2 h) (hbb hb)]
    refine ⟨_, _, _, rfl, onlyGrp_updGrp hf _ (fun _ hz => hz), rfl, ?_⟩
    rw [Bool.or_eq_false_iff, not_guardPass_iff]
    exact and_congr_left' (by simp [hdrFor])
  · intro b k ha hf hb
    rw [exec_header_matrix ha hf, streamHeader_enters hf (hbb hb) (fun e => absurd e (by decide))]
    refine ⟨_, k.ms.enters s.cur s.cycle, rfl, onlyBlk_updBlk hf _ rfl (fun _ hz => hz), rfl, rfl, rfl, Stream.enters_running ..⟩
  · intro b k ha hf
    rw [exec_header_copy ha hf]
    refine ⟨fun h => congrArg _ (streamHeader_refuses h), fun hw hs hb => ?_⟩
    rw [streamHeader_enters hf (hbb hb) (fun _ => ⟨hw, hs⟩)]
    refine ⟨_, k.cs.enters s.cur s.cycle, rfl, onlyBlk_updBlk hf _ rfl (fun _ hz => hz), rfl, rfl, rfl, Stream.enters_running ..⟩
  · intro m ha
    rw [exec_header_mgmt ha]
    refine ⟨_, decide (gg = 1) && !guardPass (spBit (s.mc m).sp guard) sense, rfl, ⟨_, rfl⟩, fun q hq => ?_, ?_, ?_⟩
    · rw [State.mc_setMc, if_neg hq]
    · rw [State.mc_setMc_same]; rfl
    · rw [Bool.and_eq_true_iff, Bool.not_eq_true', not_guardPass_iff]
      exact and_congr_left' decide_eq_true_iff

end Sys2Proof.Machine

/-! ## One step of an agent (O55) -/

namespace Sys2Proof.Machine
open Claims

/-! ### Fetching a clause that stands in code -/

theorem checked_eq_ok {r : Bool} {i j : Instr} (h : checked r i = .ok j) : i = j := by
  unfold checked at h
  split at h
  · cases h
  · split at h
    · exact Except.ok.inj h
    · cases h

/-- The count of a header that decodes stands in its top bits (R15). -/
theorem decodeHeader_count {w : Nat} {h : Hdr} (hd : decodeHeader w = .ok h.instr) : fld w 31 28 = h.n :=
  (Instr.clauseHeader.inj (checked_eq_ok hd)).1

theorem leAt_lt (bs : List Byte) (off n : Nat) : leAt bs off n < 256 ^ n := by
  induction n generalizing off with
  | zero => simp [leAt]
  | succ n ih =>
    have := ih (off + 1)
    have := (nth 0 bs off).isLt
    rw [leAt, Nat.pow_succ]
    omega

/-- A word of code has 32 bits. -/
theorem State.code_lt {s : State} {sp : Space} {a w : Nat} (h : s.code sp a = .inl w) : w < 2 ^ 32 := by
  have lt : ∀ bs : List Byte, leAt bs 0 4 < 2 ^ 32 := fun bs => leAt_lt bs 0 4
  unfold State.code at h
  split at h
  · split at h
    · cases h; exact lt _
    · cases h
    · cases h
  · split at h
    · cases h; exact lt _
    · split at h
      · split at h
        · cases h; exact lt _
        · cases h
      · cases h; exact lt _
      · cases h
      · cases h

theorem State.codeWords_eq (s : State) (sp : Space) (v : Nat → Nat) (n : Nat) : ∀ (i a : Nat),
    (∀ j < n, s.code sp (a + 4 * j) = .inl (v (i + j))) →
    s.codeWords sp a n = .inl ((upFrom i n).map (fun j => BitVec.ofNat 32 (v j))) := by
  induction n with
  | zero => intros; rfl
  | succ n ih =>
    intro i a h
    have h0 : s.code sp a = .inl (v i) := h 0 (by omega)
    have hn := ih (i + 1) (a + 4) fun j hj => by
      have := h (j + 1) (by omega)
      rwa [show a + 4 * (j + 1) = a + 4 + 4 * j by omega, show i + (j + 1) = i + 1 + j by omega] at this
    simp only [State.codeWords, h0, hn, upFrom, List.map_cons]

section
variable {s : State} {sp : Space} {who : Who} {hdr w pc : Nat} {h : Hdr} {v : Nat → Nat}

/-- A clause that stands in code is fetched whole (R16). -/
theorem fetchClause_of_clauseAt (hc : ClauseAt s sp who hdr w h v) : s.fetchClause sp who hdr = .inl (h, wordsAs w h v) := by
  obtain ⟨hw, hh, hd, hv⟩ := hc
  have := s.codeWords_eq sp v h.n 0 (hdr + 4) fun j hj => by rw [Nat.zero_add]; exact hv j hj
  simp only [State.fetchClause, hw, hh, decodeHeader_count hd, this, wordsAs]

theorem fetchFor_of_clauseAt (hc : ClauseAt s sp who hdr w h v) (hp : pc ≤ hdr + 4 * h.n) :
    s.fetchFor sp who hdr pc = .inl (h, wordsAs w h v) := by
  simp only [State.fetchFor, fetchClause_of_clauseAt hc, hp, if_true]

theorem fetchFor_beyond (hc : ClauseAt s sp who hdr w h v) (hp : hdr + 4 * h.n < pc) : s.fetchFor sp who hdr pc = .inr 2 := by
  simp only [State.fetchFor, fetchClause_of_clauseAt hc, if_neg (Nat.not_le.2 hp)]

theorem nth_map_upFrom {α : Type} (d : α) (f : Nat → α) (n : Nat) : ∀ (a j : Nat), j < n → nth d ((upFrom a n).map f) j = f (a + j) := by
  induction n with
  | zero => intro a j hj; omega
  | succ n ih =>
    intro a j hj
    cases j with
    | zero => rfl
    | succ j => exact (ih (a + 1) j (by omega)).trans (congrArg f (by omega))

/-- The words of a fetched clause are those that stand in code. -/
theorem nth_wordsAs (w : Nat) (h : Hdr) (v : Nat → Nat) {j : Nat} (hj : j < h.n) :
    nth 0 (wordsAs w h v) (j + 1) = BitVec.ofNat 32 (v j) := by
  have := nth_map_upFrom (0 : W32) (fun n => BitVec.ofNat 32 (v n)) h.n 0 j hj
  rwa [Nat.zero_add] at this

/-- The header of a fetched clause is the header that was read. -/
theorem hdrOf_wordsAs (hc : ClauseAt s sp who hdr w h v) : hdrOf who (BitVec.ofNat 32 w).toNat = some h := by
  rw [BitVec.toNat_ofNat, Nat.mod_eq_of_lt (State.code_lt hc.1)]
  exact hc.2.1

end

@[simp] theorem State.code_updGrp (s : State) (b g : Nat) (f : Group → Group) (sp : Space) (a : Nat) :
    (s.updGrp b g f).code sp a = s.code sp a := by
  cases sp <;> rfl

theorem clauseAt_updGrp {s : State} {sp : Space} {who : Who} {hdr w : Nat} {h : Hdr} {v : Nat → Nat} (hc : ClauseAt s sp who hdr w h v)
    (b g : Nat) (f : Group → Group) : ClauseAt (s.updGrp b g f) sp who hdr w h v := by
  simpa only [ClauseAt, State.code_updGrp] using hc

/-! ### A move of the agenda -/

theorem stalls_eq_false {o : Out} (h : ∀ t, o = .next t → t.stalled = false) : stalls o = false := by
  unfold stalls
  split
  · exact h _ rfl
  · rfl

/-- A step whose turn is a move, or the state in which the move waits for a page of a cuff (R383). -/
theorem stepIs_of_turn {s s0 : State} {out : Out} (h : s.turn = s0.orStall out) : StepIs s s0 out := by
  refine ⟨fun hs => ?_, fun t ht hs => ?_⟩
  · rw [step, h, State.orStall, stalls_eq_false hs]; rfl
  · rw [step, h, State.orStall, ht, stalls, hs]; rfl

/-- The turn of a machine that has arrived at a move of its agenda. -/
theorem turn_of_arrived {s s1 : State} {mv : Move} (h : Arrived s mv s1) : s.turn = s1.unlessDue (s.dueRank mv) (fun u =>
    ({ u with agenda := s1.agenda.drop 1 }.park mv).orStall ({ u with agenda := s1.agenda.drop 1 }.move mv)) := by
  obtain ⟨dt, rest, ha, h⟩ := h
  dsimp only at h
  have e : s1 = if mv.alone then { s with agenda := ⟨0, mv⟩ :: rest, cycle := s.cycle + dt }.ownCycle
      else { s with agenda := ⟨0, mv⟩ :: rest, cycle := s.cycle + dt }.atRank (s.moveRank mv) := by
    rw [h]
    split
    · rfl
    · cases s.moveRank mv <;> rfl
  have hr : s1.agenda.drop 1 = rest := by
    rw [e]
    split
    · rfl
    · cases s.moveRank mv with
      | none => rfl
      | some n => simp only [State.atRank, State.ranked]; split <;> rfl
  unfold State.turn
  rw [ha, hr]
  dsimp only
  rw [← e]

/-- Where no wait's fault comes first, the step is the move. -/
theorem stepIs_move {s s1 : State} {mv : Move} (h : Arrived s mv s1) (hd : s1.due (s.dueRank mv) = none) :
    StepIs s ({ s1 with agenda := s1.agenda.drop 1 }.park mv) ({ s1 with agenda := s1.agenda.drop 1 }.move mv) := by
  refine stepIs_of_turn ?_
  rw [turn_of_arrived h, State.unlessDue, hd]

/-- The fault of a wait that is over its limit comes before the move (R144, R199, R220, R228). -/
theorem unlessDue_due {s : State} {r : Option Nat} {d : Due} (hd : s.due r = some d) (go : State → Out)
    (hs : ∀ t, exec d.what { (if d.at_ = s.cycle then s.ranked d.rank else s) with cur := Cur.none } = .next t → t.stalled = false) :
    s.unlessDue r go = exec d.what { (if d.at_ = s.cycle then s.ranked d.rank else s) with cur := Cur.none } := by
  simp only [State.unlessDue, hd, stalls_eq_false hs, Bool.false_eq_true, if_false]

/-- The step of an agent is the word that it comes to next. -/
theorem stepIs_word {s s0 : State} {ag : Agent} (h : Next s ag s0) {i : Instr} {t : State} (hn : s0.nextOf ag = .word i t) :
    StepIs s s0 (exec i t) := by
  obtain ⟨s1, ha, hd, rfl⟩ := h
  have := stepIs_move ha hd
  rwa [State.move, State.runAgent, hn] at this

theorem stepIs_done {s s0 : State} {ag : Agent} (h : Next s ag s0) {t : State} (hn : s0.nextOf ag = .done t) :
    StepIs s s0 (.next t) := by
  obtain ⟨s1, ha, hd, rfl⟩ := h
  have := stepIs_move ha hd
  rwa [State.move, State.runAgent, hn] at this

theorem eventsAndTimeouts : EventsAndTimeouts := by
  refine ⟨?_, ?_, ?_⟩
  · intro s s1 mv ha hd v kept
    refine ⟨?_, ?_⟩
    · rintro i rfl
      exact stepIs_move ha hd
    · rintro h rfl
      exact stepIs_move ha hd
  · intro s s1 mv d ha hd out hs
    rw [step, turn_of_arrived ha]
    exact unlessDue_due hd _ hs
  · intro s d ha hd out hs
    rw [step, State.turn, ha]
    exact unlessDue_due hd _ hs

/-! ### The order of the faults of waits -/

/-- The earlier of two faults of waits, the lower rank in one cycle (R199). -/
def Due.leads (d e : Due) : Prop := d.at_ < e.at_ ∨ (d.at_ = e.at_ ∧ d.rank ≤ e.rank)

theorem Due.leads.trans {d e f : Due} (h : d.leads e) (h' : e.leads f) : d.leads f := by
  unfold Due.leads at *
  omega

/-- What choosing the first of a list of faults of waits answers, from the best so far. -/
theorem foldl_first (ds : List Due) : ∀ (best : Option Due) (d : Due),
    ds.foldl (fun best d => match best with
      | none => some d
      | some x => if d.at_ < x.at_ ∨ (d.at_ = x.at_ ∧ d.rank < x.rank) then some d else best) best = some d →
    (d ∈ ds ∨ best = some d) ∧ (∀ e ∈ ds, d.leads e) ∧ ∀ x, best = some x → d.leads x := by
  induction ds with
  | nil =>
    intro best d h
    refine ⟨.inr h, nofun, fun x hx => ?_⟩
    cases hx.symm.trans h
    exact .inr ⟨rfl, Nat.le_refl _⟩
  | cons e ds ih =>
    intro best d h
    obtain ⟨hm, hl, hb⟩ := ih _ d h
    cases best with
    | none =>
      refine ⟨.inl ?_, fun f hf => ?_, nofun⟩
      · rcases hm with hm | hm
        · exact List.mem_cons_of_mem _ hm
        · cases hm
          exact List.mem_cons_self
      · rcases List.mem_cons.1 hf with rfl | hf
        · exact hb _ rfl
        · exact hl f hf
    | some x =>
      by_cases hc : e.at_ < x.at_ ∨ (e.at_ = x.at_ ∧ e.rank < x.rank)
      · simp only [hc, if_true] at hm hb
        have he := hb e rfl
        have hx : e.leads x := by unfold Due.leads; omega
        refine ⟨.inl ?_, fun f hf => ?_, fun y hy => ?_⟩
        · rcases hm with hm | hm
          · exact List.mem_cons_of_mem _ hm
          · cases hm
            exact List.mem_cons_self
        · rcases List.mem_cons.1 hf with rfl | hf
          · exact he
          · exact hl f hf
        · cases hy
          exact he.trans hx
      · simp only [hc, if_false] at hm hb
        have hx := hb x rfl
        have he : x.leads e := by unfold Due.leads; omega
        refine ⟨hm.imp (List.mem_cons_of_mem _) id, fun f hf => ?_, hb⟩
        rcases List.mem_cons.1 hf with rfl | hf
        · exact hx.trans he
        · exact hl f hf

theorem duesInOrder : DuesInOrder := by
  intro s r d h
  obtain ⟨hm, hl, -⟩ := foldl_first _ _ _ h
  have hd : d ∈ s.dues := (List.mem_filter.1 (hm.resolve_right nofun)).1
  refine ⟨hd, fun e he hb => hl e (List.mem_filter.2 ⟨he, ?_⟩)⟩
  unfold Due.before
  cases r with
  | none => simp
  | some n => simpa using hb

/-! ### The wide side of a group -/

section
variable {s : State} {b g : Nat} {k : Block} {x : Group}

theorem Group.lane_undefer (x : Group) (l : Nat) : ∃ d, x.undefer.lane l = { x.lane l with deferred := d } := by
  unfold Group.undefer
  split
  · rw [Group.lane_mapLanes _ _ _ _ (show lanes32.Nodup from upFrom_nodup 0 32)]
    split <;> exact ⟨_, rfl⟩
  · exact ⟨_, rfl⟩

theorem Group.liveLanes_undefer (x : Group) : x.undefer.liveLanes = x.liveLanes := by
  refine List.filter_congr fun l _ => ?_
  obtain ⟨d, e⟩ := x.lane_undefer l
  rw [Lane.isLive, e]; rfl

@[simp] theorem Group.undefer_num (x : Group) : x.undefer.num = x.num := by
  unfold Group.undefer
  split
  · exact Group.mapLanes_num ..
  · rfl

/-- A set is chosen only among live lanes (R61). -/
theorem Group.liveLanes_of_select {x : Group} (h : x.select ≠ []) : x.liveLanes ≠ [] := by
  intro hn
  refine h ?_
  have hf : x.forcedSet = [] := by
    unfold Group.forcedSet
    split
    · rfl
    · simp [hn]
  simp [Group.select, hf, Group.lowestPc, hn, leastOf]

theorem Group.heldLanes_of_live {x : Group} (h : x.liveLanes ≠ []) : x.heldLanes ≠ [] := by
  obtain ⟨l, hl⟩ := List.exists_mem_of_ne_nil _ h
  obtain ⟨h32, hs⟩ := List.mem_filter.1 hl
  refine List.ne_nil_of_mem (a := l) (List.mem_filter.2 ⟨h32, ?_⟩)
  have : (x.lane l).st = .live := of_decide_eq_true hs
  simp [Lane.held, this]

theorem firstOf_none {α : Type} (p : α → Bool) (xs : List α) (h : ∀ y ∈ xs, p y = false) : firstOf p xs = none := by
  induction xs with
  | nil => rfl
  | cons y ys ih =>
    rw [firstOf, h y List.mem_cons_self, if_neg (by decide)]
    exact ih fun z hz => h z (List.mem_cons_of_mem _ hz)

/-- No lane is owed a turn (R63). -/
theorem Group.starved_none {x : Group} (h : ∀ l < 32, (x.lane l).st = .live → x.forcedSet = [] → (x.lane l).starve < 1024) :
    x.starved = none := by
  unfold Group.starved
  split
  · rfl
  next hf =>
    refine firstOf_none _ _ fun l hl => ?_
    obtain ⟨h32, hs⟩ := List.mem_filter.1 hl
    have := h l (by have := (upFrom_mem 0 32 l).1 h32; omega) (of_decide_eq_true hs) (not_not.1 hf)
    simpa using this

/-- A group that may issue, whose set is inside one clause: it issues the word there (R61). -/
theorem groupNext_word (h : MayIssue s b g k x) {l : Nat} {ls : List Nat} (hs : x.select = l :: ls)
    (he : ∀ j ∈ x.select, (x.lane j).entered = true ∧ (x.lane j).hdr = (x.lane l).hdr) :
    s.groupNext b g = (s.updGrp b g (fun _ => x)).groupWord k x l x.select := by
  have h1 : x.select.filter (fun j => !(x.lane j).entered) = [] := List.filter_eq_nil_iff.2 fun j hj => by simp [(he j hj).1]
  have h2 : x.select.filter (fun j => decide ((x.lane j).hdr = (x.lane l).hdr)) = x.select :=
    List.filter_eq_self.2 fun j hj => by simp [(he j hj).2]
  obtain ⟨⟨x0, hf, rfl, hend, hst⟩, hh, -, hne⟩ := h
  have hl : x0.liveLanes ≠ [] := by
    rw [← x0.liveLanes_undefer]
    exact Group.liveLanes_of_select hne
  simp only [State.groupNext, hf, hend, hh, Bool.or_self, Bool.false_eq_true, if_false, Group.heldLanes_of_live hl, hl,
    Group.starved_none hst, h1]
  simp only [hs] at h2 ⊢
  rw [h2]

/-- A group that may issue, whose set stands at one clause: it comes to the header (R16, R61). -/
theorem groupNext_header (h : MayIssue s b g k x) {l : Nat} {ls : List Nat} (hs : x.select = l :: ls)
    (he : ∀ j ∈ x.select, (x.lane j).entered = false ∧ (x.lane j).hdr = (x.lane l).hdr) :
    s.groupNext b g = (s.updGrp b g (fun _ => x)).groupHeader k x (x.lane l).hdr x.select := by
  have h1 : x.select.filter (fun j => !(x.lane j).entered) = x.select := List.filter_eq_self.2 fun j hj => by simp [(he j hj).1]
  have h2 : x.select.filter (fun j => !(x.lane j).entered && decide ((x.lane j).hdr = (x.lane l).hdr)) = x.select :=
    List.filter_eq_self.2 fun j hj => by simp [he j hj]
  obtain ⟨⟨x0, hf, rfl, hend, hst⟩, hh, -, hne⟩ := h
  have hl : x0.liveLanes ≠ [] := by
    rw [← x0.liveLanes_undefer]
    exact Group.liveLanes_of_select hne
  simp only [State.groupNext, hf, hend, hh, Bool.or_self, Bool.false_eq_true, if_false, Group.heldLanes_of_live hl, hl,
    Group.starved_none hst, h1]
  simp only [hs] at h2 ⊢
  rw [h2]

/-- No breakpoint in force stops the word (R205). -/
theorem stopsAt_of_noBreak {pc : Nat} (h : NoBreak k x pc) : stopsAt k x pc = false := by
  unfold stopsAt InForce.hits
  rcases h with h | h | h
  · simp [h]
  · simp [h]
  · have : [x.inf.bk0, x.inf.bk1, x.inf.bk2, x.inf.bk3].any
        (fun v => decide (v.toNat / 2 ^ 63 = 1) && decide (v.toNat % 2 ^ 48 = pc)) = false := by
      rw [List.any_eq_false]
      intro v hv
      have := h v hv
      simp only [Bool.and_eq_true, decide_eq_true_iff]
      tauto
    rw [this, Bool.and_false]

theorem issue_ok {cls w : Nat} {i : Instr} (h : decodeWord cls w = .ok i) : s.issue cls w = .word i s := by
  simp only [State.issue, h]

/-- The word at a set's pc, of a clause that the group has fetched. -/
theorem groupWord_fetched {l hdr pc : Nat} {set : List Nat} {hw : W32} {ws : List W32} {i : Instr} (hh : (x.lane l).hdr = hdr)
    (hp : (x.lane l).pc.toNat = pc) (hr : x.resErr = false) (hf : tget [] x.fetched hdr = hw :: ws) (hb : NoBreak k x pc)
    (hd : decodeWord (clsOf (hw :: ws)) (nth 0 (hw :: ws) ((pc - hdr) / 4)).toNat = .ok i) :
    s.groupWord k x l set = .word i { s with cur :=
      ⟨.group k.id x.num, set, set.filter (fun j => !(x.lane j).guardOff), pc, hdr, ws.length, yOf (hw :: ws) || x.yields set hdr⟩ } := by
  subst hh hp
  simp only [State.groupWord, hf, hr, stopsAt_of_noBreak hb, Bool.false_eq_true, if_false, issue_ok hd, List.length_cons,
    Nat.add_sub_cancel]

/-- The word at a set's pc, of a clause that the group fetches now. -/
theorem groupWord_fetches {l hdr pc : Nat} {set : List Nat} {w : Nat} {h : Hdr} {v : Nat → Nat} {i : Instr} (hh : (x.lane l).hdr = hdr)
    (hp : (x.lane l).pc.toNat = pc) (hr : x.resErr = false) (hf : tget [] x.fetched hdr = [])
    (hc : ClauseAt s (.part k.trec.part) .group hdr w h v) (hb : NoBreak k { x with inf := inForce k x } pc)
    (hd : decodeWord h.cls (nth 0 (wordsAs w h v) ((pc - hdr) / 4)).toNat = .ok i) :
    s.groupWord k x l set = .word i { s.takeFetch k x.num hdr (wordsAs w h v) with cur :=
      ⟨.group k.id x.num, set, set.filter (fun j => !(x.lane j).guardOff), pc, hdr, h.n, h.y || x.yields set hdr⟩ } := by
  subst hh hp
  have hcls : clsOf (wordsAs w h v) = h.cls := by simp only [clsOf, wordsAs, nth, hdrOf_wordsAs hc]
  have hy : yOf (wordsAs w h v) = h.y := by simp only [yOf, wordsAs, nth, hdrOf_wordsAs hc]
  have hn : (wordsAs w h v).length - 1 = h.n := by simp [wordsAs, upFrom_length]
  rw [← hcls] at hd
  simp only [State.groupWord, hf, fetchClause_of_clauseAt hc, stopsAt_of_noBreak hb, Bool.false_eq_true, if_false, issue_ok hd, hy, hn]
  rw [if_neg (by rw [hr]; decide)]
  rfl

theorem mayIssue_ids (h : MayIssue s b g k x) : k.id = b ∧ x.num = g := by
  obtain ⟨⟨x0, hf, rfl, -, -⟩, -, -, -⟩ := h
  obtain ⟨hk, hx⟩ := State.bg_iff.1 hf
  exact ⟨State.blk_id hk, (Group.undefer_num x0).trans (Block.grp_num hx)⟩

theorem mapIf_mapIf {α : Type} (p : α → Bool) (f f' : α → α) (xs : List α) (h : ∀ y, p y = true → p (f y) = true) :
    mapIf p f' (mapIf p f xs) = mapIf p (fun y => f' (f y)) xs := by
  induction xs with
  | nil => rfl
  | cons y ys ih =>
    cases hp : p y with
    | true => simp only [mapIf, hp, h y hp, if_true, ih]
    | false => simp only [mapIf, hp, Bool.false_eq_true, if_false, ih]

/-- Two replacements of one block are one. -/
theorem State.updBlk_updBlk (s : State) (b : Nat) (f f' : Block → Block) (h : ∀ q, q.id = b → (f q).id = b) :
    (s.updBlk b f).updBlk b f' = s.updBlk b (fun q => f' (f q)) :=
  congrArg (fun bs => { s with blocks := bs })
    (mapIf_mapIf (fun q => decide (q.id = b)) f f' s.blocks fun q hq => by simpa using h q (by simpa using hq))

/-- Two replacements of one group are one. -/
theorem State.updGrp_updGrp (s : State) (b g : Nat) (f f' : Group → Group) (h : ∀ y, y.num = g → (f y).num = g) :
    (s.updGrp b g f).updGrp b g f' = s.updGrp b g (fun y => f' (f y)) := by
  have hb : ∀ q : Block, (q.updGrp g f).updGrp g f' = q.updGrp g (fun y => f' (f y)) := fun q =>
    congrArg (fun gs => { q with groups := gs })
      (mapIf_mapIf (fun y => decide (y.num = g)) f f' q.groups fun y hy => by simpa using h y (by simpa using hy))
  exact (s.updBlk_updBlk b (fun q => q.updGrp g f) (fun q => q.updGrp g f') fun _ hq => hq).trans (congrArg (s.updBlk b) (funext hb))

/-- A group that takes a clause that it fetches (R16, R209). -/
theorem takeFetch_eq (h : MayIssue s b g k x) (hdr w : Nat) (hh : Hdr) (v : Nat → Nat) :
    (s.updGrp b g (fun _ => x)).takeFetch k g hdr (wordsAs w hh v) = s.updGrp b g (fun _ => took k x hdr w hh v) := by
  obtain ⟨rfl, hn⟩ := mayIssue_ids h
  rw [State.takeFetch, State.updGrp_updGrp _ _ _ _ _ fun _ _ => hn]
  rfl

end

theorem groupRunsItsWord : GroupRunsItsWord := by
  intro s s0 b g k x hdr pc i hnext h hl act
  obtain ⟨l, ls, hs⟩ := List.exists_cons_of_ne_nil h.some_
  obtain ⟨hid, hnum⟩ := mayIssue_ids h
  have hin : l ∈ x.select := by rw [hs]; exact List.mem_cons_self
  obtain ⟨-, hh, hp⟩ := hl l hin
  have hn := groupNext_word h hs fun j hj => ⟨(hl j hj).1, (hl j hj).2.1.trans hh.symm⟩
  refine ⟨fun hw ws hf hb hd => ?_, fun w hd v j hf hc hj hpc hb hdec => ?_⟩
  · refine stepIs_word hnext (hn.trans ?_)
    rw [groupWord_fetched hh hp h.error hf hb hd, hid, hnum]
    rfl
  · refine stepIs_word hnext (hn.trans ?_)
    have hv : nth 0 (wordsAs w hd v) ((pc - hdr) / 4) = BitVec.ofNat 32 (v j) := by
      rw [show (pc - hdr) / 4 = j + 1 by omega]
      exact nth_wordsAs w hd v hj
    rw [groupWord_fetches (h := hd) (w := w) (v := v) hh hp h.error hf (clauseAt_updGrp hc _ _ _) hb (by rw [hv, BitVec.toNat_ofNat]; exact hdec),
      hid, hnum, takeFetch_eq h]
    rfl

theorem groupOpensItsClause : GroupOpensItsClause := by
  intro s s0 b g k x hdr pc hnext h hl at_
  obtain ⟨l, ls, hs⟩ := List.exists_cons_of_ne_nil h.some_
  obtain ⟨hid, hnum⟩ := mayIssue_ids h
  have hin : l ∈ x.select := by rw [hs]; exact List.mem_cons_self
  obtain ⟨-, hh, hp⟩ := hl l hin
  have hn := groupNext_header h hs fun j hj => ⟨(hl j hj).1, (hl j hj).2.1.trans hh.symm⟩
  rw [hh] at hn
  refine ⟨fun w hd v hold hc => ?_, fun hw ws hd hold hf hw' => ?_⟩
  · have hpass : (decide (hdr ∈ x.sAhead) && !(tget [] x.fetched hdr).isEmpty) = false := by
      rcases hold with ho | ho
      · simp [ho]
      · simp [ho]
    have hc' := clauseAt_updGrp hc b g (fun _ => x)
    refine ⟨fun hpc => stepIs_word hnext (hn.trans ?_), fun hpc => stepIs_done hnext (hn.trans ?_)⟩
    · simp only [State.groupHeader, hs, hp, hpass, State.clauseIn, Bool.false_eq_true, if_false, fetchFor_of_clauseAt hc' hpc, hid, hnum, takeFetch_eq h]
      simp only [at_, hs]
    · simp only [State.groupHeader, hs, hp, hpass, State.clauseIn, Bool.false_eq_true, if_false, fetchFor_beyond hc' hpc, hid, hnum]
      simp only [at_, hs]
      rfl
  · refine stepIs_word hnext (hn.trans ?_)
    simp only [State.groupHeader, hs, hf, hold, State.clauseIn, heldClause, hw', List.isEmpty_cons, Bool.not_false, Bool.and_true, decide_true, if_true, hid, hnum]
    simp only [at_, hs]

/-! ### A stream and a management core -/

theorem streamsRunTheirWords : StreamsRunTheirWords := by
  intro s s0 b copy k hnext hk y who hrun hstop hmode c
  have hgo : (!y.running || k.stopping || decide (k.mode ≠ .run)) = false := by simp [hrun, hstop, hmode]
  refine ⟨fun w h v hent hpc hc => stepIs_word hnext ?_, fun hw ws h i hent hfet hh hpc hd => stepIs_word hnext ?_⟩
  · have hf : s0.clauseIn (.part k.trec.part) who y.hdr (if copy && y.entered then y.pc - 4 else y.pc) y.entered y.fetched =
        .inl (h, wordsAs w h v) := by
      simp only [hent, Bool.and_false, Bool.false_eq_true, if_false, State.clauseIn, fetchFor_of_clauseAt hc hpc]
    have hn : s0.streamNext b copy = .word h.instr { withStream s0 b copy { y with fetched := wordsAs w h v } with cur := c y.hdr h.n h.y } := by
      simp only [State.streamNext, hk]
      rw [if_neg (Bool.eq_false_iff.1 hgo), hf]
      simp only
      rw [if_pos (show (!y.entered) = true by rw [hent]; rfl)]
      rfl
    cases copy <;> exact hn
  · have hf : s0.clauseIn (.part k.trec.part) who y.hdr (if copy && y.entered then y.pc - 4 else y.pc) y.entered y.fetched =
        .inl (h, y.fetched) := by
      simp only [hent, hfet, State.clauseIn, heldClause, hh, if_true]
    have hend : (copy && decide (y.pc = y.hdr + 4 * (h.n + 1))) = false := by
      rw [decide_eq_false (by omega), Bool.and_false]
    have hn : s0.streamNext b copy = .word i { withStream s0 b copy y with cur := c y.pc h.n h.y } := by
      simp only [State.streamNext, hk]
      rw [if_neg (Bool.eq_false_iff.1 hgo), hf]
      simp only
      rw [if_neg (show ¬(!y.entered) = true by rw [hent]; decide), if_neg (Bool.eq_false_iff.1 hend)]
      rw [hfet]
      rw [← hfet] at hd ⊢
      exact issue_ok hd
    cases copy <;> exact hn

theorem mgmtRunsItsWords : MgmtRunsItsWords := by
  intro s s0 m hnext k hstop hwait hboot c
  have hgo : (k.stopped || k.waiting || (decide (m = 0) && decide (s0.xd.boot ≠ 0xF0))) = false := by
    simpa [hstop, hwait] using hboot
  refine ⟨fun w h v hent hpc hc => stepIs_word hnext ?_, fun hw ws h i hent hfet hh hd => stepIs_word hnext ?_⟩
  · have hf : s0.clauseIn (.mgmt m) .mgmt k.hdr k.pc.toNat k.entered k.fetched = .inl (h, wordsAs w h v) := by
      simp only [hent, Bool.false_eq_true, if_false, State.clauseIn, fetchFor_of_clauseAt hc hpc]
    simp only [State.nextOf, State.mgmtNext]
    rw [if_neg (Bool.eq_false_iff.1 hgo), hf]
    simp only
    rw [if_pos (show (!k.entered) = true by rw [hent]; rfl)]
  · have hf : s0.clauseIn (.mgmt m) .mgmt k.hdr k.pc.toNat k.entered k.fetched = .inl (h, k.fetched) := by
      simp only [hent, hfet, State.clauseIn, heldClause, hh, if_true]
    simp only [State.nextOf, State.mgmtNext]
    rw [if_neg (Bool.eq_false_iff.1 hgo), hf]
    simp only
    rw [if_neg (show ¬(!k.entered) = true by rw [hent]; decide)]
    rw [← hfet] at hd
    exact issue_ok hd

/-! ### The scalar side of a group -/

/-- The scalar side opens a class S clause at which the wide side stands: each group of that number takes the clause (R126). -/
theorem scalarSide_opens {s s0 : State} {b g l w : Nat} {k : Block} {x : Group} {ls : List Nat} {h : Hdr} {v : Nat → Nat}
    (hnext : Next s (.scalar b g) s0) (hf : s0.bg b g = some (k, x)) (hend : x.ended = false) (hh : k.haltedFor g = false)
    (hfault : x.sFault = none) (hsc : x.sc = none) (hs : x.select = l :: ls) (hent : (x.lane l).entered = false)
    (hahead : (x.lane l).hdr ∉ x.sAhead) (hc : ClauseAt s0 (.part k.trec.part) .group (x.lane l).hdr w h v) (hcls : h.cls = 0)
    (hpc : (x.lane l).pc.toNat ≤ (x.lane l).hdr + 4 * h.n) :
    StepIs s s0 (exec h.instr { s0.takeFetch k g (x.lane l).hdr (wordsAs w h v) with
      cur := ⟨.scalar b g, [], [0], (x.lane l).pc.toNat, (x.lane l).hdr, h.n, h.y⟩ }) := by
  have hfetch := fetchFor_of_clauseAt hc hpc
  have hat : s0.atScalar k x = true := by
    simp only [State.atScalar, hs, hsc, hfault, hfetch, hcls]
    simp [hent, hahead]
  refine stepIs_word hnext ?_
  simp only [State.nextOf, State.scalarNext, hf, hend, hh, hfault, Option.isSome_none, Bool.or_self, Bool.false_eq_true, if_false, hsc,
    hat, Bool.not_true, Bool.false_and, hs, hfetch, hcls]
  rfl

/-- The scalar side runs the words of the clause that it is in (R126). -/
theorem scalarSide_runs {s s0 : State} {b g : Nat} {k : Block} {x : Group} {r : ScRun} {hw : W32} {ws : List W32} {i : Instr}
    (hnext : Next s (.scalar b g) s0) (hf : s0.bg b g = some (k, x)) (hend : x.ended = false) (hh : k.haltedFor g = false)
    (hfault : x.sFault = none) (hsc : x.sc = some r) (hr : x.resErr = false) (hfet : tget [] x.fetched r.hdr = hw :: ws)
    (hb : NoBreak k x (r.hdr + 4 * (r.idx + 1))) (hd : decodeWord 0 (nth 0 (hw :: ws) (r.idx + 1)).toNat = .ok i) :
    StepIs s s0 (exec i { s0 with cur :=
      ⟨.scalar b g, [], if r.on then [0] else [], r.hdr + 4 * (r.idx + 1), r.hdr, r.n, r.y⟩ }) := by
  refine stepIs_word hnext ?_
  simp only [State.nextOf, State.scalarNext, hf, hend, hh, hfault, Option.isSome_none, Bool.or_self, Bool.false_eq_true, if_false, hsc,
    hfet, hr, stopsAt_of_noBreak hb]
  exact issue_ok hd

/-- The header of a class S clause of one word. -/
def oneWordS : Hdr := ⟨1, 0, false, 0, false, 0, false, 0, 0⟩
/-- A second group of the number 0, with a lane more. -/
def twinGrp : Group := { Tests.headGrp with nlanes := 2 }
def twinBlk : Block := { Tests.blk Tests.headGrp with groups := [Tests.headGrp, twinGrp] }
/-- Block 0 with two groups of the number 0, at a class S clause that stands in code. -/
def twins : State :=
  { (State.reset.putProgram (Tests.streamCode 0 (.sadd 63 0 0)) twinBlk (.scalar 0 0)) with agenda := [] }

theorem twins_next : Next (Tests.turn (.scalar 0 0) twins) (.scalar 0 0) (Tests.after (.scalar 0 0) twins) :=
  Tests.next_of _ _ (by decide)

theorem twins_clause : ClauseAt (Tests.after (.scalar 0 0) twins) (.part 0) .group 0x02000000 (fetchHeader 0) oneWordS
    (fun _ => Tests.wordOf (.sadd 63 0 0)) :=
  ⟨by decide, by decide, rfl, by intro j hj; obtain rfl : j = 0 := Nat.lt_one_iff.mp hj; decide⟩

/-- The counts of lanes of the groups of a step's next state, by blocks, and whether that state waits for a page of a cuff. -/
def lanesAfter (o : Out) : Option (List (List Nat) × Bool) :=
  match o with
  | .next t => some (t.blocks.map (fun k => k.groups.map (fun x => x.nlanes)), t.stalled)
  | _ => none

theorem lanesAfter_step {s s0 : State} {o : Out} {n : List (List Nat)} (h : StepIs s s0 o) (hn : lanesAfter o = some (n, false)) :
    lanesAfter (step s) = some (n, false) := by
  rw [h.1 ?_, hn]
  rintro t rfl
  exact congrArg Prod.snd (Option.some.inj hn)

/-- Refutes O55 by `ScalarRunsItsWords`: where a block holds two groups of one number, the model lets each of them take the clause
(`scalarSide_opens`), while the statement puts the first of them in the place of both. All its other clauses hold: `groupRunsItsWord`,
`groupOpensItsClause`, `scalarSide_runs`, `streamsRunTheirWords`, `mgmtRunsItsWords`, `eventsAndTimeouts` and `duesInOrder`. -/
theorem not_stepRunsTheDecodedWord : ¬ Obligations.StepRunsTheDecodedWord := by
  unfold Obligations.StepRunsTheDecodedWord
  rintro ⟨-, -, hscalar, -⟩
  have hf : (Tests.after (.scalar 0 0) twins).bg 0 0 = some (twinBlk, Tests.headGrp) := rfl
  have opens := scalarSide_opens (l := 0) (ls := []) twins_next hf rfl (by decide) rfl rfl rfl rfl (by decide) twins_clause rfl (by decide)
  have claimed := (hscalar _ _ 0 0 _ _ twins_next hf rfl (by decide) rfl).2 0 [] _ _ _ rfl rfl rfl (by decide) twins_clause rfl (by decide)
  have two := lanesAfter_step opens (n := [[1, 2]]) (by decide)
  have one := lanesAfter_step claimed (n := [[1, 1]]) (by decide)
  exact absurd (two.symm.trans one) (by decide)

end Sys2Proof.Machine

/-! ## The frames of words -/

namespace Sys2Proof.Machine
open Claims

/-- A meaning answers a next state. -/
def GoesOn (o : Out) : Prop := ∃ t, o = .next t

theorem GoesOn.next {t : State} : GoesOn (.next t) := ⟨t, rfl⟩

theorem GoesOn.ite {c : Prop} [Decidable c] {o o' : Out} (h : GoesOn o) (h' : GoesOn o') : GoesOn (if c then o else o') := by
  split <;> assumption

/-- The wide side of a group that stands is the current agent. -/
def State.OnGroup (s : State) (b g : Nat) (k : Block) (x : Group) : Prop := s.cur.ag = .group b g ∧ s.bg b g = some (k, x)

/-! ### Class W -/

/-- A meaning that acts in the frame of class W, on the slots that it names. -/
def WideForm (slots : List (View × Nat)) (s : State) (o : Out) : Prop := ∃ f, o = wideWord slots f s

section
variable {s : State} {vw : View} {t d a b : Nat}

theorem WideForm.wideReg {srcs f} : WideForm ((if t = 1 then [] else [(vw, d)]) ++ srcs.map (fun n => (vw, n))) s (wideReg vw t d srcs f s) :=
  ⟨_, rfl⟩

theorem WideForm.lane1 {dep f} : WideForm ((if t = 1 then [] else [(vw, d)]) ++ [(vw, a)]) s (lane1 vw dep t d a f s) := WideForm.wideReg

theorem WideForm.lane2 {dep f} : WideForm ((if t = 1 then [] else [(vw, d)]) ++ [(vw, a), (vw, b)]) s (lane2 vw dep t d a b f s) :=
  WideForm.wideReg

theorem WideForm.lane3 {dep f} : WideForm ((if t = 1 then [] else [(vw, d)]) ++ [(vw, a), (vw, b), (vw, dSrc t d)]) s
    (lane3 vw dep t d a b f s) := WideForm.wideReg

theorem WideForm.part1 {f} : WideForm ((if t = 1 then [] else [(vw, d)]) ++ [(vw, a)]) s (part1 vw t d a f s) := WideForm.wideReg

theorem WideForm.part2 {f} : WideForm ((if t = 1 then [] else [(vw, d)]) ++ [(vw, a), (vw, b)]) s (part2 vw t d a b f s) := WideForm.wideReg

theorem WideForm.part3 {f} : WideForm ((if t = 1 then [] else [(vw, d)]) ++ [(vw, a), (vw, b), (vw, dSrc t d)]) s
    (part3 vw t d a b f s) := WideForm.wideReg

theorem WideForm.wideSel {ok f} : WideForm ((if t = 1 then [] else [(vw, d)]) ++ [(vw, a), (vw, b)]) s (wideSel vw t d a b ok f s) :=
  WideForm.wideReg

theorem WideForm.exchange {pick} : WideForm ((if t = 1 then [] else [(vw, d)]) ++ [(vw, a), (vw, b)]) s (exchange vw t d a b pick s) :=
  WideForm.wideReg

theorem WideForm.wideCtl {srcs ok ctl pick f} : WideForm ((if t = 1 then [] else [(vw, d)]) ++ srcs.map (fun n => (vw, n))) s
    (wideCtl vw t d srcs ok ctl pick f s) := WideForm.wideReg

theorem WideForm.widePred {p slots f} : WideForm slots s (widePred p slots f s) := ⟨_, rfl⟩

theorem WideForm.wideCmp {p f} : WideForm [(vw, a), (vw, b)] s (wideCmp vw p a b f s) := WideForm.widePred

theorem WideForm.predWord {f} : WideForm [] s (predWord d f s) := WideForm.widePred

theorem WideForm.execVpack {e} : WideForm ((if t = 1 then [] else [(.v, d)]) ++ [(.v, a), (.v, b)]) s (execVpack d a b t e s) := by
  unfold Machine.execVpack
  exact ⟨_, rfl⟩

end

/-- The words of class W that name slots act in its frame on those slots. -/
theorem exec_wideSlots {i : Instr} {slots : List (View × Nat)} (h : wideSlots i = some slots) (s : State) :
    WideForm slots s (exec i s) := by
  cases i
  case vadd | vsub | vmul | vmulh | vaddc | vmin | vmax | vshl | vshr | vsra | vbfx | vlea =>
    cases h
    simp only [Machine.exec]
    delta execVadd execVsub execVmul execVmulh execVaddc execVmin execVmax execVshl execVshr execVsra execVbfx execVlea
    exact WideForm.lane2
  case vmac | vbfi =>
    cases h
    simp only [Machine.exec]
    delta execVmac execVbfi
    exact WideForm.lane3
  case vabs | vneg | vpopc | vclz | vbrev =>
    cases h
    simp only [Machine.exec]
    delta execVabs execVneg execVpopc execVclz execVbrev
    exact WideForm.lane1
  case vand | vor | vxor | vfadd | vfsub | vfmul | vfmin | vfmax | vfadd2 | vfmul2 =>
    cases h
    simp only [Machine.exec]
    delta execVand execVor execVxor execVfadd execVfsub execVfmul execVfmin execVfmax execVfadd2 execVfmul2
    exact WideForm.part2
  case vnot | vfclass | vfrcp | vfrsq | vfsqrt | vfexp2 | vflog2 | vftanh =>
    cases h
    simp only [Machine.exec]
    delta execVnot execVfclass execVfrcp execVfrsq execVfsqrt execVfexp2 execVflog2 execVftanh
    exact WideForm.part1
  case vsel | vfma | vfma2 =>
    cases h
    simp only [Machine.exec]
    delta execVsel execVfma execVfma2
    exact WideForm.part3
  case vcmp | vfcmp =>
    cases h
    simp only [Machine.exec]
    delta execVcmp execVfcmp
    exact WideForm.wideCmp
  case vmov | vmovi | vlui | vqsum | vballot =>
    cases h
    simp only [Machine.exec]
    delta execVmov execVmovi execVlui execVqsum execVballot
    exact WideForm.wideReg
  case vsrnd | vmxq =>
    cases h
    simp only [Machine.exec]
    delta execVsrnd execVmxq
    exact WideForm.wideCtl
  case vunpk | vplane | vmxscale | vbcast | vred | vscan | vsys =>
    cases h
    simp only [Machine.exec]
    delta execVunpk execVplane execVmxscale execVbcast execVred execVscan execVsys
    exact WideForm.wideSel
  case vqswap | vqbcast | vshfl =>
    cases h
    simp only [Machine.exec]
    delta execVqswap execVqbcast execVshfl
    exact WideForm.exchange
  case vpack =>
    cases h
    exact WideForm.execVpack
  case vcvt d a c r m t v =>
    simp only [Machine.exec]
    unfold execVcvt
    by_cases hv : v = 1
    · simp only [wideSlots, intWord, hv, if_true] at h ⊢
      cases h
      exact WideForm.wideReg
    · simp only [wideSlots, intWord, partWord, hv, if_false] at h ⊢
      cases h
      exact WideForm.part1
  case vrng d a b t v =>
    simp only [Machine.exec]
    unfold execVrng
    by_cases hv : v = 1
    · simp only [wideSlots, intWord, hv, if_true] at h ⊢
      cases h
      exact WideForm.lane2
    · simp only [wideSlots, intWord, partWord, hv, if_false] at h ⊢
      cases h
      exact WideForm.part2
  all_goals cases h

/-- A class W word that names a slot outside its window raises `protection` (R116). -/
theorem WideForm.outside {s : State} {b g : Nat} {k : Block} {x : Group} {slots : List (View × Nat)} {o : Out} (hi : s.Issues b g k x)
    (hs : ¬SlotsIn k x slots) (h : WideForm slots s o) : o = .next (s.raise 0x07 0) := by
  obtain ⟨f, rfl⟩ := h
  have hok : Wx.slotsOk ⟨k, x, s.cur.act, x.helpers s.cur.act⟩ slots = false := by
    rw [Bool.eq_false_iff]
    intro hall
    refine hs fun p hp hlt => ?_
    have := List.all_eq_true.1 hall p hp
    simpa [Nat.not_le.2 hlt] using this
  simp only [wideWord, hi.agent, hi.found, hi.some_, if_false, hok, Bool.false_eq_true]

theorem slotsOutsideWindowsFault : SlotsOutsideWindowsFault := by
  unfold SlotsOutsideWindowsFault
  exact fun i slots s b g k x _ hw hi hs => (exec_wideSlots hw s).outside hi hs

/-! ### Classes M, C, Y and F -/

/-- A meaning that acts in the frame of a join clause's words. -/
def JoinForm (s : State) (o : Out) : Prop := ∃ f, o = joinWord f s ∧ ∀ k x act, GoesOn (f k x act)

section
variable {s : State}

theorem JoinForm.of {f : Block → Group → List Nat → Out} (h : ∀ k x act, GoesOn (f k x act)) : JoinForm s (joinWord f s) := ⟨f, rfl, h⟩

theorem GoesOn.afterChecks {b : Block} {ls : List La} {go : Out} (h : GoesOn go) : GoesOn (s.afterChecks b ls go) := by
  unfold State.afterChecks
  split
  · exact h
  · exact .next
  · exact .next
  · exact .next

theorem GoesOn.orCrowded {t : State} {c : Nat} {go : Out} (h : GoesOn go) : GoesOn (s.orCrowded t c go) := by
  unfold State.orCrowded
  exact .ite .next h

theorem JoinForm.loadWord {z sb d f slots} : JoinForm s (loadWord z sb d f slots s) := by
  unfold Machine.loadWord
  exact .of fun _ _ _ => .ite (.afterChecks (.ite .next (.ite .next (.orCrowded .next)))) .next

theorem JoinForm.storeWord {z sb d f slots} : JoinForm s (storeWord z sb d f slots s) := by
  unfold Machine.storeWord
  refine .of fun _ _ _ => .ite (.afterChecks (.ite .next (.orCrowded ?_))) .next
  split <;> exact .next

theorem JoinForm.runWord {r z o f} (h : ∀ k x rs, GoesOn (f k x rs)) : JoinForm s (runWord r z o f s) := by
  unfold Machine.runWord
  refine .of fun _ _ _ => .ite .next ?_
  split
  · exact .next
  · split
    · exact .next
    · exact h _ _ _

theorem JoinForm.execVldt {d z r o b} : JoinForm s (execVldt d z r o b s) := by
  unfold Machine.execVldt
  exact .of fun _ _ _ => .ite .next (.ite .next (.ite .next (.ite .next (.ite .next (.ite .next .next)))))

theorem JoinForm.execVpref {z r o b} : JoinForm s (execVpref z r o b s) := .of fun _ _ _ => .ite .next .next

theorem JoinForm.execPrswait {z r o} : JoinForm s (execPrswait z r o s) := .runWord fun _ _ _ => .ite .next .next

theorem JoinForm.execPhase {z} : JoinForm s (execPhase z s) := by
  unfold Machine.execPhase
  refine .of fun _ _ _ => ?_
  dsimp only
  split <;> exact .next

/-- The words of class M act in the frame of a join clause's words. -/
theorem exec_memory {i : Instr} (hc : Sys2Proof.classOf i = some 2) (s : State) : JoinForm s (exec i s) := by
  cases i
  case vld => exact JoinForm.loadWord
  case vldsp => exact JoinForm.loadWord
  case vldx => exact JoinForm.loadWord
  case vst => exact JoinForm.storeWord
  case vstsp => exact JoinForm.storeWord
  case vstx => exact JoinForm.storeWord
  case vldt => exact JoinForm.execVldt
  case vpref => exact JoinForm.execVpref
  case prsclr => exact JoinForm.runWord fun _ _ _ => .next
  case prstest => exact JoinForm.runWord fun _ _ _ => .next
  case prswait => exact JoinForm.execPrswait
  case phase => exact JoinForm.execPhase
  all_goals cases hc

theorem JoinForm.atomicWord {o d a b v} : JoinForm s (atomicWord o d a b v s) := by
  unfold Machine.atomicWord
  refine .of fun _ _ _ => .ite .next (.ite .next (.ite .next (.ite .next ?_)))
  split
  · exact .next
  · exact .next
  · refine .ite .next (.ite .next (.ite .next ?_))
    split
    · exact .next
    · dsimp only
      split <;> exact .next

theorem JoinForm.depWord {d a v n extra f} : JoinForm s (depWord d a v n extra f s) := by
  unfold Machine.depWord
  refine .of fun _ _ _ => .ite .next (.ite .next ?_)
  split
  · exact .next
  · exact .next
  · refine .ite .next (.ite .next ?_)
    split
    · exact .next
    · dsimp only
      split <;> exact .next

theorem JoinForm.execTkmake {d a b v} : JoinForm s (execTkmake d a b v s) := by
  unfold Machine.execTkmake
  refine .of fun _ _ _ => .ite .next (.ite .next ?_)
  split
  · exact .next
  · exact .next
  · exact .next
  · exact .next
  · refine .ite .next (.ite .next (.ite .next (.ite .next ?_)))
    split
    · exact .next
    · dsimp only
      split <;> exact .next

theorem JoinForm.execTktake {d v} : JoinForm s (execTktake d v s) := by
  unfold Machine.execTktake
  refine .of fun _ _ _ => .ite .next ?_
  split <;> exact .next

theorem JoinForm.execMsync {a} : JoinForm s (execMsync a s) := by
  unfold Machine.execMsync
  refine .of fun _ _ _ => .ite .next ?_
  split
  · exact .next
  · exact .ite .next .next

theorem JoinForm.execBarar {i} : JoinForm s (execBarar i s) := .of fun _ _ _ => .ite .next .next

theorem JoinForm.execBarwt {i} : JoinForm s (execBarwt i s) := .of fun _ _ _ => .ite .next .next

theorem JoinForm.execBarsync {i} : JoinForm s (execBarsync i s) := by
  unfold Machine.execBarsync
  exact .of fun _ _ _ => .ite .next (.ite .next .next)

theorem JoinForm.execCljoin {d a b v} : JoinForm s (execCljoin d a b v s) := by
  unfold Machine.execCljoin
  exact .of fun _ _ _ => .ite .next (.ite .next (.ite .next (.ite .next .next)))

theorem JoinForm.execClleave {d v} : JoinForm s (execClleave d v s) := by
  unfold Machine.execClleave
  refine .of fun _ _ _ => .ite .next ?_
  split
  · exact .next
  · exact .ite .next .next

theorem JoinForm.execClslot {d v} : JoinForm s (execClslot d v s) := .of fun _ _ _ => .ite .next .next

theorem JoinForm.objectWord {d a b two f} (h : ∀ k x act o m xs, GoesOn (f k x act o m xs)) : JoinForm s (objectWord d a b two f s) := by
  unfold Machine.objectWord
  refine .of fun _ _ _ => .ite .next (.ite .next (.ite .next ?_))
  split
  · exact .next
  · exact h _ _ _ _ _ _

theorem JoinForm.positionWord {d a two f} (h : ∀ k x act p, GoesOn (f k x act p)) : JoinForm s (positionWord d a two f s) := by
  unfold Machine.positionWord
  exact .of fun _ _ _ => .ite .next (.ite .next (.ite .next (h _ _ _ _)))

theorem JoinForm.execRowait {d a} : JoinForm s (execRowait d a s) := .positionWord fun _ _ _ _ => .ite .next .next

theorem JoinForm.execRoread {d a b} : JoinForm s (execRoread d a b s) := .objectWord fun _ _ _ _ _ _ => .ite .next .next

theorem JoinForm.execRotrim {d a} : JoinForm s (execRotrim d a s) := .positionWord fun _ _ _ _ => .next

/-- The words of class Y but `rocall` act in the frame of a join clause's words. -/
theorem exec_yield {i : Instr} (hc : Sys2Proof.classOf i = some 5) (hcall : ∀ d a b, i ≠ .rocall d a b) (s : State) :
    JoinForm s (exec i s) := by
  cases i
  case atadd | atinc | atbadd | atmin | atmax | atand | ator | atxor | atxchg | atcas | atld | atred =>
    simp only [Machine.exec]
    delta execAtadd execAtinc execAtbadd execAtmin execAtmax execAtand execAtor execAtxor execAtxchg execAtcas execAtld execAtred
    exact JoinForm.atomicWord
  case barar => exact JoinForm.execBarar
  case barwt => exact JoinForm.execBarwt
  case barsync => exact JoinForm.execBarsync
  case msync => exact JoinForm.execMsync
  case cljoin => exact JoinForm.execCljoin
  case clleave => exact JoinForm.execClleave
  case clslot => exact JoinForm.execClslot
  case tkdec | tkadd =>
    simp only [Machine.exec]
    delta execTkdec execTkadd
    exact JoinForm.depWord
  case tkmake => exact JoinForm.execTkmake
  case tktake => exact JoinForm.execTktake
  case rowait => exact JoinForm.execRowait
  case roread => exact JoinForm.execRoread
  case rotrim => exact JoinForm.execRotrim
  case rocall d a b => exact absurd rfl (hcall d a b)
  all_goals cases hc

/-! ### Class F -/

theorem JoinForm.execBra {n c o} : JoinForm s (execBra n c o s) := by
  unfold Machine.execBra
  refine .of fun _ _ _ => ?_
  split
  · exact .next
  · split <;> exact .next

section
variable {b g : Nat} (ha : s.cur.ag = .group b g)
include ha

theorem JoinForm.execBru {n c o} : JoinForm s (execBru n c o s) := by
  unfold Machine.execBru
  simp only [ha]
  refine .of fun _ _ _ => .ite ?_ .next
  split <;> exact .next

theorem JoinForm.execJmpi {a v} : JoinForm s (execJmpi a v s) := by
  unfold Machine.execJmpi
  simp only [ha]
  refine .of fun _ _ _ => .ite ?_ .next
  split <;> exact .next

theorem JoinForm.execCall {i} : JoinForm s (execCall i s) := by
  unfold Machine.execCall
  simp only [ha]
  refine .of fun _ _ _ => .ite .next ?_
  split
  · exact .next
  · split
    · exact .next
    · split <;> exact .next

theorem JoinForm.execRet : JoinForm s (execRet s) := by
  unfold Machine.execRet
  simp only [ha]
  refine .of fun _ _ _ => ?_
  split
  · exact .next
  · split <;> exact .next

theorem JoinForm.execNop : JoinForm s (execNop s) := by
  unfold Machine.execNop
  simp only [ha]
  exact .of fun _ _ _ => .next

end

theorem JoinForm.execSpawn {d a b v} : JoinForm s (execSpawn d a b v s) := by
  unfold Machine.execSpawn
  refine .of fun _ _ _ => .ite .next ?_
  dsimp only
  split
  · exact .next
  · exact .ite .next .next

theorem JoinForm.execExit : JoinForm s (execExit s) := by
  unfold Machine.execExit
  refine .of fun _ _ _ => ?_
  dsimp only
  split
  · exact .next
  · exact .ite (.ite .next .next) .next

theorem JoinForm.execFork {k} : JoinForm s (execFork k s) := by
  unfold Machine.execFork
  refine .of fun _ _ _ => .ite .next (.ite .next (.afterChecks (.orCrowded (.ite .next (.ite .next (.ite .next ?_))))))
  dsimp only
  split <;> exact .next

theorem JoinForm.execRdv {k} : JoinForm s (execRdv k s) := .of fun _ _ _ => .ite .next .next

/-- The words of class F of a group act in the frame of a join clause's words. -/
theorem exec_flow {i : Instr} (hc : Sys2Proof.classOf i = some 6) {b g : Nat} (ha : s.cur.ag = .group b g) : JoinForm s (exec i s) := by
  cases i
  case bra => exact JoinForm.execBra
  case bru => exact JoinForm.execBru ha
  case jmpi => exact JoinForm.execJmpi ha
  case call => exact JoinForm.execCall ha
  case ret => exact JoinForm.execRet ha
  case enrol | rejoin | strike | yield =>
    simp only [Machine.exec]
    delta execEnrol execRejoin execStrike execYield
    exact .of fun _ _ _ => .next
  case spawn => exact JoinForm.execSpawn
  case exit => exact JoinForm.execExit
  case nop => exact JoinForm.execNop ha
  case fork => exact JoinForm.execFork
  case rdv => exact JoinForm.execRdv
  all_goals cases hc

/-! ### Class C -/

/-- A meaning that acts in the frame of class C. -/
def CopyForm (s : State) (o : Out) : Prop := ∃ ok f, o = copyWord ok f s ∧ ∀ x, GoesOn (f x)

theorem CopyForm.of {ok : Bool} {f : Cx → Out} (h : ∀ x, GoesOn (f x)) : CopyForm s (copyWord ok f s) := ⟨ok, f, rfl, h⟩

theorem CopyForm.queueWord {ok vw a slots f} (h : ∀ x q, GoesOn (f x q)) : CopyForm s (queueWord ok vw a slots f s) := by
  unfold Machine.queueWord
  refine .of fun _ => .ite .next (.ite .next ?_)
  split
  · exact .next
  · exact h _ _

theorem CopyForm.postWord {ok a b v f} (h : ∀ t x q p, GoesOn (f t x q p)) : CopyForm s (postWord ok a b v f s) := by
  unfold Machine.postWord
  refine .queueWord fun _ _ => ?_
  split
  · exact .next
  · split
    · exact .next
    · split
      · exact .next
      · exact h _ _ _ _

theorem CopyForm.bitmapWord {ok a b v f} (h : ∀ x set, GoesOn (f x set)) : CopyForm s (bitmapWord ok a b v f s) := by
  unfold Machine.bitmapWord
  refine .of fun _ => .ite .next (.ite .next (.ite .next ?_))
  split
  · exact .next
  · exact h _ _

theorem CopyForm.execCfence {a b v} : CopyForm s (execCfence a b v s) := by
  unfold Machine.execCfence
  refine .queueWord fun _ _ => ?_
  split
  · exact .next
  · split <;> exact .next

theorem CopyForm.execCrec {d a b v} : CopyForm s (execCrec d a b v s) := by
  unfold Machine.execCrec
  exact .queueWord fun _ _ => .ite .next (.ite .next (.ite .next .next))

theorem CopyForm.execCabort {d a v} : CopyForm s (execCabort d a v s) := by
  unfold Machine.execCabort
  refine .of fun _ => .ite .next (.ite .next (.ite .next ?_))
  split <;> exact .next

theorem CopyForm.execCcoll {a v} : CopyForm s (execCcoll a v s) := by
  unfold Machine.execCcoll
  refine .of fun _ => .ite .next ?_
  split
  · exact .next
  · refine .ite .next ?_
    split
    · exact .next
    · exact .ite .next .next

theorem CopyForm.execCgen {d a v} : CopyForm s (execCgen d a v s) := .of fun _ => .ite .next (.ite .next .next)

theorem CopyForm.execCpost {a b v} : CopyForm s (execCpost a b v s) := .postWord fun _ _ _ _ => .next

theorem CopyForm.execCpostTry {n a b v} : CopyForm s (execCpostTry n a b v s) := .postWord fun _ _ _ _ => .ite .next .next

theorem CopyForm.execCwait {a b v} : CopyForm s (execCwait a b v s) := .bitmapWord fun _ _ => .ite .next .next

theorem CopyForm.execCtest {d a b v} : CopyForm s (execCtest d a b v s) := .bitmapWord fun _ _ => .next

/-- The words of class C act in its frame. -/
theorem exec_copy {i : Instr} (hc : Sys2Proof.classOf i = some 4) (s : State) : CopyForm s (exec i s) := by
  cases i
  case cpost => exact CopyForm.execCpost
  case cpostTry => exact CopyForm.execCpostTry
  case cwait => exact CopyForm.execCwait
  case ctest => exact CopyForm.execCtest
  case cfence => exact CopyForm.execCfence
  case crec => exact CopyForm.execCrec
  case cabort => exact CopyForm.execCabort
  case ccoll => exact CopyForm.execCcoll
  case cgen => exact CopyForm.execCgen
  all_goals cases hc

/-- On a group the frame of class C is that of a join clause's words. -/
theorem CopyForm.join {o : Out} (h : CopyForm s o) {b g : Nat} (ha : s.cur.ag = .group b g) : JoinForm s o := by
  obtain ⟨ok, f, rfl, hf⟩ := h
  simp only [copyWord, ha]
  exact .of fun _ _ _ => hf _

end

/-! ### Class S -/

/-- The scalar side of a group that stands, or a management core, is the current agent. -/
def State.OnScalar (s : State) : Prop := (∃ b g k x, s.cur.ag = .scalar b g ∧ s.bg b g = some (k, x)) ∨ ∃ m, s.cur.ag = .mgmt m

/-- A meaning that acts in the frame of class S, or that a management core refuses. -/
def ScalarForm (s : State) (o : Out) : Prop :=
  (∃ f, o = scalarWord f s ∧ ∀ r, GoesOn (f r)) ∨ ((∃ m, s.cur.ag = .mgmt m) ∧ GoesOn o)

section
variable {s : State}

theorem ScalarForm.of {f : SRegs → Out} (h : ∀ r, GoesOn (f r)) : ScalarForm s (scalarWord f s) := .inl ⟨f, rfl, h⟩

theorem ScalarForm.scalar2 {dep d a b f} : ScalarForm s (scalar2 dep d a b f s) := .of fun _ => .next

theorem ScalarForm.scalarFloat {d xs f} : ScalarForm s (scalarFloat d xs f s) := .of fun _ => .next

theorem ScalarForm.execScmp {c p a b} : ScalarForm s (execScmp c p a b s) := .of fun _ => .ite .next .next

section
variable (hs : s.OnScalar)
include hs

/-- The frame of a class S word that needs a group: its meaning may rest on the scalar side's standing. -/
theorem ScalarForm.groupScalar {f : SRegs → Out} (h : ∀ b g k x, s.cur.ag = .scalar b g → s.bg b g = some (k, x) → ∀ r, GoesOn (f r)) :
    ScalarForm s (groupScalar f s) := by
  obtain ⟨b, g, k, x, ha, hf⟩ | ⟨m, ha⟩ := hs
  · simp only [Machine.groupScalar, ha]
    exact .of (h b g k x ha hf)
  · simp only [Machine.groupScalar, ha]
    exact .inr ⟨⟨m, ha⟩, .next⟩

theorem ScalarForm.execSld {d a z o} : ScalarForm s (execSld d a z o s) := by
  unfold Machine.execSld
  refine .of fun _ => .ite .next ?_
  obtain ⟨b, g, k, x, ha, hf⟩ | ⟨m, ha⟩ := hs
  · simp only [ha, hf]
    split
    · exact .next
    · exact .ite .next (.orCrowded (.ite .next .next))
  · simp only [ha]
    split
    · exact .next
    · exact .ite .next .next
    · exact .next

theorem ScalarForm.execSst {d a z o} : ScalarForm s (execSst d a z o s) := by
  unfold Machine.execSst
  refine .of fun _ => .ite .next ?_
  obtain ⟨b, g, k, x, ha, hf⟩ | ⟨m, ha⟩ := hs
  · simp only [ha, hf]
    split
    · exact .next
    · refine .orCrowded ?_
      split <;> exact .next
  · simp only [ha]
    split
    · exact .next
    · exact .ite .next .next
    · exact .ite .next .next

theorem ScalarForm.execQfwd {a} : ScalarForm s (execQfwd a s) := by
  unfold Machine.execQfwd
  refine .groupScalar hs fun b g k x ha hf _ => ?_
  simp only [ha, hf]
  exact .ite .next (.ite .next .next)

theorem ScalarForm.execQret {d} : ScalarForm s (execQret d s) := by
  unfold Machine.execQret
  refine .groupScalar hs fun b g k x ha hf _ => ?_
  simp only [ha, hf]
  split <;> exact .next

theorem ScalarForm.execSgid {d n} : ScalarForm s (execSgid d n s) := by
  unfold Machine.execSgid
  refine .groupScalar hs fun b g k x ha hf _ => ?_
  simp only [ha, hf]
  exact .next

/-- The words of class S act in its frame. -/
theorem exec_scalar {i : Instr} (hc : Sys2Proof.classOf i = some 0) : ScalarForm s (exec i s) := by
  cases i
  case sadd | ssub | smul | smulh | sand | sor | sxor | sshl | sshr | ssra | smin | smax =>
    simp only [Machine.exec]
    delta execSadd execSsub execSmul execSmulh execSand execSor execSxor execSshl execSshr execSsra execSmin execSmax
    exact ScalarForm.scalar2
  case smov | smovi | slui | ssel | sclk =>
    simp only [Machine.exec]
    delta execSmov execSmovi execSlui execSsel execSclk
    exact .of fun _ => .next
  case sfadd | sfmul | sfma =>
    simp only [Machine.exec]
    delta execSfadd execSfmul execSfma
    exact ScalarForm.scalarFloat
  case scmp => exact ScalarForm.execScmp
  case sld => exact ScalarForm.execSld hs
  case sst => exact ScalarForm.execSst hs
  case qfwd => exact ScalarForm.execQfwd hs
  case qret => exact ScalarForm.execQret hs
  case sgid => exact ScalarForm.execSgid hs
  all_goals cases hc

end

end

/-! ### Words without active lanes (R18) -/

section
variable {s : State} {b g : Nat} {k : Block} {x : Group} (hg : s.OnGroup b g k x) (he : s.cur.act = [])
include hg he

theorem WideForm.empty {slots : List (View × Nat)} {o : Out} (h : WideForm slots s o) : o = .next s.retire := by
  obtain ⟨f, rfl⟩ := h
  simp only [wideWord, hg.1, hg.2, he, if_true]

theorem joinWord_empty (f : Block → Group → List Nat → Out) : joinWord f s = .next s.retire := by
  simp only [joinWord, hg.1, hg.2, he, if_true]

theorem JoinForm.empty {o : Out} (h : JoinForm s o) : o = .next s.retire := by
  obtain ⟨f, rfl, -⟩ := h
  exact joinWord_empty hg he f

/-- The words of class W that the tables of slots leave out: those on predicates and on the queues. -/
theorem exec_wide_empty {i : Instr} (hc : Sys2Proof.classOf i = some 1) : exec i s = .next s.retire := by
  cases hw : wideSlots i with
  | some slots => exact (exec_wideSlots hw s).empty hg he
  | none =>
    cases i
    case pand | por | pxor | pnot | pmov | pset =>
      simp only [Machine.exec]
      delta execPand execPor execPxor execPnot execPmov execPset
      exact WideForm.predWord.empty hg he
    case vqpop =>
      simp only [Machine.exec, execVqpop, hg.1, hg.2, he, if_true]
    case vqpush =>
      simp only [Machine.exec, execVqpush, hg.1, hg.2, he, if_true]
    case vcvt d a c r m t v =>
      by_cases hv : v = 1 <;> simp [wideSlots, intWord, partWord, hv] at hw
    case vrng d a b t v =>
      by_cases hv : v = 1 <;> simp [wideSlots, intWord, partWord, hv] at hw
    all_goals cases hc
    all_goals cases hw

omit he in
theorem State.bg_retire : ∃ k', s.retire.bg b g = some (k', x.retire s.cur) := by
  have h := State.bg_updGrp (fun y => y.retire s.cur) hg.2 fun y hy => by simpa using hy
  simp only [State.retire, hg.1, State.retireGroup, hg.2]
  split
  · exact ⟨_, (State.updQuad_bg ..).trans h⟩
  · exact ⟨_, h⟩

/-- A word that has retired waits for nothing, so that no wait of its own is counted from its issue (R372). -/
theorem execRocall_empty {d a c : Nat} : execRocall d a c s = .next s.retire := by
  obtain ⟨k', hr⟩ := State.bg_retire hg
  have hw : (x.retire s.cur).wait = none := by
    obtain ⟨_, _, _, _, _, e⟩ := x.retire_rest s.cur
    rw [e]
  have hi : ∀ w, s.retire.fromIssue b g w = s.retire := fun w => by simp only [State.fromIssue, hr, hw]
  unfold execRocall
  rw [joinWord_empty hg he]
  simp only [State.sinceIssue, hg.1, hg.2, hi, ite_self]
  split <;> rfl

end

theorem ScalarForm.empty {s : State} {b g : Nat} {k : Block} {x : Group} {o : Out} (ha : s.cur.ag = .scalar b g)
    (hf : s.bg b g = some (k, x)) (he : s.cur.act = []) (h : ScalarForm s o) : o = .next s.retire := by
  obtain ⟨f, rfl, -⟩ | ⟨⟨m, hm⟩, -⟩ := h
  · simp only [scalarWord, State.sregs, ha, hf, he, if_true]
  · rw [ha] at hm; cases hm

theorem emptyWordsOnlyRetire : EmptyWordsOnlyRetire := by
  unfold EmptyWordsOnlyRetire
  intro i s b g k x _ hf he
  refine ⟨fun ha hc => ?_, fun ha hc => (exec_scalar (.inl ⟨b, g, k, x, ha, hf⟩) hc).empty ha hf he⟩
  have hg : s.OnGroup b g k x := ⟨ha, hf⟩
  rcases hc with hc | hc | hc | hc | hc
  · exact exec_wide_empty hg he hc
  · exact (exec_memory hc s).empty hg he
  · exact ((exec_copy hc s).join ha).empty hg he
  · by_cases hcall : ∃ d a b, i = .rocall d a b
    · obtain ⟨d, a, c, rfl⟩ := hcall
      exact execRocall_empty hg he
    · exact (exec_yield hc (fun d a c e => hcall ⟨d, a, c, e⟩) s).empty hg he
  · exact (exec_flow hc ha).empty hg he

end Sys2Proof.Machine

/-! ## Mismatches of lane-local integer words (O11) -/

namespace Sys2Proof.Machine
open Claims

/-! ### Numbers of a lane -/

theorem sgn_neg_iff {w x : Nat} : sgn w x < 0 ↔ bitOf x (w - 1) = true := by
  have hlt : x % 2 ^ w < 2 ^ w := Nat.mod_lt _ (Nat.two_pow_pos w)
  unfold sgn
  split
  · rename_i hb
    exact iff_of_true (by omega) hb
  · rename_i hb
    exact iff_of_false (by omega) hb

/-- A number and its residue wrap to one code. -/
theorem wrap_congr {w : Nat} {x y : Int} (h : x % (2 ^ w : Nat) = y % (2 ^ w : Nat)) : wrap w x = wrap w y := congrArg Int.toNat h

theorem sgn_emod (w x : Nat) : sgn w x % (2 ^ w : Nat) = (x : Int) % (2 ^ w : Nat) := by
  unfold sgn
  split
  · rw [Int.sub_emod_right, Int.natCast_mod, Int.emod_emod]
  · rw [Int.natCast_mod, Int.emod_emod]

theorem absW_eq (w x : Nat) : absW w x = if sgn w x < 0 then wrap w (-(x : Int)) else x := by
  have : wrap w (-sgn w x) = wrap w (-(x : Int)) := wrap_congr (Int.ModEq.neg (sgn_emod w x))
  simp only [absW, sgn_neg_iff, this]

theorem sraW_eq (w x n : Nat) : sraW w x n =
    if w ≤ n then (if sgn w x < 0 then 2 ^ w - 1 else 0) else wrap w (sgn w x / (2 ^ n : Nat)) := by
  unfold sraW
  simp only [sgn_neg_iff]

theorem wrap_sub {w x y : Nat} (hy : y ≤ 2 ^ w) : (x + 2 ^ w - y) % 2 ^ w = wrap w ((x : Int) - y) := by
  unfold wrap
  have : ((x : Int) - y) % (2 ^ w : Nat) = ((x + 2 ^ w - y : Nat) : Int) % (2 ^ w : Nat) := by
    rw [Int.natCast_sub (by omega)]
    push_cast
    rw [show (x : Int) + 2 ^ w - y = x - y + 2 ^ w * 1 by ring, Int.add_mul_emod_self_left]
  rw [this, ← Int.natCast_mod, Int.toNat_natCast]

theorem emod_mul_self_ediv {b : Int} (hb : 0 < b) (p : Int) : p % (b * b) / b = p / b % b := by
  rw [Int.emod_def, Int.emod_def, Int.ediv_ediv_of_nonneg hb.le, show p - b * b * (p / (b * b)) = p + b * -(b * (p / (b * b))) by ring,
    Int.add_mul_ediv_left _ _ hb.ne']
  ring

/-- The high half of a product of two w-bit numbers. -/
theorem wrap_high (w : Nat) (p : Int) : wrap (2 * w) p / 2 ^ w = wrap w (p / (2 ^ w : Nat)) := by
  have h2 : ((2 ^ (2 * w) : Nat) : Int) = (2 ^ w : Nat) * (2 ^ w : Nat) := by rw [two_mul, pow_add]; push_cast; rfl
  have hpos : (0 : Int) < (2 ^ w : Nat) := by exact_mod_cast Nat.two_pow_pos w
  unfold wrap
  rw [← Int.natCast_inj, Int.natCast_div, h2, Int.toNat_of_nonneg (Int.emod_nonneg _ (mul_pos hpos hpos).ne'),
    Int.toNat_of_nonneg (Int.emod_nonneg _ hpos.ne'), emod_mul_self_ediv hpos]

theorem upFrom_succ (a n : Nat) : upFrom (a + 1) n = (upFrom a n).map (· + 1) := by
  induction n generalizing a with
  | zero => rfl
  | succ n ih => rw [upFrom, ih, upFrom, List.map_cons]

theorem popCount_eq (w x : Nat) : popCount w x = ((upFrom 0 w).filter (fun i => bitOf x i)).length := by
  induction w generalizing x with
  | zero => rfl
  | succ w ih =>
    have hs : ∀ i, bitOf x (i + 1) = bitOf (x / 2) i := fun i => by rw [bitOf, bitOf, Nat.div_div_eq_div_mul, pow_succ']
    have h0 : bitOf x 0 = decide (x % 2 = 1) := by simp [bitOf]
    rw [popCount, ih, upFrom, upFrom_succ, List.filter_cons, List.filter_map, h0]
    simp only [Function.comp_def, hs]
    split
    · rename_i h
      rw [List.length_cons, List.length_map]
      have := of_decide_eq_true h
      omega
    · rename_i h
      rw [List.length_map]
      have : ¬x % 2 = 1 := fun e => h (decide_eq_true e)
      omega

theorem upFrom_above (t a n : Nat) : ((upFrom a n).filter (fun i => decide (t ≤ i))).length = a + n - max a t := by
  induction n generalizing a with
  | zero => simp [upFrom]
  | succ n ih =>
    rw [upFrom, List.filter_cons]
    split
    · rename_i h
      have := of_decide_eq_true h
      rw [List.length_cons, ih]; omega
    · rename_i h
      have : ¬t ≤ a := fun e => h (decide_eq_true e)
      rw [ih]; omega

theorem clz_eq {w x : Nat} (hx : x < 2 ^ w) : clz w x = ((upFrom 0 w).filter (fun i => decide (x < 2 ^ i))).length := by
  unfold clz
  split
  · rename_i h
    subst h
    have := upFrom_above 0 0 w
    simp at this
    simpa using this.symm
  · rename_i h
    have := upFrom_above (Nat.log2 x + 1) 0 w
    have hlt : Nat.log2 x < w := (Nat.log2_lt h).2 hx
    simp only [← Nat.log2_lt h, Nat.lt_iff_add_one_le, this]
    omega

theorem bitRev_lt (w x : Nat) : bitRev w x < 2 ^ w := by
  induction w generalizing x with
  | zero => simp [bitRev]
  | succ w ih =>
    have := ih (x / 2)
    have : x % 2 * 2 ^ w ≤ 1 * 2 ^ w := Nat.mul_le_mul_right _ (by omega)
    rw [bitRev, pow_succ]
    omega

theorem bitRev_testBit (w x j : Nat) : (bitRev w x).testBit j = (decide (j < w) && x.testBit (w - 1 - j)) := by
  induction w generalizing x with
  | zero => simp [bitRev]
  | succ w ih =>
    rw [bitRev, Nat.mul_comm, Nat.testBit_two_pow_mul_add _ (bitRev_lt w (x / 2)), ih]
    rcases Nat.lt_trichotomy j w with h | rfl | h
    · rw [if_pos h, decide_eq_true h, decide_eq_true (Nat.lt_succ_of_lt h), Nat.testBit_div_two, show w - 1 - j + 1 = w + 1 - 1 - j by omega]
    · simp
    · have : ¬ j < w + 1 := by omega
      rw [if_neg (by omega), decide_eq_false this, Nat.testBit_lt_two_pow (i := j - w)]
      · simp
      · exact Nat.lt_of_lt_of_le (Nat.mod_lt x (by decide)) (Nat.le_self_pow (by omega) 2)

theorem bitRev_eq (w x : Nat) : bitRev w x = maskOf ((upFrom 0 w).filter (fun i => bitOf x (w - 1 - i))) := by
  refine Nat.eq_of_testBit_eq fun j => ?_
  rw [bitRev_testBit, maskOf_testBit]
  simp [upFrom_mem, bitOf_testBit]

theorem bfi_testBit (w a b d j : Nat) : (bfi w a b d).testBit j =
    if b % 256 ≤ j ∧ j < b % 256 + fieldLen w (b % 256) (b / 256 % 256) then a.testBit (j - b % 256) else d.testBit j := by
  generalize hp : b % 256 = pos
  generalize hn : fieldLen w pos (b / 256 % 256) = n
  have e : fieldOf w b = (pos, n) := by rw [← hn, ← hp]; rfl
  unfold bfi
  rw [e]
  dsimp only
  split
  · rename_i h
    subst h
    rw [if_neg (by omega)]
  · have hlow : d % 2 ^ pos < 2 ^ pos := Nat.mod_lt _ (Nat.two_pow_pos _)
    have hmid : 2 ^ pos * (a % 2 ^ n) + d % 2 ^ pos < 2 ^ (pos + n) := by
      have := Nat.mod_lt a (Nat.two_pow_pos n)
      calc 2 ^ pos * (a % 2 ^ n) + d % 2 ^ pos < 2 ^ pos * (a % 2 ^ n + 1) := by rw [Nat.mul_add]; omega
        _ ≤ 2 ^ pos * 2 ^ n := Nat.mul_le_mul_left _ this
        _ = 2 ^ (pos + n) := (pow_add ..).symm
    rw [show d % 2 ^ pos + 2 ^ pos * (a % 2 ^ n) + 2 ^ (pos + n) * (d / 2 ^ (pos + n)) =
      2 ^ (pos + n) * (d / 2 ^ (pos + n)) + (2 ^ pos * (a % 2 ^ n) + d % 2 ^ pos) by omega, Nat.testBit_two_pow_mul_add _ hmid,
      Nat.testBit_two_pow_mul_add _ hlow, Nat.testBit_mod_two_pow, Nat.testBit_mod_two_pow, Nat.testBit_div_two_pow]
    by_cases h1 : j < pos + n
    · by_cases h2 : j < pos
      · simp [h1, h2]
      · simp [h1, h2, show j - pos < n by omega, Nat.not_lt.1 h2]
    · rw [if_neg h1, if_neg (by omega), Nat.sub_add_cancel (Nat.le_of_not_lt h1)]

theorem bfi_eq {w a b d : Nat} (hd : d < 2 ^ w) : bfi w a b d =
    let pos := b % 256
    let len := fieldLen w pos (b / 256 % 256)
    maskOf ((upFrom 0 w).filter (fun i => if pos ≤ i ∧ i < pos + len then bitOf a (i - pos) else bitOf d i)) := by
  refine Nat.eq_of_testBit_eq fun j => ?_
  rw [bfi_testBit, maskOf_testBit]
  simp only [bitOf_testBit]
  by_cases hj : j < w
  · simp [upFrom_mem, hj]
  · have hd' : d.testBit j = false := Nat.testBit_lt_two_pow (Nat.lt_of_lt_of_le hd (Nat.pow_le_pow_right (by decide) (Nat.le_of_not_lt hj)))
    have hf : ¬(b % 256 ≤ j ∧ j < b % 256 + fieldLen w (b % 256) (b / 256 % 256)) := by
      unfold fieldLen
      split <;> omega
    simp [upFrom_mem, hj, hd', hf]

theorem bfx_eq (w a b : Nat) : bfx w a b = a / 2 ^ (b % 256) % 2 ^ fieldLen w (b % 256) (b / 256 % 256) := by
  show (if fieldLen w (b % 256) (b / 256 % 256) = 0 then 0 else _) = _
  split
  · rename_i h
    rw [h, pow_zero, Nat.mod_one]
  · rfl

/-! ### Lanes of one part -/

theorem src_one {vw : View} (hp : vw.parts = 1) (k : Block) (x : Group) (n l : Nat) : ∃ w, k.src x vw n l = [w] :=
  List.length_eq_one_iff.1 ((src_length k x vw n l).trans hp)

theorem computed_mod (good : Bool) (v : Nat) : computed good (v % 2 ^ 32) = computed good v := by rw [computed, computed, ofNat_mod32]

theorem depend_one (dep : Dep) (p : Bool) : depend dep [p] [false] [false] = [p] := by
  cases dep <;> revert p <;> decide

theorem depend_two {dep : Dep} (h : dep ≠ .rev) (p q : Bool) : depend dep [p] [q] [false] = [p || q] := by
  cases dep
  case rev => exact absurd rfl h
  all_goals revert p q; decide

theorem depend_three {dep : Dep} (h : dep = .carry ∨ dep = .insert) (p q r : Bool) : depend dep [p] [q] [r] = [p || q || r] := by
  rcases h with rfl | rfl <;> revert p q r <;> decide

/-- A mismatch travels with the result that it reaches: the outcome of a lane-local integer word (R84). -/
def Travels (s : State) (b g : Nat) (k : Block) (x : Group) (r : LaneWord) (o : Out) : Prop :=
  ∃ t k' x', o = .next t ∧ s.WordDone t b g k k' x x' ∧
    s.Delivered k k' x x' r.vw r.t r.d (x.written s.cur.act)
      (fun l => [computed (r.srcs.all (fun n => rok (nth RWord.zero (k.src x r.vw n l) 0))) (r.val (r.args k x l) % 2 ^ 32)])

section
variable {s : State} {b g : Nat} {k : Block} {x : Group} (hi : s.Issues b g k x) {vw : View} (hp : vw.parts = 1)
  {t d : Nat}
include hi hp

theorem wideReg_travels {srcs : List Nat} {val : List Nat → Nat} {f : Wx → List (Nat × List RWord) ⊕ WErr} (hs : SlotsIn k x (LaneWord.slots ⟨vw, t, d, srcs, val⟩))
    (hf : f ⟨k, x, s.cur.act, x.helpers s.cur.act⟩ = .inl ((x.written s.cur.act).map (fun l =>
      (l, [computed (srcs.all (fun n => rok (nth RWord.zero (k.src x vw n l) 0))) (val (srcs.map (fun n => valOf (k.src x vw n l))) % 2 ^ 32)])))) :
    Travels s b g k x ⟨vw, t, d, srcs, val⟩ (wideReg vw t d srcs f s) :=
  wideReg_next hi vw t d srcs f _ hs hf fun _ _ => by rw [hp]; rfl

theorem lane1_travels {dep : Dep} {a : Nat} {f : Nat → Nat} {val : List Nat → Nat} (hs : SlotsIn k x (LaneWord.slots ⟨vw, t, d, [a], val⟩))
    (hv : ∀ u < 2 ^ 32, f u % 2 ^ 32 = val [u] % 2 ^ 32) : Travels s b g k x ⟨vw, t, d, [a], val⟩ (lane1 vw dep t d a f s) := by
  refine wideReg_travels hi hp hs (congrArg Sum.inl (List.map_congr_left fun l _ => ?_))
  obtain ⟨u, hu⟩ := src_one hp k x a l
  simp [-Nat.reducePow, Wx.src, hu, clean, hp, copies, badOf, depend_one, wordsFor, valOf, nth, hv _ u.val.isLt]

theorem lane2_travels {dep : Dep} (hdep : dep ≠ .rev) {a c : Nat} {f : Nat → Nat → Nat} {val : List Nat → Nat} (hs : SlotsIn k x (LaneWord.slots ⟨vw, t, d, [a, c], val⟩))
    (hv : ∀ u < 2 ^ 32, ∀ v < 2 ^ 32, f u v % 2 ^ 32 = val [u, v] % 2 ^ 32) :
    Travels s b g k x ⟨vw, t, d, [a, c], val⟩ (lane2 vw dep t d a c f s) := by
  refine wideReg_travels hi hp hs (congrArg Sum.inl (List.map_congr_left fun l _ => ?_))
  obtain ⟨u, hu⟩ := src_one hp k x a l
  obtain ⟨v, hv'⟩ := src_one hp k x c l
  simp [-Nat.reducePow, Wx.src, hu, hv', clean, hp, copies, badOf, depend_two hdep, wordsFor, valOf, nth, hv _ u.val.isLt _ v.val.isLt]

theorem lane3_travels {dep : Dep} (hdep : dep = .carry ∨ dep = .insert) {a c : Nat} {f : Nat → Nat → Nat → Nat} {val : List Nat → Nat}
    (hs : SlotsIn k x (LaneWord.slots ⟨vw, t, d, [a, c, dSrc t d], val⟩))
    (hv : ∀ u < 2 ^ 32, ∀ v < 2 ^ 32, ∀ w < 2 ^ 32, f u v w % 2 ^ 32 = val [u, v, w] % 2 ^ 32) :
    Travels s b g k x ⟨vw, t, d, [a, c, dSrc t d], val⟩ (lane3 vw dep t d a c f s) := by
  refine wideReg_travels hi hp hs (congrArg Sum.inl (List.map_congr_left fun l _ => ?_))
  obtain ⟨u, hu⟩ := src_one hp k x a l
  obtain ⟨v, hv'⟩ := src_one hp k x c l
  obtain ⟨w, hw⟩ := src_one hp k x (dSrc t d) l
  simp [-Nat.reducePow, Bool.and_assoc, Wx.src, hu, hv', hw, badOf, depend_three hdep, wordsFor, valOf, nth, hv _ u.val.isLt _ v.val.isLt _ w.val.isLt]

end

/-- A view of one part has lanes of 32 bits. -/
theorem View.bits_one {vw : View} (hp : vw.parts = 1) : vw.bits = 32 := by rw [View.bits, hp]

/-- The code of a view of one part is not that of view `w`. -/
theorem leaW_one {v : Nat} (hp : (viewOf v).parts = 1) (x y : Nat) : leaW (viewOf v) x y =
    if v = 1 then wrap 56 ((x : Int) + sgn 32 (y % 2 ^ 32)) else (x + y) % 2 ^ 20 := by
  match v with
  | 0 => rfl
  | 1 => exact absurd hp (by decide)
  | 2 => exact absurd hp (by decide)
  | n + 3 => rw [if_neg (by omega)]; rfl

theorem neg_eq_wrap {w x : Nat} (hx : x ≤ 2 ^ w) : (2 ^ w - x) % 2 ^ w = wrap w (-(x : Int)) := by
  have := wrap_sub (x := 0) hx
  rwa [Nat.zero_add, Int.natCast_zero, Int.zero_sub] at this

/-- The carry of a sum of two w-bit numbers. -/
theorem carry_eq {w x y : Nat} (hx : x < 2 ^ w) (hy : y < 2 ^ w) : (x + y) / 2 ^ w = if 2 ^ w ≤ x + y then 1 else 0 := by
  split
  · exact Nat.div_eq_of_lt_le (by omega) (by omega)
  · exact Nat.div_eq_of_lt (by omega)

/-- The lane-local integer words of one part, each by the frame that it acts in and the number of its rule (R84, R88, R89, R91). -/
theorem exec_travels {i : Instr} {r : LaneWord} (hr : intWord i = some r) (hp : r.vw.parts = 1) {s : State} {b g : Nat} {k : Block}
    {x : Group} (hi : s.Issues b g k x) (hs : SlotsIn k x r.slots) : Travels s b g k x r (exec i s) := by
  cases i
  case vadd | vmul | vmin | vmax | vshl | vshr =>
    cases hr
    simp only [Machine.exec]
    delta execVadd execVmul execVmin execVmax execVshl execVshr
    exact lane2_travels hi hp (by decide) hs fun _ _ _ _ => rfl
  case vsub =>
    cases hr
    simp only [Machine.exec]
    delta execVsub
    refine lane2_travels hi hp (by decide) hs fun u _ v hv => congrArg (· % 2 ^ 32) ?_
    exact wrap_sub (by rw [View.bits_one hp]; exact hv.le)
  case vmulh =>
    cases hr
    simp only [Machine.exec]
    delta execVmulh
    exact lane2_travels hi hp (by decide) hs fun _ _ _ _ => congrArg (· % 2 ^ 32) (wrap_high ..)
  case vaddc =>
    cases hr
    simp only [Machine.exec]
    delta execVaddc
    refine lane2_travels hi hp (by decide) hs fun u hu v hv => congrArg (· % 2 ^ 32) ?_
    rw [View.bits_one hp]
    exact carry_eq hu hv
  case vsra =>
    cases hr
    simp only [Machine.exec]
    delta execVsra
    exact lane2_travels hi hp (by decide) hs fun _ _ _ _ => congrArg (· % 2 ^ 32) (sraW_eq ..)
  case vbfx =>
    cases hr
    simp only [Machine.exec]
    delta execVbfx
    exact lane2_travels hi hp (by decide) hs fun _ _ _ _ => congrArg (· % 2 ^ 32) (bfx_eq ..)
  case vlea =>
    cases hr
    simp only [Machine.exec]
    delta execVlea
    exact lane2_travels hi hp (by decide) hs fun _ _ _ _ => congrArg (· % 2 ^ 32) (leaW_one hp ..)
  case vmac =>
    cases hr
    simp only [Machine.exec]
    delta execVmac
    exact lane3_travels hi hp (.inl rfl) hs fun _ _ _ _ _ _ => rfl
  case vbfi =>
    cases hr
    simp only [Machine.exec]
    delta execVbfi
    exact lane3_travels hi hp (.inr rfl) hs fun _ _ _ _ w hw => congrArg (· % 2 ^ 32) (bfi_eq (by rw [View.bits_one hp]; exact hw))
  case vabs =>
    cases hr
    simp only [Machine.exec]
    delta execVabs
    exact lane1_travels hi hp hs fun _ _ => congrArg (· % 2 ^ 32) (absW_eq ..)
  case vneg =>
    cases hr
    simp only [Machine.exec]
    delta execVneg
    refine lane1_travels hi hp hs fun u hu => congrArg (· % 2 ^ 32) ?_
    exact neg_eq_wrap (by rw [View.bits_one hp]; exact hu.le)
  case vpopc =>
    cases hr
    simp only [Machine.exec]
    delta execVpopc
    exact lane1_travels hi hp hs fun _ _ => congrArg (· % 2 ^ 32) (popCount_eq ..)
  case vclz =>
    cases hr
    simp only [Machine.exec]
    delta execVclz
    exact lane1_travels hi hp hs fun u hu => congrArg (· % 2 ^ 32) (clz_eq (by rw [View.bits_one hp]; exact hu))
  case vbrev =>
    cases hr
    simp only [Machine.exec]
    delta execVbrev
    exact lane1_travels hi hp hs fun _ _ => congrArg (· % 2 ^ 32) (bitRev_eq ..)
  case vmovi d n =>
    cases hr
    simp only [Machine.exec]
    delta execVmovi
    refine wideReg_travels hi hp hs (congrArg Sum.inl (List.map_congr_left fun l _ => ?_))
    rw [computed_mod]
    rfl
  case vlui d n =>
    cases hr
    simp only [Machine.exec]
    delta execVlui
    refine wideReg_travels hi hp hs (congrArg Sum.inl (List.map_congr_left fun l _ => ?_))
    obtain ⟨u, hu⟩ := src_one hp k x d l
    rw [computed_mod]
    simp [Wx.src, hu, valOf, nth, arg]
  case vcvt d a c r m t v =>
    by_cases hv : v = 1
    · simp only [intWord, hv, if_true] at hr
      cases hr
      exact absurd (show 2 = 1 from hp) (by decide)
    · simp [intWord, hv] at hr
  case vrng d a b t v =>
    by_cases hv : v = 1
    · simp only [intWord, hv, if_true] at hr
      cases hr
      exact absurd (show 2 = 1 from hp) (by decide)
    · simp [intWord, hv] at hr
  all_goals cases hr

theorem mismatchesTravelWithResults : MismatchesTravelWithResults := by
  unfold MismatchesTravelWithResults
  exact fun i r s b g k x _ hr hp hi hs => exec_travels hr hp hi hs

/-- Settles O11: the words of one part by `exec_travels`, the empty words and the slots by the frames of their classes. -/
theorem mismatchesTravelEmptyWordsRetireOutsideSlotsFault : Obligations.MismatchesTravelEmptyWordsRetireOutsideSlotsFault :=
  ⟨mismatchesTravelWithResults, emptyWordsOnlyRetire, slotsOutsideWindowsFault⟩

end Sys2Proof.Machine

/-! ## Standing agents go on (O60) -/

namespace Sys2Proof.Machine
open Claims

section
variable {s : State}

/-! ### Words of groups -/

section
variable {b g : Nat} {k : Block} {x : Group} (hg : s.OnGroup b g k x)
include hg

theorem WideForm.goesOn {slots : List (View × Nat)} {o : Out} (h : WideForm slots s o) : GoesOn o := by
  obtain ⟨f, rfl⟩ := h
  simp only [wideWord, hg.1, hg.2]
  refine .ite .next (.ite ?_ .next)
  split <;> exact .next

theorem joinWord_goesOn {f : Block → Group → List Nat → Out} (h : ∀ k x act, GoesOn (f k x act)) : GoesOn (joinWord f s) := by
  simp only [joinWord, hg.1, hg.2]
  exact .ite .next (h _ _ _)

theorem JoinForm.goesOn {o : Out} (h : JoinForm s o) : GoesOn o := by
  obtain ⟨f, rfl, hf⟩ := h
  exact joinWord_goesOn hg hf

theorem exec_wide_goesOn {i : Instr} (hc : Sys2Proof.classOf i = some 1) : GoesOn (exec i s) := by
  cases hw : wideSlots i with
  | some slots => exact (exec_wideSlots hw s).goesOn hg
  | none =>
    cases i
    case pand | por | pxor | pnot | pmov | pset =>
      simp only [Machine.exec]
      delta execPand execPor execPxor execPnot execPmov execPset
      exact WideForm.predWord.goesOn hg
    case vqpop =>
      simp only [Machine.exec, execVqpop, hg.1, hg.2]
      refine .ite .next (.ite ?_ .next)
      split <;> exact .next
    case vqpush =>
      simp only [Machine.exec, execVqpush, hg.1, hg.2]
      exact .ite .next (.ite .next (.ite .next (.ite .next .next)))
    case vcvt d a c r m t v =>
      by_cases hv : v = 1 <;> simp [wideSlots, intWord, partWord, hv] at hw
    case vrng d a b t v =>
      by_cases hv : v = 1 <;> simp [wideSlots, intWord, partWord, hv] at hw
    all_goals cases hc
    all_goals cases hw

omit hg in
theorem GoesOn.sinceIssue {o : Out} (h : GoesOn o) : GoesOn (s.sinceIssue o) := by
  obtain ⟨t, rfl⟩ := h
  unfold State.sinceIssue
  split
  next e =>
    cases e
    split
    · split <;> exact .next
    · exact .next
  · exact .next

theorem GoesOn.execRocall {d a c} : GoesOn (execRocall d a c s) := by
  unfold Machine.execRocall
  refine .sinceIssue (joinWord_goesOn hg fun _ _ _ => .ite ?_ ((JoinForm.objectWord fun _ _ _ _ _ _ => ?_).goesOn hg))
  · split <;> exact .next
  · split
    · exact .next
    · exact .ite .next .next

theorem exec_yield_goesOn {i : Instr} (hc : Sys2Proof.classOf i = some 5) : GoesOn (exec i s) := by
  by_cases hcall : ∃ d a b, i = .rocall d a b
  · obtain ⟨d, a, c, rfl⟩ := hcall
    exact GoesOn.execRocall hg
  · exact (exec_yield hc (fun d a c e => hcall ⟨d, a, c, e⟩) s).goesOn hg

/-! ### Class P -/

theorem privWord_goesOn {f : Block → Group → Out} (h : ∀ k x, GoesOn (f k x)) : GoesOn (privWord f s) := by
  simp only [privWord, hg.1, hg.2]
  exact .ite .next (.ite .next (h _ _))

theorem mgmtWord_goesOn_group {f : Nat → SRegs → Out} : GoesOn (mgmtWord f s) := by
  simp only [mgmtWord, hg.1, (State.bg_iff.1 hg.2).1]
  exact .next

end

/-- The frame of the words of class P that act for a handler alone: on a management core they are refused. -/
theorem privWord_goesOn_mgmt {m : Nat} (ha : s.cur.ag = .mgmt m) {f : Block → Group → Out} : GoesOn (privWord f s) := by
  simp only [privWord, ha]
  exact .next

theorem mgmtWord_goesOn_mgmt {m : Nat} (ha : s.cur.ag = .mgmt m) {f : Nat → SRegs → Out} (h : ∀ m r, GoesOn (f m r)) :
    GoesOn (mgmtWord f s) := by
  simp only [mgmtWord, ha]
  exact .ite .next (h _ _)

/-- A group that stands, or a management core, is the current agent. -/
def State.OnHandler (s : State) : Prop := (∃ b g k x, s.OnGroup b g k x) ∨ ∃ m, s.cur.ag = .mgmt m

section
variable (hs : s.OnHandler)
include hs

theorem privWord_goes {f : Block → Group → Out} (h : ∀ k x, GoesOn (f k x)) : GoesOn (privWord f s) := by
  obtain ⟨b, g, k, x, hg⟩ | ⟨m, ha⟩ := hs
  · exact privWord_goesOn hg h
  · exact privWord_goesOn_mgmt ha

theorem mgmtWord_goes {f : Nat → SRegs → Out} (h : ∀ m r, GoesOn (f m r)) : GoesOn (mgmtWord f s) := by
  obtain ⟨b, g, k, x, hg⟩ | ⟨m, ha⟩ := hs
  · exact mgmtWord_goesOn_group hg
  · exact mgmtWord_goesOn_mgmt ha h

theorem GoesOn.execTrap {n} : GoesOn (execTrap n s) := by
  obtain ⟨b, g, k, x, hg⟩ | ⟨m, ha⟩ := hs
  · simp only [Machine.execTrap, hg.1]
    exact joinWord_goesOn hg fun _ _ _ => .ite .next .next
  · simp only [Machine.execTrap, ha]
    exact .ite .next .next

theorem GoesOn.execCsrr {d r} : GoesOn (execCsrr d r s) := by
  obtain ⟨b, g, k, x, hg⟩ | ⟨m, ha⟩ := hs
  · simp only [Machine.execCsrr, hg.1, hg.2]
    exact .ite .next (.ite .next (.ite .next .next))
  · simp only [Machine.execCsrr, ha]
    exact .next

theorem GoesOn.execHalt : GoesOn (execHalt s) := by
  unfold Machine.execHalt
  split
  · exact .ite .next .next
  · exact privWord_goes hs fun _ _ => .next

theorem GoesOn.execCsrw {a r} : GoesOn (execCsrw a r s) := by
  unfold Machine.execCsrw
  exact .ite .next (privWord_goes hs fun _ _ => .ite .next (.ite .next .next))

omit hs in
theorem GoesOn.saved {d v : Nat} {r : State × Option Nat} {info : Nat} : GoesOn (saved d v r info) := by
  unfold Machine.saved
  split <;> exact .next

theorem GoesOn.execCtxsave {d a b} : GoesOn (execCtxsave d a b s) := by
  unfold Machine.execCtxsave
  refine privWord_goes hs fun _ _ => .ite .next (.ite .next (.ite .next ?_))
  split
  · exact .next
  · refine .ite .saved ?_
    dsimp only
    split
    · exact .next
    · exact .saved

theorem GoesOn.execCtxload {d a} : GoesOn (execCtxload d a s) := by
  unfold Machine.execCtxload
  refine privWord_goes hs fun _ _ => .ite .next (.ite .next ?_)
  split
  · exact .next
  · refine .ite .next ?_
    split
    · exact .next
    · dsimp only
      split
      · exact .next
      · split <;> exact .next

theorem GoesOn.execMbpost {d a b} : GoesOn (execMbpost d a b s) := by
  unfold Machine.execMbpost
  refine privWord_goes hs fun _ _ => .ite .next (.ite .next ?_)
  split
  · exact .next
  · refine .ite .next ?_
    split
    split
    · exact .next
    · refine .orCrowded ?_
      split
      · exact .next
      · dsimp only
        split <;> exact .next

theorem GoesOn.execMbpoll {d a b} : GoesOn (execMbpoll d a b s) := by
  unfold Machine.execMbpoll
  refine privWord_goes hs fun _ _ => .ite .next ?_
  split
  · exact .next
  · refine .ite .next (.ite .next ?_)
    split
    · exact .next
    · split
      split
      · exact .next
      · split
        · exact .next
        · refine .orCrowded ?_
          split <;> exact .next

theorem GoesOn.execTlbinv {a b} : GoesOn (execTlbinv a b s) := by
  unfold Machine.execTlbinv
  refine privWord_goes hs fun _ _ => .ite .next ?_
  split
  · exact .next
  · exact .ite .next .next

theorem GoesOn.execLdio {d a n} : GoesOn (execLdio d a n s) := by
  unfold Machine.execLdio
  refine mgmtWord_goes hs fun _ _ => ?_
  split <;> exact .next

theorem GoesOn.execStio {d a n} : GoesOn (execStio d a n s) := by
  unfold Machine.execStio
  refine mgmtWord_goes hs fun _ _ => ?_
  split
  · exact .next
  · exact .ite .next .next

/-- The words of class P. -/
theorem exec_priv_goesOn {i : Instr} (hc : Sys2Proof.classOf i = some 7) : GoesOn (exec i s) := by
  cases i
  case trap => exact GoesOn.execTrap hs
  case tret =>
    simp only [Machine.exec]
    delta execTret
    exact privWord_goes hs fun _ _ => .next
  case csrr => exact GoesOn.execCsrr hs
  case csrw => exact GoesOn.execCsrw hs
  case ctxsave => exact GoesOn.execCtxsave hs
  case ctxload => exact GoesOn.execCtxload hs
  case mbpost => exact GoesOn.execMbpost hs
  case mbpoll => exact GoesOn.execMbpoll hs
  case halt => exact GoesOn.execHalt hs
  case tlbinv => exact GoesOn.execTlbinv hs
  case ldio => exact GoesOn.execLdio hs
  case stio => exact GoesOn.execStio hs
  case wfi =>
    simp only [Machine.exec]
    delta execWfi
    exact mgmtWord_goes hs fun _ _ => .next
  all_goals cases hc

end

/-! ### Words of a management core -/

section
variable {m : Nat} (ha : s.cur.ag = .mgmt m)
include ha

theorem joinWord_goesOn_mgmt {f : Block → Group → List Nat → Out} : GoesOn (joinWord f s) := by
  simp only [joinWord, ha]
  exact .next

/-- The words of class F. -/
theorem exec_flow_goesOn_mgmt {i : Instr} (hc : Sys2Proof.classOf i = some 6) : GoesOn (exec i s) := by
  cases i
  case bru =>
    simp only [Machine.exec, execBru, ha]
    refine .ite .next (.ite ?_ .next)
    split <;> exact .next
  case jmpi =>
    simp only [Machine.exec, execJmpi, ha]
    refine .ite .next (.ite .next ?_)
    split <;> exact .next
  case call =>
    simp only [Machine.exec, execCall, ha]
    refine .ite .next ?_
    split <;> exact .next
  case ret =>
    simp only [Machine.exec, execRet, ha]
    refine .ite .next (.ite .next ?_)
    split <;> exact .next
  case nop =>
    simp only [Machine.exec, execNop, ha]
    exact .next
  case bra | enrol | rejoin | strike | spawn | exit | yield | fork | rdv =>
    simp only [Machine.exec]
    delta execBra execEnrol execRejoin execStrike execSpawn execExit execYield execFork execRdv
    exact joinWord_goesOn_mgmt ha
  all_goals cases hc

end

theorem scalarWord_goesOn {f : SRegs → Out} (hs : s.OnScalar) (h : ∀ r, GoesOn (f r)) : GoesOn (scalarWord f s) := by
  obtain ⟨b, g, k, x, ha, hf⟩ | ⟨m, ha⟩ := hs
  · simp only [scalarWord, State.sregs, ha, hf]
    exact .ite .next (h _)
  · simp only [scalarWord, State.sregs, ha]
    exact .ite .next (h _)

theorem ScalarForm.goesOn {o : Out} (hs : s.OnScalar) (h : ScalarForm s o) : GoesOn o := by
  obtain ⟨f, rfl, hf⟩ | ⟨-, h⟩ := h
  · exact scalarWord_goesOn hs hf
  · exact h

/-! ### Words of the streams -/

section
variable {b : Nat} {k : Block} (ha : s.cur.ag = .matrix b) (hk : s.blk b = some k)
include ha hk

theorem matrixWord_goesOn {f : Block → Out} (h : ∀ k, GoesOn (f k)) : GoesOn (matrixWord f s) := by
  simp only [matrixWord, ha, hk]
  exact h _

omit ha hk in
theorem GoesOn.putBlk {q : Block} : GoesOn (s.putBlk q) := .next

omit ha hk in
theorem GoesOn.scrRead {q : Block} {off n rd f} (h : ∀ bs, GoesOn (f bs)) : GoesOn (s.scrRead q off n rd f) := by
  unfold State.scrRead
  exact .ite .next (.ite .next (.ite .next (h _)))

omit ha hk in
theorem GoesOn.drainTile {q : Block} {a f} (h : ∀ t y, GoesOn (f t y)) : GoesOn (s.drainTile q a f) := by
  unfold State.drainTile
  exact .ite .next (.ite (h _ _) .next)

theorem mrowWord_goesOn {r bsel sreg f} (h : ∀ q n go, (∀ bs, GoesOn (go bs)) → GoesOn (f q n go)) : GoesOn (mrowWord r bsel sreg f s) := by
  unfold Machine.mrowWord
  exact matrixWord_goesOn ha hk fun _ => .ite .next (.ite .next (h _ _ _ fun _ => .ite .next .putBlk))

theorem mulWord_goesOn {word} : GoesOn (mulWord word s) := by
  unfold Machine.mulWord
  refine matrixWord_goesOn ha hk fun _ => ?_
  split
  · exact .next
  · exact .ite .next (.ite .next .putBlk)

theorem GoesOn.execMbind {g t₀ r x l} : GoesOn (execMbind g t₀ r x l s) :=
  matrixWord_goesOn ha hk fun _ => .ite .next (.ite .next (.scrRead fun _ => .putBlk))

theorem GoesOn.execMrowLines {r c g x n} : GoesOn (execMrowLines r c g x n s) := mrowWord_goesOn ha hk fun _ _ _ h => .scrRead h

theorem GoesOn.execMrowTslots {r c g x n} : GoesOn (execMrowTslots r c g x n s) :=
  mrowWord_goesOn ha hk fun _ _ _ h => .ite .next (.ite .next (h _))

theorem GoesOn.execMdrain {a f p n sr x} : GoesOn (execMdrain a f p n sr x s) :=
  matrixWord_goesOn ha hk fun _ => .ite .next (.ite .next (.drainTile fun _ _ => .putBlk))

theorem GoesOn.execMdrainCh {a c} : GoesOn (execMdrainCh a c s) :=
  matrixWord_goesOn ha hk fun _ => .ite .next (.ite .next (.drainTile fun _ _ => .putBlk))

theorem GoesOn.execMdrainf {a x l} : GoesOn (execMdrainf a x l s) :=
  matrixWord_goesOn ha hk fun _ => .ite .next (.drainTile fun _ _ => .putBlk)

theorem GoesOn.execMsignal {n} : GoesOn (execMsignal n s) := matrixWord_goesOn ha hk fun _ => .ite .next (.ite .next .next)

theorem GoesOn.execMwaitb {n} : GoesOn (execMwaitb n s) := matrixWord_goesOn ha hk fun _ => .ite .next (.ite .next .next)

theorem GoesOn.execMloop {x o} : GoesOn (execMloop x o s) := by
  unfold Machine.execMloop
  refine matrixWord_goesOn ha hk fun _ => .ite .putBlk ?_
  split <;> exact .next

theorem GoesOn.execMjmp {o} : GoesOn (execMjmp o s) := by
  unfold Machine.execMjmp
  refine matrixWord_goesOn ha hk fun _ => ?_
  split <;> exact .next

theorem GoesOn.execMstampRetire {a} : GoesOn (execMstampRetire a s) := by
  unfold Machine.execMstampRetire
  refine matrixWord_goesOn ha hk fun _ => .ite .next (.ite .putBlk ?_)
  split <;> exact .putBlk

/-- The words of class X. -/
theorem exec_matrix_goesOn {i : Instr} (hc : Sys2Proof.classOf i = some 3) : GoesOn (exec i s) := by
  cases i
  case mcfgIndex | mcfgArea | mcfgAfmt | mcfgHi =>
    simp only [Machine.exec]
    delta execMcfgIndex execMcfgArea execMcfgAfmt execMcfgHi
    exact matrixWord_goesOn ha hk fun _ => .putBlk
  case mcfgGrp =>
    simp only [Machine.exec]
    delta execMcfgGrp
    exact matrixWord_goesOn ha hk fun _ => .ite .putBlk .next
  case mzero | mstamp =>
    simp only [Machine.exec]
    delta execMzero execMstamp
    exact matrixWord_goesOn ha hk fun _ => .ite .next .putBlk
  case mmul | mmulw =>
    simp only [Machine.exec]
    delta execMmul execMmulw
    exact mulWord_goesOn ha hk
  case mend | mnop =>
    simp only [Machine.exec]
    delta execMend execMnop
    exact matrixWord_goesOn ha hk fun _ => .next
  case mbind => exact GoesOn.execMbind ha hk
  case mrowLines => exact GoesOn.execMrowLines ha hk
  case mrowTslots => exact GoesOn.execMrowTslots ha hk
  case mdrain => exact GoesOn.execMdrain ha hk
  case mdrainCh => exact GoesOn.execMdrainCh ha hk
  case mdrainf => exact GoesOn.execMdrainf ha hk
  case msignal => exact GoesOn.execMsignal ha hk
  case mwaitb => exact GoesOn.execMwaitb ha hk
  case mloop => exact GoesOn.execMloop ha hk
  case mjmp => exact GoesOn.execMjmp ha hk
  case mstampRetire => exact GoesOn.execMstampRetire ha hk
  all_goals cases hc

end

/-- On a copy stream the words of class C act for its block, or are refused. -/
theorem CopyForm.goesOn_copy {b : Nat} {k : Block} (ha : s.cur.ag = .copy b) (hk : s.blk b = some k) {o : Out} (h : CopyForm s o) :
    GoesOn o := by
  obtain ⟨ok, f, rfl, hf⟩ := h
  simp only [copyWord, ha, hk]
  exact .ite (hf _) .next

/-- No instruction of an agent that stands stops the machine. -/
theorem exec_goesOn_of_fits {i : Instr} (h : AgentFits s i) : GoesOn (exec i s) := by
  obtain ⟨b, g, ha, hb, h⟩ | ⟨b, g, ha, hb, h⟩ | ⟨b, ha, hb, h⟩ | ⟨b, ha, hb, h⟩ | ⟨m, ha, h⟩ := h
  · obtain ⟨⟨k, x⟩, hf⟩ := Option.isSome_iff_exists.1 hb
    have hg : s.OnGroup b g k x := ⟨ha, hf⟩
    obtain h | ⟨c, hc, h⟩ := h
    · cases i <;> cases h
      rw [exec_header_group ha hf]
      exact .next
    · simp only [List.mem_cons, List.not_mem_nil, or_false] at hc
      obtain rfl | rfl | rfl | rfl | rfl | rfl := hc
      · exact exec_wide_goesOn hg h
      · exact (exec_memory h s).goesOn hg
      · exact ((exec_copy h s).join ha).goesOn hg
      · exact exec_yield_goesOn hg h
      · exact (exec_flow h ha).goesOn hg
      · exact exec_priv_goesOn (.inl ⟨b, g, k, x, hg⟩) h
  · obtain ⟨⟨k, x⟩, hf⟩ := Option.isSome_iff_exists.1 hb
    have hs : s.OnScalar := .inl ⟨b, g, k, x, ha, hf⟩
    obtain h | ⟨c, hc, h⟩ := h
    · cases i <;> cases h
      rw [exec_header_scalar ha hf]
      exact .next
    · obtain rfl := List.mem_singleton.1 hc
      exact (exec_scalar hs h).goesOn hs
  · obtain ⟨k, hk⟩ := Option.isSome_iff_exists.1 hb
    obtain h | ⟨c, hc, h⟩ := h
    · cases i <;> cases h
      rw [exec_header_matrix ha hk]
      exact .next
    · obtain rfl := List.mem_singleton.1 hc
      exact exec_matrix_goesOn ha hk h
  · obtain ⟨k, hk⟩ := Option.isSome_iff_exists.1 hb
    obtain h | ⟨c, hc, h⟩ := h
    · cases i <;> cases h
      rw [exec_header_copy ha hk]
      exact .next
    · obtain rfl := List.mem_singleton.1 hc
      exact (exec_copy h s).goesOn_copy ha hk
  · have hs : s.OnScalar := .inr ⟨m, ha⟩
    obtain h | ⟨c, hc, h⟩ := h
    · cases i <;> cases h
      rw [exec_header_mgmt ha]
      exact .next
    · simp only [List.mem_cons, List.not_mem_nil, or_false] at hc
      obtain rfl | rfl | rfl := hc
      · exact (exec_scalar hs h).goesOn hs
      · exact exec_flow_goesOn_mgmt ha h
      · exact exec_priv_goesOn (.inr ⟨m, ha⟩) h

/-! ### Events -/

theorem GoesOn.execMemoryAccessCompletion {core id} : GoesOn (Machine.execMemoryAccessCompletion core id s) := by
  unfold Machine.execMemoryAccessCompletion
  dsimp only
  split
  · exact .next
  · split
    · exact .next
    · split <;> exact .next

theorem GoesOn.execDivergenceStarvation {blk grp lane} : GoesOn (Machine.execDivergenceStarvation blk grp lane s) := by
  unfold Machine.execDivergenceStarvation
  split
  · exact .next
  · exact .ite .next (.ite .next .next)

theorem GoesOn.execHaltBroadcast {blk} : GoesOn (Machine.execHaltBroadcast blk s) := by
  unfold Machine.execHaltBroadcast
  split
  · exact .ite .next .next
  · exact .next

theorem GoesOn.execDebugStopBreakpoint {blk grp} : GoesOn (Machine.execDebugStopBreakpoint blk grp s) := by
  unfold Machine.execDebugStopBreakpoint
  split
  · exact .next
  · split
    · exact .ite .next .next
    · exact .ite .next .next
    · exact .next

/-- The current word of a group's wait is a word of that group, which stands. -/
theorem waitingCur_group {b g n w : Nat} {c : Cur} (h : s.waitingCur b g = some (c, n, w)) : c.ag = .group b g ∧ ∃ k x, s.bg b g = some (k, x) := by
  unfold State.waitingCur at h
  split at h
  · cases h
  next k x hf =>
    split at h
    · cases h
    · split at h
      · cases h
      · cases h
        exact ⟨rfl, k, x, hf⟩

theorem runAtomic_joinForm {word : Nat} {o : Out} (h : runAtomic word s = some o) : JoinForm s o := by
  unfold runAtomic at h
  split at h
  case h_13 => cases h
  all_goals
    cases h
    delta execAtadd execAtinc execAtbadd execAtmin execAtmax execAtand execAtor execAtxor execAtxchg execAtcas execAtld execAtred
    exact JoinForm.atomicWord

theorem GoesOn.execReplayGauntletAdmit {die blk grp} : GoesOn (Machine.execReplayGauntletAdmit die blk grp s) := by
  unfold Machine.execReplayGauntletAdmit
  split
  · split
    next hw =>
      refine .ite ?_ .next
      split
      next ho =>
        obtain ⟨ha, k, x, hf⟩ := waitingCur_group hw
        exact (runAtomic_joinForm ho).goesOn (s := { s with cur := _ }) (b := blk) (g := grp) ⟨ha, hf⟩
      · exact .next
    · exact .next
  · exact .next

theorem GoesOn.execReplayGateTimeout {die blk grp} : GoesOn (Machine.execReplayGateTimeout die blk grp s) := by
  unfold Machine.execReplayGateTimeout
  split
  · split
    · exact .ite .next .next
    · exact .next
  · exact .next

theorem GoesOn.execPacketBegin {q} : GoesOn (Machine.execPacketBegin q s) := by
  unfold Machine.execPacketBegin
  dsimp only
  split
  · exact .next
  · exact .ite .next (.ite .next .next)

theorem GoesOn.execChunkLanding {q data} : GoesOn (Machine.execChunkLanding q data s) := by
  unfold Machine.execChunkLanding
  split
  · exact .next
  · split
    · exact .next
    · refine .ite .next (.ite .next ?_)
      split <;> exact .next

theorem GoesOn.execPacketCompletion {q} : GoesOn (Machine.execPacketCompletion q s) := by
  unfold Machine.execPacketCompletion
  split
  · exact .next
  · split <;> exact .next

theorem GoesOn.execFencePacket {q} : GoesOn (Machine.execFencePacket q s) := by
  unfold Machine.execFencePacket
  split
  · exact .next
  · split
    · exact .next
    · exact .ite .next .next

theorem GoesOn.execTaskReleaseWrite {vf off data} : GoesOn (Machine.execTaskReleaseWrite vf off data s) := by
  unfold Machine.execTaskReleaseWrite
  dsimp only
  split
  · exact .next
  · refine .ite .next (.ite .next ?_)
    split
    · refine .ite .next ?_
      split <;> exact .next
    · exact .next

theorem GoesOn.execHostSyncAtomic {vf off size x} : GoesOn (Machine.execHostSyncAtomic vf off size x s) := by
  unfold Machine.execHostSyncAtomic
  split
  · exact .next
  · refine .ite .next ?_
    split <;> exact .next

theorem GoesOn.execOptLit {p mon} : GoesOn (Machine.execOptLit p mon s) := by
  unfold Machine.execOptLit
  dsimp only
  split
  · exact .next
  · exact .ite (.ite .next (.ite .next .next)) .next

theorem GoesOn.execOptLitTimeout {p} : GoesOn (Machine.execOptLitTimeout p s) := by
  unfold Machine.execOptLitTimeout
  dsimp only
  split
  · exact .ite .next .next
  · exact .next

theorem GoesOn.execRemoteRequestIngress {pkg spart mode dpart addr len mx data} : GoesOn (Machine.execRemoteRequestIngress pkg spart mode dpart addr len mx data s) := by
  unfold Machine.execRemoteRequestIngress
  refine .ite .next (.ite .next ?_)
  refine .ite ?_ ?_
  · split
    · exact .next
    · exact .ite .next .next
  · refine .ite ?_ ?_
    · split <;> exact .next
    · split
      · exact .ite .next .next
      · exact .next

theorem GoesOn.execRemoteAtomicIngress {pkg spart dpart addr op w64 x b2} : GoesOn (Machine.execRemoteAtomicIngress pkg spart dpart addr op w64 x b2 s) := by
  unfold Machine.execRemoteAtomicIngress
  refine .ite .next ?_
  split
  · refine .ite .next ?_
    split <;> exact .next
  · exact .next

theorem GoesOn.execRemoteTimeout {q} : GoesOn (Machine.execRemoteTimeout q s) := by
  unfold Machine.execRemoteTimeout
  split
  · exact .next
  · split
    · exact .next
    · exact .ite .next .next

theorem GoesOn.execCollectiveHead {ch} : GoesOn (Machine.execCollectiveHead ch s) := by
  unfold Machine.execCollectiveHead
  split
  · exact .next
  · exact .ite .next (.ite .next (.ite .next (.ite .next .next)))

theorem GoesOn.execCollectiveResend {id} : GoesOn (Machine.execCollectiveResend id s) := by
  unfold Machine.execCollectiveResend
  split
  · exact .next
  · exact .ite .next (.ite .next .next)

theorem GoesOn.execCollectiveCompletion {ch} : GoesOn (Machine.execCollectiveCompletion ch s) := by
  unfold Machine.execCollectiveCompletion
  dsimp only
  split
  · exact .next
  · split
    · exact .next
    · refine .ite .next (.ite .next ?_)
      split <;> exact .next

theorem GoesOn.execGenerationFence {part} : GoesOn (Machine.execGenerationFence part s) := by
  unfold Machine.execGenerationFence
  dsimp only
  split
  · exact .next
  · exact .next
  · exact .ite .next .next

/-- No event stops the machine. -/
theorem exec_goesOn_of_event {i : Instr} (h : isEvent i = true) : GoesOn (exec i s) := by
  cases i
  case groupPromotion | wfiWake | blockPlacement | dcRetireWrite | abandonedSlotWrite | classifierEntryExpiry | hbmRepair |
      hbmRepairMoveDone | mcIpendClear | mcPoke | mgmtImageReceived | spdmGetVersion | spdmGetCapabilities | spdmNegotiateAlgorithms |
      spdmGetDigests | spdmGetCertificate | spdmChallenge | lifetimeMonthEnd | xsFuseminWrite | optCtlBits | optStateOffRequest |
      optStateUpRequest | optLockSweep | optTrain | optLanemapWrite | keyExhausted | feSchedLock | collectiveFlitIngress |
      collectiveAbortReceived | capRegeneration | nirraxGapTimeout | callApply | membershipExpel | membershipAdmit | membershipReplace |
      membershipClone | membershipAbort | membershipAddspare | membershipGetgen | trainctlStep | trainctlSetscale | trainctlSetclip |
      trainctlSetgrowth | trainctlGetscale | trainctlGetstep | cuffPageCopy | managementPortFrame | powerRemoval |
      wavelengthLoss | feKeyuseWrite | feKeydataWrite | capReceived | spdmGetMeasurements =>
    exact .next
  case clusterJoinTimeout | hbmCorrectedError | packageReset | dieOvertempStop | optLaserFailure | optSweepDone | optTrainDone |
      keyRequestThreshold | feChpartWrite | rotorSlot | registerUnitRetirement =>
    exact .ite .next .next
  case feTbldataWrite | throttle | possessionClose | partitionConfiguration | hostCxlMemAccess =>
    exact .ite .next (.ite .next .next)
  case burstReceived => exact .ite .next (.ite .next (.ite .next (.ite .next .next)))
  case presenceTimeout | preemptionSave | queueRestart | leaseExpiry | hostSyncApertureWrite =>
    simp only [Machine.exec]
    delta execPresenceTimeout execPreemptionSave execQueueRestart execLeaseExpiry execHostSyncApertureWrite
    split <;> exact .next
  case debugStopRequest | expelFallback | softError =>
    simp only [Machine.exec]
    delta execDebugStopRequest execExpelFallback execSoftError
    dsimp only
    split <;> exact .next
  case traceSample | tlbWalk | joinClone =>
    simp only [Machine.exec]
    delta execTraceSample execTlbWalk execJoinClone
    dsimp only
    refine .ite .next ?_
    split <;> exact .next
  case memoryAccessCompletion => exact GoesOn.execMemoryAccessCompletion
  case divergenceStarvation => exact GoesOn.execDivergenceStarvation
  case haltBroadcast => exact GoesOn.execHaltBroadcast
  case debugStopBreakpoint => exact GoesOn.execDebugStopBreakpoint
  case replayGauntletAdmit => exact GoesOn.execReplayGauntletAdmit
  case replayGateTimeout => exact GoesOn.execReplayGateTimeout
  case packetBegin => exact GoesOn.execPacketBegin
  case chunkLanding => exact GoesOn.execChunkLanding
  case packetCompletion => exact GoesOn.execPacketCompletion
  case fencePacket => exact GoesOn.execFencePacket
  case taskReleaseWrite => exact GoesOn.execTaskReleaseWrite
  case hostSyncAtomic => exact GoesOn.execHostSyncAtomic
  case optLit => exact GoesOn.execOptLit
  case optLitTimeout => exact GoesOn.execOptLitTimeout
  case remoteRequestIngress => exact GoesOn.execRemoteRequestIngress
  case remoteAtomicIngress => exact GoesOn.execRemoteAtomicIngress
  case remoteTimeout => exact GoesOn.execRemoteTimeout
  case collectiveHead => exact GoesOn.execCollectiveHead
  case collectiveResend => exact GoesOn.execCollectiveResend
  case collectiveCompletion => exact GoesOn.execCollectiveCompletion
  case generationFence => exact GoesOn.execGenerationFence
  all_goals cases h

end

end Sys2Proof.Machine

/-! ### A settled core and what a word does around its retirement (R149, R154, R397) -/
namespace Sys2Proof.Machine

theorem State.flush_of_no_outs {s : State} {c : Nat} (h : (s.core c).outs = []) (p : Outst → Bool) : s.flush c p = s := by
  unfold State.flush
  rw [h]
  rfl

theorem State.dropEarly_of_no_early {s : State} {c : Nat} (h : (s.core c).early = []) (p : EarlySec → Bool) : s.dropEarly c p = s := by
  unfold State.dropEarly
  simp [h]

theorem State.publish_of_settled {s : State} {c : Nat} (ho : (s.core c).outs = []) (he : (s.core c).early = [])
    (hc : (s.core c).cache = []) : s.publish c = s := by
  unfold State.publish
  simp [State.flush_of_no_outs ho, State.dropEarly_of_no_early he, hc]

theorem State.pubFirst_of_settled {s : State} {k : Block} (ho : (s.core k.core).outs = []) (he : (s.core k.core).early = [])
    (hc : (s.core k.core).cache = []) : s.pubFirst k none true 3 = .inr s := by
  have hph : s.phasePublish k.core k.trec.part 3 = (s, 0, 0) := by
    unfold State.phasePublish
    simp [State.publish_of_settled ho he hc, State.pubGoal, hc]
  show s.publication k none 3 = .inr s
  unfold State.publication
  simp [State.quietCore, ho, hph, State.published, State.pubsDone, State.bounded, State.dropEarly_of_no_early he]

theorem State.sectorHome_of_settled {s : State} {c : Nat} (he : (s.core c).early = []) (hc : (s.core c).cache = []) (a n : Nat) :
    s.sectorHome c a n = s := by
  unfold State.sectorHome
  simp [State.dropEarly_of_no_early he, hc]

/-- A refresh of a core with no access under way changes that core alone. -/
theorem State.refresh_blocks {s : State} {c : Nat} (ho : (s.core c).outs = []) :
    (s.refresh c).blocks = s.blocks ∧ (s.refresh c).cur = s.cur := by
  unfold State.refresh
  rw [State.flush_of_no_outs ho]
  exact ⟨rfl, rfl⟩

/-- The bytes of memory after a home write that meets no lease, no open cuff and no bad sector. -/
def State.plainMem (s : State) (a : Nat) (bs : List Byte) : Sparse Byte := if bs.isEmpty then s.mem else tsets (0 : Byte) s.mem a bs

/-- Where no line is leased, no cuff open and no sector bad, a home write changes the bytes of memory alone. -/
theorem homeWrite_of_plain {s : State} (hp : Claims.PlainHomes s) (a : Nat) (bs : List Byte) :
    s.homeWrite a bs = { s with mem := s.plainMem a bs } := by
  obtain ⟨hpo, hv, hl, hcu⟩ := hp
  unfold State.homeWrite State.plainMem
  split
  · rfl
  · have hr : s.recall a bs.length = s := by simp [State.recall, hl]
    have hk : s.cuffs a bs.length = s := by simp [State.cuffs, hcu]
    have hh : s.healVault a bs.length = s := by
      unfold State.healVault
      rw [hv, List.filter_nil, ← hv]
    simp only [hr, hk, hh, hpo, List.isEmpty_nil, if_true]

/-- The homes stay plain under a home write. -/
theorem plainHomes_homeWrite {s : State} (hp : Claims.PlainHomes s) (a : Nat) (bs : List Byte) : Claims.PlainHomes (s.homeWrite a bs) := by
  rw [homeWrite_of_plain hp]
  exact hp

theorem homeWrite_updBlk {s : State} (hp : Claims.PlainHomes s) (b : Nat) (F : Block → Block) (a : Nat) (bs : List Byte) :
    (s.updBlk b F).homeWrite a bs = (s.homeWrite a bs).updBlk b F := by
  rw [homeWrite_of_plain hp, homeWrite_of_plain (s := s.updBlk b F) hp]
  rfl

theorem poisonedIn_of_plain {s : State} (hp : Claims.PlainHomes s) (a n : Nat) : s.poisonedIn a n = false := by
  obtain ⟨hpo, hv, -, -⟩ := hp
  simp [State.poisonedIn, hpo, hv]

theorem qClaim_snd (s : State) (off : Nat) : (s.qClaim off).2 = s.homeWrite (syncBase + off) (toLe 4 (s.qWidx off + 1)) := rfl

theorem plainHomes_qClaim {s : State} (hp : Claims.PlainHomes s) (off : Nat) : Claims.PlainHomes (s.qClaim off).2 :=
  plainHomes_homeWrite hp _ _

theorem qClaim_updBlk {s : State} (hp : Claims.PlainHomes s) (b : Nat) (F : Block → Block) (off : Nat) :
    ((s.updBlk b F).qClaim off).2 = (s.qClaim off).2.updBlk b F := by
  rw [qClaim_snd, qClaim_snd, homeWrite_updBlk hp]
  rfl

theorem qWrite_updBlk {s : State} (hp : Claims.PlainHomes s) (b : Nat) (F : Block → Block) (q : CQueue) (i : Nat) (pkt : List Byte) :
    (s.updBlk b F).qWrite q i pkt = (s.qWrite q i pkt).updBlk b F := by
  have hs : (s.updBlk b F).qSlot q i = s.qSlot q i := rfl
  unfold State.qWrite
  rw [hs]
  cases s.qSlot q i with
  | none => rfl
  | some pa =>
    dsimp only
    rw [homeWrite_updBlk hp, homeWrite_updBlk (plainHomes_homeWrite hp _ _)]
    rfl

/-- Claiming an index and writing its slot change the bytes of memory alone. -/
theorem qWrite_qClaim_of_plain {s : State} (hp : Claims.PlainHomes s) (q : CQueue) (off i : Nat) (pkt : List Byte) :
    ∃ m, (s.qClaim off).2.qWrite q i pkt = { s with mem := m } := by
  have e : (s.qClaim off).2 = { s with mem := s.plainMem (syncBase + off) (toLe 4 (s.qWidx off + 1)) } := by
    rw [qClaim_snd, homeWrite_of_plain hp]
  have hp1 := plainHomes_qClaim hp off
  unfold State.qWrite
  split
  · exact ⟨_, by rw [homeWrite_of_plain (plainHomes_homeWrite hp1 _ _), homeWrite_of_plain hp1, e]⟩
  · exact ⟨_, e⟩

/-- A group issues its word in every state with the same word current and the same blocks. -/
theorem State.Issues.of_blocks {s t : State} {b g : Nat} {k : Block} {x : Group} (hi : s.Issues b g k x) (hb : t.blocks = s.blocks)
    (hc : t.cur = s.cur) : t.Issues b g k x := by
  have hf : t.bg b g = s.bg b g := by
    unfold State.bg State.blk
    rw [hb]
  obtain ⟨ha, hfd, hs, hsub, ho, hao, hl⟩ := hi
  exact ⟨hc ▸ ha, hf.trans hfd, hc ▸ hs, hc ▸ hsub, hc ▸ ho, hc ▸ hao, hc ▸ hl⟩

theorem State.Issues.blk_id {s : State} {b g : Nat} {k : Block} {x : Group} (hi : s.Issues b g k x) : k.id = b :=
  State.blk_id (State.bg_iff.1 hi.found).1

theorem State.Issues.grp_num {s : State} {b g : Nat} {k : Block} {x : Group} (hi : s.Issues b g k x) : x.num = g :=
  Block.grp_num (State.bg_iff.1 hi.found).2

theorem State.OnlyBlock.trans {s t u : State} {b c : Nat} (h : s.OnlyBlock t b c) (h' : t.OnlyBlock u b c) : s.OnlyBlock u b c := by
  obtain ⟨⟨_, _, e⟩, hb, hn, qs, hc⟩ := h
  obtain ⟨⟨_, _, e'⟩, hb', hn', qs', hc'⟩ := h'
  refine ⟨⟨_, _, e'.trans (by rw [e])⟩, fun n hne => (hb' n hne).trans (hb n hne), fun n hne => (hn' n hne).trans (hn n hne), qs', ?_⟩
  rw [hc', hc]

theorem State.OnlyBlock.updBlk {s : State} {b c : Nat} {F : Block → Block} (hF : ∀ q, q.id = b → (F q).id = b) :
    s.OnlyBlock (s.updBlk b F) b c :=
  ⟨⟨_, _, rfl⟩, fun _ hn => State.blk_updBlk_ne _ _ _ _ hF hn, fun _ _ => rfl, _, rfl⟩

theorem State.bg_updBlk {s : State} {b g : Nat} {k : Block} {x y : Group} {F : Block → Block} (hF : ∀ q, q.id = b → (F q).id = b)
    (h : s.bg b g = some (k, x)) (hy : (F k).grp g = some y) : (s.updBlk b F).bg b g = some (F k, y) := by
  rw [State.bg_iff, State.blk_updBlk _ _ _ hF, (State.bg_iff.1 h).1]
  exact ⟨rfl, hy⟩

theorem LanesButPreds.trans {x y z : Group} (h : LanesButPreds x y) (h' : LanesButPreds y z) : LanesButPreds x z := fun l => by
  obtain ⟨p, e⟩ := h l
  obtain ⟨q, e'⟩ := h' l
  exact ⟨q, by rw [e', e]⟩

/-- A word that has changed predicates of its group before it retires. -/
theorem State.WordDone.of_before {s s1 t : State} {b g : Nat} {k k1 k' : Block} {x x1 x' : Group} (hb : s.OnlyBlock s1 b k.core)
    (hc : s1.cur = s.cur) (hk : k.OnlyGroup k1 g) (hx : ∃ ls, x1 = { x with lanes := ls }) (hl : LanesButPreds x x1)
    (hd : s1.WordDone t b g k1 k' x1 x') : s.WordDone t b g k k' x x' := by
  have hcore : k1.core = k.core := by
    obtain ⟨_, _, e⟩ := hk.rest
    rw [e]
  refine ⟨hb.trans (hcore ▸ hd.outside), hd.found, hk.trans hd.inside, ?_, fun l => ?_, fun l => ?_⟩
  · obtain ⟨_, e⟩ := hx
    obtain ⟨_, _, _, _, _, _, e'⟩ := hd.group
    exact ⟨_, _, _, _, _, _, by rw [e', e]⟩
  · obtain ⟨_, e⟩ := hl l
    obtain ⟨_, _, _, _, _, _, e'⟩ := hd.passed.lanes l
    exact ⟨_, _, _, _, _, _, by rw [e', e]⟩
  · obtain ⟨_, e⟩ := hl l
    rw [hd.passed.pcs l, hc, e]

/-- A word that changes windows and predicates of its group after it has retired. -/
theorem State.WordDone.updBlk {s t : State} {b g : Nat} {k k1 : Block} {x x1 x2 : Group} (hd : s.WordDone t b g k k1 x x1)
    {F : Block → Block} (hF : ∀ q, q.id = b → (F q).id = b) (hg : (F k1).grp g = some x2) (hk : k1.OnlyGroup (F k1) g)
    (hx : ∃ ls w, x2 = { x1 with lanes := ls, win := w }) (hl : LanesButPreds x1 x2) :
    s.WordDone (t.updBlk b F) b g k (F k1) x x2 := by
  refine ⟨hd.outside.trans (.updBlk hF), State.bg_updBlk hF hd.found hg, hd.inside.trans hk, ?_, fun l => ?_, fun l => ?_⟩
  · obtain ⟨_, _, e⟩ := hx
    obtain ⟨_, _, _, _, _, _, e'⟩ := hd.group
    exact ⟨_, _, _, _, _, _, by rw [e, e']⟩
  · obtain ⟨_, e⟩ := hl l
    obtain ⟨_, _, _, _, _, _, e'⟩ := hd.passed.lanes l
    exact ⟨_, _, _, _, _, _, by rw [e, e']⟩
  · obtain ⟨_, e⟩ := hl l
    rw [e]
    exact hd.passed.pcs l

theorem Block.writeLanes_id (g : Nat) (vw : View) (n : Nat) (rs : List (Nat × List RWord)) : ∀ k : Block, (k.writeLanes g vw n rs).id = k.id := by
  induction rs with
  | nil => exact fun _ => rfl
  | cons r rs ih =>
    intro k
    rw [Block.writeLanes, ih]
    unfold Block.writeSlot
    split
    · rfl
    · split <;> rfl

/-- A retired word that then writes lanes of a slot. -/
theorem State.WordDone.writeLanes {s t : State} {b g : Nat} {k k1 : Block} {x x1 : Group} (hd : s.WordDone t b g k k1 x x1)
    (vw : View) (n : Nat) (f : Nat → List RWord) {ls : List Nat} (hn : ls.Nodup) (hl : ∀ l ∈ ls, l < 32 ∧ (f l).length = vw.parts) :
    ∃ k2 x2, s.WordDone (t.updBlk b (fun q => q.writeLanes g vw n (ls.map (fun l => (l, f l))))) b g k k2 x x2 ∧
      WroteSlot k1 k2 x1 x2 vw n ls f ∧ ∃ w, x2 = { x1 with win := w } := by
  obtain ⟨x2, hg, hk, ⟨w, e⟩, hw⟩ := Block.writeLanes_spec g vw n f ls (State.bg_iff.1 hd.found).2 hn hl
  refine ⟨_, x2, hd.updBlk (fun q hq => (Block.writeLanes_id g vw n _ q).trans hq) hg hk ⟨x1.lanes, w, e⟩ fun l => ⟨(x1.lane l).pred, ?_⟩,
    hw, w, e⟩
  rw [e]
  rfl

/-- A retired word that then gives lanes one value of a slot (R32). -/
theorem State.WordDone.giveAll {s t : State} {b g : Nat} {k k1 : Block} {x x1 : Group} (hd : s.WordDone t b g k k1 x x1)
    (vw : View) (n v : Nat) {ls : List Nat} (hn : ls.Nodup) (hl : ∀ l ∈ ls, l < 32) :
    ∃ k2 x2, s.WordDone (t.giveAll b g vw n ls v) b g k k2 x x2 ∧
      WroteSlot k1 k2 x1 x2 vw n ls (fun _ => freshWords vw.parts v) ∧ ∃ w, x2 = { x1 with win := w } := by
  unfold State.giveAll
  simp only [clean_eq, wordsFor_clean]
  exact hd.writeLanes vw n (fun _ => freshWords vw.parts v) hn fun l h => ⟨hl l h, freshWords_length _ _⟩

/-- The block and the group after a predicate of lanes has been written (R57). -/
theorem Block.setPreds_spec {k : Block} {g : Nat} {x : Group} (hx : k.grp g = some x) (p : Nat) (v : Bool) {ls : List Nat} (hn : ls.Nodup) :
    ∃ y, (k.setPreds g p (ls.map (fun l => (l, v)))).grp g = some y ∧ k.OnlyGroup (k.setPreds g p (ls.map (fun l => (l, v)))) g ∧
      (∃ m, y = { x with lanes := m }) ∧ LanesButPreds x y ∧
      ∀ l n, n < 16 → (y.lane l).p n = if l ∈ ls ∧ n = p ∧ n ≠ 0 then v else (x.lane l).p n := by
  have hput : ∀ z : Group, z.num = g →
      ((ls.map (fun l => (l, v))).foldl (fun y r => y.setLane r.1 ((y.lane r.1).setP p r.2)) z).num = g := fun z hz => by
    obtain ⟨m, e⟩ := setPreds_rest z p (ls.map (fun l => (l, v)))
    rw [e]
    exact hz
  have hlane := fun l => setPreds_lane x p (fun _ => v) ls l hn
  refine ⟨_, ?_, ⟨⟨_, _, rfl⟩, fun n hne => Block.grp_updGrp_ne _ _ _ _ hput hne⟩, setPreds_rest x p (ls.map (fun l => (l, v))), fun l => ?_, fun l n h16 => ?_⟩
  · unfold Block.setPreds
    rw [Block.grp_updGrp _ _ _ hput, hx]
    rfl
  · rw [hlane]
    split
    · exact Lane.setP_rest _ _ _
    · exact ⟨_, rfl⟩
  · rw [hlane]
    by_cases h : l ∈ ls
    · simp only [h, if_true, true_and]
      exact Lane.p_setP _ _ _ _ h16
    · simp [h]

/-- A word that writes a predicate of its active lanes and then retires. -/
theorem predAll_retire {s : State} {b g : Nat} {k : Block} {x : Group} (hi : s.Issues b g k x) (p : Nat) (v : Bool) :
    ∃ k' x', s.WordDone (s.predAll b g p s.cur.act v).retire b g k k' x x' ∧ s.WrotePred k k' x x' p s.cur.act (fun _ => v) := by
  obtain ⟨y, hg, hk, ⟨m, e⟩, hl, hp⟩ := Block.setPreds_spec (State.bg_iff.1 hi.found).2 p v hi.actOnce
  let F : Block → Block := fun q => q.setPreds g p (s.cur.act.map (fun l => (l, v)))
  have hF : ∀ q, q.id = b → (F q).id = b := fun _ hq => hq
  have hi1 : (s.updBlk b F).Issues b g (F k) y := by
    refine ⟨hi.agent, State.bg_updBlk hF hi.found hg, hi.some_, hi.sub, hi.once, hi.actOnce, fun l h => ?_⟩
    obtain ⟨_, e'⟩ := hl l
    rw [e']
    exact hi.live l h
  obtain ⟨k', x', hd, hw, hlt, hsp⟩ := retire_done hi1
  have hb1 : y.by1 = x.by1 ∧ y.by2 = x.by2 ∧ y.by3 = x.by3 := by
    rw [e]
    exact ⟨rfl, rfl, rfl⟩
  obtain ⟨e1, e2, e3⟩ := hb1
  refine ⟨k', x', hd.of_before (.updBlk hF) rfl hk ⟨m, e⟩ hl, fun l n h16 => ?_, ⟨?_, hw.2⟩, hlt.1, fun h => ?_⟩
  · have e' : (x'.lane l).p n = (y.lane l).p n := by
      unfold Lane.p
      rw [hsp l]
    rw [e']
    exact hp l n h16
  · rw [hw.1, e]
  · rw [← e1, ← e2, ← e3]
    exact hlt.2 h

/-- A word that retires and then writes a predicate of its active lanes. -/
theorem retire_predAll {s : State} {b g : Nat} {k : Block} {x : Group} (hi : s.Issues b g k x) (p : Nat) (v : Bool) :
    ∃ k' x', s.WordDone (s.retire.predAll b g p s.cur.act v) b g k k' x x' ∧ s.WrotePred k k' x x' p s.cur.act (fun _ => v) := by
  obtain ⟨k1, x1, hd, hw, hlt, hsp⟩ := retire_done hi
  obtain ⟨y, hg, hk, ⟨m, e⟩, hl, hp⟩ := Block.setPreds_spec (State.bg_iff.1 hd.found).2 p v hi.actOnce
  refine ⟨_, y, hd.updBlk (fun _ hq => hq) hg hk ⟨m, x1.win, e⟩ hl, fun l n h16 => ?_, ⟨?_, hw.2⟩, ?_⟩
  · rw [hp l n h16]
    unfold Lane.p
    rw [hsp l]
  · rw [e]
    exact hw.1
  · rw [e]
    exact hlt

/-- The words of two slots of view 01 stand apart. -/
theorem slotWord_w_apart (k : Block) (x : Group) {n m l j : Nat} (hl : l < 32) (hj : j < 32) (h : n ≠ m) :
    k.slotWord x .w n l + 2 ≤ k.slotWord x .w m j ∨ k.slotWord x .w m j + 2 ≤ k.slotWord x .w n l := by
  simp only [Block.slotWord]
  omega

theorem WroteSlot.bwin_of_w {k k' : Block} {x x' : Group} {d : Nat} {ls : List Nat} {f : Nat → List RWord}
    (h : WroteSlot k k' x x' .w d ls f) : k'.bwin = k.bwin := h.other

/-- A word that retires and gives every active lane one value of slot `d` of view 01 and one of slot `d + 1` (R372). -/
theorem retire_giveTwo {s : State} {b g : Nat} {k : Block} {x : Group} (hi : s.Issues b g k x) (d u v : Nat) :
    Claims.GaveTwo s ((s.retire.giveAll b g .w d s.cur.act u).giveAll b g .w (d + 1) s.cur.act v) b g k x s.cur.act d u v := by
  have h32 : ∀ l ∈ s.cur.act, l < 32 := fun l hl => (hi.live l (hi.sub l hl)).1
  obtain ⟨k1, x1, hd1, hw1, hl1, hp1⟩ := retire_giveAll hi .w d u
  obtain ⟨k2, x2, hd2, hw2, w, e⟩ := hd1.giveAll .w (d + 1) v hi.actOnce h32
  have hs : ∀ n l, k1.slotWord x1 .w n l = k.slotWord x .w n l := fun n l => (PassedWord.places hd1).slotWord .w n l
  have hold : ∀ a, (∀ l ∈ s.cur.act, a < k.slotWord x .w (d + 1) l ∨ k.slotWord x .w (d + 1) l + 2 ≤ a) →
      tget RWord.zero x2.win a = tget RWord.zero x1.win a := fun a ha => hw2.old a fun l hl => by
    rw [hs]
    exact ha l hl
  refine ⟨k2, x2, hd2, ?_, ?_, ?_, fun l hl => ⟨?_, ?_⟩, fun a ha => ?_⟩
  · rw [e]
    exact hl1
  · rw [e]
    exact hp1
  · exact hw2.bwin_of_w.trans hw1.bwin_of_w
  · refine Eq.trans ?_ (hw1.new l hl)
    have hz : ∀ i < 2, tget RWord.zero x2.win (k.slotWord x .w d l + i) = tget RWord.zero x1.win (k.slotWord x .w d l + i) :=
      fun i hi2 => hold _ fun j hj => by
        have := slotWord_w_apart k x (h32 l hl) (h32 j hj) (n := d) (m := d + 1) (by omega)
        omega
    show [tget RWord.zero x2.win _, tget RWord.zero x2.win _] = [tget RWord.zero x1.win _, tget RWord.zero x1.win _]
    rw [hz 1 (by omega), show tget RWord.zero x2.win (k.slotWord x .w d l) = tget RWord.zero x1.win (k.slotWord x .w d l) from hz 0 (by omega)]
  · rw [← hs]
    exact hw2.new l hl
  · rw [hold a fun l hl => ha l hl (d + 1) (.inr rfl)]
    exact hw1.old a fun l hl => ha l hl d (.inl rfl)

end Sys2Proof.Machine

/-! ### Task words, words of replayed objects and words of class C on a settled core (R250, R251, R259 to R263, R350, R351, R372 to
R376) -/
namespace Sys2Proof.Claims
open Sys2Proof.Machine

/-! The operands as the statements read them are the operands that the machine reads. -/

theorem lowWord_eq_headD (k : Block) (x : Group) (vw : View) (n l : Nat) : (k.src x vw n l).headD RWord.zero = lowWord k x vw n l := by
  unfold lowWord
  cases k.src x vw n l <;> rfl

theorem src_v_eq (k : Block) (x : Group) (n l : Nat) : k.src x .v n l = [lowWord k x .v n l] := by
  obtain ⟨w, e⟩ := List.length_eq_one_iff.1 (src_length k x .v n l)
  rw [lowWord, e]
  rfl

theorem addrSlots_viewOf (v a : Nat) : addrSlots (viewOf v) a = addressSlots v a := by
  match v with
  | 0 | 1 | 2 | _ + 3 => rfl

theorem addrWords_viewOf (k : Block) (x : Group) (v a l : Nat) : addrWords k x (viewOf v) a l = addressWords k x v a l := by
  match v with
  | 0 =>
    show (k.src x .v a l).take 1 ++ (k.src x .v (a + 1) l).take 1 = [lowWord k x .v a l, lowWord k x .v (a + 1) l]
    rw [src_v_eq, src_v_eq]
    rfl
  | 1 | 2 | _ + 3 => rfl

/-- The low word of a lane, read as a signed number. -/
theorem sgn_valOf_src (k : Block) (x : Group) (vw : View) (n l : Nat) :
    sgn 32 (valOf (k.src x vw n l) % 2 ^ 32) = (lowWord k x vw n l).val.toInt := by
  have hv : valOf (k.src x vw n l) % 2 ^ 32 = (lowWord k x vw n l).val.toNat := by
    rw [← lowWord_eq_headD]
    cases k.src x vw n l with
    | nil => rfl
    | cons w ws =>
      show (w.val.toNat + 2 ^ 32 * valOf ws) % 2 ^ 32 = w.val.toNat
      rw [Nat.add_mul_mod_self_left, Nat.mod_eq_of_lt w.val.isLt]
  have hlt := (lowWord k x vw n l).val.isLt
  rw [hv, BitVec.toInt_eq_toNat_cond]
  unfold sgn bitOf
  simp only [decide_eq_true_eq]
  split <;> split <;> omega

/-! A group's word on a settled core. -/

section
variable {s : State} {b g : Nat} {k : Block} {x : Group}

theorem AtRest.pubFirst (h : AtRest s b g k x) : s.pubFirst k x.wait true 3 = .inr s := by
  rw [h.first]
  exact State.pubFirst_of_settled h.outs h.early h.cache

theorem AtRest.sectorHome (h : AtRest s b g k x) (a n : Nat) : s.sectorHome k.core a n = s := State.sectorHome_of_settled h.early h.cache a n

theorem AtRest.homeWrite (h : AtRest s b g k x) (a : Nat) (bs : List Byte) :
    (s.homeWrite a bs).Issues b g k x ∧ (s.homeWrite a bs).cur = s.cur := by
  rw [homeWrite_of_plain h.plain]
  exact ⟨h.issues.of_blocks rfl rfl, rfl⟩

/-- A word that gives every active lane one value has answered it from the state `s0` with its own effect. -/
theorem gaveAll_retire {s0 : State} (h0 : s0.Issues b g k x) (hc : s0.cur = s.cur) (vw : View) (d v : Nat) :
    GaveAll s0 (s0.retire.giveAll k.id x.num vw d s.cur.act v) b g k x s.cur.act vw d v := by
  rw [h0.blk_id, h0.grp_num, ← hc]
  exact retire_giveAll h0 vw d v

theorem answers_retire {s0 : State} (h0 : s0.Issues b g k x) (hc : s0.cur = s.cur) (vw : View) (d v : Nat) :
    Answers s0 (s0.retire.giveAll k.id x.num vw d s.cur.act v) b g x s.cur.act vw d v :=
  ⟨k, x, x.sb, h0.found, rfl, gaveAll_retire h0 hc vw d v⟩

/-! ### Task words -/

/-- A counter that stays in range above 0 is written, and nothing is released (R250). -/
theorem addDep_of_stays {pa va : Nat} {n : Int} (ht : s.taskState pa = 0) (h1 : 1 ≤ (s.depOf pa : Int) + n)
    (h2 : (s.depOf pa : Int) + n ≤ 2 ^ 31 - 1) :
    s.addDep pa va n = some (s.depOf pa, s.homeWrite (pa + 0x2C) (toLe 4 ((s.depOf pa : Int) + n).toNat)) := by
  have hc : s.taskState pa = 0 ∧ 0 ≤ (s.depOf pa : Int) + n ∧ (s.depOf pa : Int) + n ≤ 0x7FFFFFFF := ⟨ht, by omega, by omega⟩
  have hz : (s.depOf pa : Int) + n ≠ 0 := by omega
  unfold State.addDep
  dsimp only
  rw [if_pos hc, if_neg hz]

/-- `tkdec` and `tkadd` answer the old counter where their change is not refused. -/
theorem AtRest.depWord_eq (h : AtRest s b g k x) {d a v : Nat} {n : Block → Group → Nat → Int × Bool} {extra : List (View × Nat)}
    {f : State → Nat → Nat → Int → Option (Nat × State)} {pa old : Nat} {t : State}
    (hs : SlotsIn k x (addressSlots v a ++ (viewOf v, d) :: extra)) (hg : goodOf (addressWords k x v a (lowest s.cur.act)) = true)
    (hr : s.recordAt k (valOf (addressWords k x v a (lowest s.cur.act))) [.wr, .rd] = .ok pa) (hn : (n k x (lowest s.cur.act)).2 = true)
    (hf : f s pa (valOf (addressWords k x v a (lowest s.cur.act))) (n k x (lowest s.cur.act)).1 = some (old, t)) :
    depWord d a v n extra f s = .next (t.retire.giveAll k.id x.num (viewOf v) d s.cur.act old) := by
  unfold depWord
  rw [joinWord_eq h.issues]
  simp only [addrWords_viewOf, addrSlots_viewOf, hs.ok, hg, hr, hn, poisonedIn_of_plain h.plain, h.pubFirst, h.sectorHome, hf, Bool.not_true,
    Bool.false_eq_true, if_false]

theorem tkdec_completes (h : AtRest s b g k x) {d a v pa : Nat} (hs : SlotsIn k x (addressSlots v a ++ [(viewOf v, d)]))
    (hg : goodOf (addressWords k x v a (lowest s.cur.act)) = true)
    (hr : s.recordAt k (valOf (addressWords k x v a (lowest s.cur.act))) [.wr, .rd] = .ok pa) (ht : s.taskState pa = 0)
    (h2 : 2 ≤ s.depOf pa) (h31 : s.depOf pa ≤ 2 ^ 31) : ∃ t, exec (.tkdec d a v) s = .next t ∧
      Answers (s.homeWrite (pa + 0x2C) (toLe 4 (s.depOf pa - 1))) t b g x s.cur.act (viewOf v) d (s.depOf pa) := by
  have hd : s.decDep pa (valOf (addressWords k x v a (lowest s.cur.act))) =
      some (s.depOf pa, s.homeWrite (pa + 0x2C) (toLe 4 (s.depOf pa - 1))) := by
    unfold State.decDep
    rw [if_neg (by omega), addDep_of_stays ht (by omega) (by omega), show ((s.depOf pa : Int) + -1).toNat = s.depOf pa - 1 by omega]
  obtain ⟨hi, hc⟩ := h.homeWrite (pa + 0x2C) (toLe 4 (s.depOf pa - 1))
  refine ⟨_, ?_, answers_retire hi hc _ _ _⟩
  show execTkdec d a v s = _
  unfold execTkdec
  exact h.depWord_eq hs hg hr rfl hd

theorem tkadd_completes (h : AtRest s b g k x) {d a c v pa : Nat}
    (hs : SlotsIn k x (addressSlots v a ++ [(viewOf v, d), (viewOf v, c)])) (hg : goodOf (addressWords k x v a (lowest s.cur.act)) = true)
    (hr : s.recordAt k (valOf (addressWords k x v a (lowest s.cur.act))) [.wr, .rd] = .ok pa) (ht : s.taskState pa = 0)
    (hw : rok (lowWord k x (viewOf v) c (lowest s.cur.act)) = true)
    (h1 : 1 ≤ (s.depOf pa : Int) + (lowWord k x (viewOf v) c (lowest s.cur.act)).val.toInt)
    (h31 : (s.depOf pa : Int) + (lowWord k x (viewOf v) c (lowest s.cur.act)).val.toInt ≤ 2 ^ 31 - 1) :
    ∃ t, exec (.tkadd d a c v) s = .next t ∧
      Answers (s.homeWrite (pa + 0x2C) (toLe 4 ((s.depOf pa : Int) + (lowWord k x (viewOf v) c (lowest s.cur.act)).val.toInt).toNat)) t b g x
        s.cur.act (viewOf v) d (s.depOf pa) := by
  obtain ⟨hi, hc⟩ := h.homeWrite (pa + 0x2C) (toLe 4 ((s.depOf pa : Int) + (lowWord k x (viewOf v) c (lowest s.cur.act)).val.toInt).toNat)
  refine ⟨_, ?_, answers_retire hi hc _ _ _⟩
  show execTkadd d a c v s = _
  unfold execTkadd
  refine h.depWord_eq hs hg hr ?_ ?_
  · show rok ((k.src x (viewOf v) c (lowest s.cur.act)).headD RWord.zero) = true
    rw [lowWord_eq_headD]
    exact hw
  · dsimp only
    rw [sgn_valOf_src]
    exact addDep_of_stays ht h1 h31

theorem tkmake_completes (h : AtRest s b g k x) {d a c v pa pb : Nat}
    (hs : SlotsIn k x (addressSlots v a ++ addressSlots v c ++ [(viewOf v, d)]))
    (hga : goodOf (addressWords k x v a (lowest s.cur.act)) = true) (hgc : goodOf (addressWords k x v c (lowest s.cur.act)) = true)
    (hra : s.recordAt k (valOf (addressWords k x v a (lowest s.cur.act))) [.wr, .rd] = .ok pa)
    (hrc : s.recordAt k (valOf (addressWords k x v c (lowest s.cur.act))) [.rd] = .ok pb) (hma : s.inMirror k.trec.part pa = false)
    (hmc : s.inMirror k.trec.part pb = false) (ht : s.taskState pa = 0)
    (hne : leAt (patch (s.homeBytes pb 128) 0x3F [0]) 0x2C 4 ≠ 0) : ∃ t, exec (.tkmake d a c v) s = .next t ∧
      Answers (s.homeWrite pa (patch (s.homeBytes pb 128) 0x3F [0])) t b g x s.cur.act (viewOf v) d 0 := by
  have hmk : s.makeTask pa (valOf (addressWords k x v a (lowest s.cur.act))) pb = some (s.homeWrite pa (patch (s.homeBytes pb 128) 0x3F [0])) := by
    unfold State.makeTask
    dsimp only
    rw [ht, if_neg (by decide), if_neg hne]
  obtain ⟨hi, hc⟩ := h.homeWrite pa (patch (s.homeBytes pb 128) 0x3F [0])
  refine ⟨_, ?_, answers_retire hi hc _ _ _⟩
  show execTkmake d a c v s = _
  unfold execTkmake
  rw [joinWord_eq h.issues]
  simp only [addrWords_viewOf, addrSlots_viewOf, hs.ok, hga, hgc, hra, hrc, hma, hmc, poisonedIn_of_plain h.plain, h.pubFirst, h.sectorHome,
    hmk, Bool.not_true, Bool.or_false, Bool.false_eq_true, if_false]

theorem tktake_completes (hi : s.Issues b g k x) {d v n : Nat} {q q' : Grid} (hs : SlotsIn k x [(viewOf v, d)])
    (hq : s.grid k.task = some q) (ht : q.take (dieOf k.core) = some (n, q')) : ∃ t, exec (.tktake d v) s = .next t ∧
      GaveAll (s.updGrid k.task (fun _ => q')) t b g k x s.cur.act (viewOf v) d n := by
  have hti : s.takeIndex k = some (n, s.updGrid k.task (fun _ => q')) := by
    unfold State.takeIndex Grid.takeFor
    simp only [hq, ht, Bool.false_eq_true, if_false]
  refine ⟨_, ?_, gaveAll_retire (s := s) (hi.of_blocks (t := s.updGrid k.task (fun _ => q')) rfl rfl) rfl _ _ _⟩
  show execTktake d v s = _
  unfold execTktake
  rw [joinWord_eq hi]
  simp only [hs.ok, hti, Bool.not_true, Bool.false_eq_true, if_false]

theorem taskWordsComplete : TaskWordsComplete := by
  intro s b g k x d a c v h
  refine ⟨fun pa hg hr ht => ⟨?_, ?_⟩, ?_, ?_⟩
  · exact fun _ hs h2 h31 => tkdec_completes h hs hg hr ht h2 h31
  · exact fun _ hs hw h1 h31 => tkadd_completes h hs hg hr ht hw h1 h31
  · exact fun pa pb _ hs hga hgc hra hrc hma hmc ht hne => tkmake_completes h hs hga hgc hra hrc hma hmc ht hne
  · exact fun _ hs q n q' hq htk => tktake_completes h.issues hs hq htk

/-! ### Words of replayed objects -/

theorem selector_of_names {a c obj meth : Nat} (hn : Names s k x a c obj meth) :
    s.selector k.trec.part (valOf (k.src x .w c (lowest s.cur.act))) = some (obj, meth) := by
  obtain ⟨-, -, hv, ho, hm, hlt⟩ := hn
  have e1 : valOf (k.src x .w c (lowest s.cur.act)) / 256 % 64 = obj := by omega
  have e2 : valOf (k.src x .w c (lowest s.cur.act)) % 32 = meth := by omega
  unfold State.selector
  simp only [e1, e2]
  rw [if_neg (by omega)]

/-- A word that calls, past its checks (R372). -/
theorem objectWord_eq (hi : s.Issues b g k x) {d a c obj meth : Nat} {two : Bool}
    {f : Block → Group → List Nat → Nat → Nat → List Nat → Out}
    (hs : SlotsIn k x ((if two then [(.w, d + 1)] else []) ++ [(.w, d), (.w, a), (.w, c)])) (hn : Names s k x a c obj meth) :
    objectWord d a c two f s = f k x s.cur.act obj meth (argOf k x a) := by
  have hbad : (upFrom 0 8).filter (fun l => !goodOf (nth [] (argLanes k x a) l)) = [] := by
    rw [List.filter_eq_nil_iff]
    intro l hl
    have hl8 : l < 8 := by
      have := (upFrom_mem 0 8 l).1 hl
      omega
    rw [argLanes, nth_map_upFrom [] _ 8 0 l hl8, Nat.zero_add, hn.2.1 l hl8]
    decide
  have harg : (argLanes k x a).map valOf = argOf k x a := List.map_map
  unfold objectWord
  rw [joinWord_eq hi]
  simp only [hs.ok, hn.1, hbad, selector_of_names hn, harg, Bool.not_true, Bool.false_eq_true, if_false, ne_eq, not_true_eq_false]

/-- A word that names a position of the log, past its checks (R372). -/
theorem positionWord_eq (hi : s.Issues b g k x) {d a : Nat} {two : Bool} {f : Block → Group → List Nat → Nat → Out}
    (hs : SlotsIn k x ((if two then [(.w, d + 1)] else []) ++ [(.w, d), (.w, a)]))
    (hg : goodOf (k.src x .w a (lowest s.cur.act)) = true) (h48 : valOf (k.src x .w a (lowest s.cur.act)) < 2 ^ 48) :
    positionWord d a two f s = f k x s.cur.act (valOf (k.src x .w a (lowest s.cur.act))) := by
  unfold positionWord
  rw [joinWord_eq hi]
  simp only [hs.ok, hg, Nat.not_le.2 h48, Bool.not_true, Bool.false_eq_true, if_false]

/-- A group that has changed only what its lanes do not show issues on. -/
theorem issues_updGrp (hi : s.Issues b g k x) (f : Group → Group) (hf : ∀ y, (f y).num = y.num) (hl : (f x).lanes = x.lanes) :
    (s.updGrp b g f).Issues b g (k.updGrp g f) (f x) := by
  obtain ⟨ha, hfd, hs, hsub, ho, hao, hlv⟩ := hi
  refine ⟨ha, State.bg_updGrp f hfd fun y hy => (hf y).trans hy, hs, hsub, ho, hao, fun l h => ?_⟩
  have e : (f x).lane l = x.lane l := by
    unfold Group.lane
    rw [hl]
  rw [e]
  exact hlv l h

theorem noteSeen_issues (hi : s.Issues b g k x) (p : Nat) : ∃ k0 x0, (s.noteSeen b g p).Issues b g k0 x0 :=
  ⟨_, _, issues_updGrp hi (fun y => { y with roseen := BitVec.ofNat 64 (max y.roseen.toNat p) }) (fun _ => rfl) rfl⟩

/-- The two answers of `rowait` and `roread`, after the group has noted a position (R372). -/
theorem gaveTwo_noted (hi : s.Issues b g k x) (p d u v : Nat) : ∃ s0 k0 x0,
    GaveTwo s0 (((s.noteSeen k.id x.num p).retire.giveAll k.id x.num .w d s.cur.act u).giveAll k.id x.num .w (d + 1) s.cur.act v) b g k0 x0
      s.cur.act d u v := by
  obtain ⟨k0, x0, h0⟩ := noteSeen_issues hi p
  rw [hi.blk_id, hi.grp_num]
  exact ⟨_, k0, x0, retire_giveTwo h0 d u v⟩

/-- A group waits (R123). -/
theorem wait_of_group (hi : s.Issues b g k x) (on : WaitOn) : ∃ k0 x0, (s.wait on).bg b g = some (k0, x0) ∧
    x0.wait.map Wait.on = some on ∧ (s.wait on).parts = s.parts := by
  unfold State.wait State.waitSlots
  simp only [hi.agent, hi.found]
  refine ⟨_, _, (State.updQuad_bg _ _ _ _ _ _).trans (State.bg_updGrp _ hi.found fun _ h => h), ?_, rfl⟩
  dsimp only
  cases x.wait with
  | none => rfl
  | some o =>
    dsimp only
    split
    next ho => exact congrArg some ho.1
    next => rfl

/-- A call that has been placed answers its position (R373). -/
theorem rocall_completes (hi : s.Issues b g k x) {d a c pos : Nat} (hcall : x.calling = true) (hpos : x.roPos = some pos)
    (hst : k.stopping = false) : ∃ t s0 k0 x0, exec (.rocall d a c) s = .next t ∧ GaveAll s0 t b g k0 x0 s.cur.act .w d pos := by
  obtain ⟨w, hw⟩ : ∃ w, x.wait = some w := by
    unfold Group.calling at hcall
    cases hx : x.wait with
    | none => rw [hx] at hcall; cases hcall
    | some w => exact ⟨w, rfl⟩
  have h1 := issues_updGrp hi (fun y => { y with roPos := none, wait := none }) (fun _ => rfl) rfl
  have h2 := issues_updGrp h1 (fun y => { y with roseen := BitVec.ofNat 64 (max y.roseen.toNat pos) }) (fun _ => rfl) rfl
  let s0 := (s.updGrp b g (fun y => { y with roPos := none, wait := none })).noteSeen b g pos
  obtain ⟨k', x', hd, hgave⟩ := retire_giveAll (s := s0) h2 .w d pos
  let t := s0.retire.giveAll b g .w d s.cur.act pos
  have hstop : k'.stopping = false := by
    obtain ⟨_, _, e⟩ := hd.inside.rest
    rw [e]
    exact hst
  have hwait : x'.wait = none := by
    obtain ⟨_, _, _, _, _, _, e⟩ := hd.group
    rw [e]
  have hafter : t.afterCall b = t := by
    unfold State.afterCall
    rw [show t.blk b = some k' from (State.bg_iff.1 hd.found).1]
    simp [hstop]
  have hfrom : t.fromIssue b g w = t := by
    unfold State.fromIssue
    rw [show t.bg b g = some (k', x') from hd.found]
    simp [hwait]
  refine ⟨t, s0, _, _, ?_, k', x', hd, hgave⟩
  show execRocall d a c s = .next t
  unfold execRocall
  rw [joinWord_eq hi]
  simp only [hcall, hpos, hi.blk_id, hi.grp_num, if_true]
  rw [show (s0.retire.giveAll b g .w d s.cur.act pos).afterCall b = t from hafter]
  unfold State.sinceIssue
  simp only [hi.agent, hi.found, hw, hfrom, ite_self]

/-- A call is queued behind the partition's unsent ones, and the group waits for its place (R373). -/
theorem rocall_queues (h : AtRest s b g k x) {d a c obj meth : Nat} (hs : SlotsIn k x [(.w, d), (.w, a), (.w, c)])
    (hn : Names s k x a c obj meth) (hroom : s.callRoom k.trec.part = true) :
    ∃ t k0 x0, exec (.rocall d a c) s = .next t ∧ t.bg b g = some (k0, x0) ∧ x0.calling = true ∧
      (t.part k.trec.part).unsent = (s.part k.trec.part).unsent ++ [(callEntry s.pkgId k.trec.part obj meth (argOf k x a), some (b, g))] := by
  have hi := h.issues
  have hcall : x.calling = false := by
    unfold Group.calling
    rw [h.first]
  let q := s.queueCall k.trec.part (callEntry s.pkgId k.trec.part obj meth (argOf k x a)) (some (b, g))
  let q1 := q.updGrp b g (fun y => { y with roPos := none })
  have hq1 : q1.Issues b g _ _ := issues_updGrp (hi.of_blocks (t := q) rfl rfl) (fun y => { y with roPos := none }) (fun _ => rfl) rfl
  have he : exec (.rocall d a c) s = .next (q1.wait .called) := by
    show execRocall d a c s = _
    unfold execRocall
    rw [joinWord_eq hi]
    simp only [hcall, Bool.false_eq_true, if_false]
    rw [objectWord_eq hi (two := false) hs hn]
    simp only [h.pubFirst, hroom, hi.blk_id, hi.grp_num, Bool.not_true, Bool.false_eq_true, if_false]
    unfold State.sinceIssue
    simp only [hi.agent, hi.found, h.first]
    rfl
  obtain ⟨k0, x0, hbg, hw, hparts⟩ := wait_of_group hq1 .called
  refine ⟨_, k0, x0, he, hbg, ?_, ?_⟩
  · obtain ⟨w, e, hon⟩ := Option.map_eq_some_iff.1 hw
    unfold Group.calling
    rw [e]
    exact decide_eq_true hon
  · rw [State.part, hparts]
    show (tget Machine.Part.none (tset Machine.Part.none s.parts k.trec.part _) k.trec.part).unsent = _
    rw [tget_tset_same]

theorem rowait_completes (hi : s.Issues b g k x) {d a : Nat} (hs : SlotsIn k x [(.w, d + 1), (.w, d), (.w, a)])
    (hg : goodOf (k.src x .w a (lowest s.cur.act)) = true) (h48 : valOf (k.src x .w a (lowest s.cur.act)) < 2 ^ 48)
    (happ : valOf (k.src x .w a (lowest s.cur.act)) < (s.part k.trec.part).applied)
    (htrim : (s.part k.trec.part).trim ≤ valOf (k.src x .w a (lowest s.cur.act))) : ∃ t s0 k0 x0, exec (.rowait d a) s = .next t ∧
      GaveTwo s0 t b g k0 x0 s.cur.act d (s.homeLe (s.logSlot k.trec.part (valOf (k.src x .w a (lowest s.cur.act))) + 88) 8)
        (s.homeLe (s.logSlot k.trec.part (valOf (k.src x .w a (lowest s.cur.act))) + 96) 8) := by
  obtain ⟨s0, k0, x0, hgave⟩ := gaveTwo_noted hi (valOf (k.src x .w a (lowest s.cur.act))) d
    (s.homeLe (s.logSlot k.trec.part (valOf (k.src x .w a (lowest s.cur.act))) + 88) 8)
    (s.homeLe (s.logSlot k.trec.part (valOf (k.src x .w a (lowest s.cur.act))) + 96) 8)
  refine ⟨_, s0, k0, x0, ?_, hgave⟩
  show execRowait d a s = _
  unfold execRowait
  rw [positionWord_eq hi (two := true) hs hg h48]
  dsimp only
  rw [if_neg (Nat.not_le.2 happ), if_neg (Nat.not_lt.2 htrim), if_neg (Nat.not_lt.2 htrim)]

theorem roread_completes (hi : s.Issues b g k x) {d a c obj meth : Nat} (hs : SlotsIn k x [(.w, d + 1), (.w, d), (.w, a), (.w, c)])
    (hn : Names s k x a c obj meth) (happ : x.roseen.toNat < (s.part k.trec.part).applied) :
    ∃ t s0 k0 x0 u v, exec (.roread d a c) s = .next t ∧ GaveTwo s0 t b g k0 x0 s.cur.act d u v := by
  let r := s.runCall k.trec.part ⟨s.pkgId, obj, meth, argOf k x a⟩ (s.part k.trec.part).applied true
  obtain ⟨s0, k0, x0, hgave⟩ := gaveTwo_noted hi ((s.part k.trec.part).applied - 1) d (callResult r) (callStatus r)
  refine ⟨_, s0, k0, x0, _, _, ?_, hgave⟩
  show execRoread d a c s = _
  unfold execRoread
  rw [objectWord_eq hi (two := true) hs hn]
  exact if_neg fun hc => Nat.not_le.2 happ hc.1

theorem rotrim_completes (hi : s.Issues b g k x) {d a : Nat} (hs : SlotsIn k x [(.w, d), (.w, a)])
    (hg : goodOf (k.src x .w a (lowest s.cur.act)) = true) (h48 : valOf (k.src x .w a (lowest s.cur.act)) < 2 ^ 48) :
    ∃ t s0, exec (.rotrim d a) s = .next t ∧ GaveAll s0 t b g k x s.cur.act .w d (s.part k.trec.part).trim := by
  let frame := queuedFrame 5 (if s.partSys k.trec.part then 2 else 0) k.trec.part (toLe 8 (valOf (k.src x .w a (lowest s.cur.act))))
  let s0 : State := { s with nx := { s.nx with outq := s.nx.outq ++ [frame] } }
  refine ⟨_, s0, ?_, gaveAll_retire (s := s) (s0 := s0) (hi.of_blocks rfl rfl) rfl _ _ _⟩
  show execRotrim d a s = _
  unfold execRotrim
  rw [positionWord_eq hi (two := false) hs hg h48]

theorem objectWordsComplete : ObjectWordsComplete := by
  refine ⟨?_, ?_⟩
  · intro s b g k x d a c pos hi _ _ hcall hpos hst
    exact rocall_completes hi hcall hpos hst
  · intro s b g k x d a c obj meth h
    refine ⟨?_, ?_, ?_, ?_⟩
    · exact fun _ hs hn hroom => rocall_queues h hs hn hroom
    · exact fun _ hs hg h48 happ htrim => rowait_completes h.issues hs hg h48 happ htrim
    · exact fun _ hs hn happ => roread_completes h.issues hs hn happ
    · exact fun _ hs hg h48 => rotrim_completes h.issues hs hg h48

end

end Sys2Proof.Claims

/-! ### Words of class C on a settled core (R259 to R263, R350, R351) -/
namespace Sys2Proof.Claims
open Sys2Proof.Machine

theorem bytesOf_map_val (ws : List RWord) : bytesOf (ws.map (fun w => w.val)) = (ws.map (fun w => toLe 4 w.val.toNat)).flatten := by
  induction ws with
  | nil => rfl
  | cons w ws ih => rw [List.map_cons, List.map_cons, List.flatten_cons, ← ih]; rfl

/-- A mask all of whose bits a number has. -/
theorem and_eq_right_of_bits {m y n : Nat} (hm : m < 2 ^ n) (h : ∀ j < n, bitOf m j = true → bitOf y j = true) : y &&& m = m := by
  apply Nat.eq_of_testBit_eq
  intro j
  rw [Nat.testBit_and]
  by_cases hj : j < n
  · have := h j hj
    rw [bitOf_testBit, bitOf_testBit] at this
    cases hb : m.testBit j with
    | false => simp
    | true => simp [this hb]
  · rw [Nat.testBit_lt_two_pow (Nat.lt_of_lt_of_le hm (Nat.pow_le_pow_right (by decide) (Nat.le_of_not_lt hj))), Bool.and_false]

section
variable {s : State} {b g : Nat} {k : Block} {x : Group} {act : List Nat} {l0 : Nat} {str : Bool}

theorem Cx.bytes64_eq (vw : View) (n : Nat) : (⟨k, x, act, l0, str⟩ : Cx).bytes64 vw n = Claims.bytes64 k x vw n := by
  unfold Cx.bytes64 Claims.bytes64
  simp only [bytesOf_map_val]

theorem Cx.bad64_of_good {vw : View} {n : Nat} (h : Good64 k x vw n) : (⟨k, x, act, l0, str⟩ : Cx).bad64 vw n = [] := by
  unfold Cx.bad64
  rw [List.filter_eq_nil_iff]
  intro l hl
  have hlt : l < 16 / vw.parts := by
    have := (upFrom_mem 0 _ l).1 hl
    omega
  simp [h l hlt]

theorem ownerWord_eq_ownerOf : ownerWord k g str = ownerOf k g str := by
  unfold ownerWord ownerOf
  cases str <;> simp only [Bool.false_eq_true, if_true, if_false] <;> omega

theorem Cx.packet_eq (hx : x.num = g) (v n : Nat) :
    (⟨k, x, act, l0, false⟩ : Cx).packet (viewOf v) n = patch (Claims.bytes64 k x (viewOf v) n) 4 (toLe 4 (ownerOf k g false)) := by
  unfold Cx.packet
  rw [Cx.bytes64_eq, ownerWord_eq_ownerOf, hx]

/-- A group's word of class C. -/
theorem copyWord_eq (hi : s.Issues b g k x) (ok : Bool) (f : Cx → Out) : copyWord ok f s = f ⟨k, x, s.cur.act, lowest s.cur.act, false⟩ := by
  unfold copyWord
  simp only [hi.agent]
  exact joinWord_eq hi _

/-- A word that names a queue, past its checks (R259). -/
theorem queueWord_eq (hi : s.Issues b g k x) {ok : Bool} {vw : View} {a : Nat} {slots : List (View × Nat)} {f : Cx → CQueue → Out} {q : CQueue}
    (hs : SlotsIn k x ((vw, a) :: slots)) (hw : rok (lowWord k x vw a (lowest s.cur.act)) = true)
    (hq : s.namedQueue k.trec.part (lowWord k x vw a (lowest s.cur.act)).val.toNat = some q) :
    queueWord ok vw a slots f s = f ⟨k, x, s.cur.act, lowest s.cur.act, false⟩ q := by
  unfold queueWord
  rw [copyWord_eq hi]
  simp only [Cx.low, lowWord_eq_headD, hs.ok, hw, hq, Bool.not_true, Bool.false_eq_true, if_false]

/-- Both forms of `cpost`, past their checks and their publication (R259). -/
theorem AtRest.postWord_eq (h : AtRest s b g k x) {ok : Bool} {a c v : Nat} {f : State → Cx → CQueue → List Byte → Out} {q : CQueue}
    (hs : SlotsIn k x [(viewOf v, a), (viewOf v, c)]) (hw : rok (lowWord k x (viewOf v) a (lowest s.cur.act)) = true)
    (hq : s.namedQueue k.trec.part (lowWord k x (viewOf v) a (lowest s.cur.act)).val.toNat = some q) (hg : Good64 k x (viewOf v) c) :
    postWord ok a c v f s = f s ⟨k, x, s.cur.act, lowest s.cur.act, false⟩ q
      (patch (Claims.bytes64 k x (viewOf v) c) 4 (toLe 4 (ownerOf k g false))) := by
  unfold postWord
  rw [queueWord_eq h.issues hs hw hq]
  simp only [Cx.claim, Cx.wait, Bool.false_eq_true, if_false, h.none_, Cx.bad64_of_good hg, h.pubFirst, Cx.packet_eq h.issues.grp_num]

/-- A group that holds no claim gives it up and passes its word (R260). -/
theorem clearClaim_retire (hi : s.Issues b g k x) (hc : x.claim = none) :
    PassedFrom s (s.updGrp b g (fun y => { y with claim := none })).retire b g k x := by
  let f : Group → Group := fun y => { y with claim := none }
  have e : f x = x := by
    show ({ x with claim := none } : Group) = x
    rw [← hc]
  have hi1 : (s.updGrp b g f).Issues b g (k.updGrp g f) (f x) := issues_updGrp hi f (fun _ => rfl) rfl
  have hb : s.OnlyBlock (s.updGrp b g f) b k.core := .updBlk (F := fun q => q.updGrp g f) fun _ hq => hq
  have hk : k.OnlyGroup (k.updGrp g f) g := ⟨⟨_, _, rfl⟩, fun n hn => Block.grp_updGrp_ne _ _ _ _ (fun _ hy => hy) hn⟩
  rw [e] at hi1
  obtain ⟨k', x', hd, hw, hl, hp⟩ := retire_done hi1
  exact ⟨k', x', hd.of_before hb rfl hk ⟨x.lanes, rfl⟩ (.refl x), hw, hl, hp⟩

/-- A packet whose claimed slot is free is written (R259). -/
theorem AtRest.claimAndPlace_free (h : AtRest s b g k x) {q : CQueue} {pkt : List Byte}
    (hf : (s.qClaim q.off).2.qFree q.off (s.qWidx q.off) = true) :
    PassedFrom ((s.qClaim q.off).2.qWrite q (s.qWidx q.off) pkt) (s.claimAndPlace ⟨k, x, s.cur.act, lowest s.cur.act, false⟩ q pkt) b g k x := by
  obtain ⟨m, e⟩ := qWrite_qClaim_of_plain h.plain q q.off (s.qWidx q.off) pkt
  have hi : ((s.qClaim q.off).2.qWrite q (s.qWidx q.off) pkt).Issues b g k x := by
    rw [e]
    exact h.issues.of_blocks rfl rfl
  unfold State.claimAndPlace State.placeClaim State.setClaim
  simp only [show (s.qClaim q.off).1 = s.qWidx q.off from rfl, hf, h.issues.blk_id, h.issues.grp_num, Bool.false_eq_true, if_true, if_false]
  exact clearClaim_retire hi h.none_

theorem cpost_completes (h : AtRest s b g k x) {a c v : Nat} {q : CQueue}
    (hs : SlotsIn k x [(viewOf v, a), (viewOf v, c)]) (hw : rok (lowWord k x (viewOf v) a (lowest s.cur.act)) = true)
    (hq : s.namedQueue k.trec.part (lowWord k x (viewOf v) a (lowest s.cur.act)).val.toNat = some q) (hg : Good64 k x (viewOf v) c)
    (hf : (s.qClaim q.off).2.qFree q.off (s.qWidx q.off) = true) :
    ∃ t, exec (.cpost a c v) s = .next t ∧ PassedFrom ((s.qClaim q.off).2.qWrite q (s.qWidx q.off)
      (patch (Claims.bytes64 k x (viewOf v) c) 4 (toLe 4 (ownerOf k g false)))) t b g k x := by
  refine ⟨_, ?_, h.claimAndPlace_free hf⟩
  show execCpost a c v s = _
  unfold execCpost
  rw [h.postWord_eq hs hw hq hg]

theorem cpostTry_completes (h : AtRest s b g k x) {d a c v : Nat} {q : CQueue}
    (hs : SlotsIn k x [(viewOf v, a), (viewOf v, c)]) (hw : rok (lowWord k x (viewOf v) a (lowest s.cur.act)) = true)
    (hq : s.namedQueue k.trec.part (lowWord k x (viewOf v) a (lowest s.cur.act)).val.toNat = some q) (hg : Good64 k x (viewOf v) c)
    (hf : s.qFree q.off (s.qWidx q.off) = true) :
    let s1 := (s.qClaim q.off).2.qWrite q (s.qWidx q.off) (patch (Claims.bytes64 k x (viewOf v) c) 4 (toLe 4 (ownerOf k g false)))
    ∃ t k' x', exec (.cpostTry d a c v) s = .next t ∧ s1.WordDone t b g k k' x x' ∧ s1.WrotePred k k' x x' d s.cur.act (fun _ => true) := by
  intro s1
  obtain ⟨m, e⟩ := qWrite_qClaim_of_plain h.plain q q.off (s.qWidx q.off)
    (patch (Claims.bytes64 k x (viewOf v) c) 4 (toLe 4 (ownerOf k g false)))
  have e1 : s1 = { s with mem := m } := e
  have hi : s1.Issues b g k x := by
    rw [e1]
    exact h.issues.of_blocks rfl rfl
  have hc : s1.cur = s.cur := by rw [e1]
  obtain ⟨k', x', hd, hp⟩ := predAll_retire hi d true
  rw [hc] at hd hp
  refine ⟨_, k', x', ?_, hd, hp⟩
  show execCpostTry d a c v s = _
  unfold execCpostTry
  rw [h.postWord_eq hs hw hq hg]
  simp only [hf, if_true, h.issues.blk_id, h.issues.grp_num]
  unfold State.predAll
  rw [qClaim_updBlk h.plain, qWrite_updBlk (plainHomes_qClaim h.plain _)]

theorem cfence_completes (h : AtRest s b g k x) {a c v : Nat} {q : CQueue} {qs : List CQueue}
    (hs : SlotsIn k x [(viewOf v, a), (viewOf v, c)]) (hw : rok (lowWord k x (viewOf v) a (lowest s.cur.act)) = true)
    (hq : s.namedQueue k.trec.part (lowWord k x (viewOf v) a (lowest s.cur.act)).val.toNat = some q)
    (hl : s.fenceList ⟨k, x, s.cur.act, lowest s.cur.act, false⟩ (viewOf v) c (upFrom 0 7) = .inl qs)
    (hf : (s.qClaim q.off).2.qFree q.off (s.qWidx q.off) = true) :
    ∃ t s2, exec (.cfence a c v) s = .next t ∧ PassedFrom s2 t b g k x := by
  let pkt := padTo 64 (toLe 4 (15 * 2 ^ 27 + 255 * 2 ^ 16) ++ toLe 4 (ownerWord k x.num false) ++ (qs.map s.fenceEntry).flatten)
  refine ⟨_, _, ?_, h.claimAndPlace_free (pkt := pkt) hf⟩
  show execCfence a c v s = _
  unfold execCfence
  rw [queueWord_eq h.issues hs hw hq]
  simp only [Cx.claim, Bool.false_eq_true, if_false, h.none_, hl]
  rfl

theorem crec_completes (hi : s.Issues b g k x) {d a c v : Nat} {q : CQueue}
    (hs : SlotsIn k x [(viewOf v, a), (viewOf v, d), (viewOf v, c)]) (hw : rok (lowWord k x (viewOf v) a (lowest s.cur.act)) = true)
    (hq : s.namedQueue k.trec.part (lowWord k x (viewOf v) a (lowest s.cur.act)).val.toNat = some q)
    (hg : goodOf (k.src x (viewOf v) c (lowest s.cur.act)) = true) (hr : regionOf (s.qField q.off 0x18 8) = .sync)
    (hok : s.syncOk k.trec.part (s.qField q.off 0x18 8 - syncBase) = true)
    (hown : s.syncOwn k.trec.part (s.qField q.off 0x18 8 + 64 * (valOf (k.src x (viewOf v) c (lowest s.cur.act)) % s.qSize q.off)) = true) :
    ∃ t k' x', exec (.crec d a c v) s = .next t ∧ s.WordDone t b g k k' x x' := by
  obtain ⟨k1, x1, hd, -⟩ := retire_done hi
  let rec_ := s.homeBytes (s.qField q.off 0x18 8 + 64 * (valOf (k.src x (viewOf v) c (lowest s.cur.act)) % s.qSize q.off)) 64
  let n := 4 * (viewOf v).parts
  obtain ⟨k2, x2, hd2, -⟩ := hd.writeLanes (viewOf v) d (fun l => wordsFor (leAt rec_ (n * l) n) (clean (viewOf v)))
    (hi.actOnce.filter (fun l => decide (l < 64 / n))) fun l hl => ⟨(hi.live l (hi.sub l (List.mem_filter.1 hl).1)).1, by
      rw [wordsFor_length, clean_eq]
      exact List.length_replicate⟩
  refine ⟨_, k2, x2, ?_, hd2⟩
  show execCrec d a c v s = _
  unfold execCrec
  dsimp only
  rw [queueWord_eq hi hs hw hq]
  simp only [hg, hr, hok, hown, hi.blk_id, hi.grp_num, ne_eq, not_true_eq_false, Bool.not_true, Bool.false_eq_true, or_self, if_false]
  rfl

theorem abortIn_one {s : State} {k : Block} {q : CQueue} {r : State × List (List Byte)} (h : s.abandonIn k q = r) :
    s.abortIn k [q] = (r.1, r.2.length) := by
  rw [State.abortIn, h]
  rfl

theorem cabort_completes (hi : s.Issues b g k x) {d a v : Nat} {q : CQueue}
    (hs : SlotsIn k x [(viewOf v, a), (viewOf v, d)]) (hw : rok (lowWord k x (viewOf v) a (lowest s.cur.act)) = true)
    (hq : s.namedQueue k.trec.part (lowWord k x (viewOf v) a (lowest s.cur.act)).val.toNat = some q)
    (hne : (lowWord k x (viewOf v) a (lowest s.cur.act)).val.toNat ≠ 0xFFFFFFFF) : ∃ t, exec (.cabort d a v) s = .next t ∧
      GaveAll (s.abandonIn k q).1 t b g k x s.cur.act (viewOf v) d (s.abandonIn k q).2.length := by
  refine ⟨_, ?_, gaveAll_retire (s := s) (hi.of_blocks (t := (s.abandonIn k q).1) rfl rfl) rfl _ _ _⟩
  show execCabort d a v s = _
  unfold execCabort
  rw [copyWord_eq hi]
  simp only [Cx.low, lowWord_eq_headD, hs.ok, hw, hq, hne, abortIn_one (Eq.refl (s.abandonIn k q)), Bool.not_true, Bool.false_eq_true, if_false]

/-- A word that tests a completion bitmap, all of whose masked bits are set (R262). -/
theorem bitmapWord_set (hi : s.Issues b g k x) {ok : Bool} {a c v : Nat} {f : Cx → Bool → Out}
    (hs : SlotsIn k x [(viewOf v, a), (viewOf v, c)]) (hw : rok (lowWord k x (viewOf v) a (lowest s.cur.act)) = true)
    (hok : s.syncOk k.trec.part (lowWord k x (viewOf v) a (lowest s.cur.act)).val.toNat = true) (hg : Good64 k x (viewOf v) c)
    (hb : ∀ j < 512, bitOf (leAt (Claims.bytes64 k x (viewOf v) c) 0 64) j = true →
      bitOf (s.homeLe (syncBase + (lowWord k x (viewOf v) a (lowest s.cur.act)).val.toNat) 64) j = true) :
    bitmapWord ok a c v f s = f ⟨k, x, s.cur.act, lowest s.cur.act, false⟩ true := by
  have hm : leAt (Claims.bytes64 k x (viewOf v) c) 0 64 < 2 ^ 512 := by
    have h64 := leAt_lt (Claims.bytes64 k x (viewOf v) c) 0 64
    rwa [show (256 : Nat) = 2 ^ 8 from rfl, ← Nat.pow_mul, show 8 * 64 = 512 from rfl] at h64
  have hset : s.bitsSet (lowWord k x (viewOf v) a (lowest s.cur.act)).val.toNat (Claims.bytes64 k x (viewOf v) c) = true := by
    unfold State.bitsSet
    exact decide_eq_true (and_eq_right_of_bits hm hb)
  unfold bitmapWord
  rw [copyWord_eq hi]
  simp only [Cx.low, lowWord_eq_headD, hs.ok, hw, hok, Cx.bad64_of_good hg, Cx.bytes64_eq, hset, Bool.not_true, Bool.false_eq_true, if_false]

theorem ccoll_completes (h : AtRest s b g k x) {a v : Nat} (hs : SlotsIn k x [(viewOf v, a)]) (hg : Good64 k x (viewOf v) a) :
    let p := Claims.bytes64 k x (viewOf v) a
    let n := leAt p 8 1
    n ≤ 63 → (s.chan n).part.toNat = k.trec.part → (s.chan n).posts.length < 16 → ∃ t, exec (.ccoll a v) s = .next t ∧
      PassedFrom (s.setChan n { s.chan n with posts := (s.chan n).posts ++ [Coll.new p] }) t b g k x := by
  intro p n hn hp hl
  have hill : ¬(63 < n ∨ (s.chan n).part.toNat ≠ k.trec.part) := by
    rintro (h1 | h1)
    · omega
    · exact h1 hp
  refine ⟨_, ?_, retire_done (h.issues.of_blocks rfl rfl)⟩
  show execCcoll a v s = _
  unfold execCcoll
  rw [copyWord_eq h.issues]
  simp only [hs.ok, Cx.bad64_of_good hg, Cx.bytes64_eq, Cx.wait, Bool.not_true, Bool.false_eq_true, if_false, h.pubFirst]
  rw [if_neg hill, if_neg (Nat.not_le.2 hl)]

theorem cgen_completes (hi : s.Issues b g k x) {d a v : Nat} (hs : SlotsIn k x [(viewOf v, a), (viewOf v, d)])
    (hw : rok (lowWord k x (viewOf v) a (lowest s.cur.act)) = true) {tbl : List Nat}
    (ht : s.ranksOf k.trec.part ((lowWord k x (viewOf v) a (lowest s.cur.act)).val.toNat % 65536) = some tbl) :
    ∃ t, exec (.cgen d a v) s = .next t ∧ GaveAll s t b g k x s.cur.act (viewOf v) d
      ((liveRanks tbl).length * 2 ^ 32 + rankIn tbl s.pkgId * 2 ^ 16 + (s.part k.trec.part).gen.toNat) := by
  have hgen : s.genWord k.trec.part ((lowWord k x (viewOf v) a (lowest s.cur.act)).val.toNat % 65536)
      = (liveRanks tbl).length * 2 ^ 32 + rankIn tbl s.pkgId * 2 ^ 16 + (s.part k.trec.part).gen.toNat := by
    unfold State.genWord
    simp only [ht]
    omega
  refine ⟨_, ?_, gaveAll_retire hi rfl _ _ _⟩
  show execCgen d a v s = _
  unfold execCgen
  rw [copyWord_eq hi]
  simp only [Cx.low, lowWord_eq_headD, hs.ok, hw, hgen, Bool.not_true, Bool.false_eq_true, if_false]

end

theorem SlotsIn.mono {k : Block} {x : Group} {ss ts : List (View × Nat)} (h : SlotsIn k x ts) (hs : ∀ p ∈ ss, p ∈ ts) : SlotsIn k x ss :=
  fun p hp => h p (hs p hp)

theorem copyWordsComplete : CopyWordsComplete := by
  intro s b g k x d a c v h act l0 w pkt hs hw
  have hac : SlotsIn k x [(viewOf v, a), (viewOf v, c)] := SlotsIn.mono hs (by simp)
  have had : SlotsIn k x [(viewOf v, a), (viewOf v, d)] := SlotsIn.mono hs (by simp)
  have hadc : SlotsIn k x [(viewOf v, a), (viewOf v, d), (viewOf v, c)] := SlotsIn.mono hs (by simp)
  obtain ⟨hrb, hrc⟩ := State.refresh_blocks h.outs
  have hir : (s.refresh k.core).Issues b g k x := h.issues.of_blocks hrb hrc
  refine ⟨fun q hq => ⟨?_, ?_, ?_, ?_, ?_⟩, fun hok hg hb => ⟨fun _ => ?_, fun _ => ?_⟩, ?_, ?_⟩
  · exact fun _ hg hf => cpost_completes h hac hw hq hg hf
  · exact fun _ hg hf => cpostTry_completes h hac hw hq hg hf
  · exact fun qs _ hl hf => cfence_completes h hac hw hq hl hf
  · exact fun _ hg hr hok hown => crec_completes h.issues hadc hw hq hg hr hok hown
  · exact fun _ hne => cabort_completes h.issues had hw hq hne
  · refine ⟨_, ?_, retire_done hir⟩
    show execCwait a c v s = _
    unfold execCwait
    rw [bitmapWord_set h.issues hac hw hok hg hb]
    rfl
  · obtain ⟨k', x', hd, hp⟩ := retire_predAll hir d true
    rw [hrc] at hd hp
    refine ⟨_, k', x', ?_, hd, hp⟩
    show execCtest d a c v s = _
    unfold execCtest
    rw [bitmapWord_set h.issues hac hw hok hg hb]
    simp only [if_true, h.issues.blk_id, h.issues.grp_num]
  · exact fun _ hg => ccoll_completes h (SlotsIn.mono hs (by simp)) hg
  · exact fun _ tbl ht => cgen_completes h.issues had hw ht

end Sys2Proof.Claims

namespace Sys2Proof.Claims

/-- Settles O60: a word that its agent can run is a word of one of the classes' frames, each of which answers a next state, as does every
event; on a settled core a publication has nothing to do, so that the words of classes M, Y and C complete. -/
theorem standingAgentsGoOn : Obligations.StandingAgentsGoOn :=
  ⟨fun _ _ => Machine.exec_goesOn_of_fits, fun _ _ => Machine.exec_goesOn_of_event, taskWordsComplete, objectWordsComplete, copyWordsComplete⟩

end Sys2Proof.Claims

/-! ## Events of cores and dies (O42, O43) -/

namespace Sys2Proof.Machine
open Claims

/-- A block that a save has stopped, with a fault held for it (R200, R215). -/
def savingBlk : Block := { Tests.blk Tests.grp with tframe := 0x02000000, saving := .stopped, pend := [Tests.fault1] }

def savingState : State := Tests.one savingBlk Tests.wideCur

/-- The faults held for the blocks of a next state. -/
def heldAfter (o : Out) : Option (List (List PFault)) :=
  match o with
  | .next t => some (t.blocks.map (fun k => k.pend))
  | _ => none

/-- The model holds the fault on, since the block is being saved (R215). -/
theorem haltBroadcast_holds_while_saving : heldAfter (exec (.haltBroadcast 0) savingState) = some [[Tests.fault1]] := by
  decide +kernel

/-- The fault taken, as R200 has it of a block that is not being saved. -/
theorem held_fault_taken :
    heldAfter (.next ((savingState.updBlk 0 (fun y => { y with pend := [] })).takeFault 0 Tests.fault1 false)) = some [[]] := by
  decide +kernel

/-- Refutes O42 by its clause on `haltBroadcast`: it asks of a block in mode `run` only that no group waits for a called word, and says that the
held fault is taken; where the block is being saved the model holds the fault on until the block runs again. -/
theorem not_coreEventsActOnTheirGroups : ¬ Obligations.CoreEventsActOnTheirGroups := by
  unfold Obligations.CoreEventsActOnTheirGroups
  rintro ⟨-, -, -, hhalt, -⟩
  have claimed := (hhalt savingState 0 savingBlk rfl rfl (by decide)).1 Tests.fault1 [] rfl
  have kept := haltBroadcast_holds_while_saving
  rw [claimed, held_fault_taken] at kept
  exact absurd kept (by decide)

/-- A store to the scratchpad of block 0 that core 0 has issued and not yet performed (R231). -/
def pendingStore : Outst := ⟨0, 0, 0, 0, 0x02000004, 1, none, [], 0, [0], [(0, 0, [1])], true⟩

/-- Block 0 with such a store under way. -/
def storingState : State := Tests.wide0.setCore 0 { Tests.wide0.core 0 with outs := [pendingStore] }

/-- A placement on core 0 refreshes the core, which performs the store: byte 0 of the scratchpad of block 0 changes (R231, R235). -/
theorem placeNew_performs_stores :
    (storingState.placeNew Tests.grid0 0 0).blocks.head?.map (fun y => tget 0 y.scr 0) = some 1 := by
  decide +kernel

theorem storingState_scr : storingState.blocks.head?.map (fun y => tget 0 y.scr 0) = some 0 := by decide

/-- Refutes O43 by its clause on a placed block: it says that the blocks are those of before and the new one; where the core has stores to
other scratchpads under way, its refresh at the placement performs them, and the blocks that they reach change. -/
theorem not_dieEventsPlaceSaveAndAnswer : ¬ Obligations.DieEventsPlaceSaveAndAnswer := by
  unfold Obligations.DieEventsPlaceSaveAndAnswer
  rintro ⟨-, hplace, -⟩
  obtain ⟨k, hblocks, -⟩ := hplace storingState Tests.grid0 0 0
  have changed := placeNew_performs_stores
  have hhead : (storingState.blocks ++ [k]).head? = storingState.blocks.head? := rfl
  rw [hblocks, hhead, storingState_scr] at changed
  exact absurd changed (by decide)

end Sys2Proof.Machine

/-! ## Branches of a management core (O19) -/

namespace Sys2Proof.Machine
open Claims

section
variable {s : State} {m : Nat}

/-- A management core's word retires. -/
theorem retire_mgmt (ha : s.cur.ag = .mgmt m) : s.retire = s.setMc m ((s.mc m).advance s.cur) := by
  simp only [State.retire, ha]

theorem retire_mgmtDone (ha : s.cur.ag = .mgmt m) :
    s.MgmtDone s.retire m ∧ (s.retire.mc m).sregs = (s.mc m).sregs ∧ (s.retire.mc m).sp = (s.mc m).sp := by
  rw [retire_mgmt ha, State.mc_setMc_same]
  refine ⟨⟨⟨_, rfl⟩, fun n hn => ?_, ?_⟩, rfl, rfl⟩
  · rw [State.mc_setMc, if_neg hn]
  · rw [State.mc_setMc_same]
    exact ⟨_, _, _, _, _, rfl⟩

/-- A management core's word that retires and then sends the core to a place in code, with scalar registers and entered heads of its own. -/
theorem retire_setMc_at (ha : s.cur.ag = .mgmt m) (rs : SRegs) (hs : List Nat) (hdr pc : Nat) :
    McAt s (s.retire.setMc m { s.retire.mc m with
      sregs := rs, heads := hs, pc := BitVec.ofNat 48 pc, hdr := hdr, entered := false, guardOff := false }) m hdr pc ∧
    ((s.retire.setMc m { s.retire.mc m with
      sregs := rs, heads := hs, pc := BitVec.ofNat 48 pc, hdr := hdr, entered := false, guardOff := false }).mc m).sregs = rs := by
  rw [retire_mgmt ha]
  refine ⟨⟨⟨_, rfl⟩, fun n hn => ?_, ?_⟩, ?_⟩
  · rw [State.mc_setMc, if_neg hn, State.mc_setMc, if_neg hn]
  · simp only [State.mc_setMc_same]
    exact ⟨_, _, rfl⟩
  · rw [State.mc_setMc_same]

/-- A sound computed target (R58). -/
theorem targetBad_eq_none {t : Nat} (h : t < 2 ^ 48) (h4 : t % 4 = 0) : targetBad t = none := by
  unfold targetBad
  rw [if_neg (Nat.not_le.2 h), if_neg (not_not.2 h4)]

/-- A lane's target that is sound (R72). -/
theorem laneTarget_eq_none {ws : List RWord} (hg : goodOf ws = true) (h : valOf ws < 2 ^ 48) (h4 : valOf ws % 4 = 0) :
    laneTarget ws = none := by
  simp only [laneTarget, hg, Bool.not_true, Bool.false_eq_true, if_false, targetBad_eq_none h h4]

theorem goodOf_shalves (r : SRegs) (n : Nat) : goodOf (shalves r n) = sok r n := by
  simp [goodOf, shalves, tgets, sok]

theorem valOf_shalves (r : SRegs) (n : Nat) : valOf (shalves r n) = sval r n := by
  simp [valOf, shalves, tgets, sval]

variable (ha : s.cur.ag = .mgmt m) (hact : s.cur.act ≠ [])
include ha hact

/-- A `bru` whose predicate says so (R71, R79). -/
theorem execBru_mgmt_taken {n c o : Nat} {p : Land} (hj : s.jStep (sgn 19 o) = .inl p)
    (hc : (spBit (s.mc m).sp c != decide (n = 1)) = true) :
    ∃ t, exec (.bru n c o) s = .next t ∧ McAt s t m p.hdr p.pc ∧ (t.mc m).sregs = (s.mc m).sregs := by
  obtain ⟨hat, hregs⟩ := retire_setMc_at ha (s.retire.mc m).sregs (s.retire.mc m).heads p.hdr p.pc
  refine ⟨_, ?_, hat, hregs.trans (retire_mgmtDone ha).2.1⟩
  show execBru n c o s = _
  rw [Bool.bne_eq_xor] at hc
  simp only [execBru, ha, hact, hc, hj, if_false, if_true]
  rfl

theorem execBru_mgmt_passed {n c o : Nat} (hc : (spBit (s.mc m).sp c != decide (n = 1)) = false) : exec (.bru n c o) s = .next s.retire := by
  show execBru n c o s = _
  rw [Bool.bne_eq_xor] at hc
  simp only [execBru, ha, hact, hc, if_false, Bool.false_eq_true]

/-- `jmpi` to a sound target (R72, R79). -/
theorem execJmpi_mgmt {a : Nat} (h64 : a < 64) (hok : sok (s.mc m).sregs a = true) (hlt : sval (s.mc m).sregs a < 2 ^ 48)
    (h4 : sval (s.mc m).sregs a % 4 = 0) :
    ∃ t, exec (.jmpi a 0) s = .next t ∧ McAt s t m (sval (s.mc m).sregs a) (sval (s.mc m).sregs a) ∧ (t.mc m).sregs = (s.mc m).sregs := by
  obtain ⟨hat, hregs⟩ := retire_setMc_at ha (s.retire.mc m).sregs (insNat (sval (s.mc m).sregs a) (s.retire.mc m).heads)
    (sval (s.mc m).sregs a) (sval (s.mc m).sregs a)
  have ht : laneTarget (shalves (s.mc m).sregs a) = none :=
    laneTarget_eq_none ((goodOf_shalves _ a).trans hok) (by rwa [valOf_shalves]) (by rwa [valOf_shalves])
  have hv : ¬(64 ≤ a ∨ 0 ≠ 0) := by omega
  refine ⟨_, ?_, hat, hregs.trans (retire_mgmtDone ha).2.1⟩
  show execJmpi a 0 s = _
  simp only [execJmpi, ha, hact, hv, ht, if_false]

/-- `call` leaves the return place in `s63` (R73, R79). -/
theorem execCall_mgmt {i : Nat} {p : Land} (hj : s.jStep (sgn 24 i) = .inl p) :
    ∃ t, exec (.call i) s = .next t ∧ McAt s t m p.hdr p.pc ∧ WroteScalar (s.mc m).sregs (t.mc m).sregs 63
      (freshWords 2 (s.cur.pc + 4 + 2 ^ 48 * (if s.cur.idx = s.cur.n then 0 else s.cur.idx + 1))) := by
  obtain ⟨hat, hregs⟩ := retire_setMc_at ha (sfresh (s.retire.mc m).sregs 63 (s.cur.back.1 + 2 ^ 48 * s.cur.back.2)) (s.retire.mc m).heads p.hdr p.pc
  refine ⟨_, ?_, hat, ?_⟩
  · show execCall i s = _
    simp only [execCall, ha, hact, hj, if_false]
    rfl
  · rw [hregs, (retire_mgmtDone ha).2.1]
    exact sfresh_wrote _ _ _

/-- `ret` to the place in `s63` (R73, R79). -/
theorem execRet_mgmt (hok : sok (s.mc m).sregs 63 = true) (h4 : sval (s.mc m).sregs 63 % 2 ^ 48 % 4 = 0) :
    let r := sval (s.mc m).sregs 63
    let dest := r % 2 ^ 48
    let idx := r / 2 ^ 48 % 16
    ∃ t, exec .ret s = .next t ∧ (t.mc m).sregs = (s.mc m).sregs ∧
      McAt s t m (if idx = 0 then dest else (dest + 2 ^ 48 - 4 * idx) % 2 ^ 48) dest := by
  intro r dest idx
  obtain ⟨hat, hregs⟩ := retire_setMc_at ha (s.retire.mc m).sregs
    (if idx = 0 then insNat dest (s.retire.mc m).heads else (s.retire.mc m).heads)
    (if idx = 0 then dest else (dest + 2 ^ 48 - 4 * idx) % 2 ^ 48) dest
  have ht : targetBad (sval (s.mc m).sregs 63 % 2 ^ 48) = none := targetBad_eq_none (Nat.mod_lt _ (by decide)) h4
  refine ⟨_, ?_, hregs.trans (retire_mgmtDone ha).2.1, hat⟩
  show execRet s = _
  simp only [execRet, ha, hact, hok, ht, if_false, Bool.not_true, Bool.false_eq_true]
  rfl

end

/-- Settles O19: each word retires and then sends the core to its place (`retire_setMc_at`), or only retires. -/
theorem managementCoresBranch : Obligations.ManagementCoresBranch := by
  unfold Obligations.ManagementCoresBranch
  intro s m ha hact
  have hpass : ∀ i, exec i s = .next s.retire →
      ∃ t, exec i s = .next t ∧ s.MgmtDone t m ∧ (t.mc m).sregs = (s.mc m).sregs ∧ (t.mc m).sp = (s.mc m).sp :=
    fun _ h => ⟨_, h, retire_mgmtDone ha⟩
  refine ⟨hpass .nop ?_, fun n c o p _ hj hc => execBru_mgmt_taken ha hact hj hc, fun n c o _ hc => hpass _ (execBru_mgmt_passed ha hact hc),
    fun a h64 hok hlt h4 => execJmpi_mgmt ha hact h64 hok hlt h4, fun i p hj => execCall_mgmt ha hact hj,
    fun hok h4 => execRet_mgmt ha hact hok h4⟩
  show execNop s = _
  simp only [execNop, ha]

end Sys2Proof.Machine

/-! ## Words that retire and then act on their group

The words of the rejoin masks, of `msync`, of `spawn` and `yield` act on the group once it has retired (R66, R74 to R78). `State.Follows` says that
a group is another one that has passed the current word; each action on the group keeps it. -/

namespace Sys2Proof.Machine
open Claims

/-- Lane `l` of a group before and after the current word has retired: what else it holds is as it was (R61, R62). -/
def Lane.Follows (c : Cur) (l : Nat) (y y' : Lane) : Prop :=
  (∃ pc hdr entered off starve, y' = { y with pc := pc, hdr := hdr, entered := entered, guardOff := off, starve := starve }) ∧
    y'.pc = if l ∈ c.set then y.pc + 4 else y.pc

/-- Group `x'` is `x` past the current word. -/
structure State.Follows (s : State) (x x' : Group) : Prop where
  rest : ∃ ls b1 b2 b3 f, x' = { x with lanes := ls, by1 := b1, by2 := b2, by3 := b3, wait := none, bkSkip := false, forced := f }
  lanes : ∀ l, (x.lane l).Follows s.cur l (x'.lane l)
  latches : s.KeptLatches x x'

theorem Lane.Follows.st {c : Cur} {l : Nat} {y y' : Lane} (h : y.Follows c l y') : y'.st = y.st := by
  obtain ⟨⟨_, _, _, _, _, e⟩, -⟩ := h
  rw [e]

theorem Lane.Follows.pred {c : Cur} {l : Nat} {y y' : Lane} (h : y.Follows c l y') : y'.pred = y.pred := by
  obtain ⟨⟨_, _, _, _, _, e⟩, -⟩ := h
  rw [e]

theorem Lane.Follows.setSt {c : Cur} {l : Nat} {y y' : Lane} (h : y.Follows c l y') (v : LaneSt) :
    ({ y with st := v } : Lane).Follows c l { y' with st := v } := by
  obtain ⟨⟨_, _, _, _, _, e⟩, hp⟩ := h
  exact ⟨⟨_, _, _, _, _, by rw [e]⟩, hp⟩

theorem Lane.Follows.setDeferred {c : Cur} {l : Nat} {y y' : Lane} (h : y.Follows c l y') (v : Bool) :
    ({ y with deferred := v } : Lane).Follows c l { y' with deferred := v } := by
  obtain ⟨⟨_, _, _, _, _, e⟩, hp⟩ := h
  exact ⟨⟨_, _, _, _, _, by rw [e]⟩, hp⟩

/-- A lane outside the set that is replaced. -/
theorem Lane.Follows.of_not_mem {c : Cur} {l : Nat} (y : Lane) (h : l ∉ c.set) : y.Follows c l y :=
  ⟨⟨_, _, _, _, _, rfl⟩, by rw [if_neg h]⟩

section
variable {s : State} {x x' : Group}

theorem State.Follows.retire (hd : s.cur.set.Nodup) : s.Follows x (x.retire s.cur) := by
  refine ⟨x.retire_rest s.cur, fun l => ?_, x.retire_latches s.cur⟩
  rw [Group.lane_retire _ _ hd]
  by_cases h : l ∈ s.cur.set
  · obtain ⟨_, _, _, _, e⟩ := (x.lane l).advance_rest (decide (s.cur.pc = s.cur.hdr + 4 * s.cur.n))
    rw [if_pos h]
    exact ⟨⟨_, _, _, _, _, by rw [e]⟩, by rw [if_pos h, Lane.advance_pc]⟩
  · rw [if_neg h]
    refine ⟨?_, ?_⟩
    · split <;> exact ⟨_, _, _, _, _, rfl⟩
    · rw [if_neg h]
      split <;> rfl

theorem State.Follows.mapLanes (h : s.Follows x x') {ls : List Nat} (hd : ls.Nodup) {f : Nat → Lane → Lane}
    (hf : ∀ l ∈ ls, (f l (x.lane l)).Follows s.cur l (f l (x'.lane l))) : s.Follows (x.mapLanes ls f) (x'.mapLanes ls f) := by
  refine ⟨?_, fun l => ?_, ?_⟩
  · obtain ⟨_, _, _, _, _, e⟩ := h.rest
    rw [Group.mapLanes_rest x', Group.mapLanes_rest x, e]
    exact ⟨_, _, _, _, _, rfl⟩
  · rw [Group.lane_mapLanes _ _ _ _ hd, Group.lane_mapLanes _ _ _ _ hd]
    split
    · exact hf l ‹_›
    · exact h.lanes l
  · rw [Group.mapLanes_rest x', Group.mapLanes_rest x]
    exact h.latches

/-- The rejoin masks of both groups replaced alike. -/
theorem State.Follows.setRejoin (h : s.Follows x x') (es as_ : Sparse (BitVec 32)) :
    s.Follows { x with kEnr := es, kArr := as_ } { x' with kEnr := es, kArr := as_ } := by
  obtain ⟨⟨_, _, _, _, _, e⟩, hl, hk⟩ := h
  exact ⟨⟨_, _, _, _, _, by rw [e]⟩, hl, hk⟩

/-- The arrived lanes of the rejoin masks of both groups replaced alike. -/
theorem State.Follows.setArrived (h : s.Follows x x') (as_ : Sparse (BitVec 32)) : s.Follows { x with kArr := as_ } { x' with kArr := as_ } := by
  obtain ⟨⟨_, _, _, _, _, e⟩, hl, hk⟩ := h
  exact ⟨⟨_, _, _, _, _, by rw [e]⟩, hl, hk⟩

/-- The `msync` state of both groups replaced alike. -/
theorem State.Follows.setMsync (h : s.Follows x x') (m a : BitVec 32) : s.Follows { x with msM := m, msA := a } { x' with msM := m, msA := a } := by
  obtain ⟨⟨_, _, _, _, _, e⟩, hl, hk⟩ := h
  exact ⟨⟨_, _, _, _, _, by rw [e]⟩, hl, hk⟩

/-- The clauses that end early, replaced alike in both groups. -/
theorem State.Follows.setYends (h : s.Follows x x') (ye : Sparse Nat) : s.Follows { x with yends := ye } { x' with yends := ye } := by
  obtain ⟨⟨_, _, _, _, _, e⟩, hl, hk⟩ := h
  exact ⟨⟨_, _, _, _, _, by rw [e]⟩, hl, hk⟩

/-- The masks are those of before the word. -/
theorem State.Follows.masks (h : s.Follows x x') :
    x'.kEnr = x.kEnr ∧ x'.kArr = x.kArr ∧ x'.msM = x.msM ∧ x'.msA = x.msA ∧ x'.yends = x.yends := by
  obtain ⟨_, _, _, _, _, e⟩ := h.rest
  rw [e]
  exact ⟨rfl, rfl, rfl, rfl, rfl⟩

/-- The lanes in a state of R59 are those of before the word. -/
theorem State.Follows.lanesIn (h : s.Follows x x') (v : LaneSt) :
    lanes32.filter (fun l => decide ((x'.lane l).st = v)) = lanes32.filter (fun l => decide ((x.lane l).st = v)) :=
  List.filter_congr fun l _ => by rw [(h.lanes l).st]

end

theorem lanes32_nodup : lanes32.Nodup := upFrom_nodup 0 32

theorem mem_lanes32 {l : Nat} : l ∈ lanes32 ↔ l < 32 := by
  rw [lanes32, upFrom_mem]
  omega

section
variable {s : State} {x x' : Group}

theorem State.Follows.release (h : s.Follows x x') (n : Nat) : s.Follows (x.release n) (x'.release n) := by
  obtain ⟨he, ha, hm, hs, hy⟩ := h.masks
  unfold Group.release
  dsimp only
  rw [he, ha, h.lanesIn]
  split
  · have hl := h.mapLanes (ls := lanes32.filter (fun l => decide ((x.lane l).st = .parked n))) (lanes32_nodup.filter _)
      (f := fun _ z => { z with st := .live }) fun l _ => (h.lanes l).setSt .live
    exact hl.setRejoin _ _
  · exact h

theorem State.Follows.msyncRelease (h : s.Follows x x') : s.Follows x.msyncRelease x'.msyncRelease := by
  obtain ⟨-, -, hm, hs, -⟩ := h.masks
  unfold Group.msyncRelease
  dsimp only
  rw [hm, hs, h.lanesIn]
  split
  · exact (h.mapLanes (lanes32_nodup.filter _) fun l _ => (h.lanes l).setSt .live).setMsync _ _
  · exact h

theorem State.Follows.enrol (h : s.Follows x x') (n : Nat) (m : BitVec 32) : s.Follows (x.enrol n m) (x'.enrol n m) := by
  obtain ⟨he, ha, -⟩ := h.masks
  unfold Group.enrol
  rw [he, ha]
  exact h.setRejoin _ _

theorem State.Follows.strike (h : s.Follows x x') (n : Nat) (m : BitVec 32) : s.Follows (x.strike n m) (x'.strike n m) := by
  obtain ⟨he, ha, -⟩ := h.masks
  unfold Group.strike
  rw [he, ha]
  exact (h.setRejoin _ _).release n

theorem Group.mapLanes_masks (x : Group) (ls : List Nat) (f : Nat → Lane → Lane) :
    (x.mapLanes ls f).kEnr = x.kEnr ∧ (x.mapLanes ls f).kArr = x.kArr ∧ (x.mapLanes ls f).yends = x.yends := by
  rw [Group.mapLanes_rest]
  exact ⟨rfl, rfl, rfl⟩

theorem State.Follows.rejoin (h : s.Follows x x') (n : Nat) {act : List Nat} (hd : act.Nodup) : s.Follows (x.rejoin n act) (x'.rejoin n act) := by
  obtain ⟨he, ha, -⟩ := h.masks
  unfold Group.rejoin
  dsimp only
  rw [he, ha]
  have hp := h.mapLanes (hd.filter fun l => (tget 0 x.kEnr n).getLsbD l) (f := fun _ z => { z with st := .parked n })
    fun l _ => (h.lanes l).setSt (.parked n)
  exact (hp.setArrived _).release n

end

/-! ### From the group to the state -/

section
variable {s : State} {b g : Nat} {k k0 : Block} {x x0 x' : Group} (hi : s.Issues b g k x)
include hi

/-- The block and the group where the word has retired. -/
theorem bg_retire_issues : s.retire.bg b g = some (k.updGrp g (fun y => y.retire s.cur), x.retire s.cur) := by
  have h := State.bg_updGrp (fun y => y.retire s.cur) hi.found fun y hy => (y.retire_num s.cur).trans hy
  rw [retire_eq hi]
  split
  · exact h
  · exact h

/-- A word that retires and then acts on its block, by the group that it leaves. -/
theorem State.Follows.wordDone {F : Block → Block} (hF : ∀ q, q.id = b → (F q).id = b) (hc : k0.core = k.core)
    (hk : k0.OnlyGroup (F (k.updGrp g (fun y => y.retire s.cur))) g) (hg : (F (k.updGrp g (fun y => y.retire s.cur))).grp g = some x')
    (h : s.Follows x0 x') : s.WordDone (s.retire.updBlk b F) b g k0 (F (k.updGrp g (fun y => y.retire s.cur))) x0 x' := by
  obtain ⟨_, _, hd, -⟩ := retire_done hi
  obtain ⟨_, _, _, _, _, e⟩ := h.rest
  refine ⟨hc ▸ hd.outside.trans (.updBlk hF), State.bg_updBlk hF (bg_retire_issues hi) hg, hk, ⟨_, _, _, _, _, _, e⟩, fun l => ?_, fun l => (h.lanes l).2⟩
  obtain ⟨⟨_, _, _, _, _, e'⟩, -⟩ := h.lanes l
  exact ⟨_, _, _, _, _, _, e'⟩

/-- A word that retires and then acts on its group alone, by the group that it leaves. -/
theorem State.Follows.passedWith {F : Group → Group} (hF : ∀ y, y.num = g → (F y).num = g) (h : s.Follows x0 (F (x.retire s.cur))) :
    PassedWith s (s.retire.updGrp b g F) b g k x0 := by
  have hr : ∀ y : Group, y.num = g → (y.retire s.cur).num = g := fun y hy => (y.retire_num s.cur).trans hy
  have hg : ((k.updGrp g (fun y => y.retire s.cur)).updGrp g F).grp g = some (F (x.retire s.cur)) := by
    rw [Block.grp_updGrp _ _ _ hF, Block.grp_updGrp _ _ _ hr, (State.bg_iff.1 hi.found).2]
    rfl
  have hk : k.OnlyGroup ((k.updGrp g (fun y => y.retire s.cur)).updGrp g F) g :=
    ⟨⟨_, _, rfl⟩, fun n hn => (Block.grp_updGrp_ne _ _ _ _ hF hn).trans (Block.grp_updGrp_ne _ _ _ _ hr hn)⟩
  obtain ⟨_, _, _, _, _, e⟩ := h.rest
  exact ⟨_, _, h.wordDone hi (F := fun q => q.updGrp g F) (fun _ hq => hq) rfl hk hg, ⟨by rw [e], rfl⟩, h.latches, fun l => (h.lanes l).pred⟩

end

/-! ### The words of the rejoin masks (R66, R74) -/

theorem Group.release_num (x : Group) (n : Nat) : (x.release n).num = x.num := by
  unfold Group.release
  dsimp only
  split
  · exact Group.mapLanes_num _ _ _
  · rfl

/-- A mask whose enrolled lanes have not all arrived stays (R66). -/
theorem Group.release_of_not {y : Group} {n : Nat} (h : releases (tget 0 y.kEnr n) (tget 0 y.kArr n) = false) : y.release n = y :=
  if_neg (of_decide_eq_false h)

/-- A mask whose enrolled lanes have all arrived empties, and its parked lanes become live (R66). -/
theorem Group.release_of_releases {y : Group} {n : Nat} (h : releases (tget 0 y.kEnr n) (tget 0 y.kArr n) = true) :
    y.release n = { y.mapLanes (lanes32.filter (fun l => decide ((y.lane l).st = .parked n))) (fun _ x => { x with st := .live }) with
      kEnr := tset 0 y.kEnr n 0, kArr := tset 0 y.kArr n 0 } :=
  if_pos (of_decide_eq_true h)

/-- A lane of a group whose mask has released. -/
theorem Group.lane_release_of_releases {y : Group} {n l : Nat} (h : releases (tget 0 y.kEnr n) (tget 0 y.kArr n) = true) (hl : l < 32) :
    (y.release n).lane l = if (y.lane l).st = .parked n then { y.lane l with st := .live } else y.lane l := by
  rw [Group.release_of_releases h]
  refine (Group.lane_mapLanes y _ _ l (lanes32_nodup.filter _)).trans ?_
  simp only [List.mem_filter, mem_lanes32, hl, true_and, decide_eq_true_eq]

/-- What a release does to a group whose mask `n` has become `e` and `a` and whose lanes `parks` have parked (R66). -/
theorem maskDone_release {x y : Group} {n : Nat} {e a : BitVec 32} {parks : List Nat}
    (hy : ∃ ls es as_, y = { x with lanes := ls, kEnr := es, kArr := as_ }) (he : ∀ j, tget 0 y.kEnr j = if j = n then e else tget 0 x.kEnr j)
    (ha : ∀ j, tget 0 y.kArr j = if j = n then a else tget 0 x.kArr j)
    (hl : ∀ l, y.lane l = if l ∈ parks then { x.lane l with st := .parked n } else x.lane l) : MaskDone x (y.release n) n e a parks := by
  have hen : tget 0 y.kEnr n = e := (he n).trans (if_pos rfl)
  have han : tget 0 y.kArr n = a := (ha n).trans (if_pos rfl)
  cases hr : releases e a with
  | false =>
    have hk : y.release n = y := Group.release_of_not (by rw [hen, han, hr])
    rw [hk]
    refine ⟨hy, fun j => ?_, fun j => ?_, fun l _ => ?_, fun h => ?_, fun _ l _ => ?_⟩
    · rw [he, hr]
      rfl
    · rw [ha, hr]
      rfl
    · rw [hl]
      split <;> rfl
    · exact absurd (hr.symm.trans h) (by decide)
    · rw [hl]
      split <;> rfl
  | true =>
    have hr' : releases (tget 0 y.kEnr n) (tget 0 y.kArr n) = true := by rw [hen, han, hr]
    have hlane := fun l (h32 : l < 32) => Group.lane_release_of_releases hr' h32
    refine ⟨?_, fun j => ?_, fun j => ?_, fun l h32 => ?_, fun _ l h32 => ?_, fun h => ?_⟩
    · obtain ⟨_, _, _, e'⟩ := hy
      rw [Group.release_of_releases hr', Group.mapLanes_rest, e']
      exact ⟨_, _, _, rfl⟩
    · rw [Group.release_of_releases hr', hr]
      refine (tget_tset _ _ _ _ _).trans ?_
      rw [he]
      split <;> rfl
    · rw [Group.release_of_releases hr', hr]
      refine (tget_tset _ _ _ _ _).trans ?_
      rw [ha]
      split <;> rfl
    · rw [hlane l h32, hl]
      split <;> split <;> rfl
    · rw [hlane l h32, hl]
      by_cases hp : l ∈ parks
      · simp only [hp, if_true, true_or]
      · simp only [hp, if_false, false_or]
        split <;> rfl
    · exact absurd (hr.symm.trans h) (by decide)

theorem Group.strike_num (x : Group) (n : Nat) (m : BitVec 32) : (x.strike n m).num = x.num := Group.release_num _ n

theorem Group.rejoin_num (x : Group) (n : Nat) (act : List Nat) : (x.rejoin n act).num = x.num :=
  (Group.release_num _ n).trans (Group.mapLanes_num _ _ _)

/-- `strike` of a mask (R74). -/
theorem Group.strike_maskDone (x : Group) (n : Nat) (m : BitVec 32) :
    MaskDone x (x.strike n m) n (tget 0 x.kEnr n &&& ~~~m) (tget 0 x.kArr n &&& ~~~m) [] :=
  maskDone_release ⟨_, _, _, rfl⟩ (fun j => tget_tset 0 x.kEnr n _ j) (fun j => tget_tset 0 x.kArr n _ j) fun _ => rfl

/-- `rejoin` of the lanes that have come (R74). -/
theorem Group.rejoin_maskDone (x : Group) (n : Nat) {act : List Nat} (hd : act.Nodup) :
    let comes := act.filter (fun l => (tget 0 x.kEnr n).getLsbD l)
    MaskDone x (x.rejoin n act) n (tget 0 x.kEnr n) (tget 0 x.kArr n ||| laneMask comes) comes := by
  intro comes
  have hm := fun f => x.mapLanes_rest comes f
  refine maskDone_release ?_ (fun j => ?_) (fun j => tget_tset 0 x.kArr n _ j) fun l => ?_
  · rw [hm]
    exact ⟨_, _, _, rfl⟩
  · rw [hm]
    split
    · rw [‹j = n›]
    · rfl
  · exact Group.lane_mapLanes x comes _ l (hd.filter _)

/-- The words of the rejoin masks (R66, R74). -/
theorem rejoinMasksMeetAndRelease : RejoinMasksMeetAndRelease := by
  intro n s b g k x _ hi enr arr act comes
  have hf : s.Follows x (x.retire s.cur) := .retire hi.once
  refine ⟨⟨_, x.enrol n act, ?_, (hf.enrol n act).passedWith hi (F := fun y => y.enrol n act) fun y hy => hy, ⟨_, _, rfl⟩, fun j => tget_tset 0 x.kEnr n _ j,
      fun j => tget_tset 0 x.kArr n _ j⟩,
    ⟨_, x.rejoin n s.cur.act, ?_, (hf.rejoin n hi.actOnce).passedWith hi (F := fun y => y.rejoin n s.cur.act) fun y hy => (y.rejoin_num n _).trans hy, x.rejoin_maskDone n hi.actOnce⟩,
    ⟨_, x.strike n act, ?_, (hf.strike n act).passedWith hi (F := fun y => y.strike n act) fun y hy => (y.strike_num n _).trans hy, x.strike_maskDone n act⟩⟩
  · show execEnrol n s = _
    rw [execEnrol, joinWord_eq hi, hi.blk_id, hi.grp_num]
    rfl
  · show execRejoin n s = _
    rw [execRejoin, joinWord_eq hi, hi.blk_id, hi.grp_num]
  · show execStrike n s = _
    rw [execStrike, joinWord_eq hi, hi.blk_id, hi.grp_num]
    rfl

/-! ### Stores that are performed (R124, R154, R231) -/

/-- A step that leaves the current word and, but for its counters, group `g` of block `b` as they were. -/
def State.KeepsGroup (s t : State) (b g : Nat) : Prop :=
  t.cur = s.cur ∧ ∀ k x, s.bg b g = some (k, x) → ∃ k1 n, t.bg b g = some (k1, { x with sb := n }) ∧ k1.core = k.core

section
variable {s t u : State} {b g c : Nat}

theorem State.KeepsGroup.refl (s : State) (b g : Nat) : s.KeepsGroup s b g := ⟨rfl, fun k x h => ⟨k, x.sb, h, rfl⟩⟩

theorem State.KeepsGroup.trans (h : s.KeepsGroup t b g) (h' : t.KeepsGroup u b g) : s.KeepsGroup u b g := by
  refine ⟨h'.1.trans h.1, fun k x hx => ?_⟩
  obtain ⟨k1, n, h1, c1⟩ := h.2 k x hx
  obtain ⟨k2, n2, h2, c2⟩ := h'.2 _ _ h1
  exact ⟨k2, n2, h2, c2.trans c1⟩

theorem State.KeepsGroup.foldl {α : Type} {f : State → α → State} (hf : ∀ (v : State) (a : α), v.KeepsGroup (f v a) b g) (as_ : List α) :
    ∀ s : State, s.KeepsGroup (as_.foldl f s) b g := by
  induction as_ with
  | nil => exact fun s => .refl s b g
  | cons a as_ ih => exact fun s => (hf s a).trans (ih _)

theorem State.KeepsGroup.setCore (s : State) (k : Core) : s.KeepsGroup (s.setCore c k) b g := .refl s b g

/-- A block that keeps its identity, its core and, but for its counters, the group. -/
theorem State.KeepsGroup.updBlk {F : Block → Block} {n : Nat} (hid : ∀ q, (F q).id = q.id) (hc : ∀ q, (F q).core = q.core)
    (hg : ∀ q y, q.grp g = some y → ∃ m, (F q).grp g = some { y with sb := m }) : s.KeepsGroup (s.updBlk n F) b g := by
  refine ⟨rfl, fun k x hx => ?_⟩
  obtain ⟨hk, hx⟩ := State.bg_iff.1 hx
  have hF : ∀ q, q.id = n → (F q).id = n := fun q hq => (hid q).trans hq
  by_cases h : b = n
  · subst h
    obtain ⟨m, hm⟩ := hg k x hx
    exact ⟨F k, m, State.bg_updBlk hF (State.bg_iff.2 ⟨hk, hx⟩) hm, hc k⟩
  · exact ⟨k, x.sb, State.bg_iff.2 ⟨(State.blk_updBlk_ne _ _ _ _ hF h).trans hk, hx⟩, rfl⟩

theorem Group.fall_sb (x : Group) (n : Nat) : ∃ m, x.fall n = { x with sb := m } := by
  unfold Group.fall
  split
  · exact ⟨_, rfl⟩
  · exact ⟨x.sb, rfl⟩

/-- A counter that falls. -/
theorem State.KeepsGroup.fall (s : State) (i j n : Nat) : s.KeepsGroup (s.updGrp i j (fun y => y.fall n)) b g := by
  have hnum : ∀ y : Group, y.num = j → (y.fall n).num = j := fun y hy => by
    obtain ⟨_, e⟩ := y.fall_sb n
    rw [e]
    exact hy
  refine .updBlk (F := fun q => q.updGrp j (fun y => y.fall n)) (fun _ => rfl) (fun _ => rfl) fun q y hy => ?_
  by_cases h : g = j
  · obtain ⟨m, e⟩ := y.fall_sb n
    subst h
    rw [Block.grp_updGrp _ _ _ hnum, hy, Option.map_some, e]
    exact ⟨m, rfl⟩
  · rw [Block.grp_updGrp_ne _ _ _ _ hnum h]
    exact ⟨y.sb, hy⟩

theorem State.KeepsGroup.performPuts (s : State) (ps : List (Nat × Nat × List Byte)) : s.KeepsGroup (s.performPuts ps) b g :=
  .foldl (f := fun t (p : Nat × Nat × List Byte) => t.updBlk p.1 (fun q => q.scrPut p.2.1 p.2.2))
    (fun _ p => .updBlk (F := fun q => q.scrPut p.2.1 p.2.2) (fun _ => rfl) (fun _ => rfl) fun _ y hy => ⟨y.sb, hy⟩) ps s

theorem State.KeepsGroup.land1 (s : State) (o : Outst) : s.KeepsGroup (s.land1 c o) b g :=
  (State.KeepsGroup.performPuts s o.puts).trans ((State.KeepsGroup.setCore _ _).trans (.fall _ _ _ _))

theorem State.KeepsGroup.flush (s : State) (p : Outst → Bool) : s.KeepsGroup (s.flush c p) b g :=
  .foldl (fun t o => State.KeepsGroup.land1 t o) _ s

theorem State.KeepsGroup.dropAhead (s : State) (k : Block) (n : Nat) : s.KeepsGroup (s.dropAhead k n) b g := by
  unfold State.dropAhead State.dropEarly
  dsimp only
  split
  · exact State.KeepsGroup.setCore _ _
  · exact .refl s b g

/-- A word still issues where its group is kept. -/
theorem State.Issues.of_keeps {k : Block} {x : Group} (hi : s.Issues b g k x) (h : s.KeepsGroup t b g) :
    ∃ k1 n, t.Issues b g k1 { x with sb := n } ∧ k1.core = k.core := by
  obtain ⟨hcur, hg⟩ := h
  obtain ⟨k1, n, h1, hc⟩ := hg k x hi.found
  obtain ⟨ha, -, hs, hsub, ho, hao, hl⟩ := hi
  exact ⟨k1, n, ⟨hcur ▸ ha, h1, hcur ▸ hs, hcur ▸ hsub, hcur ▸ ho, hcur ▸ hao, hcur ▸ hl⟩, hc⟩

/-! What stays outstanding on the core. -/

theorem State.performPuts_cores (ps : List (Nat × Nat × List Byte)) : ∀ s : State, (s.performPuts ps).cores = s.cores := by
  induction ps with
  | nil => exact fun _ => rfl
  | cons p ps ih => exact fun s => ih (s.updBlk p.1 (fun q => q.scrPut p.2.1 p.2.2))

theorem State.land1_outs (s : State) (c : Nat) (o : Outst) : ((s.land1 c o).core c).outs = (s.core c).outs.filter (fun y => decide (y.id ≠ o.id)) := by
  have hk : (s.performPuts o.puts).core c = s.core c := by
    unfold State.core
    rw [State.performPuts_cores]
  have h : ((s.land1 c o).core c) = { (s.performPuts o.puts).core c with outs := ((s.performPuts o.puts).core c).outs.filter (fun y => decide (y.id ≠ o.id)) } :=
    State.core_setCore_same (s.performPuts o.puts) c _
  rw [h, hk]

/-- What stays outstanding has not been performed. -/
theorem State.foldl_land1_outs (c : Nat) (os : List Outst) :
    ∀ s : State, ∀ y ∈ ((os.foldl (fun t o => t.land1 c o) s).core c).outs, y ∈ (s.core c).outs ∧ ∀ o ∈ os, y.id ≠ o.id := by
  induction os with
  | nil => exact fun s y hy => ⟨hy, by simp⟩
  | cons o os ih =>
    intro s y hy
    obtain ⟨h1, h2⟩ := ih _ y hy
    rw [State.land1_outs, List.mem_filter, decide_eq_true_eq] at h1
    exact ⟨h1.1, List.forall_mem_cons.2 ⟨h1.2, h2⟩⟩

/-- No store that meets the test has bytes left to write. -/
theorem State.flush_outs (s : State) (c : Nat) (p : Outst → Bool) : ∀ o ∈ ((s.flush c p).core c).outs, p o = true → o.puts = [] := by
  intro o ho hp
  obtain ⟨hin, hne⟩ := State.foldl_land1_outs c _ s o ho
  refine Decidable.byContradiction fun h => hne o (List.mem_filter.2 ⟨hin, ?_⟩) rfl
  rw [hp, Bool.true_and, Bool.not_eq_true', List.isEmpty_eq_false_iff]
  exact h

theorem State.dropAhead_outs (s : State) (k : Block) (g c : Nat) : ((s.dropAhead k g).core c).outs = (s.core c).outs := by
  unfold State.dropAhead State.dropEarly
  dsimp only
  split
  · rw [State.core_setCore]
    split
    · rw [‹c = k.core›]
    · rfl
  · rfl

end

/-! ### `msync` (R78) -/

/-- Lanes that come to an `msync` park, and the set goes on where it is complete: `want` is the mask that they wait under and `all` the lanes
that have come. -/
def Group.meet (x : Group) (act : List Nat) (want all : BitVec 32) : Group :=
  ({ (x.mapLanes act (fun _ y => { y with st := .parked 8 })) with msM := want, msA := all } : Group).msyncRelease

section
variable {x : Group} {act : List Nat} {want all : BitVec 32}

theorem Group.msyncRelease_num (y : Group) : y.msyncRelease.num = y.num := by
  unfold Group.msyncRelease
  split
  · exact Group.mapLanes_num _ _ _
  · rfl

theorem Group.meet_num (x : Group) (act : List Nat) (want all : BitVec 32) : (x.meet act want all).num = x.num :=
  (Group.msyncRelease_num _).trans (Group.mapLanes_num _ _ _)

theorem State.Follows.meet {s : State} {x' : Group} (h : s.Follows x x') (hd : act.Nodup) (want all : BitVec 32) :
    s.Follows (x.meet act want all) (x'.meet act want all) := by
  have hp := h.mapLanes hd (f := fun _ y => { y with st := .parked 8 }) fun l _ => (h.lanes l).setSt (.parked 8)
  exact (hp.setMsync want all).msyncRelease

theorem Group.msyncRelease_rest (y : Group) : ∃ ls mm ma, y.msyncRelease = { y with lanes := ls, msM := mm, msA := ma } := by
  unfold Group.msyncRelease
  split
  · exact ⟨_, 0, 0, congrArg (fun z : Group => { z with msM := 0, msA := 0 }) (y.mapLanes_rest _ _)⟩
  · exact ⟨_, _, _, rfl⟩

/-- An `msync` changes its own state and the lanes alone. -/
theorem Group.meet_rest (x : Group) (act : List Nat) (want all : BitVec 32) :
    ∃ ls mm ma, x.meet act want all = { x with lanes := ls, msM := mm, msA := ma } := by
  obtain ⟨ls, mm, ma, e⟩ := Group.msyncRelease_rest
    { (x.mapLanes act (fun _ y => { y with st := .parked 8 })) with msM := want, msA := all }
  refine ⟨ls, mm, ma, e.trans ?_⟩
  rw [Group.mapLanes_rest]

/-- An incomplete set waits. -/
theorem Group.meet_of_ne (hd : act.Nodup) (h : all ≠ want) :
    (x.meet act want all).msM = want ∧ (x.meet act want all).msA = all ∧
      ∀ l, (x.meet act want all).lane l = { x.lane l with st := if l ∈ act then .parked 8 else (x.lane l).st } := by
  have hm : x.meet act want all = { (x.mapLanes act (fun _ y => { y with st := .parked 8 })) with msM := want, msA := all } :=
    if_neg fun hc => h hc.2
  rw [hm]
  refine ⟨rfl, rfl, fun l => (Group.lane_mapLanes x act _ l hd).trans ?_⟩
  split <;> rfl

/-- A complete set goes on. -/
theorem Group.meet_of_eq (hd : act.Nodup) (h0 : all ≠ 0) (h : all = want) :
    (x.meet act want all).msM = 0 ∧ (x.meet act want all).msA = 0 ∧
      ∀ l < 32, (x.meet act want all).lane l = { x.lane l with
        st := if l ∈ act ∨ (x.lane l).st = .parked 8 then .live else (x.lane l).st } := by
  let y : Group := { (x.mapLanes act (fun _ y => { y with st := .parked 8 })) with msM := want, msA := all }
  have hm : x.meet act want all = { (y.mapLanes (lanes32.filter (fun l => decide ((y.lane l).st = .parked 8))) (fun _ z => { z with st := .live })) with
      msM := 0, msA := 0 } := if_pos ⟨h0, h⟩
  rw [hm]
  refine ⟨rfl, rfl, fun l hl => (Group.lane_mapLanes y _ _ l (lanes32_nodup.filter _)).trans ?_⟩
  have hy : y.lane l = if l ∈ act then { x.lane l with st := .parked 8 } else x.lane l := Group.lane_mapLanes x act _ l hd
  simp only [List.mem_filter, mem_lanes32, hl, true_and, decide_eq_true_eq]
  rw [hy]
  by_cases ha : l ∈ act
  · simp only [ha, if_true, true_or]
  · simp only [ha, if_false, false_or]
    split <;> rfl

end

/-- The mask of lanes of which there is one is not empty. -/
theorem laneMask_ne_zero {ls : List Nat} (h : ls ≠ []) (hl : ∀ l ∈ ls, l < 32) : laneMask ls ≠ 0 := by
  obtain ⟨l, hm⟩ := List.exists_mem_of_ne_nil ls h
  intro hz
  have hb := congrArg (fun w => w.getLsbD l) hz
  rw [laneMask, BitVec.getLsbD_ofNat, maskOf_testBit] at hb
  simp [hl l hm, hm] at hb

theorem or_ne_zero_of_right {v w : BitVec 32} (h : w ≠ 0) : v ||| w ≠ 0 := fun hz => h (BitVec.or_eq_zero_iff.1 hz).2

section
variable {s : State} {b g a : Nat} {k : Block} {x : Group}

/-- The lanes of an `msync` and those that wait give one mask, and each lane's mask holds the lane (R78). -/
def MsyncAgrees (s : State) (k : Block) (x : Group) (a : Nat) : Prop :=
  let m := fun l => valOf (k.src x .v a l) &&& maskOf x.heldLanes
  (∀ l ∈ s.cur.act, bitOf (m l) l = true ∧ m l = m (lowest s.cur.act)) ∧ (x.msA ≠ 0 → m (lowest s.cur.act) = x.msM.toNat)

/-- What an `msync` with sound masks does. -/
theorem execMsync_eq (hi : s.Issues b g k x) (hs : SlotsIn k x [(.v, a)]) (hg : ∀ l ∈ s.cur.act, goodOf (k.src x .v a l) = true) :
    (¬ MsyncAgrees s k x a → exec (.msync a) s = .next (s.raiseFor 0x0D (maskOf s.cur.act ||| x.msA.toNat) 0)) ∧
    (MsyncAgrees s k x a → exec (.msync a) s = .next (((s.flushGroup k.core b g).dropAhead k g).retire.updGrp b g
      (fun y => y.meet s.cur.act
        (if x.msA = 0 then BitVec.ofNat 32 (valOf (k.src x .v a (lowest s.cur.act)) &&& maskOf x.heldLanes) else x.msM)
        (x.msA ||| laneMask s.cur.act)))) := by
  have hok : k.slotsOk x [(.v, a)] = true := hs.ok
  have hgood : s.cur.act.filter (fun l => !goodOf (k.src x .v a l)) = [] := List.filter_eq_nil_iff.2 fun l hl => by simp [hg l hl]
  have hcond : (s.cur.act.any (fun l => !bitOf (valOf (k.src x .v a l) &&& maskOf x.heldLanes) l) ||
      s.cur.act.any (fun l => decide (valOf (k.src x .v a l) &&& maskOf x.heldLanes ≠
        valOf (k.src x .v a (lowest s.cur.act)) &&& maskOf x.heldLanes)) ||
      (decide (x.msA ≠ 0) && decide (valOf (k.src x .v a (lowest s.cur.act)) &&& maskOf x.heldLanes ≠ x.msM.toNat))) = true ↔
      ¬ MsyncAgrees s k x a := by
    simp only [MsyncAgrees, Bool.or_eq_true, Bool.and_eq_true, List.any_eq_true, decide_eq_true_eq, Bool.not_eq_true', not_and_or,
      not_forall, exists_prop, Bool.not_eq_true, exists_or, and_or_left]
  refine ⟨fun h => ?_, fun h => ?_⟩
  · show execMsync a s = _
    rw [execMsync, joinWord_eq hi]
    dsimp only
    rw [hok, hgood]
    rw [Bool.not_true, if_neg Bool.false_ne_true]
    exact if_pos (hcond.2 h)
  · show execMsync a s = _
    rw [execMsync, joinWord_eq hi]
    dsimp only
    rw [hok, hgood, hi.blk_id, hi.grp_num]
    rw [Bool.not_true, if_neg Bool.false_ne_true]
    exact if_neg fun hc => hcond.1 hc h

end

/-- `msync` meets the lanes that wait under its mask (R78). -/
theorem msyncMeetsUnderOneMask : MsyncMeetsUnderOneMask := by
  intro a s b g k x _ hi hs hg held m m0 all want agree s1
  have hheld : held = maskOf x.heldLanes := rfl
  refine ⟨fun h => ?_, fun h => (execMsync_eq hi hs hg).1 h⟩
  have hkeep : s.KeepsGroup s1 b g := (State.KeepsGroup.flush s _).trans (.dropAhead _ _ _)
  obtain ⟨k1, n, hi1, hc⟩ := hi.of_keeps hkeep
  have hcur : s1.cur = s.cur := hkeep.1
  have hpass := ((State.Follows.retire hi1.once).meet (hcur ▸ hi1.actOnce) want all).passedWith hi1 (F := fun y => y.meet s.cur.act want all)
    fun y hy => (y.meet_num _ _ _).trans hy
  refine ⟨_, k1, { x with sb := n }, ({ x with sb := n } : Group).meet s.cur.act want all, (execMsync_eq hi hs hg).2 h, hi1.found, hpass, ?_,
    Group.meet_rest _ _ _ _, fun he => ?_, fun he => Group.meet_of_ne hi.actOnce he |>.imp_right fun h => h.imp_right fun h l _ => h l⟩
  · obtain ⟨_, _, hd, -⟩ := hpass
    obtain ⟨_, hcore⟩ := hd.outside.core
    rw [hc] at hcore
    have houts := (congrArg Core.outs hcore).trans (State.dropAhead_outs (s.flushGroup k.core b g) k g k.core)
    exact fun o ho hb hgo => State.flush_outs s k.core _ o (houts ▸ ho) (by simp [hb, hgo])
  · exact Group.meet_of_eq hi.actOnce (or_ne_zero_of_right (laneMask_ne_zero hi.some_ fun l hl => (hi.live l (hi.sub l hl)).1)) he

/-- Settles O24: the words of the rejoin masks by what a release does to a group, and `msync` by the stores that it performs first and the
set that its lanes meet. -/
theorem masksMeetAndRelease : Obligations.MasksMeetAndRelease := ⟨rejoinMasksMeetAndRelease, msyncMeetsUnderOneMask⟩

end Sys2Proof.Machine

/-! ## Fibres begin, are deferred and end (O25) -/

namespace Sys2Proof.Machine
open Claims

/-! ### `spawn` (R75) -/

theorem Block.writeLanes_append (g : Nat) (vw : View) (n : Nat) (rs rs' : List (Nat × List RWord)) :
    ∀ k : Block, k.writeLanes g vw n (rs ++ rs') = (k.writeLanes g vw n rs).writeLanes g vw n rs' := by
  induction rs with
  | nil => exact fun _ => rfl
  | cons r rs ih => exact fun k => ih _

/-- Elements numbered from `a` up. -/
theorem map_zip_upFrom {α : Type} (h : Nat × Nat → α) (ls : List Nat) (hd : ls.Nodup) :
    ∀ a, (ls.zip (upFrom a ls.length)).map h = ls.map (fun l => h (l, a + ls.idxOf l)) := by
  induction ls with
  | nil => exact fun _ => rfl
  | cons x ls ih =>
    intro a
    obtain ⟨hx, hd⟩ := List.nodup_cons.1 hd
    show h (x, a) :: (ls.zip (upFrom (a + 1) ls.length)).map h = _
    rw [ih hd, List.map_cons, List.idxOf_cons_self]
    refine congrArg _ (List.map_congr_left fun l hl => ?_)
    have hne : x ≠ l := fun e => hx (e ▸ hl)
    rw [List.idxOf_cons_ne _ hne, Nat.add_assoc, Nat.add_comm 1]

theorem idxOf_nth (d : Nat) (ls : List Nat) (hd : ls.Nodup) : ∀ j < ls.length, ls.idxOf (nth d ls j) = j ∧ nth d ls j ∈ ls := by
  induction ls with
  | nil => exact fun j hj => absurd hj (Nat.not_lt_zero j)
  | cons x ls ih =>
    obtain ⟨hx, hd⟩ := List.nodup_cons.1 hd
    intro j hj
    cases j with
    | zero => exact ⟨List.idxOf_cons_self, List.mem_cons_self⟩
    | succ j =>
      obtain ⟨hi, hm⟩ := ih hd j (Nat.lt_of_succ_lt_succ hj)
      have hne : x ≠ nth d ls j := fun e => hx (e ▸ hm)
      exact ⟨(List.idxOf_cons_ne _ hne).trans (congrArg _ hi), List.mem_cons_of_mem _ hm⟩

/-- What a write changes, where the word before it has left both windows as they were. -/
theorem WroteSlot.of_passed {s t : State} {b g d : Nat} {k k1 k2 : Block} {x x1 x2 : Group} {vw : View} {ls : List Nat} {f : Nat → List RWord}
    (h : WroteSlot k1 k2 x1 x2 vw d ls f) (hd : s.WordDone t b g k k1 x x1) (hw : SameWindows k k1 x x1) : WroteSlot k k2 x x2 vw d ls f := by
  have hs : ∀ l, k1.slotWord x1 vw d l = k.slotWord x vw d l := fun l => (PassedWord.places hd).slotWord vw d l
  have hwin : winOf vw k1 x1 = winOf vw k x := by cases vw <;> simp only [winOf, hw.1, hw.2]
  refine ⟨fun l hl => hs l ▸ h.new l hl, fun a ha => ?_, ?_⟩
  · rw [h.old a fun l hl => (hs l).symm ▸ ha l hl, hwin]
  · have ho := h.other
    by_cases hv : vw = .a
    · rw [if_pos hv] at ho ⊢
      exact ho.trans hw.1
    · rw [if_neg hv] at ho ⊢
      exact ho.trans hw.2

/-- The lane of a fibre that begins at an address (R75). -/
def Lane.spawned (t : Nat) : Lane := { (Lane.none.enter t) with st := .live }

/-- The block where the fibres of `new` have begun at `t`, before the group's registers are written (R75). -/
def Block.begins (q : Block) (g t : Nat) (new : List Nat) : Block :=
  { (q.updGrp g (fun x => x.mapLanes new (fun _ _ => .spawned t))) with heads := if new = [] then q.heads else insNat t q.heads }

/-- What `spawn` gives the lanes of its destination: a new lane its ordinal, an active lane the mask of the new lanes (R75). -/
def spawnGives (vw : View) (new act : List Nat) (l : Nat) : List RWord :=
  if l ∈ act then freshWords vw.parts (maskOf new) else freshWords vw.parts (new.idxOf l)

section
variable {s : State} {b g d a c v : Nat} {k : Block} {x : Group}

/-- The free lanes that a `spawn` takes. -/
def Group.newLanes (x : Group) (n : Nat) : List Nat := (lanes32.filter (fun l => decide ((x.lane l).st = .free))).take n

theorem Group.newLanes_nodup (x : Group) (n : Nat) : (x.newLanes n).Nodup := (lanes32_nodup.filter _).sublist (List.take_sublist _ _)

theorem Group.mem_newLanes {x : Group} {n l : Nat} (h : l ∈ x.newLanes n) : l < 32 ∧ (x.lane l).st = .free := by
  have hl := List.mem_filter.1 (List.mem_of_mem_take h)
  exact ⟨mem_lanes32.1 hl.1, of_decide_eq_true hl.2⟩

/-- A group has 32 lanes at most to give. -/
theorem Group.newLanes_min (x : Group) (n : Nat) : x.newLanes (min n 32) = x.newLanes n := by
  unfold Group.newLanes
  rw [List.take_eq_take_iff]
  have : (lanes32.filter (fun l => decide ((x.lane l).st = .free))).length ≤ 32 := List.length_filter_le _ lanes32
  omega

/-- The writes of `spawn` are one write of its destination. -/
theorem spawn_writes (q : Block) (g : Nat) (vw : View) (d : Nat) {new act : List Nat} (hn : new.Nodup) (hna : ∀ l ∈ new, l ∉ act) :
    (q.writeLanes g vw d ((new.zip (upFrom 0 new.length)).map (fun p => (p.1, wordsFor p.2 (clean vw))))).writeLanes g vw d
      (act.map (fun l => (l, wordsFor (maskOf new) (clean vw)))) =
    q.writeLanes g vw d ((new ++ act).map (fun l => (l, spawnGives vw new act l))) := by
  rw [map_zip_upFrom _ new hn, ← Block.writeLanes_append, List.map_append, clean_eq]
  congr 2
  · refine List.map_congr_left fun l hl => ?_
    rw [spawnGives, if_neg (hna l hl), wordsFor_clean, Nat.zero_add]
  · refine List.map_congr_left fun l hl => ?_
    rw [spawnGives, if_pos hl, wordsFor_clean]

/-- A `spawn` with sound operands. -/
theorem execSpawn_eq (hi : s.Issues b g k x) (hs : SlotsIn k x [(viewOf v, d), (viewOf v, a), (viewOf v, c)])
    (hga : goodOf (k.src x (viewOf v) a (lowest s.cur.act)) = true) (hgc : rok (lowWord k x (viewOf v) c (lowest s.cur.act)) = true)
    (hlt : valOf (k.src x (viewOf v) a (lowest s.cur.act)) < 2 ^ 48) (h4 : valOf (k.src x (viewOf v) a (lowest s.cur.act)) % 4 = 0) :
    let new := x.newLanes (lowWord k x (viewOf v) c (lowest s.cur.act)).val.toNat
    exec (.spawn d a c v) s = .next ((s.retire.updBlk b (fun q => q.begins g (valOf (k.src x (viewOf v) a (lowest s.cur.act))) new)).updBlk b
      (fun q => q.writeLanes g (viewOf v) d ((new ++ s.cur.act).map (fun l => (l, spawnGives (viewOf v) new s.cur.act l))))) := by
  intro new
  have hna : ∀ l ∈ new, l ∉ s.cur.act := fun l hl ha => by
    have hf := (Group.mem_newLanes hl).2
    rw [(hi.live l (hi.sub l ha)).2] at hf
    exact absurd hf (by decide)
  rw [State.updBlk_updBlk _ b (fun q => q.begins g _ new) _ fun _ hq => hq]
  refine Eq.trans ?_ (congrArg (fun F => Host.Outcome.next (s.retire.updBlk b F))
    (funext fun q : Block => spawn_writes (q.begins g (valOf (k.src x (viewOf v) a (lowest s.cur.act))) new) g (viewOf v) d (x.newLanes_nodup _) hna))
  show execSpawn d a c v s = _
  rw [execSpawn, joinWord_eq hi]
  dsimp only
  rw [hs.ok, laneTarget_eq_none hga hlt h4, lowWord_eq_headD, hgc, hi.blk_id, hi.grp_num]
  have hmin := x.newLanes_min (lowWord k x (viewOf v) c (lowest s.cur.act)).val.toNat
  unfold Group.newLanes at hmin
  rw [hmin]
  rfl

end

/-- `spawn` makes fibres of free lanes (R75). -/
theorem spawnMakesFibres : SpawnMakesFibres := by
  intro d a c v s b g k x _ hi hs vw l0 dest hga hgc hlt h4 free new
  have hn : new.Nodup := x.newLanes_nodup _
  have hfree : ∀ l ∈ new, l < 32 ∧ (x.lane l).st = .free := fun l hl => Group.mem_newLanes hl
  have hns : ∀ l ∈ new, l ∉ s.cur.set := fun l hl hc => by
    have hf := (hfree l hl).2
    rw [(hi.live l hc).2] at hf
    exact absurd hf (by decide)
  have hna : ∀ l ∈ new, l ∉ s.cur.act := fun l hl hc => hns l hl (hi.sub l hc)
  have hnum : ∀ y : Group, y.num = g → (y.mapLanes new (fun _ _ => .spawned dest)).num = g := fun y hy => (Group.mapLanes_num y _ _).trans hy
  have hr : ∀ y : Group, y.num = g → (y.retire s.cur).num = g := fun y hy => (y.retire_num s.cur).trans hy
  let k0 : Block := { k with heads := if new = [] then k.heads else insNat dest k.heads }
  let k1 := (k.updGrp g (fun y => y.retire s.cur)).begins g dest new
  have hF := (State.Follows.retire (x := x) hi.once).mapLanes hn (f := fun _ _ => .spawned dest) fun l hl => .of_not_mem _ (hns l hl)
  have hg : k1.grp g = some ((x.retire s.cur).mapLanes new (fun _ _ => .spawned dest)) := by
    show ((k.updGrp g (fun y => y.retire s.cur)).updGrp g (fun y => y.mapLanes new (fun _ _ => .spawned dest))).grp g = _
    rw [Block.grp_updGrp _ _ _ hnum, Block.grp_updGrp _ _ _ hr, (State.bg_iff.1 hi.found).2]
    rfl
  have hk : k0.OnlyGroup k1 g :=
    ⟨⟨_, _, rfl⟩, fun n hne => (Block.grp_updGrp_ne _ _ _ _ hnum hne).trans (Block.grp_updGrp_ne _ _ _ _ hr hne)⟩
  have hd := hF.wordDone hi (k0 := k0) (F := fun q => q.begins g dest new) (fun _ hq => hq) rfl hk hg
  have hlen : ∀ l ∈ new ++ s.cur.act, l < 32 ∧ (spawnGives vw new s.cur.act l).length = vw.parts := fun l hl => by
    refine ⟨?_, ?_⟩
    · rcases List.mem_append.1 hl with h | h
      · exact (hfree l h).1
      · exact (hi.live l (hi.sub l h)).1
    · unfold spawnGives
      split <;> exact freshWords_length _ _
  obtain ⟨k2, x2, hd2, hw2, w, e⟩ := hd.writeLanes vw d (spawnGives vw new s.cur.act)
    (List.nodup_append.2 ⟨hn, hi.actOnce, fun l hl m hm he => hna l hl (he ▸ hm)⟩) hlen
  have hwin : SameWindows k0 k1 (x.mapLanes new (fun _ _ => .spawned dest)) ((x.retire s.cur).mapLanes new (fun _ _ => .spawned dest)) := by
    obtain ⟨_, _, _, _, _, e'⟩ := hF.rest
    exact ⟨by rw [e'], rfl⟩
  refine ⟨_, x.mapLanes new (fun _ _ => .spawned dest), k0, k2, x2, spawnGives vw new s.cur.act, execSpawn_eq hi hs hga hgc hlt h4, hd2, ?_, fun l => ?_,
    ⟨_, rfl⟩, hw2.of_passed hd hwin, fun l hl => if_pos hl, fun j hj => ?_, ?_, fun l => ?_⟩
  · rw [Group.mapLanes_rest]
    exact ⟨_, rfl⟩
  · exact Group.lane_mapLanes x _ _ l hn
  · obtain ⟨hidx, hmem⟩ := idxOf_nth 0 new hn j hj
    rw [spawnGives, if_neg (hna _ hmem), hidx]
  · rw [e]
    exact hF.latches
  · rw [e]
    exact (hF.lanes l).pred

/-! ### `exit` (R57, R76) -/

/-- A lane that has ended; the rest of its record stays (R57, log entry 29). -/
def Lane.freed (y : Lane) : Lane := { y with st := .free, guardOff := false, deferred := false, entered := false, starve := 0 }

/-- The bits of `v` are bits of `w`. -/
def BitsWithin (v w : BitVec 32) : Prop := ∀ i, v.getLsbD i = true → w.getLsbD i = true

theorem BitsWithin.refl (w : BitVec 32) : BitsWithin w w := fun _ h => h

theorem BitsWithin.trans {u v w : BitVec 32} (h : BitsWithin u v) (h' : BitsWithin v w) : BitsWithin u w := fun i hi => h' i (h i hi)

theorem BitsWithin.zero (w : BitVec 32) : BitsWithin 0 w := fun i h => by simp at h

theorem BitsWithin.and (v w : BitVec 32) : BitsWithin (v &&& w) v := fun i h => by
  rw [BitVec.getLsbD_and, Bool.and_eq_true] at h
  exact h.1

theorem BitsWithin.false {v w : BitVec 32} (h : BitsWithin v w) {i : Nat} (hw : w.getLsbD i = false) : v.getLsbD i = false := by
  cases hv : v.getLsbD i with
  | false => rfl
  | true => exact absurd ((h i hv).symm.trans hw) (by decide)

/-- Group `y` is `x` where the lanes `ls` have ended: each other lane keeps its record, save that a parked one may have become live, and no lane is
in a mask where it was not. -/
structure Group.Ends (x y : Group) (ls : List Nat) : Prop where
  rest : ∃ la es as_ mm ma, y = { x with lanes := la, kEnr := es, kArr := as_, msM := mm, msA := ma }
  gone : ∀ l ∈ ls, y.lane l = (x.lane l).freed
  others : ∀ l, l ∉ ls → y.lane l = { x.lane l with st := (y.lane l).st } ∧
    ((y.lane l).st = (x.lane l).st ∨ (x.lane l).st ≠ .free ∧ (y.lane l).st = .live)
  enr : ∀ j, BitsWithin (tget 0 y.kEnr j) (tget 0 x.kEnr j)
  arr : ∀ j, BitsWithin (tget 0 y.kArr j) (tget 0 x.kArr j)
  msM : BitsWithin y.msM x.msM
  msA : BitsWithin y.msA x.msA

/-- Lane `l` is in no rejoin mask and not in the `msync` state. -/
structure Group.OutOfMasks (y : Group) (l : Nat) : Prop where
  msM : y.msM.getLsbD l = false
  msA : y.msA.getLsbD l = false
  masks : ∀ j < 8, (tget 0 y.kEnr j).getLsbD l = false ∧ (tget 0 y.kArr j).getLsbD l = false

section
variable {x y z : Group} {ls ms : List Nat} {l : Nat}

theorem Group.Ends.refl (x : Group) : x.Ends x [] :=
  ⟨⟨_, _, _, _, _, rfl⟩, by simp, fun _ _ => ⟨rfl, .inl rfl⟩, fun _ => .refl _, fun _ => .refl _, .refl _, .refl _⟩

theorem Group.OutOfMasks.of_ends (h : x.OutOfMasks l) (he : x.Ends y ls) : y.OutOfMasks l :=
  ⟨he.msM.false h.msM, he.msA.false h.msA, fun j hj => ⟨(he.enr j).false (h.masks j hj).1, (he.arr j).false (h.masks j hj).2⟩⟩

theorem Group.Ends.trans (h : x.Ends y ls) (h' : y.Ends z ms) (hd : ∀ l ∈ ls, l ∉ ms) : x.Ends z (ls ++ ms) := by
  refine ⟨?_, fun l hl => ?_, fun l hl => ?_, fun j => (h'.enr j).trans (h.enr j), fun j => (h'.arr j).trans (h.arr j), h'.msM.trans h.msM,
    h'.msA.trans h.msA⟩
  · obtain ⟨_, _, _, _, _, e⟩ := h.rest
    obtain ⟨_, _, _, _, _, e'⟩ := h'.rest
    exact ⟨_, _, _, _, _, by rw [e', e]⟩
  · by_cases hm : l ∈ ls
    · obtain ⟨e, hst⟩ := h'.others l (hd l hm)
      have hfree : (y.lane l).st = .free := by rw [h.gone l hm]; rfl
      rcases hst with hst | hst
      · rw [e, hst, ← h.gone l hm]
      · exact absurd hfree hst.1
    · rw [h'.gone l ((List.mem_append.1 hl).resolve_left hm), (h.others l hm).1]
      rfl
  · obtain ⟨h1, h2⟩ := not_or.1 (fun hc => hl (List.mem_append.2 hc))
    obtain ⟨e, hst⟩ := h.others l h1
    obtain ⟨e', hst'⟩ := h'.others l h2
    refine ⟨by rw [e', e], ?_⟩
    rcases hst' with hs' | ⟨hn', hs'⟩
    · rw [hs']
      exact hst
    · rcases hst with hs | ⟨hn, -⟩
      · exact .inr ⟨hs ▸ hn', hs'⟩
      · exact .inr ⟨hn, hs'⟩

end

/-- A group whose parked lanes of one kind have become live. -/
theorem lane_wake (y : Group) (n l : Nat) :
    ((y.mapLanes (lanes32.filter (fun l => decide ((y.lane l).st = .parked n))) (fun _ x => { x with st := .live })).lane l) =
      if l < 32 ∧ (y.lane l).st = .parked n then { y.lane l with st := .live } else y.lane l := by
  rw [Group.lane_mapLanes _ _ _ _ (lanes32_nodup.filter _)]
  simp only [List.mem_filter, mem_lanes32, decide_eq_true_eq]

theorem lane_wake_others (y : Group) (n l : Nat) {v : Lane}
    (hv : v = if l < 32 ∧ (y.lane l).st = .parked n then { y.lane l with st := .live } else y.lane l) :
    v = { y.lane l with st := v.st } ∧ (v.st = (y.lane l).st ∨ (y.lane l).st ≠ .free ∧ v.st = .live) := by
  subst hv
  split
  · exact ⟨rfl, .inr ⟨by simp [(‹l < 32 ∧ _›).2], rfl⟩⟩
  · exact ⟨rfl, .inl rfl⟩

/-- A group with the lanes of `m` out of the `msync` state. -/
def Group.leaveMsync (y : Group) (m : BitVec 32) : Group := { y with msM := y.msM &&& ~~~m, msA := y.msA &&& ~~~m }

theorem Group.leaveMsync_ends (y : Group) (m : BitVec 32) : y.Ends (y.leaveMsync m) [] :=
  ⟨⟨_, _, _, _, _, rfl⟩, by simp, fun _ _ => ⟨rfl, .inl rfl⟩, fun _ => .refl _, fun _ => .refl _, .and _ _, .and _ _⟩

theorem Group.leaveMsync_outOfMasks {y : Group} {m : BitVec 32} {l : Nat} (hm : m.getLsbD l = true)
    (h : ∀ j < 8, (tget 0 y.kEnr j).getLsbD l = false ∧ (tget 0 y.kArr j).getLsbD l = false) : (y.leaveMsync m).OutOfMasks l := by
  have hand : ∀ w : BitVec 32, (w &&& ~~~m).getLsbD l = false := fun w => by simp [hm]
  exact ⟨hand _, hand _, h⟩

/-- A group with lane `l` struck from every mask and out of the `msync` state, before what this completes releases (R76). -/
def Group.struck (x : Group) (l : Nat) : Group :=
  ((upFrom 0 8).foldl (fun y k => y.strike k (BitVec.ofNat 32 (2 ^ l))) x).leaveMsync (BitVec.ofNat 32 (2 ^ l))

section
variable (x : Group) (n l : Nat) (m : BitVec 32)

theorem tget_tset_within (t : Sparse (BitVec 32)) (n j : Nat) {v : BitVec 32} (h : BitsWithin v (tget 0 t n)) :
    BitsWithin (tget 0 (tset 0 t n v) j) (tget 0 t j) := by
  rw [tget_tset]
  split
  · rwa [‹j = n›]
  · exact .refl _

theorem Group.release_ends : x.Ends (x.release n) [] := by
  cases hr : releases (tget 0 x.kEnr n) (tget 0 x.kArr n) with
  | false =>
    rw [Group.release_of_not hr]
    exact .refl x
  | true =>
    have e := Group.release_of_releases hr
    refine ⟨?_, by simp, fun l _ => lane_wake_others x n l ?_, fun j => ?_, fun j => ?_, ?_, ?_⟩
    · rw [e, Group.mapLanes_rest]
      exact ⟨_, _, _, _, _, rfl⟩
    · rw [e]
      exact lane_wake x n l
    · rw [e]
      exact tget_tset_within _ _ _ (.zero _)
    · rw [e]
      exact tget_tset_within _ _ _ (.zero _)
    · rw [e, Group.mapLanes_rest]
      exact .refl _
    · rw [e, Group.mapLanes_rest]
      exact .refl _

theorem Group.msyncRelease_ends : x.Ends x.msyncRelease [] := by
  by_cases h : x.msA ≠ 0 ∧ x.msA = x.msM
  · have e : x.msyncRelease = { x.mapLanes (lanes32.filter (fun l => decide ((x.lane l).st = .parked 8))) (fun _ z => { z with st := .live }) with
        msM := 0, msA := 0 } := if_pos h
    refine ⟨?_, by simp, fun l _ => lane_wake_others x 8 l ?_, fun j => ?_, fun j => ?_, ?_, ?_⟩
    · rw [e, Group.mapLanes_rest]
      exact ⟨_, _, _, _, _, rfl⟩
    · rw [e]
      exact lane_wake x 8 l
    · rw [e, Group.mapLanes_rest]
      exact .refl _
    · rw [e, Group.mapLanes_rest]
      exact .refl _
    · rw [e]
      exact .zero _
    · rw [e]
      exact .zero _
  · have e : x.msyncRelease = x := if_neg h
    rw [e]
    exact .refl x

theorem Group.strike_ends : x.Ends (x.strike n m) [] := by
  have h : x.Ends { x with kEnr := tset 0 x.kEnr n (tget 0 x.kEnr n &&& ~~~m), kArr := tset 0 x.kArr n (tget 0 x.kArr n &&& ~~~m) } [] :=
    ⟨⟨_, _, _, _, _, rfl⟩, by simp, fun _ _ => ⟨rfl, .inl rfl⟩, fun _ => tget_tset_within _ _ _ (.and _ _),
      fun _ => tget_tset_within _ _ _ (.and _ _), .refl _, .refl _⟩
  exact h.trans (Group.release_ends _ n) (by simp)

/-- A struck lane is out of its mask. -/
theorem Group.strike_clear (h : m.getLsbD l = true) :
    (tget 0 (x.strike n m).kEnr n).getLsbD l = false ∧ (tget 0 (x.strike n m).kArr n).getLsbD l = false := by
  have hand : ∀ w : BitVec 32, (w &&& ~~~m).getLsbD l = false := fun w => by simp [h]
  have hd := x.strike_maskDone n m
  refine ⟨?_, ?_⟩
  · rw [hd.enr, if_pos rfl]
    exact (apply_ite (fun w : BitVec 32 => w.getLsbD l) _ _ _).trans (by rw [hand]; simp)
  · rw [hd.arr, if_pos rfl]
    exact (apply_ite (fun w : BitVec 32 => w.getLsbD l) _ _ _).trans (by rw [hand]; simp)

/-- A lane struck from the rejoin masks `js`. -/
theorem Group.strikes_ends (js : List Nat) : ∀ x : Group, x.Ends (js.foldl (fun y k => y.strike k m) x) [] := by
  induction js with
  | nil => exact fun x => .refl x
  | cons j js ih => exact fun x => (x.strike_ends j m).trans (ih _) (by simp)

theorem Group.strikes_clear (h : m.getLsbD l = true) (js : List Nat) :
    ∀ (x : Group), ∀ j ∈ js, (tget 0 (js.foldl (fun y k => y.strike k m) x).kEnr j).getLsbD l = false ∧
      (tget 0 (js.foldl (fun y k => y.strike k m) x).kArr j).getLsbD l = false := by
  induction js with
  | nil => simp
  | cons i js ih =>
    intro x j hj
    rcases List.mem_cons.1 hj with rfl | hj
    · have hc := x.strike_clear j l m h
      have he := Group.strikes_ends m js (x.strike j m)
      exact ⟨(he.enr j).false hc.1, (he.arr j).false hc.2⟩
    · exact ih _ j hj

theorem Group.struck_ends : x.Ends (x.struck l) [] := (Group.strikes_ends _ (upFrom 0 8) x).trans (Group.leaveMsync_ends _ _) (by simp)

theorem Group.struck_outOfMasks (h : l < 32) : (x.struck l).OutOfMasks l := by
  have hm : (BitVec.ofNat 32 (2 ^ l)).getLsbD l = true := by
    rw [BitVec.getLsbD_ofNat, Nat.testBit_two_pow_self, decide_eq_true h]
    rfl
  exact Group.leaveMsync_outOfMasks hm fun j hj => Group.strikes_clear l _ hm (upFrom 0 8) x j ((upFrom_mem 0 8 j).2 (by omega))

/-- A lane ends once it is out of the masks and those that this completes have released. -/
theorem Group.exitLane_eq : x.exitLane l = (x.struck l).msyncRelease.setLane l ((x.struck l).msyncRelease.lane l).freed := rfl

theorem Group.setLane_freed_ends : x.Ends (x.setLane l (x.lane l).freed) [l] := by
  refine ⟨⟨_, _, _, _, _, rfl⟩, fun j hj => ?_, fun j hj => ?_, fun _ => .refl _, fun _ => .refl _, .refl _, .refl _⟩
  · rw [List.mem_singleton.1 hj, Group.lane_setLane_same]
  · rw [Group.lane_setLane, if_neg (List.ne_of_not_mem_cons hj)]
    exact ⟨rfl, .inl rfl⟩

theorem Group.exitLane_ends : x.Ends (x.exitLane l) [l] := by
  rw [Group.exitLane_eq]
  exact ((x.struck_ends l).trans (Group.msyncRelease_ends _) (by simp)).trans (Group.setLane_freed_ends _ l) (by simp)

theorem Group.exitLane_outOfMasks (h : l < 32) : (x.exitLane l).OutOfMasks l := by
  rw [Group.exitLane_eq]
  exact ((x.struck_outOfMasks l h).of_ends (Group.msyncRelease_ends _)).of_ends (Group.setLane_freed_ends _ l)

end

/-- Lanes end one after another. -/
theorem Group.exits_ends {act : List Nat} (hd : act.Nodup) : ∀ x : Group, x.Ends (act.foldl Group.exitLane x) act := by
  induction act with
  | nil => exact fun x => .refl x
  | cons l act ih =>
    obtain ⟨hl, hd⟩ := List.nodup_cons.1 hd
    intro x
    rw [List.foldl_cons]
    exact (x.exitLane_ends l).trans (ih hd (x.exitLane l)) fun j hj => List.mem_singleton.1 hj ▸ hl

theorem Group.exits_outOfMasks {act : List Nat} (hd : act.Nodup) (h32 : ∀ l ∈ act, l < 32) :
    ∀ x : Group, ∀ l ∈ act, (act.foldl Group.exitLane x).OutOfMasks l := by
  induction act with
  | nil => simp
  | cons l act ih =>
    obtain ⟨-, hact⟩ := List.nodup_cons.1 hd
    intro x j hj
    rw [List.foldl_cons]
    rcases List.mem_cons.1 hj with rfl | hj
    · exact (x.exitLane_outOfMasks j (h32 j List.mem_cons_self)).of_ends (Group.exits_ends hact (x.exitLane j))
    · exact ih hact (fun i hi => h32 i (List.mem_cons_of_mem _ hi)) (x.exitLane l) j hj

/-- `exit` frees its lanes (R57, R76). -/
theorem exitFreesItsLanes : ExitFreesItsLanes := by
  intro s b g k x hi
  have hnum : ∀ y : Group, y.num = g → (s.cur.act.foldl Group.exitLane y).num = g := fun y hy => by
    obtain ⟨_, _, _, _, _, e⟩ := (Group.exits_ends hi.actOnce y).rest
    rw [e]
    exact hy
  have hends := Group.exits_ends hi.actOnce x
  refine ⟨⟨_, s.retire, retire_done hi, fun ⟨l, h32, hna, hst⟩ => ?_, rfl⟩, fun l hl => ?_, fun l hl => ?_, ?_⟩
  · have hbg := State.bg_updGrp (fun y => s.cur.act.foldl Group.exitLane y) (bg_retire_issues hi) hnum
    have hheld : (s.cur.act.foldl Group.exitLane (x.retire s.cur)).heldLanes ≠ [] := by
      refine List.ne_nil_of_mem (a := l) (List.mem_filter.2 ⟨mem_lanes32.2 h32, decide_eq_true ?_⟩)
      have hf : ((x.retire s.cur).lane l).st = (x.lane l).st := ((State.Follows.retire hi.once).lanes l).st
      rcases ((Group.exits_ends hi.actOnce (x.retire s.cur)).others l hna).2 with h | ⟨-, h⟩
      · rw [h, hf]
        exact hst
      · rw [h]
        decide
    show execExit s = _
    rw [execExit, joinWord_eq hi, hi.blk_id, hi.grp_num]
    dsimp only
    rw [hbg]
    dsimp only
    exact if_neg fun hc => hheld hc.1
  · obtain ⟨hM, hA, hk⟩ := Group.exits_outOfMasks hi.actOnce (fun l hl => (hi.live l (hi.sub l hl)).1) x l hl
    exact ⟨hends.gone l hl, hM, hA, hk⟩
  · obtain ⟨e, hst⟩ := hends.others l hl
    exact ⟨hst.imp_right And.right, e⟩
  · obtain ⟨_, _, _, _, _, e⟩ := hends.rest
    rw [e]
    exact ⟨rfl, rfl, rfl⟩

/-! ### `nop` and `yield` (R77) -/

/-- The lanes `act` of a group deferred, with the clause at `hdr` ending for the lanes `set` as though Y were 1 (R77). -/
def Group.defers (x : Group) (act set : List Nat) (hdr : Nat) : Group := (x.mapLanes act (fun _ y => { y with deferred := true })).setY set hdr

theorem State.Follows.defers {s : State} {x x' : Group} (h : s.Follows x x') {act : List Nat} (hd : act.Nodup) (set : List Nat) (hdr : Nat) :
    s.Follows (x.defers act set hdr) (x'.defers act set hdr) := by
  have hm := h.mapLanes hd (f := fun _ y => { y with deferred := true }) fun l _ => (h.lanes l).setDeferred true
  obtain ⟨-, -, -, -, hy⟩ := hm.masks
  unfold Group.defers Group.setY
  rw [hy]
  exact hm.setYends _

theorem execNop_group {s : State} {b g : Nat} {k : Block} {x : Group} (hi : s.Issues b g k x) : exec .nop s = .next s.retire := by
  show execNop s = _
  unfold execNop
  rw [hi.agent]
  exact joinWord_eq hi _

/-- `nop` passes, and `yield` defers its lanes (R77). -/
theorem yieldDefersItsLanes : YieldDefersItsLanes := by
  intro s b g k x hi
  have hi1 : State.Issues { s with cur := { s.cur with y := true } } b g k x :=
    ⟨hi.agent, hi.found, hi.some_, hi.sub, hi.once, hi.actOnce, hi.live⟩
  have hnum : ∀ y : Group, y.num = g → (y.defers s.cur.act s.cur.set s.cur.hdr).num = g := fun y hy => (Group.mapLanes_num y _ _).trans hy
  have hf := (State.Follows.retire (x := x) hi1.once).defers hi.actOnce s.cur.set s.cur.hdr
  refine ⟨⟨s.retire, execNop_group hi, retire_done hi⟩, _, x.defers s.cur.act s.cur.set s.cur.hdr, ?_,
    hf.passedWith hi1 (F := fun y => y.defers s.cur.act s.cur.set s.cur.hdr) hnum, ?_, fun l => Group.lane_mapLanes x _ _ l hi.actOnce, fun h => ?_⟩
  · show execYield s = _
    rw [execYield, joinWord_eq hi, hi.blk_id, hi.grp_num]
    rfl
  · unfold Group.defers Group.setY
    rw [Group.mapLanes_rest]
    exact ⟨_, _, rfl⟩
  · have hy : (x.mapLanes s.cur.act (fun _ y => { y with deferred := true })).yends = x.yends := (Group.mapLanes_masks _ _ _).2.2
    unfold Group.defers Group.setY
    rw [tget_tset, hy]
    split
    · rw [‹h = s.cur.hdr›]
    · rfl

/-- Settles O25: `spawn` by the one write that its destination has, `exit` by what each lane's end leaves of the group, `yield` and `nop` by
the retired word. -/
theorem fibresBeginDeferAndEnd : Obligations.FibresBeginDeferAndEnd := ⟨spawnMakesFibres, exitFreesItsLanes, yieldDefersItsLanes⟩

end Sys2Proof.Machine

/-! ## Jumps move their lanes (O26) -/

namespace Sys2Proof.Machine
open Claims

/-! ### The check of a word's lanes (R58, R72, R73) -/

theorem firstBad_eq_none {act : List Nat} {f : Nat → Option (Nat × Nat)} (h : ∀ l ∈ act, f l = none) :
    firstBad (act.map (fun l => (l, f l))) = none := by
  have hf : firstOf (fun x : Nat × Option (Nat × Nat) => x.2.isSome) (act.map (fun l => (l, f l))) = none := by
    refine firstOf_none _ _ fun y hy => ?_
    obtain ⟨l, hl, rfl⟩ := List.mem_map.1 hy
    simp only [h l hl, Option.isSome_none]
  unfold firstBad
  rw [hf]

/-- The first failing lane decides, and every lane that fails with its code is named. -/
theorem firstBad_eq_some {act : List Nat} {f : Nat → Option (Nat × Nat)} (h : ∃ l ∈ act, f l ≠ none) :
    ∃ l ∈ act, ∃ c i, f l = some (c, i) ∧
      firstBad (act.map (fun l => (l, f l))) = some (c, maskOf (act.filter (fun j => (f j).any (fun e => decide (e.1 = c)))), i) := by
  have hfirst : ∀ ls : List Nat, (∃ l ∈ ls, f l ≠ none) →
      ∃ l ∈ ls, ∃ e, f l = some e ∧ firstOf (fun x : Nat × Option (Nat × Nat) => x.2.isSome) (ls.map (fun l => (l, f l))) = some (l, some e) := by
    intro ls
    induction ls with
    | nil => simp
    | cons l ls ih =>
      intro hex
      rw [List.map_cons, firstOf]
      cases hf : f l with
      | some e => exact ⟨l, List.mem_cons_self, e, hf, rfl⟩
      | none =>
        obtain ⟨j, hj, hne⟩ := hex
        obtain ⟨m, hm, e, he, ho⟩ := ih ⟨j, (List.mem_cons.1 hj).resolve_left fun e => hne (e ▸ hf), hne⟩
        exact ⟨m, List.mem_cons_of_mem _ hm, e, he, ho⟩
  obtain ⟨l, hl, ⟨c, i⟩, he, ho⟩ := hfirst act h
  refine ⟨l, hl, c, i, he, ?_⟩
  unfold firstBad
  rw [ho]
  dsimp only
  rw [List.filter_map, List.map_map]
  refine congrArg (fun m => some (c, maskOf m, i)) ((List.map_id _).trans (List.filter_congr fun j _ => ?_))
  show (match f j with | some y => decide (y.1 = c) | none => false) = _
  cases f j <;> rfl

theorem laneTarget_eq_none_iff {ws : List RWord} : laneTarget ws = none ↔ goodOf ws = true ∧ valOf ws < 2 ^ 48 ∧ valOf ws % 4 = 0 := by
  refine ⟨fun h => ?_, fun ⟨hg, hlt, h4⟩ => laneTarget_eq_none hg hlt h4⟩
  cases hg : goodOf ws with
  | false => simp [laneTarget, hg] at h
  | true =>
    by_cases hlt : 2 ^ 48 ≤ valOf ws
    · have ht : targetBad (valOf ws) = some 0x06 := if_pos hlt
      simp [laneTarget, hg, ht] at h
    · by_cases h4 : valOf ws % 4 = 0
      · exact ⟨rfl, Nat.not_le.1 hlt, h4⟩
      · have ht : targetBad (valOf ws) = some 0x05 := (if_neg hlt).trans (if_pos h4)
        simp [laneTarget, hg, ht] at h

/-- A computed target fails for its residue, its range or its alignment (R58, R72). -/
theorem laneTarget_code {ws : List RWord} {c i : Nat} (h : laneTarget ws = some (c, i)) : c = 0x04 ∨ c = 0x05 ∨ c = 0x06 := by
  unfold laneTarget targetBad at h
  split at h
  · cases h
    exact .inl rfl
  · split at h
    · rename_i ht
      cases h
      split at ht
      · cases ht
        exact .inr (.inr rfl)
      · split at ht
        · cases ht
          exact .inr (.inl rfl)
        · cases ht
    · cases h

/-! ### Branches (R62, R71) -/

/-- `bra` and `bru` move the lanes that their predicate says (R62, R71). -/
theorem branchesMoveTheirLanes : BranchesMoveTheirLanes := by
  intro n c o s b g k x _ _ _ hi taken goes
  obtain rfl := hi.blk_id
  obtain rfl := hi.grp_num
  have hbra : exec (.bra n c o) s = match taken with
      | [] => .next s.retire
      | l :: ls => match s.jStep (sgn 19 o) with
        | .inr e => .next (s.raise e.1 e.2)
        | .inl t => .next (s.retire.land k.id x.num (l :: ls) t) := by
    show execBra n c o s = _
    exact joinWord_eq hi _
  have hbru : exec (.bru n c o) s = if goes = true then (match s.jStep (sgn 19 o) with
      | .inr e => .next (s.raise e.1 e.2)
      | .inl t => .next (s.retire.land k.id x.num s.cur.act t)) else .next s.retire := by
    show execBru n c o s = _
    unfold execBru
    rw [hi.agent]
    exact joinWord_eq hi _
  refine ⟨fun h => ⟨_, hbra.trans (by rw [h]), retire_done hi⟩, fun p hne hj => ⟨_, retire_done hi, hbra.trans ?_⟩, fun e hne hj => hbra.trans ?_,
    fun h => ⟨_, hbru.trans (by rw [h]; rfl), retire_done hi⟩, fun p h hj => ⟨_, retire_done hi, hbru.trans ?_⟩, fun e h hj => hbru.trans ?_⟩
  · obtain ⟨l, ls, e⟩ := List.exists_cons_of_ne_nil hne
    rw [e, hj]
    rfl
  · obtain ⟨l, ls, e⟩ := List.exists_cons_of_ne_nil hne
    rw [e, hj]
  · rw [if_pos h, hj]
    rfl
  · rw [if_pos h, hj]

/-! ### Indirect jumps (R58, R72) -/

theorem mem_insNat {n m : Nat} {ls : List Nat} : m ∈ insNat n ls ↔ m = n ∨ m ∈ ls := by
  induction ls with
  | nil => simp [insNat]
  | cons k ls ih =>
    unfold insNat
    split
    · exact List.mem_cons
    · split
      · rename_i h
        simp [h]
      · rw [List.mem_cons, ih, List.mem_cons]
        exact or_left_comm

/-- Addresses noted one after another. -/
theorem mem_foldl_insNat {α : Type} (f : α → Nat) (ts : List α) {m : Nat} :
    ∀ hs : List Nat, m ∈ ts.foldl (fun h p => insNat (f p) h) hs ↔ m ∈ hs ∨ ∃ p ∈ ts, m = f p := by
  induction ts with
  | nil => simp
  | cons t ts ih =>
    intro hs
    rw [List.foldl_cons, ih, mem_insNat, List.exists_mem_cons_iff, or_comm (a := m = f t), or_assoc]

/-- Lanes set one after another are the lanes set together. -/
theorem foldl_setLane {α : Type} (F : Lane → α → Lane) (d : Nat → α) (act : List Nat) :
    ∀ x : Group, (act.map (fun l => (l, d l))).foldl (fun y p => y.setLane p.1 (F (y.lane p.1) p.2)) x = x.mapLanes act (fun l z => F z (d l)) := by
  induction act with
  | nil => exact fun _ => rfl
  | cons l act ih => exact fun x => ih _

/-- The block where a word has moved its group's lanes and noted chain heads. -/
def Block.moves (q : Block) (g : Nat) (G : Group → Group) (H : List Nat → List Nat) : Block := { (q.updGrp g G) with heads := H q.heads }

/-- A retired word that moves lanes of its group and notes chain heads. -/
theorem retire_moves {s : State} {b g : Nat} {k : Block} {x : Group} (hi : s.Issues b g k x) (act : List Nat) (f : Nat → Lane → Lane)
    (H : List Nat → List Nat) :
    ∃ k0 x0 k1, PassedFrom s s.retire b g k x ∧ s.retire.bg b g = some (k0, x0) ∧
      (s.retire.updBlk b (fun q => q.moves g (fun y => y.mapLanes act f) H)).bg b g = some (k1, x0.mapLanes act f) ∧
      (∀ n, n ≠ b → (s.retire.updBlk b (fun q => q.moves g (fun y => y.mapLanes act f) H)).blk n = s.retire.blk n) ∧
      (∃ ls, x0.mapLanes act f = { x0 with lanes := ls }) ∧ (∃ gs hs, k1 = { k0 with groups := gs, heads := hs }) ∧ k1.heads = H k.heads := by
  obtain ⟨k0, x0, hd, hrest⟩ := retire_done hi
  have hnum : ∀ y : Group, y.num = g → (y.mapLanes act f).num = g := fun y hy => (Group.mapLanes_num y _ _).trans hy
  have hgrp : (k0.moves g (fun y => y.mapLanes act f) H).grp g = some (x0.mapLanes act f) := by
    show (k0.updGrp g (fun y => y.mapLanes act f)).grp g = _
    rw [Block.grp_updGrp _ _ _ hnum, (State.bg_iff.1 hd.found).2]
    rfl
  have hheads : k0.heads = k.heads := by
    obtain ⟨_, _, e⟩ := hd.inside.rest
    rw [e]
  refine ⟨k0, x0, _, ⟨k0, x0, hd, hrest⟩, hd.found, State.bg_updBlk (fun _ hq => hq) hd.found hgrp,
    fun n hn => State.blk_updBlk_ne _ _ _ _ (fun _ hq => hq) hn, ?_, ⟨_, _, rfl⟩, congrArg H hheads⟩
  rw [Group.mapLanes_rest]
  exact ⟨_, rfl⟩

/-- `jmpi` sends each lane to its own address (R58, R72). -/
theorem indirectJumpsTakeEachLanesTarget : IndirectJumpsTakeEachLanesTarget := by
  intro a v s b g k x _ hi hs dest
  have hjmpi : exec (.jmpi a v) s = match firstBad (s.cur.act.map (fun l => (l, laneTarget (k.src x (viewOf v) a l)))) with
      | some e => .next (s.raiseFor e.1 e.2.1 e.2.2)
      | none => .next (s.retire.updBlk b (fun q => q.moves g
          (fun y => (s.cur.act.map (fun l => (l, dest l))).foldl (fun y p => y.setLane p.1 ((y.lane p.1).enter p.2)) y)
          (fun hs => (s.cur.act.map (fun l => (l, dest l))).foldl (fun h p => insNat p.2 h) hs))) := by
    show execJmpi a v s = _
    unfold execJmpi
    rw [hi.agent]
    dsimp only
    rw [joinWord_eq hi, if_pos hs.ok, hi.blk_id, hi.grp_num]
    rfl
  refine ⟨fun h => ?_, fun ⟨l, hl, hbad⟩ => ?_⟩
  · rw [firstBad_eq_none fun l hl => laneTarget_eq_none_iff.2 (h l hl)] at hjmpi
    simp only [foldl_setLane Lane.enter] at hjmpi
    obtain ⟨k0, x0, k1, hp, h0, h1, hblk, hx, hk, hh⟩ := retire_moves hi s.cur.act (fun l z => z.enter (dest l))
      (fun hs => (s.cur.act.map (fun l => (l, dest l))).foldl (fun h p => insNat p.2 h) hs)
    refine ⟨_, _, k0, x0, k1, _, hp, hjmpi, h0, h1, ⟨_, rfl⟩, hblk, hx, hk, fun l => Group.lane_mapLanes x0 _ _ l hi.actOnce, fun m => ?_⟩
    rw [hh, mem_foldl_insNat (fun p : Nat × Nat => p.2)]
    simp
  · obtain ⟨j, _, c, i, hc, he⟩ := firstBad_eq_some (f := fun l => laneTarget (k.src x (viewOf v) a l))
      ⟨l, hl, fun hn => hbad (laneTarget_eq_none_iff.1 hn)⟩
    rw [he] at hjmpi
    exact ⟨c, _, i, laneTarget_code hc, hjmpi⟩

/-- Settles O26: branches by the lanes that their predicate says, indirect jumps by the check of every lane before any moves. -/
theorem jumpsMoveTheirLanes : Obligations.JumpsMoveTheirLanes := ⟨branchesMoveTheirLanes, indirectJumpsTakeEachLanesTarget⟩

end Sys2Proof.Machine

/-! ## Frames open and close (O23) -/

namespace Sys2Proof.Machine
open Claims

/-! ### Slots 0 and 1 of a frame (R69) -/

/-- Where a slot of a ring of frames of `f` slots stands, in words. -/
theorem vByte_word (gwin vv d n l : Nat) {f : Nat} (hf : f ≠ 0) :
    vByte gwin vv (f * 128) d n l / 4 = vv / 4 + 32 * ((d * f + n) % (frameCount gwin vv (f * 128) * f)) + l := by
  have hmod : (d * (f * 128) + 128 * n) % (frameCount gwin vv (f * 128) * (f * 128)) =
      128 * ((d * f + n) % (frameCount gwin vv (f * 128) * f)) := by
    rw [← Nat.mul_mod_mul_left]
    congr 1 <;> ring
  unfold vByte
  rw [if_neg (by omega), hmod]
  omega

/-- Two places of a ring of more than one do not fall together. -/
theorem mod_succ_ne {m : Nat} (a : Nat) (hm : m ≠ 1) : a % m ≠ (a + 1) % m := fun h => by
  have hd := (Nat.modEq_iff_dvd' (Nat.le_succ a)).1 h
  rw [Nat.succ_eq_add_one, Nat.add_sub_cancel_left, Nat.dvd_one] at hd
  exact hm hd

/-- Slots 0 and 1 of the lanes of a group with frames stand apart (R69). -/
theorem slotWord_zero_ne_one (k : Block) (x : Group) (hf : 2 ≤ x.frame) {l j : Nat} (hl : l < 32) (hj : j < 32) :
    k.slotWord x .v 0 l ≠ k.slotWord x .v 1 j := by
  have hw : ∀ n i, k.slotWord x .v n i = x.inf.vv / 4 +
      32 * (((x.lane i).depth * x.frame + n) % (frameCount k.gwinBytes x.inf.vv (x.frame * 128) * x.frame)) + i :=
    fun n i => vByte_word _ _ _ n i (by omega)
  rw [hw, hw]
  intro h
  have e : l = j := by omega
  subst e
  have hm : frameCount k.gwinBytes x.inf.vv (x.frame * 128) * x.frame ≠ 1 := fun h1 => by
    have := Nat.eq_one_of_mul_eq_one_left h1
    omega
  have := mod_succ_ne ((x.lane l).depth * x.frame) hm
  simp only [Nat.add_zero] at h
  omega

/-! ### `call` (R69, R70, R73) -/

/-- A lane one level down (R69). -/
def Lane.deepen (y : Lane) : Lane := { y with depth := y.depth + 1 }

/-- The block where a `call` has opened a frame for each of the lanes `act`, with the return place in its slots 0 and 1 (R73). -/
def Block.opens (q : Block) (g : Nat) (act : List Nat) (w0 w1 : RWord) : Block :=
  ((q.updGrp g (fun y => y.mapLanes act (fun _ z => z.deepen))).writeLanes g .v 0 (act.map (fun l => (l, [w0])))).writeLanes g .v 1
    (act.map (fun l => (l, [w1])))

theorem Block.opens_id (q : Block) (g : Nat) (act : List Nat) (w0 w1 : RWord) : (q.opens g act w0 w1).id = q.id :=
  (Block.writeLanes_id _ _ _ _ _).trans (Block.writeLanes_id _ _ _ _ _)

section
variable {g : Nat} {k : Block} {x : Group} {act : List Nat}

/-- A word of one part. -/
theorem WroteSlot.get_v {k k' : Block} {x x' : Group} {n : Nat} {ls : List Nat} {f : Nat → RWord}
    (h : WroteSlot k k' x x' .v n ls (fun l => [f l])) {l : Nat} (hl : l ∈ ls) : tget RWord.zero x'.win (k.slotWord x .v n l) = f l := by
  have e : [tget RWord.zero x'.win (k.slotWord x .v n l)] = [f l] := h.new l hl
  exact (List.cons.inj e).1

theorem WroteSlot.old_v {k k' : Block} {x x' : Group} {n : Nat} {ls : List Nat} {f : Nat → List RWord}
    (h : WroteSlot k k' x x' .v n ls f) {w : Nat} (hw : ∀ l ∈ ls, w ≠ k.slotWord x .v n l) : tget RWord.zero x'.win w = tget RWord.zero x.win w :=
  h.old w fun l hl => by
    have hne := hw l hl
    show w < _ ∨ _ + 1 ≤ w
    omega

theorem Block.OnlyGroup.of_bwin {k k' : Block} (h : k.OnlyGroup k' g) (hb : k'.bwin = k.bwin) : ∃ gs, k' = { k with groups := gs } := by
  obtain ⟨gs, _, e⟩ := h.rest
  rw [e] at hb
  exact ⟨gs, by rw [e, ← hb]⟩

/-- A return place written in slots 0 and 1 of lanes (R73). -/
theorem Block.writeReturnPlace_spec (hx : k.grp g = some x) (hf : 2 ≤ x.frame) (hd : act.Nodup) (h32 : ∀ l ∈ act, l < 32) (w0 w1 : RWord) :
    let q := (k.writeLanes g .v 0 (act.map (fun l => (l, [w0])))).writeLanes g .v 1 (act.map (fun l => (l, [w1])))
    ∃ y, q.grp g = some y ∧ (∃ gs, q = { k with groups := gs }) ∧ (∃ w, y = { x with win := w }) ∧
      (∀ l ∈ act, tget RWord.zero y.win (q.slotWord y .v 0 l) = w0 ∧ tget RWord.zero y.win (q.slotWord y .v 1 l) = w1) ∧
      ∀ w, (∀ l ∈ act, w ≠ q.slotWord y .v 0 l ∧ w ≠ q.slotWord y .v 1 l) → tget RWord.zero y.win w = tget RWord.zero x.win w := by
  intro q
  obtain ⟨z, hgz, hkz, ⟨wz, ez⟩, hwz⟩ := Block.writeLanes_spec g .v 0 (fun _ => [w0]) act hx hd fun l hl => ⟨h32 l hl, rfl⟩
  obtain ⟨y, hgy, hky, ⟨wy, ey⟩, hwy⟩ := Block.writeLanes_spec g .v 1 (fun _ => [w1]) act hgz hd fun l hl => ⟨h32 l hl, rfl⟩
  have hwin : ∃ w, y = { x with win := w } := ⟨wy, by rw [ey, ez]⟩
  obtain ⟨gs, eq⟩ : ∃ gs, q = { k with groups := gs } := (hkz.trans hky).of_bwin (hwy.other.trans hwz.other)
  have hpz : ∀ n l, Block.slotWord (k.writeLanes g .v 0 (act.map (fun l => (l, [w0])))) z .v n l = k.slotWord x .v n l := fun n l => by
    obtain ⟨_, _, e⟩ := hkz.rest
    exact SamePlaces.slotWord ⟨by rw [e], by rw [ez], by rw [ez], fun j => by rw [ez]; rfl⟩ .v n l
  have hpy : ∀ n l, q.slotWord y .v n l = k.slotWord x .v n l := fun n l => by
    obtain ⟨_, e⟩ := hwin
    exact SamePlaces.slotWord ⟨by rw [eq], by rw [e], by rw [e], fun j => by rw [e]; rfl⟩ .v n l
  refine ⟨y, hgy, ⟨gs, eq⟩, hwin, fun l hl => ⟨?_, ?_⟩, fun w hw => ?_⟩
  · rw [hpy, hwy.old_v fun j hj => by rw [hpz]; exact slotWord_zero_ne_one k x hf (h32 l hl) (h32 j hj)]
    exact hwz.get_v (f := fun _ => w0) hl
  · rw [hpy, ← hpz]
    exact hwy.get_v (f := fun _ => w1) hl
  · rw [hwy.old_v fun j hj => by rw [hpz, ← hpy]; exact (hw j hj).2, hwz.old_v fun j hj => by rw [← hpy]; exact (hw j hj).1]

/-- What opening frames does to a block and its group (R73). -/
theorem Block.opens_spec (hx : k.grp g = some x) (hf : 2 ≤ x.frame) (hd : act.Nodup) (h32 : ∀ l ∈ act, l < 32) (w0 w1 : RWord) :
    ∃ y, (k.opens g act w0 w1).grp g = some y ∧ (∃ gs, k.opens g act w0 w1 = { k with groups := gs }) ∧
      (∃ ls w, y = { x with lanes := ls, win := w }) ∧ (∀ l, y.lane l = if l ∈ act then (x.lane l).deepen else x.lane l) ∧
      (∀ l ∈ act, tget RWord.zero y.win ((k.opens g act w0 w1).slotWord y .v 0 l) = w0 ∧
        tget RWord.zero y.win ((k.opens g act w0 w1).slotWord y .v 1 l) = w1) ∧
      ∀ w, (∀ l ∈ act, w ≠ (k.opens g act w0 w1).slotWord y .v 0 l ∧ w ≠ (k.opens g act w0 w1).slotWord y .v 1 l) →
        tget RWord.zero y.win w = tget RWord.zero x.win w := by
  have hnum : ∀ y : Group, y.num = g → (y.mapLanes act (fun _ z => z.deepen)).num = g := fun y hy => (Group.mapLanes_num y _ _).trans hy
  have hrest := x.mapLanes_rest act (fun _ z => z.deepen)
  have hg : (k.updGrp g (fun y => y.mapLanes act (fun _ z => z.deepen))).grp g = some (x.mapLanes act (fun _ z => z.deepen)) := by
    rw [Block.grp_updGrp _ _ _ hnum, hx]
    rfl
  have hframe : (x.mapLanes act (fun _ z => z.deepen)).frame = x.frame := by rw [hrest]
  obtain ⟨y, hgy, ⟨gs, ek⟩, ⟨w, ey⟩, hnew, hold⟩ := Block.writeReturnPlace_spec hg (hframe.symm ▸ hf) hd h32 w0 w1
  refine ⟨y, hgy, ⟨gs, ek⟩, ⟨(x.mapLanes act (fun _ z => z.deepen)).lanes, w, ?_⟩, fun l => ?_, hnew,
    fun w' hw => (hold w' hw).trans ?_⟩
  · rw [ey, hrest]
  · rw [ey]
    exact Group.lane_mapLanes x act _ l hd
  · rw [hrest]

/-- Lanes of a group sent to a place in code: the windows stay, and every slot stands where it stood. -/
theorem Block.land_spec (hx : k.grp g = some x) (hd : act.Nodup) (p : Land) :
    let q := k.updGrp g (fun y => y.mapLanes act (fun _ z => z.land p))
    ∃ y, q.grp g = some y ∧ (∃ ls, y = { x with lanes := ls }) ∧ (∀ l, y.lane l = if l ∈ act then (x.lane l).land p else x.lane l) ∧
      ∀ n l, q.slotWord y .v n l = k.slotWord x .v n l := by
  intro q
  have hnum : ∀ y : Group, y.num = g → (y.mapLanes act (fun _ z => z.land p)).num = g := fun y hy => (Group.mapLanes_num y _ _).trans hy
  have hrest := x.mapLanes_rest act (fun _ z => z.land p)
  have hlane := fun l => Group.lane_mapLanes x act (fun _ z => z.land p) l hd
  have hg : q.grp g = some (x.mapLanes act (fun _ z => z.land p)) := by
    rw [Block.grp_updGrp _ _ _ hnum, hx]
    rfl
  refine ⟨_, hg, ⟨_, hrest⟩, hlane, fun n l => SamePlaces.slotWord ⟨rfl, by rw [hrest], by rw [hrest], fun j => ?_⟩ .v n l⟩
  rw [hlane]
  split <;> rfl

end

section
variable {s : State} {b g i : Nat} {k : Block} {x : Group} {p : Land} (hi : s.Issues b g k x)
include hi

/-- A `call` by the group, step by step (R73). -/
theorem execCall_group :
    exec (.call i) s = if x.frame < 2 then .next (s.raise 0x0C 0)
      else match s.jStep (sgn 24 i) with
      | .inr e => .next (s.raise e.1 e.2)
      | .inl t => match callChecked k x s.cur.pc s.cur.act with
        | some e => .next (s.raiseFor e.1 e.2.1 e.2.2)
        | none => match s.spillStep k x s.cur.act with
          | some s1 => .next s1
          | none => .next ((s.retire.updBlk b (fun q => q.opens g s.cur.act (fresh (BitVec.ofNat 32 (s.cur.back.1 % 2 ^ 32)))
              (fresh (BitVec.ofNat 32 (s.cur.back.2 * 65536 + s.cur.back.1 / 2 ^ 32))))).land b g s.cur.act t) := by
  show execCall i s = _
  unfold execCall
  rw [hi.agent]
  dsimp only
  rw [joinWord_eq hi, hi.blk_id, hi.grp_num]
  rfl

/-- A retired word that opens frames and sends their lanes to a place in code (R73). -/
theorem retire_opens (hf : 2 ≤ x.frame) (w0 w1 : RWord) (p : Land) :
    let t := (s.retire.updBlk b (fun q => q.opens g s.cur.act w0 w1)).land b g s.cur.act p
    ∃ k0 x0 k1 x1, PassedFrom s s.retire b g k x ∧ s.retire.bg b g = some (k0, x0) ∧ t.bg b g = some (k1, x1) ∧
      (∃ bs, t = { s.retire with blocks := bs }) ∧ (∀ n, n ≠ b → t.blk n = s.retire.blk n) ∧
      (∃ ls w, x1 = { x0 with lanes := ls, win := w }) ∧ (∃ gs, k1 = { k0 with groups := gs }) ∧
      (∀ l, x1.lane l = if l ∈ s.cur.act then (x0.lane l).deepen.land p else x0.lane l) ∧
      (∀ l ∈ s.cur.act, tget RWord.zero x1.win (k1.slotWord x1 .v 0 l) = w0 ∧ tget RWord.zero x1.win (k1.slotWord x1 .v 1 l) = w1) ∧
      ∀ w, (∀ l ∈ s.cur.act, w ≠ k1.slotWord x1 .v 0 l ∧ w ≠ k1.slotWord x1 .v 1 l) → tget RWord.zero x1.win w = tget RWord.zero x.win w := by
  intro t
  obtain ⟨k0, x0, hd, hw, hrest⟩ := retire_done hi
  have h32 : ∀ l ∈ s.cur.act, l < 32 := fun l hl => (hi.live l (hi.sub l hl)).1
  have hid : ∀ q : Block, q.id = b → (q.opens g s.cur.act w0 w1).id = b := fun q hq => (q.opens_id _ _ _ _).trans hq
  have hnum : ∀ y : Group, y.num = g → (y.mapLanes s.cur.act (fun _ z => z.land p)).num = g := fun y hy => (Group.mapLanes_num y _ _).trans hy
  have hf0 : x0.frame = x.frame := by
    obtain ⟨_, _, _, _, _, _, e⟩ := hd.group
    rw [e]
  obtain ⟨y, hgy, ⟨gs, ek⟩, ⟨ls, w, ey⟩, hly, hnew, hold⟩ := Block.opens_spec (State.bg_iff.1 hd.found).2 (hf0.symm ▸ hf) hi.actOnce h32 w0 w1
  obtain ⟨x1, hg1, ⟨ls1, e1⟩, hl1, hp1⟩ := Block.land_spec hgy hi.actOnce p
  have hwin : x1.win = y.win := by rw [e1]
  refine ⟨k0, x0, _, x1, ⟨k0, x0, hd, hw, hrest⟩, hd.found, State.bg_updBlk (fun _ hq => hq) (State.bg_updBlk hid hd.found hgy) hg1, ⟨_, rfl⟩,
    fun n hn => (State.blk_updBlk_ne _ b n (fun q => q.updGrp g (fun y => y.mapLanes s.cur.act (fun _ z => z.land p))) (fun _ hq => hq) hn).trans
      (State.blk_updBlk_ne _ _ _ _ hid hn), ⟨ls1, w, by rw [e1, ey]⟩, ?_,
    fun l => ?_, fun l hl => ?_, fun a ha => ?_⟩
  · rw [ek]
    exact ⟨_, rfl⟩
  · rw [hl1, hly]
    split <;> rfl
  · rw [hp1, hp1, hwin]
    exact hnew l hl
  · rw [hwin, hold a fun l hl => by rw [← hp1, ← hp1]; exact ha l hl, hw.1]

end

/-- The check pass of a `call` with room for every frame, or in its burst (R73). -/
theorem callChecked_eq_none {s : State} {k : Block} {x : Group} (h : x.spilledIn s.cur.pc = none → ∀ l ∈ s.cur.act, (x.lane l).depth < 65535 ∧
      (k.ringFrames x ≤ (x.lane l).depth + 1 - (x.lane l).lo → x.inf.spillbase + ((x.lane l).lo + 1) * x.frameBytes ≤ x.inf.spilllim)) :
    callChecked k x s.cur.pc s.cur.act = none := by
  unfold callChecked
  cases hb : x.spilledIn s.cur.pc with
  | some ls => rfl
  | none =>
    refine firstBad_eq_none fun l hl => ?_
    obtain ⟨hlt, hroom⟩ := h hb l hl
    unfold callBad
    rw [if_neg (Nat.ne_of_lt hlt), if_neg fun hc => Nat.not_lt.2 (hroom hc.1) hc.2]

/-- What a `call` spills next (R73). -/
theorem spillStep_eq {s : State} {k : Block} {x : Group} {act : List Nat} :
    s.spillStep k x act = match firstOf (fun l => decide (l ∉ (x.spilledIn s.cur.pc).getD []) &&
        decide (k.ringFrames x ≤ (x.lane l).depth + 1 - (x.lane l).lo)) act with
      | none => none
      | some l => match s.spill k x (x.lane l).lo l (upFrom 0 x.frame) with
        | .inr e => some (s.raiseFor e.1 (maskOf [l]) e.2)
        | .inl s1 =>
          if s1.crowded k.core then some ((s.forceQuiet k.core).waitSlots .window ((x.spilledIn s.cur.pc).getD []))
          else some ((s1.updGrp k.id x.num (fun y => y.setLane l { y.lane l with lo := (x.lane l).lo + 1 })).waitSlots .window
            ((x.spilledIn s.cur.pc).getD [] ++ [l])) := by
  unfold State.spillStep
  cases x.spilledIn s.cur.pc <;> rfl

/-- `call` opens frames, or spills one (R69, R70, R73, R123). -/
theorem callsOpenAFrame : CallsOpenAFrame := by
  intro i s b g k x p _ hi burst spilt
  refine ⟨fun hf => ?_, fun hf hj h => ?_, fun l s1 hf hj h hl hs hc => ?_⟩
  · rw [execCall_group hi, if_pos hf]
  · have hcheck : callChecked k x s.cur.pc s.cur.act = none := callChecked_eq_none fun hb l hl => by
      obtain ⟨hdep, hring⟩ := h l hl
      have hnot : l ∉ spilt := by
        have hs : spilt = [] := congrArg (fun o : Option (List Nat) => o.getD []) hb
        rw [hs]
        exact List.not_mem_nil
      exact ⟨hdep hb, fun hle => absurd (hring.resolve_left hnot) (Nat.not_lt.2 hle)⟩
    have hspill : s.spillStep k x s.cur.act = none := by
      rw [spillStep_eq, firstOf_none]
      intro l hl
      rcases (h l hl).2 with hm | hlt
      · exact Bool.and_eq_false_iff.2 (.inl (decide_eq_false (not_not.2 hm)))
      · exact Bool.and_eq_false_iff.2 (.inr (decide_eq_false (Nat.not_le.2 hlt)))
    have hcall := execCall_group (i := i) hi
    rw [if_neg (Nat.not_lt.2 hf), hj] at hcall
    dsimp only at hcall
    rw [hcheck, hspill] at hcall
    obtain ⟨k0, x0, k1, x1, hp, h0, h1, hbs, hblk, hx1, hk1, hlane, hnew, hold⟩ := retire_opens hi hf (fresh (BitVec.ofNat 32 (s.cur.back.1 % 2 ^ 32)))
      (fresh (BitVec.ofNat 32 (s.cur.back.2 * 65536 + s.cur.back.1 / 2 ^ 32))) p
    exact ⟨_, _, k0, x0, k1, x1, hp, hcall, h0, h1, hbs, hblk, hx1, hk1, hlane, hnew, hold⟩
  · have hcheck : callChecked k x s.cur.pc s.cur.act = none := callChecked_eq_none fun _ j hj => h j hj
    have hspill : s.spillStep k x s.cur.act =
        some ((s1.updGrp b g (fun y => y.setLane l { y.lane l with lo := (x.lane l).lo + 1 })).waitSlots .window (spilt ++ [l])) := by
      rw [spillStep_eq, hl]
      dsimp only
      rw [hs, hi.blk_id, hi.grp_num]
      dsimp only
      rw [hc]
      rfl
    rw [execCall_group hi, if_neg (Nat.not_lt.2 hf), hj]
    dsimp only
    rw [hcheck, hspill]

/-! ### `ret` (R58, R70, R73) -/

/-- The place that slots 0 and 1 of a lane's frame hold (R73). -/
def Block.backTo (k : Block) (x : Group) (l : Nat) : Nat :=
  (lowWord k x .v 0 l).val.toNat + 2 ^ 32 * ((lowWord k x .v 1 l).val.toNat % 2 ^ 16)

/-- The index of that place in its clause (R73). -/
def Block.backIdx (k : Block) (x : Group) (l : Nat) : Nat := (lowWord k x .v 1 l).val.toNat / 2 ^ 16 % 16

theorem valOf_src_v (k : Block) (x : Group) (n l : Nat) : valOf (k.src x .v n l) = (lowWord k x .v n l).val.toNat := by
  rw [src_v_eq]
  rfl

theorem Block.backTo_lt (k : Block) (x : Group) (l : Nat) : k.backTo x l < 2 ^ 48 := by
  have h0 := (lowWord k x .v 0 l).val.isLt
  have h1 := Nat.mod_lt (lowWord k x .v 1 l).val.toNat (show 0 < 2 ^ 16 by decide)
  unfold Block.backTo
  omega

/-- The chain heads with those that lanes return to as headers (R73). -/
def Block.returnHeads (k : Block) (x : Group) (act hs : List Nat) : List Nat :=
  (act.map (fun l => (l, k.backTo x l, k.backIdx x l))).foldl (fun h p => if p.2.2 = 0 then insNat p.2.1 h else h) hs

/-- A lane that returns (R73). -/
def Lane.returns (z : Lane) (p : Nat × Nat) : Lane := retLane { z with depth := z.depth - 1 } p.1 p.2

section
variable {s : State} {b g : Nat} {k : Block} {x : Group}

/-- The check pass of `ret` for a lane whose slots lie in its window (R73). -/
theorem retBad_eq (hs : SlotsIn k x [(.v, 0), (.v, 1)]) (l : Nat) :
    retBad k x l = if (x.lane l).depth = 0 then some (0x0C, 0)
      else if rok (lowWord k x .v 0 l) = true ∧ rok (lowWord k x .v 1 l) = true then
        (if k.backTo x l % 4 = 0 then none else some (0x05, k.backTo x l))
      else some (0x04, 0) := by
  have ht : targetBad (k.backTo x l) = if k.backTo x l % 4 = 0 then none else some 0x05 := by
    unfold targetBad
    rw [if_neg (Nat.not_le.2 (k.backTo_lt x l)), ite_not]
  have e : retBad k x l = if (x.lane l).depth = 0 then some (0x0C, 0) else if !k.slotsOk x [(.v, 0), (.v, 1)] then some (0x07, 0)
      else if !rok (lowWord k x .v 0 l) || !rok (lowWord k x .v 1 l) then some (0x04, 0)
      else match targetBad (k.backTo x l) with
        | some c => some (c, k.backTo x l)
        | none => none := by
    unfold retBad
    dsimp only
    rw [lowWord_eq_headD, lowWord_eq_headD]
    rfl
  rw [e, hs.ok, ht]
  congr 1
  cases rok (lowWord k x .v 0 l) with
  | false => rfl
  | true =>
    cases rok (lowWord k x .v 1 l) with
    | false => rfl
    | true =>
      by_cases h4 : k.backTo x l % 4 = 0
      · simp [h4]
      · simp [h4]

/-- A `ret` by the group, step by step (R73). -/
theorem execRet_group (hi : s.Issues b g k x) :
    exec .ret s = match firstBad (s.cur.act.map (fun l => (l, retBad k x l))) with
      | some e => .next (s.raiseFor e.1 e.2.1 e.2.2)
      | none => match s.refillStep k x s.cur.act with
        | some s1 => .next s1
        | none => .next (s.retire.updBlk b (fun q => q.moves g
            (fun y => y.mapLanes s.cur.act (fun l z => z.returns (k.backTo x l, k.backIdx x l)))
            (k.returnHeads x s.cur.act))) := by
  have hts : (s.cur.act.map fun l => (l, valOf (k.src x .v 0 l) + 2 ^ 32 * (valOf (k.src x .v 1 l) % 65536), fld (valOf (k.src x .v 1 l)) 19 16)) =
      s.cur.act.map (fun l => (l, k.backTo x l, k.backIdx x l)) := by
    simp only [valOf_src_v]
    rfl
  show execRet s = _
  unfold execRet
  rw [hi.agent]
  dsimp only
  rw [joinWord_eq hi, hi.blk_id, hi.grp_num, hts]
  simp only [← foldl_setLane Lane.returns]
  rfl

end

/-- `ret` closes frames, refills one, or finds lanes at depth 0 (R58, R70, R73, R123). -/
theorem returnsCloseAFrame : ReturnsCloseAFrame := by
  intro s b g k x hi hs w0 w1 dest idx
  have hgood : ∀ l, (x.lane l).depth ≠ 0 → rok (w0 l) = true ∧ rok (w1 l) = true ∧ dest l % 4 = 0 → retBad k x l = none := fun l hd ⟨h0, h1, h4⟩ => by
    rw [retBad_eq hs, if_neg hd, if_pos ⟨h0, h1⟩]
    exact if_pos h4
  refine ⟨fun h => ?_, fun l s1 ws h hl hr hc => ?_, fun hne h => ?_⟩
  · have hrefill : s.refillStep k x s.cur.act = none := by
      unfold State.refillStep
      rw [firstOf_none]
      intro l hl
      obtain ⟨-, -, -, hd, hlo⟩ := h l hl
      exact decide_eq_false (by omega)
    have hret := execRet_group hi
    rw [firstBad_eq_none fun l hl => hgood l (Nat.ne_of_gt (h l hl).2.2.2.1) ⟨(h l hl).1, (h l hl).2.1, (h l hl).2.2.1⟩, hrefill] at hret
    obtain ⟨k0, x0, k1, hp, h0, h1, hblk, hx, hk, -⟩ := retire_moves hi s.cur.act (fun l z => z.returns (k.backTo x l, k.backIdx x l))
      (k.returnHeads x s.cur.act)
    exact ⟨_, _, k0, x0, k1, _, hp, hret, h0, h1, ⟨_, rfl⟩, hblk, hx, hk, fun l => Group.lane_mapLanes x0 _ _ l hi.actOnce⟩
  · have hrefill : s.refillStep k x s.cur.act =
        some ((s1.updGrp b g (fun y => (y.putWords ws).setLane l { y.lane l with lo := (x.lane l).depth - 1 })).wait .window) := by
      unfold State.refillStep
      rw [hl]
      dsimp only
      rw [hr, hi.blk_id, hi.grp_num]
      dsimp only
      rw [hc]
      rfl
    rw [execRet_group hi, firstBad_eq_none fun j hj => hgood j (Nat.ne_of_gt (h j hj).2.2.2) ⟨(h j hj).1, (h j hj).2.1, (h j hj).2.2.1⟩, hrefill]
  · have hzero : ∀ l, (x.lane l).depth = 0 → retBad k x l = some (0x0C, 0) := fun l hd => by rw [retBad_eq hs, if_pos hd]
    obtain ⟨l, hl⟩ := List.exists_mem_of_ne_nil _ hne
    obtain ⟨hact, hd⟩ := List.mem_filter.1 hl
    obtain ⟨j, hj, c, i, he, hf⟩ := firstBad_eq_some (f := retBad k x) ⟨l, hact, by simp [hzero l (of_decide_eq_true hd)]⟩
    have hj0 : (x.lane j).depth = 0 := Decidable.byContradiction fun hn => by
      rw [hgood j hn (h j hj hn)] at he
      cases he
    rw [hzero j hj0] at he
    cases he
    have hmask : s.cur.act.filter (fun j => (retBad k x j).any (fun e => decide (e.1 = 0x0C))) =
        s.cur.act.filter (fun l => decide ((x.lane l).depth = 0)) := List.filter_congr fun m hm => by
      by_cases hm0 : (x.lane m).depth = 0
      · rw [hzero m hm0, decide_eq_true hm0]
        rfl
      · rw [hgood m hm0 (h m hm hm0), decide_eq_false hm0]
        rfl
    rw [execRet_group hi, hf, hmask]

/-- Settles O23: a `call` by the frames that its lanes open once none has to be spilled, a `ret` by the check of every lane before any moves. -/
theorem framesOpenAndClose : Obligations.FramesOpenAndClose := ⟨callsOpenAFrame, returnsCloseAFrame⟩

end Sys2Proof.Machine
